-- ==== Sys2Proof/Word.lean ====
section
/-!
DEFINITION. The words of the machine (spec/00_scope.md R4) and their plainest arithmetic: little-endian byte lists,
bit fields written high:low, and bytes read from a list.
-/
namespace Sys2Proof

/-- One byte. -/
abbrev Byte := BitVec 8
/-- A 64-bit register or record word. -/
abbrev W64 := BitVec 64
/-- A 32-bit lane value. -/
abbrev W32 := BitVec 32
/-- A 128-byte line: byte `i` is bits `8i+7:8i` (R4). -/
abbrev Line := BitVec 1024
/-- A byte mask of a line: bit `i` stands for byte `i`. -/
abbrev Mask := BitVec 128

/-- Field `h:l` of a number, as R4 writes it. -/
def fld (h l : Nat) (x : Nat) : Nat := (x >>> l) % 2 ^ (h + 1 - l)

/-- Bit `i` of a number. -/
def bitOf (i x : Nat) : Bool := x.testBit i

/-- The little-endian value of a byte list (R4). -/
def leNat : List Byte → Nat
  | [] => 0
  | b :: bs => b.toNat + 256 * leNat bs

/-- The `n` little-endian bytes of a number (R4). -/
def leBytes : Nat → Nat → List Byte
  | 0, _ => []
  | n + 1, x => BitVec.ofNat 8 x :: leBytes n (x / 256)

/-- A number taken as signed in `w` bits. -/
def sInt (w : Nat) (x : Nat) : Int :=
  let y := x % 2 ^ w
  if 2 ^ w ≤ 2 * y then (y : Int) - 2 ^ w else y

/-- An integer taken modulo `2^w`. -/
def wrapI (w : Nat) (x : Int) : Nat := (x % (2 ^ w : Int)).toNat

/-- Ceiling division. -/
def ceilDiv (a b : Nat) : Nat := (a + b - 1) / b

end Sys2Proof
end

