-- ==== Sys2Proof/Machine/Float.lean ====
section
/-!
DEFINITION. Number formats (spec/08_number_formats.md): the floating-point formats and their rounding (R159 to R162), LOG6
(R164 to R166), the accumulator element (R169, R170), and the exact values that they are computed through.
-/
namespace Sys2Proof.Machine

/-! ## Sticky flags (R163) -/

abbrev Flags := BitVec 5
def fNX : Flags := 1
def fUF : Flags := 2
def fOF : Flags := 4
def fDZ : Flags := 8
def fIV : Flags := 16

/-- NX where a result is not exact. -/
def nxIf (b : Bool) : Flags := if b then fNX else 0

/-! ## Exact values -/

/-- A number: NaN (signalling or not), infinity, or (−1)^neg × m × 2^e exactly. -/
inductive FV where
  | nan (sig : Bool)
  | inf (neg : Bool)
  | fin (neg : Bool) (m : Nat) (e : Int)
  deriving DecidableEq, Repr

def FV.isNan : FV → Bool | .nan _ => true | _ => false
def FV.isSig : FV → Bool | .nan b => b | _ => false
def FV.isZero : FV → Bool | .fin _ 0 _ => true | _ => false
def FV.neg : FV → Bool | .nan _ => false | .inf b => b | .fin b _ _ => b
/-- The value with its sign changed. -/
def FV.flip : FV → FV | .nan b => .nan b | .inf b => .inf (!b) | .fin b m e => .fin (!b) m e
/-- IV for a signalling NaN operand (R160). -/
def FV.sigFlag (v : FV) : Flags := if v.isSig then fIV else 0
/-- An integer as an exact value; zero is +0. -/
def FV.ofInt (x : Int) : FV := .fin (decide (x < 0)) x.natAbs 0

/-! ## Formats (R159, Table 8.1) -/

/-- A floating-point format: exponent and fraction bits, bias, and whether it is E4M3. -/
structure Fmt where
  eb : Nat
  fb : Nat
  bias : Nat
  e4m3 : Bool := false
  deriving DecidableEq, Repr

def fmtF32 : Fmt := { eb := 8, fb := 23, bias := 127 }
def fmtF16 : Fmt := { eb := 5, fb := 10, bias := 15 }
def fmtBF16 : Fmt := { eb := 8, fb := 7, bias := 127 }
def fmtE4M3 : Fmt := { eb := 4, fb := 3, bias := 7, e4m3 := true }
def fmtE5M2 : Fmt := { eb := 5, fb := 2, bias := 15 }

/-- The sign bit's weight. -/
def Fmt.signW (F : Fmt) : Nat := 2 ^ (F.eb + F.fb)
/-- The bits of the largest finite magnitude. -/
def Fmt.maxBits (F : Fmt) : Nat := if F.e4m3 then 0x7E else (2 ^ F.eb - 1) * 2 ^ F.fb - 1
/-- The bits of +∞; E4M3 has none and gives its NaN (Table 8.3). -/
def Fmt.infBits (F : Fmt) : Nat := F.maxBits + 1
/-- The canonical NaN (Table 8.1). -/
def Fmt.nan (F : Fmt) : Nat := if F.e4m3 then 0x7F else (2 ^ F.eb - 1) * 2 ^ F.fb + 2 ^ (F.fb - 1)
/-- The exponent of the smallest normal value. -/
def Fmt.emin (F : Fmt) : Int := 1 - F.bias

/-- Reads a value of a format; bits above the format are ignored (R157). FP8 NaNs are quiet. -/
def Fmt.read (F : Fmt) (x : Nat) : FV :=
  let s := x.testBit (F.eb + F.fb)
  let c := x % F.signW
  let E := c >>> F.fb
  let f := c % 2 ^ F.fb
  if F.e4m3 ∧ c = 0x7F then .nan false
  else if F.e4m3 = false ∧ E = 2 ^ F.eb - 1 then
    if f = 0 then .inf s else .nan (F.eb + F.fb ≥ 15 && !f.testBit (F.fb - 1))
  else if E = 0 then .fin s f (F.emin - F.fb)
  else .fin s (2 ^ F.fb + f) ((E : Int) - F.bias - F.fb)

/-- The bits of a zero, an infinity or a largest finite value of sign `s`. -/
def Fmt.sgn (F : Fmt) (s : Bool) (c : Nat) : Nat := if s then F.signW + c else c
def Fmt.infOf (F : Fmt) (s : Bool) : Nat := if F.e4m3 then 0x7F else F.sgn s F.infBits

/-! ## Rounding (R161, R162) -/

/-- RoundInt of the magnitude `m × 2^sh` of sign `neg` (Table 8.2): the integer and whether it differs. -/
def roundMag (mode : Nat) (neg : Bool) (m : Nat) (sh : Int) : Nat × Bool :=
  if 0 ≤ sh then (m <<< sh.toNat, false)
  else if m = 0 then (0, false)
  else
    let n := min (-sh).toNat (Nat.log2 m + 2)
    let q := m >>> n
    let r := m - q <<< n
    let up : Bool :=
      match mode with
      | 0 => decide (2 ^ n < 2 * r) || (decide (2 ^ n = 2 * r) && q % 2 == 1)
      | 1 => false
      | 2 => neg && r != 0
      | _ => !neg && r != 0
    (if up then q + 1 else q, r != 0)

/-- The mode rounds an overflow of sign `s` to the largest finite value (Table 8.3). -/
def towardMax (mode : Nat) (s sat : Bool) : Bool := sat || mode == 1 || (mode == 2 && !s) || (mode == 3 && s)

/-- Round(v, F, m, sat) (R162). -/
def roundF (F : Fmt) (mode : Nat) (sat : Bool) : FV → Nat × Flags
  | .nan _ => (F.nan, 0)
  | .inf s => (if sat then F.sgn s F.maxBits else F.infOf s, 0)
  | .fin s m x =>
    if m = 0 then (F.sgn s 0, 0)
    else
      let e := max ((Nat.log2 m : Int) + x) F.emin
      let (k, nx) := roundMag mode s m (x - e + F.fb)
      let c := ((e + F.bias).toNat * 2 ^ F.fb + k) - 2 ^ F.fb
      if F.maxBits < c then
        (if towardMax mode s sat then F.sgn s F.maxBits else F.infOf s, fOF ||| fNX)
      else (F.sgn s c, nxIf nx ||| (if nx ∧ c < 2 ^ F.fb then fUF else 0))

/-! ## Exact arithmetic (R181) -/

/-- a × b, with IV for 0 × ∞; NaN operands give NaN. -/
def mulV (a b : FV) : FV × Flags :=
  let iv := a.sigFlag ||| b.sigFlag
  if a.isNan || b.isNan then (.nan false, iv)
  else match a, b with
    | .fin s m x, .fin t n y => (.fin (s != t) (m * n) (x + y), iv)
    | .inf s, .inf t => (.inf (s != t), iv)
    | .inf s, .fin t n _ => if n = 0 then (.nan false, fIV) else (.inf (s != t), iv)
    | .fin s m _, .inf t => if m = 0 then (.nan false, fIV) else (.inf (s != t), iv)
    | _, _ => (.nan false, iv)

/-- a + b under rounding mode `mode` (which signs an exact zero), with IV for opposite infinities. -/
def addV (mode : Nat) (a b : FV) : FV × Flags :=
  let iv := a.sigFlag ||| b.sigFlag
  if a.isNan || b.isNan then (.nan false, iv)
  else match a, b with
    | .inf s, .inf t => if s = t then (.inf s, iv) else (.nan false, fIV)
    | .inf s, _ => (.inf s, iv)
    | _, .inf t => (.inf t, iv)
    | .fin s m x, .fin t n y =>
      if m = 0 ∧ n = 0 then (.fin (if s = t then s else mode == 2) 0 0, iv)
      else if m = 0 then (.fin t n y, iv)
      else if n = 0 then (.fin s m x, iv)
      else
        let z := min x y
        let v : Int := (if s then -1 else 1) * (m <<< (x - z).toNat : Nat) + (if t then -1 else 1) * (n <<< (y - z).toNat : Nat)
        if v = 0 then (.fin (mode == 2) 0 0, iv) else (.fin (decide (v < 0)) v.natAbs z, iv)
    | _, _ => (.nan false, iv)

/-- FADD, FMUL and FFMA of format `F` (R181). -/
def fAdd (F : Fmt) (mode : Nat) (a b : FV) : Nat × Flags :=
  let (v, iv) := addV mode a b
  let (r, fl) := roundF F mode false v
  (r, iv ||| fl)
def fMul (F : Fmt) (mode : Nat) (a b : FV) : Nat × Flags :=
  let (v, iv) := mulV a b
  let (r, fl) := roundF F mode false v
  (r, iv ||| fl)
def fFma (F : Fmt) (mode : Nat) (a b c : FV) : Nat × Flags :=
  let (p, i1) := mulV a b
  let (v, i2) := addV mode p c
  let (r, fl) := roundF F mode false v
  (r, i1 ||| i2 ||| fl)

/-- SCALE: a × 2^k (R181). -/
def fScale (F : Fmt) (mode : Nat) (a : FV) (k : Int) : Nat × Flags :=
  match a with
  | .fin s m x => roundF F mode false (.fin s m (x + k))
  | v => let (r, fl) := roundF F mode false v; (r, v.sigFlag ||| fl)

/-- Whether finite or infinite `a` lies below `b`; zeros are equal. -/
def ltV (a b : FV) : Bool :=
  match addV 0 a b.flip with
  | (.fin s m _, _) => s && m != 0
  | (.inf s, _) => s
  | (.nan _, _) => a.neg && !b.neg

/-- Equality of numbers; zeros are equal. -/
def eqV (a b : FV) : Bool := !ltV a b && !ltV b a

/-- FMIN (`lo`) and FMAX on the bits of a format (R182): −0 below +0. -/
def fMinMax (F : Fmt) (lo : Bool) (x y : Nat) : Nat × Flags :=
  let a := F.read x
  let b := F.read y
  let iv := a.sigFlag ||| b.sigFlag
  let cut := fun v => v % (2 * F.signW)
  if a.isNan && b.isNan then (F.nan, iv)
  else if a.isNan then (cut y, iv)
  else if b.isNan then (cut x, iv)
  else
    let aLess := if eqV a b then a.neg && !b.neg else ltV a b
    (if aLess = lo then cut x else cut y, iv)

/-- FCMP (R183, Table 9.5). -/
def fCmp (cond : Nat) (a b : FV) : Bool × Flags :=
  let nan := a.isNan || b.isNan
  let sig := a.sigFlag ||| b.sigFlag
  let ord := if nan then fIV else 0
  match cond with
  | 0 => (!nan && eqV a b, sig)
  | 1 => (nan || !eqV a b, sig)
  | 2 => (!nan && ltV a b, ord)
  | 3 => (!nan && !ltV b a, ord)
  | 4 => (!nan && ltV b a, ord)
  | 5 => (!nan && !ltV a b, ord)
  | _ => (nan, sig)

/-! ## Transcendental operations (R184)

Each exact value is irrational or a quotient of 24-bit numbers except where R184 names it, so it is handed to Round as a
number `2 m + 1` at half the weight of a cut at least 100 bits below the result's last place: it lies on the same side of
every rounding boundary as the exact value. Fixed-point values below hold 256 fraction bits. -/

/-- `m × 2^e` rounded exactly if `ex`, and else anything strictly between it and `(m + 1) × 2^e`. -/
def cutV (neg : Bool) (m : Nat) (e : Int) (ex : Bool) : FV :=
  if ex then .fin neg m e else .fin neg (2 * m + 1) (e - 1)

/-- 1/a of a finite nonzero value. -/
def rcpV (neg : Bool) (m : Nat) (e : Int) : FV :=
  let n := 2 ^ 128
  cutV neg (n / m) (-e - 128) (n % m = 0)

/-- Integer square root by digits, from bit `i` down. -/
def isqrtFrom (x : Nat) : Nat → Nat → Nat
  | 0, r => r
  | i + 1, r => let t := r + 2 ^ i; isqrtFrom x i (if t * t ≤ x then t else r)

/-- 1/√a of a positive finite value. -/
def rsqV (m : Nat) (e : Int) : FV :=
  let odd := e % 2
  let m' := if odd = 0 then m else 2 * m
  let h := (e - odd) / 2
  let n := 2 ^ 256
  let r := isqrtFrom (n / m') 130 0
  cutV false r (-h - 128) (r * r * m' = n)

/-- The terms z^(2k+1)/(2k+1) of artanh, in fixed point; `p` is z^(2k+1), `z2` is z². -/
def atanhSum (z2 : Nat) : Nat → Nat → Nat → Nat
  | 0, _, _ => 0
  | n + 1, k, p => p / (2 * k + 1) + atanhSum z2 n (k + 1) (p * z2 / 2 ^ 256)

/-- ln of (a / b) for a / b from 1 to 2. -/
def lnFix (a b : Nat) : Nat :=
  let z := (a - b) * 2 ^ 256 / (a + b)
  2 * atanhSum (z * z / 2 ^ 256) 90 0 z

/-- ln 2. -/
def ln2Fix : Nat := lnFix 2 1

/-- The terms x^k/k! of e^x. -/
def expSum (x : Nat) : Nat → Nat → Nat → Nat
  | 0, _, _ => 0
  | n + 1, k, t => t + expSum x n (k + 1) (t * x / 2 ^ 256 / (k + 1))

/-- e^x for x from 0 to 1. -/
def expFix (x : Nat) : Nat := expSum x 70 0 (2 ^ 256)

/-- A fixed-point value cut 60 bits above its last place, as a value of the other side of no boundary. -/
def fixV (neg : Bool) (x : Nat) (e : Int) : FV := cutV neg (x >>> 60) (e - 196) false

/-- 2^a of a finite nonzero value. -/
def exp2V (neg : Bool) (m : Nat) (e : Int) : FV :=
  let lg := (Nat.log2 m : Int) + e
  if lg < -40 then cutV false (if neg then 2 ^ 40 - 1 else 2 ^ 40) (-40) false
  else if 12 ≤ lg then cutV false 1 (if neg then -4096 else 4096) false
  else
    let y : Int := (if neg then -1 else 1) * (m : Int) * 2 ^ (e + 256).toNat
    let i := y / 2 ^ 256
    let f := (y - i * 2 ^ 256).toNat
    if f = 0 then .fin false 1 i else fixV false (expFix (f * ln2Fix / 2 ^ 256)) i

/-- log2 a of a positive finite value. -/
def log2V (m : Nat) (e : Int) : FV :=
  let l := Nat.log2 m
  let i := (l : Int) + e
  if m = 2 ^ l then FV.ofInt i
  else
    let y : Int := i * 2 ^ 256 + (lnFix m (2 ^ l) * 2 ^ 256 / ln2Fix : Nat)
    fixV (decide (y < 0)) y.natAbs 0

/-- tanh a of a finite nonzero value. -/
def tanhV (neg : Bool) (m : Nat) (e : Int) : FV :=
  let lg := (Nat.log2 m : Int) + e
  if lg < -40 then cutV neg (m * 2 ^ 60 - 1) (e - 60) false
  else if 5 ≤ lg then cutV neg (2 ^ 64 - 1) (-64) false
  else
    let y := m * 2 ^ (e + 257).toNat
    let n := y / ln2Fix
    let E := expFix (y % ln2Fix) <<< n
    fixV neg ((E - 2 ^ 256) * 2 ^ 256 / (E + 2 ^ 256)) 0

/-- A unary operation: its exact value, or a special result and flags (Table 9.6). -/
def unaryF (special : FV → Option (Nat × Flags)) (val : Bool → Nat → Int → FV) (mode : Nat) (x : Nat) : Nat × Flags :=
  let a := fmtF32.read x
  match special a with
  | some r => r
  | none =>
    match a with
    | .fin s m e => roundF fmtF32 mode false (val s m e)
    | v => (fmtF32.nan, v.sigFlag)

/-- The zero, infinity and one of FP32. -/
def f32Inf (s : Bool) : Nat := fmtF32.infOf s
def f32Zero (s : Bool) : Nat := fmtF32.sgn s 0
def f32One (s : Bool) : Nat := fmtF32.sgn s 0x3F800000

def fRcp : Nat → Nat → Nat × Flags :=
  unaryF (fun | .inf s => some (f32Zero s, 0) | .fin s 0 _ => some (f32Inf s, fDZ) | _ => none) rcpV
def fRsq : Nat → Nat → Nat × Flags :=
  unaryF (fun
    | .inf s => some (if s then (fmtF32.nan, fIV) else (f32Zero false, 0))
    | .fin s 0 _ => some (f32Inf s, fDZ)
    | .fin true _ _ => some (fmtF32.nan, fIV)
    | _ => none) (fun _ m e => rsqV m e)
def fExp2 : Nat → Nat → Nat × Flags :=
  unaryF (fun
    | .inf s => some (if s then f32Zero false else f32Inf false, 0)
    | .fin _ 0 _ => some (f32One false, 0)
    | _ => none) exp2V
def fLog2 : Nat → Nat → Nat × Flags :=
  unaryF (fun
    | .inf s => some (if s then (fmtF32.nan, fIV) else (f32Inf false, 0))
    | .fin _ 0 _ => some (f32Inf true, fDZ)
    | .fin true _ _ => some (fmtF32.nan, fIV)
    | _ => none) (fun _ m e => log2V m e)
def fTanh : Nat → Nat → Nat × Flags :=
  unaryF (fun
    | .inf s => some (f32One s, 0)
    | .fin s 0 _ => some (f32Zero s, 0)
    | _ => none) tanhV

/-! ## LOG6 (R164 to R166) -/

/-- The decoded value of a LOG6 code; NaR is a quiet NaN (R164, R165). -/
def log6Read (x : Nat) : FV :=
  let s := x.testBit 5
  let l := sInt 5 x
  if l = -16 then if s then .nan false else .fin false 0 0
  else
    let t := match (l % 4).toNat with | 0 => 32768 | 1 => 38968 | 2 => 46341 | _ => 55109
    .fin s t (l / 4 - 15)

/-- The code of sign `s` and quarter-logarithm `l`. -/
def log6Code (s : Bool) (l : Int) : Nat := (if s then 32 else 0) + wrapI 5 l

/-- RoundLog6(v, m, sat) (R166): λ = 4 log2 |v| is compared through v^4 and v^8. -/
def roundLog6 (mode : Nat) (sat : Bool) : FV → Nat × Flags
  | .nan _ => (0x30, 0)
  | .inf s => (if sat then log6Code s 15 else 0x30, 0)
  | .fin s m e =>
    if m = 0 then (0x10, 0)
    else
      let fl : Int := (Nat.log2 (m ^ 4) : Int) + 4 * e
      let ex : Bool := m ^ 4 = 2 ^ Nat.log2 (m ^ 4)
      let near : Int := ((Nat.log2 (m ^ 8) : Int) + 8 * e + 1) / 2
      let ceil := if ex then fl else fl + 1
      let l := match mode with
        | 0 => near
        | 1 => fl
        | 2 => if s then ceil else fl
        | _ => if s then fl else ceil
      if 15 < l then (if towardMax mode s sat then log6Code s 15 else 0x30, fOF ||| fNX)
      else if l < -15 then
        (if (mode = 3 ∧ s = false) ∨ (mode = 2 ∧ s) then log6Code s (-15) else 0x10, fUF ||| fNX)
      else (log6Code s l, nxIf (!ex))

/-! ## The accumulator element (R169, R170) -/

/-- Reads an accumulator element. -/
def acc34Read (a : BitVec 34) : FV :=
  let x := a.toNat
  let s := x.testBit 33
  let E := fld 32 23 x
  let f := fld 22 0 x
  if E = 0 then .fin s 0 0
  else if E = 0x3FF then if f = 0 then .inf s else .nan false
  else .fin s (2 ^ 23 + f) ((E : Int) - 511 - 23)

/-- The element of an exact value, rounded to 24 significand bits by .RNE (R170). -/
def acc34Of : FV → BitVec 34
  | .nan _ => BitVec.ofNat 34 (0x3FF * 2 ^ 23 + 0x400000)
  | .inf s => BitVec.ofNat 34 (s.toNat * 2 ^ 33 + 0x3FF * 2 ^ 23)
  | .fin s m e =>
    if m = 0 then BitVec.ofNat 34 (s.toNat * 2 ^ 33)
    else
      let x : Int := (Nat.log2 m : Int) + e
      let (k, _) := roundMag 0 s m (e - x + 23)
      BitVec.ofNat 34 (s.toNat * 2 ^ 33 + ((x + 510).toNat * 2 ^ 23 + k))

/-- One addition into an accumulator element (R170). -/
def acc34Add (a : BitVec 34) (b : FV) : BitVec 34 := acc34Of (addV 0 (acc34Read a) b).1

end Sys2Proof.Machine
end

