-- ==== Sys2Proof/Config.lean ====
section
/-!
DEFINITION. Constants without a body: values that the spec leaves open, and secrets of a package. No proof can see what
they are.
-/
namespace Sys2Proof

/-- A value that the spec leaves open, by the count of such values drawn so far (log 5). -/
opaque Config.freeValue : Nat → W64

/-- The 256-bit value of the `n`-th draw of the package's deterministic random-bit generator (04 R92; log 8). -/
opaque Config.drbgKey : Nat → BitVec 256

/-- Where a counter block or tree node stands in the metadata region of its stack, and the 96-bit IV of its MAC, of its address and its
counter in its parent: the spec gives neither layout (04 R71, R96; log 83). -/
opaque Config.metaAddr : Nat → Nat
opaque Config.metaIv : Nat → Nat → BitVec 96

/-- The Falcon-1024 signature of a message by the package's identity key (20 R395; log 8). -/
opaque Config.sign : List Byte → List Byte

/-- Whether a Falcon-1024 signature of a message verifies under a public key (17 R350, 20 R394; log 8). -/
opaque Config.verify : List Byte → List Byte → List Byte → Bool

/-- The package bytes, up to the signature, of the quick translation of a kernel: a deterministic function of the kernel's bytes,
its constant pool and the key's words (17 R344; log 9). -/
opaque Config.quickPkg : List Byte → List Byte → List W64 → List Byte

/-- The bundle index of a segment's entry in the quick translation of a kernel, by kernel hash and segment (17 R343; log 9). -/
opaque Config.quickBundle : BitVec 128 → Nat → Nat

/-- The loop-end bundle that stands at a segment's end in the quick translation of a kernel, if one does, by kernel hash and segment (17 R343; log 9). -/
opaque Config.quickLoopEnd : BitVec 128 → Nat → Option Nat

/-- The package's serial number and the public half of its identity key (20 R395, R399; log 8). -/
opaque Config.serial : W64
opaque Config.idPublic : List Byte

/-- The parts of a firmware image, whose layout the spec does not give: the public key, the signature, and the security version and
TVER that it carries (20 R394; log 8). -/
opaque Config.fwKey : List Byte → List Byte
opaque Config.fwSig : List Byte → List Byte
opaque Config.fwVersions : List Byte → BitVec 16 × BitVec 16

/-- The fused hash of the firmware key and the fused minimum of the security version (20 R394; log 8). -/
opaque Config.fusedHash : List Byte
opaque Config.fusedMin : BitVec 16

end Sys2Proof
end

