-- ==== Sys2Proof/Forms.lean ====
section
/-!
DEFINITION. The operand forms of instructions: the fields of a Burhus instruction (spec/02_burhus_code.md R19 to R24)
and of each slot of a native bundle (spec/03_fjoset_bundles.md Tables 3.3 to 3.9, spec/10_matrix_engine.md Table 10.4),
and the operand types of commands and events.
-/
namespace Sys2Proof

/-- A Burhus instruction's fields (R19): guard prefix number G (R23), the immediate page (R28), modifier bytes (R24)
and the operands by role; a role that the opcode map does not list is 0. -/
structure BIns where
  guard : Option Nat := none
  immPage : Bool := false
  m1 : Byte := 0
  m2 : Byte := 0
  d : Nat := 0
  a : Nat := 0
  b : Nat := 0
  c : Nat := 0
  e : Nat := 0
  f : Nat := 0
  i : Int := 0
  n1 : Nat := 0
  n2 : Nat := 0
  deriving DecidableEq, Repr

/-- The scalar slot (Table 3.3) without its opcode; `imx` is the bundle's IMX when the slot reads it, else 0. -/
structure SSlot where
  lat : BitVec 3 := 0
  gq : BitVec 2 := 0
  ge : Bool := false
  gn : Bool := false
  ty : BitVec 4 := 0
  rnd : BitVec 2 := 0
  sat : Bool := false
  sub : BitVec 4 := 0
  im : Bool := false
  sd : BitVec 5 := 0
  sa : BitVec 5 := 0
  sb : BitVec 5 := 0
  sc : BitVec 5 := 0
  imx : BitVec 32 := 0
  deriving DecidableEq, Repr

/-- The vector slot (Table 3.4) without its opcode; `imx` as in `SSlot`; `bcs` names the scalar register of the
broadcast port (R54) when BB is 1, else 0. -/
structure VSlot where
  lat : BitVec 4 := 0
  gp : BitVec 3 := 0
  ge : Bool := false
  gn : Bool := false
  ty : BitVec 4 := 0
  rnd : BitVec 2 := 0
  sat : Bool := false
  sub : BitVec 4 := 0
  bb : Bool := false
  im : Bool := false
  vd : BitVec 6 := 0
  va : BitVec 6 := 0
  vb : BitVec 6 := 0
  vc : BitVec 6 := 0
  imx : BitVec 32 := 0
  bcs : BitVec 5 := 0
  deriving DecidableEq, Repr

/-- The memory and engine slot (Table 3.6) without its opcode. -/
structure LSlot where
  lat : BitVec 7 := 0
  gp : BitVec 3 := 0
  ge : Bool := false
  gn : Bool := false
  ty : BitVec 4 := 0
  pol : BitVec 2 := 0
  scope : BitVec 3 := 0
  aop : BitVec 4 := 0
  dv : Bool := false
  d : BitVec 6 := 0
  ar : BitVec 2 := 0
  xe : Bool := false
  xc : Bool := false
  x : BitVec 6 := 0
  im : Bool := false
  disp : BitVec 12 := 0
  imx : BitVec 32 := 0
  deriving DecidableEq, Repr

/-- The matrix slot (Tables 3.5 and 10.4) without its opcode. -/
structure MSlot where
  z : Bool := false
  fw : BitVec 5 := 0
  aa : BitVec 2 := 0
  ab : BitVec 2 := 0
  nstep : BitVec 12 := 0
  asrc : BitVec 2 := 0
  bsrc : BitVec 2 := 0
  deriving DecidableEq, Repr

/-- The branch slot (Table 3.8) without its opcode; `imx` when PBR reads it, else 0. -/
structure BSlot where
  gq : BitVec 2 := 0
  ge : Bool := false
  gn : Bool := false
  opnd : BitVec 20 := 0
  imx : BitVec 32 := 0
  deriving DecidableEq, Repr

/-- The operand form of an operation that both instruction sets have: Burhus, or the slot that carries it. -/
inductive Form where
  | bur (f : BIns)
  | s (f : SSlot)
  | v (f : VSlot)
  | l (f : LSlot)
  deriving DecidableEq, Repr

/-- The operand form of TRAP and BRK (spec/14_control_flow.md R303): Burhus, or the branch slot. -/
inductive TrapForm where
  | bur (f : BIns)
  | b (f : BSlot)
  deriving DecidableEq, Repr

/-- A master of the package (spec/19_partitions_tenants.md Table 19.1): its class (1 host, 2 fabric manager,
3 management controller; 0 for a function mailbox) and endpoint (for a function mailbox, the function number). -/
structure Master where
  cls : Nat := 0
  ep : Nat := 0
  deriving DecidableEq, Repr

/-- The header of a command (spec/20_reliability_boot_host.md R398): who sent it, and its TAG. -/
structure CmdHdr where
  from_ : Master := {}
  tag : BitVec 16 := 0
  deriving DecidableEq, Repr

/-- An access kind of the memory system (spec/04_hbm_translation_protection.md R89). -/
inductive Acc where
  | read | write | fetch
  deriving DecidableEq, Repr

/-- Where an uncorrectable error lies (spec/18_traps_preemption_containment.md Table 18.3). -/
inductive ErrPlace where
  | cleanLine (line : Nat)
  | scratchBank (bank : Nat)
  | dirtyOrRegister
  | pairsSignature
  | hbmLine (line : Nat)
  | engineBuffer (die cls eng : Nat)
  deriving DecidableEq, Repr

/-- The events of Table 18.6: a failed node of an owner's counter tree, with the first and the number of the chunks beneath it in tree
order; shared parts of a die whose state survives, or is lost. -/
inductive ContainKind where
  | ownerTree (owner first chunks : Nat)
  | dieSurvives (die : Nat)
  | dieLost (die : Nat)
  deriving DecidableEq, Repr

/-- A fault location of Table 20.1 by UNRETIRE's kind (0 granule, 1 core, 2 L2 bank, 3 lift-ring segment, 4 gondola,
5 walkers of a die, 6 HBM controller) and index (R399). -/
structure Loc where
  kind : Nat
  index : Nat
  deriving DecidableEq, Repr

end Sys2Proof
end

