-- ==== Sys2Proof/Syntax.lean ====
section
/-!
DEFINITION. The instructions: one constructor per row of spec/opcode_table.json, in its order, but that twelve events
without operands stand last (the compiled runtime numbers only 245 constructors that carry operands). The first rows are
operations of Burhus code and of the native slots (spec/02 to spec/18), the rest the events and the service commands of
the package (spec/95_what_each_step_holds.md, spec/20_reliability_boot_host.md Table 20.2).
-/
namespace Sys2Proof

/-- Every step of the machine: the operations, the events and the commands of spec/opcode_table.json. -/
inductive Instr where
  /-- IADD (R179). -/
  | iadd (f : Form)
  /-- ISUB (R179). -/
  | isub (f : Form)
  /-- IMUL (R179). -/
  | imul (f : Form)
  /-- IMULH (R179). -/
  | imulh (f : Form)
  /-- IMAD (R179). -/
  | imad (f : Form)
  /-- IMIN (R179). -/
  | imin (f : Form)
  /-- IMAX (R179). -/
  | imax (f : Form)
  /-- IABS (R179). -/
  | iabs (f : Form)
  /-- INEG (R179). -/
  | ineg (f : Form)
  /-- AND (R179). -/
  | and_ (f : Form)
  /-- OR (R179). -/
  | or_ (f : Form)
  /-- XOR (R179). -/
  | xor_ (f : Form)
  /-- NOT (R179). -/
  | not_ (f : Form)
  /-- ANDN (R179). -/
  | andn (f : Form)
  /-- SHL (R179). -/
  | shl (f : Form)
  /-- SHR (R179). -/
  | shr (f : Form)
  /-- SAR (R179). -/
  | sar (f : Form)
  /-- ROT (R179). -/
  | rot (f : Form)
  /-- POPC (R179). -/
  | popc (f : Form)
  /-- CLZ (R179). -/
  | clz (f : Form)
  /-- BREV (R179). -/
  | brev (f : Form)
  /-- BFX (R179). -/
  | bfx (f : Form)
  /-- BFI (R179). -/
  | bfi (f : Form)
  /-- SEL (R179). -/
  | sel (f : Form)
  /-- ICMP (R179). -/
  | icmp (f : Form)
  /-- MOV (R179). -/
  | mov (f : Form)
  /-- MOVI (R179). -/
  | movi (f : Form)
  /-- LEA (R179). -/
  | lea (f : Form)
  /-- IDIV (R180). -/
  | idiv (f : BIns)
  /-- IREM (R180). -/
  | irem (f : BIns)
  /-- FADD (R181). -/
  | fadd (f : Form)
  /-- FSUB (R181). -/
  | fsub (f : Form)
  /-- FMUL (R181). -/
  | fmul (f : Form)
  /-- FFMA (R181). -/
  | ffma (f : Form)
  /-- SCALE (R181). -/
  | scale (f : Form)
  /-- FMIN (R182). -/
  | fmin (f : Form)
  /-- FMAX (R182). -/
  | fmax (f : Form)
  /-- FCMP (R183). -/
  | fcmp (f : Form)
  /-- FRCP (R184). -/
  | frcp (f : Form)
  /-- FRSQ (R184). -/
  | frsq (f : Form)
  /-- FEXP2 (R184). -/
  | fexp2 (f : Form)
  /-- FLOG2 (R184). -/
  | flog2 (f : Form)
  /-- FTANH (R184). -/
  | ftanh (f : Form)
  /-- FDOT4 (R185). -/
  | fdot4 (f : BIns)
  /-- HADD2 (R186). -/
  | hadd2 (f : Form)
  /-- HMUL2 (R186). -/
  | hmul2 (f : Form)
  /-- HFMA2 (R186). -/
  | hfma2 (f : Form)
  /-- HDOT2 (R187). -/
  | hdot2 (f : BIns)
  /-- CVT (R188). -/
  | cvt (f : Form)
  /-- PACK (R189). -/
  | pack (f : Form)
  /-- UNPACK (R190). -/
  | unpack (f : Form)
  /-- VOTE_ANY (R192). -/
  | voteAny (f : Form)
  /-- VOTE_ALL (R192). -/
  | voteAll (f : Form)
  /-- VOTE_BALLOT (R192). -/
  | voteBallot (f : Form)
  /-- VOTE_EQ (R193). -/
  | voteEq (f : BIns)
  /-- SHFL (R194). -/
  | shfl (f : Form)
  /-- CRED (R195). -/
  | cred (f : Form)
  /-- LD (R225). -/
  | ld (f : Form)
  /-- ST (R226). -/
  | st (f : Form)
  /-- LDS (R147). -/
  | lds (f : Form)
  /-- STS (R147). -/
  | sts (f : Form)
  /-- LDL (R222). -/
  | ldl (f : Form)
  /-- STL (R222). -/
  | stl (f : Form)
  /-- LDC (R223). -/
  | ldc (f : Form)
  /-- PUSH (R151). -/
  | push (f : Form)
  /-- POP (R151). -/
  | pop (f : Form)
  /-- ATOM (R233). -/
  | atom (f : Form)
  /-- CAS (R233). -/
  | cas (f : Form)
  /-- PREF (R239). -/
  | pref (f : Form)
  /-- ACQ (R249). -/
  | acq (f : Form)
  /-- REL (R248). -/
  | rel (f : Form)
  /-- FENCE (R251). -/
  | fence (f : Form)
  /-- BIND (R247). -/
  | bind (f : Form)
  /-- UNBIND (R247). -/
  | unbind (f : Form)
  /-- SEAL (R272). -/
  | seal (f : Form)
  /-- GATE (R274). -/
  | gate (f : Form)
  /-- CPY (R129). -/
  | cpy (f : Form)
  /-- CPY2 (R129). -/
  | cpy2 (f : Form)
  /-- GATH (R129). -/
  | gath (f : Form)
  /-- COLL (R137). -/
  | coll (f : Form)
  /-- TLW (R132). -/
  | tlw (f : Form)
  /-- TLR (R133). -/
  | tlr (f : Form)
  /-- MMA_T (R216). -/
  | mmaT (f : BIns)
  /-- MRET_T (R216). -/
  | mretT (f : BIns)
  /-- MZERO_T (R216). -/
  | mzeroT (f : BIns)
  /-- NEXT (R292). -/
  | next (f : BIns)
  /-- NEXT_C (R292). -/
  | nextC (f : BIns)
  /-- NEXT_IX (R32). -/
  | nextIx (f : BIns)
  /-- EXIT (R292). -/
  | exit (f : BIns)
  /-- RFT (R363). -/
  | rft (f : BIns)
  /-- BAR_G (R301). -/
  | barG (f : BIns)
  /-- BAR_K (R301). -/
  | barK (f : BIns)
  /-- YIELD (R302). -/
  | yield_ (f : BIns)
  /-- TRAP (R303). -/
  | trap (f : TrapForm)
  /-- BRK (R303). -/
  | brk (f : TrapForm)
  /-- CSRR (R322). -/
  | csrr (f : Form)
  /-- CSRW_BKM (R143). -/
  | csrwBkm (f : Form)
  /-- CSRW_FCB (R150). -/
  | csrwFcb (f : Form)
  /-- CSRW_FPF (R323). -/
  | csrwFpf (f : Form)
  /-- CSRW_ADR (R323). -/
  | csrwAdr (f : SSlot)
  /-- SPL (R155). -/
  | spl (f : LSlot)
  /-- FIL (R155). -/
  | fil (f : LSlot)
  /-- MX (R208). -/
  | mx (f : MSlot)
  /-- MXS (R208). -/
  | mxs (f : MSlot)
  /-- MXR (R210). -/
  | mxr (f : MSlot)
  /-- MXZ (R211). -/
  | mxz (f : MSlot)
  /-- XV (R154). -/
  | xv (vd : BitVec 6) (ss : BitVec 5)
  /-- XS (R154). -/
  | xs (sx : Bool) (sd : BitVec 5) (vs : BitVec 6) (lane : BitVec 6)
  /-- XS_P (R154). -/
  | xsP (sd : BitVec 5) (pk : BitVec 3)
  /-- BC (R54). -/
  | bc (ss : BitVec 5)
  /-- PBR (R295). -/
  | pbr (f : BSlot)
  /-- BRT (R296). -/
  | brt (f : BSlot)
  /-- SEND (R294). -/
  | send (f : BSlot)
  /-- HALT (R294). -/
  | halt (f : BSlot)
  /-- LPSET (R298). -/
  | lpset (f : BSlot)
  /-- LPCLR (R298). -/
  | lpclr (f : BSlot)
  /-- RPT (R213). -/
  | rpt (f : BSlot)
  /-- CMT (R57). -/
  | cmt (f : BSlot)
  /-- CMT_SWAP (R366). -/
  | cmtSwap (f : BSlot)
  /-- BAR_G_NATIVE (R301). -/
  | barGNative (f : BSlot)
  /-- BAR_K_NATIVE (R301). -/
  | barKNative (f : BSlot)
  /-- YIELD_NATIVE (R302). -/
  | yieldNative (f : BSlot)
  /-- RFT_NATIVE (R363). -/
  | rftNative (f : BSlot)
  /-- WAIT (R306). -/
  | wait (flag : BitVec 5) (k : BitVec 15)
  /-- POST_SELF (R307). -/
  | postSelf (flag : BitVec 5) (k : BitVec 15)
  /-- POST_CORE (R307). -/
  | postCore (flag : BitVec 5) (core : BitVec 9) (k : BitVec 15)
  /-- BUNDLE_ISSUE (R43). -/
  | bundleIssue (core : Nat)
  /-- LATE_RESULT_STALL (R52). -/
  | lateResultStall (core : Nat)
  /-- MEMORY_RESULT_ARRIVAL (R50). -/
  | memoryResultArrival (core : Nat)
  /-- COMMIT_POINT (R57). -/
  | commitPoint (core : Nat)
  /-- PAGE_FAULT_REPLY (R91). -/
  | pageFaultReply (asid va : Nat) (mapped : Bool)
  /-- CREW_SELECT (R289). -/
  | crewSelect (core : Nat)
  /-- FORCED_SWITCH_OUT (R291). -/
  | forcedSwitchOut (core : Nat)
  /-- BARRIER_RELEASE (R301). -/
  | barrierRelease (core : Nat) (cluster : Bool)
  /-- FLAG_DELIVERY (R307): `launch` names the launch and the cluster of the group that the count is for. -/
  | flagDelivery (core flag k : Nat) (launch : Nat × Nat) (remote : Bool)
  /-- FIFO_PUBLICATION (R151). -/
  | fifoPublication (core bank : Nat)
  /-- WAIT_SATISFIED (R289). -/
  | waitSatisfied (core : Nat)
  /-- BANK_MODE_CHANGE_DONE (R143). -/
  | bankModeChangeDone (core : Nat)
  /-- DIRTY_LINE_DRAIN (R149). -/
  | dirtyLineDrain (core : Nat)
  /-- HOME_BANK_MERGE (R268). -/
  | homeBankMerge (bank : Nat)
  /-- L2_FILL (R97). -/
  | l2Fill (line : Nat) (macOk rereadOk : Bool)
  /-- WRITE_BACK (R98). -/
  | writeBack (line : Nat)
  /-- REKEY (R99). -/
  | rekey (owner : Nat)
  /-- METADATA_EVICTION (R98). -/
  | metadataEviction (chunk : Nat)
  /-- METADATA_GROUP_COMMIT (R262). -/
  | metadataGroupCommit (chunk : Nat)
  /-- LOG_LINE_ACK (R269). -/
  | logLineAck (asid : Nat)
  /-- RECOVERY_RESERVE_SEAL (R270). -/
  | recoveryReserveSeal (asid : Nat)
  /-- BITMAP_CLEAR_DONE (R272). -/
  | bitmapClearDone (asid : Nat)
  /-- PAGE_WALK (R82). -/
  | pageWalk (core asid va : Nat) (acc : Acc)
  /-- INVALIDATION_REQUEST (R88). -/
  | invalidationRequest (req : BitVec 128)
  /-- ENGINE_ACCEPT (R121). -/
  | engineAccept (core : Nat)
  /-- ENGINE_START (R124). -/
  | engineStart (die cls : Nat)
  /-- ENGINE_COMPLETE (R123). -/
  | engineComplete (die cls eng : Nat)
  /-- ENGINE_PAGE_FAULT (R134). -/
  | enginePageFault (die cls eng : Nat)
  /-- ENGINE_FAULT (R135). -/
  | engineFault (die cls eng cause : Nat)
  /-- COLL_MEET (R138). -/
  | collMeet (domain collid : Nat) (same : Bool) (vectors : List (List Byte))
  /-- COLL_ABORT (R140). -/
  | collAbort (domain collid : Nat)
  /-- MACRO_OPERATION_START (R205). -/
  | macroOperationStart (core : Nat) (retire : Bool)
  /-- MATRIX_STEP (R205). -/
  | matrixStep (core : Nat) (retire : Bool)
  /-- RPT_REPEAT (R213). -/
  | rptRepeat (core : Nat)
  /-- REPLAY (R359). -/
  | replay (core : Nat)
  /-- SPLIT_RUN (R360). -/
  | splitRun (core : Nat)
  /-- UNCORR_DATA (R367). -/
  | uncorrData (core : Nat) (place : ErrPlace)
  /-- CORRECTED_ERROR (R391). -/
  | correctedError (loc : Loc) (fn : Option Nat)
  /-- URGENT_PREEMPTION (R372). -/
  | urgentPreemption (launch : Nat)
  /-- PREEMPTION_TIMEOUT (R372). -/
  | preemptionTimeout (core : Nat)
  /-- CONTEXT_SAVE (R374). -/
  | contextSave (launch cluster : Nat)
  /-- CONTEXT_RESTORE (R373). -/
  | contextRestore (launch cluster : Nat)
  /-- TENANT_SLICE_END (R369). -/
  | tenantSliceEnd (part : Nat)
  /-- OPERATOR_BOUND_EXPIRY (R369). -/
  | operatorBoundExpiry (part : Nat)
  /-- CONTAINMENT (R376). -/
  | containment (kind : ContainKind)
  /-- COMPUTE_DIE_RESET (R18). -/
  | computeDieReset (die : Nat)
  /-- QUEUE_TAKE (R328). -/
  | queueTake (asid q : Nat)
  /-- ADMISSION (R39). -/
  | admission (asid kobj kidx : Nat)
  /-- LAUNCH_START (R316). -/
  | launchStart (asid q : Nat)
  /-- TRANSREQ_TIMEOUT (R341). -/
  | transreqTimeout (launch : Nat)
  /-- QUICK_TRANSLATION_DONE (R343). -/
  | quickTranslationDone (launch : Nat)
  /-- GROOM_START (R346). -/
  | groomStart (tr : Nat)
  /-- GROOMED_INSTALL (R347). -/
  | groomedInstall (tr : Nat) (pkg : List Byte)
  /-- PLACEMENT_EVALUATION (R333). -/
  | placementEvaluation (part : Nat)
  /-- TIME_BOUND (R315). -/
  | timeBound (launch : Nat)
  /-- LAUNCH_COMPLETION (R257). -/
  | launchCompletion (launch : Nat)
  /-- EVENT_RING_TIMER (R339). -/
  | eventRingTimer (asid : Nat)
  /-- QUEUE_CONTROL_WRITE (R326). -/
  | queueControlWrite (asid q : Nat) (value : BitVec 64)
  /-- WIDX_WRITE (R326). -/
  | widxWrite (asid q : Nat) (value : BitVec 32)
  /-- EVENT_RING_CONTROL_WRITE (R338). -/
  | eventRingControlWrite (asid word : Nat) (value : BitVec 64)
  /-- REGISTER_WRITE (R415). -/
  | registerWrite (fn off : Nat) (value : BitVec 64)
  /-- HOST_WINDOW_ACCESS (R415). -/
  | hostWindowAccess (fn off len : Nat) (data : Option (List Byte))
  /-- OWNER_DOORBELL (R396). -/
  | ownerDoorbell (m : Master) (msg : List Byte)
  /-- FUNCTION_DOORBELL (R396). -/
  | functionDoorbell (fn : Nat) (msg : List Byte)
  /-- FRAME_ORIGIN (R113). -/
  | frameOrigin (die : Nat)
  /-- LINK_DOWN (R400). -/
  | linkDown (port : Nat)
  /-- RELAY_DECISION (R284). -/
  | relayDecision (relay : Nat) (deltas : List (Nat × Line))
  /-- CLAIM (R378). -/
  | claim (h : CmdHdr) (w : List W64)
  /-- KEEP (R378). -/
  | keep (h : CmdHdr) (w : List W64)
  /-- HANDOVER (R379). -/
  | handover (h : CmdHdr) (w : List W64)
  /-- ACCEPT (R379). -/
  | accept (h : CmdHdr) (w : List W64)
  /-- PCONFIG (R382). -/
  | pconfig (h : CmdHdr) (w : List W64)
  /-- FCONFIG (R385). -/
  | fconfig (h : CmdHdr) (w : List W64)
  /-- WINNEW (R100). -/
  | winnew (h : CmdHdr) (w : List W64)
  /-- WINFREE (R399). -/
  | winfree (h : CmdHdr) (w : List W64)
  /-- DISPATCH (R387). -/
  | dispatch (h : CmdHdr) (w : List W64)
  /-- RESTORE (R399). -/
  | restoreGr (h : CmdHdr) (w : List W64)
  /-- DISCARD (R399). -/
  | discardGr (h : CmdHdr) (w : List W64)
  /-- GRANT (R414). -/
  | grant (h : CmdHdr) (w : List W64)
  /-- REVOKE (R414). -/
  | revoke (h : CmdHdr) (w : List W64)
  /-- LOGSET (R264). -/
  | logset (h : CmdHdr) (w : List W64)
  /-- REVERSE (R278). -/
  | reverse (h : CmdHdr) (w : List W64)
  /-- DRAIN (R277). -/
  | drain (h : CmdHdr) (w : List W64)
  /-- SEALREQ (R277). -/
  | sealreq (h : CmdHdr) (w : List W64)
  /-- RECOVER (R279). -/
  | recover (h : CmdHdr) (w : List W64)
  /-- RELAYBUILD (R283). -/
  | relaybuild (h : CmdHdr) (w : List W64)
  /-- RELAYREBUILD (R285). -/
  | relayrebuild (h : CmdHdr) (w : List W64)
  /-- EXPORT (R350). -/
  | exportTr (h : CmdHdr) (w : List W64)
  /-- IMPORT (R350). -/
  | importTr (h : CmdHdr) (w : List W64)
  /-- TRUST (R350). -/
  | trustKey (h : CmdHdr) (w : List W64)
  /-- UNTRUST (R350). -/
  | untrustKey (h : CmdHdr) (w : List W64)
  /-- NATIVE (R350). -/
  | nativeInstall (h : CmdHdr) (w : List W64)
  /-- TCEVICT (R342). -/
  | tcevict (h : CmdHdr) (w : List W64)
  /-- DECLINE (R341). -/
  | decline (h : CmdHdr) (w : List W64)
  /-- DSTOP (R377). -/
  | dstop (h : CmdHdr) (w : List W64)
  /-- DREAD (R377). -/
  | dread (h : CmdHdr) (w : List W64)
  /-- DWRITE (R377). -/
  | dwrite (h : CmdHdr) (w : List W64)
  /-- DCONT (R377). -/
  | dcont (h : CmdHdr) (w : List W64)
  /-- DATTACH (R377). -/
  | dattach (h : CmdHdr) (w : List W64)
  /-- DDETACH (R377). -/
  | ddetach (h : CmdHdr) (w : List W64)
  /-- IDENTIFY (R399). -/
  | identify (h : CmdHdr) (w : List W64)
  /-- FWUPDATE (R399). -/
  | fwupdate (h : CmdHdr) (w : List W64)
  /-- ATTEST (R395). -/
  | attest (h : CmdHdr) (w : List W64)
  /-- APCONFIG (R400). -/
  | apconfig (h : CmdHdr) (w : List W64)
  /-- ASSIGNID (R400). -/
  | assignid (h : CmdHdr) (w : List W64)
  /-- UNRETIRE (R392). -/
  | unretire (h : CmdHdr) (w : List W64)
  /-- POWERCAP (R401). -/
  | powercap (h : CmdHdr) (w : List W64)
  /-- TELEMETRY (R399). -/
  | telemetry (h : CmdHdr) (w : List W64)
  /-- CTXNEW (R386). -/
  | ctxnew (h : CmdHdr) (w : List W64)
  /-- CTXFREE (R386). -/
  | ctxfree (h : CmdHdr) (w : List W64)
  /-- MAP (R387). -/
  | mapMem (h : CmdHdr) (w : List W64)
  /-- UNMAP (R399). -/
  | unmapMem (h : CmdHdr) (w : List W64)
  /-- PEER_APERTURE_ACCESS (R259). -/
  | peerApertureAccess (pa len : Nat) (data : Option (List Byte))
  /-- LINK_ACKNOWLEDGEMENT (R230). -/
  | linkAcknowledgement (core : Nat) (ok : Bool)
  /-- GONDOLA_FILL (R67). -/
  | gondolaFill (die line core : Nat)
  /-- SEAL_RECORD_WRITTEN (R272). -/
  | sealRecordWritten (asid : Nat)
  /-- FUNCTION_RESET (R92). -/
  | functionReset (fn : Nat)
  /-- COOLING_TELEMETRY (R402). -/
  | coolingTelemetry (inlet flow watts : Nat)
  /-- SCRUB (R389). -/
  | scrub (loc : Loc) (corrected : Bool)
  /-- CONFLICT_LIMIT (R238). -/
  | conflictLimit
  /-- POWER_ON_BOOT (R394). -/
  | powerOnBoot
  /-- CLAIM_WINDOW_CLOSE (R378). -/
  | claimWindowClose
  /-- OWNERSHIP_LAPSE (R378). -/
  | ownershipLapse
  /-- HANDOVER_TIMEOUT (R379). -/
  | handoverTimeout
  /-- RESERVATION_AGEING (R334). -/
  | reservationAgeing
  /-- COOP_UNPLACEABLE (R383). -/
  | coopUnplaceable
  /-- CERTIFICATION_LAPSE (R402). -/
  | certificationLapse
  /-- FLASH_COUNTER_WRITE (R393). -/
  | flashCounterWrite
  /-- POWER_LOSS (R18). -/
  | powerLoss
  /-- ORDERLY_SHUTDOWN (R393). -/
  | orderlyShutdown
  /-- ISLAND_POWER_STEP (R401). -/
  | islandPowerStep
  deriving DecidableEq, Repr

end Sys2Proof
end

