-- ==== Sys2Proof/Decode.lean ====
section
/-!
DEFINITION. The decoders and encoders: Burhus bytes (spec/02_burhus_code.md R19 to R29), native bundles and their slots
(spec/03_fjoset_bundles.md R43 to R49, with the L-slot rules of spec/06, 07, 11, 12, 13, the M slot of spec/10 R203 and
the B and sync slots of spec/14), and owner messages (spec/20_reliability_boot_host.md R398). Each is total and rejects
by name.
-/
namespace Sys2Proof

/-- Why bytes decode to no instruction: the two decode-class traps (02 R26, 03 R45), or bytes that end early (02 R30). -/
inductive DecErr where
  | illOpcode | malformed | truncated
  deriving DecidableEq, Repr

/-! ## Variable-length numbers (02 R20, R21) -/

/-- The 7-bit digits of a LEB128 number of at most `n` bytes, low digit first. -/
def lebDigits : Nat → List Byte → Except DecErr (List Nat × List Byte)
  | 0, _ => .error .malformed
  | _ + 1, [] => .error .truncated
  | n + 1, b :: bs =>
    if b.toNat < 128 then .ok ([b.toNat], bs)
    else match lebDigits n bs with
      | .ok (ds, r) => .ok ((b.toNat - 128) :: ds, r)
      | .error e => .error e

/-- The number of digits in base 128. -/
def digitsNat : List Nat → Nat
  | [] => 0
  | d :: ds => d + 128 * digitsNat ds

/-- The last digit. -/
def lastDigit (ds : List Nat) : Nat := ds.getLast?.getD 0

/-- A minimal ULEB128 number of at most `n` bytes and at most `hi` (02 R20). -/
def uleb (n hi : Nat) (bs : List Byte) : Except DecErr (Nat × List Byte) :=
  match lebDigits n bs with
  | .error e => .error e
  | .ok (ds, r) =>
    if (ds.length = 1 ∨ lastDigit ds ≠ 0) ∧ digitsNat ds ≤ hi then .ok (digitsNat ds, r) else .error .malformed

/-- The signed value of SLEB128 digits (02 R20). -/
def digitsInt : List Nat → Int
  | [] => 0
  | [d] => if 64 ≤ d then (d : Int) - 128 else d
  | d :: ds => d + 128 * digitsInt ds

/-- SLEB128 digits are minimal (02 R20): the last adds a bit that the sign of the digit before does not give. -/
def slebMinimal : List Nat → Bool
  | [] => false
  | [_] => true
  | [p, l] => !((l == 0 && p < 64) || (l == 127 && 64 ≤ p))
  | _ :: ds => slebMinimal ds

/-- A minimal SLEB128 number of at most 10 bytes in `lo` to `hi` (02 R21). -/
def sleb (lo hi : Int) (bs : List Byte) : Except DecErr (Int × List Byte) :=
  match lebDigits 10 bs with
  | .error e => .error e
  | .ok (ds, r) =>
    if slebMinimal ds ∧ lo ≤ digitsInt ds ∧ digitsInt ds ≤ hi then .ok (digitsInt ds, r) else .error .malformed

/-- `n` fixed bytes, little-endian (02 R21). -/
def fixedBytes (n : Nat) (bs : List Byte) : Except DecErr (Nat × List Byte) :=
  if n ≤ bs.length then .ok (leNat (bs.take n), bs.drop n) else .error .truncated

/-- The minimal ULEB128 bytes of a number of at most `n` digits. -/
def ulebEnc : Nat → Nat → List Byte
  | 0, _ => []
  | n + 1, x => if x < 128 then [BitVec.ofNat 8 x] else BitVec.ofNat 8 (x % 128 + 128) :: ulebEnc n (x / 128)

/-- The minimal SLEB128 bytes of a number of at most `n` digits. -/
def slebEnc : Nat → Int → List Byte
  | 0, _ => []
  | n + 1, x =>
    let d := (x % 128).toNat
    if (x / 128 = 0 ∧ d < 64) ∨ (x / 128 = -1 ∧ 64 ≤ d) then [BitVec.ofNat 8 d]
    else BitVec.ofNat 8 (d + 128) :: slebEnc n (x / 128)

/-! ## Types (02 Tables 2.3, 2.4) -/

/-- Width in bits of a type code (Table 2.3). -/
def tyWidth (t : Nat) : Nat :=
  if t = 2 ∨ t = 3 ∨ t = 8 then 64
  else if t = 5 ∨ t = 6 ∨ t = 14 ∨ t = 15 then 16
  else if t = 9 ∨ t = 10 ∨ t = 12 ∨ t = 13 then 8
  else if t = 11 then 6 else 32

/-- The type sets of Table 2.4. -/
def setI (t : Nat) : Bool := t ≤ 3
def setIs (t : Nat) : Bool := t = 0 ∨ t = 2
def setW (t : Nat) : Bool := t = 7 ∨ t = 8
def setF (t : Nat) : Bool := 4 ≤ t ∧ t ≤ 6
def setH (t : Nat) : Bool := t = 5 ∨ t = 6
def setA (t : Nat) : Bool := t ≤ 8
def setM (t : Nat) : Bool := t ≤ 8 ∨ (12 ≤ t ∧ t ≤ 15)

/-- Size in bytes of a memory type (11 R218). -/
def tyBytes (t : Nat) : Nat := tyWidth t / 8

/-! ## The Burhus opcode map (02 Tables 2.2, 2.6 to 2.8) -/

/-- Modifier classes of Table 2.2. -/
inductive MCls where
  | none_ | m1 | m2 | m3 | m4 | m5 | m6 | m7 | m8 | ma
  deriving DecidableEq, Repr

/-- Operand symbols of the opcode map with the role each takes. -/
inductive Opd where
  | d | a | b | c | e | f      -- register operands
  | s1 | s2                    -- segment indices
  | disp                       -- displacement
  | imm                        -- immediate of MOVI or of the immediate page
  | y1 | y2                    -- fixed bytes
  | n1 (hi : Nat) | n2 (hi : Nat)
  | h                          -- two fixed bytes
  deriving DecidableEq, Repr

/-- The modifier class of an opcode and the version that introduced it (major × 10 + minor), if assigned. -/
def bMap (op : Nat) : Option (MCls × Nat) :=
  if op ≤ 0x17 then some (.m1, 20)
  else if op = 0x18 then some (.m2, 20)
  else if op ≤ 0x1D then some (.m1, 20)
  else if op < 0x20 then none
  else if op ≤ 0x25 then some (.m1, 20)
  else if op = 0x26 then some (.m2, 20)
  else if op ≤ 0x2A then some (.m1, 20)
  else if op = 0x2B then some (.m1, 21)
  else if op = 0x2C then some (.m1, 30)
  else if op < 0x30 then none
  else if op ≤ 0x32 then some (.m1, 20)
  else if op = 0x33 then some (.m1, 21)
  else if op < 0x38 then none
  else if op ≤ 0x3A then some (.m5, 20)
  else if op = 0x3B then some (.m1, 20)
  else if op < 0x40 then none
  else if op ≤ 0x41 then some (.m6, 20)
  else if op = 0x42 then some (.m6, 21)
  else if op < 0x50 then none
  else if op ≤ 0x58 then some (.m4, 20)
  else if op ≤ 0x5A then some (.ma, 20)
  else if op = 0x5B then some (.m4, 20)
  else if op < 0x60 then none
  else if op ≤ 0x62 then some (.m3, 20)
  else if op ≤ 0x64 then some (.none_, 23)
  else if op < 0x68 then none
  else if op ≤ 0x69 then some (.none_, 22)
  else if op < 0x70 then none
  else if op = 0x70 then some (.m7, 20)
  else if op ≤ 0x72 then some (.m7, 22)
  else if op = 0x73 then some (.m8, 20)
  else if op ≤ 0x75 then some (.m7, 20)
  else if op < 0x80 then none
  else if op ≤ 0x82 then some (.none_, 20)
  else if op < 0xC0 then none
  else if op = 0xC2 then some (.none_, 23)
  else if op ≤ 0xC4 then some (.none_, 20)
  else if op < 0xC8 then none
  else if op ≤ 0xCC then some (.none_, 20)
  else if op < 0xE0 then none
  else if op ≤ 0xE1 then some (.none_, 20)
  else none

/-- Opcodes that the immediate page takes (02 R28). -/
def immOk (op : Nat) : Bool :=
  op ≤ 3 ∨ op = 5 ∨ op = 6 ∨ (9 ≤ op ∧ op ≤ 0x0B) ∨ op = 0x0D ∨ (0x0E ≤ op ∧ op ≤ 0x11) ∨ op = 0x18

/-- The number of modifier bytes of a class. -/
def mBytes : MCls → Nat
  | .none_ => 0
  | .m5 => 2
  | .ma => 2
  | _ => 1

/-- The operands of an opcode, in the order of the opcode map; `m` is its first modifier byte. -/
def opds (op : Nat) (imm : Bool) (m : Nat) : List Opd :=
  let flag := m / 128 = 1
  if imm then [.d, .a, .imm]
  else if op = 4 then [.d, .a, .b, .c]
  else if op = 7 ∨ op = 8 ∨ op = 0x0C ∨ (0x12 ≤ op ∧ op ≤ 0x14) ∨ op = 0x19 then [.d, .a]
  else if op = 0x15 then [.d, .a, .y1, .y2]
  else if op = 0x16 then [.d, .a, .b, .y1, .y2]
  else if op = 0x17 then [.d, .c, .a, .b]
  else if op = 0x1A then [.d, .imm]
  else if op = 0x1B then [.d, .a, .b, .y1]
  else if op ≤ 0x1D then [.d, .a, .b]
  else if op = 0x23 then [.d, .a, .b, .c]
  else if op ≤ 0x26 then [.d, .a, .b]
  else if op ≤ 0x2B then [.d, .a]
  else if op = 0x2C ∨ op = 0x32 ∨ op = 0x33 then [.d, .a, .b, .c]
  else if op ≤ 0x31 then [.d, .a, .b]
  else if op = 0x38 then [.d, .a]
  else if op = 0x39 ∨ op = 0x3B then [.d, .a, .b]
  else if op = 0x3A then [.d, .a, .y1]
  else if op = 0x40 then [.d, .a]
  else if op = 0x41 then [.d, .a, .b]
  else if op = 0x42 then [.d, .a]
  else if op = 0x51 ∨ op = 0x53 ∨ op = 0x55 then [.b, .a, .disp]
  else if op = 0x57 then [.y1, .b]
  else if op = 0x58 then [.d, .y1]
  else if op = 0x59 then [.d, .a, .b, .disp]
  else if op = 0x5A then [.d, .a, .b, .c, .disp]
  else if op = 0x5B then [.a, .disp]
  else if op ≤ 0x56 then [.d, .a, .disp]
  else if op = 0x60 ∨ op = 0x61 ∨ op = 0x64 then [.a]
  else if op = 0x62 ∨ op = 0x68 then []
  else if op = 0x63 then [.a, .b, .c]
  else if op = 0x69 then [.n1 (2 ^ 32 - 1)]
  else if op = 0x70 then if flag then [.d, .a, .b, .c, .e] else [.d, .a, .b, .c]
  else if op = 0x71 ∨ op = 0x72 then if flag then [.d, .a, .b, .c, .e, .f] else [.d, .a, .b, .c, .e]
  else if op = 0x73 then [.d, .a]
  else if op = 0x74 then [.a]
  else if op = 0x75 then [.d]
  else if op = 0x80 then [.y1, .a, .b, .c]
  else if op = 0x81 then [.y1, .a, .b]
  else if op = 0x82 then [.y1]
  else if op = 0xC0 then [.s1]
  else if op = 0xC1 then [.c, .s1, .s2]
  else if op = 0xC2 then [.a, .s1, .n2 16777215]
  else if op = 0xCB ∨ op = 0xCC then [.n1 255]
  else if op = 0xE0 then [.d, .h]
  else if op = 0xE1 then [.h, .a]
  else []

/-- The range of an immediate by opcode and type (02 R21, R28), for the immediate page and for MOVI's integers. -/
def immRange (op t : Nat) : Int × Int :=
  let w := tyWidth t
  if op = 0x1A then if t = 0 ∨ t = 2 then (-(2 ^ (w - 1)), 2 ^ (w - 1) - 1) else (-(2 ^ (w - 1)), 2 ^ w - 1)
  else if 0x0E ≤ op ∧ op ≤ 0x11 then (0, w - 1)
  else (-(2 ^ (w - 1)), 2 ^ (w - 1) - 1)

/-- Reads one operand into its field. -/
def getOpd (op : Nat) (o : Opd) (f : BIns) (bs : List Byte) : Except DecErr (BIns × List Byte) :=
  let t := f.m1.toNat % 16
  let reg := uleb 3 2097151 bs
  let seg := uleb 4 16777214 bs
  match o with
  | .d => reg.map fun (x, r) => ({ f with d := x }, r)
  | .a => reg.map fun (x, r) => ({ f with a := x }, r)
  | .b => reg.map fun (x, r) => ({ f with b := x }, r)
  | .c => reg.map fun (x, r) => ({ f with c := x }, r)
  | .e => reg.map fun (x, r) => ({ f with e := x }, r)
  | .f => reg.map fun (x, r) => ({ f with f := x }, r)
  | .s1 => seg.map fun (x, r) => ({ f with n1 := x }, r)
  | .s2 => seg.map fun (x, r) => ({ f with n2 := x }, r)
  | .disp => (sleb (-2147483648) 2147483647 bs).map fun (x, r) => ({ f with i := x }, r)
  | .imm =>
    if op = 0x1A ∧ t = 4 then (fixedBytes 4 bs).map fun (x, r) => ({ f with i := x }, r)
    else if op = 0x1A ∧ (t = 5 ∨ t = 6) then (fixedBytes 2 bs).map fun (x, r) => ({ f with i := x }, r)
    else (sleb (immRange op t).1 (immRange op t).2 bs).map fun (x, r) => ({ f with i := x }, r)
  | .y1 => (fixedBytes 1 bs).map fun (x, r) => ({ f with n1 := x }, r)
  | .y2 => (fixedBytes 1 bs).map fun (x, r) => ({ f with n2 := x }, r)
  | .n1 hi => (uleb 5 hi bs).map fun (x, r) => ({ f with n1 := x }, r)
  | .n2 hi => (uleb 5 hi bs).map fun (x, r) => ({ f with n2 := x }, r)
  | .h => (fixedBytes 2 bs).map fun (x, r) => ({ f with n1 := x }, r)

/-- Reads the operands in order. -/
def getOpds (op : Nat) : List Opd → BIns → List Byte → Except DecErr (BIns × List Byte)
  | [], f, bs => .ok (f, bs)
  | o :: os, f, bs =>
    match getOpd op o f bs with
    | .error e => .error e
    | .ok (f', r) => getOpds op os f' r

/-- The bytes of one operand. -/
def putOpd (op : Nat) (o : Opd) (f : BIns) : List Byte :=
  let t := f.m1.toNat % 16
  match o with
  | .d => ulebEnc 3 f.d
  | .a => ulebEnc 3 f.a
  | .b => ulebEnc 3 f.b
  | .c => ulebEnc 3 f.c
  | .e => ulebEnc 3 f.e
  | .f => ulebEnc 3 f.f
  | .s1 => ulebEnc 4 f.n1
  | .s2 => ulebEnc 4 f.n2
  | .disp => slebEnc 10 f.i
  | .imm =>
    if op = 0x1A ∧ t = 4 then leBytes 4 f.i.toNat
    else if op = 0x1A ∧ (t = 5 ∨ t = 6) then leBytes 2 f.i.toNat
    else slebEnc 10 f.i
  | .y1 => leBytes 1 f.n1
  | .y2 => leBytes 1 f.n2
  | .n1 _ => ulebEnc 5 f.n1
  | .n2 _ => ulebEnc 5 f.n2
  | .h => leBytes 2 f.n1

/-! ### Limits (02 R23, R24, the limits column; 09 R177, R196; 06 R119; 12 R253) -/

/-- Opcodes that no guard prefix may precede (02 R23). -/
def noGuard (op : Nat) : Bool := (0xC0 ≤ op ∧ op ≤ 0xC4) ∨ op = 0xC8 ∨ op = 0xC9

/-- The type set of an arithmetic opcode (Tables 2.6, 2.7). -/
def arithTy (op t : Nat) : Bool :=
  if op = 7 ∨ op = 0x10 then setIs t
  else if op = 0x17 ∨ op = 0x19 ∨ op = 0x1A then setA t
  else if op = 0x1B then t = 3
  else if (9 ≤ op ∧ op ≤ 0x0F) ∨ (0x11 ≤ op ∧ op ≤ 0x14) ∨ op = 0x16 then setW t
  else if op ≤ 0x1D then setI t
  else if op ≤ 0x26 ∨ op = 0x3B then setF t
  else if op ≤ 0x2C then t = 4
  else setH t

/-- Whether an arithmetic opcode takes a rounding (02 R24 with 09 R181, R182, R184 to R187). -/
def takesRnd (op : Nat) : Bool :=
  (0x20 ≤ op ∧ op ≤ 0x23) ∨ (0x27 ≤ op ∧ op ≤ 0x2C) ∨ (0x30 ≤ op ∧ op ≤ 0x33) ∨ op = 0x3B

/-- Bit-pattern types, and integer types, of 8 to 64 bits. -/
def tyB (t : Nat) : Bool := t = 7 ∨ t = 8 ∨ t = 13 ∨ t = 15
def tyInt (t : Nat) : Bool := t ≤ 3 ∨ t = 12 ∨ t = 14

/-- The conversions of 08 Table 8.6: equal types move bits, with a .B type no rounding or saturation and two widths, and
no rounding between integers. -/
def cvtOk (t s rnd : Nat) (sat : Bool) : Bool :=
  if t = s then rnd == 0 && !sat
  else if tyB t || tyB s then tyWidth t != tyWidth s && rnd == 0 && !sat
  else if tyInt t && tyInt s then rnd == 0
  else true

/-- The modifier bytes and operand limits of an opcode hold (02 R24 and the opcode map). -/
def bLimits (op : Nat) (f : BIns) : Bool :=
  let m := f.m1.toNat
  let t := m % 16
  let hi := m / 16
  let n := f.m2.toNat
  match bMap op with
  | none => false
  | some (.m1, _) =>
    arithTy op t && (fld 6 6 m == 0) && (takesRnd op || fld 5 4 m == 0) && (op ≤ 1 || fld 7 7 m == 0) &&
    (if op = 0x15 ∨ op = 0x16 then f.n1 < tyWidth t && 1 ≤ f.n2 && f.n1 + f.n2 ≤ tyWidth t
     else if op = 0x1B then f.n1 ≤ 7
     else if op = 0x2C then f.a + 3 ≤ 2097151 && f.b + 3 ≤ 2097151 else true)
  | some (.m2, _) => (fld 7 7 m == 0) && (if op = 0x18 then setI t && fld 6 4 m ≤ 5 else setF t && fld 6 4 m ≤ 6)
  | some (.m3, _) => fld 2 0 m ≤ 5 && (op = 0x62 || fld 3 3 m == 0) && hi == 0
  | some (.m4, _) =>
    (fld 7 6 m == 0) && (fld 5 4 m ≤ 2) &&
    (if op = 0x5B then t == 0
     else if op = 0x57 ∨ op = 0x58 then t == 7 && fld 5 4 m == 0 && f.n1 ≤ 11
     else if op = 0x56 then setM t && fld 5 4 m ≤ 1
     else if op = 0x50 ∨ op = 0x51 then setM t
     else setM t && fld 5 4 m == 0)
  | some (.m5, _) =>
    let s := n % 16
    (fld 6 6 m == 0) && (n / 16 == 0) && cvtOk t s (fld 5 4 m) (bitOf 7 m) &&
    (if op = 0x38 then t ≠ s else if op = 0x39 then tyWidth t ≤ 16 else tyWidth s ≤ 16 && f.n1 ≤ 1)
  | some (.m6, _) =>
    if op = 0x40 then (hi ≤ 2 && t == 0) || (hi == 3 && setA t)
    else if op = 0x41 then setW t && hi ≤ 3
    else (setI t && hi ≤ 5) || (t == 4 && hi ≤ 2)
  | some (.m7, _) =>
    (fld 6 2 m == 0) && (if op = 0x74 ∨ op = 0x75 then fld 1 0 m ≤ 1 && fld 7 7 m == 0 else fld 1 0 m == 0)
  | some (.m8, _) => setA t && fld 5 4 m ≤ 2 && fld 7 6 m ≤ 2 && (fld 7 6 m ≠ 2 || setW t)
  | some (.ma, _) =>
    (hi == 0) && (fld 2 0 n ≤ 5) && (fld 3 3 n == 0) &&
    (if op = 0x5A then setW t && n / 16 == 0
     else n / 16 ≤ 6 && (setI t || setW t || (t == 4 && n / 16 ≤ 2)))
  | some (.none_, _) =>
    if 0x80 ≤ op ∧ op ≤ 0x82 then f.n1 ≤ 1 else if op = 0xC2 then 1 ≤ f.n2 else true

/-- The CSRs of Tables 7.9 and 15.6. -/
def csrAssigned (n : Nat) : Bool :=
  n ≤ 1 ∨ n = 8 ∨ (0x10 ≤ n ∧ n ≤ 0x1F) ∨ (0x20 ≤ n ∧ n ≤ 0x23) ∨ (0x30 ≤ n ∧ n ≤ 0x3A) ∨ n = 0x40 ∨ n = 0x42 ∨
  (0x50 ≤ n ∧ n ≤ 0x5B) ∨ (0x60 ≤ n ∧ n ≤ 0x63) ∨ n = 0x70 ∨ n = 0x71

/-- Native-only CSRs ADR + k, per-strand CSRs, and CSRs with a writable field (15 R322). -/
def csrNative (n : Nat) : Bool := 0x60 ≤ n ∧ n ≤ 0x63
def csrStrand (n : Nat) : Bool := n = 0x70 ∨ n = 0x71
def csrWritable (n : Nat) : Bool := n = 8 ∨ n = 0x40 ∨ (0x50 ≤ n ∧ n ≤ 0x5B) ∨ csrNative n

/-- The CSR number a Burhus CSRR or CSRW names is one it may name (15 R322). -/
def bCsrOk (op n : Nat) : Bool :=
  if op = 0xE0 then csrAssigned n && !csrNative n else if op = 0xE1 then csrWritable n && !csrNative n else true

/-- A type or opcode that the feature mask `fm` removes, or that a version before `ver` lacks (02 R26, R25;
19 Table 19.7). -/
def bMasked (fm ver op : Nat) (f : BIns) : Bool :=
  let t := f.m1.toNat % 16
  let s := f.m2.toNat % 16
  let fp8 (x : Nat) : Bool := x = 9 || x = 10
  (bitOf 0 fm && (0x38 ≤ op && op ≤ 0x3A) && (fp8 t || fp8 s)) ||
  (bitOf 1 fm && (0x38 ≤ op && op ≤ 0x3A) && (t = 11 || s = 11)) ||
  (bitOf 4 fm && op = 0x73) || (bitOf 5 fm && (op = 0x68 || op = 0x69)) ||
  (op = 0x40 && f.m1.toNat / 16 = 3 && ver < 30)

/-- Type code 11 in an object before version 2.2 (02 R25). -/
def log6Early (ver op : Nat) (f : BIns) : Bool :=
  ver < 22 && (0x38 ≤ op && op ≤ 0x3A) && (f.m1.toNat % 16 = 11 || f.m2.toNat % 16 = 11)

/-- The shared operation an opcode names; `sub` selects among VOTE's forms, `csr` among CSRW's. -/
def mkShared (op sub csr : Nat) (f : Form) : Option Instr :=
  match op with
  | 0x00 => some (.iadd f) | 0x01 => some (.isub f) | 0x02 => some (.imul f) | 0x03 => some (.imulh f)
  | 0x04 => some (.imad f) | 0x05 => some (.imin f) | 0x06 => some (.imax f) | 0x07 => some (.iabs f)
  | 0x08 => some (.ineg f) | 0x09 => some (.and_ f) | 0x0A => some (.or_ f) | 0x0B => some (.xor_ f)
  | 0x0C => some (.not_ f) | 0x0D => some (.andn f) | 0x0E => some (.shl f) | 0x0F => some (.shr f)
  | 0x10 => some (.sar f) | 0x11 => some (.rot f) | 0x12 => some (.popc f) | 0x13 => some (.clz f)
  | 0x14 => some (.brev f) | 0x15 => some (.bfx f) | 0x16 => some (.bfi f) | 0x17 => some (.sel f)
  | 0x18 => some (.icmp f) | 0x19 => some (.mov f) | 0x1A => some (.movi f) | 0x1B => some (.lea f)
  | 0x20 => some (.fadd f) | 0x21 => some (.fsub f) | 0x22 => some (.fmul f) | 0x23 => some (.ffma f)
  | 0x24 => some (.fmin f) | 0x25 => some (.fmax f) | 0x26 => some (.fcmp f) | 0x27 => some (.frcp f)
  | 0x28 => some (.frsq f) | 0x29 => some (.fexp2 f) | 0x2A => some (.flog2 f) | 0x2B => some (.ftanh f)
  | 0x30 => some (.hadd2 f) | 0x31 => some (.hmul2 f) | 0x32 => some (.hfma2 f)
  | 0x38 => some (.cvt f) | 0x39 => some (.pack f) | 0x3A => some (.unpack f) | 0x3B => some (.scale f)
  | 0x40 => match sub with
    | 0 => some (.voteAny f) | 1 => some (.voteAll f) | 2 => some (.voteBallot f) | _ => none
  | 0x41 => some (.shfl f) | 0x42 => some (.cred f)
  | 0x50 => some (.ld f) | 0x51 => some (.st f) | 0x52 => some (.lds f) | 0x53 => some (.sts f)
  | 0x54 => some (.ldl f) | 0x55 => some (.stl f) | 0x56 => some (.ldc f) | 0x57 => some (.push f)
  | 0x58 => some (.pop f) | 0x59 => some (.atom f) | 0x5A => some (.cas f) | 0x5B => some (.pref f)
  | 0x60 => some (.acq f) | 0x61 => some (.rel f) | 0x62 => some (.fence f) | 0x63 => some (.bind f)
  | 0x64 => some (.unbind f) | 0x68 => some (.seal f) | 0x69 => some (.gate f)
  | 0x70 => some (.cpy f) | 0x71 => some (.cpy2 f) | 0x72 => some (.gath f) | 0x73 => some (.coll f)
  | 0x74 => some (.tlw f) | 0x75 => some (.tlr f)
  | 0xE0 => some (.csrr f)
  | 0xE1 => if csr = 0x40 then some (.csrwBkm f) else if csr = 8 then some (.csrwFpf f)
            else if 0x50 ≤ csr ∧ csr ≤ 0x5B then some (.csrwFcb f) else none
  | _ => none

/-- The Burhus instruction of an opcode. -/
def mkBur (op : Nat) (f : BIns) : Option Instr :=
  match op with
  | 0x1C => some (.idiv f) | 0x1D => some (.irem f) | 0x2C => some (.fdot4 f) | 0x33 => some (.hdot2 f)
  | 0x80 => some (.mmaT f) | 0x81 => some (.mretT f) | 0x82 => some (.mzeroT f)
  | 0xC0 => some (.next f) | 0xC1 => some (.nextC f) | 0xC2 => some (.nextIx f) | 0xC3 => some (.exit f)
  | 0xC4 => some (.rft f) | 0xC8 => some (.barG f) | 0xC9 => some (.barK f) | 0xCA => some (.yield_ f)
  | 0xCB => some (.trap (.bur f)) | 0xCC => some (.brk (.bur f))
  | _ => if op = 0x40 ∧ f.m1.toNat / 16 = 3 then some (.voteEq f)
         else mkShared op (f.m1.toNat / 16) f.n1 (.bur f)

/-- The opcode byte that an operation carries in Burhus code and in the S, V and L slots (03 R49). -/
def opcOf : Instr → Nat
  | .iadd _ => 0x00 | .isub _ => 0x01 | .imul _ => 0x02 | .imulh _ => 0x03 | .imad _ => 0x04 | .imin _ => 0x05
  | .imax _ => 0x06 | .iabs _ => 0x07 | .ineg _ => 0x08 | .and_ _ => 0x09 | .or_ _ => 0x0A | .xor_ _ => 0x0B
  | .not_ _ => 0x0C | .andn _ => 0x0D | .shl _ => 0x0E | .shr _ => 0x0F | .sar _ => 0x10 | .rot _ => 0x11
  | .popc _ => 0x12 | .clz _ => 0x13 | .brev _ => 0x14 | .bfx _ => 0x15 | .bfi _ => 0x16 | .sel _ => 0x17
  | .icmp _ => 0x18 | .mov _ => 0x19 | .movi _ => 0x1A | .lea _ => 0x1B | .idiv _ => 0x1C | .irem _ => 0x1D
  | .fadd _ => 0x20 | .fsub _ => 0x21 | .fmul _ => 0x22 | .ffma _ => 0x23 | .fmin _ => 0x24 | .fmax _ => 0x25
  | .fcmp _ => 0x26 | .frcp _ => 0x27 | .frsq _ => 0x28 | .fexp2 _ => 0x29 | .flog2 _ => 0x2A | .ftanh _ => 0x2B
  | .fdot4 _ => 0x2C | .hadd2 _ => 0x30 | .hmul2 _ => 0x31 | .hfma2 _ => 0x32 | .hdot2 _ => 0x33
  | .cvt _ => 0x38 | .pack _ => 0x39 | .unpack _ => 0x3A | .scale _ => 0x3B
  | .voteAny _ => 0x40 | .voteAll _ => 0x40 | .voteBallot _ => 0x40 | .voteEq _ => 0x40 | .shfl _ => 0x41 | .cred _ => 0x42
  | .ld _ => 0x50 | .st _ => 0x51 | .lds _ => 0x52 | .sts _ => 0x53 | .ldl _ => 0x54 | .stl _ => 0x55 | .ldc _ => 0x56
  | .push _ => 0x57 | .pop _ => 0x58 | .atom _ => 0x59 | .cas _ => 0x5A | .pref _ => 0x5B | .spl _ => 0x5C | .fil _ => 0x5D
  | .acq _ => 0x60 | .rel _ => 0x61 | .fence _ => 0x62 | .bind _ => 0x63 | .unbind _ => 0x64 | .seal _ => 0x68
  | .gate _ => 0x69 | .cpy _ => 0x70 | .cpy2 _ => 0x71 | .gath _ => 0x72 | .coll _ => 0x73 | .tlw _ => 0x74 | .tlr _ => 0x75
  | .mmaT _ => 0x80 | .mretT _ => 0x81 | .mzeroT _ => 0x82 | .mx _ => 0x88 | .mxs _ => 0x89 | .mxr _ => 0x8A | .mxz _ => 0x8B
  | .next _ => 0xC0 | .nextC _ => 0xC1 | .nextIx _ => 0xC2 | .exit _ => 0xC3 | .rft _ => 0xC4 | .barG _ => 0xC8
  | .barK _ => 0xC9 | .yield_ _ => 0xCA | .trap _ => 0xCB | .brk _ => 0xCC | .csrr _ => 0xE0 | .csrwBkm _ => 0xE1
  | .csrwFcb _ => 0xE1 | .csrwFpf _ => 0xE1 | .csrwAdr _ => 0xE1
  | .pbr _ => 0x01 | .brt _ => 0x02 | .send _ => 0x03 | .lpset _ => 0x04 | .lpclr _ => 0x05 | .rpt _ => 0x06
  | .cmt _ => 0x07 | .cmtSwap _ => 0x07 | .halt _ => 0x08 | .barGNative _ => 0x09 | .barKNative _ => 0x0A
  | .yieldNative _ => 0x0B | .rftNative _ => 0x0E
  | _ => 0

/-- The operand form of a shared operation. -/
def formOf : Instr → Option Form
  | .iadd f => some f | .isub f => some f | .imul f => some f | .imulh f => some f | .imad f => some f | .imin f => some f
  | .imax f => some f | .iabs f => some f | .ineg f => some f | .and_ f => some f | .or_ f => some f | .xor_ f => some f
  | .not_ f => some f | .andn f => some f | .shl f => some f | .shr f => some f | .sar f => some f | .rot f => some f
  | .popc f => some f | .clz f => some f | .brev f => some f | .bfx f => some f | .bfi f => some f | .sel f => some f
  | .icmp f => some f | .mov f => some f | .movi f => some f | .lea f => some f
  | .fadd f => some f | .fsub f => some f | .fmul f => some f | .ffma f => some f | .fmin f => some f | .fmax f => some f
  | .fcmp f => some f | .frcp f => some f | .frsq f => some f | .fexp2 f => some f | .flog2 f => some f | .ftanh f => some f
  | .hadd2 f => some f | .hmul2 f => some f | .hfma2 f => some f
  | .cvt f => some f | .pack f => some f | .unpack f => some f | .scale f => some f
  | .voteAny f => some f | .voteAll f => some f | .voteBallot f => some f | .shfl f => some f | .cred f => some f
  | .ld f => some f | .st f => some f | .lds f => some f | .sts f => some f | .ldl f => some f | .stl f => some f
  | .ldc f => some f | .push f => some f | .pop f => some f | .atom f => some f | .cas f => some f | .pref f => some f
  | .acq f => some f | .rel f => some f | .fence f => some f | .bind f => some f | .unbind f => some f | .seal f => some f
  | .gate f => some f | .cpy f => some f | .cpy2 f => some f | .gath f => some f | .coll f => some f | .tlw f => some f
  | .tlr f => some f | .csrr f => some f | .csrwBkm f => some f | .csrwFcb f => some f | .csrwFpf f => some f
  | .idiv f => some (.bur f) | .irem f => some (.bur f) | .fdot4 f => some (.bur f) | .hdot2 f => some (.bur f)
  | .voteEq f => some (.bur f) | .mmaT f => some (.bur f) | .mretT f => some (.bur f) | .mzeroT f => some (.bur f)
  | .next f => some (.bur f) | .nextC f => some (.bur f) | .nextIx f => some (.bur f) | .exit f => some (.bur f)
  | .rft f => some (.bur f) | .barG f => some (.bur f) | .barK f => some (.bur f) | .yield_ f => some (.bur f)
  | .trap (.bur f) => some (.bur f) | .brk (.bur f) => some (.bur f)
  | .csrwAdr f => some (.s f) | .spl f => some (.l f) | .fil f => some (.l f)
  | _ => none

/-- Reads the guard prefix, if there is one (02 R23). -/
def getGuard : List Byte → Except DecErr (Option Nat × List Byte)
  | [] => .error .truncated
  | b :: bs =>
    if b = 0xEF then
      match uleb 4 4194303 bs with
      | .ok (g, r) => if r.head? = some (0xEF : Byte) then .error .malformed else .ok (some g, r)
      | .error e => .error e
    else .ok (none, b :: bs)

/-- Decodes what follows the opcode byte: modifier bytes, operands, limits. DESIGN CHOICE (log 80): the operand bytes are read before a
breach in guard or modifier is answered, so that operands which run past the extent refuse the kernel (R30) and raise no trap; R26 does not
order the two. DEDUCED (log 15): a masked opcode, or a masked type of a conversion, raises ILL_OPCODE whatever else of the instruction is out of
form. -/
def decBody (fm ver : Nat) (g : Option Nat) (imm : Bool) (op : Nat) (bs : List Byte) :
    Except DecErr (Instr × List Byte) :=
  match bMap op with
  | none => .error .illOpcode
  | some (cls, v) =>
    if ver < v ∨ (imm ∧ immOk op = false) then .error .illOpcode
    else if bs.length < mBytes cls then .error .truncated
    else
      let m1 : Byte := if 1 ≤ mBytes cls then bs.headD 0 else 0
      let m2 : Byte := if 2 ≤ mBytes cls then (bs.drop 1).headD 0 else 0
      let f0 : BIns := { guard := g, immPage := imm, m1 := m1, m2 := m2 }
      if bMasked fm ver op f0 then .error .illOpcode
      else match getOpds op (opds op imm m1.toNat) f0 (bs.drop (mBytes cls)) with
        | .error e => .error e
        | .ok (f, r) =>
          if bLimits op f ∧ bCsrOk op f.n1 ∧ log6Early ver op f = false ∧ (g = none ∨ noGuard op = false) then
            match mkBur op f with
            | some i => .ok (i, r)
            | none => .error .malformed
          else .error .malformed

/-- Decodes one Burhus instruction of an object of version `ver` (major × 10 + minor) under feature mask `fm`: the
instruction and the bytes after it, or why there is none (02 R19 to R29). DESIGN CHOICE (log 80): a malformed guard number is MALFORMED though
the opcode behind it is unassigned or masked; R26 does not order the two traps. -/
def decodeBurhus (fm ver : Nat) (bs : List Byte) : Except DecErr (Instr × List Byte) :=
  match getGuard bs with
  | .error e => .error e
  | .ok (_, []) => .error .truncated
  | .ok (g, b :: r) =>
    let res :=
      if b = 0xF0 then
        match r with
        | [] => .error .truncated
        | o :: r' => decBody fm ver g true o.toNat r'
      else if b = 0xFE ∨ b = 0xEF then .error .malformed
      else decBody fm ver g false b.toNat r
    match res with
    | .error e => .error e
    | .ok (i, rest) => if bs.length - rest.length ≤ 32 then .ok (i, rest) else .error .malformed

/-- The bytes of a Burhus instruction with opcode `op` (02 R19). -/
def encodeBIns (op : Nat) (f : BIns) : List Byte :=
  (match f.guard with | some g => (0xEF : Byte) :: ulebEnc 4 g | none => []) ++
  (if f.immPage then [0xF0] else []) ++ [BitVec.ofNat 8 op] ++
  (match bMap op with
   | some (cls, _) => (if 1 ≤ mBytes cls then [f.m1] else []) ++ (if 2 ≤ mBytes cls then [f.m2] else [])
   | none => []) ++
  (opds op f.immPage f.m1.toNat).flatMap fun o => putOpd op o f

/-- The bytes of a Burhus instruction, if it is one. -/
def encodeBurhus (i : Instr) : Option (List Byte) :=
  match formOf i with
  | some (.bur f) => some (encodeBIns (opcOf i) f)
  | _ => none

/-! ## Native slots (03 Tables 3.3 to 3.10, 09 R177, R178) -/

/-- Guard bits stand only with GE (03 R46). -/
def guardOk (g : Nat) (ge gn : Bool) : Bool := ge || (g == 0 && !gn)

/-- Operations whose operand B may be IMX or the broadcast: the two- and three-source ones of Table 9.1. -/
def takesB (op : Nat) : Bool :=
  op ≤ 6 ∨ (9 ≤ op ∧ op ≤ 0x0B) ∨ (0x0D ≤ op ∧ op ≤ 0x11) ∨ op = 0x17 ∨ op = 0x18 ∨ op = 0x1B ∨
  (0x20 ≤ op ∧ op ≤ 0x26) ∨ (0x30 ≤ op ∧ op ≤ 0x32) ∨ op = 0x39 ∨ op = 0x3B ∨ op = 0x41

/-- Operations with a source C in the slot: IMAD, FFMA, HFMA2, BFI, and SEL's selector. -/
def takesC (op : Nat) : Bool := op = 4 ∨ op = 0x23 ∨ op = 0x32 ∨ op = 0x16 ∨ op = 0x17

/-- Rounding, saturation, SUB and immediate limits that S and V slots share (09 R177, R178, Table 9.2, 03 R47). -/
def aluLimits (op t rnd : Nat) (sat im : Bool) (sub : Nat) (imx : Nat) : Bool :=
  let conv : Bool := op = 0x38 || op = 0x39 || op = 0x3A
  (takesRnd op || conv || rnd == 0) && (op ≤ 1 || conv || !sat) &&
  (if op = 0x18 then decide (sub ≤ 5) else if op = 0x26 then decide (sub ≤ 6)
   else if op = 0x1B then decide (sub ≤ 7) else if op = 0x3A then decide (sub ≤ 1)
   else if op = 0x40 then decide (sub ≤ 2) else if op = 0x41 then decide (sub ≤ 3)
   else if op = 0x42 then decide (sub ≤ 5) && (t ≠ 4 || decide (sub ≤ 2))
   else conv || sub == 0) &&
  (if op = 0x15 ∨ op = 0x16 then
     im && (imx % 2 ^ 14 == imx) && (fld 7 6 imx == 0) && decide (fld 5 0 imx + (fld 13 8 imx + 1) ≤ tyWidth t)
   else if op = 0x1A then im
   else if im && (decide (0x0E ≤ op) && decide (op ≤ 0x11)) then decide (sInt 32 imx ≥ 0) && decide (imx < tyWidth t)
   else true)

/-- The opcodes of an S slot (Table 3.10). -/
def sAssigned (op : Nat) : Bool :=
  op ≤ 0x1B ∨ (0x20 ≤ op ∧ op ≤ 0x26) ∨ op = 0x38 ∨ op = 0xE0 ∨ op = 0xE1

/-- The types of an S slot (Table 3.10; a conversion as 09 R188 lists them). -/
def sTy (op t sub : Nat) : Bool :=
  if op = 0x38 then decide (t ≤ 4) && decide (sub ≤ 4) && decide (t ≠ sub) && (t = 4 || sub = 4)
  else if 0x20 ≤ op ∧ op ≤ 0x26 then t = 4
  else if op = 0xE0 ∨ op = 0xE1 then t = 0
  else arithTy (if op = 0x18 then 0 else op) t

/-- The limits of an S slot (03 R45 to R47, 09 R177, 15 Table 15.4). -/
def sLimits (op : Nat) (f : SSlot) : Bool :=
  let csr := f.imx.toNat
  guardOk f.gq.toNat f.ge f.gn && sTy op f.ty.toNat f.sub.toNat &&
  (if op = 0xE0 ∨ op = 0xE1 then
     f.im && f.rnd == 0 && !f.sat && f.sub == 0 && f.sb == 0 && f.sc == 0 &&
     (if op = 0xE0 then f.sa == 0 && csrAssigned csr && !csrStrand csr
      else f.sd == 0 && f.lat == 0 && csrWritable csr)
   else
     aluLimits op f.ty.toNat f.rnd.toNat f.sat f.im f.sub.toNat f.imx.toNat &&
     (op ≠ 0x38 || cvtOk f.ty.toNat f.sub.toNat f.rnd.toNat f.sat) &&
     (if op = 0x15 ∨ op = 0x16 ∨ op = 0x1A then f.sb == 0
      else if takesB op then !f.im || f.sb == 0 else !f.im && f.sb == 0) &&
     (takesC op || f.sc == 0) && (op ≠ 0x17 || decide (f.sc.toNat ≤ 3)) && (op ≠ 0x1A || f.sa == 0) &&
     ((op ≠ 0x18 && op ≠ 0x26) || decide (f.sd.toNat ≤ 3)))

/-- A type or opcode that the mask removes in a native slot (19 Table 19.7). -/
def nMasked (fm op t s : Nat) : Bool :=
  let fp8 (x : Nat) : Bool := x = 9 || x = 10
  let conv : Bool := 0x38 ≤ op && op ≤ 0x3A
  (bitOf 0 fm && conv && (fp8 t || fp8 s)) || (bitOf 1 fm && conv && (t = 11 || s = 11)) ||
  (bitOf 4 fm && op = 0x73) || (bitOf 5 fm && (op = 0x68 || op = 0x69))

/-- The S slot's instruction, none for NOP (03 R44, Table 3.3). `w` is the slot's 48 bits, `imx` the bundle's IMX. -/
def decS (fm w imx : Nat) : Except DecErr (Option Instr) :=
  if w = 0 then .ok none
  else
    let op := fld 47 40 w
    let im := bitOf 21 w
    let f : SSlot := {
      lat := BitVec.ofNat 3 (fld 39 37 w), gq := BitVec.ofNat 2 (fld 36 35 w), ge := bitOf 34 w,
      gn := bitOf 33 w, ty := BitVec.ofNat 4 (fld 32 29 w), rnd := BitVec.ofNat 2 (fld 28 27 w), sat := bitOf 26 w,
      sub := BitVec.ofNat 4 (fld 25 22 w), im := im, sd := BitVec.ofNat 5 (fld 20 16 w),
      sa := BitVec.ofNat 5 (fld 15 11 w), sb := BitVec.ofNat 5 (fld 10 6 w), sc := BitVec.ofNat 5 (fld 5 1 w),
      imx := if im then BitVec.ofNat 32 imx else 0 }
    if sAssigned op = false ∨ nMasked fm op f.ty.toNat f.sub.toNat then .error .illOpcode
    else if bitOf 0 w ∨ sLimits op f = false then .error .malformed
    else if op = 0xE1 ∧ csrNative imx then .ok (some (.csrwAdr f))
    else match mkShared op f.sub.toNat imx (.s f) with
      | some i => .ok (some i)
      | none => .error .malformed

/-- The 48 bits of an S slot. -/
def encS (op : Nat) (f : SSlot) : Nat :=
  op * 2 ^ 40 + f.lat.toNat * 2 ^ 37 + f.gq.toNat * 2 ^ 35 + f.ge.toNat * 2 ^ 34 + f.gn.toNat * 2 ^ 33 +
  f.ty.toNat * 2 ^ 29 + f.rnd.toNat * 2 ^ 27 + f.sat.toNat * 2 ^ 26 + f.sub.toNat * 2 ^ 22 + f.im.toNat * 2 ^ 21 +
  f.sd.toNat * 2 ^ 16 + f.sa.toNat * 2 ^ 11 + f.sb.toNat * 2 ^ 6 + f.sc.toNat * 2

/-- The opcodes of a V slot (Table 3.10). -/
def vAssigned (op : Nat) : Bool :=
  op ≤ 0x1A ∨ (0x20 ≤ op ∧ op ≤ 0x2B) ∨ (0x30 ≤ op ∧ op ≤ 0x32) ∨ (0x38 ≤ op ∧ op ≤ 0x3B) ∨ (0x40 ≤ op ∧ op ≤ 0x42)

/-- Type codes of 32 bits or less. -/
def ty32 (t : Nat) : Bool := t = 0 ∨ t = 1 ∨ (4 ≤ t ∧ t ≤ 7) ∨ (9 ≤ t ∧ t ≤ 15)

/-- The types of a V slot (Table 3.10, 09 R188 to R190); `s` is the source type of a conversion. -/
def vTy (op t s : Nat) : Bool :=
  if op = 0x38 then ty32 t && ty32 s && t ≠ s
  else if op = 0x39 then ty32 t && ty32 s && decide (tyWidth t ≤ 16)
  else if op = 0x3A then ty32 t && ty32 s && decide (tyWidth s ≤ 16)
  else if op = 0x40 then t = 0
  else if op = 0x41 then t = 7
  else if op = 0x42 then t = 0 || t = 1 || t = 4
  else if 0x20 ≤ op then arithTy op t
  else (t = 0 || t = 1 || t = 7) && arithTy (if op = 0x18 then 0 else op) t

/-- The limits of a V slot (03 R45 to R47, 09 R177, Table 9.1, R192 to R195). -/
def vLimits (op : Nat) (f : VSlot) : Bool :=
  let t := f.ty.toNat
  let s := if op = 0x3A then f.vb.toNat else f.sub.toNat
  guardOk f.gp.toNat f.ge f.gn && vTy op t s && !(f.bb && f.im) &&
  aluLimits op t f.rnd.toNat f.sat f.im f.sub.toNat f.imx.toNat &&
  ((op ≠ 0x38 && op ≠ 0x39 && op ≠ 0x3A) || cvtOk t s f.rnd.toNat f.sat) &&
  (if op = 0x3A then !f.bb && !f.im && decide (f.vb.toNat ≤ 15)
   else if op = 0x15 ∨ op = 0x16 ∨ op = 0x1A then f.vb == 0 && !f.bb
   else if takesB op then (!f.im && !f.bb) || f.vb == 0 else !f.im && !f.bb && f.vb == 0) &&
  (takesC op || f.vc == 0) && (op ≠ 0x17 || decide (f.vc.toNat ≤ 7)) && (op ≠ 0x1A || f.va == 0) &&
  ((op ≠ 0x18 && op ≠ 0x26) || decide (f.vd.toNat ≤ 7)) &&
  (op ≠ 0x40 || (decide (f.va.toNat ≤ 7) && (if f.sub.toNat = 2 then decide (f.vd.toNat ≤ 7) else decide (f.vd.toNat ≤ 3))))

/-- The V slot's instruction, none for NOP (03 Table 3.4). `bcs` is the broadcast port's scalar register (03 R54). -/
def decV (fm w imx bcs : Nat) : Except DecErr (Option Instr) :=
  if w = 0 then .ok none
  else
    let op := fld 63 56 w
    let im := bitOf 34 w
    let bb := bitOf 35 w
    let f : VSlot := {
      lat := BitVec.ofNat 4 (fld 55 52 w), gp := BitVec.ofNat 3 (fld 51 49 w), ge := bitOf 48 w,
      gn := bitOf 47 w, ty := BitVec.ofNat 4 (fld 46 43 w), rnd := BitVec.ofNat 2 (fld 42 41 w), sat := bitOf 40 w,
      sub := BitVec.ofNat 4 (fld 39 36 w), bb := bb, im := im, vd := BitVec.ofNat 6 (fld 33 28 w),
      va := BitVec.ofNat 6 (fld 27 22 w), vb := BitVec.ofNat 6 (fld 21 16 w), vc := BitVec.ofNat 6 (fld 15 10 w),
      imx := if im then BitVec.ofNat 32 imx else 0, bcs := if bb then BitVec.ofNat 5 bcs else 0 }
    let s := if op = 0x3A then f.vb.toNat else f.sub.toNat
    if vAssigned op = false ∨ nMasked fm op f.ty.toNat s then .error .illOpcode
    else if fld 9 0 w ≠ 0 ∨ vLimits op f = false then .error .malformed
    else match mkShared op f.sub.toNat 0 (.v f) with
      | some i => .ok (some i)
      | none => .error .malformed

/-- The 64 bits of a V slot. -/
def encV (op : Nat) (f : VSlot) : Nat :=
  op * 2 ^ 56 + f.lat.toNat * 2 ^ 52 + f.gp.toNat * 2 ^ 49 + f.ge.toNat * 2 ^ 48 + f.gn.toNat * 2 ^ 47 +
  f.ty.toNat * 2 ^ 43 + f.rnd.toNat * 2 ^ 41 + f.sat.toNat * 2 ^ 40 + f.sub.toNat * 2 ^ 36 + f.bb.toNat * 2 ^ 35 +
  f.im.toNat * 2 ^ 34 + f.vd.toNat * 2 ^ 28 + f.va.toNat * 2 ^ 22 + f.vb.toNat * 2 ^ 16 + f.vc.toNat * 2 ^ 10

/-! ### The memory and engine slot -/

/-- The opcodes of an L slot (Table 3.10). -/
def lAssigned (op : Nat) : Bool :=
  (0x50 ≤ op ∧ op ≤ 0x5D) ∨ (0x60 ≤ op ∧ op ≤ 0x64) ∨ op = 0x68 ∨ op = 0x69 ∨ (0x70 ≤ op ∧ op ≤ 0x75)

/-- No address field is set. -/
def noAddr (f : LSlot) : Bool := f.ar == 0 && !f.xe && !f.xc && f.x == 0 && !f.im && f.disp == 0

/-- XC needs DV; a scalar index register lies in s0 to s31; with IM the displacement is 0. With XE = 0 the index is 0 and
X is not read (Table 3.6, 11 R218). -/
def addrOk (f : LSlot) : Bool :=
  (!f.xc || f.dv) && (!f.xe || f.xc || decide (f.x.toNat ≤ 31)) && (!f.im || f.disp == 0)

/-- The data register lies in its cluster: s registers stop at 31. -/
def dOk (f : LSlot) : Bool := f.dv || decide (f.d.toNat ≤ 31)

/-- The limits of an L slot by opcode: 07 R147, R153, R155; 11 R221, R231; 12 R253; 13 R271, Table 13.4; 06 R119. -/
def lLimits (op : Nat) (f : LSlot) : Bool :=
  let t := f.ty.toNat
  guardOk f.gp.toNat f.ge f.gn && (f.dv || decide (f.gp.toNat ≤ 3)) && dOk f &&
  (if op = 0x57 ∨ op = 0x58 then
     t = 7 && f.dv && f.pol == 0 && f.scope == 0 && f.aop == 0 && f.ar == 0 && !f.xe && !f.xc && f.x == 0 && !f.im &&
     decide (f.disp.toNat ≤ 11) && (op = 0x58 || f.lat == 0)
   else if op = 0x5C ∨ op = 0x5D then
     !f.ge && f.pol == 0 && f.scope == 0 && f.aop == 0 && f.ar == 0 && !f.xe && !f.xc && f.x == 0 && !f.im &&
     (if f.dv then t = 7 && decide (f.disp.toNat ≤ 63) else t = 8 && decide (f.disp.toNat < 2048)) &&
     (if op = 0x5C then f.lat == 0 else decide (23 ≤ f.lat.toNat))
   else if op = 0x59 ∨ op = 0x5A then
     f.pol == 0 && decide (f.scope.toNat ≤ 5) && !f.xe && !f.xc && !f.im && (f.dv || decide (f.x.toNat ≤ 31)) &&
     (if op = 0x5A then setW t && f.aop == 0
      else decide (f.aop.toNat ≤ 6) && (setI t || setW t || (t = 4 && decide (f.aop.toNat ≤ 2)))) &&
     (!f.dv || decide (tyBytes t ≤ 4))
   else if op = 0x5B then
     t = 0 && decide (f.pol.toNat ≤ 2) && f.scope == 0 && f.aop == 0 && f.d == 0 && f.lat == 0 && addrOk f
   else if 0x50 ≤ op ∧ op ≤ 0x56 then
     setM t && (!f.dv || decide (tyBytes t ≤ 4)) && f.scope == 0 && addrOk f &&
     (if op = 0x50 ∨ op = 0x51 then decide (f.pol.toNat ≤ 2) else if op = 0x56 then decide (f.pol.toNat ≤ 1) else f.pol == 0) &&
     (if op = 0x50 ∨ op = 0x54 then decide (f.aop.toNat ≤ 1) else f.aop == 0) &&
     ((op ≠ 0x51 && op ≠ 0x53 && op ≠ 0x55) || f.lat == 0)
   else if 0x60 ≤ op ∧ op ≤ 0x64 then
     f.lat == 0 && t = 0 && f.pol == 0 && !f.dv && !f.xe && !f.xc && f.x == 0 && (!f.im || f.disp == 0) &&
     (if op = 0x63 then decide (f.d.toNat ≤ 30) else f.d == 0) &&
     (if op = 0x62 then decide (f.aop.toNat ≤ 1) && f.ar == 0 && !f.im && f.disp == 0 else f.aop == 0) &&
     (if op = 0x63 ∨ op = 0x64 then f.scope == 0 else decide (f.scope.toNat ≤ 5))
   else if op = 0x68 ∨ op = 0x69 then
     f.lat == 0 && t = 0 && f.pol == 0 && f.scope == 0 && f.aop == 0 && !f.dv && f.d == 0 && f.ar == 0 && !f.xe && !f.xc &&
     f.x == 0 && f.disp == 0 && (f.im == decide (op = 0x69))
   else
     let cnt := if op = 0x70 then 4 + f.aop.toNat else if op = 0x73 then 2 else if op = 0x74 ∨ op = 0x75 then 1 else 5 + f.aop.toNat
     !f.dv && f.scope == 0 && noAddr f && decide (f.d.toNat + cnt ≤ 32) &&
     (if op = 0x73 then setA t && decide (f.pol.toNat ≤ 2) && decide (f.aop.toNat ≤ 2) && (f.aop.toNat ≠ 2 || setW t)
      else t = 0 && (if op = 0x74 ∨ op = 0x75 then f.aop == 0 && decide (f.pol.toNat ≤ 1)
                     else decide (f.aop.toNat ≤ 1) && f.pol == 0)) &&
     (op ≠ 0x74 || f.lat == 0))

/-- The L slot's instruction, none for NOP (03 Table 3.6). -/
def decL (fm w imx : Nat) : Except DecErr (Option Instr) :=
  if w = 0 then .ok none
  else
    let op := fld 63 56 w
    let im := bitOf 12 w
    let f : LSlot := {
      lat := BitVec.ofNat 7 (fld 55 49 w), gp := BitVec.ofNat 3 (fld 48 46 w), ge := bitOf 45 w,
      gn := bitOf 44 w, ty := BitVec.ofNat 4 (fld 43 40 w), pol := BitVec.ofNat 2 (fld 39 38 w),
      scope := BitVec.ofNat 3 (fld 37 35 w), aop := BitVec.ofNat 4 (fld 34 31 w), dv := bitOf 30 w,
      d := BitVec.ofNat 6 (fld 29 24 w), ar := BitVec.ofNat 2 (fld 23 22 w), xe := bitOf 21 w, xc := bitOf 20 w,
      x := BitVec.ofNat 6 (fld 19 14 w), im := im, disp := BitVec.ofNat 12 (fld 11 0 w),
      imx := if im then BitVec.ofNat 32 imx else 0 }
    if op = 0 then .error .malformed
    else if lAssigned op = false ∨ nMasked fm op f.ty.toNat 0 then .error .illOpcode
    else if bitOf 13 w ∨ lLimits op f = false then .error .malformed
    else if op = 0x5C then .ok (some (.spl f))
    else if op = 0x5D then .ok (some (.fil f))
    else match mkShared op 0 0 (.l f) with
      | some i => .ok (some i)
      | none => .error .malformed

/-- The 64 bits of an L slot. -/
def encL (op : Nat) (f : LSlot) : Nat :=
  op * 2 ^ 56 + f.lat.toNat * 2 ^ 49 + f.gp.toNat * 2 ^ 46 + f.ge.toNat * 2 ^ 45 + f.gn.toNat * 2 ^ 44 +
  f.ty.toNat * 2 ^ 40 + f.pol.toNat * 2 ^ 38 + f.scope.toNat * 2 ^ 35 + f.aop.toNat * 2 ^ 31 + f.dv.toNat * 2 ^ 30 +
  f.d.toNat * 2 ^ 24 + f.ar.toNat * 2 ^ 22 + f.xe.toNat * 2 ^ 21 + f.xc.toNat * 2 ^ 20 + f.x.toNat * 2 ^ 14 +
  f.im.toNat * 2 ^ 12 + f.disp.toNat

/-! ### The matrix, branch, transfer and sync slots -/

/-- The M slot's instruction, none for NOP (10 R203, Table 10.4). -/
def decM (w : Nat) : Except DecErr (Option Instr) :=
  if w = 0 then .ok none
  else
    let op := fld 63 56 w
    let f : MSlot := {
      z := bitOf 55 w, fw := BitVec.ofNat 5 (fld 54 50 w), aa := BitVec.ofNat 2 (fld 49 48 w),
      ab := BitVec.ofNat 2 (fld 47 46 w), nstep := BitVec.ofNat 12 (fld 45 34 w),
      asrc := BitVec.ofNat 2 (fld 33 32 w), bsrc := BitVec.ofNat 2 (fld 31 30 w) }
    if op = 0 then .error .malformed
    else if op < 0x88 ∨ 0x8B < op then .error .illOpcode
    else if fld 29 0 w ≠ 0 then .error .malformed
    else if op = 0x88 then .ok (some (.mx f))
    else if op = 0x89 then .ok (some (.mxs f))
    else if op = 0x8A then
      if f.ab = 0 ∧ f.nstep = 0 ∧ f.bsrc = 0 ∧ (f.asrc = 0 ∨ f.asrc = 2) then .ok (some (.mxr f)) else .error .malformed
    else if f.fw = 0 ∧ f.aa = 0 ∧ f.ab = 0 ∧ f.nstep = 0 ∧ f.asrc = 0 ∧ f.bsrc = 0 then .ok (some (.mxz f))
    else .error .malformed

/-- The 64 bits of an M slot. -/
def encM (op : Nat) (f : MSlot) : Nat :=
  op * 2 ^ 56 + f.z.toNat * 2 ^ 55 + f.fw.toNat * 2 ^ 50 + f.aa.toNat * 2 ^ 48 + f.ab.toNat * 2 ^ 46 +
  f.nstep.toNat * 2 ^ 34 + f.asrc.toNat * 2 ^ 32 + f.bsrc.toNat * 2 ^ 30

/-- The limits of a B slot (Table 3.11, 14 R294 to R302, 18 R366). -/
def bSlotLimits (op : Nat) (f : BSlot) : Bool :=
  let o := f.opnd.toNat
  guardOk f.gq.toNat f.ge f.gn && (op = 2 || op = 0x0C || op = 0x0D || !f.ge) &&
  (if op = 1 then !(bitOf 17 o) || fld 16 0 o == 0
   else if op = 2 then fld 17 0 o == 0
   else if op = 3 then fld 13 0 o == 0
   else if op = 4 then fld 13 0 o ≠ 0
   else if op = 5 then fld 18 0 o == 0
   else if op = 6 then fld 7 0 o == 0
   else if op = 7 then
     fld 10 0 o == 0 && (if bitOf 19 o then fld 18 15 o ≠ fld 14 11 o && decide (fld 18 15 o ≤ 11) && decide (fld 14 11 o ≤ 11)
                         else fld 18 11 o == 0)
   else if op = 0x0C ∨ op = 0x0D then fld 19 8 o == 0
   else o == 0)

/-- The B slot's instruction, none for NOP (03 Table 3.8, 3.11). -/
def decB (w imx : Nat) : Except DecErr (Option Instr) :=
  if w = 0 then .ok none
  else
    let op := fld 31 24 w
    let f : BSlot := {
      gq := BitVec.ofNat 2 (fld 23 22 w), ge := bitOf 21 w, gn := bitOf 20 w,
      opnd := BitVec.ofNat 20 (fld 19 0 w), imx := if op = 1 ∧ bitOf 17 w then BitVec.ofNat 32 imx else 0 }
    if op = 0 then .error .malformed
    else if 0x0E < op then .error .illOpcode
    else if bSlotLimits op f = false then .error .malformed
    else match op with
      | 1 => .ok (some (.pbr f)) | 2 => .ok (some (.brt f)) | 3 => .ok (some (.send f)) | 4 => .ok (some (.lpset f))
      | 5 => .ok (some (.lpclr f)) | 6 => .ok (some (.rpt f))
      | 7 => .ok (some (if bitOf 19 w then .cmtSwap f else .cmt f))
      | 8 => .ok (some (.halt f)) | 9 => .ok (some (.barGNative f)) | 10 => .ok (some (.barKNative f))
      | 11 => .ok (some (.yieldNative f)) | 12 => .ok (some (.trap (.b f))) | 13 => .ok (some (.brk (.b f)))
      | _ => .ok (some (.rftNative f))

/-- The 32 bits of a B slot. -/
def encB (op : Nat) (f : BSlot) : Nat :=
  op * 2 ^ 24 + f.gq.toNat * 2 ^ 22 + f.ge.toNat * 2 ^ 21 + f.gn.toNat * 2 ^ 20 + f.opnd.toNat

/-- The X slot's instructions (03 Table 3.7, 07 R154): XV, BC, XS or XS.P; `bb` says that a V slot reads the broadcast. -/
def decX (w : Nat) (bb : Bool) : Except DecErr (List Instr) :=
  let xs := bitOf 30 w
  let xv := bitOf 12 w
  let xvs := fld 5 1 w
  let p := bitOf 0 w
  if (xv = false ∧ bb = false ∧ xvs ≠ 0) ∨
     (xs = false ∧ (fld 29 13 w ≠ 0 ∨ bitOf 31 w ∨ p)) ∨
     (xs ∧ p ∧ (fld 24 22 w ≠ 0 ∨ fld 18 13 w ≠ 0 ∨ bitOf 31 w)) then .error .malformed
  else .ok (
    (if xv then [Instr.xv (BitVec.ofNat 6 (fld 11 6 w)) (BitVec.ofNat 5 xvs)]
     else if bb then [Instr.bc (BitVec.ofNat 5 xvs)] else []) ++
    (if xs then
       if p then [Instr.xsP (BitVec.ofNat 5 (fld 29 25 w)) (BitVec.ofNat 3 (fld 21 19 w))]
       else [Instr.xs (bitOf 31 w) (BitVec.ofNat 5 (fld 29 25 w)) (BitVec.ofNat 6 (fld 24 19 w)) (BitVec.ofNat 6 (fld 18 13 w))]
     else []))

/-- The sync slot's instruction, none for NOP (03 Table 3.9, 14 R305 to R308). -/
def decY (w : Nat) : Except DecErr (Option Instr) :=
  let op := fld 31 30 w
  let fl : BitVec 5 := BitVec.ofNat 5 (fld 29 25 w)
  let k : BitVec 15 := BitVec.ofNat 15 (fld 14 0 w)
  if op = 0 then if w = 0 then .ok none else .error .malformed
  else if op = 1 then if fld 24 15 w = 0 then .ok (some (.wait fl k)) else .error .malformed
  else if op = 2 then
    if bitOf 24 w then if fld 23 15 w = 0 then .ok (some (.postSelf fl k)) else .error .malformed
    else .ok (some (.postCore fl (BitVec.ofNat 9 (fld 23 15 w)) k))
  else .error .malformed

/-- The 32 bits of an X-slot or sync-slot instruction. -/
def encXY : Instr → Nat
  | .xv vd ss => 2 ^ 12 + vd.toNat * 2 ^ 6 + ss.toNat * 2
  | .xs sx sd vs lane => sx.toNat * 2 ^ 31 + 2 ^ 30 + sd.toNat * 2 ^ 25 + vs.toNat * 2 ^ 19 + lane.toNat * 2 ^ 13
  | .xsP sd pk => 2 ^ 30 + sd.toNat * 2 ^ 25 + pk.toNat * 2 ^ 19 + 1
  | .bc ss => ss.toNat * 2
  | .wait fl k => 2 ^ 30 + fl.toNat * 2 ^ 25 + k.toNat
  | .postSelf fl k => 2 ^ 31 + fl.toNat * 2 ^ 25 + 2 ^ 24 + k.toNat
  | .postCore fl core k => 2 ^ 31 + fl.toNat * 2 ^ 25 + core.toNat * 2 ^ 15 + k.toNat
  | _ => 0

/-! ## Bundles (03 R43 to R45) -/

/-- The head of a bundle (Table 3.2). -/
structure Head where
  annot : BitVec 8 := 0
  prof : Bool := false
  rpta : Bool := false
  le1 : Bool := false
  le0 : Bool := false
  entry : Bool := false
  cmt : Bool := false
  deriving DecidableEq, Repr

/-- A decoded bundle: its head, and its slots' instructions in slot order (18 R357), the sync slot apart. -/
structure Bundle where
  head : Head := {}
  slots : List Instr := []
  sync : Option Instr := none
  deriving DecidableEq, Repr

/-- The head's fields, malformed with a wrong FMT or an RSV bit (03 R45). -/
def decHead (w : Nat) : Except DecErr Head :=
  if fld 3 0 w = 4 ∧ fld 5 4 w = 0 ∧ fld 31 20 w = 0 then
    .ok {
          annot := BitVec.ofNat 8 (fld 19 12 w), prof := bitOf 11 w, rpta := bitOf 10 w, le1 := bitOf 9 w, le0 := bitOf 8 w,
          entry := bitOf 7 w, cmt := bitOf 6 w }
  else .error .malformed

/-- Collects slots, first error first. -/
def seqSlots : List (Except DecErr (Option Instr)) → Except DecErr (List Instr)
  | [] => .ok []
  | .error e :: _ => .error e
  | .ok none :: r => seqSlots r
  | .ok (some i) :: r => (seqSlots r).map (i :: ·)

/-- Decodes a 512-bit bundle under feature mask `fm` (03 R43 to R45). -/
def decodeBundle (fm : Nat) (b : BitVec 512) : Except DecErr Bundle :=
  let n := b.toNat
  let imx := fld 511 480 n
  let x := fld 447 416 n
  let v0 := fld 223 160 n
  let v1 := fld 287 224 n
  let bb := (v0 ≠ 0 ∧ bitOf 35 v0) ∨ (v1 ≠ 0 ∧ bitOf 35 v1)
  match decHead (fld 31 0 n) with
  | .error e => .error e
  | .ok h =>
    match seqSlots [decS fm (fld 111 64 n) imx, decS fm (fld 159 112 n) imx, decV fm v0 imx (fld 5 1 x), decV fm v1 imx (fld 5 1 x),
                    decM (fld 351 288 n), decL fm (fld 415 352 n) imx], decX x bb, decB (fld 479 448 n) imx, decY (fld 63 32 n) with
    | .error e, _, _, _ => .error e
    | _, .error e, _, _ => .error e
    | _, _, .error e, _ => .error e
    | _, _, _, .error e => .error e
    | .ok a, .ok xs, .ok bs, .ok y => .ok { head := h, slots := a ++ xs ++ bs.toList, sync := y }

/-! ## Owner messages (20 R398, Table 20.2) -/

/-- The command codes of Table 20.2. -/
def mkCmd (c : Nat) (h : CmdHdr) (w : List W64) : Option Instr :=
  match c with
  | 0x01 => some (.claim h w) | 0x02 => some (.keep h w) | 0x03 => some (.handover h w) | 0x04 => some (.accept h w)
  | 0x10 => some (.pconfig h w) | 0x11 => some (.fconfig h w) | 0x12 => some (.winnew h w) | 0x13 => some (.winfree h w)
  | 0x14 => some (.dispatch h w) | 0x15 => some (.restoreGr h w) | 0x16 => some (.discardGr h w) | 0x17 => some (.grant h w)
  | 0x18 => some (.revoke h w)
  | 0x20 => some (.logset h w) | 0x21 => some (.reverse h w) | 0x22 => some (.drain h w) | 0x23 => some (.sealreq h w)
  | 0x24 => some (.recover h w) | 0x25 => some (.relaybuild h w) | 0x26 => some (.relayrebuild h w)
  | 0x30 => some (.exportTr h w) | 0x31 => some (.importTr h w) | 0x32 => some (.trustKey h w) | 0x33 => some (.untrustKey h w)
  | 0x34 => some (.nativeInstall h w) | 0x35 => some (.tcevict h w) | 0x36 => some (.decline h w)
  | 0x40 => some (.dstop h w) | 0x41 => some (.dread h w) | 0x42 => some (.dwrite h w) | 0x43 => some (.dcont h w)
  | 0x44 => some (.dattach h w) | 0x45 => some (.ddetach h w)
  | 0x50 => some (.identify h w) | 0x51 => some (.fwupdate h w) | 0x52 => some (.attest h w) | 0x53 => some (.apconfig h w)
  | 0x54 => some (.assignid h w) | 0x55 => some (.unretire h w) | 0x56 => some (.powercap h w) | 0x57 => some (.telemetry h w)
  | 0x60 => some (.ctxnew h w) | 0x61 => some (.ctxfree h w) | 0x62 => some (.mapMem h w) | 0x63 => some (.unmapMem h w)
  | _ => none

/-- The command code, sender and operand words of a command. -/
def cmdOf : Instr → Option (Nat × CmdHdr × List W64)
  | .claim h w => some (0x01, h, w) | .keep h w => some (0x02, h, w) | .handover h w => some (0x03, h, w)
  | .accept h w => some (0x04, h, w) | .pconfig h w => some (0x10, h, w) | .fconfig h w => some (0x11, h, w)
  | .winnew h w => some (0x12, h, w) | .winfree h w => some (0x13, h, w) | .dispatch h w => some (0x14, h, w)
  | .restoreGr h w => some (0x15, h, w) | .discardGr h w => some (0x16, h, w) | .grant h w => some (0x17, h, w)
  | .revoke h w => some (0x18, h, w) | .logset h w => some (0x20, h, w) | .reverse h w => some (0x21, h, w)
  | .drain h w => some (0x22, h, w) | .sealreq h w => some (0x23, h, w) | .recover h w => some (0x24, h, w)
  | .relaybuild h w => some (0x25, h, w) | .relayrebuild h w => some (0x26, h, w) | .exportTr h w => some (0x30, h, w)
  | .importTr h w => some (0x31, h, w) | .trustKey h w => some (0x32, h, w) | .untrustKey h w => some (0x33, h, w)
  | .nativeInstall h w => some (0x34, h, w) | .tcevict h w => some (0x35, h, w) | .decline h w => some (0x36, h, w)
  | .dstop h w => some (0x40, h, w) | .dread h w => some (0x41, h, w) | .dwrite h w => some (0x42, h, w)
  | .dcont h w => some (0x43, h, w) | .dattach h w => some (0x44, h, w) | .ddetach h w => some (0x45, h, w)
  | .identify h w => some (0x50, h, w) | .fwupdate h w => some (0x51, h, w) | .attest h w => some (0x52, h, w)
  | .apconfig h w => some (0x53, h, w) | .assignid h w => some (0x54, h, w) | .unretire h w => some (0x55, h, w)
  | .powercap h w => some (0x56, h, w) | .telemetry h w => some (0x57, h, w) | .ctxnew h w => some (0x60, h, w)
  | .ctxfree h w => some (0x61, h, w) | .mapMem h w => some (0x62, h, w) | .unmapMem h w => some (0x63, h, w)
  | _ => none

/-- The 8-byte little-endian words of a byte list. -/
def words64 : Nat → List Byte → List W64
  | 0, _ => []
  | n + 1, bs => BitVec.ofNat 64 (leNat (bs.take 8)) :: words64 n (bs.drop 8)

/-- A message's header fields and operands: CMD, TAG and operand words; none when its length or an RSV bit is wrong. -/
def decodeMsg (m : Master) (bs : List Byte) : Option (Nat × CmdHdr × Option (List W64)) :=
  let h := leNat (bs.take 16)
  let len := fld 63 32 h
  let hdr : CmdHdr := { from_ := m, tag := BitVec.ofNat 16 (fld 31 16 h) }
  if bs.length < 16 then none
  else if fld 127 96 h = 0 ∧ len % 8 = 0 ∧ len ≤ 32752 ∧ 16 + len ≤ bs.length then
    some (fld 15 0 h, hdr, some (words64 (len / 8) (bs.drop 16)))
  else some (fld 15 0 h, hdr, none)

/-- The bytes of a command's message. -/
def encodeMsg (c : Nat) (h : CmdHdr) (w : List W64) : List Byte :=
  leBytes 16 (c + h.tag.toNat * 2 ^ 16 + 8 * w.length * 2 ^ 32) ++ w.flatMap fun x => leBytes 8 x.toNat

/-! ## One word of the opcode table -/

/-- The instruction of a 32-bit slot word of the table: a B slot by its opcode byte, a sync-slot POST, XS or XS.P, WAIT,
XV, or BC. The words of XS and WAIT overlap, as they belong to different slots: a word whose low 13 bits are 0 is read as
XS. -/
def decodeSlotWord (w : Nat) : Option Instr :=
  let top := fld 31 24 w
  if 1 ≤ top ∧ top ≤ 0x0E then
    match decB w 0 with | .ok i => i | .error _ => none
  else if fld 31 30 w = 2 then
    match decY w with | .ok i => i | .error _ => none
  else if fld 31 30 w = 1 ∧ fld 12 0 w ≠ 0 ∧ ¬(fld 12 0 w = 1 ∧ fld 24 22 w = 0 ∧ fld 18 13 w = 0) then
    match decY w with | .ok i => i | .error _ => none
  else match decX w (bitOf 12 w = false ∧ bitOf 30 w = false) with
    | .ok (i :: _) => some i
    | _ => none

/-- The instruction that the decoder reads from a word of spec/opcode_table.json: 8 and 16 bits are Burhus bytes, 32 bits
a slot word of a native bundle whose other slots are zero. -/
def decodeTableWord (nbits w : Nat) : Option Instr :=
  if nbits = 8 ∨ nbits = 16 then
    match decodeBurhus 0 30 (leBytes (nbits / 8) w) with
    | .ok (i, []) => some i
    | _ => none
  else if nbits = 32 ∧ w < 2 ^ 32 then decodeSlotWord w
  else none

/-- The bundle that holds a 32-bit slot word in the slot that `decodeSlotWord` reads it from, every other slot zero; for BC, whose word
says nothing by itself, with an addition in V0 that reads the broadcast and that no lane executes (03 R43, R54). -/
def slotBundle (w : Nat) : BitVec 512 :=
  let at_ : Nat := match decodeSlotWord w with
    | some (.xv ..) | some (.xs ..) | some (.xsP ..) => w * 2 ^ 416
    | some (.bc _) => w * 2 ^ 416 + encV 0 { gp := 7, ge := true, bb := true } * 2 ^ 160
    | some (.wait ..) | some (.postSelf ..) | some (.postCore ..) => w * 2 ^ 32
    | _ => w * 2 ^ 448
  BitVec.ofNat 512 (at_ + 4)

/-- The words of a well-formed instruction: Burhus bytes, the bits of its native slot with IMX above it, or a command's
message bytes; an event has none. -/
inductive Enc where
  | bytes (bs : List Byte)
  | sSlot (w imx : Nat)
  | vSlot (w imx bcs : Nat)
  | lSlot (w imx : Nat)
  | mSlot (w : Nat)
  | bSlot (w imx : Nat)
  | xSlot (w : Nat)
  | ySlot (w : Nat)
  | none_
  deriving DecidableEq, Repr

/-- The encoder (spec/02, 03, 10 and 20). -/
def encode (i : Instr) : Enc :=
  match formOf i with
  | some (.bur f) => .bytes (encodeBIns (opcOf i) f)
  | some (.s f) => .sSlot (encS (opcOf i) f) f.imx.toNat
  | some (.v f) => .vSlot (encV (opcOf i) f) f.imx.toNat f.bcs.toNat
  | some (.l f) => .lSlot (encL (opcOf i) f) f.imx.toNat
  | none =>
    match i with
    | .mx f | .mxs f | .mxr f | .mxz f => .mSlot (encM (opcOf i) f)
    | .pbr f | .brt f | .send f | .lpset f | .lpclr f | .rpt f | .cmt f | .cmtSwap f | .halt f | .barGNative f
    | .barKNative f | .yieldNative f | .rftNative f => .bSlot (encB (opcOf i) f) f.imx.toNat
    | .trap (.b f) => .bSlot (encB 0x0C f) f.imx.toNat
    | .brk (.b f) => .bSlot (encB 0x0D f) f.imx.toNat
    | .xv .. | .xs .. | .xsP .. | .bc .. => .xSlot (encXY i)
    | .wait .. | .postSelf .. | .postCore .. => .ySlot (encXY i)
    | _ =>
      match cmdOf i with
      | some (c, h, w) => .bytes (encodeMsg c h w)
      | none => .none_

end Sys2Proof
end

