-- ==== Sys2Proof/Machine/State.lean ====
section
/-!
DEFINITION. The state of the machine as plain data: everything the spec gives the package. Each field's docstring names
what it holds; its width; the file and rule of spec/ that names it; its reset value. Sparse tables are lists of
(key, value) pairs with rising keys; a key that is not listed holds the table's default (Machine/Sparse.lean).
-/
namespace Sys2Proof.Machine

/-- A sparse table: keys strictly rising, no entry equal to the default it is read with. -/
abbrev SMap (α : Type) := List (Nat × α)

/-- Memory by physical byte address (04 R70), in the same form with default 0. -/
abbrev Memory := List Host.Cell

/-- Why a step could stop with a fault. Nothing of the spec stops this machine: every trap of spec/18 is a next state.
The type is inhabited so that the outcome has a fault to name; no meaning raises it. -/
inductive Fault where
  /-- raised by nobody; safe: no run ends in it. -/
  | none_
  deriving DecidableEq, Repr

/-- Why a step could be refused. -/
inductive Refusal where
  /-- raised by an arm of Machine/Dispatch.lean whose instruction has no meaning yet; safe: nothing is claimed of it. -/
  | notModelled (mnemonic : String)
  deriving DecidableEq, Repr

/-- The trap kinds of Table 18.1 (18 R356), with the causes that only occur inside ENGINE_FAULT. -/
inductive Trap where
  | none_ | illOpcode | malformed | badTarget | badSuccessor | hazard | regionOverrun | addrUnmapped | addrProt
  | addrAlign | integFail | uncorrData | localBad | stageBad | fifoBad | bankBad | engineBad | tlBad | engineFault
  | partialMask | mxBad | fmtBad | fmtDiverge | syncBad | atomBad | linkFail | flagBad | flagOvf | logFull | trapOp
  | handlerFault | contained | descBad | collMismatch | collAbort | brk
  deriving DecidableEq, Repr

/-- A fault as it is latched (18 R357): kind, cause, TRAP or BRK code, the address of each faulting lane, the access
kind, and where it was raised. -/
structure FaultRec where
  kind : Trap
  cause : Nat := 0
  code : Nat := 0
  /-- faulting lanes with their addresses, ascending -/
  lanes : List (Nat × Nat) := []
  acc : Acc := .read
  bidx : Nat := 0
  boff : Nat := 0
  seg : Nat := 0
  /-- found by replay (18 R359) -/
  replayed : Bool := false
  /-- Burhus boundary of the commit point that closes the region in which it was latched, where that lies within the segment; 24; 18 R361; none -/
  until_ : Option Nat := none
  deriving DecidableEq, Repr

/-- A loop-register set (03 R55): bundle indices, count, active. -/
structure LoopReg where
  start : BitVec 32 := 0
  stop : BitVec 32 := 0
  count : BitVec 32 := 0
  active : Bool := false
  deriving DecidableEq, Repr

/-- The commit shadow of an issue context (03 R57 step 5). -/
structure Shadow where
  q : BitVec 4 := 0
  b : SMap (BitVec 32) := []
  lp0 : LoopReg := {}
  lp1 : LoopReg := {}
  deriving DecidableEq, Repr

/-- An issue context (14 R287). -/
structure IssueCtx where
  /-- s0–s31; 32 × 64; 03 R55; 0 -/
  s : SMap W64 := []
  /-- q0–q3; 4 × 1; 03 R55; 0 -/
  q : BitVec 4 := 0
  /-- b0–b3; 4 × 32; 03 R55; 0 -/
  b : SMap (BitVec 32) := []
  /-- a0–a3 (CSRs ADR + k); 4 × 48; 03 R55 and 15 R323; 0 -/
  a : SMap (BitVec 48) := []
  /-- lp0; start, end, count 32 each, active; 03 R55; inactive, 0 -/
  lp0 : LoopReg := {}
  /-- lp1; start, end, count 32 each, active; 03 R55; inactive, 0 -/
  lp1 : LoopReg := {}
  /-- commit shadow of q, b, lp0, lp1; as those; 03 R57; the initial values -/
  shadow : Shadow := {}
  /-- FPF, the sticky flags NV DZ OF UF NX; 5; 08 R163; 0 -/
  fpf : BitVec 5 := 0
  deriving DecidableEq, Repr

/-- The classes of register that a result lands in: native s, v, p, q, b, a, and Burhus x, c. -/
inductive RegCls where
  | s | v | p | q | b | a | x | c
  deriving DecidableEq, Repr

/-- A result in flight (03 R50): the core cycle from which it is read, its deadline, and the register. -/
structure Landing where
  at_ : Nat
  deadline : Nat
  cls : RegCls
  reg : Nat
  slot : Nat := 0
  lane : Nat := 0
  val : W64
  /-- a memory result (L slot): past its deadline it holds its crew; 1; 03 R52, 07 R145; 0 -/
  held : Bool := false
  /-- the result of an LDC or LDS, which no acquire waits for; 1; 12 R242; 0 -/
  free : Bool := false
  deriving DecidableEq, Repr

/-- One lane's memory access, translated (11 R225, R226): virtual and physical address, bytes to store, window index. -/
structure LaneAcc where
  lane : Nat
  slot : Nat
  va : Nat
  pa : Nat
  bytes : List Byte := []
  widx : Nat := 0
  /-- bytes of the page it was translated by; 64 KiB, 2 MiB or 1 GiB; 04 R80, R88; 64 KiB -/
  page : Nat := 65536
  deriving DecidableEq, Repr

/-- A memory result that has not arrived (03 R52, 11 R225): the destination registers, type, policy and lanes. -/
structure MemReq where
  deadline : Nat
  cls : RegCls
  reg : Nat
  ty : BitVec 4
  pol : BitVec 2
  own : List (Nat × Byte)
  lanes : List LaneAcc
  /-- an SP load, whose translation faults mark a conflict; 1; 11 R237; 0 -/
  sp : Bool := false
  /-- core cycle before which its translations are not held; 04 R84 to R86; 0 -/
  ready : Nat := 0
  /-- its requests on the lift ring, once they stand at their station; number; 05 R115; none -/
  tag : Option Nat := none
  deriving DecidableEq, Repr

/-- An entry of the region store buffer (11 R227). -/
inductive BufEntry where
  | store (pol : BitVec 2) (lanes : List LaneAcc)
  | sts (lanes : List (Nat × List Byte))
  | bkm (v : W64)
  | fcb (k : Nat) (v : W64)
  | bind (o base len : Nat)
  | unbind (o : Nat)
  | engine (cls num : Nat)
  deriving DecidableEq, Repr

/-- What a bundle or instruction performs at its commit point, after the region's stores (11 R232; 12 R248, R251;
13 R272, R274; 14 R294, R301, R307; 18 R363, R366). -/
inductive CommitOp where
  | atom (cas : Bool) (op : BitVec 4) (ty : BitVec 4) (scope : BitVec 3) (cls : RegCls) (reg : Nat)
      (lanes : List (LaneAcc × W64 × W64))
  | rel (scope : BitVec 3) (objs : List (LaneAcc × Nat))
  | fence (scope : BitVec 3) (sc : Bool)
  | seal
  | gate (n : Nat) (bidx : Nat)
  | post (self : Bool) (core flag k cluster : Nat)
  | add (scope : BitVec 3) (obj : LaneAcc) (n : Nat)
  | send (succ : List (Nat × Nat × Nat))
  | halt
  | bar (cluster : Bool)
  | rft
  | swap (bk0 bk1 : Nat)
  deriving DecidableEq, Repr

/-- A write of Burhus registers that a rollback restores (03 R59 with 01 R13): register key and old value. -/
structure BUndo where
  isC : Bool
  key : Nat
  old : W64
  deriving DecidableEq, Repr

/-- The state of a repeat prefix (10 R213): M-slot issues left, the M slot (MXS or MX), the bundle of the RPT, and whether
the loop buffer has issued its body once. -/
structure Rpt where
  left : Nat
  slot : MSlot
  mxs : Bool
  rptIdx : Nat
  again : Bool := false
  deriving DecidableEq, Repr

/-- An engine command (06 R118 to R135). -/
structure EngCmd where
  num : Nat
  op : Nat
  core : Nat
  launch : Nat
  cluster : Nat
  asid : Nat
  dst : Nat
  src : Nat
  cnt : Nat
  strides : Nat := 0
  idx : Nat := 0
  ty : BitVec 4 := 0
  kind : Nat := 0
  cop : Nat := 0
  /-- flag word target fixed at acceptance: core, flag, K -/
  flag : Option (Nat × Nat × Nat) := none
  /-- staging banks of the issuing group at acceptance -/
  staging : List Nat := []
  released : Bool := false
  started : Bool := false
  parked : Option Nat := none
  /-- bytes moved -/
  done : Nat := 0
  refetch : Bool := false
  /-- cluster of the group that the flag word names, fixed at acceptance (06 R128) -/
  fcl : Nat := 0
  /-- its horizon marker has been placed (06 R131) -/
  marked : Bool := false
  /-- what stood, before the command, where it has written, by place (06 R130) -/
  was : SMap Byte := []
  /-- die and station at which its last byte so far has performed; 2 and 6; 14 R307; none -/
  last : Option (Nat × Nat) := none
  /-- the lines that its engine holds of its source and of its index list, by the offset of their first byte, and the element whose index it has
  read, with that index; 1,024 each, and 32; 06 R129, R130; none -/
  srcLine : Option (Int × List Byte) := none
  idxLine : Option (Int × List Byte) := none
  idxAt : Option (Nat × Nat) := none
  deriving DecidableEq, Repr

/-- A crew's current commit region (03 R57 to R59) and the work it has pending. -/
structure Region where
  /-- entry bundle of the region, or byte offset in the Burhus segment; 32; 03 R59; the crew's entry -/
  entry : Nat := 0
  /-- segment (entry number) the region began in; 24; 03 R61; the crew's entry segment -/
  seg : Nat := 0
  /-- bundle of the commit point that opened the region; 32; 03 R59; 0 -/
  openBidx : Nat := 0
  /-- Burhus boundary of the region's entry, segment and byte offset, of a crew that runs native code of a Burhus kernel;
  24 and 24; 03 R61; (0, 0) -/
  bur : Nat × Nat := (0, 0)
  /-- Burhus strands that skip the region's entry instruction; 64 lanes; 18 R363; none -/
  skip0 : List Nat := []
  /-- transfer and delay bundles pending at the region's entry, which a commit point on the BRT's own bundle leaves, and the repeat prefix
  that one on the RPT's own bundle leaves; 32 and 2, 2, —; 03 R59, 14 R296, 10 R213; none, 0, none -/
  branch0 : Option (Nat × Nat) := none
  delay0 : Nat := 0
  rpt0 : Option Rpt := none
  /-- a commit point of its strands opened the region, at bundle openBidx; 1; 07 R155; 0 -/
  opened : Bool := false
  /-- the commit points of the segment ends from which a crew formed at a record's turn has its strands; 32 each; 07 R155; none -/
  opens : List Nat := []
  /-- BKM and FCB + 0 to 11 as of the crew's last commit point; 24 and 12 × 64; 07 R156; none -/
  csr0 : Option (BitVec 24 × List W64) := none
  /-- bundles issued in the region; count to 257; 03 R58; 0 -/
  count : Nat := 0
  /-- region store buffer; 768 entries; 11 R227; empty -/
  buf : List BufEntry := []
  /-- operations to perform at the commit point; —; 11 R232; none -/
  ops : List CommitOp := []
  /-- its commit point has released what it buffered, and how many of its operations have been performed, where one waits for a drain that is on its
  way or that a full log holds, with the fill lists of the group from before; 1, count, —; 13 R270; 0, 0, none -/
  released : Bool := false
  opsDone : Nat := 0
  /-- the first operation that is left has sent its requests to the home banks; 1; 05 R112; 0 -/
  asked : Bool := false
  fills0 : SMap (Bool × List EngCmd) := []
  /-- the first latched fault; one; 03 R59; none -/
  latched : Option FaultRec := none
  /-- alias-detection table, line addresses; 32 entries; 11 R236; empty -/
  alias_ : List Nat := []
  /-- the region holds an SP load; 1; 11 R236; 0 -/
  spSeen : Bool := false
  /-- alias-conflicted mark; 1; 11 R236; 0 -/
  conflicted : Bool := false
  /-- FIFO entries pushed and not published, bank and lanes; 128 × 256 bytes; 07 R151; empty -/
  pushed : List (Nat × List W32) := []
  /-- FIFO entries taken and not retired, count by bank; —; 07 R151; none -/
  popped : SMap Nat := []
  /-- counts the region's WAITs took, flag and count; —; 14 R306; none -/
  waits : List (Nat × Nat) := []
  /-- sticky flags raised in the region; 5; 08 R163; 0 -/
  raised : BitVec 5 := 0
  /-- pending CSRW FPF, merged with the flags raised since; 5; 15 R323; none -/
  fpfWrite : Option (BitVec 5) := none
  /-- accumulators named in the region, bit k for zk; 2; 10 R198; 0 -/
  zNamed : BitVec 2 := 0
  /-- tags of the macro-operations issued in the region; —; 05 R109; none -/
  macros : List Nat := []
  /-- a commit point stands after the last bundle issued; 1; 03 R57; 0 -/
  due : Bool := false
  /-- registers read before any write, and registers written, of the region, which the hazard detector looks at; —; 03 R58; none -/
  reads : List Nat := []
  writes : List Nat := []
  /-- Burhus registers written in the region, newest first, for rollback; —; 01 R13 and 03 R59; none -/
  undo : List BUndo := []
  /-- spans CMT.SWAP opened with, bank bk0 and its refetch list, if not overflowed; —; 18 R366; none -/
  phase : Option (Nat × Option (List EngCmd)) := none
  deriving DecidableEq, Repr

/-- What a blocked crew waits for (03 R52; 06 R132; 07 R151; 12 R249; 14 R301, R306; 18 R359, R366, R377):
`delivery` for a replay and split run, `nested` for the group's handler, `debugger` for DCONT. -/
inductive Wait where
  | flag (f k : Nat)
  | timeline (cls n : Nat)
  | fifoSpace (bank : Nat)
  | fifoEntry (bank : Nat)
  | acquire (until_ : Nat)
  | barrier (cluster : Bool)
  | fill (bank : Nat)
  | pageFault (va : Nat)
  | seal (num : Nat)
  | logStall
  | delivery
  | nested
  | debugger
  deriving DecidableEq, Repr

/-- A command that waits to be accepted (06 R121): the command, its class, and the register its number goes to. -/
structure AcceptReq where
  cmd : EngCmd
  cls : Nat
  reg : Nat
  deadline : Nat
  deriving DecidableEq, Repr

/-- A crew as issued (14 R286 to R288). -/
structure Crew where
  /-- strands present, as lane and home slot; at most 64; 14 R286; the strands of its slot -/
  strands : List (Nat × Nat) := []
  /-- issue context; 4; 14 R287; the home slot -/
  ctx : Nat := 0
  /-- formed as its home slot's intact crew; 1; 14 R286; 1 -/
  intact : Bool := true
  /-- formed at a record's turn, from fragments; 1; 14 R287; 0 -/
  formed : Bool := false
  /-- entry number of its segment; 24; 14 R288; the entry segment -/
  seg : Nat := 0
  /-- priority of its segment; 16; 14 R288; the entry's PRIO -/
  prio : Nat := 0
  /-- next bundle index, or next byte offset in the Burhus segment; 32; 03 R62; the entry -/
  pc : Nat := 0
  /-- translation it runs, by number; —; 17 R347; the launch's -/
  tr : Nat := 0
  /-- it stands in the nested frontier of a handler; 1; 18 R362; 0 -/
  handler : Bool := false
  /-- its commit region; —; 03 R57; empty -/
  region : Region := {}
  /-- results in flight; —; 03 R50; none -/
  inflight : List Landing := []
  /-- memory results not yet arrived; —; 03 R52; none -/
  mem : List MemReq := []
  /-- engine commands not yet accepted, oldest first; —; 06 R121; none -/
  accepting : List AcceptReq := []
  /-- it runs native bundles; 1; 17 R351; from placement -/
  fjoset : Bool := false
  /-- pending transfer of a taken BRT, target and delay bundles left; 32 and 2; 14 R296; none -/
  branch : Option (Nat × Nat) := none
  /-- delay bundles of a BRT, taken or not, that are still to issue, and one for the BRT itself as it issues; 2; 14 R296; 0 -/
  delay : Nat := 0
  /-- bundle that issued last, or byte offset before the instruction that did; 32; 03 R57, R59; 0 -/
  last : Nat := 0
  /-- registers with the core cycle until which a result to them may land, which the hazard detector looks at; —; 03 R50, R53; none -/
  windows : List (Nat × Nat) := []
  /-- repeat prefix in progress; —; 10 R213; none -/
  rpt : Option Rpt := none
  /-- the wait it enters before it goes on, or once its bundle has issued; —; 14 R288; none -/
  hold : Option Wait := none
  /-- the flag and count of a wait that has been satisfied for it, until its WAIT issues; —; 14 R306; none -/
  served : Option (Nat × Nat) := none
  /-- core cycle at which the acquire ends that its satisfied wait on a flag with the remote bit makes; —; 14 R306; none -/
  acq : Option Nat := none
  /-- registers written since the crew took its issue context, which the hazard detector looks at; —; 14 R287; none -/
  wrote : List Nat := []
  /-- core cycle before which the crew issues no bundle (LPSET skip, late result, commit wait); —; 14 R298, 03 R52; 0 -/
  notBefore : Nat := 0
  /-- its BRK slots are NOP until its next commit point; 1; 21 R404; 0 -/
  brkNop : Bool := false
  /-- Burhus strands that skip the instruction at pc (returned by RFT, or past a BRK); 64 lanes; 18 R363; none -/
  skip : List Nat := []
  /-- a first uncorrectable error was consumed in this region; 1; 18 R368; 0 -/
  uncorrOnce : Bool := false
  /-- a fault delivered and waiting for its page-fault reply, replay, handler or restore; —; 18 R358, R375; none -/
  delivered : Option FaultRec := none
  /-- excluded from the next selection by YIELD; 1; 14 R302; 0 -/
  yielded : Bool := false
  deriving DecidableEq, Repr

/-- A ready entry of a frontier that holds a crew (14 R288): a whole entry or a resumption. -/
structure Ready where
  crew : Crew
  whole : Bool
  /-- pass count; count; 14 R291; 0 -/
  passes : Nat := 0
  /-- order in which it became ready, by core cycle; —; 14 R289; the start -/
  since : Nat := 0
  deriving DecidableEq, Repr

/-- A record of a frontier (14 R288): an entry number with, for each lane, the waiting strands' home slots. -/
structure Rec where
  seg : Nat
  prio : Nat
  lists : SMap (List Nat) := []
  /-- bundle of the segment end from which each strand came, by lane × 16 + home slot; 32 each; 07 R155; 0 -/
  opens : SMap Nat := []
  passes : Nat := 0
  since : Nat := 0
  deriving DecidableEq, Repr

/-- A frontier (14 R288). -/
structure Frontier where
  ready : List Ready := []
  records : List Rec := []
  deriving DecidableEq, Repr

/-- A crew whose strands in part run a handler (18 R362, R363): the crew as trapped at I with its T strands removed, the
trap, and the strands that have returned. -/
structure Nested where
  held : Crew
  fault : FaultRec
  returned : List (Nat × Nat) := []
  frontier : Frontier := {}
  deriving DecidableEq, Repr

/-- A counting flag (14 R305). -/
structure Flag where
  count : BitVec 16 := 0
  remote : Bool := false
  deriving DecidableEq, Repr

/-- A FIFO bank's queue (07 R150, R151): published entries oldest first (with those taken and not retired at the head),
entries on their way, and the count of the producer's unpublished entries. -/
structure Fifo where
  /-- published entries not yet retired; 128 × 64 lanes of 32; 07 R150; empty -/
  entries : List (List W32) := []
  /-- entries taken by the open region; count; 07 R151; 0 -/
  taken : Nat := 0
  /-- published entries in flight with their visibility cycle; —; 07 R151; empty -/
  inbound : List (Nat × List W32) := []
  /-- unpublished entries of the producer; count; 07 R151; 0 -/
  unpublished : Nat := 0
  deriving DecidableEq, Repr

/-- An accumulator element: a value of the extended FP32 format (08 R169). -/
abbrev Acc34 := BitVec 34

/-- An accumulator (10 R198, R199): elements by 256 m + n, default +0; the entry image; the holder's issue context and
whether that crew's open region named it. -/
structure Accum where
  /-- live elements; 128 × 256 × 34; 10 R198; +0 -/
  live : SMap Acc34 := []
  /-- entry image; 128 × 256 × 34; 10 R199; +0 -/
  image : SMap Acc34 := []
  /-- holder (issue context of the crew); 4; 10 R198; none -/
  holder : Option Nat := none
  /-- the holder is active; 1; 10 R198; 0 -/
  active : Bool := false
  /-- lines of L2 that its streams have pinned, each with the tag of the macro-operation; at most 4 lines of a set; 05 R109; none -/
  pins : List (Nat × Nat) := []
  deriving DecidableEq, Repr

/-- A macro-operation in the sequencer (10 R205): `op` is 0 MX, 1 MXS, 2 MXR, 3 MXZ; `issued` the core cycle of its issue,
`start` u, `delay` the cycles by which waits have moved it; the stream bytes of the block it is in; the first FIFO entry of
each stream; and, for a Burhus form, the length of its instruction. -/
structure Macro where
  z : Bool
  op : Nat
  fmt : BitVec 32 := 0
  locA : Nat := 0
  locB : Nat := 0
  kindA : Nat := 0
  kindB : Nat := 0
  steps : Nat := 1
  at_ : Nat := 0
  issued : Nat
  start : Nat := 0
  delay : Nat := 0
  ctx : Nat
  started : Bool := false
  bufA : List Byte := []
  bufB : List Byte := []
  scA : List Byte := []
  scB : List Byte := []
  baseA : Nat := 0
  baseB : Nat := 0
  bur : Option Nat := none
  /-- bytes of A and of B, scales aside, that its steps have fetched; —; 10 R202, 07 R146; 0 -/
  gotA : Nat := 0
  gotB : Nat := 0
  /-- its tag, under which its streams' bytes ride from its first step on, and the number of steps whose bytes have been asked for (10 R205) -/
  tag : Nat := 0
  asked : Nat := 0
  deriving DecidableEq, Repr

/-- The group on a core (07 R141, 14, 15): everything that is saved with it (18 R374). -/
structure Group where
  /-- launch the group belongs to; —; 15 R309; from placement -/
  launch : Nat
  /-- cluster index (CSR CLI); 24; 15 R324; from placement -/
  cluster : Nat
  /-- group number n (CSR GRP); 3; 15 R309; from placement -/
  gnum : Nat
  /-- CLK, core cycles placed before this placement; 64; 15 R324; 0 -/
  clk : Nat := 0
  /-- core cycle of the current placement, from which CLK runs; —; 15 R324; from placement -/
  since : Nat := 0
  /-- BKM, bank modes; 24; 07 R141; from placement -/
  bkm : BitVec 24 := 0
  /-- banks in change, with the cycle at which the change completes; —; 07 R143; none -/
  changing : SMap Nat := []
  /-- FDN; 10; 07 R150; from placement -/
  fdn : BitVec 10 := 0
  /-- FCB + k fields PCORE, PCREW, CCREW (HELD is computed); 12 × 20; 07 R150; PCORE from placement, else 0 -/
  fcb : SMap (BitVec 21) := []
  /-- scratchpad bytes by local address; 384 KiB; 07 R141; 0 -/
  scratch : SMap Byte := []
  /-- FIFO queues by bank; 12; 07 R150; empty -/
  fifo : SMap Fifo := []
  /-- issue contexts; 16; 14 R287; 0 -/
  ctxs : SMap IssueCtx := []
  /-- v0–v63 by (home slot × 64 + register) × 64 + lane; budget × 64 × 32; 03 R55; 0, v0 = strand number -/
  v : SMap W32 := []
  /-- p0–p7 by home slot × 8 + register, one bit per lane; 8 × 64; 03 R55; 0 -/
  p : SMap (BitVec 64) := []
  /-- Burhus value registers x by (home slot × 64 + lane) × 2^21 + number; 2^21 × 64 per strand; 02 R20, 09 R174; 0 -/
  x : SMap W64 := []
  /-- Burhus condition registers c, keyed as x; 2^21 × 1 per strand; 02 R20; 0 -/
  c : SMap Bool := []
  /-- spill areas by home slot × 16384 + byte, which stand in ways 12 to 15 of the region's own L2 banks; 16 × 16 KiB; 03 R56, 05 R110; DESIGN CHOICE 0 (log 6) -/
  spill : SMap Byte := []
  /-- counting flags f0–f31; 32 × (16 + 1); 14 R305; 0 -/
  flags : SMap Flag := []
  /-- z0 and z1; 2 × 128 × 256 × 34; 10 R198; +0, no holder -/
  z0 : Accum := {}
  z1 : Accum := {}
  /-- compute lane and retire lane of the array sequencer; one macro-operation each; 10 R205; idle -/
  compute : Option Macro := none
  retire : Option Macro := none
  /-- cycle at which the last compute and the last retire operation of each accumulator ended; —; 10 R205; 0 -/
  zComputeEnd : SMap Nat := []
  zRetireEnd : SMap Nat := []
  /-- running crew; —; 14 R289; none -/
  running : Option Crew := none
  /-- the frontier; —; 14 R288; one whole entry per crew slot -/
  frontier : Frontier := {}
  /-- handler frontier and its held crew; depth one; 18 R362; none -/
  nested : Option Nested := none
  /-- blocked crews with what they wait for, oldest first; —; 14 R288; none -/
  blocked : List (Crew × Wait) := []
  /-- forced switch-out pending; 1; 14 R291; 0 -/
  forced : Bool := false
  /-- the running crew was selected among the entries passed over 1,024 times, and keeps the core to its next segment end or blocking wait; 1;
  14 R291; 0 -/
  forcedRun : Bool := false
  /-- strands still live, by home slot × 64 + lane; at most 1,024; 14 R301; all of the group -/
  live : List Nat := []
  /-- strands waiting at BAR.G and at BAR.K; count; 14 R301; 0 -/
  atBarG : Nat := 0
  atBarK : Nat := 0
  /-- core cycles at which the crews that wait at BAR.G and at BAR.K are released, once every live strand has arrived; —; 14 R301; none -/
  barGAt : Option Nat := none
  barKAt : Option Nat := none
  /-- open fill lists by bank: overflowed, and the commands; 16 entries; 18 R366; none -/
  fills : SMap (Bool × List EngCmd) := []
  /-- staging banks granted, global numbers ascending; up to 32; 05 R108; from placement -/
  staging : List Nat := []
  /-- the core issues nothing before this core cycle (switching, stall); —; 14 R289; from placement -/
  issueAt : Nat := 0
  /-- core cycle in which the core issued its last bundle; —; 14 R289; 0 -/
  issued : Nat := 0
  /-- the last crew that issued (issue context); —; 14 R289; none -/
  lastCrew : Option Nat := none
  /-- a released host or peer store failed, to be reported at the next commit point; 1; 11 R230; 0 -/
  linkFail : Bool := false
  /-- its virtual address; 56; 11 R230; 0 -/
  linkVa : Nat := 0
  /-- stop requested (urgent pre-emption, seal, kill); 1; 18 R372; 0 -/
  stopReq : Bool := false
  /-- lift cycle by which a stopped crew stands at a commit point or is rolled back; —; 18 R372; 0 -/
  stopAt : Nat := 0
  /-- staging bytes of a suspended group, by SIDX × 196608 + offset; 32 × 192 KiB; 18 R374; 0 -/
  stg : SMap Byte := []
  deriving DecidableEq, Repr

/-- A line of the private data cache (07 R148). -/
structure CLine where
  /-- line address PA ÷ 128; 45; 07 R148 -/
  line : Nat
  /-- bank (way) that holds it; 4; 07 R148 -/
  bank : Nat
  /-- context and virtual line it was filled through; 12 + 49; 12 R246 -/
  asid : Nat
  vline : Nat
  data : Line := 0
  /-- bytes that are present (a store to an absent line allocates without a fill) -/
  valid : Mask := 0
  /-- per-byte dirty mask; 128; 07 R148 -/
  dirty : Mask := 0
  deriving DecidableEq, Repr

/-- Who wrote bytes that travel to a home bank (13 R266, R268): context, core, virtual line, engine mark. -/
structure Writer where
  asid : Option Nat := none
  core : Nat := 0
  vline : Nat := 0
  eng : Bool := false
  /-- number of the engine command; 64; 06 R123; 0 -/
  num : Nat := 0
  deriving DecidableEq, Repr

/-- An entry of the dirty-line FIFO (07 R149): a line whose dirty bytes stand in the cache, or an entry that carries
its bytes (11 R224); an evicted entry is empty; a marker stands for a release. -/
inductive DEntry where
  | line (l : Nat) (w : Writer)
  | bytes (l : Nat) (data : Line) (mask : Mask) (w : Writer)
  | empty
  | marker
  deriving DecidableEq, Repr

/-- A host or peer write or atomic on its way (11 R228, 12 R259). -/
structure LinkReq where
  asid : Nat
  pa : Nat
  bytes : List Byte
  /-- virtual address, and the launch whose crew made the store (11 R230) -/
  va : Nat := 0
  launch : Nat := 0
  deriving DecidableEq, Repr

/-- A translation held by a TLB (04 R83): context, base VA unit and page size, frame, rights, D bit, window. -/
structure TlbEntry where
  asid : Nat
  vpn : Nat
  size : Nat
  frame : Nat
  rd : Bool
  w : Bool
  x : Bool
  d : Bool
  widx : Nat
  pte : Nat
  /-- core cycle from which it is held: until then its walk or its lookup is pending; 04 R84, R86; 0 -/
  ready : Nat := 0
  deriving DecidableEq, Repr

/-- A line of a region's walk cache (04 R85): its number and bytes, and what it serves: context, level, and first virtual address, for each walk that has
read it. -/
structure WalkLine where
  line : Nat
  data : Line
  users : List (Nat × Nat × Nat)
  deriving DecidableEq, Repr

/-- A pending key of a region TLB (04 R84): context and VA[55:16], the core cycle at which its walk completes, and the accesses that wait for it, at most
4,096. -/
structure WalkKey where
  asid : Nat
  page : Nat
  until_ : Nat
  waiting : Nat := 1
  deriving DecidableEq, Repr

/-- A core (01 R8). -/
structure Core where
  /-- the group placed; one; 07 R141; none -/
  group : Option Group := none
  /-- private data cache, most recently used first; 12 ways × 256 sets; 07 R148; no line -/
  cache : List CLine := []
  /-- dirty-line FIFO, oldest first; 256 entries; 07 R149; empty -/
  dfifo : List DEntry := []
  /-- host and peer stores in flight, oldest first; —; 11 R228; none -/
  link : List LinkReq := []
  /-- core TLB, most recently used first; 128 entries; 04 R83; empty -/
  tlb : List TlbEntry := []
  /-- L1 instruction cache lines, (ASID, translation, 256-byte line), newest first; 4 ways × 64 sets of four bundles; 03 R66; empty -/
  l1 : List (Nat × Nat × Nat) := []
  /-- fenced; 1; 20 R392; 0 -/
  fenced : Bool := false
  /-- bundle signature of the even core of a pair; 64; 20 R390; 0 -/
  sig : BitVec 64 := 0
  /-- released STS bytes discarded; count; 07 R143; 0 -/
  stsLost : Nat := 0
  deriving DecidableEq, Repr

/-- A line in L2 (05 R106): its home bank, 128 bytes, dirty, pinned, undo tag (13 R268), and the context that last
merged into it. -/
structure L2Line where
  bank : Nat
  data : Line := 0
  dirty : Bool := false
  /-- pins held on it; count; 05 R109; 0 -/
  pins : Nat := 0
  /-- Tag: log position past its last record, with the context; 64; 13 R268; 0 -/
  tag : Option (Nat × Nat) := none
  /-- context of the last merge; 12; 13 R263; none -/
  by_ : Option Nat := none
  /-- use stamp for replacement; —; 05 R106; 0 -/
  used : Nat := 0
  deriving DecidableEq, Repr

/-- A merge request at a home bank (05 R106, 13 R268). -/
structure MergeReq where
  line : Nat
  data : Line
  mask : Mask
  w : Writer
  deriving DecidableEq, Repr

/-- A counter block of a chunk (04 R93): major counter, minor counters by line, and the parent counter its MAC was
formed with (04 R96). -/
structure CtrBlock where
  major : Nat := 0
  minors : SMap (BitVec 7) := []
  par : Nat := 0
  deriving DecidableEq, Repr

/-- A node of a counter tree (04 R96): eight 56-bit counters, and the parent counter its MAC was formed with. -/
structure TreeNode where
  ctrs : SMap (BitVec 56) := []
  par : Nat := 0
  deriving DecidableEq, Repr

/-- A group of a metadata log (13 R262): a counter block, the nodes above it that change, each with the counter that was raised, its place in the
log's ring, and its commit word. -/
structure MetaGroup where
  chunk : Nat
  blk : CtrBlock
  nodes : List (Nat × Nat × TreeNode) := []
  pos : Nat := 0
  committed : Bool := false
  deriving DecidableEq, Repr

/-- What stands in HBM4 for a line beside its plaintext image: the minor counter it was written under (04 R93: its major
is the chunk's; R94, R95: ciphertext and MAC are functions of these, the owner and the plaintext), and poison (04 R101). -/
structure LineMeta where
  minor : BitVec 7 := 0
  poison : Bool := false
  deriving DecidableEq, Repr

/-- A line of a gondola (03 R67): the 256-byte line, the cores of the die whose L1 took it, and whether a locked launch pins it (03 R69). -/
structure GLine where
  line : Nat
  pres : BitVec 128 := 0
  pin : Bool := false
  deriving DecidableEq, Repr

/-- An L2 bank's configuration entry is Table 5.1 as software reads it (05 R104). -/
abbrev BankEntry := BitVec 32

/-- An engine context (06 R117). -/
structure EngCtx where
  /-- virtual queue, by number; 256 places; 06 R117; empty -/
  queue : List EngCmd := []
  /-- last number assigned; 64; 06 R117; 0 -/
  last : Nat := 0
  /-- timeline counter; 64; 06 R117; 0 -/
  counter : Nat := 0
  /-- numbers above the counter already completed; —; 06 R123; none -/
  ended : List Nat := []
  /-- arbiter deficit in bytes; —; 06 R124; 0 -/
  deficit : Nat := 0
  /-- crews whose commands wait at the queue front, as core and issue context, in order of arrival; —; 06 R121; none -/
  waiting : List (Nat × Nat) := []
  deriving DecidableEq, Repr

/-- A running engine (06 R124): its command's engine context and number, the lift cycle before which its last access has not performed, and
the tag of what it moves over the rings. -/
structure EngRun where
  ctx : Nat
  num : Nat
  doneAt : Nat
  tag : Nat := 0
  /-- bytes of a line that it has fetched and not yet moved; 7; 06 R124; 0 -/
  credit : Nat := 0
  deriving DecidableEq, Repr

/-- A launch queue's controls (16 R325, Table 16.1). -/
structure Queue where
  /-- EN; 1; 16 R325; 0 -/
  en : Bool := false
  /-- QLOG; 5; 16 R325; 0 -/
  qlog : BitVec 5 := 0
  /-- QBASE, VA[55:7]; 49; 16 R325; 0 -/
  qbase : BitVec 49 := 0
  /-- WIDX; 32; 16 R325; 0 -/
  widx : BitVec 32 := 0
  /-- RIDX; 32; 16 R325; 0 -/
  ridx : BitVec 32 := 0
  /-- HALT; 1; 16 R325; 0 -/
  halt : Bool := false
  /-- entries a DISPATCH still allows; 32; 19 R387; 0 -/
  credit : Nat := 0
  /-- launch held at the head until its events; —; 16 R328; none -/
  head : Option Nat := none
  /-- the held launch was taken from the queue before it was enabled again; 1; 16 R326; 0 -/
  headOld : Bool := false
  deriving DecidableEq, Repr

/-- The event ring's controls (16 R337, Table 16.4). -/
structure Ring where
  /-- EN; 1; 16 R337; 0 -/
  en : Bool := false
  /-- ERBASE, VA[55:12]; 44; 16 R337; 0 -/
  base : BitVec 44 := 0
  /-- EWI, producer index; 32; 16 R337; 0 -/
  ewi : BitVec 32 := 0
  /-- ERI, consumer index; 32; 16 R337; 0 -/
  eri : BitVec 32 := 0
  /-- ECNT; 12; 16 R337; 0 -/
  ecnt : BitVec 12 := 0
  /-- ETIM; 16; 16 R337; 0 -/
  etim : BitVec 16 := 0
  /-- VEC; 11; 16 R337; 0 -/
  vec : BitVec 11 := 0
  /-- pending count; count; 16 R339; 0 -/
  pending : Nat := 0
  /-- time of the first pending record; —; 16 R339; none -/
  firstAt : Option Nat := none
  /-- records held in order, with the launch whose ESET waits; —; 16 R338; none -/
  held : List (List Byte × Option Nat) := []
  deriving DecidableEq, Repr

/-- A seal slot (13 R273): the 256-byte record, whether its metadata group is durable, and whether it was rewritten as
invalid. -/
structure SealSlot where
  bytes : List Byte := []
  durable : Bool := false
  deriving DecidableEq, Repr

/-- A seal in progress (13 R272): its number, log position, chain, slot, and whether bitmaps and record are awaited. -/
structure SealRun where
  num : Nat
  lpos : Nat
  chain : BitVec 256
  recorded : Bool := false
  /-- core of the crew that asked for it; 0 where the service did (13 R266) -/
  core : Nat := 0
  deriving DecidableEq, Repr

/-- A record that a full log holds until it has room (13 R270): a GATE with its core, bundle, number and kernel hash, or a HORIZON with its
cause, core and address. -/
inductive HeldRec where
  | gate (core bidx n khash : Nat)
  | horizon (cause core addr : Nat)
  deriving DecidableEq, Repr

/-- A context (04 R76, 12 R246, 13 R264, 15 R316, 16 R325, 19 R386). -/
structure Ctx where
  /-- context translation word; 64; 04 R76; 0 -/
  word : W64 := 0
  /-- live; 1; 19 R386; 0 -/
  live : Bool := false
  /-- context slot j of its function; 12; 19 R386; — -/
  slot : Nat := 0
  /-- binding table: object, base, length; 1,024 entries; 12 R246; empty -/
  binds : List (Nat × Nat × Nat) := []
  /-- places reserved by BINDs not yet committed; count; 12 R247; 0 -/
  bindRes : Nat := 0
  /-- EVV; 256; 15 R316; 0 -/
  evv : BitVec 256 := 0
  /-- ULC; 64; 13 R264; 0 -/
  ulc : W64 := 0
  /-- RPN; 64; 13 R265; 0 -/
  rpn : Nat := 0
  /-- RPS: SLOT, BSEL, SIP; 3; 13 R265; 0 -/
  rps : BitVec 3 := 0
  /-- RPH; 64; 13 R265; 0 -/
  rph : Nat := 0
  /-- RPC; 256; 13 R265; 0 -/
  rpc : BitVec 256 := 0
  /-- ULT; 64; 13 R265; 0 -/
  ult : Nat := 0
  /-- span tail and recovery tail behind ULT; 64 each; 13 R270; 0 -/
  spanTail : Nat := 0
  recTail : Nat := 0
  /-- ULD; 64; 13 R265; 0 -/
  uld : Nat := 0
  /-- UGN; 64; 13 R265; 0 -/
  ugn : W64 := 0
  /-- log ring bytes appended, by position modulo the ring; 2^LSZ bytes; 13 R265; 0 -/
  log : SMap Byte := []
  /-- positions of the records in the log, newest first, with kind and length; —; 13 R266; none -/
  logIndex : List (Nat × Nat) := []
  /-- the two recovery bitmaps, line addresses whose bit is set; one bit per line; 13 R268; clear -/
  bitmap0 : List Nat := []
  bitmap1 : List Nat := []
  /-- bitmap clear in progress; 1; 13 R272; 0 -/
  clearing : Bool := false
  /-- seal slots 0 and 1; 2 × 256 bytes; 13 R273; invalid -/
  seal0 : SealSlot := {}
  seal1 : SealSlot := {}
  /-- seal in progress; —; 13 R272; none -/
  sealing : Option SealRun := none
  /-- seals queued behind it, and the mailbox reply each owes; —; 13 R272; none -/
  sealQueue : List (Option CmdHdr) := []
  /-- cores of the crews that asked for them; 9 each; 13 R266; none -/
  sealCores : List Nat := []
  /-- granules that back the spill areas of its crews, by region; —; 05 R110; none -/
  spillGr : SMap Nat := []
  /-- log granules, save granules and seal-slot granule; —; 13 R264, 18 R374; none -/
  logGr : List Nat := []
  saveGr : List Nat := []
  /-- launch queues 0–7; 8 × 256; 16 R325; 0 -/
  queues : SMap Queue := []
  /-- event ring controls; 256; 16 R337; 0 -/
  ring : Ring := {}
  /-- debugger attached; 1; 18 R377; 0 -/
  dbg : Bool := false
  /-- stopped by debugger, REVERSE, error policy or LOG_FULL; 1; 18 R377; 0 -/
  stopped : Bool := false
  /-- stopped by a failure of its owner's tree until RESTORE or DISCARD; 1; 04 R102; 0 -/
  treeStop : Bool := false
  /-- mapped ranges of hardware page-fault mode: VA, bytes, rights, lazy, page size; —; 19 R386; none -/
  maps : List (Nat × Nat × Nat × Bool × Nat) := []
  /-- page-table granules that the Fjoset cores gave the context, and 8 KiB tables laid out in them; —; 04 R75, 19 R386; none -/
  tblGr : List Nat := []
  tbls : Nat := 0
  /-- granules assigned by MAP in hardware page-fault mode: first granule, granules, pages by VA; —; 19 R386, R387; none -/
  frames : List (Nat × Nat × List Nat) := []
  /-- records that a full log holds, oldest first; —; 13 R270; none -/
  heldRecs : List HeldRec := []
  /-- a LOGSET waits for the context's commands; 1; 13 R264; 0 -/
  logset : Bool := false
  /-- a RECOVER has stopped the context and waits for its commands; 1; 13 R279; 0 -/
  recovering : Bool := false
  /-- service granule of its seal slots; 19; 13 R273; none -/
  sealGr : Option Nat := none
  /-- a full log holds a merge; 1; 13 R270; 0 -/
  logHeld : Bool := false
  /-- a full log in mode TRAP: the context's kernels are to be killed with LOG_FULL; 1; 13 R270; 0 -/
  logTrap : Bool := false
  deriving DecidableEq, Repr

/-- A segment of a kernel (02 R33). -/
structure Seg where
  off : Nat
  len : Nat
  prio : Nat
  entry : Bool
  loopH : Bool
  trapH : Bool
  deriving DecidableEq, Repr

/-- An admitted kernel's snapshot (02 R39), or a native reference's package (17 R351). -/
structure Kernel where
  asid : Nat
  kobj : Nat
  kidx : Nat
  version : Nat := 0
  hash : BitVec 128 := 0
  code : List Byte := []
  segs : List Seg := []
  pool : List Byte := []
  entrySeg : Nat := 0
  trapSeg : Option Nat := none
  stages : Nat := 1
  vbudget : Nat := 0
  scratch : Nat := 0
  stageb : Nat := 0
  fifob : Nat := 0
  paramSz : Nat := 0
  features : Nat := 0
  elastic : Bool := false
  noGroom : Bool := false
  noSpec : Bool := false
  fjoset : Bool := false
  refused : Bool := false
  deriving DecidableEq, Repr

/-- A translation's key (17 Table 17.1). -/
structure Key where
  hash : BitVec 128
  tver : BitVec 16
  vbc : BitVec 2
  fmask : BitVec 8
  dom : BitVec 10
  deriving DecidableEq, Repr

/-- A commit-point entry with its location records (03 R60). -/
structure CPoint where
  bidx : Nat
  seg : Nat
  boff : Nat
  locs : List (BitVec 128)
  deriving DecidableEq, Repr

/-- An installed translation (17 R340 to R350). -/
structure Trans where
  key : Key
  /-- the code, one bundle a word; CODELEN × 512; 17 R348; — -/
  code : List (BitVec 512) := []
  side : List CPoint := []
  /-- entry table: priority and bundle index; ECNT × 64; 14 R293; — -/
  entries : List (Nat × Nat) := []
  /-- the Burhus kernel that it translates, where the Fjoset cores have seen it; —; 17 R346, R347; none -/
  kernel : Option Kernel := none
  /-- twin map: region entry and twin entry; —; 17 R348; — -/
  twins : List (Nat × Nat) := []
  entryE : Nat := 0
  trapE : Option Nat := none
  stages : Nat := 1
  groomed : Bool := false
  quick : Bool := true
  /-- native-only kernel: the functions that may launch it and NHASH -/
  nhash : BitVec 128 := 0
  chash : BitVec 128 := 0
  fns : List Nat := []
  /-- the package bytes as installed, for EXPORT -/
  pkg : List Byte := []
  /-- profile counters by bundle; 32 each; 17 R345; 0 -/
  prof : SMap (BitVec 32) := []
  /-- conflict counters by region entry; —; 11 R238; 0 -/
  conf : SMap Nat := []
  /-- regions, by entry, in whose place their twins stand; —; 11 R238, 17 R347; none -/
  noSp : List Nat := []
  /-- use stamp for eviction; —; 17 R342; 0 -/
  used : Nat := 0
  /-- where its package bytes and code stand in the granules of the translation cache; PA; 04 R71; none -/
  base : Option Nat := none
  /-- grooming in progress; 1; 17 R346; 0 -/
  grooming : Bool := false
  /-- replaced: only crews that began in it still use it; 1; 17 R347; 0 -/
  stale : Bool := false
  deriving DecidableEq, Repr

/-- A suspended cluster (18 R373, R374): the cores it left with their saved groups, in group order. -/
structure Saved where
  cluster : Nat
  groups : List (Nat × Group)
  /-- the cores that the cluster was placed on, by group number, those of ended groups included; 9 each; 15 R324; from placement -/
  cores : List Nat := []
  /-- saved to memory (CONTEXT_SAVE done) -/
  written : Bool := false
  deriving DecidableEq, Repr

/-- A launch (15 R309 to R319, 16 R329). -/
structure Launch where
  asid : Nat
  q : Nat
  lidx : Nat
  /-- the record as widened; 1024; 15 R311; — -/
  record : BitVec 1024 := 0
  kernel : Option Kernel := none
  fjoset : Bool := false
  tr : Option Nat := none
  key : Option Key := none
  grid : Nat := 1
  gps : Nat := 1
  stages : Nat := 1
  spg : Nat := 1
  vbc : Nat := 0
  /-- feature mask in force at its start; 8; 19 R385; 0 -/
  fmask : Nat := 0
  nscr : Nat := 0
  nfifo : Nat := 0
  nstage : Nat := 0
  nelast : Nat := 0
  /-- captured parameter block; PARAMSZ bytes; 15 R313; — -/
  params : List Byte := []
  started : Bool := false
  startOrd : Nat := 0
  /-- a translation is being made or requested for it -/
  waitTr : Bool := false
  /-- lowest cluster not yet placed; 24; 15 R320; 0 -/
  nextCluster : Nat := 0
  /-- placed clusters: index and cores in group order; —; 15 R310; none -/
  placed : List (Nat × List Nat) := []
  suspended : List Saved := []
  /-- clusters that have ended; count; 15 R309; 0 -/
  ended : Nat := 0
  issued : Bool := false
  /-- status to report, with the fault summary; 16 R337; none -/
  status : Option (Nat × Nat × Nat × Nat) := none
  complete : Bool := false
  /-- abandoned by RECOVER; 1; 23 R408; 0 -/
  abandoned : Bool := false
  /-- lift cycles that its bound has run, and since when it runs; 64 each; 15 R315; 0 -/
  ran : Nat := 0
  runSince : Option Nat := none
  /-- cluster that became head of placement at; µs; 16 R333; none -/
  headSince : Option Nat := none
  /-- became unplaceable at; —; 19 R383; none -/
  unplacedAt : Option Nat := none
  /-- placed clusters that are to be suspended; 24 each; 18 R371; none -/
  preempt : List Nat := []
  deriving DecidableEq, Repr

/-- A function (19 R384, 20 R396, R415). -/
structure Fn where
  /-- function configuration record without FN; 128; 19 R384; WEIGHT 1, TDOM = FN, else 0 -/
  record : BitVec 128 := 0
  /-- error counters ERRC, ERRU, ERRP, ERRS, ERRK; 5 × 64; 19 R389; 0 -/
  errc : Nat := 0
  erru : Nat := 0
  errp : Nat := 0
  errs : Nat := 0
  errk : Nat := 0
  /-- host window control words; 2 × 64; 20 R415; 0 -/
  hw0 : W64 := 0
  hw1 : W64 := 0
  /-- function mailbox reply, READY; 2,032 bytes and 1; 20 R396; none, 0 -/
  reply : List Byte := []
  ready : Bool := false
  /-- key slot drawn (generation), 0 when destroyed; 256-bit key; 04 R92; none -/
  key : Nat := 0
  /-- granules assigned in hardware mode against GQUOTA; 19; 19 R384; 0 -/
  used : Nat := 0
  /-- MSI-X interrupts raised, by vector; 2,048 vectors; 20 R396; none -/
  msix : List Nat := []
  /-- BRKs with no debugger; count; 14 R303; 0 -/
  brks : Nat := 0
  /-- released STS bytes discarded for a bank mode; count; 07 R143; 0 -/
  stsLost : Nat := 0
  /-- request area of the function mailbox; 2,048 bytes; 20 R396; 0 -/
  req : SMap Byte := []
  /-- host window accesses that failed; count; 20 R415; 0 -/
  hwErr : Nat := 0
  /-- completion of the last read through the host window: its bytes, or none for Unsupported Request; —; 20 R415; none -/
  hwRead : Option (List Byte) := none
  deriving DecidableEq, Repr

/-- A partition (19 R380). -/
structure Part where
  /-- partition configuration record; 256; 19 R380; AGE 256, RQTO 100, OPB 20, SLQ 10, GTH 16, else 0 -/
  record : BitVec 256 := 0
  /-- placement list is the started launches by priority and order; reservation: launch, cluster, region; 16 R334; none -/
  reserve : Option (Nat × Nat × Nat) := none
  /-- function whose tenant slice runs; 9; 18 R369; none -/
  slice : Option Nat := none
  sliceAt : Nat := 0
  outgoing : Option (Nat × Nat) := none
  /-- end of the last slice whose incoming function has issued no bundle yet; —; 18 R370; none -/
  switching : Option Nat := none
  /-- switch costs of the last 16 switches, ns; 18 R370; none -/
  costs : List Nat := []
  /-- effective slice raised; 1; 18 R370; 0 -/
  raised : Bool := false
  /-- vanished traps; count; 18 R361; 0 -/
  vanished : Nat := 0
  brks : Nat := 0
  stsLost : Nat := 0
  lapses : Nat := 0
  /-- PCONFIG waiting to be applied (R382): header, operands; —; 19 R382; none -/
  pending : List (Option CmdHdr × List W64) := []
  /-- the bank entries and chair positions of the oldest of them have been written; 1; 19 R382; 0 -/
  banksSet : Bool := false
  /-- left locked mode pending at its next operator boundary; 1; 20 R402; 0 -/
  unlock : Bool := false
  deriving DecidableEq, Repr

/-- A shared window (04 R100): members with their writing mark; granules in tree order. -/
structure Window where
  members : List (Nat × Bool) := []
  granules : List Nat := []
  key : Nat := 0
  deriving DecidableEq, Repr

/-- A peer aperture (20 R400). -/
structure Aperture where
  v : Bool := false
  pkg : BitVec 20 := 0
  frame : BitVec 14 := 0
  fns : BitVec 512 := 0
  deriving DecidableEq, Repr

/-- A reply or posted message on the owner's transport (20 R398). -/
structure Reply where
  dest : Master
  cmd : Nat
  tag : BitVec 16
  status : Nat
  name : String := ""
  payload : List W64 := []
  deriving DecidableEq, Repr

/-- A relay (13 R282 to R285): own index, chunk size, members, protected contexts, parity point, parity lines. -/
structure Relay where
  idx : Nat
  ch : Nat
  members : List Nat
  ctxs : List Nat
  rpp : Nat
  /-- the service granules in which its parity chunk stands, in order; CH × 2 MiB; 13 R282; none -/
  parGr : List Nat := []
  /-- a build in progress, with the command that its reply answers; —; 13 R283; none -/
  building : Option CmdHdr := none
  /-- the build is this package's, as the replacement of a lost member; 1; 13 R285; 0 -/
  rebuild : Bool := false
  /-- deltas sent to the members and not yet decided: point, member, line of its parity chunk, delta; —; 13 R284; none -/
  sent : List (Nat × Nat × Nat × Line) := []
  deriving DecidableEq, Repr

/-- The record of a fault location (20 R392, R393): error times, counts, lasting mark. -/
structure LocRec where
  loc : Loc
  times : List Nat := []
  corrected : Nat := 0
  uncorrected : Nat := 0
  phases : Nat := 0
  sigs : Nat := 0
  lasting : Bool := false
  deriving DecidableEq, Repr

/-- A collective that has started on this package (06 R138). -/
structure CollRun where
  domain : Nat
  collid : Nat
  die : Nat
  ctx : Nat
  num : Nat
  /-- descriptor as it was read at the start; 512; 06 R137; 0 -/
  desc : BitVec 512 := 0
  /-- bytes of SEND read so far, and the number of bytes of RECV written so far; —; 06 R139, R140; none, 0 -/
  own : List Byte := []
  wrote : Nat := 0
  /-- tag of what it sends and receives over the rings; —; 06 R125; 0 -/
  tag : Nat := 0
  deriving DecidableEq, Repr

/-- A leg of a ride: die, chair table (0 CW, 1 CCW, 2 and up the bridges' directions), stations, the lift cycles between its unloading and the
next leg, and the bank that it ends at (05 R111 to R115). -/
structure Leg where
  die : Nat
  table : Nat
  from_ : Nat
  to_ : Nat
  after : Nat
  bank : Option Nat := none
  deriving DecidableEq, Repr

/-- What a request on the lift ring is for: data that something waits for by its number; a drained line's bytes and their acknowledgement (07 R149); the
request of an operation that is performed at a home bank (11 R234, 12 R248); the lines of a Burhus load; a prefetch, for which nothing waits. -/
inductive RideKind
  | data | drain | op | load | hint
  deriving DecidableEq, Repr

/-- A request on the lift ring, or its data on the way back (05 R112): the result that waits for it, or the event that its arrival is; the
partition whose chairs it takes (none: the Fjoset cores' own traffic); the core; the legs left; and the lift cycle from which it is ready at
its station, or at which its chair is unloaded. -/
structure Rider where
  tag : Nat
  kind : RideKind := .data
  goal : Option Instr := none
  part : Option Nat
  core : Nat
  legs : List Leg
  at_ : Nat
  moving : Bool := false
  /-- bytes of data in its chair; up to 256; 05 R112; 0 -/
  bytes : Nat := 0
  deriving DecidableEq, Repr

/-- An outstanding report of the error policy or of a service to the owner (19 R387), by the name the spec gives it. -/
structure Report where
  what : String
  fn : Option Nat
  addr : Nat
  /-- the context that the report names, where it names one (04 R91) -/
  asid : Option Nat := none
  deriving DecidableEq, Repr

/-- Everything held outside the cores and memory (service die, L2, HBM controllers). -/
structure Pkg where
  /-- L2 lines by line address; 256 × 8 × 128 × 16; 05 R106; none -/
  l2 : SMap L2Line := []
  /-- merge queues of the home banks, by bank, oldest first; —; 05 R106; empty -/
  mergeQ : SMap (List MergeReq) := []
  /-- L2 bank configuration entries; 2,048 × 32; 05 R104; 0 -/
  banks : SMap BankEntry := []
  /-- bank changes held until an operator boundary (bank, entry); —; 05 R107; none -/
  bankHeld : List (Nat × BankEntry) := []
  /-- staging bytes by bank × 196608 + offset; 2,048 × 192 KiB; 05 R108; 0 -/
  staging : SMap Byte := []
  /-- owned entries of the chair tables in force, by (die × 10 + table) × 2048 + position; 1 byte each; 05 R112, R113; none. Where
  a die's tables are in force, an unlisted position from 2,016 up is service and any other is open (log 13) -/
  chairs : SMap Byte := []
  /-- dies whose tables are in force: elsewhere every entry holds KIND 2; 4; 05 R113; none -/
  chairDies : List Nat := []
  /-- entries written, to take effect at the next frame origin of their die, and dies whose tables come into force there; as chairs;
  05 R113; none -/
  chairsNext : SMap Byte := []
  chairDiesNext : List Nat := []
  /-- frame origin of each die, in lift cycles; —; 05 R112; 0 -/
  frame : SMap Nat := []
  /-- round-robin pointers of the stations: the partition that loaded an open position last, plus 1, by (die × 10 + table) × 40 + station;
  7; 05 R112; 0 -/
  rr : SMap Nat := []
  /-- requests on the rings, and the number of the next; —; 05 R112; none -/
  riders : List Rider := []
  /-- launches one of whose released stores has failed on a core that its group has left, with the address; —; 11 R230; none -/
  linkBad : List (Nat × Nat) := []
  nextTag : Nat := 1
  /-- chairs that are loaded: die × 10 + table, chair, the stations between which it is; 256 bytes each; 05 R112; none -/
  loads : List (Nat × Nat × Nat × Nat) := []
  /-- region TLBs by region, newest first in a set; 64 × 512 sets × 8 ways; 04 R84; empty -/
  rtlb : SMap (List TlbEntry) := []
  /-- walk caches by region, page-table lines with their bytes, newest first; 64 × 64 KiB; 04 R85; empty -/
  walk : SMap (List WalkLine) := []
  /-- pending keys by region, newest first; 64 at a time; 04 R84; none -/
  walkKeys : SMap (List WalkKey) := []
  /-- gondolas by die, newest line of a set first; 4 × 4 MiB, 16-way; 03 R67; empty -/
  gondola : SMap (List GLine) := []
  /-- granule owner table; 486,528 × 16; 04 R73; free, the translation cache's granules the service's (04 R71; log 81) -/
  owners : SMap (BitVec 16) := []
  /-- counter blocks in force, by chunk; 04 R93; 0 -/
  ctr : SMap CtrBlock := []
  /-- counter blocks durable in HBM4; 04 R262; 0 -/
  ctrDur : SMap CtrBlock := []
  /-- highest major counter that a chunk has used under an earlier key; 64; 04 R74; 0 -/
  ctrTop : SMap Nat := []
  /-- metadata caches by stack: counter blocks (as empty nodes) and tree nodes held verified; 16 × 1 MiB of 64 bytes; 04 R97; empty -/
  metaCache : SMap (SMap TreeNode) := []
  /-- chunks whose metadata is dirty in a metadata cache; 16 × 1 MiB; 04 R97; none -/
  metaDirty : List Nat := []
  /-- metadata logs: groups written and not yet in place, oldest first; 16 × 256 KiB; 13 R262; empty -/
  metaLog : List MetaGroup := []
  /-- bytes written to the metadata log of each stack; —; 13 R262; 0 -/
  metaHead : SMap Nat := []
  /-- counter-tree nodes by owner × 2^40 + level × 2^36 + index; 04 R96; 0 -/
  tree : SMap TreeNode := []
  /-- roots by owner code; 8 × 56; 04 R96; 0 -/
  roots : SMap TreeNode := []
  /-- counters and poison of the lines in HBM4, by line address; 04 R94, R101; 0 -/
  meta_ : SMap LineMeta := []
  /-- owners' granules in assignment order, a released one's place held by 2^19; 04 R96; none -/
  treeOrder : SMap (List Nat) := []
  /-- granules that a failed node of their owner's tree covers, until RESTORE or DISCARD; 04 R102; none -/
  treeBad : List Nat := []
  /-- engine contexts by (asid × 2 + class) × 4 + die; 06 R117; empty -/
  eng : SMap EngCtx := []
  /-- running engines by (die × 2 + class) × 16 + engine; 06 R117; idle -/
  runs : SMap EngRun := []
  /-- round-robin pointer of each die's arbiter; 06 R124; 0 -/
  arb : SMap Nat := []
  colls : List CollRun := []
  /-- contexts by ASID; 4,096; 04 R76; not live -/
  ctxs : SMap Ctx := []
  /-- functions; 512; 19 R384; record resets -/
  fns : SMap Fn := []
  /-- partitions; 64; 19 R380; record resets -/
  parts : SMap Part := []
  /-- shared windows; 255; 04 R100; none -/
  wins : SMap Window := []
  /-- peer apertures; 4,096; 20 R400; V = 0 -/
  aps : SMap Aperture := []
  /-- kernels admitted; 02 R39; none -/
  kernels : List Kernel := []
  /-- translations by number; 4 GiB cache; 17 R340; none -/
  trans : SMap Trans := []
  /-- code-window entries that the Fjoset cores have written: place of the entry, 64 KiB unit of its frame; —; 04 R81; none -/
  codePtes : List (Nat × Nat) := []
  /-- launches by number; 15 R309; none -/
  launches : SMap Launch := []
  nextLaunch : Nat := 0
  nextTrans : Nat := 0
  /-- trust list, public keys; 4,096; 17 R350; empty -/
  trust : List (List Byte) := []
  /-- relays by identifier; 13 R282; none -/
  relays : SMap Relay := []
  deriving DecidableEq, Repr

/-- The service die's own registers: boot, owner, clocks, flash, host transport. -/
structure Svc where
  /-- booted; 1; 20 R394; 0 -/
  booted : Bool := false
  /-- both firmware slots failed; only IDENTIFY and FWUPDATE over MCTP are answered; 1; 20 R394; 0 -/
  dead : Bool := false
  /-- time of boot, from which TIM counts, lift cycles; 15 R324; 0 -/
  bootAt : Nat := 0
  /-- firmware slots in package flash; 2 images; 20 R394; DESIGN CHOICE empty (log 6) -/
  fw0 : List Byte := []
  fw1 : List Byte := []
  /-- default configuration in package flash, as operands of PCONFIG and of FCONFIG; —; 19 R378; DESIGN CHOICE none (log 6) -/
  flashParts : List (List W64) := []
  flashFns : List (List W64) := []
  /-- running slot, measurement, security version, TVER; 1, 512, 16, 16; 20 R394, R395; DESIGN CHOICE 0 (log 6) -/
  slot : Nat := 0
  measure : List Byte := []
  secVer : BitVec 16 := 0
  tver : BitVec 16 := 0
  /-- identity key generated; 1; 20 R395; 0 -/
  idKey : Bool := false
  /-- lift cycle until which each Fjoset pair translates, by pair; 32 pairs; 01 R8, R10, 17 R343; free -/
  pairs : SMap Nat := []
  /-- draws taken from the CTR_DRBG; count; 04 R92; 0 -/
  draws : Nat := 0
  /-- draw that is the service's key, of slot 1,023; 256-bit key; 04 R92; none -/
  svcKey : Nat := 0
  /-- claim window open until, and claims waiting; lift cycles; 19 R378; none -/
  window : Option Nat := none
  claims : List (Master × BitVec 16) := []
  /-- owner and time of its last command; 19 R378; none -/
  owner : Option Master := none
  heard : Nat := 0
  /-- HANDOVER waiting for ACCEPT: target, header, time; 19 R379; none -/
  handover : Option (Master × CmdHdr × Nat) := none
  /-- requests of the owner that wait in the owner mailbox, oldest first; —; 19 R379; none -/
  inbox : List (Master × List Byte) := []
  /-- replies and posted messages, oldest first; 20 R398; none -/
  out : List Reply := []
  /-- owner mailbox reply area and READY; 32 KiB and 1; 20 R396; 0 -/
  mbox : List Byte := []
  ready : Bool := false
  /-- package identifier; 20; 20 R400; 0 -/
  pkgId : BitVec 20 := 0
  /-- package power cap in W; 13; 20 R401; DESIGN CHOICE 4,500 (log 6) -/
  cap : Nat := 4500
  /-- frequency of the unlocked core islands in MHz, and power last measured in W; 20 R401; 800, 0 -/
  mhz : Nat := 800
  watts : Nat := 0
  /-- cooling certified; 1; 20 R402; 0 -/
  certified : Bool := false
  lapsedAt : Option Nat := none
  /-- fault locations, and the copies in package flash; 20 R392, R393; none -/
  locs : List LocRec := []
  flash : List LocRec := []
  flashAt : Nat := 0
  /-- histograms of temperature (5 °C) and power (50 W) by bin; counts; 20 R393; 0 -/
  tempHist : SMap Nat := []
  powerHist : SMap Nat := []
  /-- their copies in package flash; as those; 20 R393; 0 -/
  flashTemp : SMap Nat := []
  flashPower : SMap Nat := []
  /-- retired granules; 20 R392; none -/
  retired : List Nat := []
  /-- fabric ports down; 16; 20 R400; none -/
  down : List Nat := []
  /-- reports of the error policy, oldest first; 19 R387; none -/
  reports : List Report := []
  /-- rings and dies fenced; 20 R392; none -/
  fencedLocs : List Loc := []
  deriving DecidableEq, Repr

/-- The machine's state. -/
structure State where
  /-- time in lift cycles; —; 00 R6; 0 -/
  now : Nat := 0
  /-- events to come with their lift cycle, in order: the model's own field (log 1), which agent moves next -/
  agenda : List (Nat × Instr) := []
  /-- counter for values the spec leaves open: the model's own field (log 5); DESIGN CHOICE 0 -/
  free : Nat := 0
  /-- core whose crew an operation acts on: the model's own field (log 1); DESIGN CHOICE 0 -/
  focus : Nat := 0
  /-- bytes of HBM4, host memory and peer apertures; 2^52; 04 R70; 0 (HBM4 04 R74; host and peer log 4) -/
  mem : Memory := []
  /-- the 512 cores; 01 R8; as Core -/
  cores : SMap Core := []
  /-- L2, controllers, engines and tables; as Pkg -/
  pkg : Pkg := {}
  /-- the service die; as Svc -/
  svc : Svc := {}
  deriving DecidableEq, Repr

/-- The machine right after reset: unpowered state gone, nothing booted (01 R18, 20 R394); every register at the value
its field's docstring gives. The log entries 4, 5 and 6 name the values that the spec does not state. -/
def State.reset : State := {}

end Sys2Proof.Machine
end

