-- ==== Sys2Proof/Machine/Sparse.lean ====
section
/-!
DEFINITION. Operations on sparse tables: read with a default, write keeping keys rising and the default unlisted, and the
predicate that a table is in that form.
-/
namespace Sys2Proof.Machine

/-- Reads key `k`; an unlisted key holds `d`. -/
def SMap.get {α : Type} (d : α) : SMap α → Nat → α
  | [], _ => d
  | (j, v) :: m, k => if j = k then v else SMap.get d m k

/-- Inserts or replaces an entry, whatever its value. -/
def SMap.put {α : Type} : SMap α → Nat → α → SMap α
  | [], k, v => [(k, v)]
  | (j, u) :: m, k, v =>
    if k < j then (k, v) :: (j, u) :: m else if k = j then (k, v) :: m else (j, u) :: SMap.put m k v

/-- Removes an entry. -/
def SMap.del {α : Type} (m : SMap α) (k : Nat) : SMap α := m.filter fun e => e.1 ≠ k

/-- Writes `v` at key `k`; a value equal to the default `d` removes the entry. -/
def SMap.set {α : Type} [DecidableEq α] (d : α) (m : SMap α) (k : Nat) (v : α) : SMap α :=
  if v = d then m.del k else m.put k v

/-- Keys strictly rising, the first above `lo`, and no entry equal to `d`. -/
def SMap.wfFrom {α : Type} [DecidableEq α] (d : α) : Nat → SMap α → Bool
  | _, [] => true
  | lo, (j, v) :: m => decide (lo ≤ j) && !decide (v = d) && SMap.wfFrom d (j + 1) m

/-- The canonical form of a table with default `d`. -/
def SMap.wf {α : Type} [DecidableEq α] (d : α) (m : SMap α) : Bool := SMap.wfFrom d 0 m

/-- The canonical form of memory: addresses strictly rising and no entry equal to 0, which an unlisted address reads as. -/
def Memory.wf (m : Memory) : Bool := SMap.wf 0 m

/-- Reads an optional entry. -/
def SMap.find? {α : Type} : SMap α → Nat → Option α
  | [], _ => none
  | (j, v) :: m, k => if j = k then some v else SMap.find? m k

/-- Writes consecutive values from key `k` upward. -/
def SMap.setList {α : Type} [DecidableEq α] (d : α) : SMap α → Nat → List α → SMap α
  | m, _, [] => m
  | m, k, v :: vs => SMap.setList d (SMap.set d m k v) (k + 1) vs

/-- Reads `n` consecutive values from key `k` upward. -/
def SMap.getList {α : Type} (d : α) (m : SMap α) (k : Nat) : Nat → List α
  | 0 => []
  | n + 1 => SMap.get d m k :: SMap.getList d m (k + 1) n

end Sys2Proof.Machine
end

