-- ==== Sys2Proof/Machine/Ops.lean ====
section
/-!
DEFINITION. The named operations that the meanings share: the current core, its group and running crew; register reads
and writes; results that land (spec/03_fjoset_bundles.md R50); latching a fault (R59, spec/18 R355); and advancing a
Burhus crew past an instruction.
-/
namespace Sys2Proof.Machine

/-- The present core cycle: two lift cycles each (00 R6). -/
def State.cycle (s : State) : Nat := s.now / 2

/-- Bit `i` of the open values that are next in turn, and `n` of them drawn (log 5). -/
def State.freeBit (s : State) (i : Nat) : Bool := (Config.freeValue (s.free + i / 64)).getLsbD (i % 64)
def State.draw (n : Nat) (s : State) : State := { s with free := s.free + n }

/-- Core `k`. -/
def State.core (s : State) (k : Nat) : Core := s.cores.get {} k

/-- Replaces core `k`. -/
def State.setCore (s : State) (k : Nat) (c : Core) : State := { s with cores := s.cores.set {} k c }

/-- Applies `f` to core `k`. -/
def State.modCore (s : State) (k : Nat) (f : Core → Core) : State := s.setCore k (f (s.core k))

/-- The group on core `k`. -/
def State.group (s : State) (k : Nat) : Option Group := (s.core k).group

/-- Replaces the group on core `k`. -/
def State.setGroup (s : State) (k : Nat) (g : Group) : State := s.modCore k fun c => { c with group := some g }

/-- Applies `f` to the group on core `k`, if there is one. -/
def State.modGroup (s : State) (k : Nat) (f : Group → Group) : State :=
  match s.group k with
  | some g => s.setGroup k (f g)
  | none => s

/-- The running crew of core `k` with its group. -/
def State.crew (s : State) (k : Nat) : Option (Group × Crew) :=
  match s.group k with
  | some g => g.running.map fun c => (g, c)
  | none => none

/-- Applies `f` to the running crew of core `k`, if there is one. -/
def State.modCrew (s : State) (k : Nat) (f : Crew → Crew) : State :=
  s.modGroup k fun g => { g with running := g.running.map f }

/-- Applies `f` to the open region of the running crew of core `k`. -/
def State.modRegion (s : State) (k : Nat) (f : Region → Region) : State :=
  s.modCrew k fun c => { c with region := f c.region }

/-- Every crew of a group with an open region. -/
def Group.crews (g : Group) : List Crew :=
  let rs := fun (f : Frontier) => f.ready.map Ready.crew
  g.running.toList ++ g.blocked.map Prod.fst ++ rs g.frontier ++
  (match g.nested with | some n => rs n.frontier | none => [])

/-- Applies `f` to the crew of core `k` that holds issue context `ctx` with an open region: the running crew, a blocked one
or a resumption. -/
def State.modCtxCrew (s : State) (k ctx : Nat) (f : Crew → Crew) : State :=
  s.modGroup k fun g =>
    let h := fun (c : Crew) => if c.ctx = ctx then f c else c
    let fr := fun (x : Frontier) => { x with ready := x.ready.map fun r => if r.whole then r else { r with crew := h r.crew } }
    { g with
      running := g.running.map h
      blocked := g.blocked.map fun b => (h b.1, b.2)
      frontier := fr g.frontier
      nested := g.nested.map fun n => { n with frontier := fr n.frontier } }

/-- The crew of core `k` that holds issue context `ctx` with an open region. -/
def State.ctxCrew (s : State) (k ctx : Nat) : Option Crew :=
  let fr := fun (x : Frontier) => (x.ready.filter fun r => !r.whole).map Ready.crew
  (s.group k).bind fun g =>
    (g.running.toList ++ g.blocked.map Prod.fst ++ fr g.frontier ++ (match g.nested with | some n => fr n.frontier | none => [])).find? fun c => c.ctx = ctx

/-- Puts an event on the agenda, after those of the same or an earlier time. -/
def insertEvent (t : Nat) (i : Instr) : List (Nat × Instr) → List (Nat × Instr)
  | [] => [(t, i)]
  | (u, j) :: r => if t < u then (t, i) :: (u, j) :: r else (u, j) :: insertEvent t i r

/-- Schedules event `i` at lift cycle `t`. -/
def State.post (s : State) (t : Nat) (i : Instr) : State := { s with agenda := insertEvent t i s.agenda }

/-- Runs an update for each element of a list, in order. -/
def foldS {α : Type} (l : List α) (f : α → State → State) (s : State) : State := l.foldl (fun s a => f a s) s

/-! ## Registers of a crew (03 R55, 09 R174, 14 R286, R287) -/

/-- Key of a Burhus register of strand (slot, lane). -/
def xKey (slot lane n : Nat) : Nat := (slot * 64 + lane) * 2097152 + n
/-- Key of a vector register's lane. -/
def vKey (slot r lane : Nat) : Nat := (slot * 64 + r) * 64 + lane
/-- Key of a predicate register. -/
def pKey (slot r : Nat) : Nat := slot * 8 + r

/-- Issue context `k` of a group. -/
def Group.ctx (g : Group) (k : Nat) : IssueCtx := g.ctxs.get {} k
/-- Replaces issue context `k`. -/
def Group.setCtx (g : Group) (k : Nat) (c : IssueCtx) : Group := { g with ctxs := g.ctxs.set {} k c }

/-- s(r) of issue context `k`. -/
def Group.getS (g : Group) (k r : Nat) : W64 := (g.ctx k).s.get 0 r
/-- q(r). -/
def Group.getQ (g : Group) (k r : Nat) : Bool := (g.ctx k).q.getLsbD r
/-- a(r). -/
def Group.getA (g : Group) (k r : Nat) : BitVec 48 := (g.ctx k).a.get 0 r
/-- b(r). -/
def Group.getB (g : Group) (k r : Nat) : BitVec 32 := (g.ctx k).b.get 0 r
/-- v(r) of strand (slot, lane). -/
def Group.getV (g : Group) (slot r lane : Nat) : W32 := g.v.get 0 (vKey slot r lane)
/-- p(r) of strand (slot, lane). -/
def Group.getP (g : Group) (slot r lane : Nat) : Bool := (g.p.get 0 (pKey slot r)).getLsbD lane
/-- x(n) of strand (slot, lane). -/
def Group.getX (g : Group) (slot lane n : Nat) : W64 := g.x.get 0 (xKey slot lane n)
/-- c(n) of strand (slot, lane). -/
def Group.getC (g : Group) (slot lane n : Nat) : Bool := g.c.get false (xKey slot lane n)

/-- Sets bit `i` of a bit vector. -/
def setBit {w : Nat} (x : BitVec w) (i : Nat) (b : Bool) : BitVec w :=
  if b then x ||| (1#w <<< i) else x &&& ~~~(1#w <<< i)

/-- Writes one register; `ctx` is the issue context of the crew. The one place where register writes happen. -/
def Group.put (g : Group) (ctx : Nat) (cls : RegCls) (reg slot lane : Nat) (v : W64) : Group :=
  match cls with
  | .s => g.setCtx ctx { g.ctx ctx with s := (g.ctx ctx).s.set 0 reg v }
  | .q => g.setCtx ctx { g.ctx ctx with q := setBit (g.ctx ctx).q reg (v.getLsbD 0) }
  | .b => g.setCtx ctx { g.ctx ctx with b := (g.ctx ctx).b.set 0 reg (v.setWidth 32) }
  | .a => g.setCtx ctx { g.ctx ctx with a := (g.ctx ctx).a.set 0 reg (v.setWidth 48) }
  | .v => { g with v := g.v.set 0 (vKey slot reg lane) (v.setWidth 32) }
  | .p => { g with p := g.p.set 0 (pKey slot reg) (setBit (g.p.get 0 (pKey slot reg)) lane (v.getLsbD 0)) }
  | .x => { g with x := g.x.set 0 (xKey slot lane reg) v }
  | .c => { g with c := g.c.set false (xKey slot lane reg) (v.getLsbD 0) }

/-- The undo note of a Burhus register write. -/
def undoOf (g : Group) (cls : RegCls) (reg slot lane : Nat) : List BUndo :=
  match cls with
  | .x => [{ isC := false, key := xKey slot lane reg, old := g.getX slot lane reg }]
  | .c => [{ isC := true, key := xKey slot lane reg, old := (BitVec.ofBool (g.getC slot lane reg)).setWidth 64 }]
  | _ => []

/-- A register to be written: class, number, home slot, lane, value. -/
structure RegWr where
  cls : RegCls
  reg : Nat
  slot : Nat
  lane : Nat
  val : W64
  deriving DecidableEq, Repr

/-- Writes Burhus registers of the running crew of core `k` at once, keeping what a rollback restores (01 R13). -/
def putBur (k : Nat) (ws : List RegWr) (s : State) : State :=
  match s.crew k with
  | none => s
  | some (g, c) =>
    let g' := ws.foldl (fun g w => g.put c.ctx w.cls w.reg w.slot w.lane w.val) g
    let u := (ws.flatMap fun w => undoOf g w.cls w.reg w.slot w.lane).reverse
    s.setGroup k { g' with running := some { c with region := { c.region with undo := u ++ c.region.undo } } }

/-- Puts results in flight that land at core cycle `at_`, with deadline `dl` (03 R50). -/
def putLater (k at_ dl : Nat) (ws : List RegWr) (s : State) : State :=
  s.modCrew k fun c =>
    { c with inflight := c.inflight ++ ws.map fun w =>
        { at_ := at_, deadline := dl, cls := w.cls, reg := w.reg, slot := w.slot, lane := w.lane, val := w.val } }

/-- Memory results in flight (03 R50, R52): they land at `at_`, and hold the crew where that is past their deadline `dl`. Those of an LDC or LDS are
free: no acquire waits for them (12 R242). -/
def putMem (free : Bool) (k at_ dl : Nat) (ws : List RegWr) (s : State) : State :=
  s.modCrew k fun c =>
    { c with inflight := c.inflight ++ ws.map fun w =>
        { at_ := at_, deadline := dl, cls := w.cls, reg := w.reg, slot := w.slot, lane := w.lane, val := w.val, held := true, free := free } }

/-- The memory results that an acquire waits for. -/
def putHeld (k at_ dl : Nat) (ws : List RegWr) (s : State) : State := putMem false k at_ dl ws s

/-- A memory result of a crew is past its deadline in core cycle `t` (03 R52): an access or a command whose result has not arrived, or a
scratchpad load that its passes make late (07 R145). -/
def Crew.late (c : Crew) (t : Nat) : Bool :=
  c.mem.any (fun m => decide (m.deadline ≤ t)) || c.accepting.any (fun a => decide (a.deadline ≤ t)) ||
  c.inflight.any fun l => l.held && decide (l.deadline ≤ t) && decide (t < l.at_)

/-- Lands a crew's results due by core cycle `t` into its group (03 R50), in the order they were issued. DEDUCED (log 94): each lands at its own
time, so that of two writes to one register the one that lands last remains, even where it was issued first. -/
def landCrew (t : Nat) (g : Group) (c : Crew) : Group × Crew :=
  let due := c.inflight.filter fun l => l.at_ ≤ t
  (due.foldl (fun g l => g.put c.ctx l.cls l.reg l.slot l.lane l.val) g,
   { c with inflight := c.inflight.filter fun l => t < l.at_ })

/-- Lands the due results of the running crew of core `k`. -/
def landDue (k t : Nat) (s : State) : State :=
  match s.crew k with
  | none => s
  | some (g, c) => let (g', c') := landCrew t g c; s.setGroup k { g' with running := some c' }

/-! ## Faults -/

/-- Latches a fault in the running crew's region; only the first of a region is kept (03 R59). -/
def latch (k : Nat) (f : FaultRec) (s : State) : State :=
  s.modCrew k fun c =>
    { c with region := { c.region with
        latched := match c.region.latched with
          | some g => some g
          | none => some { f with bidx := c.pc, boff := c.pc, seg := c.seg } } }

/-- A fault kind in given lanes, with no latch when no lane faults. -/
def latchLanes (k : Nat) (kind : Trap) (lanes : List (Nat × Nat)) (acc : Acc) (s : State) : State :=
  if lanes = [] then s else latch k { kind := kind, lanes := lanes, acc := acc } s

/-- Moves a Burhus crew past an instruction of `n` bytes; lanes that were to skip it have done so (18 R363). -/
def advance (k n : Nat) (s : State) : State := s.modCrew k fun c => { c with pc := c.pc + n, skip := [] }

/-- The length of a Burhus instruction. -/
def lenB (op : Nat) (f : BIns) : Nat := (encodeBIns op f).length

/-! ## Taking a trap and returning from it (18 R356 to R364) -/

/-- The code of a trap kind (Table 18.1); BRK has none. -/
def trapCode : Trap → Nat
  | .none_ => 0 | .illOpcode => 1 | .malformed => 2 | .badTarget => 3 | .badSuccessor => 4 | .hazard => 5
  | .regionOverrun => 6 | .addrUnmapped => 7 | .addrProt => 8 | .addrAlign => 9 | .integFail => 10 | .uncorrData => 11
  | .localBad => 12 | .stageBad => 13 | .fifoBad => 14 | .bankBad => 15 | .engineBad => 16 | .tlBad => 17
  | .engineFault => 18 | .partialMask => 19 | .mxBad => 20 | .fmtBad => 21 | .fmtDiverge => 22 | .syncBad => 23
  | .atomBad => 24 | .linkFail => 25 | .flagBad => 26 | .flagOvf => 27 | .logFull => 28 | .trapOp => 29
  | .handlerFault => 30 | .contained => 31 | .descBad => 32 | .collMismatch => 33 | .collAbort => 34 | .brk => 0

/-- Where a delivered fault goes (R358). -/
inductive Route where
  | handler | service | debugger | kill
  deriving DecidableEq, Repr

/-- The route of a latched fault (Table 18.1); a code of 256 marks one whose rule kills the kernel. -/
def routeOf (f : FaultRec) : Route :=
  if f.code = 256 then .kill
  else match f.kind with
    | .addrUnmapped => .service
    | .hazard | .brk => .debugger
    | .badTarget | .regionOverrun | .integFail | .uncorrData | .engineFault | .flagOvf | .logFull | .handlerFault
    | .contained => .kill
    | _ => .handler

/-- The trap word (Table 18.2): of Burhus code by segment and byte offset, of a native-only kernel by the bundle of the
commit point that opened the region. -/
def trapWord (fjoset : Bool) (open_ : Nat) (f : FaultRec) : W64 :=
  if fjoset then BitVec.ofNat 64 (fld 23 0 open_ * 2 ^ 40 + fld 39 16 open_ * 2 ^ 16 + f.code % 256 * 2 ^ 8 + trapCode f.kind)
  else BitVec.ofNat 64 (f.boff % 2 ^ 24 * 2 ^ 40 + f.seg % 2 ^ 24 * 2 ^ 16 + f.code % 256 * 2 ^ 8 + trapCode f.kind)

/-- The faulting address of a lane, or 0 (FINFO). -/
def FaultRec.addrOf (f : FaultRec) (lane : Nat) : Nat := match f.lanes.find? fun l => l.1 = lane with | some l => l.2 | none => 0

/-- Where a handler starts: entry number, priority, place of its first instruction. -/
structure Entry where
  seg : Nat
  prio : Nat
  pc : Nat
  deriving DecidableEq, Repr

/-- Strands enter the trap handler (R360, R362): the trapped ones form the one whole entry of the group's nested frontier,
with FINFO in x2,097,150 and the trap word in x2,097,151, and the rest of the crew waits outside every frontier. -/
def enterHandler (h : Entry) (c : Crew) (f : FaultRec) (now : Nat) (g : Group) : Group :=
  let isT := fun (l : Nat × Nat) => f.lanes.any fun x => x.1 = l.1
  let ts := c.strands.filter isT
  let w := trapWord c.fjoset c.region.openBidx f
  let g := ts.foldl (fun g l =>
    (g.put c.ctx .x 2097150 l.2 l.1 (BitVec.ofNat 64 (f.addrOf l.1))).put c.ctx .x 2097151 l.2 l.1 w) g
  let hc : Crew := {
    strands := ts, ctx := c.ctx, intact := false, seg := h.seg, prio := h.prio, pc := h.pc, tr := c.tr, handler := true
    fjoset := c.fjoset, region := { entry := h.pc, seg := h.seg } }
  { g with nested := some {
      held := { c with strands := c.strands.filter (fun l => !isT l), delivered := none }
      fault := f
      frontier := { ready := [{ crew := hc, whole := true, since := now }] } } }

/-- Inserts a strand in lane order. -/
def laneInsert (l : Nat × Nat) : List (Nat × Nat) → List (Nat × Nat)
  | [] => [l]
  | x :: r => if l.1 < x.1 then l :: x :: r else x :: laneInsert l r

/-- Strands in lane order. -/
def laneSort (ls : List (Nat × Nat)) : List (Nat × Nat) := ls.foldr laneInsert []

/-- The crew that resumes once every handler strand has returned or ended (R363, R364): the strands that did not trap, which
execute I, with the returned ones, which skip it; a native-only crew resumes whole at the region's entry. -/
def afterHandler (n : Nested) : Crew :=
  let sk := if n.held.fjoset then [] else n.held.skip ++ n.returned.map Prod.fst
  { n.held with
    strands := laneSort (n.held.strands ++ n.returned)
    skip := sk
    region := { n.held.region with entry := n.held.pc, seg := n.held.seg, skip0 := sk } }

/-! ## Executing lanes (02 R23, 03 R46, 09 R191) -/

/-- The home slot whose registers a lane names: its strand's, or the crew's first strand's where the lane holds none. -/
def laneSlot (c : Crew) (lane : Nat) : Nat :=
  match c.strands.find? fun l => l.1 = lane with
  | some l => l.2
  | none => (c.strands.headD (0, c.ctx)).2

/-- The lanes of a crew's predicate registers, with their home slots: every lane but one that holds no strand of the crew and whose register
belongs to a live strand elsewhere (09 R192, 14 R287). -/
def ownLanes (g : Group) (c : Crew) : List (Nat × Nat) :=
  ((List.range 64).map fun i => (i, laneSlot c i)).filter fun l => c.strands.any (fun x => x.1 = l.1) || !g.live.contains (l.2 * 64 + l.1)

/-- The lanes that a ballot of a crew writes: its own, and in a handler those of the crew that it serves, which hold its registers (09 R192). -/
def ballotLanes (g : Group) (c : Crew) : List (Nat × Nat) :=
  let held := match g.nested with | some n => if c.handler then n.held.strands else [] | none => []
  ((List.range 64).map fun i => (i, laneSlot c i)).filter fun l => (ownLanes g c).contains l || held.contains l

/-- The strands of a crew that execute a Burhus instruction with guard prefix `g`; lanes are 0 to 63 (09 R191). -/
def burLanes (g : Group) (c : Crew) (gd : Option Nat) : List (Nat × Nat) :=
  c.strands.filter fun (lane, slot) =>
    decide (lane < 64) && !c.skip.contains lane &&
    match gd with
    | none => true
    | some n => g.getC slot lane (n / 2) != decide (n % 2 = 1)

/-- The strands of a crew that execute a lane-wise slot guarded by p(gp). -/
def vecLanes (g : Group) (c : Crew) (gp : Nat) (ge gn : Bool) : List (Nat × Nat) :=
  c.strands.filter fun (lane, slot) => decide (lane < 64) && (!ge || (g.getP slot gp lane != gn))

/-- A whole-slot q guard holds. -/
def qGuard (g : Group) (c : Crew) (gq : Nat) (ge gn : Bool) : Bool := !ge || (g.getQ c.ctx gq != gn)

end Sys2Proof.Machine
end

