-- ==== Sys2Proof/Machine/Flags.lean ====
section
/-!
DEFINITION. The sticky flags (spec/08_number_formats.md R163; spec/15_execution_model_launch.md R323): how a crew's region
raises them, how a pending CSRW of FPF takes them up, and what the commit point makes of FPF.
-/
namespace Sys2Proof.Machine

/-- A lane's result: its strand, the value and the sticky flags. -/
abbrev LaneRes := (Nat × Nat) × Nat × BitVec 5

/-- The OR of the lanes' flags: every executing lane raises its own. -/
def orFlags (rs : List LaneRes) : BitVec 5 := rs.foldl (fun a r => a ||| r.2.2) 0

/-- A region with flags raised: after a CSRW of FPF they also join its value. -/
def Region.raise (r : Region) (fl : BitVec 5) : Region :=
  { r with raised := r.raised ||| fl, fpfWrite := r.fpfWrite.map (· ||| fl) }

/-- Raises sticky flags in the running crew's region. -/
def raiseFlags (k : Nat) (fl : BitVec 5) (s : State) : State := s.modRegion k fun r => r.raise fl

/-- FPF after the region commits: the value of its CSRW with the flags raised since, or the flags raised added. -/
def Region.fpfAfter (r : Region) (old : BitVec 5) : BitVec 5 :=
  match r.fpfWrite with
  | some v => v
  | none => old ||| r.raised

/-- FPF as the crew's own CSRR reads it within the region. -/
def Region.fpfSeen (r : Region) (old : BitVec 5) : BitVec 5 := r.fpfAfter old

end Sys2Proof.Machine
end

