-- ==== Sys2Proof/Machine/Operands.lean ====
section
/-!
DEFINITION. Operand forms of the arithmetic operations (spec/09_scalar_vector_operations.md Tables 9.1, 9.2, R178): what
each form reads, the lanes it executes in, and where its result goes.
-/
namespace Sys2Proof.Machine

/-- Control fields of an arithmetic form: type, rounding, saturation, condition, subop, source type, byte operands. -/
structure Ctl where
  ty : Nat
  rnd : Nat
  sat : Bool
  cond : Nat
  sub : Nat
  src : Nat
  n1 : Nat
  n2 : Nat
  deriving DecidableEq, Repr

/-- The control fields of a form; `op` is its opcode (UNPACK keeps its source type elsewhere, BFX and BFI their bounds
in IMX: 09 R177, 03 R47). -/
def ctlOf (op : Nat) : Form → Ctl
  | .bur f =>
    let m := f.m1.toNat
    { ty := m % 16, rnd := fld 5 4 m, sat := bitOf 7 m, cond := fld 6 4 m, sub := m / 16, src := f.m2.toNat % 16,
      n1 := f.n1, n2 := f.n2 }
  | .s f =>
    { ty := f.ty.toNat, rnd := f.rnd.toNat, sat := f.sat, cond := f.sub.toNat, sub := f.sub.toNat, src := f.sub.toNat,
      n1 := if op = 0x1B then f.sub.toNat else fld 5 0 f.imx.toNat, n2 := fld 13 8 f.imx.toNat + 1 }
  | .v f =>
    { ty := f.ty.toNat, rnd := f.rnd.toNat, sat := f.sat, cond := f.sub.toNat, sub := f.sub.toNat,
      src := if op = 0x3A then f.vb.toNat else f.sub.toNat,
      n1 := if op = 0x3A then f.sub.toNat else fld 5 0 f.imx.toNat, n2 := fld 13 8 f.imx.toNat + 1 }
  | .l f =>
    { ty := f.ty.toNat, rnd := 0, sat := false, cond := 0, sub := 0, src := 0, n1 := 0, n2 := 0 }

/-- The source values of one lane and its selector bit. -/
structure Srcs where
  a : Nat
  b : Nat
  c : Nat
  k : Bool
  deriving DecidableEq, Repr

/-- An immediate taken modulo 2^64 with its sign (R178). -/
def immVal (i : Int) : Nat := wrapI 64 i

/-- IMX sign-extended (R178). -/
def imxVal (x : BitVec 32) : Nat := (x.signExtend 64).toNat

/-- Operand B of a V slot: a vector lane, IMX, or the broadcast scalar's low 32 bits (03 R54). -/
def vOperandB (g : Group) (c : Crew) (f : VSlot) (slot lane : Nat) : Nat :=
  if f.bb then (g.getS c.ctx f.bcs.toNat).toNat % 2 ^ 32
  else if f.im then imxVal f.imx
  else (g.getV slot f.vb.toNat lane).toNat

/-- The sources of a Burhus instruction in a strand. BFI's inserted value is xb, its third source in the slots; MOVI and
the immediate page take the immediate as their last register source. -/
def burSrcs (op : Nat) (g : Group) (f : BIns) (slot lane : Nat) : Srcs :=
  { a := if op = 0x1A then 0 else (g.getX slot lane f.a).toNat
    b := if f.immPage ∨ op = 0x1A then immVal f.i else (g.getX slot lane f.b).toNat
    c := if op = 0x16 then (g.getX slot lane f.b).toNat else (g.getX slot lane f.c).toNat
    k := g.getC slot lane f.c }

/-- The sources of an S slot. -/
def sSrcs (g : Group) (c : Crew) (f : SSlot) : Srcs :=
  { a := (g.getS c.ctx f.sa.toNat).toNat
    b := if f.im then imxVal f.imx else (g.getS c.ctx f.sb.toNat).toNat
    c := (g.getS c.ctx f.sc.toNat).toNat
    k := g.getQ c.ctx (f.sc.toNat % 4) }

/-- The sources of a V slot in a lane. -/
def vSrcs (g : Group) (c : Crew) (f : VSlot) (slot lane : Nat) : Srcs :=
  { a := (g.getV slot f.va.toNat lane).toNat
    b := vOperandB g c f slot lane
    c := (g.getV slot f.vc.toNat lane).toNat
    k := g.getP slot (f.vc.toNat % 8) lane }

/-- Least bounds of the S slot (03 Table 3.12). -/
def leastS (op : Nat) : Nat :=
  if 2 ≤ op ∧ op ≤ 4 then 3 else if op ≤ 0x1B then 1 else 4

/-- Least bounds of the V slot (03 Table 3.12). -/
def leastV (op : Nat) : Nat :=
  if 2 ≤ op ∧ op ≤ 4 then 4
  else if op ≤ 0x1A then 2
  else if 0x27 ≤ op ∧ op ≤ 0x2B then 12
  else if op = 0x40 ∨ op = 0x41 then 6
  else if op = 0x42 then 14
  else 4

/-- An arithmetic meaning: from control fields and sources to a value and sticky flags. -/
abbrev Eval := Ctl → Srcs → Nat × BitVec 5

/-- The register writes of lanes' results. -/
def laneWrites (cls : RegCls) (reg : Nat) (rs : List LaneRes) : List RegWr :=
  rs.map fun r => { cls := cls, reg := reg, slot := r.1.2, lane := r.1.1, val := BitVec.ofNat 64 r.2.1 }

/-- Writes the results of a Burhus instruction, raises their flags and moves past it (09 R174, 08 R163). -/
def burFinish (op : Nat) (cls : RegCls) (b : BIns) (rs : List LaneRes) (s : State) : State :=
  advance s.focus (lenB op b) (raiseFlags s.focus (orFlags rs) (putBur s.focus (laneWrites cls b.d rs) s))

/-- Puts the results of a V slot in flight with its least bound (03 R50). -/
def vFinish (op : Nat) (cls : RegCls) (d : VSlot) (rs : List LaneRes) (s : State) : State :=
  raiseFlags s.focus (orFlags rs)
    (putLater s.focus (s.cycle + leastV op) (s.cycle + d.lat.toNat + 1) (laneWrites cls d.vd.toNat rs) s)

/-- Runs an arithmetic operation in the running crew of the focus core: every source is read before any destination is
written (09 R174); `cond` says that the destination is a condition register, q or p. A Burhus result is written at once
and the crew advances; a slot's result lands at its least bound (03 R50). -/
def aluExec (op : Nat) (cond : Bool) (ev : Eval) (f : Form) (s : State) : State :=
  match s.crew s.focus with
  | none => s
  | some (g, c) =>
    let ctl := ctlOf op f
    match f with
    | .bur b =>
      burFinish op (if cond then .c else .x) b
        ((burLanes g c b.guard).map fun l => (l, ev ctl (burSrcs op g b l.2 l.1))) s
    | .s d =>
      if qGuard g c d.gq.toNat d.ge d.gn then
        let (v, fl) := ev ctl (sSrcs g c d)
        raiseFlags s.focus fl (putLater s.focus (s.cycle + leastS op) (s.cycle + d.lat.toNat + 1)
          [{ cls := if cond then .q else .s, reg := d.sd.toNat, slot := 0, lane := 0, val := BitVec.ofNat 64 v }] s)
      else s
    | .v d =>
      vFinish op (if cond then .p else .v) d
        ((vecLanes g c d.gp.toNat d.ge d.gn).map fun l => (l, ev ctl (vSrcs g c d l.2 l.1))) s
    | .l _ => s

end Sys2Proof.Machine
end

