-- ==== Sys2Proof/Machine/Integer.lean ====
section
/-!
DEFINITION. Integer, logical, shift, field, move and address operations (spec/09_scalar_vector_operations.md R179, Table
9.3), and division (R180, Table 9.4). No integer operation raises a sticky flag.
-/
namespace Sys2Proof.Machine

/-- S types .S32 and .S64. -/
def isS (t : Nat) : Bool := t = 0 ∨ t = 2

/-- N(x): x read under its type. -/
def nVal (t x : Nat) : Int := if isS t then sInt (tyWidth t) x else ((x % 2 ^ tyWidth t : Nat) : Int)

/-- Least and greatest value of N. -/
def minN (t : Nat) : Int := if isS t then -(2 ^ (tyWidth t - 1)) else 0
def maxN (t : Nat) : Int := if isS t then 2 ^ (tyWidth t - 1) - 1 else 2 ^ tyWidth t - 1

/-- The value cut to its type's width. -/
def cut (t x : Nat) : Nat := x % 2 ^ tyWidth t

/-- A pure integer evaluation: no flag. -/
def intEval (h : Ctl → Srcs → Int) : Eval := fun c x => (wrapI (tyWidth c.ty) (h c x), 0)

/-- A pure bit evaluation on values cut to width. -/
def bitEval (h : Nat → Nat → Nat → Nat) : Eval := fun c x =>
  (cut c.ty (h (tyWidth c.ty) (cut c.ty x.a) (cut c.ty x.b)), 0)

/-- Clamps to the range of N with .SAT. -/
def satN (c : Ctl) (v : Int) : Int := if c.sat then max (minN c.ty) (min (maxN c.ty) v) else v

/-- Number of 1 bits among the low `w`. -/
def popcN : Nat → Nat → Nat
  | 0, _ => 0
  | w + 1, x => x % 2 + popcN w (x / 2)

/-- Number of leading 0 bits of a `w`-bit value. -/
def clzN (w x : Nat) : Nat := if x = 0 then w else w - 1 - Nat.log2 x

/-- The low `w` bits in reverse order. -/
def brevN : Nat → Nat → Nat
  | 0, _ => 0
  | w + 1, x => x % 2 * 2 ^ w + brevN w (x / 2)

/-- The conditions of ICMP (Table 2.2). -/
def condInt (k : Nat) (a b : Int) : Bool :=
  match k with
  | 0 => a = b
  | 1 => a ≠ b
  | 2 => a < b
  | 3 => a ≤ b
  | 4 => a > b
  | _ => a ≥ b

/-- Quotient truncated toward zero with the corners of Table 9.4. -/
def idivV (a b : Int) : Int := if b = 0 then -1 else Int.tdiv a b
/-- Remainder of Table 9.4. -/
def iremV (a b : Int) : Int := if b = 0 then a else Int.tmod a b

/-- IADD (R179). -/
def execIadd (f : Form) (s : State) : Host.Outcome State Fault Refusal :=
  .next (aluExec 0x00 false (intEval fun c x => satN c (nVal c.ty x.a + nVal c.ty x.b)) f s)
/-- ISUB (R179). -/
def execIsub (f : Form) (s : State) : Host.Outcome State Fault Refusal :=
  .next (aluExec 0x01 false (intEval fun c x => satN c (nVal c.ty x.a - nVal c.ty x.b)) f s)
/-- IMUL (R179). -/
def execImul (f : Form) (s : State) : Host.Outcome State Fault Refusal :=
  .next (aluExec 0x02 false (intEval fun c x => nVal c.ty x.a * nVal c.ty x.b) f s)
/-- IMULH (R179): bits 2w − 1:w of the exact product. -/
def execImulh (f : Form) (s : State) : Host.Outcome State Fault Refusal :=
  .next (aluExec 0x03 false (intEval fun c x => (nVal c.ty x.a * nVal c.ty x.b) / 2 ^ tyWidth c.ty) f s)
/-- IMAD (R179). -/
def execImad (f : Form) (s : State) : Host.Outcome State Fault Refusal :=
  .next (aluExec 0x04 false (intEval fun c x => nVal c.ty x.a * nVal c.ty x.b + nVal c.ty x.c) f s)
/-- IMIN (R179). -/
def execImin (f : Form) (s : State) : Host.Outcome State Fault Refusal :=
  .next (aluExec 0x05 false (intEval fun c x => min (nVal c.ty x.a) (nVal c.ty x.b)) f s)
/-- IMAX (R179). -/
def execImax (f : Form) (s : State) : Host.Outcome State Fault Refusal :=
  .next (aluExec 0x06 false (intEval fun c x => max (nVal c.ty x.a) (nVal c.ty x.b)) f s)
/-- IABS (R179). -/
def execIabs (f : Form) (s : State) : Host.Outcome State Fault Refusal :=
  .next (aluExec 0x07 false (intEval fun c x => ((sInt (tyWidth c.ty) x.a).natAbs : Int)) f s)
/-- INEG (R179). -/
def execIneg (f : Form) (s : State) : Host.Outcome State Fault Refusal :=
  .next (aluExec 0x08 false (intEval fun c x => -nVal c.ty x.a) f s)
/-- AND (R179). -/
def execAnd (f : Form) (s : State) : Host.Outcome State Fault Refusal :=
  .next (aluExec 0x09 false (bitEval fun _ a b => a &&& b) f s)
/-- OR (R179). -/
def execOr (f : Form) (s : State) : Host.Outcome State Fault Refusal :=
  .next (aluExec 0x0A false (bitEval fun _ a b => a ||| b) f s)
/-- XOR (R179). -/
def execXor (f : Form) (s : State) : Host.Outcome State Fault Refusal :=
  .next (aluExec 0x0B false (bitEval fun _ a b => a ^^^ b) f s)
/-- NOT (R179). -/
def execNot (f : Form) (s : State) : Host.Outcome State Fault Refusal :=
  .next (aluExec 0x0C false (bitEval fun w a _ => 2 ^ w - 1 - a) f s)
/-- ANDN (R179). -/
def execAndn (f : Form) (s : State) : Host.Outcome State Fault Refusal :=
  .next (aluExec 0x0D false (bitEval fun w a b => a &&& (2 ^ w - 1 - b)) f s)
/-- SHL (R179). -/
def execShl (f : Form) (s : State) : Host.Outcome State Fault Refusal :=
  .next (aluExec 0x0E false (bitEval fun w a b => if w ≤ b then 0 else a <<< b) f s)
/-- SHR (R179). -/
def execShr (f : Form) (s : State) : Host.Outcome State Fault Refusal :=
  .next (aluExec 0x0F false (bitEval fun w a b => if w ≤ b then 0 else a >>> b) f s)
/-- SAR (R179). -/
def execSar (f : Form) (s : State) : Host.Outcome State Fault Refusal :=
  .next (aluExec 0x10 false (intEval fun c x =>
    sInt (tyWidth c.ty) x.a / 2 ^ min (cut c.ty x.b) (tyWidth c.ty)) f s)
/-- ROT (R179). -/
def execRot (f : Form) (s : State) : Host.Outcome State Fault Refusal :=
  .next (aluExec 0x11 false (bitEval fun w a b => (a <<< (b % w)) ||| (a >>> (w - b % w))) f s)
/-- POPC (R179). -/
def execPopc (f : Form) (s : State) : Host.Outcome State Fault Refusal :=
  .next (aluExec 0x12 false (bitEval fun w a _ => popcN w a) f s)
/-- CLZ (R179). -/
def execClz (f : Form) (s : State) : Host.Outcome State Fault Refusal :=
  .next (aluExec 0x13 false (bitEval fun w a _ => clzN w a) f s)
/-- BREV (R179). -/
def execBrev (f : Form) (s : State) : Host.Outcome State Fault Refusal :=
  .next (aluExec 0x14 false (bitEval fun w a _ => brevN w a) f s)
/-- BFX (R179): `n1` is pos and `n2` is len. -/
def execBfx (f : Form) (s : State) : Host.Outcome State Fault Refusal :=
  .next (aluExec 0x15 false (intEval fun c x =>
    let y := (cut c.ty x.a >>> c.n1) % 2 ^ c.n2
    if isS c.ty then sInt c.n2 y else (y : Int)) f s)
/-- BFI (R179): `c` is the inserted value. -/
def execBfi (f : Form) (s : State) : Host.Outcome State Fault Refusal :=
  .next (aluExec 0x16 false (fun c x =>
    let a := cut c.ty x.a
    (a - fld (c.n1 + c.n2 - 1) c.n1 a * 2 ^ c.n1 + x.c % 2 ^ c.n2 * 2 ^ c.n1, 0)) f s)
/-- SEL (R179): bits copied unchanged. -/
def execSel (f : Form) (s : State) : Host.Outcome State Fault Refusal :=
  .next (aluExec 0x17 false (fun c x => (cut c.ty (if x.k then x.a else x.b), 0)) f s)
/-- ICMP (R179). -/
def execIcmp (f : Form) (s : State) : Host.Outcome State Fault Refusal :=
  .next (aluExec 0x18 true (fun c x => ((condInt c.cond (nVal c.ty x.a) (nVal c.ty x.b)).toNat, 0)) f s)
/-- MOV (R179). -/
def execMov (f : Form) (s : State) : Host.Outcome State Fault Refusal :=
  .next (aluExec 0x19 false (fun c x => (cut c.ty x.a, 0)) f s)
/-- MOVI (R179). -/
def execMovi (f : Form) (s : State) : Host.Outcome State Fault Refusal :=
  .next (aluExec 0x1A false (fun c x => (cut c.ty x.b, 0)) f s)
/-- LEA (R179): `n1` is the scale. -/
def execLea (f : Form) (s : State) : Host.Outcome State Fault Refusal :=
  .next (aluExec 0x1B false (fun c x => ((x.a + x.b <<< c.n1) % 2 ^ 64, 0)) f s)
/-- IDIV (R180). -/
def execIdiv (f : BIns) (s : State) : Host.Outcome State Fault Refusal :=
  .next (aluExec 0x1C false (intEval fun c x => idivV (nVal c.ty x.a) (nVal c.ty x.b)) (.bur f) s)
/-- IREM (R180). -/
def execIrem (f : BIns) (s : State) : Host.Outcome State Fault Refusal :=
  .next (aluExec 0x1D false (intEval fun c x => iremV (nVal c.ty x.a) (nVal c.ty x.b)) (.bur f) s)

end Sys2Proof.Machine
end

