-- ==== Sys2Proof/Machine/FloatOps.lean ====
section
/-!
DEFINITION. Floating-point, packed-half and conversion operations (spec/09_scalar_vector_operations.md R181 to R190, with
the rules of spec/08_number_formats.md).
-/
namespace Sys2Proof.Machine

/-- The format of a floating type. -/
def fmtOf (t : Nat) : Fmt :=
  if t = 5 then fmtF16 else if t = 6 then fmtBF16 else if t = 9 then fmtE4M3 else if t = 10 then fmtE5M2 else fmtF32

/-- A type is a floating-point format of Table 8.1. -/
def isFmt (t : Nat) : Bool := 4 ≤ t ∧ t ≤ 6 ∨ t = 9 ∨ t = 10

/-- A floating-point evaluation on the values of its type. -/
def fltEval (h : Fmt → Nat → FV → FV → FV → Nat × Flags) : Eval := fun c x =>
  let F := fmtOf c.ty
  h F c.rnd (F.read x.a) (F.read x.b) (F.read x.c)

/-- FADD (R181). -/
def execFadd (f : Form) (s : State) : Host.Outcome State Fault Refusal :=
  .next (aluExec 0x20 false (fltEval fun F m a b _ => fAdd F m a b) f s)
/-- FSUB (R181). -/
def execFsub (f : Form) (s : State) : Host.Outcome State Fault Refusal :=
  .next (aluExec 0x21 false (fltEval fun F m a b _ => fAdd F m a b.flip) f s)
/-- FMUL (R181). -/
def execFmul (f : Form) (s : State) : Host.Outcome State Fault Refusal :=
  .next (aluExec 0x22 false (fltEval fun F m a b _ => fMul F m a b) f s)
/-- FFMA (R181). -/
def execFfma (f : Form) (s : State) : Host.Outcome State Fault Refusal :=
  .next (aluExec 0x23 false (fltEval fFma) f s)
/-- SCALE (R181): the second source is a signed 32-bit integer. -/
def execScale (f : Form) (s : State) : Host.Outcome State Fault Refusal :=
  .next (aluExec 0x3B false (fun c x => fScale (fmtOf c.ty) c.rnd ((fmtOf c.ty).read x.a) (sInt 32 x.b)) f s)
/-- FMIN (R182). -/
def execFmin (f : Form) (s : State) : Host.Outcome State Fault Refusal :=
  .next (aluExec 0x24 false (fun c x => fMinMax (fmtOf c.ty) true x.a x.b) f s)
/-- FMAX (R182). -/
def execFmax (f : Form) (s : State) : Host.Outcome State Fault Refusal :=
  .next (aluExec 0x25 false (fun c x => fMinMax (fmtOf c.ty) false x.a x.b) f s)
/-- FCMP (R183). -/
def execFcmp (f : Form) (s : State) : Host.Outcome State Fault Refusal :=
  .next (aluExec 0x26 true (fun c x =>
    let (r, fl) := fCmp c.cond ((fmtOf c.ty).read x.a) ((fmtOf c.ty).read x.b)
    (r.toNat, fl)) f s)
/-- FRCP (R184). -/
def execFrcp (f : Form) (s : State) : Host.Outcome State Fault Refusal :=
  .next (aluExec 0x27 false (fun c x => fRcp c.rnd x.a) f s)
/-- FRSQ (R184). -/
def execFrsq (f : Form) (s : State) : Host.Outcome State Fault Refusal :=
  .next (aluExec 0x28 false (fun c x => fRsq c.rnd x.a) f s)
/-- FEXP2 (R184). -/
def execFexp2 (f : Form) (s : State) : Host.Outcome State Fault Refusal :=
  .next (aluExec 0x29 false (fun c x => fExp2 c.rnd x.a) f s)
/-- FLOG2 (R184). -/
def execFlog2 (f : Form) (s : State) : Host.Outcome State Fault Refusal :=
  .next (aluExec 0x2A false (fun c x => fLog2 c.rnd x.a) f s)
/-- FTANH (R184). -/
def execFtanh (f : Form) (s : State) : Host.Outcome State Fault Refusal :=
  .next (aluExec 0x2B false (fun c x => fTanh c.rnd x.a) f s)

/-- One step of a dot product: an FFMA of FP32 into the running sum, with the flags so far. -/
def dotStep (mode : Nat) (t : Nat × Flags) (a b : FV) : Nat × Flags :=
  let (r, fl) := fFma fmtF32 mode a b (fmtF32.read t.1)
  (r, t.2 ||| fl)

/-- FDOT4 (R185). -/
def execFdot4 (f : BIns) (s : State) : Host.Outcome State Fault Refusal :=
  .next (match s.crew s.focus with
    | none => s
    | some (g, c) =>
      let mode := fld 5 4 f.m1.toNat
      burFinish 0x2C .x f ((burLanes g c f.guard).map fun l =>
        (l, [0, 1, 2, 3].foldl (fun t k => dotStep mode t (fmtF32.read (g.getX l.2 l.1 (f.a + k)).toNat)
          (fmtF32.read (g.getX l.2 l.1 (f.b + k)).toNat)) ((g.getX l.2 l.1 f.c).toNat % 2 ^ 32, 0))) s)

/-- Element `e` of a packed-half pair (08 R157). -/
def halfOf (F : Fmt) (x e : Nat) : FV := F.read (x >>> (16 * e))

/-- Two independent elements (R186). -/
def pairEval (h : Fmt → Nat → FV → FV → FV → Nat × Flags) : Eval := fun c x =>
  let F := fmtOf c.ty
  let (r0, f0) := h F c.rnd (halfOf F x.a 0) (halfOf F x.b 0) (halfOf F x.c 0)
  let (r1, f1) := h F c.rnd (halfOf F x.a 1) (halfOf F x.b 1) (halfOf F x.c 1)
  (r0 + r1 * 2 ^ 16, f0 ||| f1)

/-- HADD2 (R186). -/
def execHadd2 (f : Form) (s : State) : Host.Outcome State Fault Refusal :=
  .next (aluExec 0x30 false (pairEval fun F m a b _ => fAdd F m a b) f s)
/-- HMUL2 (R186). -/
def execHmul2 (f : Form) (s : State) : Host.Outcome State Fault Refusal :=
  .next (aluExec 0x31 false (pairEval fun F m a b _ => fMul F m a b) f s)
/-- HFMA2 (R186). -/
def execHfma2 (f : Form) (s : State) : Host.Outcome State Fault Refusal :=
  .next (aluExec 0x32 false (pairEval fFma) f s)

/-- HDOT2 (R187): the widenings are exact and raise IV for a signalling NaN, which leaves them quiet. -/
def execHdot2 (f : BIns) (s : State) : Host.Outcome State Fault Refusal :=
  .next (aluExec 0x33 false (fun c x =>
    let F := fmtOf c.ty
    let ws := [halfOf F x.a 0, halfOf F x.b 0, halfOf F x.a 1, halfOf F x.b 1]
    let iv := ws.foldl (fun a v => a ||| v.sigFlag) 0
    dotStep c.rnd (dotStep c.rnd (x.c % 2 ^ 32, iv) (halfOf F x.a 0) (halfOf F x.b 0))
      (halfOf F x.a 1) (halfOf F x.b 1)) (.bur f) s)

/-! ## Conversions (08 R168, Table 8.6) -/

/-- Signed integer types. -/
def tySigned (t : Nat) : Bool := t = 0 ∨ t = 2 ∨ t = 12 ∨ t = 14

/-- Bounds of an integer type. -/
def intMin (t : Nat) : Int := if tySigned t then -(2 ^ (tyWidth t - 1)) else 0
def intMax (t : Nat) : Int := if tySigned t then 2 ^ (tyWidth t - 1) - 1 else 2 ^ tyWidth t - 1

/-- An integer into an integer type: the value, the nearest bound, or the value modulo 2^width. -/
def intToInt (t : Nat) (sat : Bool) (v : Int) : Nat :=
  wrapI (tyWidth t) (if sat then max (intMin t) (min (intMax t) v) else v)

/-- What a float or LOG6 value outside an integer type gives. -/
def cvtOut (t : Nat) (sat : Bool) (v : FV) : Nat :=
  wrapI (tyWidth t)
    (if sat then if v.isNan then 0 else if v.neg then intMin t else intMax t
     else if tySigned t then intMin t else intMax t)

/-- A float or LOG6 value into an integer type. -/
def fltToInt (t mode : Nat) (sat : Bool) (v : FV) : Nat × Flags :=
  match v with
  | .fin s m e =>
    let (k, nx) := roundMag mode s m e
    let i : Int := if s then -(k : Int) else k
    if intMin t ≤ i ∧ i ≤ intMax t then (wrapI (tyWidth t) i, nxIf nx) else (cvtOut t sat v, fIV)
  | _ => (cvtOut t sat v, fIV)

/-- A conversion between floating formats is exact whatever the operands (Table 8.6). -/
def widens (d s : Nat) : Bool := ((s = 5 ∨ s = 6) ∧ d = 4) ∨ ((s = 9 ∨ s = 10) ∧ 4 ≤ d ∧ d ≤ 6)

/-- Converts a value from type `s` to type `d`. -/
def convert (d s mode : Nat) (sat : Bool) (x : Nat) : Nat × Flags :=
  if d = s then (x % 2 ^ tyWidth d, 0)
  else if tyB d || tyB s then (x % 2 ^ tyWidth s % 2 ^ tyWidth d, 0)
  else if tyInt s then
    let v : Int := if tySigned s then sInt (tyWidth s) x else (x % 2 ^ tyWidth s : Nat)
    if tyInt d then (intToInt d sat v, 0)
    else if d = 11 then roundLog6 mode sat (FV.ofInt v)
    else roundF (fmtOf d) mode sat (FV.ofInt v)
  else
    let v := if s = 11 then log6Read x else (fmtOf s).read x
    if tyInt d then fltToInt d mode sat v
    else
      let (r, fl) := if d = 11 then roundLog6 mode sat v
        else if widens d s then roundF (fmtOf d) 0 false v else roundF (fmtOf d) mode sat v
      (r, v.sigFlag ||| fl)

/-- The place in bits of element 1 of a packed type (R189). -/
def packPos (t : Nat) : Nat := if tyWidth t = 16 then 16 else 8

/-- CVT (R188). -/
def execCvt (f : Form) (s : State) : Host.Outcome State Fault Refusal :=
  .next (aluExec 0x38 false (fun c x => convert c.ty c.src c.rnd c.sat x.a) f s)
/-- PACK (R189). -/
def execPack (f : Form) (s : State) : Host.Outcome State Fault Refusal :=
  .next (aluExec 0x39 false (fun c x =>
    let (r0, f0) := convert c.ty c.src c.rnd c.sat x.a
    let (r1, f1) := convert c.ty c.src c.rnd c.sat x.b
    (r0 + r1 * 2 ^ packPos c.ty, f0 ||| f1)) f s)
/-- UNPACK (R190): `n1` is the selector. -/
def execUnpack (f : Form) (s : State) : Host.Outcome State Fault Refusal :=
  .next (aluExec 0x3A false (fun c x => convert c.ty c.src c.rnd c.sat (x.a >>> (packPos c.src * c.n1))) f s)

end Sys2Proof.Machine
end

