-- ==== Sys2Proof/Machine/Crypto.lean ====
section
/-!
DEFINITION. The standard functions that the spec names: SHAKE256 (spec/13_recovery_undo.md R267, R273; spec/02 R38), AES-256
and GMAC (spec/04_hbm_translation_protection.md R94, R95).
-/
namespace Sys2Proof.Machine

/-! ## Keccak and SHAKE256 (FIPS 202) -/

/-- Lane `i` of a Keccak state. -/
def kLane (a : List W64) (i : Nat) : W64 := a.getD i 0

/-- Round constants. -/
def kRC : List W64 :=
  [0x0000000000000001, 0x0000000000008082, 0x800000000000808A, 0x8000000080008000, 0x000000000000808B, 0x0000000080000001,
   0x8000000080008081, 0x8000000000008009, 0x000000000000008A, 0x0000000000000088, 0x0000000080008009, 0x000000008000000A] ++
  [0x000000008000808B, 0x800000000000008B, 0x8000000000008089, 0x8000000000008003, 0x8000000000008002, 0x8000000000000080,
   0x000000000000800A, 0x800000008000000A, 0x8000000080008081, 0x8000000000008080, 0x0000000080000001, 0x8000000080008008]

/-- Rotation offsets of lane x + 5y. -/
def kRot : List Nat := [0, 1, 62, 28, 27, 36, 44, 6, 55, 20, 3, 10, 43, 25, 39, 41, 45, 15, 21, 8, 18, 2, 61, 56, 14]

/-- One round. -/
def kRound (a : List W64) (rc : W64) : List W64 :=
  let c := (List.range 5).map fun x =>
    kLane a x ^^^ kLane a (x + 5) ^^^ kLane a (x + 10) ^^^ kLane a (x + 15) ^^^ kLane a (x + 20)
  let d := (List.range 5).map fun x => kLane c ((x + 4) % 5) ^^^ (kLane c ((x + 1) % 5)).rotateLeft 1
  let t := (List.range 25).map fun i => kLane a i ^^^ kLane d (i % 5)
  let b := (List.range 25).map fun j =>
    let x := (j % 5 + 3 * (j / 5)) % 5
    let i := x + 5 * (j % 5)
    (kLane t i).rotateLeft (kRot.getD i 0)
  let e := (List.range 25).map fun i =>
    let y := 5 * (i / 5)
    kLane b i ^^^ (~~~kLane b (y + (i + 1) % 5) &&& kLane b (y + (i + 2) % 5))
  match e with
  | [] => []
  | h :: r => (h ^^^ rc) :: r

/-- Keccak-f[1600]. -/
def keccak (a : List W64) : List W64 := kRC.foldl kRound a

/-- The lanes of a byte list. -/
def toLanes : Nat → List Byte → List W64
  | 0, _ => []
  | n + 1, bs => BitVec.ofNat 64 (leNat (bs.take 8)) :: toLanes n (bs.drop 8)

/-- Absorbs padded blocks of 136 bytes. -/
def absorb : Nat → List Byte → List W64 → List W64
  | 0, _, a => a
  | n + 1, bs, a =>
    let blk := toLanes 25 (bs.take 136)
    absorb n (bs.drop 136) (keccak (List.zipWith (· ^^^ ·) a blk))

/-- Squeezes blocks. -/
def squeeze : Nat → List W64 → List Byte
  | 0, _ => []
  | n + 1, a => ((a.take 17).flatMap fun l => leBytes 8 l.toNat) ++ squeeze n (keccak a)

/-- The first `n` bytes of SHAKE256. -/
def shake256 (msg : List Byte) (n : Nat) : List Byte :=
  let blocks := msg.length / 136 + 1
  let pad := blocks * 136 - msg.length
  let tail : List Byte :=
    if pad = 1 then [0x9F] else (0x1F : Byte) :: (List.replicate (pad - 2) (0 : Byte) ++ [0x80])
  (squeeze (n / 136 + 1) (absorb blocks (msg ++ tail) (List.replicate 25 0))).take n

/-- The first 256 bits of SHAKE256, low byte first. -/
def shake256w (msg : List Byte) : BitVec 256 := BitVec.ofNat 256 (leNat (shake256 msg 32))

/-! ## AES-256 (FIPS 197) -/

/-- Doubling in GF(2^8). -/
def gfDouble (a : Nat) : Nat := if a < 128 then 2 * a else (2 * a ^^^ 0x11B) % 256

/-- Product in GF(2^8), over `n` bits of `b`. -/
def gfMul : Nat → Nat → Nat → Nat
  | 0, _, _ => 0
  | n + 1, a, b => (if b % 2 = 1 then a else 0) ^^^ gfMul n (gfDouble a) (b / 2)

/-- a^254, the inverse in GF(2^8). -/
def gfInv (a : Nat) : Nat :=
  let sq := fun x => gfMul 8 x x
  let a2 := sq a
  let a4 := sq a2
  let a8 := sq a4
  let a16 := sq a8
  let a32 := sq a16
  let a64 := sq a32
  [a4, a8, a16, a32, a64, sq a64].foldl (gfMul 8) a2

/-- The S-box. -/
def aesSub (x : Nat) : Nat :=
  let b := gfInv x
  let r := fun k => (b <<< k ||| b >>> (8 - k)) % 256
  b ^^^ r 1 ^^^ r 2 ^^^ r 3 ^^^ r 4 ^^^ 0x63

/-- Key expansion: `n` further words after the last eight (newest first). -/
def aesExpand : Nat → Nat → List (List Nat) → List (List Nat)
  | 0, _, w => w
  | n + 1, i, w =>
    let t := w.headD []
    let t' :=
      if i % 8 = 0 then
        match t.map aesSub with
        | a :: b :: c :: d :: _ => [b ^^^ (List.range (i / 8 - 1)).foldl (fun x _ => gfDouble x) 1, c, d, a]
        | _ => []
      else if i % 8 = 4 then t.map aesSub else t
    aesExpand n (i + 1) (List.zipWith (· ^^^ ·) (w.getD 7 []) t' :: w)

/-- Four-byte columns. -/
def columns : Nat → List Nat → List (List Nat)
  | 0, _ => []
  | n + 1, l => l.take 4 :: columns n (l.drop 4)

/-- The fifteen round keys of a 32-byte key. -/
def aesKeys (key : List Nat) : List (List Nat) :=
  let w := (aesExpand 52 8 (columns 8 key).reverse).reverse
  (List.range 15).map fun r => ((List.range 4).map fun j => w.getD (4 * r + j) []).flatten

def aesShift (s : List Nat) : List Nat := (List.range 16).map fun i => s.getD ((i + 4 * (i % 4)) % 16) 0

def aesMix (s : List Nat) : List Nat :=
  (columns 4 s).flatMap fun c =>
    (List.range 4).map fun i =>
      let g := fun k => c.getD ((i + k) % 4) 0
      gfDouble (g 0) ^^^ gfDouble (g 1) ^^^ g 1 ^^^ g 2 ^^^ g 3

/-- Encrypts one block of 16 bytes. -/
def aesBlock (ks : List (List Nat)) (blk : List Nat) : List Nat :=
  let x := fun a b : List Nat => List.zipWith (· ^^^ ·) a b
  let s := x blk (ks.headD [])
  let s := (ks.drop 1 |>.take 13).foldl (fun s k => x (aesMix (aesShift (s.map aesSub))) k) s
  x (aesShift (s.map aesSub)) (ks.getD 14 [])

/-- The `n` bytes of a number, high byte first. -/
def beBytes (n x : Nat) : List Nat := (List.range n).map fun i => x / 256 ^ (n - 1 - i) % 256

/-- The number of a byte list, high byte first. -/
def beNat (l : List Nat) : Nat := l.foldl (fun a b => 256 * a + b) 0

/-! ## GMAC (SP 800-38D) -/

/-- Product in GF(2^128) with GCM's bit order, over `n` bits of `x` from its high end. -/
def ghMul : Nat → Nat → Nat → Nat → Nat
  | 0, _, _, z => z
  | n + 1, x, v, z =>
    ghMul n x (if v % 2 = 1 then v / 2 ^^^ (0xE1 * 2 ^ 120) else v / 2) (if x.testBit n then z ^^^ v else z)

/-- GHASH over 16-byte blocks. -/
def ghash (h : Nat) (blocks : List Nat) : Nat := blocks.foldl (fun y b => ghMul 128 (y ^^^ b) h 0) 0

/-- Splits a byte list into 16-byte blocks. -/
def blocks16 : Nat → List Nat → List Nat
  | 0, _ => []
  | n + 1, l => beNat (l.take 16) :: blocks16 n (l.drop 16)

/-- The tag of additional data of whole 16-byte blocks under a 96-bit IV. -/
def gmac (ks : List (List Nat)) (iv : Nat) (aad : List Nat) : Nat :=
  let e := fun x => beNat (aesBlock ks (beBytes 16 x))
  ghash (e 0) (blocks16 (aad.length / 16) aad ++ [8 * aad.length * 2 ^ 64]) ^^^ e (iv * 2 ^ 32 + 1)

end Sys2Proof.Machine
end

