-- ==== Sys2Proof/Machine/Mem.lean ====
section
/-!
DEFINITION. Memory behind the cores: physical space and granules (spec/04_hbm_translation_protection.md R70 to R74), home
banks and L2 (spec/05_l2_lift_ring.md R105, R106), fills, write-backs and counters (04 R93 to R101), the undo log and the
merge of bytes at a home bank (spec/13_recovery_undo.md R265 to R270).
-/
namespace Sys2Proof.Machine

/-! ## Parts of the state -/

def State.modPkg (s : State) (f : Pkg → Pkg) : State := { s with pkg := f s.pkg }
def State.modSvc (s : State) (f : Svc → Svc) : State := { s with svc := f s.svc }

/-- The reset value of a function's record (19 Table 19.4): WEIGHT 1 and TDOM = FN. -/
def fnReset (k : Nat) : BitVec 128 := BitVec.ofNat 128 (2 ^ 66 + k * 2 ^ 86 + k * 2 ^ 40)
/-- Function `k`. -/
def State.fn (s : State) (k : Nat) : Fn := (s.pkg.fns.find? k).getD { record := fnReset k }
def State.modFn (s : State) (k : Nat) (f : Fn → Fn) : State := s.modPkg fun p => { p with fns := p.fns.put k (f (s.fn k)) }

/-- The reset value of a partition's record (19 Table 19.3): AGE 256, RQTO 100, OPB 20, SLQ 10, GTH 16. -/
def partReset (k : Nat) : BitVec 256 :=
  BitVec.ofNat 256 (256 * 2 ^ 144 + 100 * 2 ^ 128 + 20 * 2 ^ 120 + 10 * 2 ^ 112 + 16 * 2 ^ 107 + k * 2 ^ 94)
/-- Partition `k`. -/
def State.part (s : State) (k : Nat) : Part := (s.pkg.parts.find? k).getD { record := partReset k }
def State.modPart (s : State) (k : Nat) (f : Part → Part) : State :=
  s.modPkg fun p => { p with parts := p.parts.put k (f (s.part k)) }

/-- Context `a`. -/
def State.ctx (s : State) (a : Nat) : Ctx := (s.pkg.ctxs.find? a).getD {}
def State.modCtx (s : State) (a : Nat) (f : Ctx → Ctx) : State :=
  s.modPkg fun p => { p with ctxs := p.ctxs.put a (f (s.ctx a)) }

/-- Launch `l`. -/
def State.launch (s : State) (l : Nat) : Launch := (s.pkg.launches.find? l).getD { asid := 0, q := 0, lidx := 0 }
def State.modLaunch (s : State) (l : Nat) (f : Launch → Launch) : State :=
  match s.pkg.launches.find? l with
  | some x => s.modPkg fun p => { p with launches := p.launches.put l (f x) }
  | none => s

/-- Translation `t`. -/
def State.trans (s : State) (t : Nat) : Option Trans := s.pkg.trans.find? t
def State.modTrans (s : State) (t : Nat) (f : Trans → Trans) : State :=
  match s.trans t with
  | some x => s.modPkg fun p => { p with trans := p.trans.put t (f x) }
  | none => s

/-- Fields of a function's record (19 Table 19.4). -/
def Fn.en (f : Fn) : Bool := f.record.getLsbD 50
def Fn.host (f : Fn) : Bool := f.record.getLsbD 51
def Fn.part (f : Fn) : Nat := fld 57 52 f.record.toNat
def Fn.fmask (f : Fn) : Nat := fld 65 58 f.record.toNat
def Fn.weight (f : Fn) : Nat := fld 73 66 f.record.toNat
def Fn.maxc (f : Fn) : Nat := fld 85 74 f.record.toNat
def Fn.tdom (f : Fn) : Nat := fld 95 86 f.record.toNat
def Fn.cdom (f : Fn) : Nat := fld 127 96 f.record.toNat
def Fn.gquota (f : Fn) : Nat := fld 18 0 f.record.toNat

/-- Fields of a partition's record (19 Table 19.3). -/
def Part.regm (p : Part) : Nat := fld 255 192 p.record.toNat
def Part.tbdef (p : Part) : Nat := fld 191 160 p.record.toNat
def Part.age (p : Part) : Nat := fld 159 144 p.record.toNat
def Part.rqto (p : Part) : Nat := fld 143 128 p.record.toNat
def Part.opb (p : Part) : Nat := fld 127 120 p.record.toNat
def Part.slq (p : Part) : Nat := fld 119 112 p.record.toNat
def Part.gth (p : Part) : Nat := fld 111 107 p.record.toNat
def Part.svcm (p : Part) (i : Nat) : Bool := p.record.getLsbD (102 + i)
def Part.pairs (p : Part) : Bool := p.record.getLsbD 101
def Part.locked (p : Part) : Bool := p.record.getLsbD 100
def Part.fpm (p : Part) : Nat := fld 93 78 p.record.toNat

/-- A service of a partition is host-assisted: its bit is set and the package has an owner (19 R387). -/
def assisted (s : State) (part i : Nat) : Bool := (s.part part).svcm i && s.svc.owner.isSome

/-- Lift cycles of a microsecond (00 R6). -/
def usec (n : Nat) : Nat := 1600 * n

/-- Fields of a context translation word (04 Table 4.3). -/
def Ctx.root (c : Ctx) : Nat := fld 51 13 c.word.toNat * 8192
def Ctx.fnum (c : Ctx) : Nat := fld 9 1 c.word.toNat
def Ctx.valid (c : Ctx) : Bool := c.word.getLsbD 0

/-- The function that owns context `a`. -/
def State.fnOf (s : State) (a : Nat) : Nat := (s.ctx a).fnum
/-- The context of a group. -/
def State.asidOf (s : State) (g : Group) : Nat := (s.launch g.launch).asid
/-- The region of a core (01 R9). -/
def regionOf (k : Nat) : Nat := k / 8
/-- The die of a core. -/
def dieOf (k : Nat) : Nat := k / 128

/-! ## Physical space and granules (04 R70, R71, R73) -/

def isHbm (pa : Nat) : Bool := pa < 2 ^ 40
def isHost (pa : Nat) : Bool := fld 51 50 pa = 2
def isPeer (pa : Nat) : Bool := fld 51 50 pa = 3
/-- A peer access of a context has a fabric port: one of those allotted to its partition is up (20 R400). Host accesses need none. -/
def linkUp (s : State) (asid pa : Nat) : Bool :=
  let fpm := (s.part (s.fn (s.fnOf asid)).part).fpm
  !isPeer pa || fpm = 0 || (List.range 16).any fun p => bitOf p fpm && !s.svc.down.contains p
def lineOf (pa : Nat) : Nat := pa / 128
def granOf (pa : Nat) : Nat := pa / 2 ^ 21
/-- A granule of a data region. -/
def granOk (g : Nat) : Bool := g < 2 ^ 19 && g % 2 ^ 15 < 30408
/-- The die of an HBM4 address (R72): stack 4d + h belongs to die d. -/
def dieOfPa (pa : Nat) : Nat := fld 39 36 pa / 4
/-- The stack of an address, and the pseudo-channel of it that serves the address (R72): no two channels are told apart by the order of accesses, which is the
controller's. -/
def stackOfPa (pa : Nat) : Nat := fld 39 36 pa
def channelOf (pa : Nat) : Nat := fld 13 8 pa ^^^ fld 19 14 pa
/-- The first granule of the translation cache, and whether a granule is one of its 2,048 (R71; log 81). -/
def cacheGran : Nat := 519880
def inCache (g : Nat) : Bool := cacheGran ≤ g && g < cacheGran + 2048
/-- The service granule of a stack that holds its metadata log (13 R262): the last granule of its data region, or the one below the translation
cache (log 103). -/
def metaLogGran (st : Nat) : Nat := if st = 15 then cacheGran - 1 else st * 2 ^ 15 + 30407
/-- A granule holds a metadata log. -/
def inMetaLog (g : Nat) : Bool := g = metaLogGran (g / 2 ^ 15) && g < 2 ^ 19
/-- The entry that an unlisted granule of the owner table holds. -/
def ownerDefault (g : Nat) : BitVec 16 := if inCache g || inMetaLog g then 0x3FF else 0x3FE
/-- Owner code of a granule (Table 4.2); an unlisted granule is free, or the service's where it is the translation cache's. -/
def State.ownerOf (s : State) (g : Nat) : Nat := fld 9 0 (s.pkg.owners.get (ownerDefault g) g).toNat
/-- The shared window of an owner code, or 0. -/
def winOf (o : Nat) : Nat := if 513 ≤ o ∧ o ≤ 767 then o - 512 else 0

/-! ## Bytes and lines -/

/-- Reads `n` bytes of memory as they stand. -/
def State.rawBytes (s : State) (pa n : Nat) : List Byte := SMap.getList 0 s.mem pa n
/-- Writes bytes of memory as they stand. -/
def State.putRaw (s : State) (pa : Nat) (bs : List Byte) : State := { s with mem := SMap.setList 0 s.mem pa bs }
/-- A line from its bytes, and its bytes. -/
def lineOfBytes (bs : List Byte) : Line := BitVec.ofNat 1024 (leNat bs)
def bytesOfLine (l : Line) : List Byte := leBytes 128 l.toNat
/-- The `n` bytes of a line from offset `o`. -/
def lineBytes (l : Line) (o n : Nat) : List Byte := leBytes n (l.toNat >>> (8 * o))
/-- The byte mask and the line that hold `bs` at offset `o`. -/
def maskAt (o n : Nat) : Mask := BitVec.ofNat 128 ((2 ^ n - 1) <<< o)
def lineAt (o : Nat) (bs : List Byte) : Line := BitVec.ofNat 1024 (leNat bs <<< (8 * o))
/-- The bit mask of a byte mask, over `n` bytes. -/
def maskBits : Nat → Nat → Nat
  | 0, _ => 0
  | n + 1, m => (if m % 2 = 1 then 255 else 0) + 256 * maskBits n (m / 2)
/-- Replaces the masked bytes. -/
def overlay (l d : Line) (m : Mask) : Line :=
  let b : Line := BitVec.ofNat 1024 (maskBits 128 m.toNat)
  (l &&& ~~~b) ||| (d &&& b)
/-- All bytes of a line. -/
def fullMask : Mask := BitVec.allOnes 128

/-! ## Home banks (05 R104, R105) -/

/-- Fields of a bank entry (Table 5.1). -/
def bankMode (e : BankEntry) : Nat := fld 31 30 e.toNat
def bankSvc (e : BankEntry) : Bool := e.getLsbD 29
def bankWin (e : BankEntry) : Nat := fld 28 21 e.toNat
def bankPart (e : BankEntry) : Nat := fld 20 15 e.toNat

/-- The banks whose entry meets a test, ascending. -/
def State.banksWhere (s : State) (t : BankEntry → Bool) : List Nat := (s.pkg.banks.filter fun b => t b.2).map Prod.fst
/-- The service banks. -/
def State.svcBanks (s : State) : List Nat := s.banksWhere fun e => bankMode e = 2 && bankSvc e
/-- A partition's cache banks. -/
def State.partBanks (s : State) (p : Nat) : List Nat :=
  s.banksWhere fun e => bankMode e = 2 && !bankSvc e && bankWin e = 0 && bankPart e = p

/-- The home list of an owner code (R105). -/
def State.homeList (s : State) (o : Nat) : List Nat :=
  if 1 ≤ o ∧ o ≤ 511 then
    match s.partBanks (s.fn o).part with
    | [] => s.svcBanks
    | l => l
  else if winOf o ≠ 0 then s.banksWhere fun e => bankMode e = 2 && bankWin e = winOf o
  else s.svcBanks

/-- The home bank of a line (R105). DESIGN CHOICE (log 82): bank 0 where the home list is empty, for which the spec gives no home. -/
def State.homeBank (s : State) (la : Nat) : Nat :=
  let l := s.homeList (s.ownerOf (la / 16384))
  let pa := la * 128
  let h := fld 22 7 pa ^^^ fld 38 23 pa ^^^ fld 51 39 pa
  l.getD ((h * l.length) >>> 16) 0

/-! ## Counters, write-back and verification (04 R93, R98, R99, R101) -/

/-- The counter block of a chunk. -/
def State.ctr (s : State) (ch : Nat) : CtrBlock := s.pkg.ctr.get {} ch
def State.lineMeta (s : State) (la : Nat) : LineMeta := s.pkg.meta_.get {} la
def State.setMeta (s : State) (la : Nat) (m : LineMeta) : State :=
  s.modPkg fun p => { p with meta_ := p.meta_.set {} la m }

/-- A line verifies against its counter block: it is not poisoned and was written under the counter that the block holds (R97, 13 R262). -/
def State.verifies (s : State) (la : Nat) : Bool :=
  let m := s.lineMeta la
  !m.poison && m.minor == (s.ctr (la / 64)).minors.get 0 (la % 64)

/-- Marks a chunk's metadata as dirty. -/
def State.dirtyMeta (s : State) (ch : Nat) : State :=
  if s.pkg.metaDirty.contains ch then s else s.modPkg fun p => { p with metaDirty := p.metaDirty ++ [ch] }

/-! ## Counter trees and metadata caches (R96 to R98; 13 R262) -/

/-- Key of a tree node: owner, level, index. A counter block has level 0. -/
def nodeKey (o level i : Nat) : Nat := o * 2 ^ 40 + level * 2 ^ 36 + i

/-- The least number of upper levels that hold `n` granules. -/
def upperLevels (n : Nat) : Nat := ((List.range 8).find? fun i => n ≤ 8 ^ i).getD 8

/-- The nodes above block `b` of granule `g`, which has place `pos` among the leaves of the upper tree, as level, index and counter; the last one is
the root. -/
def treePath (g pos b n : Nat) : List (Nat × Nat × Nat) :=
  [(1, g * 32 + b / 8, b % 8), (2, g * 4 + b / 64, b / 8 % 8), (3, g, b / 64)] ++
  (List.range n).map fun i => (4 + i, pos / 8 ^ (i + 1), pos / 8 ^ i % 8)

/-- An owner's granules in their assignment order; the service's begin with those of the translation cache and of the metadata logs. -/
def State.orderOf (s : State) (o : Nat) : List Nat :=
  (if o = 0x3FF then (List.range 2048).map (cacheGran + ·) ++ (List.range 16).map metaLogGran else []) ++ s.pkg.treeOrder.get [] o

/-- The nodes above a chunk's counter block, by key, each with the counter of the one below it. -/
def State.nodesOf (s : State) (ch : Nat) : List (Nat × Nat) :=
  let o := s.ownerOf (ch / 256)
  let order := s.orderOf o
  (treePath (ch / 256) (order.findIdx fun g => g = ch / 256) (ch % 256) (upperLevels order.length)).map fun x => (nodeKey o x.1 x.2.1, x.2.2)

/-- One counter of a node goes up. -/
def TreeNode.bump (t : TreeNode) (i : Nat) : TreeNode := { t with ctrs := t.ctrs.set 0 i (t.ctrs.get 0 i + 1) }

/-- The stack of a chunk, whose controller holds its metadata. -/
def stackOf (ch : Nat) : Nat := fld 39 36 (ch * 8192)

/-- A node as the controllers see it: as a metadata cache holds it, all copies being equal, or as it stands in HBM4. -/
def State.node (s : State) (st key : Nat) : TreeNode :=
  match (SMap.find? (s.pkg.metaCache.get [] st) key).orElse fun _ => s.pkg.metaCache.findSome? fun c => SMap.find? c.2 key with
  | some t => t
  | none => s.pkg.tree.get {} key

/-- The controller of a stack holds a node verified. -/
def State.held (s : State) (st key : Nat) : Bool := (SMap.find? (s.pkg.metaCache.get [] st) key).isSome

/-- Raised nodes replace the copies that metadata caches hold of them. -/
def putNodes (ns : List (Nat × TreeNode)) (s : State) : State :=
  s.modPkg fun p => { p with metaCache := p.metaCache.map fun (c : Nat × SMap TreeNode) => (c.1, c.2.map fun (e : Nat × TreeNode) =>
    match ns.find? fun n => n.1 = e.1 with | some n => n | none => e) }

/-- The counter that a parent comes to hold for the child below it. -/
def nextPar (s : State) (st : Nat) : List (Nat × Nat) → Nat → Nat
  | (k, i) :: _, _ => (((s.node st k).ctrs.get 0 i) + 1).toNat
  | [], par => par

/-- The nodes of a path with their counters raised, each with a MAC formed with its parent's new counter. -/
def raisePath (s : State) (st : Nat) : List (Nat × Nat) → List (Nat × TreeNode)
  | [] => []
  | (k, i) :: r => (k, { (s.node st k).bump i with par := nextPar s st r (s.node st k).par }) :: raisePath s st r

/-- The group of a chunk's counter block, with the nodes above it raised up to the root, which the caches that hold them then show (13 R262). -/
def formGroup (ch : Nat) (blk : CtrBlock) (s : State) : State × MetaGroup :=
  let st := stackOf ch
  let path := s.nodesOf ch
  let up := raisePath s st path
  let par := nextPar s st path 0
  ((putNodes up s).modPkg fun p => { p with ctr := p.ctr.set {} ch { p.ctr.get {} ch with par := par } },
   { chunk := ch, blk := { blk with par := par }, nodes := (List.zip path up).map fun x => (x.1.1, x.1.2, x.2.2), pos := s.pkg.metaHead.get 0 st })

/-- Bytes that a group takes in its log: its block and nodes, and 64 with its commit word (log 103). -/
def MetaGroup.size (g : MetaGroup) : Nat := 64 * (2 + g.nodes.length)

/-- A group is written to its stack's log. -/
def logGroup (g : MetaGroup) (s : State) : State :=
  s.modPkg fun p => { p with
    metaLog := p.metaLog.filter (fun e => e.chunk ≠ g.chunk) ++ [g], metaHead := p.metaHead.set 0 (stackOf g.chunk) (g.pos + g.size) }

/-- The ring of a stack's metadata log has room for a group behind those that are not yet in place. -/
def logRoom (s : State) (g : MetaGroup) : Bool :=
  decide (((s.pkg.metaLog.filter fun e => stackOf e.chunk = stackOf g.chunk && e.chunk ≠ g.chunk).map MetaGroup.size).sum + g.size ≤ 262144)

/-- A node of HBM4 takes the counter, and the MAC, of the node that was raised; one that has gone further keeps what it has. -/
def TreeNode.take (t new : TreeNode) (i : Nat) : TreeNode :=
  { ctrs := t.ctrs.set 0 i (if t.ctrs.get 0 i < new.ctrs.get 0 i then new.ctrs.get 0 i else t.ctrs.get 0 i), par := max t.par new.par }

/-- A committed group goes in place: its block and nodes are in HBM4, and the root on the service die is updated. -/
def applyGroup (g : MetaGroup) (s : State) : State :=
  let o := s.ownerOf (g.chunk / 256)
  s.modPkg fun p =>
    let tree := g.nodes.foldl (fun (t : SMap TreeNode) x => t.set {} x.1 ((t.get {} x.1).take x.2.2 x.2.1)) p.tree
    let root := match g.nodes.getLast? with | some x => tree.get {} x.1 | none => {}
    { p with
      ctrDur := p.ctrDur.set {} g.chunk g.blk
      metaLog := p.metaLog.filter fun e => e.chunk ≠ g.chunk
      tree := tree
      roots := p.roots.set {} o root }

/-- Commits a metadata group with the given counter block: it is logged, committed and put in place. -/
def commitGroup (ch : Nat) (blk : CtrBlock) (s : State) : State :=
  let (s, g) := formGroup ch blk s
  applyGroup g (logGroup { g with committed := true } s)

/-- Commits a chunk's metadata group as the metadata cache holds it. -/
def commitChunk (ch : Nat) (s : State) : State :=
  (commitGroup ch (s.ctr ch) s).modPkg fun p => { p with metaDirty := p.metaDirty.filter (· ≠ ch) }

/-- A block or node leaves a metadata cache: what is dirty beneath it is in HBM4 first, and its parents' counters go up with it (R98). -/
def evictNode (st key : Nat) (s : State) : State :=
  let s := foldS (s.pkg.metaDirty.filter fun ch => nodeKey (s.ownerOf (ch / 256)) 0 ch = key || (s.nodesOf ch).any fun x => x.1 = key) commitChunk s
  s.modPkg fun p => { p with metaCache := p.metaCache.set [] st ((p.metaCache.get [] st).filter fun e => e.1 ≠ key) }

/-- Puts nodes into a metadata cache of 16,384; where it is full those of the lowest key leave (log 83). -/
def holdNodes (st : Nat) (ns : List (Nat × TreeNode)) (s : State) : State :=
  let s := s.modPkg fun p => { p with
    metaCache := p.metaCache.set [] st (ns.foldl (fun (m : SMap TreeNode) n => m.put n.1 n.2) (p.metaCache.get [] st)) }
  let c := s.pkg.metaCache.get [] st
  if c.length ≤ 16384 then s else foldS ((c.take (c.length - 16384)).map Prod.fst) (evictNode st) s

/-- How many chunks a node covers, where its MAC fails against its parent's counter: the path is checked up to the first node held
verified, or to the root (R97). -/
def pathFails (s : State) (st : Nat) : Nat → Nat → List (Nat × Nat) → Option Nat
  | _, _, [] => none
  | n, par, (k, i) :: r =>
    if ((s.node st k).ctrs.get 0 i).toNat ≠ par then some n
    else if s.held st k then none
    else pathFails s st (if n = 64 then 256 else n * 8) (s.node st k).par r

/-- Verifies a chunk's counter block and the nodes on its path, which the metadata cache then holds; a node that fails poisons what it
covers (R97, R102). -/
def fetchMeta (ch : Nat) (s : State) : State × Bool :=
  let st := stackOf ch
  let o := s.ownerOf (ch / 256)
  let key := nodeKey o 0 ch
  if s.held st key then (s, true)
  else
    let path := s.nodesOf ch
    match pathFails s st 1 (s.ctr ch).par path with
    | none => (holdNodes st ((key, {}) :: path.map fun x => (x.1, s.node st x.1)) s, true)
    | some n =>
      let first := ((s.orderOf o).findIdx fun g => g = ch / 256) * 256 + ch % 256
      (s.post s.now (.containment (.ownerTree o (first / n * n) n)), false)

/-- Step 4 of a write-back (R98): the MAC of the counter block, and the counters of the nodes above it that the metadata cache holds,
below the root. -/
def touchPath (ch : Nat) (s : State) : State :=
  let st := stackOf ch
  let path := (s.nodesOf ch).dropLast.takeWhile fun x => s.held st x.1
  if path.isEmpty then s
  else
    let blk := { s.ctr ch with par := nextPar s st path 0 }
    (putNodes (raisePath s st path) s).modPkg fun p => { p with ctr := p.ctr.set {} ch blk }

/-! ## Keys (R92, R99) -/

/-- The chunks of an owner's granules that have a counter block. -/
def ownerChunks (s : State) (o : Nat) : List Nat := (s.pkg.ctr.filter fun e => s.ownerOf (e.1 / 256) = o).map Prod.fst

/-- A new key for an owner (R92, R99). -/
def drawKey (o : Nat) (s : State) : State :=
  let s := s.modSvc fun v => { v with draws := v.draws + 1 }
  let n := s.svc.draws
  if winOf o ≠ 0 then s.modPkg fun p => { p with wins := p.wins.put (winOf o) { (p.wins.find? (winOf o)).getD {} with key := n } }
  else if o ≤ 511 then s.modFn o fun f => { f with key := n }
  else if o = 0x3FF then s.modSvc fun v => { v with svcKey := n }
  else s

/-- Every line of a chunk is encrypted afresh under a new key, from major counter 0; a line that does not verify stays poisoned. -/
def rekeyChunk (ch : Nat) (s : State) : State :=
  let top := max (s.pkg.ctrTop.get 0 ch) (s.ctr ch).major
  let s := foldS (List.range 64) (fun j s => s.setMeta (ch * 64 + j) { minor := 0, poison := !s.verifies (ch * 64 + j) }) s
  commitChunk ch (s.modPkg fun p => { p with ctr := p.ctr.put ch {}, ctrTop := p.ctrTop.set 0 ch top })

/-- A new key for an owner, under which its granules are encrypted. -/
def rekeyOwner (o : Nat) (s : State) : State := foldS (ownerChunks s o) rekeyChunk (drawKey o s)

/-- The largest major counter of a key (R99). -/
def majorMax : Nat := 2 ^ 55 - 1

/-! ## Write-back (R98, R99, R101) -/

/-- A chunk whose minor counter is at 127 moves to its next major counter: its lines are encrypted afresh, one that does not verify is left
poisoned, and the group that holds the new counter commits first (R99; 13 R262). The largest major counter asks for a new key; a chunk that
would pass it takes one at once. -/
def nextMajor (ch : Nat) (s : State) : State :=
  let b := s.ctr ch
  if majorMax ≤ b.major then rekeyOwner (s.ownerOf (ch / 256)) s
  else
    let s := foldS (List.range 64) (fun j s =>
      s.setMeta (ch * 64 + j) { minor := 0, poison := !s.verifies (ch * 64 + j) }) s
    let s := commitChunk ch (s.modPkg fun p => { p with ctr := p.ctr.set {} ch { b with major := b.major + 1, minors := [] } })
    if b.major + 1 = majorMax then s.post s.now (.rekey (s.ownerOf (ch / 256))) else s

/-- A new counter for one line of a chunk (R98 step 2), with its counter block's MAC and path (step 4). -/
def bumpCounter (la : Nat) (s : State) : State :=
  let ch := la / 64
  let s := if (s.ctr ch).minors.get 0 (la % 64) = 127 then nextMajor ch s
    else
      let b := s.ctr ch
      s.modPkg fun p => { p with ctr := p.ctr.set {} ch { b with minors := b.minors.set 0 (la % 64) (b.minors.get 0 (la % 64) + 1) } }
  touchPath ch ((s.setMeta la { minor := (s.ctr ch).minors.get 0 (la % 64) }).dirtyMeta ch)

/-! ## The undo log (13 R264, R265, R267, R269) -/

/-- Fields of ULC (Table 13.1). -/
def Ctx.span (c : Ctx) : Bool := c.ulc.getLsbD 0
def Ctx.recv (c : Ctx) : Bool := c.ulc.getLsbD 1
def Ctx.full (c : Ctx) : Nat := fld 3 2 c.ulc.toNat
def Ctx.ring' (c : Ctx) : Nat := 2 ^ fld 12 8 c.ulc.toNat
def Ctx.bsel (c : Ctx) : Bool := c.rps.getLsbD 1

/-- The bytes of the record at log position `p`. -/
def Ctx.recAt (c : Ctx) (p n : Nat) : List Byte := (List.range n).map fun i => c.log.get 0 ((p + i) % c.ring')

/-- Where a log position stands in the granules of the log (R264). -/
def Ctx.logPa (c : Ctx) (p : Nat) : Option Nat := (c.logGr[p % c.ring' / 2 ^ 21]?).map fun g => g * 2 ^ 21 + p % c.ring' % 2 ^ 21

/-- The appender writes a line of the ring to HBM4 (R267), under the function's key and a new counter as every line is. -/
def writeLogLine (a i : Nat) (s : State) : State :=
  let c := s.ctx a
  match c.logPa (128 * i) with
  | none => s
  | some pa => (bumpCounter (pa / 128) (fetchMeta (pa / 8192) s).1).putRaw (pa / 128 * 128) (c.recAt (128 * i) 128)

/-- The appender writes the ring lines from ULD up to a position, in order; with the metadata of each they are acknowledged, and ULD stands there (R269). -/
def ackLog (a n : Nat) (s : State) : State :=
  let c := s.ctx a
  let ls := if c.logGr.isEmpty || decide (n ≤ c.uld) then [] else (List.range ((n - 1) / 128 - c.uld / 128 + 1)).map (c.uld / 128 + ·)
  let s := foldS ls (writeLogLine a) s
  let s := foldS ((ls.filterMap fun i => (c.logPa (128 * i)).map (· / 8192)).eraseDups) commitChunk s
  s.modCtx a fun c => { c with uld := n }

/-- ForceLog (R269): every record is in HBM4. -/
def forceLog (a : Nat) (s : State) : State := ackLog a (s.ctx a).rph s

/-! ## Write-back of a line (R98) -/

/-- Writes a dirty L2 line back to HBM4 (R98): the log is durable past the line's tag first (13 R269). -/
def writeBackLine (la : Nat) (s : State) : State :=
  match s.pkg.l2.find? la with
  | none => s
  | some l =>
    if !l.dirty then s
    else
      let s := match l.tag with
        | some (a, pos) => if (s.ctx a).uld < pos then forceLog a s else s
        | none => s
      let s := (bumpCounter la (fetchMeta (la / 64) s).1).putRaw (la * 128) (bytesOfLine l.data)
      s.modPkg fun p => { p with l2 := p.l2.put la { l with dirty := false, tag := none } }

/-- Puts a line into its home bank, where ways 0 to 11 of its set are taken evicting the least recently used line there that is not pinned (05 R106). DESIGN CHOICE (log 82): of
lines last used in the same lift cycle the one of the lowest address, for which the spec gives no order. -/
def installL2 (la : Nat) (d : Line) (s : State) : State :=
  let b := s.homeBank la
  let set := s.pkg.l2.filter fun e => e.2.bank = b && e.1 % 128 = la % 128
  let s :=
    if set.length < 12 then s
    else
      match (set.filter fun e => e.2.pins = 0).foldl (fun (a : Option (Nat × L2Line)) e =>
          match a with
          | none => some e
          | some x => if e.2.used < x.2.used then some e else some x) none with
      | some v =>
        let s := writeBackLine v.1 s
        s.modPkg fun p => { p with l2 := p.l2.del v.1 }
      | none => s
  s.modPkg fun p => { p with l2 := p.l2.put la { bank := b, data := d, used := s.now } }

/-- The function or window members whose ERRU a poisoned line's error counts against (R101). -/
def errOwners (s : State) (o : Nat) : List Nat :=
  if winOf o ≠ 0 then ((s.pkg.wins.find? (winOf o)).getD {}).members.map Prod.fst else if o ≤ 511 then [o] else []

/-- Counts an uncorrectable error against the owner of a line. -/
def countErru (la : Nat) (s : State) : State :=
  foldS (errOwners s (s.ownerOf (la / 16384))) (fun f s => s.modFn f fun x => { x with erru := min (x.erru + 1) (2 ^ 64 - 1) }) s

/-- A fill from HBM4 (R97, R101): the line is installed if it verifies, with the ECC's help of one reread, and is else
poisoned, and its error counted and classified once (20 R392). The answer says whether it was installed. -/
def fillLine (la : Nat) (macOk rereadOk : Bool) (s : State) : State × Bool :=
  match s.pkg.l2.find? la with
  | some _ => (s, true)
  | none =>
    match fetchMeta (la / 64) s with
    | (s, false) => (s.setMeta la { s.lineMeta la with poison := true }, false)
    | (s, true) =>
      if (macOk || rereadOk) && s.verifies la then
        (installL2 la (lineOfBytes (s.rawBytes (la * 128) 128)) s, true)
      else if (s.lineMeta la).poison then (s, false)
      else ((countErru la (s.setMeta la { s.lineMeta la with poison := true })).post s.now (.uncorrData 0 (.hbmLine la)), false)

/-! ## Records of the undo log (13 R265 to R267, R270) -/

/-- The header of a LINE record (Table 13.3), with its payload. -/
def lineRec (c : Ctx) (first eng : Bool) (core la vline : Nat) (old : Line) : List Byte :=
  leBytes 64 (1 + first.toNat * 16 + core * 256 + eng.toNat * 2 ^ 17 + fld 31 0 c.ugn.toNat * 2 ^ 32 + la * 2 ^ 64 +
    vline * 2 ^ 128 + c.rpn * 2 ^ 192) ++ bytesOfLine old

/-- A HORIZON record. -/
def horizonRec (c : Ctx) (cause core addr : Nat) : List Byte :=
  leBytes 64 (3 + core * 256 + fld 31 0 c.ugn.toNat * 2 ^ 32 + cause * 2 ^ 64 + addr * 2 ^ 128)

/-- A GATE record. -/
def gateRec (c : Ctx) (core bidx n khash : Nat) : List Byte :=
  leBytes 64 (2 + core * 256 + fld 31 0 c.ugn.toNat * 2 ^ 32 + n * 2 ^ 64 + bidx * 2 ^ 96 + khash * 2 ^ 128 +
    c.rpc.toNat * 2 ^ 256)

/-- The kind of the record at a position. -/
def Ctx.kindAt (c : Ctx) (p : Nat) : Nat := ((c.recAt p 1).headD 0).toNat % 16

/-- The span tail (R270): the oldest retained GATE record. Before the first gate, a log that serves spans alone retains what it holds of
span 0 (log 40). -/
def Ctx.spanAt (c : Ctx) : Nat :=
  match (c.logIndex.filter fun r => c.spanTail ≤ r.1 && c.kindAt r.1 = 2).getLast? with
  | some r => r.1
  | none => if c.recv then c.rph else c.spanTail

/-- The tail, from the two tails that retain records (R270). -/
def Ctx.tail (c : Ctx) : Nat :=
  if c.span && c.recv then min c.spanAt c.recTail else if c.span then c.spanAt else if c.recv then c.recTail else c.rph

/-- Appends a record (R265, R267): its position is the old head. -/
def appendRec (a : Nat) (rec : List Byte) (s : State) : State :=
  s.modCtx a fun c =>
    let c := { c with
      log := (List.zip (List.range rec.length) rec).foldl
        (fun (m : SMap Byte) (e : Nat × Byte) => m.set 0 ((c.rph + e.1) % c.ring') e.2) c.log
      rph := c.rph + rec.length
      rpc := shake256w (leBytes 32 c.rpc.toNat ++ rec)
      logIndex := (c.rph, rec.length) :: c.logIndex }
    { c with ult := c.tail }

/-- What a full log does with an append of `n` bytes (R270): room as it stands or by WRAP, a held merge, or LOG_FULL. -/
inductive Room where
  | ok (c : Ctx)
  | held
  | trap
  deriving DecidableEq, Repr

/-- Moves the span tail to the next GATE record until `n` more bytes fit (WRAP). Without such a record before the head it is as TRAP; where the
recovery tail has become the older one, the append is held. -/
def wrapTail (n : Nat) : Nat → Ctx → Room
  | 0, _ => .trap
  | k + 1, c =>
    match (c.logIndex.filter fun r => c.spanAt < r.1 && c.kindAt r.1 = 2).getLast? with
    | none => .trap
    | some (p, _) =>
      let c := { c with spanTail := p, ult := if c.recv then min p c.recTail else p }
      if c.rph + n - c.ult ≤ c.ring' then .ok c else if c.recv ∧ c.recTail ≤ p then .held else wrapTail n k c

/-- Bytes that an append leaves for the HORIZON of the next seal of a log that serves recovery (log 89). -/
def Ctx.sealRoom (c : Ctx) : Nat := if c.recv then 64 else 0

/-- What the log does with an append that must leave `r` bytes free. -/
def roomWith (n r : Nat) (c : Ctx) : Room :=
  if c.rph + n + r - c.ult ≤ c.ring' then .ok c
  else if c.span && (!c.recv || c.spanAt < c.recTail) then
    match c.full with
    | 0 => wrapTail (n + r) c.logIndex.length c
    | 1 => .held
    | _ => .trap
  else .held

def roomFor (n : Nat) (c : Ctx) : Room := roomWith n c.sealRoom c

/-- The bytes of a record that is appended now. -/
def HeldRec.bytes (c : Ctx) : HeldRec → List Byte
  | .gate core bidx n khash => gateRec c core bidx n khash
  | .horizon cause core addr => horizonRec c cause core addr

/-- Appends a GATE or HORIZON record; a full log holds it behind those that it holds already (R270), in mode TRAP too, since what a HORIZON record stands
for is performed (R276). -/
def appendHeld (a : Nat) (r : HeldRec) (s : State) : State :=
  let hold := fun (s : State) => s.modCtx a fun c => { c with heldRecs := c.heldRecs ++ [r] }
  if !(s.ctx a).heldRecs.isEmpty then hold s
  else match roomFor 64 (s.ctx a) with
  | .ok c => appendRec a (r.bytes c) (s.modCtx a fun _ => c)
  | .held => (hold s).modCtx a fun c => { c with logHeld := true }
  | .trap => (hold s).modCtx a fun c => { c with logTrap := true }

/-- Space in a log has come free: what it held is appended, as far as there is room. -/
def freeHeld (a : Nat) (s : State) : State :=
  foldS (s.ctx a).heldRecs (appendHeld a) (s.modCtx a fun c => { c with heldRecs := [], logHeld := false })

/-- A full log would hold `n` records of 64 bytes of the context (R270): what they record waits. -/
def recsHeld (a n : Nat) (s : State) : Bool :=
  let c := s.ctx a
  (c.span || c.recv) && decide (0 < n) && roomFor (64 * n) c == .held

/-- Appends a HORIZON record for a context that logs (R276). -/
def horizon (a cause core addr : Nat) (s : State) : State :=
  let c := s.ctx a
  if !(c.span || c.recv) then s else appendHeld a (.horizon cause core addr) s

/-! ## Merges at the home bank (13 R268; 05 R106; 04 R101) -/

/-- How a merge ended. -/
inductive Merged where
  | done | poisoned | held | dropped
  deriving DecidableEq, Repr

/-- Applies the bytes of a request to a line that stands in L2. -/
def applyMerge (r : MergeReq) (l : L2Line) (s : State) : State :=
  let l' := { l with data := overlay l.data r.data r.mask, dirty := true, by_ := r.w.asid, used := s.now }
  s.modPkg fun p => { p with l2 := p.l2.put r.line l' }

/-- Forms the record of a merge by a logging context (R268); the answer says whether the merge goes on. -/
def recordMerge (r : MergeReq) (l : L2Line) (s : State) : State × Merged :=
  match r.w.asid with
  | none => (s, .done)
  | some a =>
    let c := s.ctx a
    if !(c.span || c.recv) || winOf (s.ownerOf (r.line / 16384)) ≠ 0 then (s, .done)
    else
      let bm := if c.bsel then c.bitmap1 else c.bitmap0
      let first := c.recv && !bm.contains r.line
      if !(c.span || first) then (s, .done)
      else
        match roomFor 192 c with
        | .held => (s.modCtx a fun c => { c with logHeld := true }, .held)
        | .trap => (s.modCtx a fun c => { c with logTrap := true }, .dropped)
        | .ok c =>
          let c := if first then
              if c.bsel then { c with bitmap1 := r.line :: c.bitmap1 } else { c with bitmap0 := r.line :: c.bitmap0 }
            else c
          let pos := c.rph + 192
          let s := appendRec a (lineRec c first r.w.eng r.w.core r.line r.w.vline l.data) (s.modCtx a fun _ => c)
          (s.modPkg fun p => { p with l2 := p.l2.put r.line { l with tag := some (a, pos) } }, .done)

/-- Performs one merge (R268): a line that the bytes do not cover is filled first; a poisoned one refuses them (04 R101). -/
def mergeNow (r : MergeReq) (s : State) : State × Merged :=
  let (s, ok) :=
    if r.mask = fullMask ∧ s.pkg.l2.find? r.line = none ∧ s.verifies r.line = false then
      (installL2 r.line (lineOfBytes (s.rawBytes (r.line * 128) 128)) s, true)
    else fillLine r.line true true s
  if !ok then (s, .poisoned)
  else
    match s.pkg.l2.find? r.line with
    | none => (s, .poisoned)
    | some l =>
      let (s, m) := recordMerge r l s
      if m = .done then (applyMerge r ((s.pkg.l2.find? r.line).getD l) s, .done) else (s, m)

/-- Puts a request at the end of its home bank's queue. -/
def enqueueMerge (r : MergeReq) (s : State) : State :=
  let b := s.homeBank r.line
  s.modPkg fun p => { p with mergeQ := p.mergeQ.set [] b (p.mergeQ.get [] b ++ [r]) }

/-- Reports a drained store that met a poisoned line and was discarded; the fill has counted an error that was not known before (04 R101). -/
def reportPoison (r : MergeReq) (was : Bool) (s : State) : State :=
  let rep : Report := { what := "UNCORR_DATA", fn := (errOwners s (s.ownerOf (r.line / 16384))).head?, addr := r.line * 128 }
  (if was then countErru r.line s else s).modSvc fun v => { v with reports := v.reports ++ [rep] }

/-- Merges requests of a bank in order, the first one only or all that can be; what stays is what a full log holds, and behind it the requests for
the same line and of the same context (R270). -/
def mergeScan (one : Bool) : List MergeReq → List MergeReq → State → State × List MergeReq
  | kept, [], s => (s, kept)
  | kept, r :: rest, s =>
    if kept.any fun q => q.line = r.line || (r.w.asid.isSome && q.w.asid = r.w.asid) then mergeScan one (kept ++ [r]) rest s
    else
      let was := (s.lineMeta r.line).poison
      match mergeNow r s with
      | (s, .held) => mergeScan one (kept ++ [r]) rest s
      | (s, m) =>
        let s := if m = .poisoned then reportPoison r was s else s
        if one then (s, kept ++ rest) else mergeScan one kept rest s

/-- Merges the oldest request of a bank that no full log holds. -/
def mergeOldest (b : Nat) (s : State) : State :=
  match s.pkg.mergeQ.get [] b with
  | [] => s
  | q =>
    let (s, q) := mergeScan true [] q s
    s.modPkg fun p => { p with mergeQ := p.mergeQ.set [] b q }

/-- Merges every request of a bank that no full log holds. -/
def mergeBank (b : Nat) (s : State) : State :=
  match s.pkg.mergeQ.get [] b with
  | [] => s
  | q =>
    let (s, q) := mergeScan false [] q s
    s.modPkg fun p => { p with mergeQ := p.mergeQ.set [] b q }

/-- Merges every request of every bank. -/
def mergeAll (s : State) : State := foldS (s.pkg.mergeQ.map Prod.fst) mergeBank s

/-- Reads a line at its home bank, after every earlier request to it (05 R106), one that a full log holds included; none
when the line is poisoned. -/
def homeLine (la : Nat) (s : State) : State × Option Line :=
  let s := mergeBank (s.homeBank la) s
  let (s, ok) := fillLine la true true s
  if ok then
    match s.pkg.l2.find? la with
    | some l =>
      let l' := { l with used := s.now }
      (s.modPkg fun p => { p with l2 := p.l2.put la l' },
       some ((s.pkg.mergeQ.get [] (s.homeBank la)).foldl (fun d r => if r.line = la then overlay d r.data r.mask else d) l.data))
    | none => (s, none)
  else (s, none)

/-- Merges bytes at a line's home bank, after the requests that stand before them; false when the line is poisoned and the
bytes do not replace the whole of it. -/
def homeWrite (w : Writer) (pa : Nat) (bs : List Byte) (s : State) : State × Bool :=
  let la := lineOf pa
  let s := mergeBank (s.homeBank la) s
  if bs.length < 128 ∧ s.pkg.l2.find? la = none ∧ s.verifies la = false then ((fillLine la true true s).1, false)
  else
    let r : MergeReq := { line := la, data := lineAt (pa % 128) bs, mask := maskAt (pa % 128) bs.length, w := w }
    (mergeBank (s.homeBank la) (enqueueMerge r s), true)

/-- Splits `n` bytes at `pa` into pieces that each lie in one line: address, offset in the bytes, length. -/
def linePieces : Nat → Nat → Nat → Nat → List (Nat × Nat × Nat)
  | 0, _, _, _ => []
  | fuel + 1, pa, o, n =>
    if n = 0 then []
    else
      let k := min n (128 - pa % 128)
      (pa, o, k) :: linePieces fuel (pa + k) (o + k) (n - k)

/-- Bytes of any physical space as an observer outside the cores reads them; none where a line is poisoned. -/
def physRead (pa n : Nat) (s : State) : State × Option (List Byte) :=
  if isHbm pa then
    (linePieces (n / 128 + 2) pa 0 n).foldl (fun (acc : State × Option (List Byte)) p =>
      let (s, l) := homeLine (lineOf p.1) acc.1
      (s, match acc.2, l with | some bs, some l => some (bs ++ lineBytes l (p.1 % 128) p.2.2) | _, _ => none)) (s, some [])
  else (s, some (s.rawBytes pa n))

/-- Writes bytes of any physical space for a writer; the answer is false where a line is poisoned. -/
def physWrite (w : Writer) (pa : Nat) (bs : List Byte) (s : State) : State × Bool :=
  if isHbm pa then
    (linePieces (bs.length / 128 + 2) pa 0 bs.length).foldl (fun (acc : State × Bool) p =>
      let (s, ok) := homeWrite { w with vline := w.vline + (lineOf p.1 - lineOf pa) } p.1 ((bs.drop p.2.1).take p.2.2) acc.1
      (s, acc.2 && ok)) (s, true)
  else (s.putRaw pa bs, true)

/-! ## Granules (04 R74, R88) -/

/-- Bytes of a page by SZ. -/
def pageBytes (sz : Nat) : Nat := match sz with | 0 => 2 ^ 16 | 1 => 2 ^ 21 | _ => 2 ^ 30

/-- The translation that a leaf gives. -/
def tlbOf (asid va pte e : Nat) : TlbEntry :=
  let n := pageBytes (fld 3 2 e)
  { asid := asid, vpn := va / n * n / 65536, size := n, frame := fld 51 16 e, rd := bitOf 4 e, w := bitOf 5 e,
    x := bitOf 6 e, d := bitOf 11 e, widx := fld 61 54 e, pte := pte }

/-- Bytes that an entry of a level translates. -/
def levelBytes (level : Nat) : Nat := 2 ^ (16 + 10 * level)

/-- The translations that the valid entries of a walk-cache line give; for a table pointer the addresses under it, with no frame. -/
def walkEntries (l : WalkLine) : List TlbEntry :=
  l.users.flatMap fun u => (List.range 16).filterMap fun i =>
    let e := leNat (lineBytes l.data (8 * i) 8)
    let va := u.2.2 + i * levelBytes u.2.1
    if !bitOf 0 e then none
    else if bitOf 1 e then some { asid := u.1, vpn := va / 65536, size := levelBytes u.2.1, frame := 2 ^ 52, rd := false, w := false, x := false, d := false, widx := 0, pte := l.line * 128 + 8 * i }
    else some (tlbOf u.1 va (l.line * 128 + 8 * i) e)

/-- Removes every translation that meets a test from all TLBs, and from the walk caches the lines that hold such an entry. -/
def dropTlb (t : TlbEntry → Bool) (s : State) : State :=
  let s := foldS (s.cores.map Prod.fst) (fun k s => s.modCore k fun c => { c with tlb := c.tlb.filter fun e => !t e }) s
  s.modPkg fun p => { p with
    rtlb := p.rtlb.map fun e => (e.1, e.2.filter fun x => !t x)
    walk := p.walk.map fun e => (e.1, e.2.filter fun l => !(walkEntries l).any t) }

/-- Forgets every copy of a granule's lines, without writing them back. -/
def dropLines (g : Nat) (s : State) : State :=
  let s := s.modPkg fun p => { p with
    l2 := p.l2.filter fun e => e.1 / 16384 ≠ g
    meta_ := p.meta_.filter fun e => e.1 / 16384 ≠ g
    metaDirty := p.metaDirty.filter fun ch => ch / 256 ≠ g
    metaLog := p.metaLog.filter fun e => e.chunk / 256 ≠ g
    walk := p.walk.map fun w => (w.1, w.2.filter fun l => l.line / 16384 ≠ g)
    mergeQ := p.mergeQ.filterMap fun q => match q.2.filter fun r => r.line / 16384 ≠ g with | [] => none | l => some (q.1, l) }
  foldS (s.cores.map Prod.fst) (fun k s => s.modCore k fun c => { c with
    cache := c.cache.filter fun l => l.line / 16384 ≠ g
    dfifo := c.dfifo.filter fun e => match e with | .line l _ => l / 16384 ≠ g | .bytes l _ _ _ => l / 16384 ≠ g | _ => true }) s

/-- The Fjoset cores form an owner's upper tree anew over the granules that it holds (R96): what is dirty is in HBM4 first, the nodes within granules
stay as they are, and the new nodes' counters lie above those that the old ones were covered by. -/
def formUpper (o : Nat) (s : State) : State :=
  let s := foldS (s.pkg.metaDirty.filter fun ch => s.ownerOf (ch / 256) = o) commitChunk s
  let order := s.orderOf o
  let n := upperLevels order.length
  let upper := fun (k : Nat) => k / 2 ^ 40 = o && decide (4 ≤ k / 2 ^ 36 % 16)
  let fresh := (s.pkg.tree.filter fun e => upper e.1).foldl (fun m e => max m e.2.par) 0 + 1
  let parOf := fun (j c : Nat) => if j = 0 then (match order[c]? with | some g => (s.node 16 (nodeKey o 3 g)).par | none => 0)
    else if c * 8 ^ j < order.length then fresh else 0
  let node := fun (j i : Nat) => ({
    ctrs := (List.range 8).foldl (fun (m : SMap (BitVec 56)) x => m.set 0 x (BitVec.ofNat 56 (parOf j (8 * i + x)))) []
    par := if j + 1 = n then 0 else fresh } : TreeNode)
  let new := (List.range n).flatMap fun j => (List.range (ceilDiv order.length (8 ^ (j + 1)))).map fun i => (nodeKey o (4 + j) i, node j i)
  s.modPkg fun p =>
    let tree := new.foldl (fun (t : SMap TreeNode) x => t.set {} x.1 x.2) (p.tree.filter fun e => !upper e.1)
    let top := match n, order with
      | 0, g :: _ => nodeKey o 3 g
      | 0, [] => 0
      | m + 1, _ => nodeKey o (4 + m) 0
    { p with
      tree := tree
      metaCache := p.metaCache.map fun (c : Nat × SMap TreeNode) => (c.1, c.2.filter fun e => !upper e.1)
      roots := p.roots.set {} o (tree.get {} top) }

/-- A granule takes an owner, counters above every used value, and lines that read as zero (R74). -/
def zeroGranule (g owner : Nat) (s : State) : State :=
  let s := dropLines g s
  let ch0 := g * 256
  let most := fun (l : List (Nat × Nat)) (n : Nat) => (l.filter fun e => e.1 / 256 = g).foldl (fun m e => max m e.2) n
  let top := most s.pkg.ctrTop (most (s.pkg.ctrDur.map fun e => (e.1, e.2.major)) (most (s.pkg.ctr.map fun e => (e.1, e.2.major)) 0)) + 1
  let blk : CtrBlock := { major := top }
  { s with mem := s.mem.filter fun c => c.1 / 2 ^ 21 ≠ g }.modPkg fun p =>
    { p with
      owners := p.owners.set (ownerDefault g) g (BitVec.ofNat 16 owner)
      ctr := (List.range 256).foldl (fun m j => m.put (ch0 + j) blk) (p.ctr.filter fun e => e.1 / 256 ≠ g)
      ctrDur := (List.range 256).foldl (fun m j => m.put (ch0 + j) blk) (p.ctrDur.filter fun e => e.1 / 256 ≠ g) }

/-- Hands a granule to an owner (R74). It is the last of the owner's granules, for which the upper tree grows where it has no slot left (R96). -/
def assignGranule (g owner : Nat) (s : State) : State :=
  let n := (s.orderOf owner).length
  let s := (zeroGranule g owner s).modPkg fun p => { p with treeOrder := p.treeOrder.set [] owner (p.treeOrder.get [] owner ++ [g]) }
  if upperLevels n = upperLevels (n + 1) then s else formUpper owner s

/-- Forgets the counter tree of an owner that holds no granule. -/
def dropTree (o : Nat) (s : State) : State :=
  if s.pkg.treeOrder.get [] o ≠ [] then s
  else
    let ours := fun (k : Nat) => k / 2 ^ 40 = o
    s.modPkg fun p => { p with
      tree := p.tree.filter fun e => !ours e.1
      metaCache := p.metaCache.filterMap fun c => match c.2.filter fun e => !ours e.1 with | [] => none | l => some (c.1, l)
      roots := p.roots.del o }

/-- Releases a granule to free, after invalidating every translation that names it; its owner's granules close up in their order (R96). -/
def releaseGranule (g : Nat) (s : State) : State :=
  let o := s.ownerOf g
  let s := dropLines g (dropTlb (fun e => e.frame * 65536 / 2 ^ 21 ≤ g ∧ g ≤ (e.frame * 65536 + e.size - 1) / 2 ^ 21) s)
  let inner := fun (k : Nat) =>
    let lv := k / 2 ^ 36 % 16
    decide (lv ≤ 3) && k % 2 ^ 36 / (match lv with | 0 => 256 | 1 => 32 | 2 => 4 | _ => 1) = g
  let s := s.modPkg fun p => { p with
    owners := p.owners.set (ownerDefault g) g 0x3FE
    treeBad := p.treeBad.filter (· ≠ g)
    tree := p.tree.filter fun e => !inner e.1
    metaCache := p.metaCache.filterMap fun c => match c.2.filter fun e => !inner e.1 with | [] => none | l => some (c.1, l)
    treeOrder := p.treeOrder.set [] o ((p.treeOrder.get [] o).filter (· ≠ g)) }
  if (s.pkg.treeOrder.get [] o).isEmpty then dropTree o s else formUpper o s

/-- The lowest `n` free granules of the data regions, if so many are free. -/
def freeGranules (s : State) (n : Nat) : Option (List Nat) :=
  let used := s.pkg.owners
  let rec go : Nat → Nat → Nat → List Nat → Option (List Nat)
    | 0, _, need, acc => if need = 0 then some acc.reverse else none
    | fuel + 1, g, need, acc =>
      if need = 0 then some acc.reverse
      else if 2 ^ 19 ≤ g then none
      else if inCache g then go fuel (cacheGran + 2048) need acc
      else if granOk g && used.find? g = none && !s.svc.retired.contains g && !inMetaLog g then go fuel (g + 1) (need - 1) (g :: acc)
      else if granOk g then go fuel (g + 1) need acc
      else go fuel ((g / 2 ^ 15 + 1) * 2 ^ 15) need acc
  go (n + used.length + s.svc.retired.length + 38) 0 n []

/-! ## What HBM4 holds (04 R94 to R96): views of the stored line -/

/-- The AES-256 key of an owner's key slot, by the draw that it is (log 8); draws count from 1. -/
def State.keyOf (s : State) (o : Nat) : List (List Nat) :=
  let d := if winOf o ≠ 0 then ((s.pkg.wins.find? (winOf o)).getD {}).key else if o ≤ 511 then (s.fn o).key else if o = 0x3FF then s.svc.svcKey else 0
  aesKeys ((leBytes 32 (Config.drbgKey d).toNat).map (·.toNat))

/-- Counter block CBk (Table 4.9). -/
def ctrBlockVal (o la major minor k : Nat) : Nat :=
  2 ^ 127 + o * 2 ^ 117 + la * 2 ^ 74 + major * 2 ^ 10 + minor * 2 ^ 3 + k

/-- The IV of a line's MAC (R95). -/
def macIv (la major minor : Nat) : Nat := la * 2 ^ 62 + major % 2 ^ 55 * 2 ^ 7 + minor

/-- The ciphertext of a line as it stands in HBM4 (R94). -/
def State.cipherLine (s : State) (la : Nat) : List Nat :=
  let o := s.ownerOf (la / 16384)
  let ks := s.keyOf o
  let stream := (List.range 8).flatMap fun k =>
    aesBlock ks (beBytes 16 (ctrBlockVal o la (s.ctr (la / 64)).major (s.lineMeta la).minor.toNat k))
  List.zipWith (fun p x => p.toNat ^^^ x) (s.rawBytes (la * 128) 128) stream

/-- The MAC of a line as it stands in HBM4 (R95). -/
def State.macLine (s : State) (la : Nat) : Nat :=
  gmac (s.keyOf (s.ownerOf (la / 16384))) (macIv la (s.ctr (la / 64)).major (s.lineMeta la).minor.toNat)
    (s.cipherLine la) >>> 64

/-- The bytes of a counter block (R93). -/
def CtrBlock.bytes (b : CtrBlock) : List Byte :=
  leBytes 64 (b.major + (List.range 64).foldl (fun n j => n + (b.minors.get 0 j).toNat * 2 ^ (64 + 7 * j)) 0)

/-- The counters of a node, bits 447:0 (R96). -/
def TreeNode.counters (t : TreeNode) : Nat := (List.range 8).foldl (fun n i => n + (t.ctrs.get 0 i).toNat * 2 ^ (56 * i)) 0

/-- The MAC of a counter block or node of an owner, over its bytes: the IV is formed from its address and its counter in its parent (R96). -/
def State.metaMac (s : State) (o key par : Nat) (bs : List Byte) : Nat :=
  gmac (s.keyOf o) (Config.metaIv (Config.metaAddr key) par).toNat (bs.map (·.toNat)) >>> 64

/-- The MAC of a chunk's counter block as it stands in HBM4. -/
def State.blockMac (s : State) (ch : Nat) : Nat :=
  let o := s.ownerOf (ch / 256)
  let b := s.pkg.ctrDur.get {} ch
  s.metaMac o (nodeKey o 0 ch) b.par b.bytes

/-- A node as it stands in HBM4: its counters and its MAC in bits 511:448. -/
def State.nodeImage (s : State) (o key : Nat) : Nat :=
  let t := s.pkg.tree.get {} key
  t.counters + s.metaMac o key t.par (leBytes 56 t.counters) * 2 ^ 448

end Sys2Proof.Machine
end

