-- ==== Sys2Proof/Machine/Ring.lean ====
section
/-!
DEFINITION. The lift ring (spec/05_l2_lift_ring.md R111 to R116): stations, chair positions, which of them a partition may
load, and the requests that ride it: memory results between a core and its banks, and flag deliveries between cores.
-/
namespace Sys2Proof.Machine

/-! ## Stations and chair tables (R111 to R114) -/

/-- Station numbers (Table 5.3): a core's region station, the quad station of a bank, an HBM controller's and a bridge's. -/
def regionStation (k : Nat) : Nat := let g := regionOf k % 16; 10 * (g / 4) + 2 * (g % 4)
def quadStation (b : Nat) : Nat := let g := b / 32 % 16; 10 * (g / 4) + 2 * (g % 4) + 1
def hbmStation (h : Nat) : Nat := 10 * h + 8
def bridgeStation (h : Nat) : Nat := 10 * h + 9

/-- An entry of a chair table in force (R112, R113; log 13). -/
def State.chair (s : State) (die table pos : Nat) : Nat :=
  if !s.pkg.chairDies.contains die then 0x80
  else
    let e := (s.pkg.chairs.get 0 ((die * 10 + table) * 2048 + pos)).toNat
    if e = 0 ∧ 2016 ≤ pos then 0x80 else e

/-- A partition may load a position (R112, R114); the Fjoset cores' own traffic loads service positions. -/
def chairOk (s : State) (part : Option Nat) (die table pos : Nat) : Bool :=
  let e := s.chair die table pos
  match e / 64, part with
  | 0, some p => !(s.part p).locked
  | 1, some p => e % 64 = p
  | 2, none => true
  | _, _ => false

/-- The chair that passes a station of a direction at lift cycle `t`: the same number all along its trip. Its position is that number modulo
2,048, from the die's frame origin; on a bridge the cycle itself (R112, R113). -/
def chairId (die table station t : Nat) (s : State) : Nat :=
  let u := t + 2048 - s.pkg.frame.get 0 die % 2048
  match table with | 0 => u + 2048 - station | 1 => u + station | _ => u

/-- A chair is empty where it passes a station: no load of it ends beyond there. -/
def chairEmpty (s : State) (die table station id : Nat) : Bool :=
  !(s.pkg.loads.any fun l => l.1 = die * 10 + table && l.2.1 = id && match table with
    | 0 => decide (l.2.2.1 ≤ station) && decide (station < l.2.2.2)
    | 1 => decide (station ≤ l.2.2.1) && decide (l.2.2.2 < station)
    | _ => true)

/-- Lift cycles from `t` until an empty position that a partition may load passes a station; none where no position is loadable. -/
def chairWait (s : State) (part : Option Nat) (die table station t : Nat) : Option Nat :=
  (List.range 2048).find? fun w =>
    let id := chairId die table station (t + w) s
    chairOk s part die table (id % 2048) && chairEmpty s die table station id

/-! ## Routes (R111, R115) -/

/-- The leg of a ring from one station to another, in the direction that its sign fixes. -/
def ringLeg (die a b after : Nat) (bank : Option Nat) : Leg := { die := die, table := if a < b then 0 else 1, from_ := a, to_ := b, after := after, bank := bank }

/-- The bridge of die `d` that joins die `e` (R113), and the leg over it. -/
def bridgeTo (d e : Nat) : Nat := (e + 7 - d) % 4
def bridgeLeg (d e : Nat) : Leg := { die := d, table := 2 + 2 * bridgeTo d e, from_ := 0, to_ := 0, after := 16 }

/-- The legs from a station of die `d` to a station of die `e`. -/
def legs (d a e b after : Nat) (bank : Option Nat) : List Leg :=
  if d = e then [ringLeg d a b after bank]
  else [ringLeg d a (bridgeStation (bridgeTo d e)) 0 none, bridgeLeg d e, ringLeg e (bridgeStation (bridgeTo e d)) b after bank]

/-- The way of a request from core `k` to a bank and of its data back: 20 lift cycles at the bank, 4 from the region station to the core. -/
def bankRoute (k b : Nat) : List Leg :=
  legs (dieOf k) (regionStation k) (b / 512) (quadStation b) 20 (some b) ++ legs (b / 512) (quadStation b) (dieOf k) (regionStation k) 4 none

/-- The way of a line's bytes from the controller of its stack to its home bank `b`, where L2 does not hold the line (04 R72). -/
def fillLegs (s : State) (la b after : Nat) (bank : Option Nat) : List Leg :=
  if (s.pkg.l2.find? la).isSome then []
  else legs (dieOfPa (la * 128)) (hbmStation (stackOfPa (la * 128) % 4)) (b / 512) (quadStation b) after bank

/-- The way of a request from core `k` for a line of HBM4, over its home bank, and of its bytes back; one that L2 does not hold rides on to the controller of
its stack first (04 R72). -/
def lineRoute (s : State) (k la : Nat) : List Leg :=
  let b := s.homeBank la
  match fillLegs s la b 20 (some b) with
  | [] => bankRoute k b
  | fill =>
    legs (dieOf k) (regionStation k) (b / 512) (quadStation b) 0 (some b) ++
      legs (b / 512) (quadStation b) (dieOfPa (la * 128)) (hbmStation (stackOfPa (la * 128) % 4)) 0 none ++ fill ++
      legs (b / 512) (quadStation b) (dieOf k) (regionStation k) 4 none

/-- The way of a flag delivery from core `k` to core `j` (14 R307). -/
def flagRoute (k j : Nat) : List Leg := legs (dieOf k) (regionStation k) (dieOf j) (regionStation j) 4 none

/-- The way of an engine's data from one station to another, as die and station (06 R125), and to a bank there. Die 4 is the service die, behind bridge 3 of each
die, with the links to the host and to peers. -/
def dataRoute (a b : Nat × Nat) (after : Nat) (bank : Option Nat) : List Leg :=
  if a = b then []
  else if 4 ≤ b.1 then [ringLeg a.1 a.2 (bridgeStation 3) 0 none, { die := a.1, table := 8, from_ := 0, to_ := 0, after := 16 }]
  else if 4 ≤ a.1 then [{ die := b.1, table := 9, from_ := 0, to_ := 0, after := 16 }, ringLeg b.1 (bridgeStation 3) b.2 after bank]
  else legs a.1 a.2 b.1 b.2 after bank

/-- The number of hops of a leg. -/
def Leg.hops (l : Leg) : Nat := (l.to_ - l.from_) + (l.from_ - l.to_)

/-- The lift cycle at which a request that is ready for its first leg at `t` has ridden every leg, where nothing else rides (R115); none where a
leg has no position for it. -/
def rideTime (s : State) (part : Option Nat) : List Leg → Nat → Option Nat
  | [], t => some t
  | l :: r, t => (chairWait s part l.die l.table l.from_ t).bind fun w => rideTime s part r (t + w + l.hops + l.after)

/-! ## Riding (R112) -/

/-- Puts a request at its region station, four lift cycles from now and `wait` more, for which its translation is not held. -/
def addRider (goal : Option Instr) (part core tag wait : Nat) (ls : List Leg) (s : State) : State :=
  s.modPkg fun p => { p with riders := p.riders ++ [{ tag := tag, goal := goal, part := some part, core := core, legs := ls, at_ := s.now + 4 + wait }] }

/-- Sends a request of core `k` for a line to its home bank, which the data or an acknowledgement answers (R115). Nothing is awaited by its number. -/
def sendLine (kind : RideKind) (asid k la : Nat) (s : State) : State :=
  s.modPkg fun p => { p with riders := p.riders ++ [{
    tag := 0, kind := kind, part := some (s.fn (s.fnOf asid)).part, core := k, legs := lineRoute s k la, at_ := s.now + 4 }] }

/-- Requests of a core of one kind are on their way. -/
def riding (kind : RideKind) (s : State) (k : Nat) : Bool := s.pkg.riders.any fun r => decide (r.kind = kind) && decide (r.core = k)

/-- A rider that stands at its first station, with room for `n` more bytes of the same data on the same way. -/
def Rider.takes (r : Rider) (tag at_ n : Nat) (ls : List Leg) : Bool :=
  r.tag = tag && r.at_ = at_ && !r.moving && decide (r.legs = ls) && decide (r.bytes + n ≤ 256)

/-- Puts `n` bytes of an engine's data at the station where they stand, after `wait` lift cycles for their translation: a chair carries up to 256 bytes from
one station to another (R112). Under tag 0 nothing rides. -/
def addData (part core tag n wait : Nat) (ls : List Leg) (s : State) : State :=
  if (ls.isEmpty && wait = 0) || tag = 0 then s
  else s.modPkg fun p => { p with riders := match p.riders.find? fun r => r.takes tag (s.now + wait) n ls with
    | some r => p.riders.map fun q => if q = r then { q with bytes := q.bytes + n } else q
    | none => p.riders ++ [{ tag := tag, goal := none, part := some part, core := core, legs := ls, at_ := s.now + wait, bytes := n }] }

/-- Nothing rides under a tag. -/
def arrived (s : State) (tag : Nat) : Bool := !(s.pkg.riders.any fun r => r.tag = tag)

/-- Delivers an event from core `k` to core `j`: 8 core cycles within a region, else by chairs (14 R307). -/
def sendEvent (part k j : Nat) (i : Instr) (s : State) : State :=
  if regionOf k = regionOf j then s.post (s.now + 16) i
  else (addRider (some i) part k s.pkg.nextTag 0 (flagRoute k j) s).modPkg fun p => { p with nextTag := p.nextTag + 1 }

/-- Lines that a load fetches over the ring: those of HBM4 that its core's cache does not hold, and all of them under .NC. -/
def loadLines (pol : Nat) (lanes : List LaneAcc) (c : Core) : List Nat :=
  ((lanes.filter fun l => isHbm l.pa && (pol = 2 || l.widx ≠ 0 || !(c.cache.any fun x => x.line = lineOf l.pa))).map fun l => lineOf l.pa).eraseDups

/-- A memory result has all that it waits for. -/
def MemReq.done (s : State) (m : MemReq) : Bool :=
  decide (m.ready ≤ s.cycle) && match m.tag with | none => false | some t => !(s.pkg.riders.any fun r => r.tag = t)

/-- The first memory result of a core's crews whose translations are held, and which has not asked for its lines. -/
def toSend (s : State) (g : Group) : Option (Nat × MemReq) :=
  g.crews.findSome? fun c => (c.mem.find? fun m => m.tag.isNone && decide (m.ready ≤ s.cycle)).map fun m => (c.ctx, m)

/-- Sends the requests of one memory result of a core onto the ring. -/
def sendReq (k : Nat) (s : State) : State :=
  match s.group k with
  | none => s
  | some g =>
    match toSend s g with
    | none => s
    | some (ctx, m) =>
      let n := s.pkg.nextTag
      let part := (s.fn (s.fnOf (s.asidOf g))).part
      let mark := fun (l : List MemReq) => l.map fun x => if x = m then { x with tag := some n } else x
      let s := (s.modCtxCrew k ctx fun c => { c with mem := mark c.mem }).modPkg fun p => { p with nextTag := n + 1 }
      foldS (loadLines m.pol.toNat m.lanes (s.core k)) (fun la s => addRider none part k n 0 (lineRoute s k la) s) s

/-- A ride ends its leg: it waits for the next from then on. Of two that reach one bank in one lift cycle, the clockwise one is served first
and the other a lift cycle later. -/
def unload (s : State) (r : Rider) : Rider :=
  match r.moving, r.legs with
  | true, l :: ls =>
    if s.now < r.at_ then r
    else
      let met := l.bank.isSome && decide (l.table = 1) && s.pkg.riders.any fun q => q.moving && decide (q.at_ = r.at_) && match q.legs with
        | m :: _ => decide (m.bank = l.bank) && decide (m.table = 0) && decide (m.die = l.die)
        | [] => false
      { r with moving := false, legs := ls, at_ := r.at_ + l.after + met.toNat }
  | _, _ => r

/-- The requests that stand ready at a station for a direction. -/
def waitingAt (s : State) (die table station : Nat) : List Rider :=
  s.pkg.riders.filter fun r => !r.moving && decide (r.at_ ≤ s.now) && match r.legs with
    | l :: _ => l.die = die && l.table = table && l.from_ = station
    | [] => false

/-- The oldest of some requests; between equally old ones that of the lower core number. -/
def oldest (l : List Rider) : Option Rider :=
  l.foldl (fun (b : Option Rider) r => match b with
    | some x => if r.at_ < x.at_ || (r.at_ = x.at_ && r.core < x.core) then some r else b
    | none => some r) none

/-- Whose request takes the chair that passes a station: its owner's, the Fjoset cores', or for an open position the next partition's in turn
after the one that loaded an open position there last. -/
def nextPart (s : State) (die table station : Nat) (ws : List Rider) : Option (Option Nat) :=
  let ps := (ws.map Rider.part).eraseDups.filter fun p => chairOk s p die table (chairId die table station s.now s % 2048)
  let turn := s.pkg.rr.get 0 ((die * 10 + table) * 40 + station)
  let dist : Option Nat → Nat := fun p => match p with | some p => (p + 64 - turn % 64) % 64 | none => 0
  ps.foldl (fun (b : Option (Option Nat)) p => match b with | some x => if dist p < dist x then some p else b | none => some p) none

/-- Loads the chair that passes a station of a direction, if it is empty and a request there may take it. -/
def loadAt (x : Nat × Nat × Nat) (s : State) : State :=
  let (die, table, station) := x
  let id := chairId die table station s.now s
  let ws := waitingAt s die table station
  if !chairEmpty s die table station id then s
  else
    match (nextPart s die table station ws).bind fun p => oldest (ws.filter fun r => r.part = p) with
    | none => s
    | some r =>
      match r.legs with
      | [] => s
      | l :: _ => s.modPkg fun p => { p with
          riders := p.riders.map fun q => if q = r then { q with moving := true, at_ := s.now + l.hops } else q
          loads := p.loads ++ [(die * 10 + table, id, l.from_, l.to_)]
          rr := match r.part with
            | some q => if s.chair die table (id % 2048) / 64 = 0 then p.rr.put ((die * 10 + table) * 40 + station) (q + 1) else p.rr
            | none => p.rr }

/-- The stations with requests that are ready. -/
def busyStations (s : State) : List (Nat × Nat × Nat) :=
  (s.pkg.riders.filterMap fun r => match r.legs with | l :: _ => if r.moving then none else some (l.die, l.table, l.from_) | [] => none).eraseDups

/-- One lift cycle of the rings: chairs are unloaded, rides that have ended do what they were for, and chairs are loaded. -/
def rideStep (s : State) : State :=
  let s := foldS (s.cores.map Prod.fst) sendReq s
  if s.pkg.riders.isEmpty then s
  else
    let s := s.modPkg fun p => { p with
      riders := p.riders.map (unload s)
      loads := p.loads.filter fun l => decide (s.now + (if l.1 % 10 = 0 then 4096 else 2048) ≤ l.2.1 + s.pkg.frame.get 0 (l.1 / 10) % 2048 + 40) }
    let ends := fun (r : Rider) => r.legs.isEmpty && decide (r.at_ ≤ s.now)
    let evs := (s.pkg.riders.filter ends).filterMap Rider.goal
    let s := s.modPkg fun p => { p with riders := p.riders.filter fun r => !ends r }
    let s := foldS evs (fun i s => s.post s.now i) s
    foldS (busyStations s) loadAt s

/-- Requests on a die's rings and bridges are lost with it (01 R18). -/
def dropRides (die : Nat) (s : State) : State :=
  s.modPkg fun p => { p with
    riders := p.riders.filter fun r => !(r.legs.any fun l => l.die = die)
    loads := p.loads.filter fun l => l.1 / 10 ≠ die
    rr := p.rr.filter fun e => e.1 / 400 ≠ die }

end Sys2Proof.Machine
end

