-- ==== Sys2Proof/Machine/Translate.lean ====
section
/-!
DEFINITION. Address translation (spec/04_hbm_translation_protection.md R75 to R90): page-table entries, walks with their
owner checks, the accessed and dirty bits, TLBs, and invalidation.
-/
namespace Sys2Proof.Machine

/-- Posts a report to the owner, which may name a context. -/
def report (what : String) (fn : Option Nat) (addr : Nat) (s : State) (asid : Option Nat := none) : State :=
  s.modSvc fun v => { v with reports := v.reports ++ [{ what := what, fn := fn, addr := addr, asid := asid }] }

/-! ## Entries (R77 to R81) -/

/-- A table pointer is in form and names a granule of owner 0 (R77, R79). -/
def tableOk (s : State) (level e : Nat) : Bool :=
  fld 63 52 e = 0 && fld 12 2 e = 0 && 1 ≤ level && isHbm (fld 51 13 e * 8192) && s.ownerOf (granOf (fld 51 13 e * 8192)) = 0

/-- A leaf is in form (R79). -/
def leafOk (level e : Nat) : Bool :=
  let sz := fld 3 2 e
  let pa := fld 51 16 e * 65536
  let rd := bitOf 4 e
  let w := bitOf 5 e
  let x := bitOf 6 e
  let win := fld 61 54 e
  fld 63 62 e = 0 && fld 53 52 e = 0 && fld 15 12 e = 0 && fld 9 7 e = 0 &&
  ((level = 0 && sz ≤ 1) || (level = 1 && sz = 2)) && pa % pageBytes sz = 0 &&
  (rd || w || x) && !(w && !rd) && !(x && (rd || w || win ≠ 0)) && (win = 0 || isHbm pa) &&
  ((isHbm pa && granOk (granOf pa)) || isHost pa || isPeer pa)

/-- The aperture of a peer address lists a function (20 R400). -/
def apertureLists (s : State) (pa fn : Nat) : Bool :=
  let a := (s.pkg.aps.find? (fld 49 38 pa)).getD {}
  a.v && a.fns.getLsbD fn

/-- The owner check of a leaf at `pte` for function `fn` (R81, 19 Table 19.7 bit 6). One with X = 1 passes only in a code-window entry that the
Fjoset cores have written, on service granules. -/
def ownerOk (s : State) (fn pte e : Nat) : Bool :=
  let pa := fld 51 16 e * 65536
  let win := fld 61 54 e
  if bitOf 6 e && !(isHbm pa && s.pkg.codePtes.contains (pte, fld 51 16 e)) then false
  else if isHbm pa then
    (List.range (max 1 (pageBytes (fld 3 2 e) / 2 ^ 21))).all fun i =>
      let o := s.ownerOf (granOf pa + i)
      if bitOf 6 e then o = 0x3FF
      else if win = 0 then o = fn
      else o = 512 + win && (((s.pkg.wins.find? win).getD {}).members.any fun m => m.1 = fn) && !bitOf 6 (s.fn fn).fmask
  else if isHost pa then (s.fn fn).host
  else apertureLists s pa fn

/-! ## Walks (R75, R80, R82, R85) -/

/-- How a walk ends: a leaf with its place, an invalid or refused entry, or a poisoned line on the way (R89). -/
inductive Walk where
  | leaf (pte e : Nat)
  | invalid
  | refused (pte : Nat)
  | integ
  deriving DecidableEq, Repr

/-- The way of a missing level's line from the walkers at a core's region station to its stack's controller and back (R72, R85). -/
def walkRoute (k pte : Nat) : List Leg :=
  let d := dieOfPa pte
  legs (dieOf k) (regionStation k) d (hbmStation (stackOfPa pte % 4)) 0 none ++ legs d (hbmStation (stackOfPa pte % 4)) (dieOf k) (regionStation k) 0 none

/-- The core cycles that a level takes where its line is missing: 320 in locked-clock mode (R86), else what the ride takes in the partition's chairs
(log 84). -/
def missCost (s : State) (k asid pte : Nat) : Nat :=
  let p := (s.fn (s.fnOf asid)).part
  if (s.part p).locked then 320
  else match rideTime s (some p) (walkRoute k pte) s.now with | some t => ceilDiv (t - s.now) 2 | none => 320

/-- Puts a line into a region's walk cache for a walk of a context at a level; with a line that stands there the walk is noted. -/
def walkPut (r : Nat) (l : WalkLine) (u : Nat × Nat × Nat) (s : State) : State :=
  if l.users.contains u then s
  else s.modPkg fun p => { p with walk := p.walk.set [] r (({ l with users := u :: l.users } :: (p.walk.get [] r).filter fun x => x.line ≠ l.line).take 512) }

/-- Reads a page-table entry of level `level` for core `k`: from its region's walk cache, where its line is held and the entry is valid, or from
its home bank, from which the line enters the walk cache (R85, R87). With it the core cycles that the level takes (R86; log 84). -/
def pteRead (k asid va level pte : Nat) (s : State) : State × Option Nat × Nat :=
  let at_ := fun (l : Line) => leNat (lineBytes l (pte % 128) 8)
  let r := regionOf k
  let u := (asid, level, va / (16 * levelBytes level) * (16 * levelBytes level))
  match ((s.pkg.walk.get [] r).find? fun x => x.line = lineOf pte).filter fun x => bitOf 0 (at_ x.data) with
  | some x => (walkPut r x u s, some (at_ x.data), 6)
  | none =>
    let cost := missCost s k asid pte
    match homeLine (lineOf pte) s with
    | (s, none) => (s, none, cost)
    | (s, some l) => (walkPut r { line := lineOf pte, data := l, users := [] } u s, some (at_ l), cost)

/-- Walks for core `k` in context `asid` from level `n - 1` down; each entry is read as one 8-byte whole. The answer has the core cycles of its levels. -/
def walkFrom (k asid fn va : Nat) : Nat → Nat → State → State × Walk × Nat
  | 0, _, s => (s, .invalid, 0)
  | n + 1, table, s =>
    let pte := table + 8 * fld (25 + 10 * n) (16 + 10 * n) va
    match pteRead k asid va n pte s with
    | (s, none, t) => (s, .integ, t)
    | (s, some e, t) =>
      if !bitOf 0 e then (s, .invalid, t)
      else if bitOf 1 e then
        if tableOk s n e then
          let (s, w, u) := walkFrom k asid fn va n (fld 51 13 e * 8192) s
          (s, w, t + u)
        else (s, .refused pte, t)
      else if leafOk n e && ownerOk s fn pte e then (s, .leaf pte e, t)
      else (s, .refused pte, t)

/-- The bits that a walk sets in a leaf: A, and D for a write. -/
def adBits (write : Bool) : Nat := 2 ^ 10 + (if write then 2 ^ 11 else 0)

/-- Sets A, and D for a write, by an atomic OR on the entry as it stands at its home bank (R82), and in the walk caches that hold its line. -/
def setAD (pte e : Nat) (write : Bool) (s : State) : State :=
  if e ||| adBits write = e then s
  else
    let bits := lineAt (pte % 128) (leBytes 8 (adBits write))
    let s := match homeLine (lineOf pte) s with
      | (s, some l) => (homeWrite {} pte (leBytes 8 (leNat (lineBytes l (pte % 128) 8) ||| adBits write)) s).1
      | (s, none) => s
    s.modPkg fun p => { p with
      walk := p.walk.map fun w => (w.1, w.2.map fun x => if x.line = lineOf pte then { x with data := x.data ||| bits } else x) }

/-- Two entries translate the same page. -/
def samePage (a b : TlbEntry) : Bool := a.asid = b.asid && a.vpn = b.vpn && a.size = b.size

/-- Keeps the newest entries of a table, one for each page. -/
def tlbPut (cap : Nat) (t : TlbEntry) (l : List TlbEntry) : List TlbEntry := (t :: l.filter fun e => !samePage e t).take cap

/-- The set of an entry in a region TLB (R84; log 84). -/
def regionSet (t : TlbEntry) : Nat := t.vpn * 65536 / t.size % 512

/-- Keeps the newest eight entries of a set of a region TLB. -/
def regionPut (t : TlbEntry) (l : List TlbEntry) : List TlbEntry :=
  let (own, rest) := (l.filter fun e => !samePage e t).partition fun e => regionSet e = regionSet t
  t :: own.take 7 ++ rest

/-- Installs a translation in the TLBs of a core and its region (R83, R84). -/
def tlbInstall (k : Nat) (t : TlbEntry) (s : State) : State :=
  let r := regionOf k
  (s.modCore k fun c => { c with tlb := tlbPut 128 t c.tlb }).modPkg fun p =>
    { p with rtlb := p.rtlb.set [] r (regionPut t (p.rtlb.get [] r)) }

/-- A page of several leaves is used everywhere by the leaf that was walked most recently (R80). -/
def tlbRefresh (t : TlbEntry) (s : State) : State :=
  if t.size = 65536 then s
  else
    let f := fun (e : TlbEntry) => if samePage e t then { t with ready := e.ready } else e
    let cs := s.cores.map fun (c : Nat × Core) => (c.1, { c.2 with tlb := c.2.tlb.map f })
    ({ s with cores := cs }).modPkg fun p => { p with rtlb := p.rtlb.map fun (e : Nat × List TlbEntry) => (e.1, e.2.map f) }

/-- Sorting of numbers, ascending. -/
def natInsert (x : Nat) : List Nat → List Nat
  | [] => [x]
  | y :: r => if x ≤ y then x :: y :: r else y :: natInsert x r
def natSort (l : List Nat) : List Nat := l.foldr natInsert []

/-- The keys that are pending in a region, and when their walks complete, ascending. -/
def State.keysOf (s : State) (r : Nat) : List WalkKey := (s.pkg.walkKeys.get [] r).filter fun x => s.cycle < x.until_
def State.keyEnds (s : State) (r : Nat) : List Nat := natSort ((s.keysOf r).map WalkKey.until_)

/-- The core cycle from which a miss has a key: with 64 pending it is held and retried when a walk completes (R84). -/
def keyFrom (s : State) (r : Nat) : Nat :=
  let pend := s.keyEnds r
  if pend.length < 64 then s.cycle + 8 else max (s.cycle + 8) (pend.getD (pend.length - 64) 0 + 8)

/-- The core cycle at which a walk of `cost` cycles completes in a region that misses now (R84, R85): it has a key, and it starts when fewer than eight
walks run. -/
def walkDone (s : State) (r cost : Nat) : Nat :=
  let pend := s.keyEnds r
  (if pend.length < 8 then keyFrom s r else max (keyFrom s r) (pend.getD (pend.length - 8) 0)) + cost

/-- A miss takes a key for a page, which is pending until `t`. -/
def takeKey (r asid va t : Nat) (s : State) : State :=
  s.modPkg fun p => { p with walkKeys := p.walkKeys.set [] r ({ asid := asid, page := va / 65536, until_ := t } :: s.keysOf r) }

/-- An access meets a translation that is pending (R84): it joins the walk of its own key, is retried when that walk completes where 4,096 wait for it, or
takes a key of its own, which the walk of a larger page satisfies too. The answer is the core cycle from which it holds the translation. -/
def joinKey (r asid va : Nat) (e : TlbEntry) (s : State) : State × Nat :=
  match (s.keysOf r).find? fun x => x.asid = asid && x.page = va / 65536 with
  | some x =>
    if x.waiting < 4096 then
      (s.modPkg fun p => { p with walkKeys := p.walkKeys.set [] r ((s.keysOf r).map fun y => if y = x then { y with waiting := y.waiting + 1 } else y) }, e.ready)
    else (s, e.ready + 8)
  | none => (if (s.keysOf r).length < 64 then takeKey r asid va e.ready s else s, max e.ready (keyFrom s r))

/-- Walks for context `asid` and installs what it finds (R81, R82). -/
def walkFor (k asid va : Nat) (acc : Acc) (s : State) : State × Except Trap TlbEntry :=
  let c := s.ctx asid
  if !c.valid || !(isHbm c.root && s.ownerOf (granOf c.root) = 0) then (s, .error .addrUnmapped)
  else
    let keyed := fun (cost : Nat) (s : State) => takeKey (regionOf k) asid va (walkDone s (regionOf k) cost) s
    match walkFrom k asid c.fnum va 4 c.root s with
    | (s, .invalid, t) => (keyed t s, .error .addrUnmapped)
    | (s, .refused pte, t) => (report "PTE_BAD" (some c.fnum) pte (keyed t s), .error .addrUnmapped)
    | (s, .integ, t) => (keyed t s, .error .integFail)
    | (s, .leaf pte e, cost) =>
      let wr := acc = .write && bitOf 5 e
      let s := setAD pte e wr s
      let t := { tlbOf asid va pte e with d := bitOf 11 e || wr, ready := walkDone s (regionOf k) cost }
      (takeKey (regionOf k) asid va t.ready (tlbInstall k t (tlbRefresh t s)), .ok t)

/-- A TLB entry covers an address. -/
def tlbHits (asid va : Nat) (e : TlbEntry) : Bool := e.asid = asid && e.vpn * 65536 ≤ va && va < e.vpn * 65536 + e.size

/-- The translation of an address: the core's TLB, the region's, or a walk; a write through a clean entry walks again. One that is pending is waited
for (R84). -/
def lookup (k asid va : Nat) (acc : Acc) (s : State) : State × Except Trap TlbEntry :=
  let fit := fun (e : TlbEntry) => tlbHits asid va e && !(acc = .write && e.w && !e.d)
  match (s.core k).tlb.find? fit with
  | some e =>
    if e.ready ≤ s.cycle then (s, .ok e)
    else
      let (s, t) := joinKey (regionOf k) asid va e s
      (s, .ok { e with ready := t })
  | none =>
    match (s.pkg.rtlb.get [] (regionOf k)).find? fit with
    | some e =>
      let (s, held) := if e.ready ≤ s.cycle then (s, e.ready) else joinKey (regionOf k) asid va e s
      let t := { e with ready := max (s.cycle + 8) held }
      ((s.modCore k fun c => { c with tlb := tlbPut 128 t c.tlb }).modPkg fun p => { p with
        rtlb := p.rtlb.set [] (regionOf k) (regionPut e (p.rtlb.get [] (regionOf k))) }, .ok t)
    | none => walkFor k asid va acc s

/-- The rights of a translation (R89; R62: the code window is unmapped to data; R100: a reading member). -/
def rights (s : State) (asid : Nat) (acc : Acc) (e : TlbEntry) : Option Trap :=
  match acc with
  | .fetch => if e.x then none else some .addrUnmapped
  | .read => if e.x then some .addrUnmapped else if e.rd then none else some .addrProt
  | .write =>
    if e.x then some .addrUnmapped
    else if !e.w then some .addrProt
    else if e.widx ≠ 0 && !(((s.pkg.wins.find? e.widx).getD {}).members.any fun m => m.1 = s.fnOf asid && m.2) then some .addrProt
    else none

/-- A translated address: physical address, window index, and what the access needs of its translation. -/
structure Phys where
  pa : Nat
  widx : Nat
  /-- bytes of the page -/
  page : Nat := 65536
  /-- core cycle from which the translation is held -/
  ready : Nat := 0
  deriving DecidableEq, Repr

/-- Translates an address for an access of core `k` in context `asid` (R75: addresses are taken modulo 2^56). -/
def translate (k asid va : Nat) (acc : Acc) (s : State) : State × Except Trap Phys :=
  let va := va % 2 ^ 56
  match lookup k asid va acc s with
  | (s, .error t) => (s, .error t)
  | (s, .ok e) =>
    match rights s asid acc e with
    | some t => (s, .error t)
    | none => (s, .ok { pa := e.frame * 65536 + (va - e.vpn * 65536), widx := e.widx, page := e.size, ready := e.ready })

/-- Lift cycles until a translation is held. -/
def Phys.wait (s : State) (p : Phys) : Nat := 2 * (p.ready - s.cycle)

/-- Translates and reads `n` bytes of a context, piece by piece within pages (engines, parameter capture, admission). -/
def readVirt (k asid : Nat) : Nat → Nat → Nat → State → State × Except Trap (List Byte)
  | 0, _, _, s => (s, .ok [])
  | fuel + 1, va, n, s =>
    if n = 0 then (s, .ok [])
    else
      let m := min n (65536 - va % 65536)
      match translate k asid va .read s with
      | (s, .error t) => (s, .error t)
      | (s, .ok p) =>
        match physRead p.pa m s with
        | (s, none) => (s, .error .integFail)
        | (s, some bs) =>
          match readVirt k asid fuel (va + m) (n - m) s with
          | (s, .ok r) => (s, .ok (bs ++ r))
          | e => e

/-! ## Invalidation (R87, R88) -/

/-- Which translations an invalidation request covers (Table 4.6). -/
def invalCovers (s : State) (req : Nat) (e : TlbEntry) : Bool :=
  let vpn := fld 103 64 req
  let n := fld 63 32 req
  let asid := fld 31 20 req
  match fld 3 0 req with
  | 0 => e.asid = asid && e.vpn < vpn + n && vpn < e.vpn + e.size / 65536
  | 1 => e.asid = asid
  | 2 => s.fnOf e.asid = s.fnOf asid
  | _ => true

/-- A request is in form (Table 4.6). -/
def invalOk (req : Nat) : Bool :=
  fld 3 0 req ≤ 3 && fld 127 104 req = 0 && fld 19 4 req = 0 && (fld 3 0 req ≠ 0 || fld 63 32 req ≠ 0)

end Sys2Proof.Machine
end

