-- ==== Sys2Proof/Machine/Paging.lean ====
section
/-!
DEFINITION. Page tables as the Fjoset cores build them in hardware page-fault mode, and the offer of a fault to the page-fault
service (spec/04_hbm_translation_protection.md R75 to R80, R91; spec/19_partitions_tenants.md R386, R387).
-/
namespace Sys2Proof.Machine

/-- Whether a granule is free to be assigned. -/
def granFree (s : State) (g : Nat) : Bool := granOk g && s.ownerOf g = 0x3FE && !s.svc.retired.contains g

/-- The first block of `n` free granules aligned on `n` in one data region. -/
def freeBlock (s : State) (n : Nat) : Option Nat :=
  if n ≤ 1 then (freeGranules s 1).bind List.head?
  else
    let taken := fun (g : Nat) => inCache (g + n - 1) || (decide (g ≤ metaLogGran (g / 2 ^ 15)) && decide (metaLogGran (g / 2 ^ 15) < g + n)) || s.pkg.owners.any (fun e => g ≤ e.1 && e.1 < g + n) || s.svc.retired.any fun e => g ≤ e && e < g + n
    ((List.range 16).flatMap fun st => (List.range (30408 / n)).map fun i => st * 2 ^ 15 + i * n).find? fun g => !taken g

/-- A fresh 8 KiB table of a context, in a granule of owner 0. -/
def newTable (a : Nat) (s : State) : State × Option Nat :=
  let c := s.ctx a
  match c.tblGr[c.tbls / 256]? with
  | some g => (s.modCtx a fun c => { c with tbls := c.tbls + 1 }, some (g * 2 ^ 21 + c.tbls % 256 * 8192))
  | none =>
    match freeBlock s 1 with
    | none => (s, none)
    | some g =>
      ((assignGranule g 0 s).modCtx a fun c => { c with tblGr := c.tblGr ++ [g], tbls := c.tbls + 1 }, some (g * 2 ^ 21))

/-- Reads and writes an 8-byte page-table entry at its home bank. What the Fjoset cores write there they make durable at once, so that a
context's tables outlast a compute-die reset (13 R279; log 39). -/
def readEntry (pte : Nat) (s : State) : State × Nat :=
  match physRead pte 8 s with
  | (s, some bs) => (s, leNat bs)
  | (s, none) => (s, 0)
def writeEntry (pte e : Nat) (s : State) : State :=
  commitChunk (pte / 8192) (writeBackLine (lineOf pte) (homeWrite {} pte (leBytes 8 e) s).1)

/-- The level-`stop` table over an address, from a table of level `stop + n` down; missing ones are laid out when `make`. -/
def tableFor (make : Bool) (a va stop : Nat) : Nat → Nat → State → State × Option Nat
  | 0, table, s => (s, some table)
  | n + 1, table, s =>
    let lv := stop + n + 1
    let pte := table + 8 * fld (25 + 10 * lv) (16 + 10 * lv) va
    let (s, e) := readEntry pte s
    if bitOf 0 e then (if bitOf 1 e then tableFor make a va stop n (fld 51 13 e * 8192) s else (s, none))
    else if !make then (s, none)
    else
      match newTable a s with
      | (s, some t) => tableFor make a va stop n t (writeEntry pte (t + 3) s)
      | (s, none) => (s, none)

/-- The level that holds a page's leaf, and its number of replicas (R80). -/
def leafLevel (sz : Nat) : Nat := if sz = 2 then 1 else 0
def replicas (sz : Nat) : Nat := match sz with | 0 => 1 | 1 => 32 | _ => 16

/-- Writes the leaves of a page. -/
def putLeaves (table lv va sz e : Nat) (s : State) : State :=
  foldS (List.range (replicas sz)) (fun i s => writeEntry (table + 8 * (fld (25 + 10 * lv) (16 + 10 * lv) va + i)) e s) s

/-- Maps one page of a context onto a physical address; `rw` holds RD in bit 0 and W in bit 1. -/
def mapPage (a va sz rw pa : Nat) (s : State) : State × Bool :=
  match tableFor true a va (leafLevel sz) (3 - leafLevel sz) (s.ctx a).root s with
  | (s, some t) => (putLeaves t (leafLevel sz) va sz (pa + rw % 4 * 16 + sz * 4 + 1) s, true)
  | (s, none) => (s, false)

/-- Makes one page's leaves invalid. -/
def unmapPage (a va sz : Nat) (s : State) : State :=
  match tableFor false a va (leafLevel sz) (3 - leafLevel sz) (s.ctx a).root s with
  | (s, some t) => putLeaves t (leafLevel sz) va sz 0 s
  | (s, none) => s

/-! ## The code window (R62, R81; 03 R62, R67; 17 R341, R342; log 81) -/

/-- The first byte of the translation cache, and the virtual address at which a context's code window shows it. -/
def cacheBase : Nat := cacheGran * 2 ^ 21
def codeBase : Nat := 2 ^ 56 - 2 ^ 32

/-- The instruction line of a bundle of a translation that stands at `base`, as a gondola knows it: by its physical address. -/
def codeLine (base i : Nat) : Nat := 2 ^ 60 + base / 256 + 1 + i / 4

/-- Bytes that a translation takes in the cache, from its place: its package stands at 192, so that its code, behind the header of 64 bytes,
begins an instruction line. -/
def transRoom (t : Trans) : Nat := ceilDiv (192 + t.pkg.length) 65536 * 65536

/-- The lowest place in the cache with room for `n` bytes that no translation takes. -/
def cachePlace (s : State) (n : Nat) : Option Nat :=
  let used := s.pkg.trans.filterMap fun t => t.2.base.map fun b => (b, b + transRoom t.2)
  let gone := (s.svc.retired.filter inCache).map fun g => (g * 2 ^ 21, (g + 1) * 2 ^ 21)
  let fit := fun (b : Nat) => decide (b + n ≤ cacheBase + 2 ^ 32) && (used ++ gone).all fun u => decide (b + n ≤ u.1 ∨ u.2 ≤ b)
  (natSort (cacheBase :: (used ++ gone).map Prod.snd)).find? fit

/-- The virtual address of a bundle of a translation that stands at `base`. -/
def codeVa (base i : Nat) : Nat := codeBase + (base - cacheBase) + 256 + 64 * i

/-- Maps a translation into a context's code window, for instruction fetch alone. -/
def mapCode (a t : Nat) (s : State) : State :=
  match (s.trans t).bind fun x => x.base.map fun b => (b, transRoom x) with
  | none => s
  | some (b, n) =>
    foldS (List.range (n / 65536)) (fun i s =>
      let pa := b + i * 65536
      let va := codeBase + (pa - cacheBase)
      match tableFor true a va 0 3 (s.ctx a).root s with
      | (s, some table) =>
        let pte := table + 8 * fld 25 16 va
        (writeEntry pte (pa + 65) s).modPkg fun p => { p with codePtes := (pte, pa / 65536) :: p.codePtes.filter fun e => e.1 ≠ pte }
      | (s, none) => s) s

/-- Takes a translation out of every code window, and its lines out of the gondolas, each also out of the L1 of the cores in its presence vector
(03 R67, R68). -/
def unmapCode (t : Nat) (s : State) : State :=
  match (s.trans t).bind fun x => x.base.map fun b => (b, transRoom x) with
  | none => s
  | some (b, n) =>
    let ours := fun (u : Nat) => decide (b ≤ u * 65536) && decide (u * 65536 < b + n)
    let s := foldS (s.pkg.codePtes.filter fun e => ours e.2) (fun e s => writeEntry e.1 0 s) s
    let s := dropTlb (fun e => e.x && ours e.frame) (s.modPkg fun p => { p with codePtes := p.codePtes.filter fun e => !ours e.2 })
    let line := fun (x : GLine) => decide (codeLine b 0 ≤ x.line) && decide (x.line < codeLine b 0 + n / 256)
    let here := fun (k i : Nat) => (s.pkg.gondola.get [] (dieOf k)).any fun x => x.line = codeLine b (4 * i) && x.pres.getLsbD (k % 128)
    let s := foldS (s.cores.map Prod.fst) (fun k s => s.modCore k fun c => { c with l1 := c.l1.filter fun l => !(l.2.1 = t && here k l.2.2) }) s
    s.modPkg fun p => { p with gondola := p.gondola.map fun g => (g.1, g.2.filter fun x => !line x) }

/-- Granules of a page block: a block is the unit that one assignment backs. -/
def blockGrans (sz : Nat) : Nat := if sz = 2 then 512 else 1

/-- Backs the block of a mapped range that holds `va` with zeroed granules from the function's quota, and maps its pages. -/
def backBlock (a va : Nat) (m : Nat × Nat × Nat × Bool × Nat) (s : State) : State × Bool :=
  let (lo, n, rw, _, sz) := m
  let fn := s.fnOf a
  let blk := blockGrans sz * 2 ^ 21
  let b := va / blk * blk
  let page := pageBytes sz
  let pages := ((List.range (blk / page)).map fun i => b + i * page).filter fun v => lo ≤ v && v + page ≤ lo + n
  if (s.fn fn).gquota < (s.fn fn).used + blockGrans sz then (s, false)
  else
    match freeBlock s (blockGrans sz) with
    | none => (s, false)
    | some g =>
      let s := foldS (List.range (blockGrans sz)) (fun i s => assignGranule (g + i) fn s) s
      let s := s.modFn fn fun f => { f with used := f.used + blockGrans sz }
      let s := s.modCtx a fun c => { c with frames := c.frames ++ [(g, blockGrans sz, pages)] }
      pages.foldl (fun (x : State × Bool) v =>
        let (s, ok) := mapPage a v sz rw (g * 2 ^ 21 + (v - b)) x.1
        (s, x.2 && ok)) (s, true)

/-- The hardware page-fault service (19 Table 19.6): a fault inside a lazy range that has no page there is served, any other is
declined. -/
def servePage (a va : Nat) (s : State) : State × Bool :=
  let c := s.ctx a
  match c.maps.find? fun m => m.2.2.2.1 && decide (m.1 ≤ va ∧ va < m.1 + m.2.1) with
  | none => (s, false)
  | some m =>
    if c.frames.any fun f => f.2.2.any fun v => v ≤ va && va < v + pageBytes m.2.2.2.2 then (s, false) else backBlock a va m s

/-- Offers a fault to the page-fault service in the mode in which it is posted (19 R387): the hardware service answers it, the
owner is asked. -/
def offerFault (a va : Nat) (acc : Acc) (s : State) : State :=
  let va := va % 2 ^ 56
  if assisted s (s.fn (s.fnOf a)).part 0 then
    report (match acc with | .read => "PAGE_FAULT_READ" | .write => "PAGE_FAULT_WRITE" | .fetch => "PAGE_FAULT_FETCH") (some (s.fnOf a)) va s (some a)
  else
    let (s, ok) := servePage a va s
    s.post s.now (.pageFaultReply a va ok)

end Sys2Proof.Machine
end

