-- ==== Sys2Proof/Machine/Cache.lean ====
section
/-!
DEFINITION. Memory at a core: bank modes and the private data cache (spec/07_core_sram_registers.md R141, R148), the
dirty-line FIFO (R149), loads and released stores by policy (spec/11_loads_stores_atomics.md R224, R225, R228), the link to
host and peers (R228), and the reads and writes of atomics (R233, R234).
-/
namespace Sys2Proof.Machine

/-! ## Bank modes (07 R141, R143) -/

/-- The mode of bank `b`; none while it changes. -/
def Group.modeOf (g : Group) (b : Nat) : Option Nat :=
  if (g.changing.find? b).isSome then none else some (fld (2 * b + 1) (2 * b) g.bkm.toNat)

/-- The cache-mode banks of a core's group: the ways of its private cache. -/
def Group.ways (g : Group) : List Nat := (List.range 12).filter fun b => g.modeOf b = some 0

def State.ways (s : State) (k : Nat) : List Nat := match s.group k with | some g => g.ways | none => []

/-! ## The dirty-line FIFO (07 R149) -/

/-- The line of the private cache, if it is present in a way. -/
def Core.findLine (c : Core) (la : Nat) : Option CLine := c.cache.find? fun l => l.line = la

/-- Replaces the cached copy of a line, as most recently used. -/
def Core.putLine (c : Core) (l : CLine) : Core := { c with cache := l :: c.cache.filter fun x => x.line ≠ l.line }

/-- The request that an entry sends to the home bank, if it has bytes to send. -/
def entryReq (c : Core) : DEntry → Option MergeReq
  | .line la w =>
    match c.findLine la with
    | some l => if l.dirty = 0 then none else some { line := la, data := l.data, mask := l.dirty, w := w }
    | none => none
  | .bytes la d m w => some { line := la, data := d, mask := m, w := w }
  | _ => none

/-- Marks a line clean after its entry drained. -/
def Core.clean (c : Core) : DEntry → Core
  | .line la _ => { c with cache := c.cache.map fun l => if l.line = la then { l with dirty := 0 } else l }
  | _ => c

/-- Sends a drained line's bytes to its home bank (R149): they perform there in the order in which they are sent, and the ride takes a chair (05 R112).
DEDUCED (log 105): the bank holds them from the moment they are sent, and what waits for the drain waits for the ride. -/
def sendMerge (k : Nat) (q : MergeReq) (s : State) : State := enqueueMerge q (sendLine .drain (q.w.asid.getD 0) k q.line s)

/-- Drains the oldest entry into its home bank's queue. -/
def drainHead (k : Nat) (s : State) : State :=
  let c := s.core k
  match c.dfifo with
  | [] => s
  | e :: r =>
    let s := s.setCore k { c.clean e with dfifo := r }
    match entryReq c e with
    | some q => sendMerge k q s
    | none => s

/-- Drains the oldest entry and merges it. -/
def drainOne (k : Nat) (s : State) : State := mergeAll (drainHead k s)

/-- Drains every entry of a core, in order (WaitDrainToMarker). -/
def drainCore (k : Nat) (s : State) : State := foldS (s.core k).dfifo (fun _ s => drainOne k s) s

/-- An entry concerns a line. -/
def DEntry.isFor (la : Nat) : DEntry → Bool
  | .line l _ => l = la
  | .bytes l _ _ _ => l = la
  | _ => false

/-- DrainThrough: the entries of a line and every entry ahead of them. -/
def drainThrough (k la : Nat) : Nat → State → State
  | 0, s => s
  | n + 1, s => if (s.core k).dfifo.any (·.isFor la) then drainThrough k la n (drainOne k s) else s

/-- Drains a line's entries where they stand, leaving them empty (an evicted line). -/
def drainLine (k la : Nat) (s : State) : State :=
  let c := s.core k
  let s := foldS (c.dfifo.filter (·.isFor la)) (fun e s =>
    let c := s.core k
    let s' := s.setCore k (c.clean e)
    match entryReq c e with
    | some q => sendMerge k q s'
    | none => s') s
  mergeAll (s.modCore k fun c => { c with dfifo := c.dfifo.map fun e => if e.isFor la then .empty else e })

/-- Room for one more entry: the oldest drains when the FIFO is full. -/
def fifoRoom (k : Nat) (s : State) : State := if 256 ≤ (s.core k).dfifo.length then drainOne k s else s

/-- Appends an entry. -/
def fifoPush (k : Nat) (e : DEntry) (s : State) : State :=
  (fifoRoom k s).modCore k fun c => { c with dfifo := c.dfifo ++ [e] }

/-- Gives a line that is about to be written in the cache an entry that drains after every entry of the line so far: an
older one ahead of bytes of the same line turns into an entry carrying its bytes, so that writes of one byte perform in
issue order (12 R243). -/
def fifoNote (k la : Nat) (w : Writer) (s : State) : State :=
  let c := s.core k
  let has := c.dfifo.any fun e => match e with | .line l _ => l = la | _ => false
  let later := c.dfifo.any fun e => match e with | .bytes l _ _ _ => l = la | _ => false
  if has && !later then s
  else if !has then fifoPush k (.line la w) s
  else
    let s := s.setCore k { c.clean (.line la w) with
      dfifo := c.dfifo.map fun e => match entryReq c e, e with
        | some q, .line l w => if l = la then .bytes la q.data q.mask w else e
        | _, _ => e }
    fifoPush k (.line la w) s

/-- Bytes of a line as the core sees them: the home bank's, with the core's own undrained bytes over them (12 R245). -/
def Core.overlayFifo (c : Core) (la : Nat) (l : Line) : Line :=
  c.dfifo.foldl (fun d e => if e.isFor la then match entryReq c e with | some q => overlay d q.data q.mask | none => d else d) l

/-- Reads a line at its home bank for core `k`. -/
def coreLine (k la : Nat) (s : State) : State × Option Line :=
  let (s, l) := homeLine la s
  (s, l.map ((s.core k).overlayFifo la))

/-! ## The private cache (07 R148) -/

/-- Takes a place in a line's set: a free way, or that of the least recently used line, drained first. -/
def takeWay (k la : Nat) (s : State) : State × Option Nat :=
  let ways := s.ways k
  let inSet := (s.core k).cache.filter fun l => l.line % 256 = la % 256
  match ways.find? fun b => !(inSet.any fun l => l.bank = b) with
  | some b => (s, some b)
  | none =>
    match (inSet.filter fun l => ways.contains l.bank).getLast? with
    | some v =>
      let s := if v.dirty = 0 then s else drainLine k v.line s
      (s.modCore k fun c => { c with cache := c.cache.filter fun l => l.line ≠ v.line }, some v.bank)
    | none => (s, none)

/-- Allocates a line. -/
def allocLine (k asid vline la : Nat) (d : Line) (valid dirty : Mask) (s : State) : State :=
  match takeWay k la s with
  | (s, some b) => s.modCore k fun c => c.putLine { line := la, bank := b, asid := asid, vline := vline, data := d, valid := valid, dirty := dirty }
  | (s, none) => s

/-- The cached copy that the core may use: present in a way that is in cache mode. -/
def State.hit (s : State) (k la : Nat) : Option CLine :=
  match (s.core k).findLine la with
  | some l => if (s.ways k).contains l.bank then some l else none
  | none => none

/-- Fills a line into the cache where it is not whole there (R245; 11 R234), through the virtual line `vline` (R246), and answers its
bytes. -/
def fillCache (k asid vline la : Nat) (s : State) : State × Option Line :=
  match (s.hit k la).filter fun l => l.valid = fullMask with
  | some l => (s.modCore k fun c => c.putLine l, some l.data)
  | none =>
    match coreLine k la s with
    | (s, none) => (s, none)
    | (s, some d) =>
      match s.hit k la with
      | some l =>
        let d' := overlay d l.data l.valid
        (s.modCore k fun c => c.putLine { l with asid := asid, vline := vline, data := d', valid := fullMask }, some d')
      | none => (allocLine k asid vline la d fullMask 0 s, some d)

/-! ## Host and peer links (11 R228, R230; 12 R259) -/

/-- A released store of a core has failed: the next commit point of its kernel on the core reports the address (11 R230). DEDUCED (log 95): where its
group has left the core, the kernel is killed with the next lift cycle. -/
def failLink (k : Nat) (q : LinkReq) (s : State) : State :=
  match s.group k with
  | some g =>
    if g.launch = q.launch then s.setGroup k { g with linkFail := true, linkVa := if g.linkFail then g.linkVa else q.va } else left s
  | none => left s
where
  /-- no commit point is to come -/
  left (s : State) : State := s.modPkg fun p => { p with linkBad := p.linkBad ++ [(q.launch, q.va)] }

/-- Performs the oldest host or peer store of a core at its far end. -/
def linkDone (k : Nat) (s : State) : State :=
  match (s.core k).link with
  | [] => s
  | q :: r =>
    let s := s.modCore k fun c => { c with link := r }
    if linkUp s q.asid q.pa then s.putRaw q.pa q.bytes else failLink k q s

/-- Performs every store on the link (WaitLinkAcks). -/
def linkAll (k : Nat) (s : State) : State := foldS (s.core k).link (fun _ s => linkDone k s) s

/-- Performs every store that a core's link has accepted, of every core: what the link has accepted is seen by every read at the far end (12 R241;
log 88). -/
def linkEvery (s : State) : State := foldS ((s.cores.filter fun c => !c.2.link.isEmpty).map Prod.fst) linkAll s

/-- A core's page of memory behaves as .NC: window, or no way in cache mode (11 R224). -/
def uncached (s : State) (k widx : Nat) : Bool := widx ≠ 0 || (s.ways k).isEmpty

/-- Reads `n` bytes of one lane by policy (ReadPolicy, Table 11.2). -/
def readPolicy (k asid va pa n pol widx : Nat) (s : State) : State × Except Trap (List Byte) :=
  let la := lineOf pa
  let o := pa % 128
  if !isHbm pa then
    let s := linkEvery s
    (s, if linkUp s asid pa then .ok (s.rawBytes pa n) else .error .linkFail)
  else if pol = 2 || uncached s k widx then
    match coreLine k la s with
    | (s, some l) => (s, .ok (lineBytes l o n))
    | (s, none) => (s, .error .integFail)
  else
    match s.hit k la with
    | some l =>
      if maskAt o n &&& l.valid = maskAt o n then (s.modCore k fun c => c.putLine l, .ok (lineBytes l.data o n))
      else
        match (if pol = 0 then fillCache k asid (va / 128) la s else
            let (s, d) := coreLine k la s
            (s, d.map fun d => overlay d l.data l.valid)) with
        | (s, some d) => (s, .ok (lineBytes d o n))
        | (s, none) => (s, .error .integFail)
    | none =>
      match (if pol = 0 then fillCache k asid (va / 128) la s else coreLine k la s) with
      | (s, some d) => (s, .ok (lineBytes d o n))
      | (s, none) => (s, .error .integFail)

/-! ## Released stores (11 R224, R228) -/

/-- Writes bytes into the cached line, which becomes dirty there. -/
def storeCached (k asid va la : Nat) (d : Line) (m : Mask) (w : Writer) (s : State) : State :=
  let s := fifoNote k la w s
  match s.hit k la with
  | some l => s.modCore k fun c => c.putLine { l with data := overlay l.data d m, valid := l.valid ||| m, dirty := l.dirty ||| m }
  | none => allocLine k asid (va / 128) la d m m s

/-- Sends bytes through the FIFO as an entry that carries them; a present copy is updated and stays clean. -/
def storeThrough (k la : Nat) (d : Line) (m : Mask) (w : Writer) (s : State) : State :=
  let s := fifoPush k (.bytes la d m w) s
  match (s.core k).findLine la with
  | some l => s.modCore k fun c => { c with cache := c.cache.map fun x =>
      if x.line = la then { l with data := overlay l.data d m, valid := l.valid ||| m } else x }
  | none => s

/-- Releases the bytes of one store that lie in one line. -/
def storeLine (k asid pol va la widx : Nat) (d : Line) (m : Mask) (s : State) : State :=
  let w : Writer := { asid := some asid, core := k, vline := va / 128 }
  if pol = 2 || uncached s k widx then storeThrough k la d m w s
  else if pol = 0 || (s.hit k la).isSome then storeCached k asid va la d m w s
  else storeThrough k la d m w s

/-- Releases a store (R228): bytes of one line together, host and peer bytes onto the link, with a horizon marker for
window, host and peer stores (13 R276). DESIGN CHOICE (log 109): of two lanes of one store that name the same byte the higher one's value stands. -/
def releaseStore (k asid pol : Nat) (lanes : List LaneAcc) (s : State) : State :=
  let far := lanes.filter fun l => !isHbm l.pa
  let near := lanes.filter fun l => isHbm l.pa
  let n := match s.group k with | some g => g.launch | none => 0
  let s := s.modCore k fun c => { c with link := c.link ++ far.map fun l => { asid := asid, pa := l.pa, bytes := l.bytes, va := l.va, launch := n } }
  let mark := fun (cause : Nat) (t : LaneAcc → Bool) (s : State) =>
    match lanes.find? t with
    | some l => horizon asid cause k l.va s
    | none => s
  let s := mark 0 (fun l => isHost l.pa) s
  let s := mark 1 (fun l => isPeer l.pa) s
  let s := mark 3 (fun l => l.widx ≠ 0) s
  foldS (near.map (fun l => lineOf l.pa)).eraseDups (fun la s =>
    let ls := near.filter fun l => lineOf l.pa = la
    let dm := ls.foldl (fun (a : Line × Mask) l =>
      let m := maskAt (l.pa % 128) l.bytes.length
      (overlay a.1 (lineAt (l.pa % 128) l.bytes) m, a.2 ||| m)) (0, 0)
    match ls.head? with
    | some l => storeLine k asid pol l.va la l.widx dm.1 dm.2 s
    | none => s) s

/-! ## Atomics (11 R231 to R234) -/

/-- ATOM_BAD: the place that an atomic's scope has for its space is none (Table 11.6). -/
def atomBad (scope pa widx : Nat) (cas : Bool) (op n : Nat) : Bool :=
  if isHbm pa then widx ≠ 0 && scope = 5
  else scope ≠ 4 || (isHost pa && (!(cas || op = 0 || op = 6) || n < 4))

/-- One lane's indivisible read, change and write (R233) at the place of Table 11.6: `f` gives the new value, if any. -/
def atomicAccess (k asid scope va pa n widx : Nat) (f : Nat → Option Nat) (s : State) : State × Except Trap Nat :=
  let la := lineOf pa
  let o := pa % 128
  let w : Writer := { asid := some asid, core := k, vline := va / 128 }
  if !isHbm pa then
    let s := linkEvery s
    if !linkUp s asid pa then (s, .error .linkFail)
    else
      let old := leNat (s.rawBytes pa n)
      let s := match f old with | some v => s.putRaw pa (leBytes n v) | none => s
      (horizon asid (if isHost pa then 0 else 1) k va s, .ok old)
  else if scope ≤ 1 && !uncached s k widx then
    match fillCache k asid (va / 128) la s with
    | (s, none) => (s, .error .integFail)
    | (s, some d) =>
      let old := leNat (lineBytes d o n)
      (match f old with
        | some v => storeCached k asid va la (lineAt o (leBytes n v)) (maskAt o n) w s
        | none => s, .ok old)
  else
    let s := drainThrough k la 257 s
    match homeLine la s with
    | (s, none) => (s, .error .integFail)
    | (s, some d) =>
      let old := leNat (lineBytes d o n)
      let s := match f old with
        | some v =>
          let s := (homeWrite w pa (leBytes n v) s).1
          match (s.core k).findLine la with
          | some l => s.modCore k fun c => { c with cache := c.cache.map fun x =>
              if x.line = la then { l with data := overlay l.data (lineAt o (leBytes n v)) (maskAt o n) } else x }
          | none => s
        | none => s
      (if widx ≠ 0 then horizon asid 3 k va s else s, .ok old)

/-! ## Invalidation by acquires and fences (12 R249, R251) -/

/-- Drains and drops the lines of a core's private cache that meet a test. -/
def invalidateLines (k : Nat) (t : CLine → Bool) (s : State) : State :=
  let ls := (s.core k).cache.filter t
  let s := foldS ls (fun l s => if l.dirty = 0 then s else drainThrough k l.line 257 s) s
  s.modCore k fun c => { c with cache := c.cache.filter fun l => !t l }

/-- A line is covered by a binding of object `o` in context `asid` (12 R246). -/
def covered (s : State) (asid o : Nat) (l : CLine) : Bool :=
  l.asid = asid && (s.ctx asid).binds.any fun b => b.1 = o && b.2.1 < l.vline * 128 + 128 && l.vline * 128 < b.2.1 + b.2.2

/-- The invalidation of an ACQ of object `o` at scope .K or wider (R249). -/
def acquireInval (k asid o : Nat) (s : State) : State :=
  if (s.ctx asid).binds.any fun b => b.1 = o then invalidateLines k (covered s asid o) s else invalidateLines k (fun _ => true) s

end Sys2Proof.Machine
end

