-- ==== Sys2Proof/Machine/CrewOps.lean ====
section
/-!
DEFINITION. Crew operations (spec/09_scalar_vector_operations.md R191 to R195): they read every executing lane at once and
write the executing lanes.
-/
namespace Sys2Proof.Machine

/-- An executing lane: lane, home slot, its value, and its second operand. -/
structure CrewLane where
  lane : Nat
  slot : Nat
  a : Nat
  b : Nat := 0
  deriving DecidableEq, Repr

/-- Writes each executing lane's result of a Burhus crew operation, or puts it in flight for a V slot. -/
def crewFinish (op : Nat) (cls : RegCls) (f : Form) (rs : List LaneRes) (s : State) : State :=
  match f with
  | .bur b => burFinish op cls b rs s
  | .v d => vFinish op cls d rs s
  | _ => s

/-- The executing lanes of a VOTE with their conditions: ka of a Burhus instruction, p(VA) of a V slot. -/
def voteLanes (g : Group) (c : Crew) : Form → List CrewLane
  | .bur b => (burLanes g c b.guard).map fun l => { lane := l.1, slot := l.2, a := (g.getC l.2 l.1 b.a).toNat }
  | .v d => (vecLanes g c d.gp.toNat d.ge d.gn).map fun l =>
      { lane := l.1, slot := l.2, a := (g.getP l.2 (d.va.toNat % 8) l.1).toNat }
  | _ => []

/-- VOTE.ANY and VOTE.ALL (R192): a Burhus form writes kd in every executing lane, a V slot writes q(VD); with no
executing lane nothing is written. -/
def voteExec (h : List CrewLane → Bool) (f : Form) (s : State) : State :=
  match s.crew s.focus with
  | none => s
  | some (g, c) =>
    let ls := voteLanes g c f
    let r := (h ls).toNat
    match f with
    | .bur b => burFinish 0x40 .c b (ls.map fun l => ((l.lane, l.slot), r, 0)) s
    | .v d =>
      if ls.isEmpty then s
      else putLater s.focus (s.cycle + leastV 0x40) (s.cycle + d.lat.toNat + 1)
        [{ cls := .q, reg := d.vd.toNat % 4, slot := 0, lane := 0, val := BitVec.ofNat 64 r }] s
    | _ => s

/-- VOTE.ANY (R192). -/
def execVoteAny (f : Form) (s : State) : Host.Outcome State Fault Refusal :=
  .next (voteExec (fun ls => ls.any fun l => l.a == 1) f s)
/-- VOTE.ALL (R192). -/
def execVoteAll (f : Form) (s : State) : Host.Outcome State Fault Refusal :=
  .next (voteExec (fun ls => ls.all fun l => l.a == 1) f s)

/-- The mask of the executing lanes whose condition holds. -/
def ballotMask (ls : List CrewLane) : Nat := ls.foldl (fun m l => m ||| l.a <<< l.lane) 0

/-- VOTE.BALLOT (R192): a Burhus form writes the mask to xd; a V slot writes it into p(VD), a non-executing lane's bit
as zero. -/
def execVoteBallot (f : Form) (s : State) : Host.Outcome State Fault Refusal :=
  .next (match s.crew s.focus with
    | none => s
    | some (g, c) =>
      let ls := voteLanes g c f
      match f with
      | .bur b => burFinish 0x40 .x b (ls.map fun l => ((l.lane, l.slot), ballotMask ls, 0)) s
      | .v d =>
        if ls.isEmpty then s
        else vFinish 0x40 .p d ((ballotLanes g c).map fun l => (l, (ballotMask ls).testBit l.1 |>.toNat, 0)) s
      | _ => s)

/-- VOTE.EQ (R193). -/
def execVoteEq (f : BIns) (s : State) : Host.Outcome State Fault Refusal :=
  .next (match s.crew s.focus with
    | none => s
    | some (g, c) =>
      let ls := burLanes g c f.guard
      let v := fun (l : Nat × Nat) => cut (f.m1.toNat % 16) (g.getX l.2 l.1 f.a).toNat
      let eq := match ls with | [] => true | l :: r => r.all fun k => v k = v l
      burFinish 0x40 .c f (ls.map fun l => (l, eq.toNat, 0)) s)

/-- The executing lanes of SHFL and CRED with their operands cut to the type's width. -/
def shflLanes (g : Group) (c : Crew) : Form → List CrewLane
  | .bur b => (burLanes g c b.guard).map fun l =>
      { lane := l.1, slot := l.2, a := cut (b.m1.toNat % 16) (g.getX l.2 l.1 b.a).toNat,
        b := (g.getX l.2 l.1 b.b).toNat % 2 ^ 32 }
  | .v d => (vecLanes g c d.gp.toNat d.ge d.gn).map fun l =>
      { lane := l.1, slot := l.2, a := (g.getV l.2 d.va.toNat l.1).toNat, b := vOperandB g c d l.2 l.1 % 2 ^ 32 }
  | _ => []

/-- SUBOP and type of a crew operation. -/
def crewSub : Form → Nat × Nat
  | .bur b => (b.m1.toNat / 16, b.m1.toNat % 16)
  | .v d => (d.sub.toNat, d.ty.toNat)
  | _ => (0, 0)

/-- The source lane of SHFL (R194). -/
def shflLane (sub i u : Nat) : Int :=
  match sub with
  | 0 => u
  | 1 => (i ^^^ u : Nat)
  | 2 => (i : Int) - u
  | _ => (i : Int) + u

/-- SHFL (R194): a source lane that does not execute, or lies outside 0 to 63, gives the lane's own value. -/
def execShfl (f : Form) (s : State) : Host.Outcome State Fault Refusal :=
  .next (match s.crew s.focus with
    | none => s
    | some (g, c) =>
      let ls := shflLanes g c f
      crewFinish 0x41 (match f with | .bur _ => .x | _ => .v) f (ls.map fun l =>
        let j := shflLane (crewSub f).1 l.lane l.b
        ((l.lane, l.slot), ((ls.find? fun k => (k.lane : Int) = j).getD l).a, 0)) s)

/-- One operation of CRED; `l` is the lower-numbered side. -/
def credOp (sub ty l h : Nat) : Nat × BitVec 5 :=
  match sub with
  | 0 => if ty = 4 then fAdd fmtF32 0 (fmtF32.read l) (fmtF32.read h) else ((l + h) % 2 ^ tyWidth ty, 0)
  | 1 => if ty = 4 then fMinMax fmtF32 true l h else (if nVal ty l ≤ nVal ty h then l else h, 0)
  | 2 => if ty = 4 then fMinMax fmtF32 false l h else (if nVal ty h ≤ nVal ty l then l else h, 0)
  | 3 => (l &&& h, 0)
  | 4 => (l ||| h, 0)
  | _ => (l ^^^ h, 0)

/-- One level of the fixed tree: neighbours joined, an absent side skipped. -/
def credLevel (sub ty : Nat) : List (Option (Nat × BitVec 5)) → List (Option (Nat × BitVec 5))
  | some (l, f) :: some (h, e) :: r =>
    let (v, x) := credOp sub ty l h
    some (v, f ||| e ||| x) :: credLevel sub ty r
  | none :: h :: r => h :: credLevel sub ty r
  | l :: none :: r => l :: credLevel sub ty r
  | r => r

/-- The reduction of 64 lanes (R195), absent lanes none. -/
def credTree (sub ty : Nat) (ls : List CrewLane) : Option (Nat × BitVec 5) :=
  let t0 := (List.range 64).map fun i => (ls.find? fun l => l.lane = i).map fun l => (l.a, (0 : BitVec 5))
  let lev := credLevel sub ty
  ((lev (lev (lev (lev (lev (lev t0)))))).headD none)

/-- CRED (R195). -/
def execCred (f : Form) (s : State) : Host.Outcome State Fault Refusal :=
  .next (match s.crew s.focus with
    | none => s
    | some (g, c) =>
      let ls := shflLanes g c f
      let (v, fl) := (credTree (crewSub f).1 (crewSub f).2 ls).getD (0, 0)
      crewFinish 0x42 (match f with | .bur _ => .x | _ => .v) f (ls.map fun l => ((l.lane, l.slot), v, fl)) s)

end Sys2Proof.Machine
end

