-- ==== Sys2Proof/Machine/LoadStore.lean ====
section
/-!
DEFINITION. Loads, stores, constants and prefetch (spec/11_loads_stores_atomics.md R218 to R230, R235 to R239), with the
operand forms that all memory instructions share.
-/
namespace Sys2Proof.Machine

/-! ## Operand forms -/

/-- The executing lanes of a memory instruction; a scalar form makes one access, under lane 0 of slot 0 (R221). -/
def memLanes (g : Group) (c : Crew) : Form → List (Nat × Nat)
  | .bur b => burLanes g c b.guard
  | .l d => if d.dv then vecLanes g c d.gp.toNat d.ge d.gn
            else if qGuard g c (d.gp.toNat % 4) d.ge d.gn then [(0, 0)] else []
  | _ => []

/-- The type, policy, data register and its class. -/
def memTy : Form → Nat | .bur b => b.m1.toNat % 16 | .l d => d.ty.toNat | _ => 0
def memPol : Form → Nat | .bur b => fld 5 4 b.m1.toNat | .l d => d.pol.toNat | _ => 0
def memCls : Form → RegCls | .bur _ => .x | .l d => if d.dv then .v else .s | _ => .s
def memDest : Form → Nat | .bur b => b.d | .l d => d.d.toNat | _ => 0
/-- The scalar native form, whose .S32 loads extend to 64 bits (07 R147). -/
def memScalar : Form → Bool | .l d => !d.dv | _ => false
/-- The cycles of an L slot's bound. -/
def lBound : Form → Nat | .l d => d.lat.toNat + 1 | _ => 0

/-- Displacement of an L slot: DISP, or IMX with IM. -/
def lDisp (d : LSlot) : Int := if d.im then d.imx.toInt else d.disp.toInt

/-- The address that a scalar L-slot form names: a(AR) + disp (12 R253). -/
def lBase (g : Group) (c : Crew) (d : LSlot) : Nat := wrapI 56 ((g.getA c.ctx d.ar.toNat).toNat + lDisp d)

/-- The effective address in a lane (R218). -/
def memEa (g : Group) (c : Crew) (f : Form) (lane slot : Nat) : Nat :=
  match f with
  | .bur b => wrapI 56 ((g.getX slot lane b.a).toNat + b.i)
  | .l d =>
    let ix : Int :=
      if !d.xe then 0
      else if d.xc then (g.getV slot d.x.toNat lane).toInt
      else (g.getS c.ctx d.x.toNat).toNat
    wrapI 56 ((g.getA c.ctx d.ar.toNat).toNat + ix + lDisp d)
  | _ => 0

/-- The value that a store writes. -/
def memSrc (g : Group) (c : Crew) (f : Form) (lane slot : Nat) : Nat :=
  match f with
  | .bur b => (g.getX slot lane b.b).toNat
  | .l d => if d.dv then (g.getV slot d.d.toNat lane).toNat else (g.getS c.ctx d.d.toNat).toNat
  | _ => 0

/-- Extend (07 R147, 09 R174): the register value of loaded bytes. -/
def extendVal (ty : Nat) (scalar : Bool) (bs : List Byte) : Nat :=
  let x := leNat bs
  if ty = 12 ∨ ty = 14 then wrapI 32 (sInt (tyWidth ty) x)
  else if ty = 0 ∧ scalar then wrapI 64 (sInt 32 x)
  else x

/-! ## Faults of lanes -/

/-- A lane that faults: lane, address, kind. -/
structure LaneFault where
  lane : Nat
  addr : Nat
  kind : Trap
  deriving DecidableEq, Repr

/-- Latches the faults of an instruction: the lowest lane's kind, in the lanes that raise it (18 R357, R359). -/
def latchFaults (k : Nat) (acc : Acc) (fs : List LaneFault) (s : State) : State :=
  match fs with
  | [] => s
  | f :: _ => latch k { kind := f.kind, lanes := (fs.filter fun x => x.kind = f.kind).map fun x => (x.lane, x.addr), acc := acc } s

/-- Ends the region with a kill at once: the fault takes the place of an earlier latched one (11 R227; 07 R152). -/
def forceKill (k : Nat) (kind : Trap) (s : State) : State :=
  latch k { kind := kind, code := 256 } (s.modRegion k fun r => { r with latched := none, due := true })

/-! ## The region store buffer (R226, R227) -/

/-- Appends an entry; a 769th kills the kernel (R227). -/
def appendBuf (k : Nat) (e : BufEntry) (s : State) : State :=
  match s.crew k with
  | none => s
  | some (_, c) =>
    if 768 ≤ c.region.buf.length then forceKill k .regionOverrun s
    else s.modRegion k fun r => { r with buf := r.buf ++ [e] }

/-- The bytes of the crew's own buffered stores, in issue order (R225). -/
def ownBuffered (c : Crew) : List (Nat × Byte) :=
  c.region.buf.flatMap fun e =>
    match e with
    | .store _ ls => ls.flatMap fun l => (List.range l.bytes.length).map fun i => (l.pa + i, l.bytes.getD i 0)
    | _ => []

/-- Bytes with the crew's own over them: the latest issued byte wins. -/
def overlayOwn (own : List (Nat × Byte)) (pa : Nat) (bs : List Byte) : List Byte :=
  (List.range bs.length).map fun i =>
    match (own.filter fun e => e.1 = pa + i).getLast? with
    | some e => e.2
    | none => bs.getD i 0

/-! ## Hoisted loads (R236) -/

/-- Marks the region alias-conflicted. -/
def markConflict (k : Nat) (s : State) : State := s.modRegion k fun r => { r with conflicted := true }

/-- A store's lines are compared with the alias-detection table. -/
def aliasCheck (k : Nat) (lines : List Nat) (s : State) : State :=
  s.modRegion k fun r => { r with conflicted := r.conflicted || lines.any r.alias_.contains }

/-- An SP load enters its lines; a 33rd conflicts. -/
def aliasEnter (k : Nat) (lines : List Nat) (s : State) : State :=
  s.modRegion k fun r =>
    let a := (r.alias_ ++ lines).eraseDups
    { r with alias_ := a.take 32, spSeen := true, conflicted := r.conflicted || decide (32 < a.length) }

/-- The SP bit (R235). -/
def isSp : Form → Bool | .l d => bitOf 0 d.aop.toNat | _ => false

/-! ## Translating lanes -/

/-- The result of checking lanes: those that may go on, and those that fault. -/
structure Checked where
  s : State
  ok : List LaneAcc := []
  bad : List LaneFault := []
  /-- core cycle from which the translations are held -/
  ready : Nat := 0
  deriving DecidableEq, Repr

/-- Aligns and translates each lane's access of `n` bytes (R219, R225, R226). -/
def checkLanes (k asid n : Nat) (acc : Acc) (lanes : List (Nat × Nat × Nat)) (s : State) : Checked :=
  lanes.foldl (fun (r : Checked) (l : Nat × Nat × Nat) =>
    let (lane, slot, ea) := l
    if ea % n ≠ 0 then { r with bad := r.bad ++ [{ lane := lane, addr := ea, kind := .addrAlign }] }
    else
      match translate k asid ea acc r.s with
      | (s, .error t) => { r with s := s, bad := r.bad ++ [{ lane := lane, addr := ea, kind := t }] }
      | (s, .ok p) => { r with s := s, ok := r.ok ++ [{ lane := lane, slot := slot, va := ea, pa := p.pa, widx := p.widx, page := p.page }], ready := max r.ready p.ready })
    { s := s }

/-! ## Strand-local space (R222) -/

/-- The linear number of a strand in its launch (15 R309). -/
def strandNo (l : Launch) (g : Group) (lane slot : Nat) : Nat :=
  (g.cluster * (l.stages * l.gps) + g.gnum) * l.spg + slot * 64 + lane

/-- The virtual address of byte `o` of strand `t` (R222). -/
def localVa (l : Launch) (t o : Nat) : Nat :=
  let p := 64 * ceilDiv (l.grid * (l.stages * l.gps) * l.spg) 64
  (fld 375 320 l.record.toNat + 4 * (p * (o / 4) + t) + o % 4) % 2 ^ 56

/-- LSIZE of a launch. -/
def Launch.lsize (l : Launch) : Nat := fld 415 384 l.record.toNat

/-- The strand whose array a lane's access reaches: a scalar form takes the crew's lowest active lane (log 11). -/
def localStrand (c : Crew) (f : Form) (lane slot : Nat) : Nat × Nat :=
  if memScalar f then c.strands.headD (0, 0) else (lane, slot)

/-! ## Loads -/

/-- Reads the accesses of a load one by one: the bytes of each, or its fault. -/
def readLanes (k asid pol n : Nat) (own : List (Nat × Byte)) (ls : List LaneAcc) (s : State) :
    State × List (LaneAcc × List Byte) × List LaneFault :=
  ls.foldl (fun acc l =>
    let (s, ok, bad) := acc
    match readPolicy k asid l.va l.pa n pol l.widx s with
    | (s, .ok bs) => (s, ok ++ [(l, overlayOwn own l.pa bs)], bad)
    | (s, .error t) => (s, ok, bad ++ [{ lane := l.lane, addr := l.va, kind := t }])) (s, [], [])

/-- The accesses of one lane joined: an 8-byte local access is two words (R222). -/
def joinLane (rs : List (LaneAcc × List Byte)) (lane slot : Nat) : List Byte :=
  match rs.find? fun r => r.1.lane = lane && r.1.slot = slot with
  | none => []
  | some r =>
    match rs.find? fun x => x.1.lane = lane && x.1.slot = slot && x.1.va ≠ r.1.va with
    | some x => r.2 ++ x.2
    | none => r.2

/-- Every byte of an access stands in the private cache (20 R413). -/
def allHits (s : State) (k pol n : Nat) (ls : List LaneAcc) : Bool :=
  ls.all fun l => isHbm l.pa && pol ≠ 2 && l.widx = 0 &&
    match s.hit k (lineOf l.pa) with
    | some x => maskAt (l.pa % 128) n &&& x.valid = maskAt (l.pa % 128) n
    | none => false

/-- The register writes of a load whose accesses have been read. -/
def loadWrites (f : Form) (rs : List (LaneAcc × List Byte)) (lanes : List (Nat × Nat)) : List RegWr :=
  lanes.map fun (lane, slot) =>
    { cls := memCls f, reg := memDest f, slot := slot, lane := lane,
      val := BitVec.ofNat 64 (extendVal (memTy f) (memScalar f) (joinLane rs lane slot)) }

/-- Zero in the lanes of a list. -/
def zeroWrites (f : Form) (lanes : List (Nat × Nat)) : List RegWr :=
  lanes.map fun (lane, slot) => { cls := memCls f, reg := memDest f, slot := slot, lane := lane, val := 0 }

/-- Runs a load whose lanes have been checked (R225, R237): a Burhus load reads at once and moves on, or faults with no
effect, and its lines ride before the core issues the next Burhus instruction (log 105); a native one reads now and lands 16 cycles on when it hits, and else arrives later. -/
def loadExec (op : Nat) (n : Nat) (f : Form) (ch : Checked) (lanes : List (Nat × Nat)) : State :=
  let s := ch.s
  let k := s.focus
  match s.crew k with
  | none => s
  | some (g, c) =>
    let asid := s.asidOf g
    let own := ownBuffered c
    match f with
    | .bur b =>
      if ch.bad ≠ [] then latchFaults k .read ch.bad s
      else
        let s := foldS (loadLines (memPol f) ch.ok (s.core k)) (sendLine .load asid k) s
        let (s, rs, bad) := readLanes k asid (memPol f) n own ch.ok s
        if bad ≠ [] then latchFaults k .read bad s
        else advance k (lenB op b) (putBur k (loadWrites f rs lanes) s)
    | _ =>
      let sp := isSp f
      let win := ch.ok.filter fun l => sp && l.widx ≠ 0
      let ok := ch.ok.filter fun l => !(sp && l.widx ≠ 0)
      let dead := lanes.filter fun l => ch.bad.any (fun x => x.lane = l.1) || win.any (fun x => x.lane = l.1)
      let live := lanes.filter fun l => !dead.contains l
      let s :=
        if sp then (if dead = [] then id else markConflict k) (aliasEnter k (ok.map fun l => lineOf l.pa) s)
        else latchFaults k .read ch.bad s
      let dl := s.cycle + lBound f
      let s := putHeld k (s.cycle + 16) dl (zeroWrites f dead) s
      if allHits s k (memPol f) n ok && decide (ch.ready ≤ s.cycle) then
        let (s, rs, _) := readLanes k asid (memPol f) n own ok s
        putHeld k (s.cycle + 16) dl (loadWrites f rs live) s
      else
        s.modCrew k fun c => { c with mem := c.mem ++ [{
          deadline := dl, cls := memCls f, reg := memDest f, ty := BitVec.ofNat 4 (memTy f),
          pol := BitVec.ofNat 2 (memPol f), own := own.filter fun e => ok.any fun l => l.pa ≤ e.1 && e.1 < l.pa + n
          lanes := ok, sp := sp, ready := ch.ready }] }

/-- LD (R225). -/
def execLd (f : Form) (s : State) : Host.Outcome State Fault Refusal :=
  .next (match s.crew s.focus with
    | none => s
    | some (g, c) =>
      let n := tyBytes (memTy f)
      let lanes := memLanes g c f
      loadExec 0x50 n f (checkLanes s.focus (s.asidOf g) n .read (lanes.map fun l => (l.1, l.2, memEa g c f l.1 l.2)) s) lanes)

/-- The accesses of a strand-local instruction: alignment and range are checked on the offset, an 8-byte access is two
words (R222). DESIGN CHOICE (log 109): the address that such a fault reports is the offset, since no VA has been formed. -/
def localLanes (l : Launch) (g : Group) (c : Crew) (f : Form) (lanes : List (Nat × Nat)) :
    List (Nat × Nat × Nat) × List LaneFault :=
  let n := tyBytes (memTy f)
  lanes.foldl (fun (acc : List (Nat × Nat × Nat) × List LaneFault) (x : Nat × Nat) =>
    let o := memEa g c f x.1 x.2
    let (sl, ss) := localStrand c f x.1 x.2
    let t := strandNo l g sl ss
    if o % n ≠ 0 then (acc.1, acc.2 ++ [{ lane := x.1, addr := o, kind := .addrAlign }])
    else if l.lsize < o + n then (acc.1, acc.2 ++ [{ lane := x.1, addr := o, kind := .addrUnmapped }])
    else if n = 8 then (acc.1 ++ [(x.1, x.2, localVa l t o), (x.1, x.2, localVa l t (o + 4))], acc.2)
    else (acc.1 ++ [(x.1, x.2, localVa l t o)], acc.2)) ([], [])

/-- Checks the lanes of a strand-local instruction; a lane with a bad word faults once. -/
def checkLocal (k : Nat) (acc : Acc) (f : Form) (g : Group) (c : Crew) (lanes : List (Nat × Nat)) (s : State) : Checked :=
  let l := s.launch g.launch
  let (as_, bad) := localLanes l g c f lanes
  let r := checkLanes k (s.asidOf g) (min 4 (tyBytes (memTy f))) acc as_ s
  let bad := (bad ++ r.bad).foldl (fun a x => if a.any (fun y : LaneFault => y.lane = x.lane) then a else a ++ [x]) []
  let bad := lanes.filterMap fun x => bad.find? fun y => y.lane = x.1
  { r with ok := r.ok.filter fun x => !(bad.any fun y => y.lane = x.lane), bad := bad }

/-- LDL (R222). -/
def execLdl (f : Form) (s : State) : Host.Outcome State Fault Refusal :=
  .next (match s.crew s.focus with
    | none => s
    | some (g, c) =>
      let lanes := memLanes g c f
      loadExec 0x54 (min 4 (tyBytes (memTy f))) f (checkLocal s.focus .read f g c lanes s) lanes)

/-- The bytes of a kernel's constant pool or a launch's parameter block (R223). -/
def constBytes (l : Launch) (pol : Nat) : List Byte :=
  if pol = 0 then (match l.kernel with | some kn => kn.pool | none => []) else l.params

/-- LDC (R223): it lands exactly 16 cycles after issue. -/
def execLdc (f : Form) (s : State) : Host.Outcome State Fault Refusal :=
  .next (match s.crew s.focus with
    | none => s
    | some (g, c) =>
      let n := tyBytes (memTy f)
      let lanes := memLanes g c f
      let src := constBytes (s.launch g.launch) (memPol f)
      let bad : List LaneFault := lanes.filterMap fun x =>
        let o := memEa g c f x.1 x.2
        if o % n ≠ 0 then some { lane := x.1, addr := o, kind := .addrAlign }
        else if src.length < o + n then some { lane := x.1, addr := o, kind := .addrUnmapped } else none
      let ws := lanes.map fun x =>
        let o := memEa g c f x.1 x.2
        { cls := memCls f, reg := memDest f, slot := x.2, lane := x.1,
          val := if bad.any (fun y => y.lane = x.1) then 0
                 else BitVec.ofNat 64 (extendVal (memTy f) (memScalar f) ((src.drop o).take n)) : RegWr }
      match f with
      | .bur b =>
        if bad ≠ [] then latchFaults s.focus .read bad s else advance s.focus (lenB 0x56 b) (putBur s.focus ws s)
      | _ => latchFaults s.focus .read bad (putMem true s.focus (s.cycle + 16) (s.cycle + lBound f) ws s))

/-! ## Stores -/

/-- Buffers a store whose lanes have been checked (R226); a Burhus store with a fault has no effect. -/
def storeExec (op pol : Nat) (f : Form) (ch : Checked) : State :=
  let s := ch.s
  let k := s.focus
  match f with
  | .bur b =>
    if ch.bad ≠ [] then latchFaults k .write ch.bad s
    else advance k (lenB op b) (appendBuf k (.store (BitVec.ofNat 2 pol) ch.ok) s)
  | _ =>
    let s := latchFaults k .write ch.bad (aliasCheck k (ch.ok.map fun l => lineOf l.pa) s)
    if ch.ok = [] then s else appendBuf k (.store (BitVec.ofNat 2 pol) ch.ok) s

/-- ST (R226). -/
def execSt (f : Form) (s : State) : Host.Outcome State Fault Refusal :=
  .next (match s.crew s.focus with
    | none => s
    | some (g, c) =>
      let n := tyBytes (memTy f)
      let ch := checkLanes s.focus (s.asidOf g) n .write ((memLanes g c f).map fun l => (l.1, l.2, memEa g c f l.1 l.2)) s
      storeExec 0x51 (memPol f) f
        { ch with ok := ch.ok.map fun l => { l with bytes := leBytes n (memSrc g c f l.lane l.slot) } })

/-- STL (R222). -/
def execStl (f : Form) (s : State) : Host.Outcome State Fault Refusal :=
  .next (match s.crew s.focus with
    | none => s
    | some (g, c) =>
      let n := tyBytes (memTy f)
      let ch := checkLocal s.focus .write f g c (memLanes g c f) s
      let la := s.launch g.launch
      let words := ch.ok.map fun l =>
        let t := strandNo la g (localStrand c f l.lane l.slot).1 (localStrand c f l.lane l.slot).2
        let hi := l.va ≠ localVa la t (memEa g c f l.lane l.slot)
        { l with bytes := leBytes (min n 4) (memSrc g c f l.lane l.slot >>> (if hi then 32 else 0)) }
      storeExec 0x55 0 f { ch with ok := words })

/-! ## Prefetch (R239) -/

/-- PREF: what faults, or names host, peer or window space, does nothing. -/
def execPref (f : Form) (s : State) : Host.Outcome State Fault Refusal :=
  .next (match s.crew s.focus with
    | none => s
    | some (g, c) =>
      let k := s.focus
      let asid := s.asidOf g
      let s := foldS (memLanes g c f) (fun x s =>
        let va := memEa g c f x.1 x.2
        match translate k asid va .read s with
        | (s, .ok p) =>
          if !isHbm p.pa || p.widx ≠ 0 then s
          else
          let s := if memPol f ≤ 1 && (s.hit k (lineOf p.pa)).isNone then sendLine .hint asid k (lineOf p.pa) s else s
          if memPol f = 0 then
            if (s.hit k (lineOf p.pa)).isSome || (s.ways k).isEmpty then (homeLine (lineOf p.pa) s).1
            else (fillCache k asid (va / 128) (lineOf p.pa) s).1
          else if memPol f = 1 then (homeLine (lineOf p.pa) s).1
          else s
        | (s, .error _) => s) s
      match f with
      | .bur b => advance k (lenB 0x5B b) s
      | _ => s)

end Sys2Proof.Machine
end

