-- ==== Sys2Proof/Machine/Local.lean ====
section
/-!
DEFINITION. Core SRAM (spec/07_core_sram_registers.md R144 to R155): scratchpad loads and stores, FIFO pushes and pops,
spills and fills, and the transfer slot.
-/
namespace Sys2Proof.Machine

/-- The running crew waits before it goes on (14 R288): its next bundle or instruction has not taken effect. -/
def holdCrew (k : Nat) (w : Wait) (s : State) : State := s.modCrew k fun c => { c with hold := some w }

/-! ## Scratchpad (R144 to R147) -/

/-- The address of a lane's access raises LOCAL_BAD (R144). -/
def localBad (g : Group) (ea n : Nat) : Bool :=
  decide (393216 < ea + n) || decide (ea % n ≠ 0) || decide (g.modeOf (fld 18 15 ea) ≠ some 1)

/-- The bytes of the crew's own buffered STSs, in issue order (R146). -/
def ownLocal (c : Crew) : List (Nat × Byte) :=
  c.region.buf.flatMap fun e =>
    match e with
    | .sts ls => ls.flatMap fun l => (List.range l.2.length).map fun i => (l.1 + i, l.2.getD i 0)
    | _ => []

/-- LocalRead: scratchpad bytes with the crew's own buffered ones over them. -/
def localRead (g : Group) (c : Crew) (ea n : Nat) : List Byte :=
  overlayOwn (ownLocal c) ea (SMap.getList 0 g.scratch ea n)

/-- The passes of an access: the most distinct rows that one column of one bank is asked for (R145). -/
def passes (eas : List Nat) : Nat :=
  let cells := (eas.map fun a => (fld 18 15 a * 64 + fld 7 2 a, fld 14 8 a)).eraseDups
  cells.foldl (fun m x => max m (cells.filter fun y => y.1 = x.1).length) 1

/-- The lanes of a scratchpad access with their addresses, those that fault apart. -/
def localAccess (g : Group) (c : Crew) (f : Form) : List (Nat × Nat × Nat) × List LaneFault :=
  let n := tyBytes (memTy f)
  let ls := (memLanes g c f).map fun l => (l.1, l.2, memEa g c f l.1 l.2)
  (ls.filter fun l => !localBad g l.2.2 n,
   (ls.filter fun l => localBad g l.2.2 n).map fun l => { lane := l.1, addr := l.2.2, kind := .localBad })

/-- LDS (R147): a slot's result lands 6 cycles on and one later for each further pass, and holds its crew where that is past its bound (R145). -/
def execLds (f : Form) (s : State) : Host.Outcome State Fault Refusal :=
  .next (match s.crew s.focus with
    | none => s
    | some (g, c) =>
      let n := tyBytes (memTy f)
      let (ok, bad) := localAccess g c f
      let ws := ok.map fun l =>
        { cls := memCls f, reg := memDest f, slot := l.2.1, lane := l.1,
          val := BitVec.ofNat 64 (extendVal (memTy f) (memScalar f) (localRead g c l.2.2 n)) : RegWr }
      match f with
      | .bur b =>
        if bad ≠ [] then latchFaults s.focus .read bad s else advance s.focus (lenB 0x52 b) (putBur s.focus ws s)
      | _ =>
        let dead := (memLanes g c f).filter fun l => bad.any fun x => x.lane = l.1
        latchFaults s.focus .read bad
          (putMem true s.focus (s.cycle + 5 + passes (ok.map (·.2.2))) (s.cycle + lBound f) (ws ++ zeroWrites f dead) s))

/-- STS (R147): the bytes are buffered with the region's stores (R146). -/
def execSts (f : Form) (s : State) : Host.Outcome State Fault Refusal :=
  .next (match s.crew s.focus with
    | none => s
    | some (g, c) =>
      let n := tyBytes (memTy f)
      let (ok, bad) := localAccess g c f
      let e := BufEntry.sts (ok.map fun l => (l.2.2, leBytes n (memSrc g c f l.1 l.2.1)))
      match f with
      | .bur b =>
        if bad ≠ [] then latchFaults s.focus .write bad s else advance s.focus (lenB 0x53 b) (appendBuf s.focus e s)
      | _ =>
        let s := latchFaults s.focus .write bad s
        if ok = [] then s else appendBuf s.focus e s)

/-! ## FIFOs (R150 to R153) -/

/-- The bank that a PUSH or POP names. -/
def fifoBank : Form → Nat | .bur b => b.n1 | .l d => fld 3 0 d.disp.toNat | _ => 0
/-- PCREW and CCREW of bank `b` (Table 7.4). -/
def Group.pcrew (g : Group) (b : Nat) : Nat := fld 11 8 (g.fcb.get 0 b).toNat
def Group.ccrew (g : Group) (b : Nat) : Nat := fld 3 0 (g.fcb.get 0 b).toNat
def Group.pcore (g : Group) (b : Nat) : Nat := fld 20 12 (g.fcb.get 0 b).toNat
/-- The queue of bank `b`. -/
def Group.queue (g : Group) (b : Nat) : Fifo := g.fifo.get {} b
def Group.setQueue (g : Group) (b : Nat) (q : Fifo) : Group := { g with fifo := g.fifo.set {} b q }
/-- Published entries not yet retired (HELD). -/
def Fifo.held (q : Fifo) : Nat := q.entries.length + q.inbound.length
/-- Free places (R151). -/
def Fifo.room (q : Fifo) : Nat := 128 - (q.held + q.unpublished)

/-- FCB + `b` as a read gives it (Table 7.4). -/
def Group.fcbVal (g : Group) (b : Nat) : W64 :=
  BitVec.ofNat 64 ((g.queue b).held * 2 ^ 32 + g.pcore b * 2 ^ 12 + g.pcrew b * 2 ^ 8 + g.ccrew b)
/-- BKM and the twelve FCB registers as they stand, which a commit point keeps for the crew's reads (R156). -/
def Group.bankCsrs (g : Group) : BitVec 24 × List W64 := (g.bkm, (List.range 12).map g.fcbVal)

/-- The group of the same launch and cluster on another core. -/
def State.sibling (s : State) (g : Group) (core : Nat) : Option Group :=
  match s.group core with
  | some h => if h.launch = g.launch ∧ h.cluster = g.cluster then some h else none
  | none => none

/-- The core that this group's FDN names. -/
def Group.down (g : Group) : Option Nat := if g.fdn.getLsbD 9 then some (fld 8 0 g.fdn.toNat) else none

/-- The executing lanes of a PUSH or POP. -/
def fifoLanes (g : Group) (c : Crew) : Form → List (Nat × Nat)
  | .bur b => burLanes g c b.guard
  | .l d => vecLanes g c d.gp.toNat d.ge d.gn
  | _ => []

/-- FIFO_BAD of an instruction that executes whatever its guard: in its executing lanes, or in the whole crew. -/
def fifoBad (g : Group) (c : Crew) (f : Form) (s : State) : State :=
  let ls := match fifoLanes g c f with | [] => c.strands | l => l
  latchLanes s.focus .fifoBad (ls.map fun l => (l.1, 0)) .write s

/-- What a PUSH meets before it can write its entry (R151, R152). -/
inductive PushState where
  | bad | full | overrun
  | ok (core : Nat)
  deriving DecidableEq, Repr

def pushState (s : State) (g : Group) (c : Crew) (b : Nat) : PushState :=
  match g.down with
  | none => .bad
  | some d =>
    match s.sibling g d with
    | none => .ok d
    | some h =>
      let q := h.queue b
      if h.pcrew b ≠ c.ctx then .bad
      else if q.room ≠ 0 then .ok d
      else if (c.region.pushed.filter fun p => p.1 = b).length = 128 then .overrun
      else .full

/-- The moving past a Burhus instruction that a slot does not have. -/
def advanceForm (op : Nat) (f : Form) (s : State) : State :=
  match f with
  | .bur b => advance s.focus (lenB op b) s
  | _ => s

/-- PUSH (R151, R152): one entry of 64 lanes, tentative until the crew's commit point; a full FIFO blocks the crew. -/
def execPush (f : Form) (s : State) : Host.Outcome State Fault Refusal :=
  .next (match s.crew s.focus with
    | none => s
    | some (g, c) =>
      let b := fifoBank f
      match pushState s g c b with
      | .bad => fifoBad g c f s
      | .full => holdCrew s.focus (.fifoSpace b) s
      | .overrun => forceKill s.focus .fifoBad s
      | .ok d =>
        let ls := fifoLanes g c f
        let entry := (List.range 64).map fun i =>
          match ls.find? fun l => l.1 = i with
          | some l => BitVec.ofNat 32 (memSrc g c f l.1 l.2)
          | none => (0 : W32)
        let s := if (s.sibling g d).isSome then
            s.modGroup d fun h => h.setQueue b { h.queue b with unpublished := (h.queue b).unpublished + 1 }
          else s
        advanceForm 0x57 f (s.modRegion s.focus fun r => { r with pushed := r.pushed ++ [(b, entry)] }))

/-- POP (R151, R152): the oldest published entry that this region has not taken; an empty FIFO blocks the crew. -/
def execPop (f : Form) (s : State) : Host.Outcome State Fault Refusal :=
  .next (match s.crew s.focus with
    | none => s
    | some (g, c) =>
      let b := fifoBank f
      let ls := fifoLanes g c f
      if g.modeOf b ≠ some 2 ∨ g.ccrew b ≠ c.ctx then
        match f with
        | .bur _ => fifoBad g c f s
        | _ => fifoBad g c f (putLater s.focus (s.cycle + 6) (s.cycle + lBound f) (zeroWrites f ls) s)
      else
        let q := g.queue b
        match q.entries[q.taken]? with
        | none => holdCrew s.focus (.fifoEntry b) s
        | some e =>
          let ws := ls.map fun l =>
            { cls := memCls f, reg := memDest f, slot := l.2, lane := l.1, val := (e.getD l.1 0).setWidth 64 : RegWr }
          let s := s.modGroup s.focus fun g => g.setQueue b { g.queue b with taken := (g.queue b).taken + 1 }
          let s := s.modRegion s.focus fun r => { r with popped := r.popped.set 0 b (r.popped.get 0 b + 1) }
          match f with
          | .bur i => advance s.focus (lenB 0x58 i) (putBur s.focus ws s)
          | _ => putLater s.focus (s.cycle + 6) (s.cycle + lBound f) ws s)

/-! ## Spill and fill (R155) -/

/-- Key of a byte of a home slot's spill area. -/
def spillKey (slot o : Nat) : Nat := slot * 16384 + o
/-- Where byte `o` of home slot `j`'s area stands for a core: L2 bank, set, way and byte of the line, in the region's own quad (05 R110). -/
def spillPlace (core j o : Nat) : Nat × Nat × Nat × Nat :=
  let c := core % 8
  let slice := 64 * dieOf core + 4 * (regionOf core % 16) + c / 2
  (8 * slice + 4 * (c % 2) + j / 4, 32 * (j % 4) + o / 512, 12 + o / 128 % 4, o % 128)
/-- The byte of the area that a scalar SPL or FIL names. -/
def spillScalar (d : LSlot) : Nat := 256 * fld 5 0 d.disp.toNat + 8 * fld 10 6 d.disp.toNat
/-- The byte of the area that lane `i` of a vector SPL or FIL names. -/
def spillLane (d : LSlot) (i : Nat) : Nat := 256 * fld 5 0 d.disp.toNat + 4 * i

/-- SPL: it takes effect at issue. -/
def execSpl (d : LSlot) (s : State) : Host.Outcome State Fault Refusal :=
  .next (match s.crew s.focus with
    | none => s
    | some (g, c) =>
      let m := (memLanes g c (.l d)).foldl (fun (m : SMap Byte) l =>
        if d.dv then m.setList 0 (spillKey l.2 (spillLane d l.1)) (leBytes 4 (g.getV l.2 d.d.toNat l.1).toNat)
        else m.setList 0 (spillKey c.ctx (spillScalar d)) (leBytes 8 (g.getS c.ctx d.d.toNat).toNat)) g.spill
      s.modGroup s.focus fun g => { g with spill := m })

/-- FIL: it lands exactly 24 cycles on. -/
def execFil (d : LSlot) (s : State) : Host.Outcome State Fault Refusal :=
  .next (match s.crew s.focus with
    | none => s
    | some (g, c) =>
      putLater s.focus (s.cycle + 24) (s.cycle + d.lat.toNat + 1) ((memLanes g c (.l d)).map fun l =>
        { cls := memCls (.l d), reg := d.d.toNat, slot := l.2, lane := l.1
          val := BitVec.ofNat 64 (leNat (if d.dv then SMap.getList 0 g.spill (spillKey l.2 (spillLane d l.1)) 4
                                         else SMap.getList 0 g.spill (spillKey c.ctx (spillScalar d)) 8)) : RegWr }) s)

/-! ## The transfer slot (R154, 03 R54) -/

/-- XV. -/
def execXv (vd : BitVec 6) (ss : BitVec 5) (s : State) : Host.Outcome State Fault Refusal :=
  .next (match s.crew s.focus with
    | none => s
    | some (g, c) =>
      putLater s.focus (s.cycle + 2) (s.cycle + 2) (c.strands.map fun l =>
        { cls := .v, reg := vd.toNat, slot := l.2, lane := l.1
          val := ((g.getS c.ctx ss.toNat).setWidth 32).setWidth 64 : RegWr }) s)

/-- XS: the lane is read whether or not it is active. -/
def execXs (sx : Bool) (sd : BitVec 5) (vs lane : BitVec 6) (s : State) : Host.Outcome State Fault Refusal :=
  .next (match s.crew s.focus with
    | none => s
    | some (g, c) =>
      let x := g.getV (laneSlot c lane.toNat) vs.toNat lane.toNat
      putLater s.focus (s.cycle + 2) (s.cycle + 2)
        [{ cls := .s, reg := sd.toNat, slot := 0, lane := 0, val := if sx then x.signExtend 64 else x.setWidth 64 }] s)

/-- XS.P: all 64 bits of a predicate register, lane by lane of the crew; the bit of a lane whose register is another crew's reads as 0. -/
def execXsP (sd : BitVec 5) (pk : BitVec 3) (s : State) : Host.Outcome State Fault Refusal :=
  .next (match s.crew s.focus with
    | none => s
    | some (g, c) =>
      let v := (ownLanes g c).foldl (fun (v : W64) l => setBit v l.1 (g.getP l.2 pk.toNat l.1)) 0
      putLater s.focus (s.cycle + 2) (s.cycle + 2) [{ cls := .s, reg := sd.toNat, slot := 0, lane := 0, val := v }] s)

/-- BC names the scalar register of the broadcast port, which the V slots of its bundle read at issue (R54); it writes
nothing. -/
def execBc (_ss : BitVec 5) (s : State) : Host.Outcome State Fault Refusal := .next s

end Sys2Proof.Machine
end

