-- ==== Sys2Proof/Machine/Atomics.lean ====
section
/-!
DEFINITION. ATOM and CAS (spec/11_loads_stores_atomics.md R231 to R234): the checks made at issue, and the read, change and
write of each lane that the commit point performs.
-/
namespace Sys2Proof.Machine

/-- Fields of an atomic's form: scope, operation, compare or operand register value, and swap value of a lane. -/
def atomScope : Form → Nat | .bur b => fld 2 0 b.m2.toNat | .l d => d.scope.toNat | _ => 0
def atomOp : Form → Nat | .bur b => fld 7 4 b.m2.toNat | .l d => d.aop.toNat | _ => 0

/-- The effective address of an atomic: no index register in the slot (R231). -/
def atomEa (g : Group) (c : Crew) (f : Form) (lane slot : Nat) : Nat :=
  match f with
  | .l d => lBase g c { d with im := false }
  | _ => memEa g c f lane slot

/-- The register value that an atomic's slot names in a lane. -/
def atomReg (g : Group) (c : Crew) (d : LSlot) (r lane slot : Nat) : W64 :=
  if d.dv then (g.getV slot r lane).setWidth 64 else g.getS c.ctx r

/-- Operand (ATOM) or compare value (CAS), and the swap value. -/
def atomVals (cas : Bool) (g : Group) (c : Crew) (f : Form) (lane slot : Nat) : W64 × W64 :=
  match f with
  | .bur b => (g.getX slot lane b.b, if cas then g.getX slot lane b.c else 0)
  | .l d =>
    if cas then (atomReg g c d d.d.toNat lane slot, atomReg g c d d.x.toNat lane slot)
    else (atomReg g c d d.x.toNat lane slot, 0)
  | _ => (0, 0)

/-- Op of R233, by its code. -/
def atomResult (op ty old v : Nat) : Nat :=
  if ty = 4 then
    match op with
    | 0 => (fAdd fmtF32 0 (fmtF32.read old) (fmtF32.read (v % 2 ^ 32))).1
    | 1 => (fMinMax fmtF32 true old (v % 2 ^ 32)).1
    | _ => (fMinMax fmtF32 false old (v % 2 ^ 32)).1
  else
    cut ty (match op with
      | 0 => old + v
      | 1 => if nVal ty old ≤ nVal ty v then old else v
      | 2 => if nVal ty old < nVal ty v then v else old
      | 3 => old &&& v
      | 4 => old ||| v
      | 5 => old ^^^ v
      | _ => v)

/-- The new value that one lane's atomic writes, if it writes. -/
def atomNew (cas : Bool) (op ty : Nat) (v w old : Nat) : Option Nat :=
  if cas then (if old = cut ty v then some (cut ty w) else none) else some (atomResult op ty old v)

/-- ATOM_BAD (Table 11.6); PCIe's FetchAdd adds integers. -/
def atomPlaceBad (cas : Bool) (op ty scope : Nat) (l : LaneAcc) : Bool :=
  atomBad scope l.pa l.widx cas op (tyBytes ty) || (isHost l.pa && ty = 4)

/-- Runs ATOM or CAS up to its commit point (R232): checks at issue, and the operation noted for the commit point that
stands after it. -/
def atomExec (opc : Nat) (cas : Bool) (f : Form) (s : State) : State :=
  match s.crew s.focus with
  | none => s
  | some (g, c) =>
    let k := s.focus
    let ty := memTy f
    let n := tyBytes ty
    let lanes := memLanes g c f
    let r := checkLanes k (s.asidOf g) n .write (lanes.map fun l => (l.1, l.2, atomEa g c f l.1 l.2)) s
    let bad := r.bad ++ (r.ok.filter (atomPlaceBad cas (atomOp f) ty (atomScope f))).map fun l =>
      { lane := l.lane, addr := l.va, kind := .atomBad }
    let bad := lanes.filterMap fun x => bad.find? fun y => y.lane = x.1
    let ok := r.ok.filter fun l => !bad.any fun x => x.lane = l.lane
    let op := CommitOp.atom cas (BitVec.ofNat 4 (atomOp f)) (BitVec.ofNat 4 ty) (BitVec.ofNat 3 (atomScope f)) (memCls f)
      (memDest f) (ok.map fun l => (l, atomVals cas g c f l.lane l.slot))
    match f with
    | .bur b =>
      if bad ≠ [] then latchFaults k .write bad r.s
      else advance k (lenB opc b) (r.s.modRegion k fun x => { x with ops := x.ops ++ [op], due := true })
    | _ =>
      let dead := lanes.filter fun l => bad.any fun x => x.lane = l.1
      let s := putHeld k (r.s.cycle + 16) (r.s.cycle + lBound f) (zeroWrites f dead) r.s
      let s := latchFaults k .write bad (aliasCheck k (ok.map fun l => lineOf l.pa) s)
      s.modRegion k fun x => { x with ops := x.ops ++ [op], due := true }

/-- ATOM. -/
def execAtom (f : Form) (s : State) : Host.Outcome State Fault Refusal := .next (atomExec 0x59 false f s)

/-- CAS. -/
def execCas (f : Form) (s : State) : Host.Outcome State Fault Refusal := .next (atomExec 0x5A true f s)

/-- Obtains and verifies the HBM lines of an atomic's lanes before any is performed (R232): a line that is whole in the private cache serves at
.C and .G as it stands there (R234). -/
def atomLines (k scope : Nat) (ls : List LaneAcc) (s : State) : State × List LaneFault :=
  ls.foldl (fun acc l =>
    let whole := decide (scope ≤ 1) && !uncached acc.1 k l.widx && (acc.1.hit k (lineOf l.pa)).any fun c => c.valid = fullMask
    if isHbm l.pa && !whole then
      match homeLine (lineOf l.pa) acc.1 with
      | (s, some _) => (s, acc.2)
      | (s, none) => (s, acc.2 ++ [{ lane := l.lane, addr := l.va, kind := .integFail }])
    else acc) (s, [])

/-- Performs an atomic at a commit point, lane by lane: the register writes of the old values, or the lanes whose lines do
not verify; a lane whose link fails stops it, with the lanes before it performed (R232). -/
def performAtom (k asid : Nat) (cas : Bool) (op ty scope : Nat) (cls : RegCls) (reg : Nat)
    (lanes : List (LaneAcc × W64 × W64)) (s : State) : State × List RegWr × List LaneFault :=
  match atomLines k scope (lanes.map Prod.fst) s with
  | (s, f :: fs) => (s, [], f :: fs)
  | (s, []) =>
    lanes.foldl (fun (acc : State × List RegWr × List LaneFault) x =>
      let l := x.1
      if acc.2.2 ≠ [] then acc
      else match atomicAccess k asid scope l.va l.pa (tyBytes ty) l.widx
          (fun old => atomNew cas op ty x.2.1.toNat x.2.2.toNat old) acc.1 with
      | (s, .ok old) =>
        let v := extendVal ty (decide (cls = .s)) (leBytes (tyBytes ty) old)
        (s, acc.2.1 ++ [{ cls := cls, reg := reg, slot := l.slot, lane := l.lane, val := BitVec.ofNat 64 v }], [])
      | (s, .error t) => (s, acc.2.1, [{ lane := l.lane, addr := l.va, kind := t }])) (s, [], [])

end Sys2Proof.Machine
end

