-- ==== Sys2Proof/Machine/Ordering.lean ====
section
/-!
DEFINITION. Ordering and recovery instructions as a crew issues them (spec/12_memory_consistency.md R246 to R255,
spec/13_recovery_undo.md R271, R274): ACQ, REL, FENCE, BIND, UNBIND, SEAL and GATE.
-/
namespace Sys2Proof.Machine

/-- The object address of each executing strand, or of the whole slot (R253, R254). -/
def syncObjs (g : Group) (c : Crew) (f : Form) : List (Nat × Nat × Nat) :=
  match f with
  | .bur b => (burLanes g c b.guard).map fun l => (l.1, l.2, (g.getX l.2 l.1 b.a).toNat % 2 ^ 56)
  | .l d => if qGuard g c (d.gp.toNat % 4) d.ge d.gn then [(0, 0, lBase g c d)] else []
  | _ => []

/-- One entry for each distinct object, under the lowest lane that names it. -/
def distinctObjs (ls : List (Nat × Nat × Nat)) : List (Nat × Nat × Nat) :=
  ls.foldl (fun acc l => if acc.any (fun x => x.2.2 = l.2.2) then acc else acc ++ [l]) []

/-- Scope and the SC bit of an ordering instruction (R253). -/
def syncScope : Form → Nat | .bur b => fld 2 0 b.m1.toNat | .l d => d.scope.toNat | _ => 0
def syncSc : Form → Bool | .bur b => bitOf 3 b.m1.toNat | .l d => bitOf 0 d.aop.toNat | _ => false

/-- The instruction executes for the crew: some strand does, or the slot's guard holds. -/
def crewExecutes (g : Group) (c : Crew) (f : Form) : Bool :=
  match f with
  | .bur b => !(burLanes g c b.guard).isEmpty
  | .l d => qGuard g c (d.gp.toNat % 4) d.ge d.gn
  | _ => false

/-- Checks the objects of an ACQ or REL (R249, R255): aligned to 8, translated, and at a place that the scope has. -/
def checkObjs (k asid scope : Nat) (acc : Acc) (ls : List (Nat × Nat × Nat)) (s : State) : Checked :=
  let r := checkLanes k asid 8 acc ls s
  let no := fun (l : LaneAcc) => atomBad scope l.pa l.widx false 0 8
  let bad := r.bad ++ (r.ok.filter no).map fun l => { lane := l.lane, addr := l.va, kind := .atomBad }
  { r with ok := r.ok.filter fun l => !no l, bad := ls.filterMap fun x => bad.find? fun y => y.lane = x.1 }

/-- The scope at which an operation on an object acts: a window object's is .D at least (Table 11.6). -/
def objScope (scope : Nat) (l : LaneAcc) : Nat := if l.widx ≠ 0 then max scope 3 else scope

/-- Marks the region when a synchronisation follows an SP load (11 R236). -/
def spConflict (k : Nat) (c : Crew) (s : State) : State := if c.region.spSeen then markConflict k s else s

/-- A load, atomic, TLR or command number of the crew has not landed (R249); LDC and LDS are none of them (R242). -/
def Crew.unlanded (c : Crew) (t : Nat) : Bool :=
  !c.mem.isEmpty || !c.accepting.isEmpty || c.inflight.any fun l => l.held && !l.free && decide (t < l.at_)

/-- ACQ (R249): once every earlier result has landed, the lines that the objects' bindings cover leave the private cache,
and the crew waits 32 core cycles. -/
def execAcq (f : Form) (s : State) : Host.Outcome State Fault Refusal :=
  .next (match s.crew s.focus with
    | none => s
    | some (g, c) =>
      let k := s.focus
      if crewExecutes g c f && c.unlanded s.cycle then holdCrew k (.acquire s.cycle) s
      else
        let asid := s.asidOf g
        let scope := syncScope f
        let r := checkObjs k asid scope .read (syncObjs g c f) s
        let go := fun (s : State) =>
          let wide := r.ok.any fun l => 2 ≤ objScope scope l
          let s := foldS (distinctObjs (r.ok.map fun l => (l.lane, objScope scope l, l.va))) (fun o s =>
            if 2 ≤ o.2.1 then acquireInval k asid o.2.2 s else s) s
          if wide then holdCrew k (.acquire (s.cycle + 32)) s else s
        match f with
        | .bur b => if r.bad ≠ [] then latchFaults k .read r.bad r.s else go (advance k (lenB 0x60 b) r.s)
        | _ => if r.bad ≠ [] then latchFaults k .read r.bad r.s else if r.ok = [] then r.s else spConflict k c (go r.s))

/-- A lane that has done its part of the instruction names an object (R254). -/
def namedBefore (g : Group) (c : Crew) (f : Form) (o : Nat) : Bool :=
  match f with
  | .bur b => c.strands.any fun l => c.skip.contains l.1 && (g.getX l.2 l.1 b.a).toNat % 2 ^ 56 = o
  | _ => false

/-- REL (R248, R254) up to its commit point. Each distinct object has a commit point of its own, in the order of its lowest lane: there it is
released and incremented by 1 for that lane, and where more strands name it, an ATOM.ADD of their count follows at a commit point of its own, before
the next object's. The lanes that are done skip the instruction until all are. -/
def execRel (f : Form) (s : State) : Host.Outcome State Fault Refusal :=
  .next (match s.crew s.focus with
    | none => s
    | some (g, c) =>
      let k := s.focus
      let scope := syncScope f
      let all := syncObjs g c f
      let first := (all.find? fun o => namedBefore g c f o.2.2).orElse fun _ => all.head?
      let mine := all.filter fun l => first.any fun o => l.2.2 = o.2.2
      let r := checkObjs k (s.asidOf g) scope .write mine s
      let again := first.any fun o => namedBefore g c f o.2.2
      let now := if again then mine else mine.take 1
      let op := (r.ok.take 1).map fun l =>
        if again then CommitOp.add (BitVec.ofNat 3 scope) l now.length else .rel (BitVec.ofNat 3 scope) [(l, 1)]
      let note := fun (s : State) => s.modRegion k fun x => { x with ops := x.ops ++ op, due := true }
      match f with
      | .bur b =>
        if r.bad ≠ [] then latchFaults k .write r.bad r.s
        else if now.length = all.length then note (advance k (lenB 0x61 b) r.s)
        else note (r.s.modCrew k fun c => { c with skip := c.skip ++ now.map Prod.fst })
      | _ => note (latchFaults k .write r.bad r.s))

/-- Notes an operation for the commit point that stands after its bundle; nothing is noted where the crew does not
execute it. -/
def noteOp (opc : Nat) (op : CommitOp) (f : Form) (s : State) : State :=
  match s.crew s.focus with
  | none => s
  | some (g, c) =>
    let s := if crewExecutes g c f then s.modRegion s.focus fun x => { x with ops := x.ops ++ [op] } else s
    advanceForm opc f (s.modRegion s.focus fun x => { x with due := true })

/-- FENCE (R251) up to its commit point. -/
def execFence (f : Form) (s : State) : Host.Outcome State Fault Refusal :=
  .next (match s.crew s.focus with
    | none => s
    | some (g, c) =>
      let s := if crewExecutes g c f then spConflict s.focus c s else s
      noteOp 0x62 (.fence (BitVec.ofNat 3 (syncScope f)) (syncSc f)) f s)

/-- A binding's operands in each executing strand: object, base, length. -/
def bindOps (g : Group) (c : Crew) (f : Form) : List (Nat × Nat × Nat × Nat) :=
  match f with
  | .bur b => (burLanes g c b.guard).map fun l =>
      (l.1, (g.getX l.2 l.1 b.a).toNat, (g.getX l.2 l.1 b.b).toNat, (g.getX l.2 l.1 b.c).toNat)
  | .l d => if qGuard g c (d.gp.toNat % 4) d.ge d.gn
      then [(0, lBase g c d, (g.getS c.ctx d.d.toNat).toNat, (g.getS c.ctx (d.d.toNat + 1)).toNat)] else []
  | _ => []

/-- A binding is outside the limits of R247. -/
def bindBad (o base len : Nat) : Bool :=
  decide (o % 8 ≠ 0) || decide (len = 0) || decide (2 ^ 48 < len) || decide (2 ^ 56 < base + len)

/-- Ends an instruction that buffers entries: a fault with no effect for Burhus, the entries and the latch for a slot. -/
def bufferAll (opc : Nat) (f : Form) (bad : List LaneFault) (es : List BufEntry) (s : State) : State :=
  match f with
  | .bur b =>
    if bad ≠ [] then latchFaults s.focus .write bad s
    else advance s.focus (lenB opc b) (foldS es (appendBuf s.focus) s)
  | _ => foldS es (appendBuf s.focus) (latchFaults s.focus .write bad s)

/-- BIND (R247): each distinct binding that the store buffer takes reserves a place of the table and is buffered. -/
def execBind (f : Form) (s : State) : Host.Outcome State Fault Refusal :=
  .next (match s.crew s.focus with
    | none => s
    | some (g, c) =>
      let asid := s.asidOf g
      let ops := bindOps g c f
      let new := (ops.filter fun o => !bindBad o.2.1 o.2.2.1 o.2.2.2).foldl (fun (acc : List (Nat × Nat × Nat × Nat)) o =>
        if acc.any (fun x => x.2 = o.2) then acc else acc ++ [o]) []
      let room := 1024 - ((s.ctx asid).binds.length + (s.ctx asid).bindRes)
      let beyond := new.drop room
      let bad : List LaneFault := (ops.filter fun o => bindBad o.2.1 o.2.2.1 o.2.2.2 || beyond.any fun x => x.2 = o.2).map fun o =>
        { lane := o.1, addr := 0, kind := .syncBad }
      let take := match f with | .bur _ => if bad ≠ [] then [] else new | _ => new.take room
      let s := s.modCtx asid fun x => { x with bindRes := x.bindRes + min take.length (768 - c.region.buf.length) }
      bufferAll 0x63 f bad (take.map fun o => .bind (o.2.1 % 2 ^ 56) o.2.2.1 o.2.2.2) s)

/-- UNBIND (R247). -/
def execUnbind (f : Form) (s : State) : Host.Outcome State Fault Refusal :=
  .next (match s.crew s.focus with
    | none => s
    | some (g, c) =>
      let objs := syncObjs g c f
      let bad : List LaneFault := (objs.filter fun o => o.2.2 % 8 ≠ 0).map fun o => { lane := o.1, addr := 0, kind := .syncBad }
      bufferAll 0x64 f bad ((distinctObjs (objs.filter fun o => o.2.2 % 8 = 0)).map fun o => .unbind o.2.2) s)

/-- A forbidden operation of a handler kills the kernel with HANDLER_FAULT, FCAUSE 0 (18 R362). -/
def handlerForbids (k : Nat) (c : Crew) (go : State → State) (s : State) : State :=
  if c.handler then forceKill k .handlerFault s else go s

/-- SEAL (13 R271, R272) up to its commit point; a handler may not issue it (Table 13.6). -/
def execSeal (f : Form) (s : State) : Host.Outcome State Fault Refusal :=
  .next (match s.crew s.focus with
    | none => s
    | some (g, c) =>
      if crewExecutes g c f then handlerForbids s.focus c (noteOp 0x68 .seal f) s else noteOp 0x68 .seal f s)

/-- The number that a GATE carries. -/
def gateNum : Form → Nat | .bur b => b.n1 | .l d => d.imx.toNat | _ => 0

/-- GATE (13 R274) up to its commit point. -/
def execGate (f : Form) (s : State) : Host.Outcome State Fault Refusal :=
  .next (match s.crew s.focus with
    | none => s
    | some (_, c) => noteOp 0x69 (.gate (gateNum f) c.pc) f s)

end Sys2Proof.Machine
end

