-- ==== Sys2Proof/Machine/Csr.lean ====
section
/-!
DEFINITION. The control and status registers that kernels read and write (spec/15_execution_model_launch.md R321 to R324,
spec/07_core_sram_registers.md R156; Tables 7.9, 15.6, 15.7).
-/
namespace Sys2Proof.Machine

/-- TIM: nanoseconds since boot; a lift cycle is 5/8 ns (00 R6). -/
def State.tim (s : State) : Nat := (s.now - s.svc.bootAt) * 5 / 8

/-- BKM as of the crew's last commit point, with the crew's buffered writes over it (07 R156); a crew that has passed none since it was formed reads
it as it stood when the crew was selected. -/
def bkmSeen (g : Group) (c : Crew) : Nat :=
  c.region.buf.foldl (fun v e => match e with | .bkm w => w.toNat % 2 ^ 24 | _ => v) (c.region.csr0.getD g.bankCsrs).1.toNat

/-- FCB + k as of the crew's last commit point, with the crew's buffered writes over it (07 R156, Table 7.4). -/
def fcbSeen (g : Group) (c : Crew) (k : Nat) : Nat :=
  c.region.buf.foldl (fun v e => match e with
    | .fcb j w => if j = k then fld 63 12 v * 2 ^ 12 + fld 11 8 w.toNat * 2 ^ 8 + fld 3 0 w.toNat else v
    | _ => v) ((c.region.csr0.getD g.bankCsrs).2.getD k 0).toNat

/-- FPF as the crew reads it: as of its last commit point with the flags raised since, or its pending write (08 R163,
R323). -/
def fpfSeen (g : Group) (c : Crew) : Nat :=
  (c.region.fpfSeen (g.ctx c.ctx).fpf).toNat

/-- GRP (Table 15.7). -/
def grpVal (l : Launch) (g : Group) : Nat :=
  (l.gps - 1) * 2 ^ 12 + (l.stages - 1) * 2 ^ 9 + g.gnum % l.gps * 2 ^ 6 + g.gnum / l.gps * 2 ^ 3 + g.gnum

/-- RES (Table 15.7). -/
def resVal (l : Launch) : Nat :=
  ceilDiv l.spg 64 * 2 ^ 22 + l.vbc * 2 ^ 20 + l.nelast * 2 ^ 14 + (l.nstage + l.nelast) * 2 ^ 8 + l.nfifo * 2 ^ 4 + l.nscr

/-- GCR + n: the core of group n of the crew's cluster. -/
def gcrVal (l : Launch) (g : Group) (n : Nat) : Nat :=
  match l.placed.find? fun p => p.1 = g.cluster with
  | some p => match p.2[n]? with | some k => 2 ^ 9 + k | none => 0
  | none => 0

/-- The even core of a pair in pairs mode, else the core itself. -/
def coreNumber (s : State) (g : Group) (k : Nat) : Nat :=
  if (s.part (s.fn (s.fnOf (s.asidOf g))).part).pairs then k / 2 * 2 else k

/-- The value of CSR `n` in a strand (Table 15.6). -/
def csrValue (s : State) (k : Nat) (g : Group) (c : Crew) (n lane slot : Nat) : Nat :=
  let l := s.launch g.launch
  let x := s.ctx l.asid
  if n = 0x0000 then g.clk + (s.cycle - g.since)
  else if n = 0x0001 then s.tim
  else if n = 0x0008 then fpfSeen g c
  else if n = 0x0010 then l.q * 2 ^ 32 + l.lidx
  else if n = 0x0011 then g.cluster
  else if n = 0x0012 then l.grid
  else if n = 0x0013 then grpVal l g
  else if n = 0x0014 then coreNumber s g k
  else if n = 0x0015 then s.svc.pkgId.toNat
  else if n = 0x0016 then resVal l
  else if n = 0x0017 then l.lsize
  else if n < 0x0020 then gcrVal l g (n - 0x18)
  else if n < 0x0024 then fld 63 0 (x.evv.toNat >>> (64 * (n - 0x20)))
  else if n = 0x0030 then x.ulc.toNat
  else if n = 0x0031 then x.rpn
  else if n = 0x0032 then x.rps.toNat
  else if n = 0x0033 then x.rph
  else if n < 0x0038 then fld 63 0 (x.rpc.toNat >>> (64 * (n - 0x34)))
  else if n = 0x0038 then x.ult
  else if n = 0x0039 then x.uld
  else if n = 0x003A then x.ugn.toNat
  else if n = 0x0040 then bkmSeen g c
  else if n = 0x0042 then g.fdn.toNat
  else if n < 0x005C then fcbSeen g c (n - 0x50)
  else if n < 0x0064 then (g.getA c.ctx (n - 0x60)).toNat
  else if n = 0x0070 then slot * 64 + lane
  else strandNo l g lane slot

/-- The CSR that a form names. -/
def csrNum : Form → Nat | .bur b => b.n1 | .s d => fld 15 0 d.imx.toNat | _ => 0

/-- CSRR (R322): every executing strand's register, or s(d) after 4 cycles. -/
def execCsrr (f : Form) (s : State) : Host.Outcome State Fault Refusal :=
  .next (match s.crew s.focus with
    | none => s
    | some (g, c) =>
      let v := fun lane slot => BitVec.ofNat 64 (csrValue s s.focus g c (csrNum f) lane slot)
      match f with
      | .bur b =>
        advance s.focus (lenB 0xE0 b) (putBur s.focus ((burLanes g c b.guard).map fun l =>
          { cls := .x, reg := b.d, slot := l.2, lane := l.1, val := v l.1 l.2 }) s)
      | .s d =>
        if qGuard g c d.gq.toNat d.ge d.gn then
          putLater s.focus (s.cycle + 4) (s.cycle + d.lat.toNat + 1)
            [{ cls := .s, reg := d.sd.toNat, slot := 0, lane := 0, val := v 0 0 }] s
        else s
      | _ => s)

/-- The value of a CSRW with the lane that gives it: the lowest-numbered executing strand's xa, or s(SA) (R323). -/
def csrwVal (g : Group) (c : Crew) (f : Form) : Option (Nat × W64) :=
  match f with
  | .bur b => match burLanes g c b.guard with
    | l :: _ => some (l.1, g.getX l.2 l.1 b.a)
    | [] => none
  | .s d => if qGuard g c d.gq.toNat d.ge d.gn then some (0, g.getS c.ctx d.sa.toNat) else none
  | _ => none

/-- Runs a CSRW whose effect on a value is `h`. -/
def csrwExec (f : Form) (h : Nat → W64 → State → State) (s : State) : State :=
  match s.crew s.focus with
  | none => s
  | some (g, c) =>
    match csrwVal g c f with
    | some (lane, v) => h lane v s
    | none => s

/-- A field of a BKM value is 3 (Table 7.1). -/
def bkmBad (v : W64) : Bool := (List.range 12).any fun b => fld (2 * b + 1) (2 * b) v.toNat = 3

/-- CSRW of BKM (07 R143): checked at issue, buffered with the region's stores. -/
def execCsrwBkm (f : Form) (s : State) : Host.Outcome State Fault Refusal :=
  .next (match s.crew s.focus with
    | none => s
    | some (g, c) =>
      match csrwVal g c f with
      | none => advanceForm 0xE1 f s
      | some (lane, v) =>
        if bkmBad v then latchLanes s.focus .bankBad [(lane, 0)] .write s
        else advanceForm 0xE1 f (appendBuf s.focus (.bkm v) s))

/-- CSRW of FCB + k (07 R150). -/
def execCsrwFcb (f : Form) (s : State) : Host.Outcome State Fault Refusal :=
  .next (advanceForm 0xE1 f (csrwExec f (fun _ v s => appendBuf s.focus (.fcb (csrNum f - 0x50) v) s) s))

/-- CSRW of FPF (R323): pending until the commit point that ends the region. -/
def execCsrwFpf (f : Form) (s : State) : Host.Outcome State Fault Refusal :=
  .next (advanceForm 0xE1 f (csrwExec f (fun _ v s =>
    s.modRegion s.focus fun r => { r with fpfWrite := some (v.setWidth 5) }) s))

/-- CSRW of ADR + k (R323): a(k) lands one cycle on, neither buffered nor undone. -/
def execCsrwAdr (d : SSlot) (s : State) : Host.Outcome State Fault Refusal :=
  .next (csrwExec (.s d) (fun _ v s =>
    putLater s.focus (s.cycle + 1) (s.cycle + 1)
      [{ cls := .a, reg := fld 15 0 d.imx.toNat - 0x60, slot := 0, lane := 0, val := (v.setWidth 48).setWidth 64 }] s) s)

end Sys2Proof.Machine
end

