-- ==== Sys2Proof/Machine/Engines.lean ====
section
/-!
DEFINITION. Copy and collective engines (spec/06_copy_collective_engines.md): engine instructions as a crew issues them,
acceptance (R121, R127 to R129), timeline counters (R123), endpoints (R126), the movement of bytes (R129, R131), the
arbiter (R124), and the arithmetic of collectives (R139).
-/
namespace Sys2Proof.Machine

/-! ## Engine contexts -/

/-- The engine context of a context, class and die (R117). -/
def engKey (asid cls die : Nat) : Nat := (asid * 2 + cls) * 4 + die
def State.eng (s : State) (k : Nat) : EngCtx := s.pkg.eng.get {} k
def State.modEng (s : State) (k : Nat) (f : EngCtx → EngCtx) : State :=
  s.modPkg fun p => { p with eng := p.eng.set {} k (f (s.eng k)) }

/-- The counter moves over an unbroken run of completed numbers (R123). -/
def EngCtx.settle : Nat → EngCtx → EngCtx
  | 0, e => e
  | n + 1, e =>
    if e.ended.contains (e.counter + 1) then
      EngCtx.settle n { e with counter := e.counter + 1, ended := e.ended.filter (· ≠ e.counter + 1) }
    else e

/-- A number completes, or completes as null: its command leaves the queue. DESIGN CHOICE (log 87): its place is free from then on; the spec
does not say when a reserved place becomes free. -/
def endCmd (key num : Nat) (s : State) : State :=
  s.modEng key fun e =>
    EngCtx.settle (e.ended.length + 1)
      { e with ended := e.ended ++ [num], queue := e.queue.filter fun c => c.num ≠ num }

/-- Applies `f` to a command of a queue. -/
def modCmd (key num : Nat) (f : EngCmd → EngCmd) (s : State) : State :=
  s.modEng key fun e => { e with queue := e.queue.map fun c => if c.num = num then f c else c }

/-! ## Full masks (R120) -/

/-- The crew's active mask is full: its strands are those with which its one home slot started. DESIGN CHOICE (log 87): a crew formed at a
record's turn from exactly these strands, which Table 14.4 calls intact, counts as full. -/
def fullCrew (s : State) (g : Group) (c : Crew) : Bool :=
  match c.strands with
  | [] => false
  | l :: _ => c.strands.all (fun x => x.2 = l.2) && c.strands.length = min 64 ((s.launch g.launch).spg - l.2 * 64)

/-- A fault that the crew raises as a whole. -/
def crewFault (k : Nat) (c : Crew) (kind : Trap) (s : State) : State :=
  latchLanes k kind (c.strands.map fun l => (l.1, 0)) .read s

/-! ## Acceptance (R121, R126 to R129) -/

def isScratchRef (x : Nat) : Bool := fld 63 60 x = 14
def isStageRef (x : Nat) : Bool := fld 63 60 x = 15

/-- A scratch reference that acceptance refuses (R127). -/
def scratchRefBad (s : State) (g : Group) (x : Nat) : Bool :=
  isScratchRef x &&
    (fld 59 41 x ≠ 0 || fld 31 19 x ≠ 0 || decide (11 < fld 18 15 x) || (s.sibling g (fld 40 32 x)).isNone)

/-- A staging reference that acceptance refuses: fields, grant, and a span from `lo` to `hi` past its offset (R108). -/
def stageRefBad (g : Group) (x : Nat) (lo hi : Int) : Bool :=
  isStageRef x &&
    (fld 59 23 x ≠ 0 || decide (g.staging.length ≤ fld 22 18 x) || decide (0x30000 ≤ fld 17 0 x) ||
     decide ((fld 17 0 x : Int) + lo < 0) || decide (0x30000 < (fld 17 0 x : Int) + hi))

/-- A flag word: its target core, flag and K; none where acceptance refuses it (R128). -/
def flagWord (s : State) (g : Group) (core w : Nat) : Option (Nat × Nat × Nat) :=
  let self := bitOf 5 w
  let k := fld 29 15 w
  let t := if self then core else fld 14 6 w
  if fld 63 30 w ≠ 0 ∨ k = 0 ∨ (self ∧ fld 14 6 w ≠ 0) then none
  else match s.group t with
    | some h => if h.launch = g.launch then some (t, fld 4 0 w, k) else none
    | none => none

/-- The cluster of the group that a flag word's core holds. -/
def flagCluster (s : State) (g : Group) (flag : Option (Nat × Nat × Nat)) : Nat :=
  match flag.bind fun f => s.group f.1 with
  | some h => h.cluster
  | none => g.cluster

/-- The least and the greatest offset that `h` rows of `w` bytes reach at a stride. -/
def rowSpan (w h : Nat) (stride : Int) : Int × Int :=
  let e := ((h : Int) - 1) * stride
  (min 0 e, max 0 e + w)

/-- A command's operands as the crew gives them: destination, source, third, fourth, and the flag word. -/
structure EngOps where
  dst : Nat
  src : Nat
  c : Nat := 0
  e : Nat := 0
  fw : Option Nat := none
  deriving DecidableEq, Repr

/-- What acceptance finds wrong with a command's values, if anything (R127 to R129); ENGINE_BAD goes before STAGE_BAD. -/
def acceptFault (s : State) (g : Group) (core op : Nat) (o : EngOps) : Option Trap :=
  let w := fld 31 0 o.c
  let h := fld 63 32 o.c
  let m := fld 31 0 o.e
  let e := fld 35 32 o.e
  let limit :=
    if op = 0x70 then decide (o.c ≤ 16777216)
    else if op = 0x71 then decide (1 ≤ w) && decide (1 ≤ h) && decide (w * h ≤ 16777216)
    else if op = 0x72 then decide (1 ≤ m) && decide (2 ≤ e) && decide (e ≤ 12) && decide (fld 63 36 o.e = 0) && decide (m * 2 ^ e ≤ 16777216)
    else true
  let flagBad := match o.fw with | some x => (flagWord s g core x).isNone | none => false
  let refBad := op ≠ 0x73 && (scratchRefBad s g o.dst || scratchRefBad s g o.src || (op = 0x72 && scratchRefBad s g o.c))
  let stBad :=
    if op = 0x70 then stageRefBad g o.dst 0 o.c || stageRefBad g o.src 0 o.c
    else if op = 0x71 then
      let d := rowSpan w h (sInt 32 (fld 31 0 o.e))
      let r := rowSpan w h (sInt 32 (fld 63 32 o.e))
      stageRefBad g o.dst d.1 d.2 || stageRefBad g o.src r.1 r.2
    else if op = 0x72 then
      stageRefBad g o.dst 0 ((m * 2 ^ e : Nat) : Int) || stageRefBad g o.src 0 0 || stageRefBad g o.c 0 ((4 * m : Nat) : Int)
    else false
  if !limit || flagBad || refBad then some .engineBad else if stBad then some .stageBad else none

/-- The command that operands make, before it has a number. -/
def cmdOfOps (s : State) (g : Group) (core op : Nat) (ty kind cop : Nat) (o : EngOps) : EngCmd :=
  let flag := o.fw.bind (flagWord s g core)
  { num := 0, op := op, core := core, launch := g.launch, cluster := g.cluster, asid := s.asidOf g, dst := o.dst,
    src := o.src, cnt := o.c, strides := o.e, idx := o.c, ty := BitVec.ofNat 4 ty, kind := kind, cop := cop,
    flag := flag, staging := g.staging, fcl := flagCluster s g flag }

/-- Accepts a command if the queue has a free place: it takes the next number and a place. -/
def acceptCmd (key : Nat) (c : EngCmd) (s : State) : Option (State × Nat) :=
  let e := s.eng key
  if 256 ≤ e.queue.length then none
  else
    let n := e.last + 1
    some (s.modEng key fun e => { e with last := n, queue := e.queue ++ [{ c with num := n }] }, n)

/-- The crew `me` stands first among those that wait for a place, or none waits. -/
def EngCtx.turnOf (e : EngCtx) (me : Nat × Nat) : Bool := match e.waiting.head? with | some w => w = me | none => true

/-- The queue front accepts a crew's command in its turn, if there is room (R121). -/
def takePlace (key : Nat) (me : Nat × Nat) (c : EngCmd) (s : State) : Option (State × Nat) :=
  if (s.eng key).turnOf me then (acceptCmd key c s).map fun r => (r.1.modEng key fun e => { e with waiting := e.waiting.drop 1 }, r.2)
  else none

/-- The crew `me` waits for a place. -/
def joinWait (key : Nat) (me : Nat × Nat) (s : State) : State := s.modEng key fun e => { e with waiting := e.waiting ++ [me] }

/-- A crew no longer waits at any queue front. -/
def leaveWait (me : Nat × Nat) (s : State) : State :=
  foldS (s.pkg.eng.filter fun e => e.2.waiting.contains me) (fun e s => s.modEng e.1 fun x => { x with waiting := x.waiting.filter (· ≠ me) }) s

/-- The value of register operand `i` of an engine instruction: lane 0's, or s(D + i) (R120, R48). DESIGN CHOICE (log 87): of TLW, which takes
any mask, lane 0 of the slot that `laneSlot` gives, whether or not a strand stands there. -/
def engOperand (g : Group) (c : Crew) (f : Form) (r : Nat → Nat) (i : Nat) : Nat :=
  match f with
  | .bur _ => (g.getX (laneSlot c 0) 0 (r i)).toNat
  | .l d => (g.getS c.ctx (d.d.toNat + i)).toNat
  | _ => 0

/-- Registers of a Burhus engine instruction in operand order. -/
def burRegs (b : BIns) : Nat → Nat
  | 0 => b.d | 1 => b.a | 2 => b.b | 3 => b.c | 4 => b.e | _ => b.f

/-- The register that operand `i` of a form names. -/
def engRegs : Form → Nat → Nat
  | .bur b => burRegs b
  | _ => fun _ => 0

/-- FLAG of CPY, CPY2 and GATH. -/
def engFlag : Form → Bool | .bur b => bitOf 7 b.m1.toNat | .l d => bitOf 0 d.aop.toNat | _ => false

/-- Issues a command that has `cnt` operand registers before its flag word (R120, R121). -/
def engExec (op cls cnt : Nat) (f : Form) (s : State) : State :=
  match s.crew s.focus with
  | none => s
  | some (g, c) =>
    let k := s.focus
    if !crewExecutes g c f then advanceForm op f s
    else if !fullCrew s g c || (match f with | .bur b => (burLanes g c b.guard).length ≠ c.strands.length | _ => false) then
      crewFault k c .partialMask s
    else
      let v := engOperand g c f (engRegs f)
      let o : EngOps := {
        dst := v 1, src := v 2, c := if 3 < cnt then v 3 else 0, e := if 4 < cnt then v 4 else 0,
        fw := if op ≠ 0x73 ∧ engFlag f then some (v cnt) else none }
      match acceptFault s g k op o with
      | some t => crewFault k c t s
      | none =>
        let (ty, kind, cop) := match f with
          | .bur b => (b.m1.toNat % 16, fld 5 4 b.m1.toNat, fld 7 6 b.m1.toNat)
          | .l d => (d.ty.toNat, d.pol.toNat, d.aop.toNat)
          | _ => (0, 0, 0)
        let cmd := if op = 0x73 then cmdOfOps s g k op ty kind cop o else cmdOfOps s g k op 0 0 0 o
        let key := engKey (s.asidOf g) cls (dieOf k)
        let me := (k, c.ctx)
        match (match f with | .l _ => if (s.eng key).waiting.isEmpty then takePlace key me cmd s else none | _ => takePlace key me cmd s), f with
        | some (s, n), .bur b =>
          advance k (lenB op b) (putBur k (c.strands.map fun l =>
            { cls := .x, reg := b.d, slot := l.2, lane := l.1, val := BitVec.ofNat 64 n })
            (appendBuf k (.engine cls n) s))
        | some (s, n), .l d =>
          putHeld k (s.cycle + 16) (s.cycle + lBound f)
            [{ cls := .s, reg := d.d.toNat, slot := 0, lane := 0, val := BitVec.ofNat 64 n }] (appendBuf k (.engine cls n) s)
        | none, .l d =>
          (joinWait key me s).modCrew k fun c => { c with accepting := c.accepting ++
            [{ cmd := cmd, cls := cls, reg := d.d.toNat, deadline := s.cycle + lBound f }] }
        | none, .bur _ => if (s.eng key).waiting.contains me then s else joinWait key me s
        | _, _ => s

/-- CPY (R129). -/
def execCpy (f : Form) (s : State) : Host.Outcome State Fault Refusal := .next (engExec 0x70 0 4 f s)
/-- CPY2 (R129). -/
def execCpy2 (f : Form) (s : State) : Host.Outcome State Fault Refusal := .next (engExec 0x71 0 5 f s)
/-- GATH (R129). -/
def execGath (f : Form) (s : State) : Host.Outcome State Fault Refusal := .next (engExec 0x72 0 5 f s)
/-- COLL (R137). -/
def execColl (f : Form) (s : State) : Host.Outcome State Fault Refusal := .next (engExec 0x73 1 2 f s)

/-- The engine context of a command that waits to be accepted. -/
def AcceptReq.key (r : AcceptReq) (core : Nat) : Nat := engKey r.cmd.asid r.cls (dieOf core)

/-- The crew of a core whose command has its turn at its queue front, with that command. -/
def acceptNext (s : State) (core : Nat) (g : Group) : Option (Crew × AcceptReq) :=
  g.crews.findSome? fun c =>
    (c.accepting.find? fun r => decide ((s.eng (r.key core)).waiting.head? = some (core, c.ctx))).map fun r => (c, r)

/-- What acceptance gives a waiting crew: the number in flight to its register, and the entry of its region. -/
def Crew.take (c : Crew) (r : AcceptReq) (n now : Nat) : Crew :=
  let c := { c with
    accepting := c.accepting.erase r
    inflight := c.inflight ++ [({ at_ := now, deadline := max now r.deadline, cls := .s, reg := r.reg, slot := 0, lane := 0, val := BitVec.ofNat 64 n, held := true } : Landing)] }
  if 768 ≤ c.region.buf.length then
    { c with region := { c.region with latched := some { kind := .regionOverrun, code := 256, bidx := c.last, boff := c.pc, seg := c.seg }, due := true } }
  else { c with region := { c.region with buf := c.region.buf ++ [BufEntry.engine r.cls n] } }

/-- ENGINE_ACCEPT (R121): the queue front accepts a command with which a crew of the core waits, in its turn. -/
def execEngineAccept (core : Nat) (s : State) : Host.Outcome State Fault Refusal :=
  .next (match (s.group core).bind (acceptNext s core) with
    | none => s
    | some (c, r) =>
      match takePlace (r.key core) (core, c.ctx) r.cmd s with
      | none => s
      | some (s, n) => s.modCtxCrew core c.ctx fun x => x.take r n s.cycle)

/-- The class that TLW or TLR names. -/
def tlClass : Form → Nat | .bur b => fld 1 0 b.m1.toNat | .l d => d.pol.toNat | _ => 0

/-- TLW (R132): TL_BAD beyond the last number, an acquire at .D once the counter has come so far, else a wait. -/
def execTlw (f : Form) (s : State) : Host.Outcome State Fault Refusal :=
  .next (match s.crew s.focus with
    | none => s
    | some (g, c) =>
      let k := s.focus
      if !crewExecutes g c f then advanceForm 0x74 f s
      else
        let n := engOperand g c f (fun _ => match f with | .bur b => b.a | _ => 0) 0
        let e := s.eng (engKey (s.asidOf g) (tlClass f) (dieOf k))
        if e.last < n then crewFault k c .tlBad s
        else if n ≤ e.counter then
          advanceForm 0x74 f (holdCrew k (.acquire (s.cycle + 32)) (invalidateLines k (fun _ => true) s))
        else holdCrew k (.timeline (tlClass f) n) s)

/-- TLR (R133). -/
def execTlr (f : Form) (s : State) : Host.Outcome State Fault Refusal :=
  .next (match s.crew s.focus with
    | none => s
    | some (g, c) =>
      let k := s.focus
      let v := BitVec.ofNat 64 (s.eng (engKey (s.asidOf g) (tlClass f) (dieOf k))).counter
      match f with
      | .bur b =>
        advance k (lenB 0x75 b) (putBur k ((burLanes g c b.guard).map fun l =>
          { cls := .x, reg := b.d, slot := l.2, lane := l.1, val := v }) s)
      | .l d =>
        if crewExecutes g c f then
          putHeld k (s.cycle + 8) (s.cycle + lBound f) [{ cls := .s, reg := d.d.toNat, slot := 0, lane := 0, val := v }] s
        else s
      | _ => s)

/-! ## Endpoints (R126, R127, R131) -/

/-- The group saved from a core with a cluster, whose changes of bank modes have completed meanwhile as they are due (07 R143). -/
def savedFrom (s : State) (launch cluster core : Nat) : Option Group :=
  ((s.launch launch).suspended.find? fun x => x.cluster = cluster).bind fun x => (x.groups.find? fun g => g.1 = core).map fun g =>
    { g.2 with changing := g.2.changing.filter fun b => s.cycle < b.2 }

/-- The group of a launch and cluster on a core: placed there, or saved from there. -/
def findGroup (s : State) (launch cluster core : Nat) : Option Group :=
  match s.group core with
  | some h => if h.launch = launch ∧ h.cluster = cluster then some h else savedFrom s launch cluster core
  | none => savedFrom s launch cluster core

/-- Applies `f` to that group. -/
def modFindGroup (launch cluster core : Nat) (f : Group → Group) (s : State) : State :=
  match s.group core with
  | some h =>
    if h.launch = launch ∧ h.cluster = cluster then s.setGroup core (f h) else saved s
  | none => saved s
where
  saved (s : State) : State := s.modLaunch launch fun l =>
    { l with suspended := l.suspended.map fun x =>
        if x.cluster = cluster then { x with groups := x.groups.map fun g => if g.1 = core then (core, f g.2) else g } else x }

/-- Where staging bank `i` of a command's grant stands: in its bank, or with the suspended group (18 R374). -/
inductive StagePlace where
  | bank (b : Nat)
  | saved (g : Group)
  | gone
  deriving DecidableEq, Repr

/-- The place of a grant's bank; a reference beyond the grant finds none (R108), and a group that has ended leaves the bank that it held. -/
def stagePlace (s : State) (c : EngCmd) (i : Nat) : StagePlace :=
  let old := match c.staging[i]? with | some b => StagePlace.bank b | none => .gone
  let kept := match findGroup s c.launch c.cluster c.core with | some g => (if i < g.staging.length then .saved g else .gone) | none => old
  match s.group c.core with
  | some h =>
    if h.launch = c.launch ∧ h.cluster = c.cluster then match h.staging[i]? with | some b => .bank b | none => .gone
    else kept
  | none => kept

/-- Bytes of an HBM address as an engine reads them: the home bank's line, or a verified fill that is not allocated
(R131), with its counter block and the path above it (04 R97). -/
def engLine (la : Nat) (s : State) : State × Option Line :=
  let s := mergeBank (s.homeBank la) s
  match s.pkg.l2.find? la with
  | some _ => homeLine la s
  | none =>
    match fetchMeta (la / 64) s with
    | (s, false) => (s.setMeta la { s.lineMeta la with poison := true }, none)
    | (s, true) =>
    if s.verifies la then (s, some (lineOfBytes (s.rawBytes (la * 128) 128)))
    else (countErru la (s.setMeta la { s.lineMeta la with poison := true }), none)

/-- The operand names a scratch reference: of every command but COLL, whose SEND and RECV are locations (R137). -/
def EngCmd.scratchAt (c : EngCmd) (x : Nat) : Bool := isScratchRef x && c.op ≠ 0x73

/-- Where a byte of an endpoint stands: in memory, with its virtual address; in the scratchpad of a core; in a staging bank, or with the
suspended group that holds one. -/
inductive EndPlace where
  | mem (pa va : Nat)
  | scratch (core a : Nat)
  | bank (b a : Nat)
  | saved (i a : Nat)
  deriving DecidableEq, Repr

/-- Finds the place of `n` bytes at an endpoint's offset, all in one 128-byte line (R126, R127, R131). -/
def endPlace (c : EngCmd) (x : Nat) (o : Int) (n : Nat) (acc : Acc) (s : State) : State × Except Trap EndPlace :=
  if c.scratchAt x then
    let a := fld 18 0 x + o
    match findGroup s c.launch c.cluster (fld 40 32 x) with
    | some g =>
      if 0 ≤ a ∧ a + n ≤ 393216 ∧ g.modeOf (a.toNat / 32768) = some 1 then (s, .ok (.scratch (fld 40 32 x) a.toNat)) else (s, .error .localBad)
    | none => (s, .error .localBad)
  else if isStageRef x then
    let a := (fld 17 0 x : Int) + o
    if fld 59 23 x = 0 ∧ 0 ≤ a ∧ a + n ≤ 0x30000 then
      match stagePlace s c (fld 22 18 x) with
      | .bank b => (s, .ok (.bank b a.toNat))
      | .saved _ => (s, .ok (.saved (fld 22 18 x) a.toNat))
      | .gone => (s, .error .stageBad)
    else (s, .error .stageBad)
  else
    let va := wrapI 56 ((x : Int) + o)
    match translate c.core c.asid va acc s with
    | (s, .error t) => (s, .error t)
    | (s, .ok p) => (s, .ok (.mem p.pa va))

/-- Reads `n` bytes at a place. -/
def placeRead (c : EngCmd) (p : EndPlace) (n : Nat) (s : State) : State × Except Trap (List Byte) :=
  match p with
  | .mem pa _ =>
    if isHbm pa then
      match engLine (lineOf pa) s with
      | (s, some l) => (s, .ok (lineBytes l (pa % 128) n))
      | (s, none) => (s, .error .integFail)
    else
      let s := linkEvery s
      (s, if linkUp s c.asid pa then .ok (s.rawBytes pa n) else .error .linkFail)
  | .scratch k a =>
    (s, .ok (match findGroup s c.launch c.cluster k with | some g => SMap.getList 0 g.scratch a n | none => List.replicate n 0))
  | .bank b a => (s, .ok (SMap.getList 0 s.pkg.staging (b * 196608 + a) n))
  | .saved i a =>
    (s, .ok (match findGroup s c.launch c.cluster c.core with | some g => SMap.getList 0 g.stg (i * 196608 + a) n | none => List.replicate n 0))

/-- Writes bytes at a place. -/
def placeWrite (c : EngCmd) (p : EndPlace) (bs : List Byte) (s : State) : State × Except Trap Unit :=
  match p with
  | .mem pa va =>
    if !linkUp s c.asid pa then (s, .error .linkFail)
    else match physWrite { asid := some c.asid, core := c.core, vline := va / 128, eng := true, num := c.num } pa bs s with
    | (s, true) => (s, .ok ())
    | (s, false) => (s, .error .integFail)
  | .scratch k a => (modFindGroup c.launch c.cluster k (fun g => { g with scratch := g.scratch.setList 0 a bs }) s, .ok ())
  | .bank b a => (s.modPkg fun p => { p with staging := SMap.setList 0 p.staging (b * 196608 + a) bs }, .ok ())
  | .saved i a => (modFindGroup c.launch c.cluster c.core (fun g => { g with stg := SMap.setList 0 g.stg (i * 196608 + a) bs }) s, .ok ())

/-- Reads `n` bytes at an endpoint's offset, all in one 128-byte line. -/
def endRead (c : EngCmd) (x : Nat) (o : Int) (n : Nat) (s : State) : State × Except Trap (List Byte) :=
  match endPlace c x o n .read s with
  | (s, .ok p) => placeRead c p n s
  | (s, .error t) => (s, .error t)

/-- Writes bytes at an endpoint's offset, all in one 128-byte line. -/
def endWrite (c : EngCmd) (x : Nat) (o : Int) (bs : List Byte) (s : State) : State × Except Trap Unit :=
  match endPlace c x o bs.length .write s with
  | (s, .ok p) => placeWrite c p bs s
  | (s, .error t) => (s, .error t)

/-- Places the horizon marker of a command that is about to write host or peer space, once (R131, 13 R275); none while a full log holds it,
in which case the write waits. -/
def placeMark (c : EngCmd) (s : State) : State × Option EngCmd :=
  if c.marked || c.refetch then (s, some c)
  else if recsHeld c.asid 1 s then (s.modCtx c.asid fun x => { x with logHeld := true }, none)
  else (horizon c.asid 2 c.core c.num s, some { c with marked := true })

/-- The marker that a write at a place calls for. -/
def markFor (c : EngCmd) (p : EndPlace) (s : State) : State × Option EngCmd :=
  match p with
  | .mem pa _ => if isHbm pa then (s, some c) else placeMark c s
  | _ => (s, some c)

/-- The key of a place's first byte. -/
def EndPlace.key : EndPlace → Nat
  | .mem pa _ => pa
  | .scratch k a => 2 ^ 53 + k * 2 ^ 19 + a
  | .bank b a => 2 ^ 54 + b * 2 ^ 18 + a
  | .saved i a => 2 ^ 55 + i * 2 ^ 18 + a

/-- The station from which a place's bytes are carried, as die and number; 4 is the service die. -/
def EndPlace.station (s : State) (c : EngCmd) : EndPlace → Nat × Nat
  | .mem pa _ => if isHbm pa then let b := s.homeBank (lineOf pa); (b / 512, quadStation b) else (4, 0)
  | .scratch k _ => (dieOf k, regionStation k)
  | .bank b _ => (b / 512, quadStation b)
  | .saved _ _ => (dieOf c.core, regionStation c.core)

/-- The way of a place's bytes from HBM4 to its home bank, where L2 does not hold the line (04 R72), and the lift cycles for which its translation is still
pending at the command's core (04 R86). -/
def EndPlace.fill (s : State) : EndPlace → List Leg
  | .mem pa _ => if isHbm pa then fillLegs s (lineOf pa) (s.homeBank (lineOf pa)) 0 none else []
  | _ => []
def EndPlace.wait (s : State) (c : EngCmd) : EndPlace → Nat
  | .mem _ va => match (s.core c.core).tlb.find? (tlbHits c.asid va) with | some e => 2 * (e.ready - s.cycle) | none => 0
  | _ => 0

/-- The L2 bank that a place lies in. -/
def EndPlace.l2bank (s : State) : EndPlace → Option Nat
  | .mem pa _ => if isHbm pa then some (s.homeBank (lineOf pa)) else none
  | .bank b _ => some b
  | _ => none

/-- The place of the first byte of the line in which a place lies, `k` bytes before it. -/
def EndPlace.back (k : Nat) : EndPlace → EndPlace
  | .mem pa va => .mem (pa - k) (va - k)
  | .scratch c a => .scratch c (a - k)
  | .bank b a => .bank b (a - k)
  | .saved i a => .saved i (a - k)

/-- Low bits of an endpoint's byte at an offset, by which it is cut into lines. -/
def endPos (x : Nat) (o : Int) : Nat :=
  let base : Nat := if isScratchRef x then fld 18 0 x else if isStageRef x then fld 17 0 x else x
  ((base + o) % 128).toNat

/-! ## Movement (R129, R130) -/

/-- Reads `n` bytes of an endpoint, all in one 128-byte line, of which the engine holds the line `buf`. A line is read whole, when the command
comes to it (R130): the line then held, the place of the bytes, and the bytes. -/
def lineRead (c : EngCmd) (buf : Option (Int × List Byte)) (x : Nat) (o : Int) (n : Nat) (s : State) :
    State × Except Trap ((Int × List Byte) × EndPlace × List Byte) :=
  let k := endPos x o
  match endPlace c x o n .read s with
  | (s, .error t) => (s, .error t)
  | (s, .ok p) =>
    match buf.filter fun b => b.1 = o - (k : Int) with
    | some b => (s, .ok (b, p, (b.2.drop k).take n))
    | none => match placeRead c (p.back k) 128 s with
      | (s, .ok bs) => (s, .ok ((o - (k : Int), bs), p, (bs.drop k).take n))
      | (s, .error t) => (s, .error t)

/-- Bytes of an engine command ride between stations, in the chairs of its partition (R125). -/
def rideData (tag n : Nat) (c : EngCmd) (wait : Nat) (ls : List Leg) (s : State) : State :=
  if c.refetch then s else addData (s.fn (s.fnOf c.asid)).part c.core tag n wait ls s

/-- Reads `n` bytes of a GATH's index list, all in one line; a line that it takes up rides to the region station of the issuing core. -/
def idxRead (tag : Nat) (c : EngCmd) (o : Int) (n : Nat) (s : State) : State × Except Trap (EngCmd × List Byte) :=
  match lineRead c c.idxLine c.idx o n s with
  | (s, .error t) => (s, .error t)
  | (s, .ok (b, p, bs)) =>
    (if c.idxLine = some b then s else rideData tag 128 c (p.wait s c) (p.fill s ++ dataRoute (p.station s c) (dieOf c.core, regionStation c.core) 0 none) s,
     .ok ({ c with idxLine := some b }, bs))

/-- A GATH reads the index of the element of byte `i`, once, while the command runs (R129). -/
def withIdx (tag : Nat) (c : EngCmd) (i : Nat) (s : State) : State × Except Trap EngCmd :=
  let j := i / 2 ^ fld 35 32 c.strides
  if c.op ≠ 0x72 || c.idxAt.any (fun x => x.1 = j) then (s, .ok c)
  else
    let o : Int := ((4 * j : Nat) : Int)
    let n := min 4 (128 - endPos c.idx o)
    match idxRead tag c o n s with
    | (s, .error t) => (s, .error t)
    | (s, .ok (c, bs)) =>
      if n = 4 then (s, .ok { c with idxAt := some (j, leNat bs) })
      else match idxRead tag c (o + (n : Int)) (4 - n) s with
        | (s, .error t) => (s, .error t)
        | (s, .ok (c, bs')) => (s, .ok { c with idxAt := some (j, leNat (bs ++ bs')) })

/-- The destination and source offsets of byte `i` of a command, whose index a GATH holds, and how many bytes follow it in one row or element. -/
def movePiece (c : EngCmd) (i : Nat) : Int × Int × Nat :=
  if c.op = 0x70 then ((i : Int), (i : Int), c.cnt - i)
  else if c.op = 0x71 then
    let w := fld 31 0 c.cnt
    let r := i / w
    let d := sInt 32 (fld 31 0 c.strides)
    let t := sInt 32 (fld 63 32 c.strides)
    ((r : Int) * d + (i % w : Nat), (r : Int) * t + (i % w : Nat), w - i % w)
  else
    let e := 2 ^ fld 35 32 c.strides
    ((i : Int), ((((c.idxAt.map Prod.snd).getD 0) * e + i % e : Nat) : Int), e - i % e)

/-- Byte `i` of a command begins a line or a row of its destination. -/
def EngCmd.atLine (c : EngCmd) (i : Nat) : Bool :=
  i = 0 || endPos c.dst (movePiece c i).1 = 0 ||
  (c.op = 0x71 && i % fld 31 0 c.cnt = 0 && decide (sInt 32 (fld 31 0 c.strides) ≠ (fld 31 0 c.cnt : Int)))

/-- The bytes that a command moves. -/
def moveTotal (c : EngCmd) : Nat :=
  if c.op = 0x70 then c.cnt
  else if c.op = 0x71 then fld 31 0 c.cnt * fld 63 32 c.cnt
  else if c.op = 0x72 then fld 31 0 c.strides * 2 ^ fld 35 32 c.strides
  else 0

/-- Bytes that a command reads where it has written over its own source: each is the byte from before the command or the one that
stands there now, and which of them is open (R130; log 5). -/
def overlapped (old new : List Byte) (s : State) : State × List Byte :=
  if old = new then (s, new)
  else (s.draw 2, (List.range new.length).map fun i => if s.freeBit i then old.getD i 0 else new.getD i 0)

/-- The bytes of a place as they stood before the command, which now finds `new` there. -/
def EngCmd.before (c : EngCmd) (p : EndPlace) (new : List Byte) : List Byte :=
  (List.range new.length).map fun i => (c.was.find? (p.key + i)).getD (new.getD i 0)

/-- The command's destination and source may be the same bytes. -/
def EngCmd.mayOverlap (c : EngCmd) : Bool := (c.scratchAt c.dst == c.scratchAt c.src) && (isStageRef c.dst == isStageRef c.src)

/-- Keeps what stands at a place that the command is about to write. -/
def EngCmd.keep (c : EngCmd) (p : EndPlace) (n : Nat) (s : State) : EngCmd :=
  if !c.mayOverlap then c
  else match (placeRead c p n s).2 with
    | .error _ => c
    | .ok bs => { c with was := (List.zip (List.range n) bs).foldl (fun m b =>
        if (m.find? (p.key + b.1)).isSome then m else m.put (p.key + b.1) b.2) c.was }

/-- Reads `n` bytes of a command's source, all in one line, and sends them on their way to the destination `q`. -/
def srcRead (tag : Nat) (c : EngCmd) (os : Int) (n : Nat) (q : EndPlace) (s : State) : State × Except Trap (EngCmd × List Byte) :=
  match lineRead c c.srcLine c.src os n s with
  | (s, .error t) => (s, .error t)
  | (s, .ok (b, p, new)) =>
    let (s, bs) := overlapped (c.before p new) new s
    let fill := if c.srcLine = some b then [] else p.fill s
    (rideData tag n c (max (p.wait s c) (q.wait s c)) (fill ++ dataRoute (p.station s c) (q.station s c) 0 (q.l2bank s)) s, .ok ({ c with srcLine := some b }, bs))

/-- Moves `m` bytes from one offset to another, all in one line of the destination: the command as it then stands, whether a full log holds the
write, or the fault. -/
def moveOne (tag : Nat) (c : EngCmd) (od os : Int) (m : Nat) (s : State) : State × Except Trap (Option EngCmd) :=
  match endPlace c c.src os 1 .read s with
  | (s, .error t) => (s, .error t)
  | (s, .ok _) =>
    match endPlace c c.dst od m .write s with
    | (s, .error t) => (s, .error t)
    | (s, .ok q) =>
      let n := min m (128 - endPos c.src os)
      match markFor c q s with
      | (s, none) => (s, .ok none)
      | (s, some c) =>
        match srcRead tag c os n q s with
        | (s, .error t) => (s, .error t)
        | (s, .ok (c, bs)) =>
          match if n = m then (s, .ok (c, [])) else srcRead tag c (os + (n : Int)) (m - n) q s with
          | (s, .error t) => (s, .error t)
          | (s, .ok (c, bs')) =>
            let c := c.keep q m s
            match placeWrite c q (bs ++ bs') s with
            | (s, .error t) => (s, .error t)
            | (s, .ok ()) => (s, .ok (some { c with done := c.done + m, last := some (q.station s c) }))

/-- Moves up to `n` bytes from byte `c.done` on, in pieces that cross no 128-byte line of the destination (R124); the answer is the command with
what it has moved, and the fault that stopped it. A line of the destination that it begins is moved whole, as far as the command writes it
without a break (R130). A context that seals pauses its commands at a line boundary (13 R272). -/
def moveBytes (tag : Nat) : Nat → Nat → EngCmd → State → State × EngCmd × Option Trap
  | 0, _, c, s => (s, c, none)
  | fuel + 1, n, c, s =>
    if n = 0 || decide (moveTotal c ≤ c.done) then (s, c, none)
    else if (s.ctx c.asid).sealing.isSome && !c.refetch && c.atLine c.done then (s, c, none)
    else
      match withIdx tag c c.done s with
      | (s, .error t) => (s, c, some t)
      | (s, .ok c) =>
        let (od, os, k) := movePiece c c.done
        let left := 128 - endPos c.dst od
        if n < min left (moveTotal c - c.done) then (s, c, none)
        else
          match moveOne tag c od os (min k left) s with
          | (s, .error t) => (s, c, some t)
          | (s, .ok none) => (s, c, none)
          | (s, .ok (some c)) => moveBytes tag fuel (n - min k left) c s

/-! ## The arbiter (R124, R125) -/

/-- Engines that a partition in locked-clock mode has dedicated on each die: ENGB or ENGC (19 Table 19.3). -/
def Part.engs (p : Part) (cls : Nat) : Nat :=
  if !p.locked then 0 else if cls = 0 then fld 77 73 p.record.toNat else fld 72 70 p.record.toNat

/-- The engines of a class on which a partition's commands may start: those dedicated to it, or the undedicated ones. -/
def engineSlots (s : State) (part cls : Nat) : List Nat :=
  let all := if cls = 0 then 16 else 4
  let ded := s.pkg.parts.filter fun p => 0 < p.2.engs cls
  let before := ded.foldl (fun n p => if p.1 < part then n + p.2.engs cls else n) 0
  let own := (s.part part).engs cls
  let used := ded.foldl (fun n p => n + p.2.engs cls) 0
  if own ≠ 0 then (List.range all).filter fun i => before ≤ i && i < before + own
  else (List.range all).filter fun i => used ≤ i

/-- The first command of an engine context that may start: released, not started, not parked. -/
def EngCtx.startable (e : EngCtx) : Option EngCmd := e.queue.find? fun c => c.released && !c.started && c.parked.isNone

/-- The byte count that a command costs the arbiter. DESIGN CHOICE (log 87): a COLL costs nothing, and a command that resumes after a page fault
its whole count again; the spec states neither. -/
def cmdCost (c : EngCmd) : Nat := moveTotal c

/-- The free engine that a context's next command may take. -/
def freeEngine (s : State) (die cls key : Nat) : Option Nat :=
  let fn := s.fnOf (key / 8)
  (engineSlots s (s.fn fn).part cls).find? fun i => (s.pkg.runs.find? ((die * 2 + cls) * 16 + i)).isNone

/-- The engine contexts of a die and class whose next command may start on a free engine; a context that seals starts none (13 R272). -/
def readyEngs (die cls : Nat) (s : State) : List (Nat × EngCtx) :=
  s.pkg.eng.filter fun e => e.1 % 4 = die && e.1 / 4 % 2 = cls && e.2.startable.any (fun c => !riding .drain s c.core) && (freeEngine s die cls e.1).isSome &&
    (s.ctx (e.1 / 8)).sealing.isNone

/-- Deficit round robin (R124): the pointer visits the engine contexts in turn. `ptr` is twice the key that it stands at, and odd where that visit has
added the quantum to the deficit; a visit starts commands while the deficit covers them, and then the pointer moves on. -/
def arbitrate (die cls : Nat) : Nat → Nat → State → State × Option (Nat × EngCmd × Nat)
  | 0, _, s => (s, none)
  | fuel + 1, ptr, s =>
    let ready := readyEngs die cls s
    match (ready.find? fun e => decide (ptr / 2 ≤ e.1)).orElse (fun _ => ready.head?) with
    | none => (s, none)
    | some (key, e) =>
      let e := if ptr = 2 * key + 1 then e else { e with deficit := e.deficit + 65536 * (s.fn (s.fnOf (key / 8))).weight }
      let s := s.modEng key fun _ => e
      match e.startable, freeEngine s die cls key with
      | some c, some i => if cmdCost c ≤ e.deficit then (s, some (key, c, i)) else arbitrate die cls fuel (2 * (key + 1)) s
      | _, _ => (s, none)

/-! ## Collectives (R137 to R139) -/

/-- The fields of a collective descriptor (Table 6.6). -/
structure CollDesc where
  flagw : Nat
  flgen : Bool
  rank : Nat
  nmem : Nat
  memtab : Nat
  count : Nat
  recv : Nat
  send : Nat
  collid : Nat
  deriving DecidableEq, Repr

def collDesc (x : Nat) : CollDesc :=
  { flagw := fld 415 384 x, flgen := bitOf 352 x, rank := fld 351 336 x, nmem := fld 335 320 x, memtab := fld 319 256 x,
    count := fld 255 192 x, recv := fld 191 128 x, send := fld 127 64 x, collid := fld 63 32 x }

/-- Bytes that a member writes to RECV (R137). -/
def collOut (kind count nmem size : Nat) : Nat :=
  if kind = 0 then count * size / nmem else if kind = 1 then nmem * count * size else count * size

/-- A descriptor is in form for its instruction (Table 6.6, R137). -/
def collOk (x : Nat) (ty kind : Nat) : Bool :=
  let d := collDesc x
  fld 511 416 x = 0 && fld 383 353 x = 0 && fld 31 8 x = 0 && fld 7 0 x = 1 && decide (2 ≤ d.nmem) && decide (d.nmem ≤ 4096) &&
  decide (d.rank < d.nmem) && decide (1 ≤ d.count) && (kind = 1 || d.count % d.nmem = 0) &&
  decide (collOut kind d.count d.nmem (tyBytes ty) ≤ 16777216)

/-- Op of a collective on one element (R139). -/
def collOp (cop ty a b : Nat) : Nat :=
  let F := fmtOf ty
  if 4 ≤ ty ∧ ty ≤ 6 then
    let x := F.read a
    let y := F.read b
    if x.isNan || y.isNan then F.nan
    else if cop = 0 then (fAdd F 0 x y).1
    else (fMinMax F false a b).1
  else
    cut ty (match cop with
      | 0 => a + b
      | 1 => if nVal ty a < nVal ty b then b else a
      | _ => a ^^^ b)

/-- Chunk `j` of a member's vector. -/
def collChunk (n count size j : Nat) (x : List Byte) : List Byte := (x.drop (j * (count / n) * size)).take (count / n * size)

/-- Applies Op elementwise. -/
def collZip (cop ty : Nat) : Nat → List Byte → List Byte → List Byte
  | 0, _, _ => []
  | m + 1, a, b =>
    let n := tyBytes ty
    leBytes n (collOp cop ty (leNat (a.take n)) (leNat (b.take n))) ++ collZip cop ty m (a.drop n) (b.drop n)

/-- Reduced chunk `j` of the members' vectors, in the fixed order of R139. -/
def collReduce (cop ty count j : Nat) (xs : List (List Byte)) : List Byte :=
  let n := xs.length
  let size := tyBytes ty
  let ck := fun k => collChunk n count size j (xs.getD (k % n) [])
  (List.range (n - 1)).foldl (fun acc t => collZip cop ty (count / n) acc (ck (j + t + 2))) (ck (j + 1))

/-- What member `rank` receives (R139). -/
def collResult (kind cop ty count rank : Nat) (xs : List (List Byte)) : List Byte :=
  match kind with
  | 0 => collReduce cop ty count rank xs
  | 1 => xs.flatMap fun x => x.take (count * tyBytes ty)
  | _ => (List.range xs.length).flatMap fun j => collReduce cop ty count j xs

end Sys2Proof.Machine
end

