-- ==== Sys2Proof/Machine/Matrix.lean ====
section
/-!
DEFINITION. The matrix engine (spec/10_matrix_engine.md; spec/08_number_formats.md R167, R169 to R173): format words, operand
streams, products and block sums, the sequencer's two lanes step by step, and the M slot and Burhus forms as a crew issues
them.
-/
namespace Sys2Proof.Machine

/-! ## Format words (08 R172, R173) -/

/-- Fields of a format word. -/
def fwA (w : Nat) : Nat := fld 3 0 w
def fwB (w : Nat) : Nat := fld 7 4 w
def fwOut (w : Nat) : Nat := fld 15 12 w
def fwScaled (w : Nat) : Bool := bitOf 19 w

/-- A format word is valid. -/
def fwOk (w : Nat) : Bool :=
  let a := fwA w
  let b := fwB w
  let fp8 := fun x : Nat => x = 3 || x = 4
  fld 31 21 w = 0 && decide (fld 20 19 w ≤ 1) && decide (fwOut w ≤ 5) && fld 11 8 w = 7 &&
  ((fp8 a && fp8 b) || (a = 5 && b = 5) || (a = 6 && b = 6) || (((a = 1 && b = 1) || (a = 2 && b = 2)) && fld 20 19 w = 0))

/-- A format word names a format that the function's mask removes (19 Table 19.7). -/
def fwMasked (fm w : Nat) : Bool :=
  let named := fun x : Nat => fwA w = x || fwB w = x
  (bitOf 0 fm && (named 3 || named 4 || fwOut w = 3 || fwOut w = 4)) || (bitOf 1 fm && (named 5 || fwOut w = 5)) ||
  (bitOf 2 fm && named 6) || (bitOf 3 fm && (named 1 || named 2))

/-- Bytes of an operand element, and steps per block of 32 (Table 10.1). -/
def fwBytes (w : Nat) : Nat := if fwA w = 1 ∨ fwA w = 2 then 2 else 1
def fwBlock (w : Nat) : Nat := if fwA w = 1 ∨ fwA w = 2 then 128 else if fwA w = 5 then 16 else 32
/-- K of a number of steps. -/
def fwK (w steps : Nat) : Nat := 32 * (steps / fwBlock w)

/-- Stream lengths of Table 10.2. -/
def streamA (w steps : Nat) : Nat := 128 * fwBytes w * fwK w steps + (if fwScaled w then 4 * fwK w steps else 0)
def streamB (w steps : Nat) : Nat := 256 * fwBytes w * fwK w steps + (if fwScaled w then 8 * fwK w steps else 0)
/-- Bytes of a retired element. -/
def outBytes (w : Nat) : Nat := if fwOut w = 0 then 4 else if fwOut w ≤ 2 then 2 else 1

/-! ## Products and block sums (R208, R209) -/

/-- The floating format of a code 0 to 4. -/
def codeFmt (c : Nat) : Fmt :=
  if c = 0 then fmtF32 else if c = 1 then fmtF16 else if c = 2 then fmtBF16 else if c = 3 then fmtE4M3 else fmtE5M2

/-- The product of two LOG6 codes, from the table by the sum of their logarithms (Table 10.6). -/
def log6Prod (a b : Nat) : FV :=
  let la := sInt 5 a
  let lb := sInt 5 b
  if (la = -16 ∧ a.testBit 5) ∨ (lb = -16 ∧ b.testBit 5) then .nan false
  else if la = -16 ∨ lb = -16 then .fin false 0 0
  else
    let t := match ((la + lb) % 4).toNat with | 0 => 32768 | 1 => 38968 | 2 => 46341 | _ => 55109
    .fin (a.testBit 5 != b.testBit 5) t ((la + lb) / 4 - 15)

/-- Prod (R209): the product of two elements under their scales. -/
def prodV (ca cb a b ea eb : Nat) : FV :=
  if ea = 255 ∨ eb = 255 then .nan false
  else
    let p := if ca = 5 then log6Prod a b
      else if ca = 6 then FV.ofInt (sInt 8 a * sInt 8 b)
      else (mulV ((codeFmt ca).read a) ((codeFmt cb).read b)).1
    match p with
    | .fin s m e => .fin s m (e + ((ea : Int) - 127) + ((eb : Int) - 127))
    | x => x

/-- The signed integer that a finite value is at exponent `e0`, which is at most its own. -/
def atExp (e0 : Int) : FV → Int
  | .fin s m e => (if s then -1 else 1) * ((m : Int) * 2 ^ (e - e0).toNat)
  | _ => 0

/-- The exponent of a finite value. -/
def expOf : FV → Int | .fin _ _ e => e | _ => 0

/-- BlockSum (R208): exact, with the rules for NaN, infinities and zero. -/
def blockSum (ps : List FV) : FV :=
  if ps.any FV.isNan then .nan false
  else
    let infs := ps.filter fun p => match p with | .inf _ => true | _ => false
    match infs with
    | p :: _ => if infs.all fun q => q.neg = p.neg then p else .nan false
    | [] =>
      let e0 := ps.foldl (fun e p => min e (expOf p)) 0
      let t := ps.foldl (fun a p => a + atExp e0 p) (0 : Int)
      if t = 0 then .fin (ps.all fun p => p.isZero && p.neg) 0 0
      else .fin (decide (t < 0)) t.natAbs e0

/-- The first `k` elements of a list of `n`-byte elements. -/
def elems (n : Nat) : Nat → List Byte → List Nat
  | 0, _ => []
  | k + 1, bs => leNat (bs.take n) :: elems n k (bs.drop n)

/-- Adds one block of 32 along K into an accumulator, element by element: 32 columns of A and 32 rows of B with their
scales. -/
def addBlock (w : Nat) (a b sa sb : List Byte) (z : SMap Acc34) : SMap Acc34 :=
  let n := fwBytes w
  let xa := (elems n 4096 a).toArray
  let xb := (elems n 8192 b).toArray
  let ea := sa.toArray
  let eb := sb.toArray
  (List.range 32768).filterMap fun i =>
    let m := i / 256
    let c := i % 256
    let s := blockSum ((List.range 32).map fun k =>
      prodV (fwA w) (fwB w) (xa.getD (128 * k + m) 0) (xb.getD (256 * k + c) 0)
        (if fwScaled w then (ea.getD m 0).toNat else 0x7F) (if fwScaled w then (eb.getD c 0).toNat else 0x7F))
    let v := acc34Add (z.get 0 i) s
    if v = 0 then none else some (i, v)

/-- A retired element with its flags (R210, 08 R171). -/
def retireElem (w : Nat) (z : Acc34) : Nat × BitVec 5 :=
  let mode := fld 17 16 w
  let sat := bitOf 18 w
  let (v, fl) := if fwOut w = 5 then roundLog6 mode sat (acc34Read z) else roundF (codeFmt (fwOut w)) mode sat (acc34Read z)
  (v, fl &&& (fNX ||| fUF ||| fOF))

/-! ## Accumulators (R198, R199) -/

def Group.acc (g : Group) (z : Bool) : Accum := if z then g.z1 else g.z0
def Group.setAcc (g : Group) (z : Bool) (a : Accum) : Group := if z then { g with z1 := a } else { g with z0 := a }

/-- Key of an accumulator in the tables of end times. -/
def zKey (z : Bool) : Nat := z.toNat

/-! ## Streams (R201, R202) -/

/-- A FIFO location is usable by a crew slot. -/
def fifoLocOk (g : Group) (ctx loc : Nat) : Bool :=
  decide (loc ≤ 11) && g.modeOf loc = some 2 && g.ccrew loc = ctx

/-- The bytes of a memory stream, at their home banks, line by line; a fault names the address that it meets. DESIGN CHOICE (log 108): a stream that
comes to VA 2^48 goes on there, modulo 2^56 as Table 10.3 has it, though R201 says that none comes to it. -/
def streamMem (k asid : Nat) : Nat → Nat → Nat → State → State × Except (Trap × Nat) (List Byte)
  | 0, _, _, s => (s, .ok [])
  | fuel + 1, va, n, s =>
    if n = 0 then (s, .ok [])
    else
      let va := va % 2 ^ 56
      let m := min n (128 - va % 128)
      match translate k asid va .read s with
      | (s, .error t) => (s, .error (t, va))
      | (s, .ok p) =>
        let (s, bs) : State × Option (List Byte) :=
          if isHbm p.pa then
            match homeLine (lineOf p.pa) s with
            | (s, some l) => (s, some (lineBytes l (p.pa % 128) m))
            | (s, none) => (s, none)
          else
            let s := linkEvery s
            (s, some (s.rawBytes p.pa m))
        match bs with
        | none => (s, .error (.integFail, va))
        | some bs =>
          match streamMem k asid fuel (va + m) (n - m) s with
          | (s, .ok r) => (s, .ok (bs ++ r))
          | e => e

/-- `n` stream bytes from offset `o`: the bytes, a fault with the memory address that it meets, or none while a FIFO entry is not yet visible. -/
def streamBytes (k ctx kind loc base o n : Nat) (s : State) : State × Except (Trap × Nat) (Option (List Byte)) :=
  match s.group k with
  | none => (s, .ok none)
  | some g =>
    match kind with
    | 0 =>
      let ea := loc + o
      if ea + n ≤ 393216 ∧ g.modeOf (ea / 32768) = some 1 ∧ g.modeOf ((ea + n - 1) / 32768) = some 1 then
        (s, .ok (some (SMap.getList 0 g.scratch ea n)))
      else (s, .error (.localBad, 0))
    | 1 =>
      if !fifoLocOk g ctx loc then (s, .error (.fifoBad, 0))
      else
        let es := (g.queue loc).entries
        if es.length * 256 < base * 256 + o + n then (s, .ok none)
        else (s, .ok (some ((List.range n).map fun i =>
          let j := base * 256 + o + i
          BitVec.ofNat 8 (((es.getD (j / 256) []).getD (j % 256 / 4) 0).toNat >>> (8 * (j % 4))))))
    | 2 =>
      match g.staging[fld 22 18 loc]? with
      | some b =>
        if fld 47 23 loc = 0 ∧ fld 17 0 loc + o + n ≤ 0x30000 then
          (s, .ok (some (SMap.getList 0 s.pkg.staging (b * 196608 + fld 17 0 loc + o) n)))
        else (s, .error (.stageBad, 0))
      | none => (s, .error (.stageBad, 0))
    | _ =>
      match streamMem k (s.asidOf g) (n / 128 + 2) (loc + o) n s with
      | (s, .ok bs) => (s, .ok (some bs))
      | (s, .error t) => (s, .error t)

/-- Scratch bytes that a stream reads from each bank at a step, for the bank limit of R206. -/
def bankLoad (b : Nat) (kind loc o n : Nat) : Nat :=
  if kind = 0 then min (loc + o + n) (32768 * (b + 1)) - max (loc + o) (32768 * b) else 0

/-! ## The sequencer (R205 to R208, R210) -/

/-- Latches a fault of a macro-operation in the crew that issued it. -/
def macroFault (k : Nat) (m : Macro) (t : Trap) (addr : Nat) (s : State) : State :=
  s.modCtxCrew k m.ctx fun c =>
    let r : FaultRec := { kind := t, lanes := c.strands.map fun l => (l.1, addr), bidx := c.pc, boff := c.pc, seg := c.seg }
    { c with region := { c.region with latched := match c.region.latched with | some f => some f | none => some r } }

/-- Releases the pins that some macro-operations, known by their tags, hold for an accumulator's streams (05 R109). -/
def unpin (k : Nat) (z : Bool) (of : Nat → Bool) (s : State) : State :=
  match s.group k with
  | none => s
  | some g =>
    let gone := (g.acc z).pins.filter fun x => of x.2
    if gone.isEmpty then s
    else
      let s := foldS gone (fun x s => match s.pkg.l2.find? x.1 with
        | some l => s.modPkg fun p => { p with l2 := p.l2.put x.1 { l with pins := l.pins - 1 } }
        | none => s) s
      s.modGroup k fun g => g.setAcc z { g.acc z with pins := (g.acc z).pins.filter fun x => !of x.2 }

/-- Releases every pin of a core's group. -/
def unpinAll (k : Nat) (s : State) : State := unpin k true (fun _ => true) (unpin k false (fun _ => true) s)

/-- Ends a lane's operation; a Burhus form's crew then moves past its instruction. A retirement releases the pins of earlier operations on its
accumulator (05 R109). -/
def macroEnd (k : Nat) (m : Macro) (s : State) : State :=
  let s := if m.op = 2 then unpin k m.z (fun t => decide (t < m.tag)) s else s
  let s := s.modGroup k fun g =>
    if m.op = 2 then { g with retire := none, zRetireEnd := g.zRetireEnd.put (zKey m.z) s.cycle }
    else { g with compute := none, zComputeEnd := g.zComputeEnd.put (zKey m.z) s.cycle }
  match m.bur with
  | some n => s.modCtxCrew k m.ctx fun c => { c with pc := c.pc + n, skip := [] }
  | none => s

/-- Stops a lane's operation at a fault. -/
def macroStop (k : Nat) (m : Macro) (t : Trap) (addr : Nat) (s : State) : State :=
  macroFault k m t addr (s.modGroup k fun g => if m.op = 2 then { g with retire := none } else { g with compute := none })

/-- A macro-operation with a staging or memory stream, whose bytes come over the rings. -/
def Macro.streams (m : Macro) : Bool := decide (m.op ≤ 1) && (decide (2 ≤ m.kindA) || decide (2 ≤ m.kindB))

/-- Extra cycles of a step that reads more than 1,024 bytes of one bank (R206). -/
def extraCycles (m : Macro) (j : Nat) : Nat :=
  let w := m.fmt.toNat
  let na := lenStep 128 w
  let nb := lenStep 256 w
  let first := fwScaled w && j % fwBlock w = 0
  let b := j / fwBlock w
  let k := fwK w m.steps
  let loads := (List.range 12).map fun x =>
    bankLoad x m.kindA m.locA (j * na) na + bankLoad x m.kindB m.locB (j * nb) nb +
    (if first then bankLoad x m.kindA m.locA (128 * fwBytes w * k + 128 * b) 128 +
       bankLoad x m.kindB m.locB (256 * fwBytes w * k + 256 * b) 256 else 0)
  loads.foldl (fun e c => max e (ceilDiv c 1024 - 1)) 0
where
  /-- bytes of one step -/
  lenStep (rows w : Nat) : Nat := rows * fwBytes w * 32 / fwBlock w

/-- What a compute step reads, each as source kind, location, first FIFO entry, stream offset and length: A, B and, at a block's first step, the
scales. -/
def stepReads (m : Macro) : List (Nat × Nat × Nat × Nat × Nat) :=
  let w := m.fmt.toNat
  let na := extraCycles.lenStep 128 w
  let nb := extraCycles.lenStep 256 w
  let kk := fwK w m.steps
  let b := m.at_ / fwBlock w
  let first := fwScaled w && m.at_ % fwBlock w = 0
  [(m.kindA, m.locA, m.baseA, m.at_ * na, na), (m.kindB, m.locB, m.baseB, m.at_ * nb, nb)] ++
    (if first then [(m.kindA, m.locA, m.baseA, 128 * fwBytes w * kk + 128 * b, 128),
                    (m.kindB, m.locB, m.baseB, 256 * fwBytes w * kk + 256 * b, 256)] else [])

/-- The first stream byte that stands after step `j` where a step reads `n` of the `len` bytes from location `a` on: with `ahead`, whole 128-byte lines, the
rest of a line with its first byte (R202; 07 R146). -/
def readTo (a n len j : Nat) (ahead : Bool) : Nat :=
  if ahead then min len (ceilDiv (a + (j + 1) * n) 128 * 128 - a) else (j + 1) * n

/-- What a compute step fetches of its streams, as `stepReads` has it: from what the steps before have fetched. While a retirement writes, whose bytes stand
when their column lands (R207), a step fetches no more than it computes with. -/
def stepFetch (m : Macro) (ahead : Bool) : List (Nat × Nat × Nat × Nat × Nat) :=
  let w := m.fmt.toNat
  let first := fun (kind loc : Nat) => match kind with | 1 => 0 | 2 => fld 17 0 loc | _ => loc
  let piece := fun (kind loc base start n len j got : Nat) =>
    (kind, loc, base, start + got, readTo (first kind loc + start) n len j ahead - got)
  let na := extraCycles.lenStep 128 w
  let nb := extraCycles.lenStep 256 w
  let kk := fwK w m.steps
  let b := m.at_ / fwBlock w
  let (lenA, lenB) := (128 * fwBytes w * kk, 256 * fwBytes w * kk)
  [piece m.kindA m.locA m.baseA 0 na lenA m.at_ m.gotA, piece m.kindB m.locB m.baseB 0 nb lenB m.at_ m.gotB] ++
    (if fwScaled w && m.at_ % fwBlock w = 0 then
      [piece m.kindA m.locA m.baseA lenA 128 (4 * kk) b (128 * b + m.scA.length), piece m.kindB m.locB m.baseB lenB 256 (8 * kk) b (256 * b + m.scB.length)]
    else [])

/-- The 128-byte lines of staging and memory that a step reads, as source kind, bank index of the grant, and line. -/
def stepUnits (m : Macro) (j : Nat) : List (Nat × Nat × Nat) :=
  ((stepReads { m with at_ := j }).filter fun r => decide (2 ≤ r.1) && decide (0 < r.2.2.2.2)).flatMap fun r =>
    let a := (if r.1 = 2 then fld 17 0 r.2.1 else r.2.1) + r.2.2.2.1
    (List.range ((a + r.2.2.2.2 - 1) / 128 - a / 128 + 1)).map fun i => (r.1, if r.1 = 2 then fld 22 18 r.2.1 else 0, a / 128 + i)

/-- Pins a line that a stream of accumulator `z` reads at its home bank for the macro-operation of tag `tag`; none while four lines of its set are pinned, all for others (05 R109).
Where some of the four are its own, which only its own retirement releases, the line is read without a pin (log 25). -/
def pinLine (k : Nat) (z : Bool) (tag la : Nat) (s : State) : Option State :=
  match s.group k with
  | none => some s
  | some g =>
    if (g.acc z).pins.contains (la, tag) then some s
    else
      let set := s.pkg.l2.filter fun e => e.2.bank = s.homeBank la && e.1 % 128 = la % 128 && decide (0 < e.2.pins)
      if 4 ≤ set.length && !(set.any fun e => e.1 = la) then
        if set.any fun e => (g.acc z).pins.any fun x => x.1 = e.1 then some s else none
      else
        let s := (homeLine la s).1
        match s.pkg.l2.find? la with
        | none => some s
        | some l => some ((s.modPkg fun p => { p with l2 := p.l2.put la { l with pins := l.pins + 1 } }).modGroup k fun g =>
            g.setAcc z { g.acc z with pins := (la, tag) :: (g.acc z).pins })

/-- The requests for some lines of streams: one for up to 256 bytes, two lines that follow one another in one staging bank, and one for every line of memory,
each of which has a home bank of its own (05 R112, R115). -/
def askUnits : List (Nat × Nat × Nat) → List (Nat × Nat × Nat)
  | u :: v :: r => if u.1 = 2 && v = (2, u.2.1, u.2.2 + 1) then u :: askUnits r else u :: askUnits (v :: r)
  | l => l

/-- Asks for one line of a stream: its request rides to the bank and its data back; none while it waits for a pin. -/
def askLine (k : Nat) (m : Macro) (tag : Nat) (u : Nat × Nat × Nat) (s : State) : Option State :=
  match s.group k with
  | none => some s
  | some g =>
    let a := s.asidOf g
    let part := (s.fn (s.fnOf a)).part
    if u.1 = 2 then
      match g.staging[u.2.1]? with
      | some b => some (addRider none part k tag 0 (bankRoute k b) s)
      | none => some s
    else
      match translate k a (u.2.2 * 128 % 2 ^ 56) .read s with
      | (s, .error _) => some s
      | (s, .ok p) =>
        if !isHbm p.pa then some s
        else (pinLine k m.z m.tag (lineOf p.pa) s).map (addRider none part k tag (p.wait s) (lineRoute s k (lineOf p.pa)))

/-- Asks for the bytes of the next step that has not been asked for, where they lie within 64 KiB of the step that needs them (R205). -/
def askStep (k : Nat) (m : Macro) (s : State) : State :=
  let w := m.fmt.toNat
  let n := extraCycles.lenStep 128 w + extraCycles.lenStep 256 w
  if m.steps ≤ m.asked || 65536 < (m.asked - m.at_) * n then s
  else
    let seen := if m.asked = 0 then [] else stepUnits m (m.asked - 1)
    match (askUnits ((stepUnits m m.asked).filter fun u => !seen.contains u)).foldl (fun (x : Option State) u => x.bind (askLine k m (m.tag + m.asked) u)) (some s) with
    | none => s
    | some s => s.modGroup k fun g => { g with compute := g.compute.map fun x => { x with asked := x.asked + 1 } }

/-- The tile fetch unit of a core: each lift cycle it asks for the bytes of a step. -/
def tileFetch (k : Nat) (s : State) : State :=
  match (s.group k).bind Group.compute with
  | some m => if m.streams then askStep k m s else s
  | none => s

/-- The bytes of the next step of a macro-operation have arrived. -/
def stepArrived (s : State) (m : Macro) : Bool := !m.streams || (decide (m.at_ < m.asked) && arrived s (m.tag + m.at_))

/-- Reads the stream bytes of a compute step. -/
def stepBytes (k : Nat) (m : Macro) (s : State) : State × Except (Trap × Nat) (Option (List (List Byte))) :=
  (stepFetch m ((s.group k).any fun g => g.retire.isNone)).foldl (fun (acc : State × Except (Trap × Nat) (Option (List (List Byte)))) r =>
    let (kind, loc, base, o, n) := r
    match acc.2 with
    | .ok (some l) =>
      match if n = 0 then (acc.1, .ok (some [])) else streamBytes k m.ctx kind loc base o n acc.1 with
      | (s, .ok (some x)) => (s, .ok (some (l ++ [x])))
      | (s, .ok none) => (s, .ok none)
      | (s, .error t) => (s, .error t)
    | e => (acc.1, e)) (s, .ok (some []))

/-- The launch runs in debug mode (15 Table 15.2). -/
def debugMode (s : State) (g : Group) : Bool := (s.launch g.launch).record.getLsbD 15

/-- Some of `n` bytes from a location of a source kind lie in a retirement's destination, and their column has not been written (R207). -/
def unlanded (g : Group) (ctx kind loc n : Nat) : Bool :=
  match g.retire with
  | some m =>
    let ob := outBytes m.fmt.toNat
    decide (m.ctx = ctx ∧ m.kindA = kind) && (List.range n).any fun i =>
      decide (m.locA ≤ loc + i ∧ loc + i < m.locA + 32768 * ob ∧ m.at_ ≤ (loc + i - m.locA) / ob % 256)
  | none => false

/-- The hazard detector of debug mode reports a step that reads bytes before the crew's own retirement has written them (R207). -/
def stepHazard (k : Nat) (m : Macro) (s : State) : Bool :=
  match s.group k with
  | some g => debugMode s g && (stepReads m).any fun r => (r.1 = 0 || r.1 = 2) && unlanded g m.ctx r.1 (r.2.1 + r.2.2.2.1) r.2.2.2.2
  | none => false

/-- Performs the next step of the compute lane. -/
def computeStep (k : Nat) (m : Macro) (s : State) : State :=
  if stepHazard k m s then macroStop k m .hazard 0 s
  else match stepBytes k m s with
  | (s, .error (t, a)) => macroStop k m t a s
  | (s, .ok none) => s
  | (s, .ok (some l)) =>
    let w := m.fmt.toNat
    let late := s.cycle - (m.start + m.at_)
    let m := { m with
      bufA := m.bufA ++ l.getD 0 [], bufB := m.bufB ++ l.getD 1 [], gotA := m.gotA + (l.getD 0 []).length, gotB := m.gotB + (l.getD 1 []).length
      scA := m.scA ++ l.getD 2 [], scB := m.scB ++ l.getD 3 [], delay := late + extraCycles m m.at_, at_ := m.at_ + 1 }
    if m.at_ % fwBlock w ≠ 0 then s.modGroup k fun g => { g with compute := some m }
    else
      let s := s.modGroup k fun g =>
        let a := g.acc m.z
        { g.setAcc m.z { a with live := addBlock w m.bufA m.bufB m.scA m.scB a.live } with
          compute := some { m with bufA := m.bufA.drop (4096 * fwBytes w), bufB := m.bufB.drop (8192 * fwBytes w), scA := m.scA.drop 128, scB := m.scB.drop 256 } }
      if m.at_ = m.steps then macroEnd k m s else s

/-- Writes a retired element's bytes to a scratch or staging destination (R210). -/
def retireWrite (k kind loc o : Nat) (bs : List Byte) (s : State) : Except Trap State :=
  match s.group k with
  | none => .ok s
  | some g =>
    if kind = 0 then
      let ea := loc + o
      if ea + bs.length ≤ 393216 ∧ g.modeOf (ea / 32768) = some 1 ∧ g.modeOf ((ea + bs.length - 1) / 32768) = some 1 then
        .ok (s.modGroup k fun g => { g with scratch := g.scratch.setList 0 ea bs })
      else .error .localBad
    else
      match g.staging[fld 22 18 loc]? with
      | some b =>
        if fld 47 23 loc = 0 ∧ fld 17 0 loc + o + bs.length ≤ 0x30000 then
          .ok (s.modPkg fun p => { p with staging := SMap.setList 0 p.staging (b * 196608 + fld 17 0 loc + o) bs })
        else .error .stageBad
      | none => .error .stageBad

/-- Retires column `m.at_` (R210). DESIGN CHOICE (log 108): the flags of its conversions (08 R171) count from then on, for a CSRR of FPF in the same
region too. -/
def retireStep (k : Nat) (m : Macro) (s : State) : State :=
  let w := m.fmt.toNat
  let z := match s.group k with | some g => (g.acc m.z).live | none => []
  let r := (List.range 128).foldl (fun (acc : Except Trap State × BitVec 5) i =>
    match acc.1 with
    | .error t => (.error t, acc.2)
    | .ok s =>
      let (v, fl) := retireElem w (z.get 0 (256 * i + m.at_))
      (retireWrite k m.kindA m.locA ((256 * i + m.at_) * outBytes w) (leBytes (outBytes w) v) s, acc.2 ||| fl)) (.ok s, 0)
  match r with
  | (.error t, _) => macroStop k m t 0 s
  | (.ok s, fl) =>
    let s := s.modCtxCrew k m.ctx fun c =>
      { c with region := c.region.raise fl }
    let m := { m with at_ := m.at_ + 1, delay := s.cycle - (m.start + m.at_) }
    if m.at_ = 256 then macroEnd k m s else s.modGroup k fun g => { g with retire := some m }

/-- Reserves the FIFO entries that a stream takes, for the crew's open region; the answer is the first of them. -/
def takeEntries (k ctx kind loc len : Nat) (s : State) : State × Nat :=
  match s.group k with
  | none => (s, 0)
  | some g =>
    if kind = 1 ∧ fifoLocOk g ctx loc then
      let n := ceilDiv len 256
      let s := s.modGroup k fun g => g.setQueue loc { g.queue loc with taken := (g.queue loc).taken + n }
      (s.modCtxCrew k ctx fun c => { c with region := { c.region with popped := c.region.popped.set 0 loc (c.region.popped.get 0 loc + n) } },
       (g.queue loc).taken)
    else (s, 0)

/-- A macro-operation may start: after its issue, and after the earlier operation of the other lane on its accumulator. -/
def macroReady (g : Group) (cyc : Nat) (m : Macro) : Bool :=
  let (other, last) := if m.op = 2 then (g.compute, g.zComputeEnd.find? (zKey m.z)) else (g.retire, g.zRetireEnd.find? (zKey m.z))
  decide (m.issued < cyc) &&
  (match other with | some o => !(o.z = m.z && decide (o.issued < m.issued)) | none => true) &&
  (match last with | some e => decide (e < cyc) | none => true)

/-- Starts a lane's operation (Table 10.5). -/
def macroStart (k : Nat) (m : Macro) (s : State) : State :=
  let m := { m with started := true, start := s.cycle }
  let zero := fun (g : Group) => g.setAcc m.z { g.acc m.z with live := [] }
  match m.op with
  | 2 => s.modGroup k fun g => { g with retire := some m }
  | 3 => macroEnd k m (s.modGroup k fun g => { zero g with compute := some m })
  | _ =>
    let w := m.fmt.toNat
    let (s, ba) := takeEntries k m.ctx m.kindA m.locA (streamA w m.steps) s
    let (s, bb) := takeEntries k m.ctx m.kindB m.locB (streamB w m.steps) s
    s.modGroup k fun g => { (if m.op = 1 then zero g else g) with compute := some { m with baseA := ba, baseB := bb } }

/-- The operation of a lane. -/
def Group.lane (g : Group) (retire : Bool) : Option Macro := if retire then g.retire else g.compute

/-- MACRO_OPERATION_START (R205): the operation that waits in a lane starts. -/
def execMacroOperationStart (core : Nat) (retire : Bool) (s : State) : Host.Outcome State Fault Refusal :=
  .next (match s.group core with
    | none => s
    | some g =>
      match g.lane retire with
      | some m => if !m.started && macroReady g s.cycle m then macroStart core m s else s
      | none => s)

/-- The next step of a lane, whatever the cycle. -/
def laneStep (core : Nat) (retire : Bool) (m : Macro) (s : State) : State :=
  if retire then retireStep core m s else computeStep core m s

/-- MATRIX_STEP (R205): the step or column of this core cycle. -/
def execMatrixStep (core : Nat) (retire : Bool) (s : State) : Host.Outcome State Fault Refusal :=
  .next (match s.group core with
    | none => s
    | some g =>
      match g.lane retire with
      | some m => if m.started && decide (m.start + m.at_ + m.delay ≤ s.cycle) && (retire || stepArrived s m) then laneStep core retire m s else s
      | none => s)

/-! ## Issue (R212) -/

/-- Gives a macro-operation its tag; under it and those that follow the bytes of its steps ride. -/
def tagMacro (m : Macro) (s : State) : State × Macro :=
  (s.modPkg fun p => { p with nextTag := p.nextTag + m.steps }, { m with tag := s.pkg.nextTag })

/-- Places a macro-operation in its lane and makes its crew the active holder. -/
def placeMacro (k : Nat) (m : Macro) (s : State) : State :=
  let (s, m) := tagMacro m s
  let s := s.modGroup k fun g =>
    let a := g.acc m.z
    let g := g.setAcc m.z { a with holder := some m.ctx, active := true }
    if m.op = 2 then { g with retire := some m } else { g with compute := some m }
  s.modRegion k fun r => { r with zNamed := r.zNamed ||| (1#2 <<< m.z.toNat), macros := m.tag :: r.macros }

/-- Checks 1 to 5 of Table 10.7, with the format vote of R216 between 1 and 2, which the lanes `diverge` fail; then the operation is placed. -/
def matrixIssue (m : Macro) (diverge : List (Nat × Nat)) (bad : Bool) (s : State) : State :=
  match s.crew s.focus with
  | none => s
  | some (g, c) =>
    let k := s.focus
    let w := m.fmt.toNat
    if !fullCrew s g c then crewFault k c .partialMask s
    else if diverge ≠ [] then latchLanes k .fmtDiverge (diverge.map fun l => (l.1, 0)) .read s
    else if c.handler then forceKill k .handlerFault s
    else if (g.acc m.z).active && (g.acc m.z).holder ≠ some c.ctx then crewFault k c .mxBad s
    else if m.op ≠ 3 && (!fwOk w || fwMasked (s.launch g.launch).fmask w) then crewFault k c .fmtBad s
    else if bad || (m.op ≤ 1 && m.steps % fwBlock w ≠ 0) then crewFault k c .mxBad s
    else placeMacro k { m with ctx := c.ctx, issued := s.cycle } s

/-- The macro-operation of an M slot. -/
def slotMacro (g : Group) (c : Crew) (op : Nat) (d : MSlot) : Macro :=
  { z := d.z, op := op, fmt := (g.getS c.ctx d.fw.toNat).setWidth 32, locA := (g.getA c.ctx d.aa.toNat).toNat,
    locB := (g.getA c.ctx d.ab.toNat).toNat, kindA := d.asrc.toNat, kindB := d.bsrc.toNat,
    steps := if op ≤ 1 then d.nstep.toNat + 1 else 1, issued := 0, ctx := c.ctx }

/-- Issues an M slot; a busy lane holds it (R205). -/
def slotIssue (op : Nat) (d : MSlot) (s : State) : State :=
  match s.crew s.focus with
  | none => s
  | some (g, c) => if (g.lane (decide (op = 2))).isSome then s else matrixIssue (slotMacro g c op d) [] false s

/-- MX (R208). -/
def execMx (d : MSlot) (s : State) : Host.Outcome State Fault Refusal := .next (slotIssue 0 d s)
/-- MXS (R208). -/
def execMxs (d : MSlot) (s : State) : Host.Outcome State Fault Refusal := .next (slotIssue 1 d s)
/-- MXR (R210). -/
def execMxr (d : MSlot) (s : State) : Host.Outcome State Fault Refusal := .next (slotIssue 2 d s)
/-- MXZ (R211). -/
def execMxz (d : MSlot) (s : State) : Host.Outcome State Fault Refusal := .next (slotIssue 3 d s)

/-- Lane 0's value of a Burhus register. -/
def lane0 (g : Group) (c : Crew) (r : Nat) : Nat := (g.getX (laneSlot c 0) 0 r).toNat

/-- The active lanes whose format word differs from lane 0's (R216). -/
def fwDiverges (g : Group) (c : Crew) (r : Nat) : List (Nat × Nat) :=
  c.strands.filter fun l => (g.getX l.2 l.1 r).toNat % 2 ^ 32 ≠ lane0 g c r % 2 ^ 32

/-- Issues a Burhus matrix operation, whose crew moves on when it has ended: a guard false for the crew skips it, one that
holds in part of it leaves the mask not full. -/
def burMatrix (opc : Nat) (b : BIns) (op : Nat) (fw : Option Nat) (a bb : Nat) (tiles : Bool) (s : State) : State :=
  match s.crew s.focus with
  | none => s
  | some (g, c) =>
    if (burLanes g c b.guard).isEmpty then advance s.focus (lenB opc b) s
    else if (burLanes g c b.guard).length ≠ c.strands.length then crewFault s.focus c .partialMask s
    else if (g.lane (decide (op = 2))).isSome then s
    else
      let w := match fw with | some r => lane0 g c r % 2 ^ 32 | none => 0
      let ta := lane0 g c a
      let tb := lane0 g c bb
      let rsv := fun x : Nat => fld 55 50 x ≠ 0
      let bad := tiles && (rsv ta || (op = 0 && (rsv tb || fld 63 56 ta ≠ fld 63 56 tb)) ||
        (op = 2 && (fld 63 56 ta ≠ 0 || bitOf 48 ta)))
      let m : Macro := {
        z := decide (b.n1 = 1), op := op, fmt := BitVec.ofNat 32 w, locA := fld 47 0 ta, locB := fld 47 0 tb,
        kindA := fld 49 48 ta, kindB := fld 49 48 tb,
        steps := if op = 0 then (fld 63 56 ta + 1) * fwBlock w else 1, issued := 0, ctx := c.ctx, bur := some (lenB opc b) }
      matrixIssue m (match fw with | some r => fwDiverges g c r | none => []) bad s

/-- MMA.T (R216): the effect of MX with the tile operand words of xb and xc. -/
def execMmaT (b : BIns) (s : State) : Host.Outcome State Fault Refusal := .next (burMatrix 0x80 b 0 (some b.a) b.b b.c true s)
/-- MRET.T (R216). -/
def execMretT (b : BIns) (s : State) : Host.Outcome State Fault Refusal := .next (burMatrix 0x81 b 2 (some b.a) b.b b.b true s)
/-- MZERO.T (R216). -/
def execMzeroT (b : BIns) (s : State) : Host.Outcome State Fault Refusal := .next (burMatrix 0x82 b 3 none 0 0 false s)

end Sys2Proof.Machine
end

