-- ==== Sys2Proof/Machine/Control.lean ====
section
/-!
DEFINITION. Control flow as a crew issues it (spec/14_control_flow.md R292 to R308; spec/18 R363, R366): Burhus terminators,
branches, loops, barriers, YIELD, TRAP and BRK, and the sync slot. What a commit point performs of it stands in
Machine/Commit.lean.
-/
namespace Sys2Proof.Machine

/-- The successor that stands for exit (R294). -/
def exitMark : Nat := 0xFFFFFFFF

/-- Notes an operation for the commit point after the bundle or instruction. -/
def noteCommit (k : Nat) (ops : List CommitOp) (s : State) : State :=
  s.modRegion k fun r => { r with ops := r.ops ++ ops, due := true }

/-- Runs `h` on the running crew of the focus core. -/
def withCrew (s : State) (h : Group → Crew → State) : State :=
  match s.crew s.focus with
  | some (g, c) => h g c
  | none => s

/-! ## Burhus terminators (R292) -/

/-- The strands that execute a terminator; one that skips it names no successor and ends (log 12). -/
def termSucc (c : Crew) (h : Nat × Nat → Nat) : List (Nat × Nat × Nat) :=
  c.strands.map fun l => (l.1, l.2, if c.skip.contains l.1 then exitMark else h l)

/-- NEXT. -/
def execNext (b : BIns) (s : State) : Host.Outcome State Fault Refusal :=
  .next (withCrew s fun _ c => noteCommit s.focus [.send (termSucc c fun _ => b.n1)] (advance s.focus (lenB 0xC0 b) s))

/-- NEXT.C: st where c(k) is 1, otherwise sf. -/
def execNextC (b : BIns) (s : State) : Host.Outcome State Fault Refusal :=
  .next (withCrew s fun g c =>
    noteCommit s.focus [.send (termSucc c fun l => if g.getC l.2 l.1 b.c then b.n1 else b.n2)] (advance s.focus (lenB 0xC1 b) s))

/-- NEXT.IX: base + U(xa[31:0]) below count, else BAD_SUCCESSOR (02 R32). -/
def execNextIx (b : BIns) (s : State) : Host.Outcome State Fault Refusal :=
  .next (withCrew s fun g c =>
    let v := fun (l : Nat × Nat) => (g.getX l.2 l.1 b.a).toNat % 2 ^ 32
    let bad := c.strands.filter fun l => !c.skip.contains l.1 && decide (b.n2 ≤ v l)
    if bad ≠ [] then latchLanes s.focus .badSuccessor (bad.map fun l => (l.1, 0)) .read s
    else noteCommit s.focus [.send (termSucc c fun l => b.n1 + v l)] (advance s.focus (lenB 0xC2 b) s))

/-- EXIT. -/
def execExit (b : BIns) (s : State) : Host.Outcome State Fault Refusal :=
  .next (withCrew s fun _ c => noteCommit s.focus [.send (termSucc c fun _ => exitMark)] (advance s.focus (lenB 0xC3 b) s))

/-- RFT up to its commit point: outside a handler it latches BAD_SUCCESSOR (18 R363). -/
def rftIssue (c : Crew) (s : State) : State :=
  if c.handler then noteCommit s.focus [.rft] s
  else noteCommit s.focus [] (crewFault s.focus c .badSuccessor s)

/-- RFT. -/
def execRft (b : BIns) (s : State) : Host.Outcome State Fault Refusal :=
  .next (withCrew s fun _ c => if c.handler then advance s.focus (lenB 0xC4 b) (rftIssue c s) else rftIssue c s)

/-- RFT of the B slot. -/
def execRftNative (_ : BSlot) (s : State) : Host.Outcome State Fault Refusal := .next (withCrew s fun _ c => rftIssue c s)

/-! ## Barriers and YIELD (R301, R302) -/

/-- A barrier up to its commit point; a handler may not issue it. -/
def barIssue (cluster : Bool) (c : Crew) (s : State) : State :=
  handlerForbids s.focus c (noteCommit s.focus [.bar cluster]) s

/-- BAR.G. -/
def execBarG (b : BIns) (s : State) : Host.Outcome State Fault Refusal :=
  .next (withCrew s fun _ c => advance s.focus (lenB 0xC8 b) (barIssue false c s))
/-- BAR.K. -/
def execBarK (b : BIns) (s : State) : Host.Outcome State Fault Refusal :=
  .next (withCrew s fun _ c => advance s.focus (lenB 0xC9 b) (barIssue true c s))
/-- BAR.G of the B slot. -/
def execBarGNative (_ : BSlot) (s : State) : Host.Outcome State Fault Refusal := .next (withCrew s fun _ c => barIssue false c s)
/-- BAR.K of the B slot. -/
def execBarKNative (_ : BSlot) (s : State) : Host.Outcome State Fault Refusal := .next (withCrew s fun _ c => barIssue true c s)

/-- Notes that the crew yields once its bundle has issued. -/
def yieldCrew (k : Nat) (s : State) : State := s.modCrew k fun c => { c with yielded := true }

/-- YIELD: a guard that holds in no strand leaves the crew running. -/
def execYield (b : BIns) (s : State) : Host.Outcome State Fault Refusal :=
  .next (withCrew s fun g c =>
    let s' := if (burLanes g c b.guard).isEmpty then s else yieldCrew s.focus s
    advance s.focus (lenB 0xCA b) s')
/-- YIELD of the B slot. -/
def execYieldNative (_ : BSlot) (s : State) : Host.Outcome State Fault Refusal := .next (yieldCrew s.focus s)

/-! ## TRAP and BRK (R303) -/

/-- Latches a trap with its code in the given strands. -/
def codeTrap (k : Nat) (kind : Trap) (code : Nat) (ls : List (Nat × Nat)) (s : State) : State :=
  latch k { kind := kind, code := code, lanes := ls.map fun l => (l.1, 0) } s

/-- The strands that raise a TRAP or BRK, its code, and the state in which none does. -/
def trapIssue (f : TrapForm) (opc : Nat) (h : Nat → List (Nat × Nat) → State → State) (s : State) : State :=
  withCrew s fun g c =>
    match f with
    | .bur b =>
      let ls := burLanes g c b.guard
      if ls = [] then advance s.focus (lenB opc b) s else h b.n1 ls s
    | .b d => if qGuard g c d.gq.toNat d.ge d.gn then h (fld 7 0 d.opnd.toNat) c.strands s else s

/-- TRAP. -/
def execTrap (f : TrapForm) (s : State) : Host.Outcome State Fault Refusal :=
  .next (trapIssue f 0xCB (codeTrap s.focus .trapOp) s)

/-- BRK: to the attached debugger, or counted and passed; a NOP where DCONT says so (21 R404). -/
def execBrk (f : TrapForm) (s : State) : Host.Outcome State Fault Refusal :=
  .next (trapIssue f 0xCC (fun code ls s => withCrew s fun g c =>
    let asid := s.asidOf g
    if (s.ctx asid).dbg && !c.brkNop then codeTrap s.focus .brk code ls s
    else
      let s := if (s.ctx asid).dbg then s else
        let f := s.fnOf asid
        (s.modFn f fun x => { x with brks := x.brks + 1 }).modPart (s.fn f).part fun x => { x with brks := x.brks + 1 }
      match f with
      | .bur b => advance s.focus (lenB 0xCC b) s
      | _ => s) s)

/-! ## Branches and loops (R295 to R300) -/

/-- A bundle of a translation by index. -/
def bundleWord (s : State) (c : Crew) (i : Nat) : Option (BitVec 512) := (s.trans c.tr).bind fun t => t.code[i]?

/-- A bundle by index, decoded under the feature mask that its launch started with (19 R385). -/
def bundleAt (s : State) (g : Group) (c : Crew) (i : Nat) : Option (Except DecErr Bundle) :=
  (bundleWord s c i).map (decodeBundle (s.launch g.launch).fmask)

/-- Puts an entry at the head of a set-associative list, newest first, and keeps `ways` entries of its set. -/
def setFill {α : Type} [DecidableEq α] (set : α → Nat) (ways : Nat) (x : α) (l : List α) : List α :=
  let (own, rest) := (l.filter (· ≠ x)).partition fun y => set y = set x
  x :: own.take (ways - 1) ++ rest

/-- Brings an instruction line into a core's L1: 4 ways of 64 sets (03 R66); DESIGN CHOICE (log 79): the line
of the set that was filled first leaves, the spec names no replacement. -/
def l1Fill (k asid tr idx : Nat) (s : State) : State :=
  s.modCore k fun c => { c with l1 := setFill (fun x => x.2.2 % 64) 4 (asid, tr, idx / 4) c.l1 }

/-- The instruction line of a bundle, as a gondola knows it: translations stand at addresses of their own (03 R68). One that was placed from
outside the machine (log 3) stands nowhere in memory, and its lines go by its number. -/
def instrLine (s : State) (tr i : Nat) : Nat :=
  match (s.trans tr).bind Trans.base with
  | some b => codeLine b i
  | none => tr * 2 ^ 30 + i / 4

/-- The translation and first bundle of an instruction line. -/
def lineCode (s : State) (line : Nat) : Nat × Nat :=
  if line < 2 ^ 60 then (line / 2 ^ 30, line % 2 ^ 30 * 4)
  else
    match List.find? (fun (t : Nat × Trans) => match t.2.base with
        | some b => decide (codeLine b 0 ≤ line) && decide (line < codeLine b 0 + transRoom t.2 / 256)
        | none => false) s.pkg.trans with
    | some (t, x) => (t, (line - codeLine (x.base.getD 0) 0) * 4)
    | none => (2 ^ 60, 0)

/-- The bundle's line stands in the core's L1. -/
def inL1 (s : State) (k asid tr i : Nat) : Bool := (s.core k).l1.any fun x => x = (asid, tr, i / 4)

/-- A gondola holds a line. -/
def inGondola (s : State) (die line : Nat) : Bool := (s.pkg.gondola.get [] die).any fun x => x.line = line

/-- The physical address of a code line, for a fetch by core `k` in context `asid`: its translation, and the verification of its two lines of
L2 (R62; 04 R81, R90); and the lift cycles until its translation is held (04 R86). A translation that stands nowhere in memory needs none. -/
def fetchPa (k asid tr i : Nat) (s : State) : State × Except Trap (Option (Nat × Nat)) :=
  match (s.trans tr).bind Trans.base with
  | none => (s, .ok none)
  | some b =>
    match translate k asid (codeVa b (i / 4 * 4)) .fetch s with
    | (s, .error t) => (s, .error t)
    | (s, .ok p) =>
      if inGondola s (dieOf k) (codeLine b i) then (s, .ok (some (p.pa, p.wait s)))
      else
        match physRead p.pa 256 s with
        | (s, some _) => (s, .ok (some (p.pa, p.wait s)))
        | (s, none) => (s, .error .integFail)

/-- A core has a fetch of an instruction line under way (R66, R67). -/
def fetching (s : State) (k tr i : Nat) : Bool :=
  let fill : Instr := .gondolaFill (dieOf k) (instrLine s tr i) k
  s.agenda.any (fun e => e.2 = fill) || s.pkg.riders.any fun r => r.goal = some fill

/-- Asks the die's gondola for a line: 12 core cycles after the miss where it holds the line, else once L2 has filled it over the lift ring in the
partition's chairs (03 R67), or for a line that stands nowhere in memory after 64 lift cycles (log 79). A line that is pinned there costs these 12 and no
more (R69). -/
def fetchLine (k asid tr i : Nat) (pa : Option (Nat × Nat)) (s : State) : State :=
  let d := dieOf k
  let fill : Instr := .gondolaFill d (instrLine s tr i) k
  match (s.pkg.gondola.get [] d).find? fun x => x.line = instrLine s tr i, pa with
  | none, some (pa, wait) =>
    (addRider (some fill) (s.fn (s.fnOf asid)).part k s.pkg.nextTag wait (lineRoute s k (lineOf pa)) s).modPkg fun p => { p with nextTag := p.nextTag + 1 }
  | none, none => s.post (s.now + 64) fill
  | some x, _ => s.post (s.now + (if x.pin then 0 else (pa.map Prod.snd).getD 0) + 24) fill

/-- PBR: b(k) one cycle on, and a fetch of the target's line where the L1 lacks it. -/
def execPbr (d : BSlot) (s : State) : Host.Outcome State Fault Refusal :=
  .next (withCrew s fun g c =>
    let o := d.opnd.toNat
    let t := if bitOf 17 o then d.imx.toNat else wrapI 32 ((c.pc : Int) + sInt 17 (fld 16 0 o))
    let s := putLater s.focus (s.cycle + 1) (s.cycle + 1) [{ cls := .b, reg := fld 19 18 o, slot := 0, lane := 0, val := BitVec.ofNat 64 t }] s
    if inL1 s s.focus (s.asidOf g) c.tr t || (bundleWord s c t).isNone || fetching s s.focus c.tr t then s
    else match fetchPa s.focus (s.asidOf g) c.tr t s with
      | (s, .error _) => s
      | (s, .ok pa) => fetchLine s.focus (s.asidOf g) c.tr t pa s)

/-- Every ready entry of a frontier is passed over (R291). -/
def Frontier.passed (f : Frontier) : Frontier :=
  { ready := f.ready.map fun r => { r with passes := r.passes + 1 }
    records := f.records.map fun r => { r with passes := r.passes + 1 } }

/-- A turn of the running crew (R291): the pass count of every ready entry of its frontier rises by 1. -/
def turn (k : Nat) (s : State) : State :=
  s.modGroup k fun g =>
    if g.running.any Crew.handler then { g with nested := g.nested.map fun n => { n with frontier := n.frontier.passed } }
    else { g with frontier := g.frontier.passed }

/-- BRT: two delay bundles follow, taken or not (R296), and the transfer is pending for them where it is taken; in a delay bundle BRT is a
NOP (03 R64). -/
def execBrt (d : BSlot) (s : State) : Host.Outcome State Fault Refusal :=
  .next (withCrew s fun g c =>
    if 0 < c.delay then s
    else if !qGuard g c d.gq.toNat d.ge d.gn then s.modCrew s.focus fun c => { c with delay := 3 }
    else
      let t := (g.getB c.ctx (fld 19 18 d.opnd.toNat)).toNat
      let s := s.modCrew s.focus fun c => { c with branch := some (t, 3), delay := 3 }
      if t ≤ c.pc then turn s.focus s else s)

/-- Loop register `l` of an issue context. -/
def IssueCtx.lp (x : IssueCtx) (l : Bool) : LoopReg := if l then x.lp1 else x.lp0
def IssueCtx.setLp (x : IssueCtx) (l : Bool) (r : LoopReg) : IssueCtx := if l then { x with lp1 := r } else { x with lp0 := r }
def setLoop (k ctx : Nat) (l : Bool) (r : LoopReg) (s : State) : State :=
  s.modGroup k fun g => g.setCtx ctx ((g.ctx ctx).setLp l r)

/-- LPSET (R298): a count of 0 skips the body after two cycles. -/
def execLpset (d : BSlot) (s : State) : Host.Outcome State Fault Refusal :=
  .next (withCrew s fun g c =>
    let o := d.opnd.toNat
    let l := bitOf 19 o
    let n := (g.getS c.ctx (fld 18 14 o)).setWidth 32
    if n = 0 then
      (setLoop s.focus c.ctx l { (g.ctx c.ctx).lp l with active := false, count := 0 } s).modCrew s.focus fun c =>
        { c with branch := some (c.pc + fld 13 0 o + 1, 0), notBefore := s.cycle + 3 }
    else
      setLoop s.focus c.ctx l {
        start := BitVec.ofNat 32 (c.pc + 1), stop := BitVec.ofNat 32 (c.pc + fld 13 0 o), count := n, active := true } s)

/-- LPCLR (R298). -/
def execLpclr (d : BSlot) (s : State) : Host.Outcome State Fault Refusal :=
  .next (withCrew s fun g c =>
    let l := bitOf 19 d.opnd.toNat
    setLoop s.focus c.ctx l { (g.ctx c.ctx).lp l with active := false, count := 0 } s)

/-- The M slot that an RPT of a bundle repeats (10 R213): the bundle's MX or MXS. An RPT whose repetitions hold more than 4,096 steps is
ignored (R214), as is one over another M slot. -/
def rptOver (b : Bundle) : Option (MSlot × Bool) :=
  match b.slots.findSome? fun i => match i with | .mx d => some (d, false) | .mxs d => some (d, true) | _ => none with
  | some (d, x) =>
    if b.slots.any fun i => match i with | .rpt f => decide (4096 < (fld 19 8 f.opnd.toNat + 1) * (d.nstep.toNat + 1)) | _ => false then none
    else some (d, x)
  | none => none

/-- The M slot that the RPT at the crew's place repeats. -/
def rptSlot (s : State) (g : Group) (c : Crew) : Option (MSlot × Bool) :=
  match bundleAt s g c c.pc with
  | some (.ok b) => rptOver b
  | _ => none

/-- After an M-slot issue under RPT its locations advance by the streams' lengths (10 R213). -/
def rptAdvance (k : Nat) (d : MSlot) (s : State) : State :=
  match s.crew k with
  | none => s
  | some (g, c) =>
    let w := (g.getS c.ctx d.fw.toNat).toNat % 2 ^ 32
    let n := d.nstep.toNat + 1
    let step := fun (g : Group) (kind r len : Nat) =>
      if kind = 1 then g else g.put c.ctx .a r 0 0 (BitVec.ofNat 64 ((g.getA c.ctx r).toNat + len))
    s.modGroup k fun g => step (step g d.asrc.toNat d.aa.toNat (streamA w n)) d.bsrc.toNat d.ab.toNat (streamB w n)

/-- RPT: its own bundle's M slot is issue 0; the rest follow as RPT_REPEAT. -/
def execRpt (d : BSlot) (s : State) : Host.Outcome State Fault Refusal :=
  .next (withCrew s fun g c =>
    match rptSlot s g c with
    | none => s
    | some (m, x) =>
      rptAdvance s.focus m (s.modCrew s.focus fun c =>
        { c with rpt := some { left := fld 19 8 d.opnd.toNat, slot := m, mxs := x, rptIdx := c.pc } }))

/-- The next bundle of the crew belongs to the body of its RPT: at most 32 bundles. -/
def inBody (s : State) (g : Group) (c : Crew) : Bool :=
  match bundleAt s g c c.pc with
  | some (.ok b) => b.head.rpta && (match c.rpt with | some r => decide (c.pc ≤ r.rptIdx + 32) | none => true)
  | _ => false

/-- RPT_REPEAT (10 R213): once the body has issued and the compute lane is free, the M slot issues again and the body is
issued again from the loop buffer; once the last repetition is issued and its body has issued, issue goes on behind the body. -/
def execRptRepeat (core : Nat) (s : State) : Host.Outcome State Fault Refusal :=
  .next (match s.crew core with
    | none => s
    | some (g, c) =>
      match c.rpt with
      | none => s
      | some r =>
        if inBody s g c then s
        else if r.left = 0 then s.modCrew core fun c => { c with rpt := none }
        else if g.compute.isSome then s
        else
          let s := rptAdvance core r.slot (slotIssue (if r.mxs then 1 else 0) r.slot { s with focus := core })
          s.modCrew core fun c => { c with rpt := some { r with left := r.left - 1, again := true }, pc := r.rptIdx + 1 })

/-! ## Segment ends and commit points of the B slot (R294; 03 R57; 18 R366) -/

/-- SEND: the successors are read at issue and checked at the commit point. -/
def execSend (d : BSlot) (s : State) : Host.Outcome State Fault Refusal :=
  .next (withCrew s fun g c =>
    noteCommit s.focus [.send (c.strands.map fun l => (l.1, l.2, (g.getV l.2 (fld 19 14 d.opnd.toNat) l.1).toNat))] s)
/-- HALT. -/
def execHalt (_ : BSlot) (s : State) : Host.Outcome State Fault Refusal := .next (noteCommit s.focus [.halt] s)
/-- CMT. -/
def execCmt (_ : BSlot) (s : State) : Host.Outcome State Fault Refusal := .next (noteCommit s.focus [] s)
/-- CMT.SWAP. -/
def execCmtSwap (d : BSlot) (s : State) : Host.Outcome State Fault Refusal :=
  .next (noteCommit s.focus [.swap (fld 18 15 d.opnd.toNat) (fld 14 11 d.opnd.toNat)] s)

/-! ## The sync slot (R305 to R308) -/

/-- Flag `f` of a group. -/
def Group.flag (g : Group) (f : Nat) : Flag := g.flags.get {} f
def Group.setFlag (g : Group) (f : Nat) (x : Flag) : Group := { g with flags := g.flags.set {} f x }

/-- A crew began to wait on a flag earlier and has not taken its counts. -/
def olderWaiter (g : Group) (f : Nat) : Bool :=
  g.blocked.any (fun b => match b.2 with | .flag x _ => x = f | _ => false) ||
  g.crews.any (fun c => match c.served with | some x => x.1 = f | none => false)

/-- The acquire at .D that a WAIT makes for a flag with the remote bit (R306): it waits for the crew's earlier results, drops the cache's lines, and
takes 32 core cycles, while the flag keeps the counts for the crew. -/
def waitAcquire (f k : Nat) (c : Crew) (s : State) : State :=
  let s := s.modCrew s.focus fun c => { c with served := some (f, k) }
  if c.unlanded s.cycle then holdCrew s.focus (.acquire s.cycle) s
  else
    let s := (invalidateLines s.focus (fun _ => true) s).modGroup s.focus fun g => g.setFlag f { g.flag f with remote := false }
    holdCrew s.focus (.acquire (s.cycle + 32)) (s.modCrew s.focus fun c => { c with acq := some (s.cycle + 32) })

/-- WAIT: it takes its counts when the flag holds them and no older waiter stands before it, else the crew waits. -/
def execWait (flag : BitVec 5) (k : BitVec 15) (s : State) : Host.Outcome State Fault Refusal :=
  .next (withCrew s fun g c =>
    let f := flag.toNat
    let x := g.flag f
    if k = 0 then s
    else if x.count.toNat < k.toNat ∨ (c.served.isNone ∧ olderWaiter g f) then holdCrew s.focus (.flag f k.toNat) s
    else if x.remote && c.acq.isNone then waitAcquire f k.toNat c s
    else
      let s := s.modGroup s.focus fun g => g.setFlag f { x with count := x.count - k.setWidth 16 }
      s.modCrew s.focus fun c => { c with served := none, acq := none, region := { c.region with waits := c.region.waits ++ [(f, k.toNat)] } })

/-- A POST up to its commit point, for the group that the target core holds at issue; FLAG_BAD where that is none of the launch. -/
def postIssue (self : Bool) (core flag k : Nat) (s : State) : State :=
  withCrew s fun g c =>
    match (s.group core).filter fun h => h.launch = g.launch with
    | some h => noteCommit s.focus [.post self core flag k h.cluster] s
    | none => noteCommit s.focus [] (crewFault s.focus c .flagBad s)

/-- POST to the own core. -/
def execPostSelf (flag : BitVec 5) (k : BitVec 15) (s : State) : Host.Outcome State Fault Refusal :=
  .next (postIssue true s.focus flag.toNat k.toNat s)
/-- POST to another core. -/
def execPostCore (flag : BitVec 5) (core : BitVec 9) (k : BitVec 15) (s : State) : Host.Outcome State Fault Refusal :=
  .next (postIssue false core.toNat flag.toNat k.toNat s)

end Sys2Proof.Machine
end

