-- ==== Sys2Proof/Machine/Reply.lean ====
section
/-!
DEFINITION. Replies and posted messages (spec/20_reliability_boot_host.md R396, R398): their bytes, the mailbox they return
in, and the interrupts that announce them.
-/
namespace Sys2Proof.Machine

/-- The bytes of a name in ASCII, 16 of them. -/
def nameBytes (n : String) : List Byte := ((n.toList.map fun (c : Char) => BitVec.ofNat 8 c.toNat) ++ List.replicate 16 0).take 16

/-- The payload of a reply: its words, or the refusal's name and what follows it. -/
def replyPayload (status : Nat) (name : String) (ws : List W64) : List Byte :=
  (if status = 3 then nameBytes name else []) ++ ws.flatMap fun w => leBytes 8 w.toNat

/-- The bytes of a message (R398). -/
def replyBytes (cmd : Nat) (tag : BitVec 16) (status : Nat) (name : String) (ws : List W64) : List Byte :=
  let p := replyPayload status name ws
  leBytes 16 (cmd + tag.toNat * 2 ^ 16 + p.length * 2 ^ 32 + status * 2 ^ 64) ++ p

/-- Raises an MSI-X vector of a function. -/
def raiseMsix (fn vec : Nat) (s : State) : State := s.modFn fn fun f => { f with msix := f.msix ++ [vec] }

/-- Answers a command: into the owner mailbox for the host, into the function mailbox for a function, and else over the
transport of the master that sent it. -/
def answer (h : CmdHdr) (cmd status : Nat) (name : String) (ws : List W64) (s : State) : State :=
  let bs := replyBytes cmd h.tag status name ws
  if h.from_.cls = 0 then raiseMsix h.from_.ep 0 (s.modFn h.from_.ep fun f => { f with reply := bs, ready := true })
  else
    let s := s.modSvc fun v =>
      { v with out := v.out ++ [{ dest := h.from_, cmd := cmd, tag := h.tag, status := status, name := name, payload := ws }] }
    if h.from_.cls = 1 then raiseMsix 0 0 (s.modSvc fun v => { v with mbox := bs, ready := true }) else s

/-- Accepts a command with a payload. -/
def accepted (h : CmdHdr) (cmd : Nat) (ws : List W64) (s : State) : State := answer h cmd 0 "" ws s
/-- Refuses a command by name (R412). -/
def refused (h : CmdHdr) (cmd : Nat) (name : String) (s : State) : State := answer h cmd 3 name [] s

/-- Posts a message to the owner, as the package does of its own. -/
def postOwner (cmd : Nat) (tag : BitVec 16) (ws : List W64) (s : State) : State :=
  match s.svc.owner with
  | some m => answer { from_ := m, tag := tag } cmd 0 "" ws s
  | none => s

end Sys2Proof.Machine
end

