-- ==== Sys2Proof/Machine/Recovery.lean ====
section
/-!
DEFINITION. Recovery scope (spec/13_recovery_undo.md R261 to R263, R268 to R275): metadata groups and counter trees (04 R96,
R98), the recovery-scope release, gates, and seals from the request to the record.
-/
namespace Sys2Proof.Machine

/-! ## The records of a log -/

/-- Bytes of a record by its kind (Table 13.3). -/
def recLen (kind : Nat) : Nat := if kind = 1 then 192 else 64

/-- A record's header as a number. -/
def Ctx.headAt (c : Ctx) (p : Nat) : Nat := leNat (c.recAt p 64)

/-- GNUM and the span of a GATE record, cause and address of a HORIZON record, REC, line and old bytes of a LINE record. -/
def gnumOf (x : Nat) : Nat := fld 95 64 x
def recSpan (x : Nat) : Nat := fld 63 32 x
def horCause (x : Nat) : Nat := fld 67 64 x
def horAddr (x : Nat) : Nat := fld 191 128 x
def lineFirst (x : Nat) : Bool := bitOf 4 x
def lineNo (x : Nat) : Nat := fld 108 64 x
def Ctx.oldAt (c : Ctx) (p : Nat) : Line := lineOfBytes ((c.recAt p 192).drop 64)

/-- A record is in form: its KIND is 1 to 3, no RSV bit is set, and the cause of a HORIZON is 0 to 4 (R266, R275). -/
def logRecOk (kind x : Nat) : Bool :=
  fld 31 18 x = 0 && fld 7 5 x = 0 &&
  match kind with
  | 1 => fld 511 256 x = 0 && fld 191 177 x = 0 && fld 127 109 x = 0
  | 2 => fld 255 192 x = 0
  | 3 => fld 511 192 x = 0 && fld 127 68 x = 0 && fld 67 64 x ≤ 4
  | _ => false

/-- The record at a position is in form. -/
def Ctx.formAt (c : Ctx) (p : Nat) : Bool := logRecOk (c.kindAt p) (c.headAt p)

/-- The positions of the records from `lo` on and below `hi`, newest first. -/
def Ctx.between (c : Ctx) (lo hi : Nat) : List Nat := (c.logIndex.filter fun r => lo ≤ r.1 && r.1 < hi).map Prod.fst

/-! ## Metadata of an owner (R262) -/

/-- Commits the groups of every chunk of an owner whose metadata is dirty. -/
def commitOwner (o : Nat) (s : State) : State :=
  foldS (s.pkg.metaDirty.filter fun ch => s.ownerOf (ch / 256) = o) commitChunk s

/-! ## Recovery-scope release (R263) -/

/-- The dirty lines of L2 that a context merged into last. -/
def dirtyOf (a : Nat) (s : State) : List Nat := (s.pkg.l2.filter fun e => e.2.dirty && e.2.by_ = some a).map Prod.fst

/-- An owner code under which a function's stores are made: its own, or that of a window it is a member of. -/
def writesUnder (s : State) (f o : Nat) : Bool :=
  o = f || (winOf o ≠ 0 && ((s.pkg.wins.find? (winOf o)).getD {}).members.any fun m => m.1 = f)

/-- RecoveryRelease: the context's dirty lines are written back, and the groups of every chunk written commit (R263). -/
def recoveryRelease (a : Nat) (s : State) : State :=
  let s := mergeAll s
  let s := foldS (dirtyOf a s) writeBackLine s
  foldS (((s.pkg.metaDirty ++ s.pkg.metaLog.map MetaGroup.chunk).eraseDups).filter fun ch => writesUnder s (s.fnOf a) (s.ownerOf (ch / 256))) commitChunk s

/-- The recovery-scope release of one line (an atomic at .V). -/
def recoveryLine (la : Nat) (s : State) : State := commitChunk (la / 64) (writeBackLine la s)

/-! ## Stopping a context (R272, 18 R371, R372) -/

/-- The cores that hold a group of a context. -/
def coresOf (s : State) (a : Nat) : List Nat :=
  (s.cores.filter fun c => match c.2.group with | some g => s.asidOf g = a | none => false).map Prod.fst

/-- InsertMarker and WaitDrainToMarker (07 R149). -/
def releaseDrain (k : Nat) (s : State) : State := drainCore k (fifoPush k .marker s)

/-- DrainAll (R272): the dirty-line FIFO of every core that holds a crew of the context. -/
def drainAll (a : Nat) (s : State) : State := foldS (coresOf s a) drainCore s

/-- A crew that is blocked where a commit point has completed: a stop leaves it as it is. -/
def atCommit : Wait → Bool
  | .barrier _ | .fill _ | .pageFault _ | .seal _ | .delivery | .nested | .debugger => true
  | _ => false

/-- Every crew of the group stands at a commit point: one whose commit point waits for a full log, with what it buffered released, does so too. -/
def Group.still (g : Group) : Bool := g.running.all (fun c => c.region.released) && g.blocked.all fun b => atCommit b.2

/-- Every crew of a context stands at a commit point. -/
def contextStill (s : State) (a : Nat) : Bool :=
  (coresOf s a).all fun k => match s.group k with | some g => g.still | none => true

/-- Asks a core to stop its crews at their commit points (18 R372): blocked ones roll back at once, the running one once the
bound of 4,352 core cycles has passed. -/
def stopCore (k : Nat) (s : State) : State :=
  match s.group k with
  | none => s
  | some g =>
    if g.stopReq then s
    else
      let s := s.setGroup k { g with stopReq := true, stopAt := s.now + 8704 }
      (s.post s.now (.preemptionTimeout k)).post (s.now + 8704) (.preemptionTimeout k)

/-- Lets the crews of a core go on, unless its cluster is to be suspended. -/
def resumeCore (k : Nat) (s : State) : State :=
  s.modGroup k fun g => if (s.launch g.launch).preempt.contains g.cluster then g else { g with stopReq := false }

/-! ## Gates (R274) -/

/-- GATE n at its commit point. -/
def performGate (k a n bidx khash : Nat) (s : State) : State :=
  if !(s.ctx a).span then s
  else
    let s := s.modCtx a fun c => { c with ugn := BitVec.ofNat 64 ((fld 31 0 c.ugn.toNat + 1) % 2 ^ 32 + n * 2 ^ 32) }
    appendHeld a (.gate k bidx n khash) s

/-! ## Seals (R272, R273) -/

/-- RPS with SIP set or clear. -/
def Ctx.setSip (c : Ctx) (b : Bool) : Ctx := { c with rps := setBit c.rps 2 b }

/-- CIDX and DONE of a queue at the point: the oldest launch not complete, and the completed ones from there on. -/
def queueDone (s : State) (a q : Nat) : Nat × Nat :=
  let qu := (s.ctx a).queues.get {} q
  let mine := s.pkg.launches.filter fun l => l.2.asid = a ∧ l.2.q = q
  let open_ := mine.filter fun l => !(l.2.complete || l.2.abandoned)
  let r := qu.ridx.toNat
  let back := fun (i : Nat) => (r + 2 ^ 32 - i) % 2 ^ 32
  let c := open_.foldl (fun (m : Nat) (l : Nat × Launch) => if back m < back l.2.lidx then l.2.lidx else m) r
  (c, mine.foldl (fun (d : Nat) (l : Nat × Launch) =>
    let j : Nat := (l.2.lidx + 2 ^ 32 - c) % 2 ^ 32
    if ((l.2.complete || l.2.abandoned) && decide (j < 32)) = true then d ||| 2 ^ j else d) 0)

/-- The first 224 bytes of a seal record (Table 13.5): all but its digest, which is written last. -/
def sealBody (s : State) (a num lpos plpos bsel : Nat) (chain pchain : BitVec 256) : List Byte :=
  let c := s.ctx a
  let qs := (List.range 8).map (queueDone s a)
  let words := fun (f : Nat × Nat → Nat) => leNat (qs.flatMap fun x => leBytes 4 (f x))
  leBytes 224 (0x4C414553 + 2 ^ 32 + num % 2 * 2 ^ 40 + bsel * 2 ^ 41 + num * 2 ^ 64 + lpos * 2 ^ 128 +
    plpos * 2 ^ 192 + chain.toNat * 2 ^ 256 + pchain.toNat * 2 ^ 512 + c.evv.toNat * 2 ^ 768 + words Prod.fst * 2 ^ 1024 +
    words Prod.snd * 2 ^ 1280 + (s.tim % 2 ^ 64) * 2 ^ 1536)

/-- LPOS and CHAIN of the point that a context sealed last. -/
def Ctx.lastSeal (c : Ctx) : Nat × BitVec 256 :=
  let b := leNat (if c.rps.getLsbD 0 then c.seal1.bytes else c.seal0.bytes)
  (fld 191 128 b, BitVec.ofNat 256 (fld 511 256 b))

/-- Puts a record into the seal slot of a point. -/
def Ctx.putSeal (c : Ctx) (num : Nat) (x : SealSlot) : Ctx := if num % 2 = 0 then { c with seal0 := x } else { c with seal1 := x }

/-- A seal record as it stands in its slot of the context's service granule (R273), with its chunk's group committed. -/
def storeSeal (a num : Nat) (s : State) : State :=
  let c := s.ctx a
  match c.sealGr with
  | none => s
  | some g =>
    let la := g * 16384 + 2 * (num % 2)
    let bs := (if num % 2 = 0 then c.seal0 else c.seal1).bytes
    let bs := bs ++ List.replicate (256 - bs.length) 0
    let s := bumpCounter (la + 1) (bumpCounter la (fetchMeta (la / 64) s).1)
    commitChunk (la / 64) (s.putRaw (la * 128) bs)

/-- Begins the writing of a seal record in its slot, whose old record is gone: until its digest stands there the slot is torn. -/
def beginSeal (a num lpos plpos : Nat) (bsel : Bool) (chain pchain : BitVec 256) (s : State) : State :=
  let bs := sealBody s a num lpos plpos bsel.toNat chain pchain ++ List.replicate 32 0
  storeSeal a num (s.modCtx a fun c => c.putSeal num { bytes := bs })

/-- Writes a seal record's digest, and moves the recovery registers to the new point. -/
def finishSeal (a num plpos : Nat) (bsel : Bool) (s : State) : State :=
  storeSeal a num (s.modCtx a fun c =>
    let b := ((if num % 2 = 0 then c.seal0 else c.seal1).bytes).take 224
    let c := { c.putSeal num { bytes := b ++ leBytes 32 (shake256w b).toNat, durable := true } with
      rpn := num
      rps := setBit (setBit c.rps 0 (decide (num % 2 = 1))) 1 bsel
      recTail := plpos }
    { c with ult := c.tail, logIndex := c.logIndex.filter fun r => c.tail ≤ r.1 })

/-- Writes a seal record into its slot and moves the recovery registers to the new point. -/
def writeSeal (a num lpos plpos : Nat) (bsel : Bool) (chain pchain : BitVec 256) (s : State) : State :=
  finishSeal a num plpos bsel (beginSeal a num lpos plpos bsel chain pchain s)

/-- Starts a seal: SIP is set and every crew of the context is asked to stop. -/
def startSeal (a : Nat) (s : State) : State :=
  let s := s.modCtx a fun c => { c.setSip true with sealing := some { num := c.rpn + 1, lpos := c.rph, chain := c.rpc, core := c.sealCores.headD 0 } }
  foldS (coresOf s a) stopCore s

/-- SEAL of a context: without recovery logging a recovery-scope release; else a seal, queued behind one in progress. `owed`
is the request that a reply is owed to, `core` that of the crew that asks. -/
def requestSeal (a : Nat) (owed : Option CmdHdr) (s : State) (core : Nat := 0) : State :=
  let c := s.ctx a
  if !c.recv then
    let s := recoveryRelease a (drainAll a s)
    match owed with | some h => accepted h 0x23 [BitVec.ofNat 64 c.rpn] s | none => s
  else
    let s := s.modCtx a fun c => { c with sealQueue := c.sealQueue ++ [owed], sealCores := c.sealCores ++ [core] }
    if c.sealing.isSome then s else startSeal a s

/-- Wakes the crews of a context that wait for a seal up to the one just made. -/
def wakeSealed (a num : Nat) (s : State) : State :=
  let is := fun (w : Wait) => match w with | .seal n => decide (n ≤ num) | _ => false
  foldS (coresOf s a) (fun k s => s.modGroup k fun g =>
    let up := g.blocked.filter fun b => is b.2
    { g with
      blocked := g.blocked.filter fun b => !is b.2
      frontier := { g.frontier with ready := g.frontier.ready ++ up.map fun b => { crew := b.1, whole := false, since := s.cycle } } }) s

/-- The seal in progress, whose HORIZON record stands at the head, forces the log, releases, and begins to write its record. -/
def sealRelease (a : Nat) (r : SealRun) (s : State) : State :=
  let c := s.ctx a
  let (pl, pc) := c.lastSeal
  let s := beginSeal a r.num c.rph pl (!c.bsel) c.rpc pc (recoveryRelease a (forceLog a s))
  s.modCtx a fun c => { c with sealing := some { r with lpos := c.rph, chain := c.rpc, recorded := true } }

/-- The seal in progress drains, appends its HORIZON record and goes on; a full log holds the record, and the seal with it, until there is room (R270). -/
def sealDown (a : Nat) (r : SealRun) (s : State) : State :=
  let s := drainAll a s
  match roomWith 64 0 (s.ctx a) with
  | .ok c => sealRelease a r (appendRec a (horizonRec c 4 r.core r.num) (s.modCtx a fun _ => c))
  | .held => s
  | .trap => s.modCtx a fun c => { c with logTrap := true }

/-- The granules of the data chunks of a member's image, in order (R282). -/
def Relay.granules (r : Relay) (s : State) : List Nat := (r.ctxs.map s.fnOf).eraseDups.flatMap s.orderOf

/-- A line as it stands in memory: its copy in L2, or what HBM4 holds. -/
def State.lineNow (s : State) (la : Nat) : Line :=
  match s.pkg.l2.find? la with | some l => l.data | none => lineOfBytes (s.rawBytes (la * 128) 128)

/-- The line number of line `i` of a member's parity chunk (R282), the line, and its rewriting, as of any line of service granules. -/
def Relay.parityLa (r : Relay) (i : Nat) : Option Nat := (r.parGr[i / 2 ^ 14]?).map fun g => g * 2 ^ 14 + i % 2 ^ 14
def State.parityLine (s : State) (r : Relay) (i : Nat) : Line :=
  match r.parityLa i with | some la => lineOfBytes (s.rawBytes (la * 128) 128) | none => 0
def putParity (r : Relay) (i : Nat) (d : Line) (s : State) : State :=
  match r.parityLa i with
  | some la => commitChunk (la / 64) ((bumpCounter la (fetchMeta (la / 64) s).1).putRaw (la * 128) (bytesOfLine d))
  | none => s

/-- The line number at which line `i` of a member's image stands; the chunk of its own index is its parity. -/
def Relay.imageLa (r : Relay) (s : State) (i : Nat) : Option Nat :=
  let g := i / 2 ^ 14
  if g / r.ch = r.idx then none
  else ((r.granules s)[if g < r.idx * r.ch then g else g - r.ch]?).map fun x => x * 2 ^ 14 + i % 2 ^ 14

/-- A member's image as it sends it: with the chunk of its own index read as zeros (R283). -/
def Relay.imageBytes (r : Relay) (s : State) : List Byte :=
  (List.range (8 * r.ch * 2 ^ 14)).flatMap fun i => bytesOfLine (match r.imageLa s i with | some la => s.lineNow la | none => 0)

/-- The place in a member's image of a line of its protected contexts' functions (R282): their granules in configured order, with the chunk of its own
index left to the parity. -/
def Relay.imageLine (r : Relay) (s : State) (la : Nat) : Option Nat :=
  let gs := r.granules s
  let i := gs.findIdx fun g => g = la / 2 ^ 14
  if i < gs.length then some ((if i < r.idx * r.ch then i else i + r.ch) * 2 ^ 14 + la % 2 ^ 14) else none

/-- The deltas that a context owes the members of a relay for point `n`, from its recovery records after `lo` up to `hi` (R284): for each line the
member, the line of its parity chunk, and OLD XOR the line's value at the point, which is the OLD of its recovery record after `hi`, if one
exists, and else its current value. -/
def relayDeltas (a n lo hi : Nat) (r : Relay) (s : State) : State × List (Nat × Nat × Nat × Line) :=
  let c := s.ctx a
  let recs := fun (lo hi : Nat) => (c.between lo hi).filter fun p => c.kindAt p = 1 && lineFirst (c.headAt p)
  (recs lo hi).foldl (fun (acc : State × List (Nat × Nat × Nat × Line)) p =>
    let la := lineNo (c.headAt p)
    let (s, now) := match (recs hi c.rph).find? fun q => lineNo (c.headAt q) = la with
      | some q => (acc.1, some (c.oldAt q))
      | none => homeLine la acc.1
    match now, r.imageLine s la with
    | some d, some i => (s, (n, i / (r.ch * 2 ^ 14), i % (r.ch * 2 ^ 14), c.oldAt p ^^^ d) :: acc.2)
    | _, _ => (s, acc.2)) (s, [])

/-- A context's seal of point `n` sends its deltas to the members of the relays that protect it (R284). -/
def sendDeltas (a n lo hi : Nat) (s : State) : State :=
  foldS (s.pkg.relays.filter fun r => r.2.ctxs.contains a && r.2.building.isNone && decide (r.2.rpp < n)) (fun r s =>
    let (s, ds) := relayDeltas a n lo hi r.2 s
    s.modPkg fun p => { p with relays := p.relays.put r.1 { r.2 with sent := r.2.sent ++ ds } }) s

/-- The record of the seal in progress is complete: the context resumes, unless a relay's build keeps it stopped (R283), and the next seal
starts. -/
def sealUp (a : Nat) (r : SealRun) (s : State) : State :=
  let c := s.ctx a
  let s := finishSeal a r.num c.lastSeal.1 (!c.bsel) s
  let s := sendDeltas a r.num c.lastSeal.1 r.lpos s
  let owed := (s.ctx a).sealQueue.headD none
  let s := s.modCtx a fun c => { c.setSip false with clearing := true, sealing := none, sealQueue := c.sealQueue.drop 1, sealCores := c.sealCores.drop 1 }
  let s := freeHeld a s
  let s := wakeSealed a r.num s
  let s := if (s.ctx a).stopped then s else foldS (coresOf s a) resumeCore s
  let s := match owed with | some h => accepted h 0x23 [BitVec.ofNat 64 r.num] s | none => s
  if (s.ctx a).sealQueue.isEmpty then s else startSeal a s

/-- Every command of a context that runs has paused at a 128-byte line boundary of its destination, or is held by a full log (R272). -/
def enginesPaused (s : State) (a : Nat) : Bool :=
  (s.ctx a).logHeld || s.pkg.runs.all fun r => r.2.ctx / 8 ≠ a ||
    match (s.eng r.2.ctx).queue.find? fun c => c.num = r.2.num with
    | none => true
    | some c => decide (moveTotal c ≤ c.done) || c.atLine c.done

/-- SEAL_RECORD_WRITTEN (R272): once every crew of the context stands at a commit point and the other bitmap has been cleared, the record
of the seal in progress is written; once it is in HBM4 the seal completes. -/
def execSealRecordWritten (asid : Nat) (s : State) : Host.Outcome State Fault Refusal :=
  .next (let c := s.ctx asid
    match c.sealing with
    | none => s
    | some r =>
      if r.recorded then sealUp asid r s
      else if c.clearing || !contextStill s asid || !enginesPaused s asid then s
      else sealDown asid r s)

/-- BITMAP_CLEAR_DONE (R272): the bitmap that is not active has been cleared. -/
def execBitmapClearDone (asid : Nat) (s : State) : Host.Outcome State Fault Refusal :=
  .next (if !(s.ctx asid).clearing then s
    else s.modCtx asid fun c =>
      if c.bsel then { c with bitmap0 := [], clearing := false } else { c with bitmap1 := [], clearing := false })

/-- RECOVERY_RESERVE_SEAL (R270): beyond 7/8 of the log the Fjoset cores issue a seal, unless one is in progress. -/
def execRecoveryReserveSeal (asid : Nat) (s : State) : Host.Outcome State Fault Refusal :=
  .next (let c := s.ctx asid
    if c.recv ∧ 7 * c.ring' < 8 * (c.rph - c.ult) ∧ c.sealing.isNone then requestSeal asid none s else s)

/-- LOG_LINE_ACK (R269): the controller of the ring line after ULD acknowledges it, as far as records fill it. -/
def execLogLineAck (asid : Nat) (s : State) : Host.Outcome State Fault Refusal :=
  .next (let c := s.ctx asid
    if c.rph ≤ c.uld then s else ackLog asid (min c.rph ((c.uld / 128 + 1) * 128)) s)

end Sys2Proof.Machine
end

