-- ==== Sys2Proof/Machine/Commit.lean ====
section
/-!
DEFINITION. Commit points (spec/03_fjoset_bundles.md R57 to R59): rollback, the release of a region, the operations performed
behind it, delivery of faults (spec/18 R355 to R364), and the killing of a kernel (R365).
-/
namespace Sys2Proof.Machine

/-! ## Rollback (R59, R199, R306; 07 R151) -/

/-- Returns the places and numbers that a discarded buffer holds. -/
def dropEntry (k asid : Nat) (e : BufEntry) (s : State) : State :=
  match e with
  | .bind .. => s.modCtx asid fun c => { c with bindRes := c.bindRes - 1 }
  | .engine cls num => endCmd (engKey asid cls (dieOf k)) num s
  | _ => s

/-- A command that was waiting to be accepted takes its number and completes as null (06 R121, R122). -/
def nullAccept (k : Nat) (r : AcceptReq) (s : State) : State :=
  let key := engKey r.cmd.asid r.cls (dieOf k)
  let s := s.modEng key fun e => { e with last := e.last + 1 }
  endCmd key (s.eng key).last s

/-- Restores the Burhus registers of an abandoned pass. -/
def undoRegs (us : List BUndo) (g : Group) : Group :=
  us.foldl (fun g u => if u.isC then { g with c := g.c.set false u.key (u.old.getLsbD 0) } else { g with x := g.x.set 0 u.key u.old }) g

/-- Restores the commit shadow of an issue context. -/
def restoreShadow (ctx : Nat) (g : Group) : Group :=
  let x := g.ctx ctx
  g.setCtx ctx { x with q := x.shadow.q, b := x.shadow.b, lp0 := x.shadow.lp0, lp1 := x.shadow.lp1 }

/-- Applies `f` to the accumulators that a region named. -/
def onNamed (n : BitVec 2) (f : Accum → Accum) (g : Group) : Group :=
  let g := if n.getLsbD 0 then g.setAcc false (f g.z0) else g
  if n.getLsbD 1 then g.setAcc true (f g.z1) else g

/-- The crew at its region's entry, with an empty region. -/
def Crew.atEntry (c : Crew) : Crew :=
  { c with
    pc := c.region.entry, seg := c.region.seg, skip := c.region.skip0, branch := c.region.branch0, delay := c.region.delay0, rpt := c.region.rpt0
    hold := none, inflight := [], mem := [], accepting := [], served := none, acq := none, windows := []
    region := {
      entry := c.region.entry, seg := c.region.seg, openBidx := c.region.openBidx, opened := c.region.opened, opens := c.region.opens
      bur := c.region.bur, skip0 := c.region.skip0, branch0 := c.region.branch0, delay0 := c.region.delay0, rpt0 := c.region.rpt0, csr0 := c.region.csr0
      phase := c.region.phase } }

/-- The group's part of a rollback. -/
def rollbackGroup (c : Crew) (g : Group) : Group :=
  let g := (landCrew (c.inflight.foldl (fun m l => max m l.at_) 0) g c).1
  let g := undoRegs c.region.undo (restoreShadow c.ctx (onNamed c.region.zNamed (fun a => { a with live := a.image, active := false }) g))
  let g := c.region.waits.foldl (fun g w => g.setFlag w.1 { g.flag w.1 with count := BitVec.ofNat 16 (min 65535 ((g.flag w.1).count.toNat + w.2)) }) g
  c.region.popped.foldl (fun g p => g.setQueue p.1 { g.queue p.1 with taken := (g.queue p.1).taken - p.2 }) g

/-- Runs the macro-operations of a lane that meet `mine` to their end (18 R365, R372: in-flight ones complete). -/
def finishLane (k : Nat) (mine : Macro → Bool) (retire : Bool) : Nat → State → State
  | 0, s => s
  | n + 1, s =>
    match s.group k with
    | none => s
    | some g =>
      match g.lane retire with
      | none => s
      | some m => if mine m then finishLane k mine retire n (if m.started then laneStep k retire m s else macroStart k m s) else s

/-- Runs those of both lanes of a core to their end, the one that was issued first before the other: an MMA.T has at most 32,768 steps. -/
def finishBoth (k : Nat) (mine : Macro → Bool) (s : State) : State :=
  let retireFirst := match s.group k with
    | some g => (match g.compute, g.retire with | some a, some b => decide (b.issued < a.issued) | _, _ => false)
    | none => false
  if retireFirst then finishLane k mine false 33000 (finishLane k mine true 300 s) else finishLane k mine true 300 (finishLane k mine false 33000 s)

/-- Runs both lanes of a core to their end. -/
def finishMacros (k : Nat) (s : State) : State := finishBoth k (fun _ => true) s

/-- Completes the macro-operations of a crew that is to be rolled back (18 R372), so that none of them adds to the entry image that the
rollback restores (10 R199); one that waits for a FIFO entry is dropped. The crew is given as they leave it. -/
def settleMacros (k : Nat) (c : Crew) (s : State) : State × Crew :=
  let mine := fun (m : Macro) => decide (m.ctx = c.ctx)
  if !((s.group k).any fun g => g.compute.any mine || g.retire.any mine) then (s, c)
  else
    let keep := fun (m : Option Macro) => m.filter fun x => !mine x
    let s := (finishBoth k mine s).modGroup k fun g => { g with compute := keep g.compute, retire := keep g.retire }
    (s, (s.ctxCrew k c.ctx).getD c)

/-- Rolls a crew of core `k` back: what its region holds outside the crew is discarded, and the crew stands at the region's
entry. The caller puts the crew back. -/
def undoCrew (k : Nat) (c : Crew) (s : State) : State × Crew :=
  let (s, c) := settleMacros k c s
  match s.group k with
  | none => (s, c.atEntry)
  | some g =>
    let asid := s.asidOf g
    let s := leaveWait (k, c.ctx) (foldS c.accepting (nullAccept k) (foldS c.region.buf (dropEntry k asid) s))
    let s := match g.down with
      | some d => if (s.sibling g d).isSome then
          s.modGroup d fun h => c.region.pushed.foldl (fun h (p : Nat × List W32) => h.setQueue p.1 { h.queue p.1 with unpublished := (h.queue p.1).unpublished - 1 }) h
        else s
      | none => s
    let s := unpin k true c.region.macros.contains (unpin k false c.region.macros.contains s)
    (s.modGroup k (rollbackGroup c), c.atEntry)

/-! ## Ready entries -/

/-- Adds a ready entry that holds a crew, in the frontier that the crew belongs to. -/
def pushReady (k : Nat) (c : Crew) (whole : Bool) (s : State) : State :=
  let r : Ready := { crew := c, whole := whole, since := s.cycle }
  s.modGroup k fun g =>
    if c.handler then { g with nested := g.nested.map fun n => { n with frontier := { n.frontier with ready := n.frontier.ready ++ [r] } } }
    else { g with frontier := { g.frontier with ready := g.frontier.ready ++ [r] } }

/-- Puts a crew among the blocked ones. -/
def pushBlocked (k : Nat) (c : Crew) (w : Wait) (s : State) : State :=
  s.modGroup k fun g => { g with blocked := g.blocked ++ [(c, w)] }

/-- The core has no running crew. -/
def clearRunning (k : Nat) (s : State) : State := s.modGroup k fun g => { g with running := none }

/-- Places a strand in the record of its successor (14 R290), kept in ascending home slot, with the bundle of the segment end that it comes from. -/
def Frontier.append (f : Frontier) (e prio lane slot now from_ : Nat) : Frontier :=
  let ins := fun (l : List Nat) => (l.filter (· < slot)) ++ [slot] ++ (l.filter (slot < ·))
  let key := lane * 16 + slot
  if f.records.any fun r => r.seg = e then
    { f with records := f.records.map fun r =>
        if r.seg = e then { r with lists := r.lists.set [] lane (ins (r.lists.get [] lane)), opens := r.opens.set 0 key from_ } else r }
  else { f with records := f.records ++ [{ seg := e, prio := prio, lists := [(lane, [slot])], opens := SMap.set 0 [] key from_, since := now }] }

/-! ## Killing (18 R365) -/

/-- Ends the group of a core whose launch is killed. -/
def killGroup (k : Nat) (s : State) : State :=
  let s := finishMacros k s
  match s.group k with
  | none => s
  | some g => (unpinAll k (foldS g.crews (fun c s => (undoCrew k c s).1) s)).modCore k fun c => { c with group := none }

/-- Discards, as null, the commands of a launch that have not started or that are parked; where its time bound has run, a collective whose
other members have not issued too (06 R135, R138). -/
def dropCmds (launch : Nat) (bound : Bool) (s : State) : State :=
  let gone := fun (c : EngCmd) => decide (c.launch = launch) && (!c.started || c.parked.isSome || (bound && decide (c.op = 0x73)))
  let s := foldS (s.pkg.eng.flatMap fun e => (e.2.queue.filter gone).map fun c => (e.1, c.num)) (fun x s => endCmd x.1 x.2 s) s
  s.modPkg fun p => { p with colls := p.colls.filter fun x => (s.eng x.ctx).queue.any fun c => c.num = x.num }

/-- The cores of a launch's placed clusters. -/
def Launch.cores (l : Launch) : List Nat := l.placed.flatMap Prod.snd

/-- The partition of a launch. -/
def State.partOfLaunch (s : State) (n : Nat) : Nat := (s.fn (s.fnOf (s.launch n).asid)).part

/-- The launch record's bits, and TBOUND of a record (15 Table 15.1). -/
def Launch.bits (l : Launch) : Nat := l.record.toNat
def recTbound (r : Nat) : Nat := fld 255 224 r

/-- Lift cycles of a launch's time bound (15 R315). -/
def timeLimit (s : State) (n : Nat) : Nat :=
  let l := s.launch n
  usec (if recTbound l.bits = 0 then (s.part (s.partOfLaunch n)).tbdef else recTbound l.bits)

/-- A collective of a launch is started and has not ended. -/
def collsOf (s : State) (n : Nat) : Bool :=
  s.pkg.colls.any fun x => (s.eng x.ctx).queue.any fun c => decide (c.num = x.num) && decide (c.launch = n)

/-- The time bound runs while a cluster is placed (15 R315), and while a collective that nothing else ends is outstanding (06 R138; log 87); where
it starts to run, its expiry is due after what is left. -/
def boundRun (n : Nat) (s : State) : State :=
  let l := s.launch n
  match !l.placed.isEmpty || collsOf s n, l.runSince with
  | false, some t => s.modLaunch n fun l => { l with ran := l.ran + (s.now - t), runSince := none }
  | true, none =>
    (s.modLaunch n fun l => { l with runSince := some s.now }).post (s.now + (timeLimit s n - l.ran)) (.timeBound n)
  | _, _ => s

/-- Posts the evaluation of placement that a freed core or an ended launch calls for (16 R333). -/
def callPlacement (n : Nat) (s : State) : State := s.post s.now (.placementEvaluation (s.partOfLaunch n))

/-- Kills a launch: STATUS with FKIND, FCAUSE and FINFO is what its completion record will carry. -/
def endLaunch (status : Nat × Nat × Nat × Nat) (n : Nat) (s : State) : State :=
  let l := s.launch n
  if l.complete then s
  else if l.status.isSome || l.abandoned then if status.1 = 2 then boundRun n (dropCmds n true s) else s
  else
    let s := foldS (l.cores.filter fun k => (s.group k).any fun g => decide (g.launch = n)) killGroup s
    let s := foldS l.suspended (fun x s => foldS x.groups (fun g s =>
      foldS g.2.crews (fun c s => foldS c.region.buf (dropEntry g.1 l.asid) s) s) s) s
    callPlacement n (boundRun n ((dropCmds n (status.1 = 2) s).modLaunch n fun l =>
      { l with status := some status, placed := [], suspended := [], preempt := [], waitTr := false }))

/-- Kills a kernel with a trap kind. -/
def killLaunch (kind : Trap) (cause info n : Nat) (s : State) : State := endLaunch (1, trapCode kind, cause, info) n s

/-- FINFO and FCAUSE of a fault: the lowest faulting lane's address, and the trap code. -/
def FaultRec.info (f : FaultRec) : Nat := match f.lanes with | l :: _ => l.2 | [] => 0
def FaultRec.fcause (f : FaultRec) : Nat := if f.kind = .trapOp then f.code else f.cause

/-! ## Native code of a Burhus kernel (03 R60, R61; 17 R350) -/

/-- The kernel of a group is a Burhus kernel. -/
def burhusKernel (s : State) (g : Group) : Bool := match (s.launch g.launch).kernel with | some kn => !kn.fjoset | none => false

/-- The value that a location record names for a strand (Table 3.16). -/
def locVal (g : Group) (ctx slot lane : Nat) (r : Nat) : Nat :=
  let a := fld 35 26 r
  let b := fld 45 36 r
  let sp := fun (k : Nat) => leNat (SMap.getList 0 g.spill (spillKey slot (256 * k + 4 * lane)) 4)
  match fld 25 22 r with
  | 0 => (g.getS ctx a).toNat
  | 1 => (g.getV slot a lane).toNat
  | 2 => (g.getV slot a lane).toNat + 2 ^ 32 * (g.getV slot b lane).toNat
  | 3 => (g.getP slot a lane).toNat
  | 4 => (g.getQ ctx a).toNat
  | 5 => sp a
  | 6 => sp a + 2 ^ 32 * sp b
  | _ => fld 127 64 r

/-- The Burhus registers of strands take the values that a commit-point entry lists (R61). -/
def fromNative (p : CPoint) (ctx : Nat) (strands : List (Nat × Nat)) (g : Group) : Group :=
  strands.foldl (fun g l => p.locs.foldl (fun (g' : Group) r =>
    g'.put ctx (if bitOf 21 r.toNat then .c else .x) (fld 20 0 r.toNat) l.2 l.1 (BitVec.ofNat 64 (locVal g ctx l.2 l.1 r.toNat))) g) g

/-- The lane locations that a commit-point entry lists take the strands' Burhus registers, where native code goes on. -/
def toNative (p : CPoint) (ctx : Nat) (strands : List (Nat × Nat)) (g : Group) : Group :=
  strands.foldl (fun g l => p.locs.foldl (fun (g : Group) r =>
    let r := r.toNat
    let v : W64 := if bitOf 21 r then (BitVec.ofBool (g.getC l.2 l.1 (fld 20 0 r))).setWidth 64 else g.getX l.2 l.1 (fld 20 0 r)
    let hi := v >>> (32 : Nat)
    let sp := fun (k : Nat) (x : W64) (g : Group) =>
      { g with spill := SMap.setList 0 g.spill (spillKey l.2 (256 * k + 4 * l.1)) (leBytes 4 x.toNat) }
    match fld 25 22 r with
    | 1 => g.put ctx .v (fld 35 26 r) l.2 l.1 v
    | 2 => (g.put ctx .v (fld 35 26 r) l.2 l.1 v).put ctx .v (fld 45 36 r) l.2 l.1 hi
    | 3 => g.put ctx .p (fld 35 26 r) l.2 l.1 v
    | 5 => sp (fld 35 26 r) v g
    | 6 => sp (fld 45 36 r) hi (sp (fld 35 26 r) v g)
    | _ => g) g) g

/-- The commit-point entry of a bundle of a crew's translation. -/
def sideAt (s : State) (c : Crew) (b : Nat) : Option CPoint := (s.trans c.tr).bind fun t => t.side.find? fun p => p.bidx = b

/-- The last commit-point entry of a segment: that of its end. -/
def sideEnd (s : State) (c : Crew) : Option CPoint := (s.trans c.tr).bind fun t => (t.side.filter fun p => p.seg = c.seg).getLast?

/-- A crew in native code of a Burhus kernel goes on in Burhus code from its region's boundary, for a replay (18 R359). -/
def asBurhus (s : State) (g : Group) (c : Crew) : Crew :=
  if c.fjoset && burhusKernel s g then
    { c with
      fjoset := false, pc := c.region.bur.2, seg := c.region.bur.1, skip := []
      region := { entry := c.region.bur.2, seg := c.region.bur.1, bur := c.region.bur, csr0 := c.region.csr0 } }
  else c

/-! ## Delivery (18 R357 to R364) -/

/-- The kernel's handler: its segment, or TRAPE of a native-only kernel. -/
def handlerOf (s : State) (g : Group) (c : Crew) : Option Entry :=
  let l := s.launch g.launch
  if c.fjoset then
    match (s.trans c.tr).bind fun t => t.trapE.bind fun e => (t.entries[e]?).map fun x => (e, x) with
    | some (e, p, b) => some { seg := e, prio := p, pc := b }
    | none => none
  else
    match l.kernel.bind fun kn => kn.trapSeg.bind fun e => (kn.segs[e]?).map fun x => (e, x.prio) with
    | some (e, p) => some { seg := e, prio := p, pc := 0 }
    | none => none

/-- Sends a delivered fault of a crew, which stands rolled back and outside every frontier, to its service. A BRK whose debugger has left does nothing:
the crew goes on at its region's entry, where it counts it (14 R303). -/
def routeFault (k : Nat) (c : Crew) (f : FaultRec) (s : State) : State :=
  match s.group k with
  | none => s
  | some g =>
    let kill := fun (kind : Trap) (cause : Nat) => killLaunch kind cause f.info g.launch s
    let c := { c with delivered := some f }
    if c.handler && decide (f.kind ≠ .brk) then
      kill .handlerFault (if f.kind = .handlerFault then f.cause else trapCode f.kind)
    else match routeOf f with
      | .kill => kill f.kind f.fcause
      | .service => offerFault (s.asidOf g) f.info f.acc (pushBlocked k c (.pageFault f.info) s)
      | .debugger =>
        let b := asBurhus s g c
        if !(s.ctx (s.asidOf g)).dbg then
          if f.kind = .brk then pushReady k { c with delivered := none } false s else kill f.kind f.fcause
        else let c := b
          if c.fjoset then pushBlocked k c .debugger s
        else pushBlocked k c .delivery s
      | .handler =>
        let c := asBurhus s g c
        match handlerOf s g c with
        | none => kill f.kind f.fcause
        | some h =>
          if !c.fjoset || g.stopReq then pushBlocked k c .delivery s
          else if g.nested.isSome then pushBlocked k c .nested s
          else s.modGroup k (enterHandler h c f s.cycle)

/-- The Burhus boundary of the commit point that closes a crew's region, where it lies within the segment that the region began in: a replay of
the region goes no further (18 R361). -/
def closingAt (s : State) (g : Group) (c : Crew) : Option Nat :=
  if c.fjoset && burhusKernel s g && c.region.due then
    (sideAt s c c.last).bind fun p => if p.seg = c.region.bur.1 ∧ c.region.bur.2 < p.boff then some p.boff else none
  else none

/-- Delivers a fault of the running crew: rollback first (R59), then its route. -/
def deliver (k : Nat) (f : FaultRec) (s : State) : State :=
  match s.crew k with
  | none => s
  | some (g, c) =>
    let f := { f with until_ := closingAt s g c }
    let (s, c) := undoCrew k c s
    let s := s.modGroup k fun g => { g with running := none, lastCrew := some c.ctx, issueAt := s.cycle + 3 }
    routeFault k c f s

/-! ## The release of a region (R57 step 3; 07 R143, R151; 11 R228; 12 R247; 18 R366) -/

/-- Changes the bank modes that differ (Table 7.2); the change completes after 64 cycles and one for each dirty line. Entries that are on their way
to a FIFO that ends still arrive (R152). -/
def changeModes (k : Nat) (v : W64) (s : State) : State :=
  match s.group k with
  | none => s
  | some g =>
    let diff := (List.range 12).filter fun b => fld (2 * b + 1) (2 * b) v.toNat ≠ fld (2 * b + 1) (2 * b) g.bkm.toNat
    let old := fun b => fld (2 * b + 1) (2 * b) g.bkm.toNat
    let dirty := (s.core k).cache.filter fun l => diff.contains l.bank && old l.bank = 0 && l.dirty ≠ 0
    let done := s.cycle + 64 + dirty.length
    let s := foldS dirty (fun l s => drainLine k l.line s) s
    let s := s.modCore k fun c => { c with cache := c.cache.filter fun l => !(diff.contains l.bank && old l.bank = 0) }
    s.modGroup k fun g =>
      { g with
        bkm := v.setWidth 24
        changing := diff.foldl (fun m b => m.put b done) g.changing
        scratch := g.scratch.filter fun e => !diff.contains (e.1 / 32768)
        fifo := diff.foldl (fun m b => m.set {} b { inbound := (m.get {} b).inbound, unpublished := (m.get {} b).unpublished }) g.fifo }

/-- A command's destination touches a scratch bank of a core: the banks that its bytes reach. -/
def cmdBanks (core : Nat) (c : EngCmd) : List Nat :=
  if isScratchRef c.dst && fld 40 32 c.dst = core && c.op ≠ 0x73 then
    let span : Int × Int :=
      if c.op = 0x71 then rowSpan (fld 31 0 c.cnt) (fld 63 32 c.cnt) (sInt 32 (fld 31 0 c.strides)) else (0, moveTotal c)
    let lo : Int := (fld 18 0 c.dst : Nat) + span.1
    let hi : Int := (fld 18 0 c.dst : Nat) + span.2
    (List.range 12).filter fun b => decide (lo < ((b + 1) * 32768 : Nat) ∧ ((b * 32768 : Nat) : Int) < hi)
  else []

/-- Adds a released command to the open fill lists of the banks it touches (R366). -/
def addFills (c : EngCmd) (s : State) : State :=
  foldS ((s.launch c.launch).cores.filter fun k => ((s.group k).any fun g => decide (g.launch = c.launch)) && !(cmdBanks k c).isEmpty) (fun k s => s.modGroup k fun g =>
    { g with fills := g.fills.map fun f =>
        if (cmdBanks k c).contains f.1 then
          (f.1, if f.2.2.length < 16 then (f.2.1, f.2.2 ++ [c]) else (true, f.2.2)) else f }) s

/-- The flag increment of a completed command travels from the station at which its last byte performed to the target core's region station, in
the partition's chairs; where that is the target's own region station it arrives 8 core cycles on (R307; 06 R128). DESIGN CHOICE (log 96): a command
that moves nothing posts from its core's own region station. -/
def postFlag (c : EngCmd) (s : State) : State :=
  match c.flag with
  | none => s
  | some (core, f, k) =>
    let i : Instr := .flagDelivery core f k (c.launch, c.fcl) true
    let here := (dieOf core, regionStation core)
    let src := c.last.getD (dieOf c.core, regionStation c.core)
    if src = here then s.post (s.now + 16) i
    else
      let r : Rider := { tag := s.pkg.nextTag, goal := some i, part := some (s.fn (s.fnOf c.asid)).part, core := c.core
                         legs := dataRoute src here 4 none, at_ := s.now }
      s.modPkg fun p => { p with riders := p.riders ++ [r], nextTag := p.nextTag + 1 }

/-- A CPY of count 0 completes when it is released, and posts its flag (06 R128, R129). -/
def emptyCopy (key : Nat) (c : EngCmd) (s : State) : State := postFlag c (endCmd key c.num s)

/-- Releases one buffered entry, in issue order. -/
def releaseEntry (k asid : Nat) (e : BufEntry) (s : State) : State :=
  match e with
  | .store pol ls => releaseStore k asid pol.toNat ls s
  | .sts ls => foldS ls (fun l s =>
      match s.group k with
      | none => s
      | some g =>
        if g.modeOf (fld 18 15 l.1) = some 1 then s.setGroup k { g with scratch := g.scratch.setList 0 l.1 l.2 }
        else
          let f := s.fnOf asid
          let n := l.2.length
          ((s.modCore k fun c => { c with stsLost := c.stsLost + n }).modFn f fun x => { x with stsLost := x.stsLost + n }).modPart (s.fn f).part
            fun x => { x with stsLost := x.stsLost + n }) s
  | .bkm v => changeModes k v s
  | .fcb b v => s.modGroup k fun g =>
      let old := (g.fcb.get 0 b).toNat
      { g with fcb := g.fcb.set 0 b (BitVec.ofNat 21 (fld 20 12 old * 2 ^ 12 + fld 11 8 v.toNat * 2 ^ 8 + fld 3 0 v.toNat)) }
  | .bind o b l => s.modCtx asid fun c => { c with bindRes := c.bindRes - 1, binds := c.binds ++ [(o, b, l)] }
  | .unbind o => s.modCtx asid fun c => { c with binds := c.binds.filter fun b => b.1 ≠ o }
  | .engine cls num =>
    let key := engKey asid cls (dieOf k)
    let s := modCmd key num (fun c => { c with released := true }) s
    match (s.eng key).queue.find? fun c => c.num = num with
    | some c => if c.op = 0x70 ∧ c.cnt = 0 then emptyCopy key c s else addFills c s
    | none => s

/-- Publishes the region's pushed entries: they are on their way for 8 core cycles. -/
def publish (k : Nat) (g : Group) (pushed : List (Nat × List W32)) (s : State) : State :=
  match g.down with
  | none => s
  | some d =>
    if pushed = [] || (s.sibling g d).isNone then s
    else
      let s := s.modGroup d fun h => pushed.foldl (fun h (p : Nat × List W32) =>
        let q := h.queue p.1
        h.setQueue p.1 { q with unpublished := q.unpublished - 1, inbound := q.inbound ++ [(s.cycle + 8, p.2)] }) h
      foldS (pushed.map Prod.fst).eraseDups (fun b s => s.post (s.now + 16) (.fifoPublication d b)) s

/-- Retires the entries that the region took. -/
def retirePops (popped : SMap Nat) (g : Group) : Group :=
  popped.foldl (fun g p =>
    let q := g.queue p.1
    g.setQueue p.1 { q with entries := q.entries.drop p.2, taken := q.taken - p.2 }) g

/-- Releases everything that a region buffered. -/
def releaseRegion (k : Nat) (g : Group) (r : Region) (s : State) : State :=
  let s := foldS r.buf (releaseEntry k (s.asidOf g)) s
  (publish k g r.pushed s).modGroup k fun g => retirePops r.popped g

/-! ## Flags (14 R307; 06 R128) -/

/-- Adds counts to a flag of a group; none when the count would pass 65,535. -/
def addFlag (f k : Nat) (remote : Bool) (g : Group) : Group × Bool :=
  let x := g.flag f
  if 65535 < x.count.toNat + k then (g.setFlag f { x with count := 65535, remote := x.remote || remote }, false)
  else (g.setFlag f { count := x.count + BitVec.ofNat 16 k, remote := x.remote || remote }, true)

/-- Delivers counts to the flag of a group on a core, placed there or saved from there (18 R373); once it has ended they are discarded, and FLAG_OVF
kills the launch. -/
def deliverFlag (core f k launch cluster : Nat) (remote : Bool) (s : State) : State :=
  match findGroup s launch cluster core with
  | none => s
  | some g =>
    let (g, ok) := addFlag f k remote g
    let s := modFindGroup launch cluster core (fun _ => g) s
    if ok then s else killLaunch .flagOvf 0 0 launch s

/-! ## Operations performed at the commit point -/

/-- The increment of a released object by `n` (12 R248, R254), at recovery scope with its line's release; or the fault of its link. -/
def relOne (k asid scope : Nat) (l : LaneAcc) (n : Nat) (s : State) : State × List LaneFault :=
  match atomicAccess k asid scope l.va l.pa 8 l.widx (fun v => some ((v + n) % 2 ^ 64)) s with
  | (s, .ok _) => (if scope = 5 && isHbm l.pa then recoveryLine (lineOf l.pa) s else s, [])
  | (s, .error t) => (s, [{ lane := l.lane, addr := l.va, kind := t }])

/-- What an operation waits for before it is performed: the writes of the core that precede it drain to their home banks and over its links
(R248, R251, R274, R301, R307). A FENCE waits for its links only where it is SC (log 88). -/
def prepOp (k asid : Nat) (op : CommitOp) (s : State) : State :=
  let far := fun (wide : Nat) (links : Bool) (s : State) =>
    let s := if 2 ≤ wide then releaseDrain k s else s
    if 4 ≤ wide && links then linkAll k s else s
  match op with
  | .rel sc objs => far (objs.foldl (fun m o => max m (objScope sc.toNat o.1)) sc.toNat) true s
  | .fence sc isSc => far sc.toNat isSc s
  | .gate .. => if (s.ctx asid).span then releaseDrain k s else s
  | .post _ core _ _ _ => if core = k then s else releaseDrain k s
  | .bar cluster => if cluster then releaseDrain k s else s
  | _ => s

/-- Writes of the core that the operation waits for are on their way to their home banks (07 R149), or a full log holds them (13 R270). -/
def opStalled (k asid : Nat) (op : CommitOp) (s : State) : Bool :=
  (match op with | .rel .. | .fence .. | .gate .. | .post .. | .bar _ => true | _ => false) &&
  (riding .drain s k || s.pkg.mergeQ.any fun q => q.2.any fun r => !r.w.eng && r.w.core = k && r.w.asid = some asid)

/-- The accesses that an operation makes at home banks: at .K and wider, and where the core does not cache the line (11 R234, 12 R248). -/
def CommitOp.homeLines (k : Nat) (op : CommitOp) (s : State) : List Nat :=
  let far := fun (scope : Nat) (ls : List LaneAcc) => ((ls.filter fun l => isHbm l.pa && (decide (2 ≤ scope) || uncached s k l.widx)).map fun l => lineOf l.pa).eraseDups
  match op with
  | .atom _ _ _ sc _ _ lanes => far sc.toNat (lanes.map Prod.fst)
  | .rel sc objs => far (objs.foldl (fun m o => max m (objScope sc.toNat o.1)) sc.toNat) (objs.map Prod.fst)
  | .add sc o _ => far (objScope sc.toNat o) [o]
  | _ => []

/-- Sends an operation's requests to the home banks, which perform it once they have ridden (05 R115; log 105). -/
def askOp (k asid : Nat) (op : CommitOp) (s : State) : State := foldS (op.homeLines k s) (sendLine .op asid k) s

/-- Performs an operation that stands behind the region's stores, once what precedes it has drained. A POST to the own core is seen from the
next core cycle on (R307). The answer carries the register writes of an atomic and the fault that its line raises. -/
def performOp (k asid khash : Nat) (op : CommitOp) (s : State) : State × List RegWr × List LaneFault :=
  match op with
  | .atom cas o ty sc cls reg lanes =>
    let (s, ws, bad) := performAtom k asid cas o.toNat ty.toNat sc.toNat cls reg lanes s
    (if sc = 5 ∧ bad = [] then foldS ((lanes.map fun x => lineOf x.1.pa).eraseDups) recoveryLine s else s, ws, bad)
  | .rel sc objs =>
    let wide := objs.foldl (fun m o => max m (objScope sc.toNat o.1)) sc.toNat
    let s := if wide = 5 then recoveryRelease asid s else s
    match atomLines k wide (objs.map Prod.fst) s with
    | (s, f :: fs) => (s, [], f :: fs)
    | (s, []) =>
      let (s, bad) := objs.foldl (fun (x : State × List LaneFault) o => if x.2 ≠ [] then x else relOne k asid wide o.1 o.2 x.1) (s, [])
      (s, [], bad)
  | .add sc o n =>
    let wide := objScope sc.toNat o
    match atomLines k wide [o] s with
    | (s, f :: fs) => (s, [], f :: fs)
    | (s, []) =>
      let (s, bad) := relOne k asid wide o n s
      (s, [], bad)
  | .fence sc _ =>
    let s := if sc = 5 then recoveryRelease asid s else s
    (if 2 ≤ sc.toNat then invalidateLines k (fun _ => true) s else s, [], [])
  | .seal => (requestSeal asid none s k, [], [])
  | .gate n bidx => (performGate k asid n bidx khash s, [], [])
  | .post _ core f n cl =>
    match s.group k with
    | none => (s, [], [])
    | some g =>
      if core = k then (s.post (2 * (s.cycle + 1)) (.flagDelivery core f n (g.launch, cl) false), [], [])
      else (sendEvent (s.fn (s.fnOf asid)).part k core (.flagDelivery core f n (g.launch, cl) true) s, [], [])
  | _ => (s, [], [])

/-- Performs operations in order, each as soon as what it waits for has drained, and writes the registers of an atomic: up to the first that faults,
or that waits; `asked` says that the first has sent its requests. The answer carries the operations that are left, with the same mark, and the fault. -/
def performOps (k ctx asid khash : Nat) : List CommitOp → Bool → State → State × List CommitOp × Bool × List LaneFault
  | [], _, s => (s, [], false, [])
  | op :: ops, asked, s =>
    let s := if asked then s else prepOp k asid op s
    if !asked && opStalled k asid op s then (s, op :: ops, false, [])
    else
      let s := if asked then s else askOp k asid op s
      if riding .op s k then (s, op :: ops, true, [])
      else
        match performOp k asid khash op s with
        | (s, ws, []) => performOps k ctx asid khash ops false (s.modGroup k fun g => ws.foldl (fun g w => g.put ctx w.cls w.reg w.slot w.lane w.val) g)
        | (s, _, bad) => (s, ops, false, bad)

/-! ## Where the crew stands after its commit point -/

/-- Steps 4 and 5 of R57, with FPF (08 R163) and the entry images (10 R199): the group with its crew's region closed. -/
def closeRegion (c : Crew) (g : Group) : Group :=
  let x := g.ctx c.ctx
  let g := g.setCtx c.ctx { x with
    fpf := c.region.fpfAfter x.fpf
    shadow := { q := x.q, b := x.b, lp0 := x.lp0, lp1 := x.lp1 } }
  onNamed c.region.zNamed (fun a => { a with image := a.live, active := false }) g

/-- The crew at the start of its next region, which the commit point after its last bundle opens: with what the BRT or RPT of that bundle leaves
pending, and BKM and FCB as the group `g` then holds them. DEDUCED (log 97): the windows of the hazard detector end
with the commit point, which has waited for every result. -/
def Crew.nextRegion (c : Crew) (g : Group) (phase : Option (Nat × Option (List EngCmd))) : Crew :=
  { c with
    region := {
      entry := c.pc, seg := c.seg, openBidx := c.last, opened := true, bur := c.region.bur, skip0 := c.skip, branch0 := c.branch, delay0 := c.delay
      rpt0 := c.rpt, csr0 := some g.bankCsrs, phase := phase }
    windows := [], brkNop := false, uncorrOnce := false }

/-- The entry-table entry of an entry number: its priority and first instruction. -/
def entryAt (s : State) (g : Group) (c : Crew) (e : Nat) : Option (Nat × Nat) :=
  if c.fjoset then
    let own := (s.launch g.launch).kernel.bind fun kn => if kn.fjoset then none else kn.segs[e]?.map Seg.prio
    ((s.trans c.tr).bind fun t => t.entries[e]?).bind fun x => if x.2 = exitMark then none else some (own.getD x.1, x.2)
  else ((s.launch g.launch).kernel.bind fun kn => kn.segs[e]?).map fun x => (x.prio, 0)

/-- Strands of a group end: a barrier that they kept open may release. -/
def endStrands (ls : List (Nat × Nat)) (g : Group) : Group :=
  { g with live := g.live.filter fun x => !ls.any fun l => l.2 * 64 + l.1 = x }

/-- The groups of a cluster that are placed. -/
def clusterCores (s : State) (g : Group) : List Nat :=
  ((s.launch g.launch).cores).filter fun k => (s.sibling g k).isSome

/-- Every live strand of a group, or of the placed groups of its cluster, has arrived at a barrier (14 R301). -/
def barComplete (s : State) (g : Group) (cluster : Bool) : Bool :=
  if !cluster then decide (0 < g.atBarG) && decide (g.atBarG = g.live.length)
  else
    let gs := (clusterCores s g).filterMap s.group
    let n : Nat := (gs.map Group.atBarK).sum
    decide (0 < n) && decide (n = (gs.map fun h => h.live.length).sum)

/-- A barrier that every live strand has reached releases its crews 4 or 16 core cycles on (14 R301). -/
def checkBarriers (k : Nat) (s : State) : State :=
  match s.group k with
  | none => s
  | some g =>
    let t := s.cycle
    let s := if barComplete s g false && g.barGAt.isNone then s.setGroup k { g with barGAt := some (t + 4) } else s
    if barComplete s g true && g.barKAt.isNone then
      foldS (clusterCores s g) (fun j s => s.modGroup j fun h => { h with barKAt := some (t + 16) }) s
    else s

/-- Strands are exactly the live strands of one home slot (R286). -/
def intactStrands (g : Group) (ls : List (Nat × Nat)) : Bool :=
  match ls with
  | [] => false
  | l :: _ => ls.all (fun x => x.2 = l.2) && decide (ls.length = (g.live.filter fun x => x / 64 = l.2).length)

/-- A group whose strands have all ended leaves its core; its cluster ends with its last group (14 R294). -/
def groupEnd (k : Nat) (s : State) : State :=
  match s.group k with
  | none => s
  | some g =>
    if g.live ≠ [] then s
    else
      let s := (unpinAll k s).modCore k fun c => { c with group := none }
      let s :=
        if (clusterCores s g) ≠ [] then s
        else boundRun g.launch (s.modLaunch g.launch fun l => { l with
          placed := l.placed.filter fun x => x.1 ≠ g.cluster
          preempt := l.preempt.filter fun x => x ≠ g.cluster
          ended := l.ended + 1 })
      callPlacement g.launch s

/-- The crew of a handler frontier has left: once the frontier holds no strand, the trapped crew resumes (18 R363), and the next
crew that waits for the frontier may enter it. -/
def nestedDone (k : Nat) (s : State) : State :=
  match s.group k with
  | none => s
  | some g =>
    match g.nested with
    | none => s
    | some n =>
      if n.frontier.ready ≠ [] || n.frontier.records ≠ [] || g.blocked.any (fun b => b.1.handler) ||
         (match g.running with | some c => c.handler | none => false) then s
      else
        let c := afterHandler n
        let s := s.setGroup k { g with nested := none }
        let s := if c.strands = [] then s else pushReady k c false s
        match g.blocked.find? fun b => b.2 = Wait.nested with
        | none => s
        | some (b, _) =>
          s.modGroup k fun g => { g with
            blocked := (g.blocked.filter fun x => x.2 ≠ Wait.nested || x.1.ctx ≠ b.ctx) ++ [(b, .delivery)] }

/-- Places strands at a segment end (14 R290): an intact crew whose strands all name one successor stays whole. -/
def placeStrands (k : Nat) (c : Crew) (succ : List (Nat × Nat × Nat)) (s : State) : State :=
  match s.group k with
  | none => s
  | some g =>
    let l := s.launch g.launch
    let back := (!c.fjoset || l.tr ≠ some c.tr) && !c.handler && l.fjoset && burhusKernel s g
    let end_ := sideEnd s { c with tr := l.tr.getD c.tr }
    let s := match back, end_ with
      | true, some p => s.modGroup k (toNative p c.ctx c.strands)
      | _, _ => s
    let at_ := match back, end_ with | true, some p => p.bidx | _, _ => c.last
    let c := if back then { c with fjoset := true } else c
    let whole := intactStrands g c.strands
    let gone := succ.filter fun x => x.2.2 = exitMark
    let rest := succ.filter fun x => x.2.2 ≠ exitMark
    let s := s.modGroup k fun g => endStrands (gone.map fun x => (x.1, x.2.1)) { g with running := none, lastCrew := some c.ctx, issueAt := s.cycle + 3 }
    let s :=
      match rest with
      | [] => s
      | x :: _ =>
        if whole && rest.all (fun y => y.2.2 = x.2.2) then
          match entryAt s g c x.2.2 with
          | some (p, pc) =>
            pushReady k { c with
              strands := rest.map fun y => (y.1, y.2.1), seg := x.2.2, prio := p, pc := pc, skip := []
              region := { entry := pc, seg := x.2.2, openBidx := at_, opened := true, bur := (x.2.2, 0), csr0 := some g.bankCsrs } } true s
          | none => s
        else
          s.modGroup k fun g =>
            let go := fun (f : Frontier) => rest.foldl (fun (f : Frontier) y =>
              f.append y.2.2 (match entryAt s g c y.2.2 with | some x => x.1 | none => 0) y.1 y.2.1 s.cycle at_) f
            if c.handler then { g with nested := g.nested.map fun n => { n with frontier := go n.frontier } }
            else { g with frontier := go g.frontier }
    groupEnd k (checkBarriers k (if c.handler then nestedDone k s else s))

/-- A crew leaves the core at a blocking wait, a YIELD or a switch-out: the crew that follows issues 3 core cycles after the last bundle of the one
that leaves (14 R289). -/
def leaveRunning (k ctx : Nat) (s : State) : State :=
  s.modGroup k fun g => { g with running := none, lastCrew := some ctx, issueAt := max g.issueAt (g.issued + 3) }

/-- Where a crew goes on after a commit point: it runs on, becomes a resumption because a stop or a forced switch waits for
it, or blocks. -/
def afterCommit (k : Nat) (c : Crew) (w : Option Wait) (s : State) : State :=
  let out := leaveRunning k c.ctx
  match w with
  | some w => pushBlocked k c w (out s)
  | none =>
    match s.group k with
    | some g => if g.stopReq || g.forced then pushReady k c false (out s) else s.setGroup k { g with running := some c }
    | none => s

/-- The successors of the region's segment end, if it has one. -/
def sendOf (c : Crew) : Option (List (Nat × Nat × Nat)) :=
  c.region.ops.findSome? fun o =>
    match o with
    | .send l => some l
    | .halt => some (c.strands.map fun l => (l.1, l.2, exitMark))
    | _ => none

/-- A fault that the region's closing operations raise at this commit point itself: a successor that the entry table does not
have (14 R294), or a CMT.SWAP of banks that are not scratchpad (18 R366). -/
def closingFault (s : State) (g : Group) (c : Crew) : Option FaultRec :=
  let here : FaultRec := { kind := .badSuccessor, bidx := c.last, boff := c.pc, seg := c.seg }
  let bad := ((sendOf c).getD []).filter fun x => x.2.2 ≠ exitMark && (entryAt s g c x.2.2).isNone
  if bad ≠ [] then some { here with lanes := bad.map fun x => (x.1, 0) }
  else
    c.region.ops.findSome? fun o => match o with
      | .swap a b => if g.modeOf a = some 1 ∧ g.modeOf b = some 1 then none
          else some { here with kind := .bankBad, lanes := c.strands.map fun l => (l.1, 0) }
      | _ => none

/-- The commands of a bank's fill list that have not completed (R366). -/
def fillPending (s : State) (bank : Nat) (g : Group) : Bool :=
  match g.fills.find? bank with
  | none => false
  | some (_, cs) => cs.any fun c => ((s.eng (engKey c.asid (if c.op = 0x73 then 1 else 0) (dieOf c.core))).queue.any fun x => x.num = c.num)

/-- Everything that the crew has issued has completed and landed (R57 step 1). -/
def commitReady (s : State) (g : Group) (c : Crew) : Bool :=
  c.mem.isEmpty && c.accepting.isEmpty && c.inflight.all (fun l => l.at_ ≤ s.cycle) &&
  !(match g.compute with | some m => decide (m.ctx = c.ctx) | none => false) &&
  !(match g.retire with | some m => decide (m.ctx = c.ctx) | none => false) && !(s.ctx (s.asidOf g)).logHeld

/-- Resumes an alias-conflicted region in its conservative twin (11 R238). -/
def toTwin (k : Nat) (c : Crew) (s : State) : State :=
  let (s, c) := undoCrew k c s
  let s := s.modTrans c.tr fun t => { t with conf := t.conf.put c.region.entry ((t.conf.find? c.region.entry).getD 0 + 1) }
  let e := ((s.trans c.tr).bind fun t => (t.twins.find? fun x => x.1 = c.region.entry).map Prod.snd).getD c.region.entry
  afterCommit k { c with pc := e } none s

/-- The banks of a region's CMT.SWAP. -/
def swapOf (r : Region) : Option (Nat × Nat) := r.ops.findSome? fun o => match o with | .swap a b => some (a, b) | _ => none

/-- Step 3 of R57: what the region buffered is released. A CMT.SWAP freezes the fill list of its first bank and opens one for its second before the
region's commands are released (18 R366). -/
def releaseStep (k : Nat) (g : Group) (r : Region) (s : State) : State :=
  if r.released then s
  else
    let s := match swapOf r with
      | some (a, b) => s.modGroup k fun g => { g with fills := (g.fills.del a).put b (false, []) }
      | none => s
    (foldS r.buf (releaseEntry k (s.asidOf g)) s).modRegion k fun r => { r with buf := [], released := true, fills0 := g.fills }

/-- Closes a region whose operations have been performed (R57 steps 4 and 5), and takes its crew to where it goes on. -/
def closeCommit (k asid : Nat) (r : Region) (fills0 : SMap (Bool × List EngCmd)) (s : State) : State :=
  match s.crew k with
  | none => s
  | some (g', c) =>
    let s := publish k g' r.pushed (s.modGroup k fun g => retirePops r.popped g)
    let s := s.modGroup k (closeRegion c)
    let phase := match swapOf r with
      | some (a, _) => some (a, match fills0.find? a with | some (ovf, cs) => if ovf then none else some cs | none => some [])
      | none => none
    let next := c.nextRegion ((s.group k).getD g') phase
    let (s, c) : State × Crew := if c.fjoset && burhusKernel s g' then
        match sideAt s c c.last with
        | some p => (s.modGroup k (fromNative p c.ctx c.strands), { next with region := { next.region with bur := (p.seg, p.boff) } })
        | none => (s, next)
      else (s, next)
    let bar := r.ops.findSome? fun o => match o with | .bar x => some x | _ => none
    let slow := r.ops.any fun o => match o with | .fence sc _ => decide (2 ≤ sc.toNat) | _ => false
    let c := if slow then { c with notBefore := max c.notBefore (s.cycle + 32) } else c
    match sendOf { c with region := r } with
    | some succ => placeStrands k c succ s
    | none =>
      if r.ops.contains .rft then
        let s := s.modGroup k fun g => { g with
          running := none, lastCrew := some c.ctx, issueAt := s.cycle + 3
          nested := g.nested.map fun n => { n with returned := n.returned ++ c.strands } }
        nestedDone k s
      else match bar with
        | some x =>
          let s := s.modGroup k fun g =>
            if x then { g with atBarK := g.atBarK + c.strands.length } else { g with atBarG := g.atBarG + c.strands.length }
          checkBarriers k (afterCommit k c (some (.barrier x)) s)
        | none =>
          if r.ops.contains .seal ∧ (s.ctx asid).recv then afterCommit k c (some (.seal ((s.ctx asid).rpn + (s.ctx asid).sealQueue.length))) s
          else afterCommit k c none s

/-- Releases what the region buffered, performs its operations and closes it (R57 steps 3 to 5), once nothing stops it. An operation whose drain is
on its way, or held by a full log (13 R270), waits for it, and the crew with it. -/
def commitRegion (k : Nat) (s : State) : State :=
  match s.crew k with
  | none => s
  | some (g, c) =>
    let asid := s.asidOf g
    let r := c.region
    let kh := match (s.launch g.launch).kernel with | some kn => fld 63 0 kn.hash.toNat | none => 0
    let fills0 := if r.released then r.fills0 else g.fills
    match performOps k c.ctx asid kh (r.ops.drop r.opsDone) r.asked (releaseStep k g r s) with
    | (s, _, _, f :: fs) =>
      let s := s.modGroup k fun h => { h with fills := if (swapOf r).isSome then fills0 else h.fills }
      let rec' : FaultRec := { kind := f.kind, lanes := (f :: fs).map fun x => (x.lane, x.addr), acc := .write, bidx := c.last, boff := c.pc, seg := c.seg }
      if f.kind = .linkFail then killLaunch .linkFail 0 f.addr g.launch s else deliver k rec' s
    | (s, op :: left, asked, []) => s.modRegion k fun x => { x with opsDone := r.ops.length - (op :: left).length, asked := asked }
    | (s, [], _, []) => closeCommit k asid r fills0 s

/-- The GATE and HORIZON records that the release of a region appends (13 R274, R276). -/
def regionRecs (r : Region) : Nat :=
  let far := fun (l : LaneAcc) => !isHbm l.pa || decide (l.widx ≠ 0)
  let kinds := fun (ls : List LaneAcc) => (ls.any fun l => isHost l.pa).toNat + (ls.any fun l => isPeer l.pa).toNat + (ls.any fun l => decide (l.widx ≠ 0)).toNat
  r.buf.foldl (fun n e => match e with | .store _ ls => n + kinds ls | _ => n) 0 +
  r.ops.foldl (fun n o => match o with
    | .atom _ _ _ _ _ _ ls => n + (ls.filter fun l => far l.1).length
    | .rel _ os => n + (os.filter fun o => far o.1).length
    | .add _ o _ => n + (far o).toNat
    | .gate .. => n + 1
    | _ => n) 0

/-- The commit point of a core's running crew (R57): it waits, or delivers, or releases. -/
def commitAt (k : Nat) (s : State) : State :=
  let s := landDue k s.cycle s
  match s.crew k with
  | none => s
  | some (g, c) =>
    if !commitReady s g c then s
    else if g.linkFail then killLaunch .linkFail 0 g.linkVa g.launch (s.modGroup k fun g => { g with linkFail := false })
    else match c.region.latched with
      | some f => deliver k f s
      | none =>
        if c.region.conflicted then toTwin k c s
        else match closingFault s g c with
          | some f => deliver k f s
          | none =>
            match c.region.ops.findSome? fun o => match o with | .swap a _ => if fillPending s a g then some a else none | _ => none with
            | some a => pushBlocked k c (.fill a) (leaveRunning k c.ctx s)
            | none =>
              if recsHeld (s.asidOf g) (regionRecs c.region) s then s.modCtx (s.asidOf g) fun x => { x with logHeld := true }
              else commitRegion k s

/-- A full log in mode TRAP (13 R270): the context's running kernels are killed with LOG_FULL, and what it holds is discarded. -/
def serveLogTraps (s : State) : State :=
  foldS ((s.pkg.ctxs.filter fun c => c.2.logTrap).map Prod.fst) (fun a s =>
    let s := foldS ((s.pkg.launches.filter fun l => l.2.asid = a ∧ l.2.started ∧ !l.2.complete).map Prod.fst) (killLaunch .logFull 0 0) s
    let hor := fun (r : HeldRec) => match r with | .horizon .. => true | _ => false
    (s.modCtx a fun c => { c with logTrap := false, logHeld := false, heldRecs := c.heldRecs.filter hor }).modPkg fun p =>
      { p with mergeQ := p.mergeQ.filterMap fun q =>
          match q.2.filter fun r => r.w.asid ≠ some a with | [] => none | l => some (q.1, l) }) s

/-- COMMIT_POINT (R57): performed where a commit point stands, or where a fault waits to be delivered. -/
def execCommitPoint (core : Nat) (s : State) : Host.Outcome State Fault Refusal :=
  .next (match s.crew core with
    | none => s
    | some (_, c) => if c.region.due || (!c.fjoset && c.region.latched.isSome) then serveLogTraps (commitAt core s) else s)

/-- Kernels one of whose released stores has failed where none of their commit points is to come are killed (11 R230). -/
def serveLinkFails (s : State) : State :=
  foldS s.pkg.linkBad (fun x s => killLaunch .linkFail 0 x.2 x.1 s) (s.modPkg fun p => { p with linkBad := [] })

/-- FLAG_DELIVERY (R307), to the group of the named launch and cluster. -/
def execFlagDelivery (core flag k : Nat) (launch : Nat × Nat) (remote : Bool) (s : State) : Host.Outcome State Fault Refusal :=
  .next (deliverFlag core flag k launch.1 launch.2 remote s)

/-- LINK_ACKNOWLEDGEMENT (11 R230): the oldest store on the core's link has performed, or has failed, which its context's next
commit point on the core reports. -/
def execLinkAcknowledgement (core : Nat) (ok : Bool) (s : State) : Host.Outcome State Fault Refusal :=
  .next (if ok then linkDone core s
    else match (s.core core).link with
      | [] => s
      | q :: r => failLink core q (s.modCore core fun c => { c with link := r }))

end Sys2Proof.Machine
end

