-- ==== Sys2Proof/Machine/Sched.lean ====
section
/-!
DEFINITION. Selection of crews (spec/14_control_flow.md R287 to R291, R301, R306; spec/18 R362), and the events of a core
beside its issue: waits satisfied, barriers released, FIFO entries published, bank modes changed, lines drained (07 R143,
R149, R151).
-/
namespace Sys2Proof.Machine

/-! ## Issue contexts (R287) -/

/-- Contexts that crews partway through a segment hold. -/
def Group.heldCtxs (g : Group) : List Nat :=
  let rs := fun (f : Frontier) => (f.ready.filter fun r => !r.whole).map fun r => r.crew.ctx
  (g.running.toList.map Crew.ctx) ++ (g.blocked.map fun b => b.1.ctx) ++ rs g.frontier ++
  (match g.nested with | some n => n.held.ctx :: rs n.frontier | none => [])

/-- The crew slots of a group (R287, 15 R309): one for every 64 strands. -/
def crewSlots (s : State) (g : Group) : Nat := ((s.launch g.launch).spg + 63) / 64

/-- The context that a crew takes: the one it would have, or the lowest free one. -/
def takeCtx (s : State) (g : Group) (want : Nat) : Option Nat :=
  let held := g.heldCtxs
  if !held.contains want then some want else (List.range (crewSlots s g)).find? fun i => !held.contains i

/-- A newly taken context: its loop registers are inactive, and the shadow agrees with its registers. -/
def freshCtx (k : Nat) (g : Group) : Group :=
  let x := g.ctx k
  let lp0 := { x.lp0 with active := false }
  let lp1 := { x.lp1 with active := false }
  g.setCtx k { x with lp0 := lp0, lp1 := lp1, shadow := { q := x.q, b := x.b, lp0 := lp0, lp1 := lp1 } }

/-! ## Candidates (R289, R291) -/

/-- A ready entry of a frontier: one that holds a crew, by its place in the list, or a record. -/
inductive Cand where
  | entry (i : Nat) (r : Ready)
  | record (r : Rec)
  deriving DecidableEq, Repr

def Cand.prio : Cand → Nat | .entry _ r => r.crew.prio | .record r => r.prio
def Cand.seg : Cand → Nat | .entry _ r => r.crew.seg | .record r => r.seg
def Cand.passes : Cand → Nat | .entry _ r => r.passes | .record r => r.passes
def Cand.since : Cand → Nat | .entry _ r => r.since | .record r => r.since
/-- Among entries of one number: those with a crew first, then the order in which they became ready, then the context, which for a whole entry is
its home slot. -/
def Cand.rank : Cand → Nat × Nat × Nat
  | .entry _ r => (0, r.since, if r.whole then (r.crew.strands.headD (0, 0)).2 else r.crew.ctx)
  | .record r => (1, r.since, 0)

/-- The selection order: greater priority, lower entry number, then the rank. -/
def Cand.before (a b : Cand) (byPrio : Bool) : Bool :=
  if byPrio && a.prio ≠ b.prio then decide (b.prio < a.prio)
  else if a.seg ≠ b.seg then decide (a.seg < b.seg)
  else
    let x := a.rank
    let y := b.rank
    if x.1 ≠ y.1 then decide (x.1 < y.1) else if x.2.1 ≠ y.2.1 then decide (x.2.1 < y.2.1) else decide (x.2.2 < y.2.2)

/-- The first entry that may be selected: not excluded by a YIELD, its overdue results landed, and with an issue context
where it needs one. -/
def Frontier.candidates (f : Frontier) (s : State) (g : Group) (handler : Bool) : List Cand :=
  let okCrew := fun (r : Ready) =>
    !r.crew.yielded && !r.crew.late s.cycle &&
    (!r.whole || handler && g.nested.any (fun n => n.held.ctx = r.crew.ctx) ||
      (takeCtx s g (r.crew.strands.headD (0, 0)).2).isSome)
  let es := (List.zip (List.range f.ready.length) f.ready).filterMap fun x => if okCrew x.2 then some (Cand.entry x.1 x.2) else none
  let free := (List.range (crewSlots s g)).any fun i => !g.heldCtxs.contains i
  es ++ (if free then f.records.map Cand.record else [])

def pickCand (byPrio : Bool) (cs : List Cand) : Option Cand :=
  cs.foldl (fun (b : Option Cand) c => match b with | none => some c | some x => if c.before x byPrio then some c else b) none

/-- The entries that the nested and the main frontier of a group have to select from. -/
def nestedCands (s : State) (g : Group) : List Cand := match g.nested with | some n => n.frontier.candidates s g true | none => []
def mainCands (s : State) (g : Group) : List Cand := g.frontier.candidates s g false

/-! ## Leaving the core -/

/-- The running crew leaves the core: its wait blocks it, or a YIELD passes the turn to another entry that can be selected (R302); a stop rolls a
blocked crew back (18 R372). -/
def switchOut (k : Nat) (s : State) : State :=
  match s.crew k with
  | none => s
  | some (g, c) =>
    match c.hold with
    | some w =>
      if g.stopReq && !atCommit w then
        let (s, c) := undoCrew k c s
        pushReady k c false (leaveRunning k c.ctx s)
      else pushBlocked k { c with hold := none } w (leaveRunning k c.ctx s)
    | none =>
      if c.yielded then
        if (nestedCands s g).isEmpty && (mainCands s g).isEmpty then s.modCrew k fun c => { c with yielded := false }
        else pushReady k c false (leaveRunning k c.ctx s)
      else s

/-! ## Selection -/

/-- Every other ready entry's pass count rises (R291). -/
def Frontier.turned (f : Frontier) : Frontier :=
  { ready := f.ready.map fun r => { r with passes := r.passes + 1 }
    records := f.records.map fun r => { r with passes := r.passes + 1 } }

/-- The exclusion of a YIELD ends with the next selection of the group (R302). -/
def Frontier.unyield (f : Frontier) : Frontier :=
  { f with ready := f.ready.map fun r => { r with crew := { r.crew with yielded := false } } }

/-- The crew that a record's turn forms, and the record that is left (R289). -/
def formCrew (s : State) (g : Group) (r : Rec) (handler : Bool) : Option (Crew × Rec) :=
  let first := r.lists.filterMap fun l => match l.2 with | x :: _ => some (l.1, x) | [] => none
  let taken := fun (x : Nat × Nat) => x.1 * 16 + x.2
  let left : Rec := { r with
    lists := r.lists.filterMap fun l => match l.2 with | _ :: y :: z => some (l.1, y :: z) | _ => none
    opens := r.opens.filter (fun o => !first.any fun x => taken x = o.1), passes := 0 }
  let opens := (first.map fun x => r.opens.get 0 (taken x)).eraseDups
  let leader := first.foldl (fun m l => min m l.2) 15
  let l := s.launch g.launch
  match takeCtx s g leader with
  | none => none
  | some ctx =>
    let base : Crew := {
      strands := first, ctx := ctx, seg := r.seg, prio := r.prio, tr := l.tr.getD 0, handler := handler
      fjoset := l.fjoset && !(handler && burhusKernel s g) }
    match entryAt s g base r.seg with
    | none => none
    | some (_, pc) => some ({ base with
        pc := pc, intact := intactStrands g first, formed := true
        region := { entry := pc, seg := r.seg, openBidx := opens.headD 0, opened := true, opens := opens.drop 1, bur := (r.seg, 0) } }, left)

/-- Counts in a profile counter, which saturates; at the grooming threshold 2^gth the translation is hot (17 R345, R346). -/
def bumpProf (gth tr i : Nat) (s : State) : State :=
  match s.trans tr with
  | none => s
  | some t =>
    let n := t.prof.get 0 i
    let s := s.modTrans tr fun t => { t with prof := t.prof.set 0 i (if n = BitVec.allOnes 32 then n else n + 1) }
    if 2 ^ gth ≤ n.toNat + 1 && !t.grooming && !(s.agenda.any fun e => e.2 = .groomStart tr) then s.post s.now (.groomStart tr) else s

/-- Counts the start of a segment in Burhus code, as its quick translation's entry bundle does. -/
def countStart (k : Nat) (c : Crew) (s : State) : State :=
  match s.group k, s.trans c.tr with
  | some g, some t =>
    if c.fjoset || !t.quick then s else bumpProf (s.part (s.partOfLaunch g.launch)).gth c.tr (Config.quickBundle t.key.hash c.seg) s
  | _, _ => s

/-- Starts a crew on the core; a resumption of the crew that issued last goes on with no switch, in the cycle after the one in which it became
ready (R289). -/
def startCrew (k : Nat) (c : Crew) (resumed : Option Nat) (s : State) : State :=
  s.modGroup k fun g =>
    let (g, c) := landCrew s.cycle g c
    let c := if resumed.isSome then c else { c with region := { c.region with csr0 := some (c.region.csr0.getD g.bankCsrs) } }
    let at_ := match resumed with
      | some t => if g.lastCrew = some c.ctx then t + 1 else g.issueAt
      | none => g.issueAt
    { g with running := some c, forced := false, forcedRun := false, issueAt := max s.cycle at_ }

/-- Selects an entry of the main or of the nested frontier. -/
def selectCand (k : Nat) (handler : Bool) (x : Cand) (s : State) : State :=
  match s.group k with
  | none => s
  | some g =>
    let f := if handler then (match g.nested with | some n => n.frontier | none => {}) else g.frontier
    let put := fun (f : Frontier) (s : State) => s.modGroup k fun g =>
      let f' := f.turned.unyield
      if handler then { g with frontier := g.frontier.unyield, nested := g.nested.map fun n => { n with frontier := f' } }
      else { g with frontier := f', nested := g.nested.map fun n => { n with frontier := n.frontier.unyield } }
    match x with
    | .entry i r =>
      let f' := { f with ready := f.ready.eraseIdx i }
      if r.whole then
        let home := (r.crew.strands.headD (0, 0)).2
        let own := handler && g.nested.any (fun n => n.held.ctx = r.crew.ctx)
        match if own then some r.crew.ctx else takeCtx s g home with
        | none => s
        | some ctx =>
          let tr := if handler then r.crew.tr else (s.launch g.launch).tr.getD r.crew.tr
          let pc := match entryAt s g { r.crew with tr := tr } r.crew.seg with | some e => e.2 | none => r.crew.pc
          let c := { r.crew with ctx := ctx, tr := tr, pc := pc, region := { r.crew.region with entry := pc }, intact := intactStrands g r.crew.strands, formed := false, wrote := [] }
          let s := put f' s
          countStart k c (startCrew k c none (if own then s else s.modGroup k (freshCtx ctx)))
      else startCrew k r.crew (some r.since) (put f' s)
    | .record r =>
      match formCrew s g r handler with
      | none => s
      | some (c, left) =>
        let rs := f.records.filter fun y => y.seg ≠ r.seg
        let back := fun (f : Frontier) => if left.lists = [] then f else { f with records := f.records ++ [left] }
        let s := (put { f with records := rs } s).modGroup k fun g =>
          if handler then { g with nested := g.nested.map fun n => { n with frontier := back n.frontier } } else { g with frontier := back g.frontier }
        countStart k c (startCrew k c none (s.modGroup k (freshCtx c.ctx)))

/-- Selects the next crew of a core: nested entries before the main frontier (18 R362); after a forced switch-out, among the
entries passed over 1,024 times (R291). -/
def select (k : Nat) (s : State) : State :=
  match s.group k with
  | none => s
  | some g =>
    if g.running.isSome || g.stopReq then s
    else
      match pickTurn g (nestedCands s g) with
      | some (x, late) => startTurn true x late s
      | none =>
        match pickTurn g (mainCands s g) with
        | some (x, late) => startTurn false x late s
        | none => s
where
  /-- the entry whose turn it is, and whether it is one that has been passed over -/
  pickTurn (g : Group) (cs : List Cand) : Option (Cand × Bool) :=
    match if g.forced then pickCand false (cs.filter fun c => 1024 ≤ c.passes) else none with
    | some x => some (x, true)
    | none => (pickCand true cs).map fun x => (x, false)
  /-- its selection -/
  startTurn (handler : Bool) (x : Cand) (late : Bool) (s : State) : State :=
    let s := selectCand k handler x s
    if late then s.modGroup k fun g => { g with forcedRun := g.running.isSome } else s

/-- CREW_SELECT (R289): the running crew leaves if it blocks or yields, and the next one is selected. -/
def execCrewSelect (core : Nat) (s : State) : Host.Outcome State Fault Refusal := .next (select core (switchOut core s))

/-- FORCED_SWITCH_OUT (R291): with an entry of its frontier passed over 1,024 times, the running crew leaves at its next commit point. A crew that
was itself selected so keeps the core. -/
def execForcedSwitchOut (core : Nat) (s : State) : Host.Outcome State Fault Refusal :=
  .next (match s.crew core with
    | none => s
    | some (g, c) =>
      let f := if c.handler then (match g.nested with | some n => n.frontier | none => {}) else g.frontier
      if g.forcedRun || !(f.ready.any (fun r => 1024 ≤ r.passes) || f.records.any (fun r => 1024 ≤ r.passes)) then s
      else s.modGroup core fun g => { g with forced := true })

/-! ## Waits (R306; 06 R132; 07 R151; 12 R249; 18 R366) -/

/-- Counts of a flag that satisfied waiters are about to take, whatever they wait for now. -/
def servedCount (g : Group) (f : Nat) : Nat :=
  g.crews.foldl (fun n c => match c.served with | some x => if x.1 = f then n + x.2 else n | none => n) 0

/-- A blocked crew's wait is satisfied; `older` are the crews that blocked before it. -/
def waitOver (s : State) (k : Nat) (g : Group) (older : List (Crew × Wait)) (c : Crew) : Wait → Bool
  | .flag f n => decide (n + servedCount g f ≤ (g.flag f).count.toNat) && !older.any (fun b => match b.2 with | .flag x _ => x = f | _ => false)
  | .timeline cls n => decide (n ≤ (s.eng (engKey (s.asidOf g) cls (dieOf k))).counter)
  | .fifoSpace b => match pushState s g c b with | .full => false | _ => true
  | .fifoEntry b => (decide (g.modeOf b ≠ some 2) || (((g.queue b).entries[(g.queue b).taken]?).isSome))
  | .acquire t => decide (t ≤ s.cycle) && !c.unlanded s.cycle && !riding .drain s k
  | .fill b => !fillPending s b g
  | .logStall => !(s.ctx (s.asidOf g)).logHeld
  | _ => false

/-- The first blocked crew whose wait is satisfied, with those before and behind it. -/
def firstOver (s : State) (k : Nat) (g : Group) : List (Crew × Wait) → List (Crew × Wait) → Option (List (Crew × Wait) × (Crew × Wait) × List (Crew × Wait))
  | _, [] => none
  | pre, b :: r => if waitOver s k g pre b.1 b.2 then some (pre, b, r) else firstOver s k g (pre ++ [b]) r

/-- WAIT_SATISFIED (R289): the oldest crew whose wait is over becomes a resumption entry. -/
def execWaitSatisfied (core : Nat) (s : State) : Host.Outcome State Fault Refusal :=
  .next (match s.group core with
    | none => s
    | some g =>
      match firstOver s core g [] g.blocked with
      | none => s
      | some (pre, (c, w), post) =>
        let c := match w with | .flag f n => { c with served := some (f, n) } | _ => c
        pushReady core c false (s.setGroup core { g with blocked := pre ++ post }))

/-! ## Barriers (R301) -/

/-- Releases the crews of one group that wait at a barrier; a cluster's barrier ends with an unbound acquire at .K. -/
def releaseBar (cluster : Bool) (k : Nat) (s : State) : State :=
  let s := if cluster then invalidateLines k (fun _ => true) s else s
  match s.group k with
  | none => s
  | some g =>
    let is := fun (w : Wait) => w = Wait.barrier cluster
    let up := g.blocked.filter fun b => is b.2
    let s := s.setGroup k { g with
      blocked := g.blocked.filter fun b => !is b.2
      atBarG := if cluster then g.atBarG else 0, barGAt := if cluster then g.barGAt else none
      atBarK := if cluster then 0 else g.atBarK, barKAt := if cluster then none else g.barKAt }
    foldS up (fun b s => pushReady k (if cluster then { b.1 with notBefore := max b.1.notBefore (s.cycle + 32) } else b.1) false s) s

/-- BARRIER_RELEASE (R301): every live strand of the scope instance has arrived, and the cycles that the release takes have passed. -/
def execBarrierRelease (core : Nat) (cluster : Bool) (s : State) : Host.Outcome State Fault Refusal :=
  .next (match s.group core with
    | none => s
    | some g =>
      let due := (if cluster then g.barKAt else g.barGAt).any fun t => decide (t ≤ s.cycle)
      if !due || !barComplete s g cluster then s
      else if cluster then foldS (clusterCores s g) (releaseBar true) s
      else releaseBar false core s)

/-! ## FIFO publication, bank modes, drains -/

/-- FIFO_PUBLICATION (07 R151, R152): entries on their way become visible; at a bank that is no longer a FIFO they are
discarded and the kernel is killed. -/
def execFifoPublication (core bank : Nat) (s : State) : Host.Outcome State Fault Refusal :=
  .next (match s.group core with
    | none => s
    | some g =>
      let q := g.queue bank
      let due := q.inbound.filter fun e => e.1 ≤ s.cycle
      if due = [] then s
      else
        let rest := q.inbound.filter fun e => s.cycle < e.1
        if g.modeOf bank = some 2 then
          s.setGroup core (g.setQueue bank { q with entries := q.entries ++ due.map Prod.snd, inbound := rest })
        else killLaunch .fifoBad 0 0 g.launch (s.setGroup core (g.setQueue bank { q with inbound := rest })))

/-- BANK_MODE_CHANGE_DONE (07 R143): banks whose change is complete serve in their new mode. -/
def execBankModeChangeDone (core : Nat) (s : State) : Host.Outcome State Fault Refusal :=
  .next (s.modGroup core fun g => { g with changing := g.changing.filter fun b => s.cycle < b.2 })

/-- DIRTY_LINE_DRAIN (07 R149): the oldest entry of the dirty-line FIFO goes to its home bank. -/
def execDirtyLineDrain (core : Nat) (s : State) : Host.Outcome State Fault Refusal := .next (drainHead core s)

/-- HOME_BANK_MERGE (13 R268): the oldest request of a bank merges. -/
def execHomeBankMerge (bank : Nat) (s : State) : Host.Outcome State Fault Refusal := .next (serveLogTraps (mergeOldest bank s))

end Sys2Proof.Machine
end

