-- ==== Sys2Proof/Machine/OpStep.lean ====
section
/-!
DEFINITION. What an operation of a bundle or of Burhus code does when its core issues it: the meanings of the operations,
as the arms of Machine/Dispatch.lean call them.
-/
namespace Sys2Proof.Machine

/-- The next state of an outcome; a meaning that stopped would leave the state as it was. -/
def nextOf (o : Host.Outcome State Fault Refusal) (s : State) : State :=
  match o with
  | .next t => t
  | _ => s

/-- The outcome of an operation; the events and commands, which no bundle holds, do nothing here. -/
def opOutcome (i : Instr) (s : State) : Host.Outcome State Fault Refusal :=
  match i with
  | .iadd f => execIadd f s
  | .isub f => execIsub f s
  | .imul f => execImul f s
  | .imulh f => execImulh f s
  | .imad f => execImad f s
  | .imin f => execImin f s
  | .imax f => execImax f s
  | .iabs f => execIabs f s
  | .ineg f => execIneg f s
  | .and_ f => execAnd f s
  | .or_ f => execOr f s
  | .xor_ f => execXor f s
  | .not_ f => execNot f s
  | .andn f => execAndn f s
  | .shl f => execShl f s
  | .shr f => execShr f s
  | .sar f => execSar f s
  | .rot f => execRot f s
  | .popc f => execPopc f s
  | .clz f => execClz f s
  | .brev f => execBrev f s
  | .bfx f => execBfx f s
  | .bfi f => execBfi f s
  | .sel f => execSel f s
  | .icmp f => execIcmp f s
  | .mov f => execMov f s
  | .movi f => execMovi f s
  | .lea f => execLea f s
  | .idiv f => execIdiv f s
  | .irem f => execIrem f s
  | .fadd f => execFadd f s
  | .fsub f => execFsub f s
  | .fmul f => execFmul f s
  | .ffma f => execFfma f s
  | .scale f => execScale f s
  | .fmin f => execFmin f s
  | .fmax f => execFmax f s
  | .fcmp f => execFcmp f s
  | .frcp f => execFrcp f s
  | .frsq f => execFrsq f s
  | .fexp2 f => execFexp2 f s
  | .flog2 f => execFlog2 f s
  | .ftanh f => execFtanh f s
  | .fdot4 f => execFdot4 f s
  | .hadd2 f => execHadd2 f s
  | .hmul2 f => execHmul2 f s
  | .hfma2 f => execHfma2 f s
  | .hdot2 f => execHdot2 f s
  | .cvt f => execCvt f s
  | .pack f => execPack f s
  | .unpack f => execUnpack f s
  | .voteAny f => execVoteAny f s
  | .voteAll f => execVoteAll f s
  | .voteBallot f => execVoteBallot f s
  | .voteEq f => execVoteEq f s
  | .shfl f => execShfl f s
  | .cred f => execCred f s
  | .ld f => execLd f s
  | .st f => execSt f s
  | .lds f => execLds f s
  | .sts f => execSts f s
  | .ldl f => execLdl f s
  | .stl f => execStl f s
  | .ldc f => execLdc f s
  | .push f => execPush f s
  | .pop f => execPop f s
  | .atom f => execAtom f s
  | .cas f => execCas f s
  | .pref f => execPref f s
  | .acq f => execAcq f s
  | .rel f => execRel f s
  | .fence f => execFence f s
  | .bind f => execBind f s
  | .unbind f => execUnbind f s
  | .seal f => execSeal f s
  | .gate f => execGate f s
  | .cpy f => execCpy f s
  | .cpy2 f => execCpy2 f s
  | .gath f => execGath f s
  | .coll f => execColl f s
  | .tlw f => execTlw f s
  | .tlr f => execTlr f s
  | .mmaT f => execMmaT f s
  | .mretT f => execMretT f s
  | .mzeroT f => execMzeroT f s
  | .next f => execNext f s
  | .nextC f => execNextC f s
  | .nextIx f => execNextIx f s
  | .exit f => execExit f s
  | .rft f => execRft f s
  | .barG f => execBarG f s
  | .barK f => execBarK f s
  | .yield_ f => execYield f s
  | .trap f => execTrap f s
  | .brk f => execBrk f s
  | .csrr f => execCsrr f s
  | .csrwBkm f => execCsrwBkm f s
  | .csrwFcb f => execCsrwFcb f s
  | .csrwFpf f => execCsrwFpf f s
  | .csrwAdr f => execCsrwAdr f s
  | .spl f => execSpl f s
  | .fil f => execFil f s
  | .mx f => execMx f s
  | .mxs f => execMxs f s
  | .mxr f => execMxr f s
  | .mxz f => execMxz f s
  | .xv vd ss => execXv vd ss s
  | .xs sx sd vs lane => execXs sx sd vs lane s
  | .xsP sd pk => execXsP sd pk s
  | .bc ss => execBc ss s
  | .pbr f => execPbr f s
  | .brt f => execBrt f s
  | .send f => execSend f s
  | .halt f => execHalt f s
  | .lpset f => execLpset f s
  | .lpclr f => execLpclr f s
  | .rpt f => execRpt f s
  | .cmt f => execCmt f s
  | .cmtSwap f => execCmtSwap f s
  | .barGNative f => execBarGNative f s
  | .barKNative f => execBarKNative f s
  | .yieldNative f => execYieldNative f s
  | .rftNative f => execRftNative f s
  | .wait flag k => execWait flag k s
  | .postSelf flag k => execPostSelf flag k s
  | .postCore flag core k => execPostCore flag core k s
  | _ => .next s

/-- Runs an operation in the focus core's crew. -/
def opStep (i : Instr) (s : State) : State := nextOf (opOutcome i s) s

end Sys2Proof.Machine
end

