-- ==== Sys2Proof/Machine/Issue.lean ====
section
/-!
DEFINITION. Issue (spec/03_fjoset_bundles.md R43 to R59, R63, R64, R66, R67; spec/14_control_flow.md R296 to R300): one bundle
of a native crew, or one instruction of a Burhus crew; the hazard detector of debug mode (R53); results that arrive.
-/
namespace Sys2Proof.Machine

/-! ## Registers that an operation names -/

/-- Keys of registers for the checks at issue. -/
def rk (c : RegCls) (r : Nat) : Nat :=
  (match c with | .s => 0 | .v => 1 | .p => 2 | .q => 3 | .b => 4 | .a => 5 | .x => 6 | .c => 7) * 64 + r

/-- The guard register of an S or B slot, and of a V or vector L slot. -/
def gqKey (ge : Bool) (q : BitVec 2) : List Nat := if ge then [rk .q q.toNat] else []
def gpKey (ge : Bool) (p : BitVec 3) : List Nat := if ge then [rk .p p.toNat] else []

/-- Registers that an S slot reads and writes. -/
def ioS (op : Nat) (f : SSlot) : List Nat × List Nat :=
  (gqKey f.ge f.gq ++ (if op = 0x1A ∨ op = 0xE0 then [] else [rk .s f.sa.toNat]) ++
     (if takesB op && !f.im then [rk .s f.sb.toNat] else []) ++
     (if takesC op then [if op = 0x17 then rk .q f.sc.toNat else rk .s f.sc.toNat] else []),
   if op = 0xE1 then (if csrNative f.imx.toNat then [rk .a (f.imx.toNat - 0x60)] else [])
   else [if op = 0x18 ∨ op = 0x26 then rk .q f.sd.toNat else rk .s f.sd.toNat])

/-- Registers that a V slot reads and writes. -/
def ioV (op : Nat) (f : VSlot) : List Nat × List Nat :=
  (gpKey f.ge f.gp ++ (if op = 0x1A then [] else [if op = 0x40 then rk .p f.va.toNat else rk .v f.va.toNat]) ++
     (if takesB op && !f.im && !f.bb then [rk .v f.vb.toNat] else []) ++ (if f.bb then [rk .s f.bcs.toNat] else []) ++
     (if takesC op then [if op = 0x17 then rk .p f.vc.toNat else rk .v f.vc.toNat] else []),
   [if op = 0x18 ∨ op = 0x26 then rk .p f.vd.toNat
    else if op = 0x40 then (if f.sub = 2 then rk .p f.vd.toNat else rk .q f.vd.toNat) else rk .v f.vd.toNat])

/-- Registers that an L slot reads and writes. -/
def ioL (op : Nat) (f : LSlot) : List Nat × List Nat :=
  let dc : RegCls := if f.dv then .v else .s
  let d := [rk dc f.d.toNat]
  let guard := if f.dv then gpKey f.ge f.gp else gqKey f.ge (f.gp.setWidth 2)
  let addr := [rk .a f.ar.toNat] ++ (if f.xe then [rk (if f.xc then .v else .s) f.x.toNat] else [])
  let sregs := fun (n : Nat) => (List.range n).map fun i => rk .s (f.d.toNat + i)
  let (r, w) : List Nat × List Nat :=
    if op = 0x57 then (d, [])
    else if op = 0x58 then ([], d)
    else if op = 0x5C then (d, [])
    else if op = 0x5D then ([], d)
    else if op = 0x59 then ([rk .a f.ar.toNat, rk dc f.x.toNat], d)
    else if op = 0x5A then ([rk .a f.ar.toNat, rk dc f.x.toNat] ++ d, d)
    else if op = 0x5B then (addr, [])
    else if op = 0x51 ∨ op = 0x53 ∨ op = 0x55 then (addr ++ d, [])
    else if 0x50 ≤ op ∧ op ≤ 0x56 then (addr, d)
    else if op = 0x62 ∨ op = 0x68 ∨ op = 0x69 then ([], [])
    else if op = 0x63 then (rk .a f.ar.toNat :: sregs 2, [])
    else if op = 0x60 ∨ op = 0x61 ∨ op = 0x64 then ([rk .a f.ar.toNat], [])
    else if op = 0x70 then ((sregs (4 + f.aop.toNat)).drop 1, d)
    else if op = 0x71 ∨ op = 0x72 then ((sregs (5 + f.aop.toNat)).drop 1, d)
    else if op = 0x73 then ((sregs 2).drop 1, d)
    else if op = 0x74 then (d, [])
    else ([], d)
  (guard ++ r, w)

/-- Registers that an operation of a bundle reads and writes. -/
def regsOf (i : Instr) : List Nat × List Nat :=
  match formOf i with
  | some (.s f) => ioS (opcOf i) f
  | some (.v f) => ioV (opcOf i) f
  | some (.l f) => ioL (opcOf i) f
  | some (.bur _) => ([], [])
  | none =>
    match i with
    | .mx f | .mxs f => ([rk .s f.fw.toNat, rk .a f.aa.toNat, rk .a f.ab.toNat], [])
    | .mxr f => ([rk .s f.fw.toNat, rk .a f.aa.toNat], [])
    | .pbr f => ([], [rk .b (fld 19 18 f.opnd.toNat)])
    | .brt f => (gqKey f.ge f.gq ++ [rk .b (fld 19 18 f.opnd.toNat)], [])
    | .send f => ([rk .v (fld 19 14 f.opnd.toNat)], [])
    | .lpset f => ([rk .s (fld 18 14 f.opnd.toNat)], [])
    | .trap (.b f) | .brk (.b f) => (gqKey f.ge f.gq, [])
    | .xv vd ss => ([rk .s ss.toNat], [rk .v vd.toNat])
    | .xs _ sd vs _ => ([rk .v vs.toNat], [rk .s sd.toNat])
    | .xsP sd pk => ([rk .p pk.toNat], [rk .s sd.toNat])
    | _ => ([], [])

/-- A bundle names a vector register beyond the crew's budget (R56). -/
def overBudget (vbc : Nat) (is : List Instr) : Bool :=
  is.any fun i => ((regsOf i).1 ++ (regsOf i).2).any fun k => k / 64 = 1 && decide (16 * (vbc + 1) ≤ k % 64)

/-! ## Marks and restrictions -/

/-- Operations of the L, sync and B slots that need a commit point. -/
def needsCommit : Instr → Bool
  | .atom _ | .cas _ | .rel _ | .fence _ | .seal _ | .gate _ | .postSelf .. | .postCore .. | .send _ | .halt _
  | .barGNative _ | .barKNative _ | .rftNative _ => true
  | _ => false

/-- Operations that act as NOP in a delay bundle, and in an RPTA bundle (14 Table 14.3, 10 R214). -/
def voidInDelay (rpta : Bool) (i : Instr) : Bool :=
  needsCommit i || (match i with
    | .brt _ | .lpset _ | .lpclr _ | .rpt _ | .cmt _ | .cmtSwap _ => true
    | .yieldNative _ => !rpta
    | _ => false)

/-- A commit point stands after a bundle by its marks. -/
def hasCommit (b : Bundle) : Bool :=
  b.head.cmt || b.slots.any fun i => match i with | .cmt _ | .cmtSwap _ => true | _ => false

/-- The operations of a bundle that take effect where it stands: WAIT first, which is its precondition. A delay bundle's restrictions hold for one
that is marked as an RPT body too. -/
def liveOps (b : Bundle) (delay : Bool) : List Instr :=
  (b.sync.toList ++ b.slots).filter fun i => !((delay || b.head.rpta) && voidInDelay (b.head.rpta && !delay) i)

/-- The operations of a bundle in the order in which they are run: every slot reads its sources at issue, so that CSRR reads before a slot of the
same bundle writes a special register (R43); a fault of a POST comes after those of the other slots (18 R357). -/
def readsFirst (is : List Instr) : List Instr :=
  let csr := fun (i : Instr) => match i with | .csrr _ => true | _ => false
  let post := fun (i : Instr) => match i with | .postSelf .. | .postCore .. => true | _ => false
  is.filter csr ++ (is.filter fun i => !csr i && !post i) ++ is.filter post

/-- What keeps a bundle from issuing as a whole: the wait of its WAIT, PUSH, POP, ACQ or TLW (R306; 07 R151; 12 R249;
06 R132). The answer is the state in which its crew waits. -/
def blockedBy (s : State) (is : List Instr) : Option State :=
  is.findSome? fun i =>
    let held := fun (s : State) => (s.crew s.focus).bind fun x => x.2.hold
    let t := opStep i s
    match i with
    | .wait .. | .push _ | .pop _ => if (held t).isSome then some t else none
    | .tlw _ => match held t with | some (.timeline ..) => some t | _ => none
    | .acq f => match s.crew s.focus with
      | some (g, c) => if crewExecutes g c f && c.unlanded s.cycle then some (holdCrew s.focus (.acquire s.cycle) s) else none
      | none => none
    | _ => none

/-- The M slot's lane is busy (10 R205). -/
def laneBusy (g : Group) (is : List Instr) : Bool :=
  is.any fun i => match i with
    | .mx _ | .mxs _ | .mxz _ => g.compute.isSome
    | .mxr _ => g.retire.isSome
    | _ => false

/-! ## The hazard detector of debug mode -/

/-- Least bounds of the L slot (Table 3.12). -/
def leastL (op : Nat) : Nat :=
  if op = 0x52 ∨ op = 0x58 then 6 else if op = 0x75 then 8 else if op = 0x5D then 24 else 16

/-- The registers that an operation writes, with the least bound and the bound that it carries. -/
def writesOf (i : Instr) : List (Nat × Nat × Nat) :=
  let (m, n) : Nat × Nat := match formOf i with
    | some (.s f) => if opcOf i = 0xE1 then (1, 1) else (leastS (opcOf i), f.lat.toNat + 1)
    | some (.v f) => (leastV (opcOf i), f.lat.toNat + 1)
    | some (.l f) => (leastL (opcOf i), f.lat.toNat + 1)
    | some (.bur _) => (0, 0)
    | none => match i with | .pbr _ => (1, 1) | _ => (2, 2)
  (regsOf i).2.map fun k => (k, m, n)

/-- The operations of a bundle, the sync slot first. -/
def bundleOps (b : Bundle) : List Instr := b.sync.toList ++ b.slots

/-- The address registers that the RPT of a bundle advances, which count as written (R58). -/
def rptWrites (b : Bundle) : List Nat :=
  if b.slots.any fun i => match i with | .rpt _ => true | _ => false then
    match rptOver b with
    | some (d, _) => (if d.asrc = 1 then [] else [rk .a d.aa.toNat]) ++ (if d.bsrc = 1 then [] else [rk .a d.ab.toNat])
    | none => []
  else []

/-- Registers that a bundle reads, and those that it writes. -/
def readsOfBundle (b : Bundle) : List Nat := (bundleOps b).flatMap fun i => (regsOf i).1
def writesOfBundle (b : Bundle) : List Nat := ((bundleOps b).flatMap fun i => (regsOf i).2) ++ rptWrites b

/-- Spill slots that the side table names as the location of a value live into the crew's region (07 R155), at the commit point that opened it; for a
crew formed at a record's turn, at those of its strands. -/
def liveSpills (s : State) (c : Crew) : List Nat :=
  if c.region.opened then
    (c.region.openBidx :: c.region.opens).flatMap fun b => match sideAt s c b with
      | some p => p.locs.flatMap fun r =>
          let r := r.toNat
          if fld 25 22 r = 5 then [fld 35 26 r] else if fld 25 22 r = 6 then [fld 35 26 r, fld 45 36 r] else []
      | none => []
  else []

/-- An operation that the detector reports by itself: an SPL over a slot that holds a live-in value (07 R155), or an LDS of bytes that the crew's
own retirement has not written yet (10 R207). -/
def hazardOp (s : State) (g : Group) (c : Crew) (i : Instr) : Bool :=
  match i with
  | .spl d => (liveSpills s c).contains (fld 5 0 d.disp.toNat)
  | .lds f => (memLanes g c f).any fun l => unlanded g c.ctx 0 (memEa g c f l.1 l.2) (tyBytes (memTy f))
  | _ => false

/-- A repeat prefix, or a bundle marked as its body, that R214 forbids. -/
def hazardRpt (c : Crew) (b : Bundle) : Bool :=
  (b.slots.any (fun i => match i with | .rpt _ => true | _ => false) && (rptOver b).isNone) ||
  (b.head.rpta && ((match c.rpt with | some r => decide (r.rptIdx + 32 < c.pc) | none => true) ||
    b.slots.any fun i => match i with | .mx _ | .mxs _ | .mxr _ | .mxz _ => true | _ => false))

/-- The bundle breaks a rule that the hazard detector watches (R53, R58, R64; 14 R287, R294, R297, R300, R301, R308; 07 R155; 10 R207, R214;
11 R232; 12 R255; 13 R275; 18 R363). A breach of R50 or R51 shows at the bundle that reads the register while a result to it may land. -/
def hazard (s : State) (g : Group) (c : Crew) (b : Bundle) (void : Bool) : Bool :=
  let all := bundleOps b
  let rs := readsOfBundle b
  let ws := writesOfBundle b
  let held := fun k => k / 64 = 0 || k / 64 = 3 || k / 64 = 4 || k / 64 = 5
  rs.any (fun k => c.windows.any fun w => w.1 = k && decide (s.cycle < w.2)) ||
  (void && (hasCommit b || all.any (voidInDelay (b.head.rpta && c.delay = 0)) || b.head.le0 || b.head.le1)) ||
  (!hasCommit b && all.any needsCommit) || (b.head.le0 && b.head.le1) || hazardRpt c b || all.any (hazardOp s g c) ||
  ws.any (fun k => (c.region.reads ++ rs.filter fun r => !c.region.writes.contains r).contains k && !c.region.writes.contains k) ||
  ((c.formed || !c.intact) && rs.any fun k => held k && !c.wrote.contains k)

/-- Notes the registers that a bundle issued in core cycle `t` reads and writes, and until when its results may land, where the detector
watches. -/
def noteRegs (t : Nat) (b : Bundle) (c : Crew) : Crew :=
  let rs := readsOfBundle b
  let ws := writesOfBundle b
  { c with
    wrote := (c.wrote ++ ws).eraseDups
    windows := (c.windows.filter fun w => t < w.2) ++ ((bundleOps b).flatMap writesOf).map fun w => (w.1, t + max w.2.1 w.2.2)
    region := { c.region with
      reads := (c.region.reads ++ rs.filter fun r => !c.region.writes.contains r).eraseDups
      writes := (c.region.writes ++ ws).eraseDups } }

/-! ## Sequencing (14 R296, R298, R299) -/

/-- The crew stops at a fault that keeps it from issuing: an earlier latched one is delivered before it (R59). -/
def stopAtOnce (k : Nat) (kind : Trap) (s : State) : State :=
  withCrew { s with focus := k } fun _ c => (crewFault k c kind s).modRegion k fun r => { r with due := true }

/-- A loop-end test of register `l` after bundle `i` (R299): the next bundle, if the loop returns. -/
def loopEnd (l : Bool) (i : Nat) (x : IssueCtx) : IssueCtx × Option Nat :=
  let r := x.lp l
  if r.active && r.stop.toNat = i then
    let n := r.count - 1
    if n ≠ 0 then (x.setLp l { r with count := n }, some r.start.toNat)
    else (x.setLp l { r with count := n, active := false }, none)
  else (x, none)

/-- Loop registers whose body does not contain a transfer's target end (R296). -/
def leaveLoops (t : Nat) (x : IssueCtx) : IssueCtx :=
  let f := fun (r : LoopReg) => if r.active && !(r.start.toNat ≤ t && t ≤ r.stop.toNat) then { r with active := false } else r
  { x with lp0 := f x.lp0, lp1 := f x.lp1 }

/-- Takes the crew to its next bundle after bundle `i` issued; a transfer goes to a bundle of the code whose ENTRY bit is 1, or raises
BAD_TARGET (03 R63). DEDUCED (log 98): where the loop-end test of a bundle returns its loop, that decides the next bundle, even over the skip of an
LPSET in it. -/
def sequence (k i : Nat) (b : Bundle) (void : Bool) (s : State) : State :=
  let s := s.modCrew k fun c => { c with last := i, delay := c.delay - 1 }
  match s.crew k with
  | none => s
  | some (g, c) =>
    match c.branch with
    | some (t, 1) =>
      if (bundleWord s c t).any fun w => w.getLsbD 7 then
        (s.modGroup k fun g => g.setCtx c.ctx (leaveLoops t (g.ctx c.ctx))).modCrew k fun c => { c with pc := t, branch := none }
      else stopAtOnce k .badTarget (s.modCrew k fun c => { c with branch := none })
    | br =>
      let (x, next) := if b.head.le0 && !void then loopEnd false i (g.ctx c.ctx) else (g.ctx c.ctx, none)
      let (x, next) := if b.head.le1 && !void && next.isNone then loopEnd true i x else (x, next)
      let skip := match br with | some (t, 0) => t | _ => i + 1
      let s := (s.modGroup k fun g => g.setCtx c.ctx x).modCrew k fun c => { c with
        pc := next.getD skip, branch := match br with | some (t, n + 2) => some (t, n + 1) | _ => none }
      if next.isSome then turn k s else s

/-! ## Fetch (R66, R67) -/

/-- The crew stops at a fault of instruction fetch, which is delivered at once (04 R90). -/
def fetchFault (k : Nat) (kind : Trap) (va : Nat) (s : State) : State :=
  withCrew { s with focus := k } fun _ c =>
    (latchLanes k kind (c.strands.map fun l => (l.1, va)) .fetch s).modRegion k fun r => { r with due := true }

/-- An L1 miss at issue: the crew goes on when the line has come, by a fetch that its PBR has under way where there is one. DESIGN CHOICE (log 79): a gondola miss of a translation that stands nowhere in
memory costs 64 lift cycles; the spec gives a gondola miss no number, and for any other the ride over the ring gives its time. -/
def fetchMiss (k tr i : Nat) (s : State) : State :=
  match s.group k with
  | none => s
  | some g =>
    if fetching s k tr i then s
    else match fetchPa k (s.asidOf g) tr i s with
      | (s, .error t) => fetchFault k t (codeVa (((s.trans tr).bind Trans.base).getD 0) i) s
      | (s, .ok pa) => fetchLine k (s.asidOf g) tr i pa s

/-- The line as its gondola holds it. -/
def gline (s : State) (die line : Nat) : GLine :=
  match (s.pkg.gondola.get [] die).find? fun x => x.line = line with
  | some x => x
  | none => { line := line }

/-- A line filled into a gondola of 16 ways and 1,024 sets: of its set the line that was filled first leaves, but for those that a locked launch
pins (03 R67, R69; log 79). -/
def gondolaPut (die : Nat) (x : GLine) (s : State) : State :=
  s.modPkg fun p =>
    let ls := (p.gondola.get [] die).filter fun y => y.line ≠ x.line
    let (own, rest) := ls.partition fun y => y.line % 1024 = x.line % 1024
    let room := 15 - (own.filter GLine.pin).length
    let kept := (own.foldl (fun (a : List GLine × Nat) y => if y.pin then (a.1 ++ [y], a.2) else if 0 < a.2 then (a.1 ++ [y], a.2 - 1) else a) ([], room)).1
    { p with gondola := p.gondola.set [] die (x :: kept ++ rest) }

/-- GONDOLA_FILL (R67): the line enters the gondola, the asking core's L1, and the L1 of every core of the die that runs the same
translation; its presence vector gains them. -/
def execGondolaFill (die line core : Nat) (s : State) : Host.Outcome State Fault Refusal :=
  .next (let (tr, i) := lineCode s line
    let runs := (s.cores.filter fun x => decide (dieOf x.1 = die) && (match x.2.group with
      | some g => decide ((s.launch g.launch).tr = some tr) | none => false)).map Prod.fst
    let ks := if runs.contains core then runs else core :: runs
    let s := foldS ks (fun k s => match s.group k with | some g => l1Fill k (s.asidOf g) tr i s | none => s) s
    let x := gline s die line
    gondolaPut die { x with pres := ks.foldl (fun b k => setBit b (k % 128) true) x.pres } s)

/-! ## Issue -/

/-- A memory result that the crew waits for is past its deadline (R52). -/
def lateResult (s : State) (c : Crew) : Bool := c.late s.cycle

/-- The crew may issue in this core cycle. -/
def mayIssue (s : State) (g : Group) (c : Crew) : Bool :=
  decide (g.issueAt ≤ s.cycle) && decide (c.notBefore ≤ s.cycle) && c.hold.isNone && !c.region.due && !c.yielded && !lateResult s c

/-- Counts a bundle in its profile counter (17 R345). -/
def profile (gth tr i : Nat) (b : Bundle) (s : State) : State := if b.head.prof then bumpProf gth tr i s else s

/-- The first bundle of a slice's function after a switch ends its cost, kept in ns for the last 16 switches (18 R370). -/
def noteSwitch (n : Nat) (s : State) : State :=
  let p := s.partOfLaunch n
  match (s.part p).switching with
  | some t =>
    if (s.part p).slice = some (s.fnOf (s.launch n).asid) then
      s.modPart p fun x => { x with switching := none, costs := (((s.now - t) * 5 / 8) :: x.costs).take 16 }
    else s
  | none => s

/-- Notes that a bundle of the launch has issued (16 Table 16.2, UNRUN). -/
def markIssued (n : Nat) (s : State) : State :=
  let s := noteSwitch n s
  if (s.launch n).issued then s else s.modLaunch n fun l => { l with issued := true }

/-- Issues a decoded bundle that nothing holds back. DEDUCED (log 99): an operation that acts as NOP in a delay bundle or an RPT body names no
register that the budget could refuse. -/
def issueBundle (k i : Nat) (b : Bundle) (s : State) : State :=
  match s.crew k with
  | none => s
  | some (g, c) =>
    let delay := decide (0 < c.delay)
    let void := delay || b.head.rpta
    let is := liveOps b delay
    if overBudget (s.launch g.launch).vbc is then stopAtOnce k .malformed s
    else if debugMode s g && hazard s g c b void then stopAtOnce k .hazard s
    else if 256 ≤ c.region.count && !(c.rpt.any (·.again)) then forceKill k .regionOverrun s
    else match blockedBy s is with
      | some t => t
      | none =>
        if laneBusy g is then s
        else
          let s := profile (s.part (s.partOfLaunch g.launch)).gth c.tr i b (s.modCrew k fun c =>
            let c := if debugMode s g then noteRegs s.cycle b c else c
            { c with notBefore := s.cycle + 1, region := { c.region with count := c.region.count + (if c.rpt.any (·.again) then 0 else 1) } })
          let s := markIssued g.launch (s.modGroup k fun g => { g with lastCrew := some c.ctx, issued := s.cycle })
          let s := foldS (readsFirst is) opStep s
          let s := if hasCommit b && !void then s.modRegion k fun r => { r with due := true } else s
          sequence k i b void s

/-- A crew at the entry of a region whose twin stands in its place goes on at the twin (11 R238, 17 R347). -/
def enterTwin (k : Nat) (s : State) : State :=
  match s.crew k with
  | none => s
  | some (_, c) =>
    match s.trans c.tr with
    | none => s
    | some t =>
      if c.pc = c.region.entry && c.region.count = 0 && t.noSp.contains c.pc then
        match t.twins.find? fun x => x.1 = c.pc with
        | some x => s.modCrew k fun c => { c with pc := x.2, region := { c.region with entry := x.2 } }
        | none => s
      else s

/-- BUNDLE_ISSUE for a native crew. -/
def nativeIssue (k : Nat) (s : State) : State :=
  let s := enterTwin k (landDue k s.cycle s)
  match s.crew k with
  | none => s
  | some (g, c) =>
    if !mayIssue s g c || (c.rpt.isSome && !inBody s g c) then s
    else
      let asid := s.asidOf g
      match bundleWord s c c.pc with
      | none => stopAtOnce k .badTarget s
      | some w =>
        if !inL1 s k asid c.tr c.pc then fetchMiss k c.tr c.pc s
        else match decodeBundle (s.launch g.launch).fmask w with
          | .error .illOpcode => stopAtOnce k .illOpcode s
          | .error _ => stopAtOnce k .malformed s
          | .ok b => issueBundle k c.pc b s

/-- The bytes of a Burhus crew's next instruction: at most 32, and none beyond its segment (02 R19). -/
def burBytes (kn : Kernel) (sg : Seg) (pc : Nat) : List Byte := (kn.code.drop (sg.off + pc)).take (min 32 (sg.len - pc))

/-- The instruction at a Burhus crew's place. -/
def burAt (s : State) (g : Group) (c : Crew) : Except DecErr Instr :=
  match (s.launch g.launch).kernel with
  | none => .error .malformed
  | some kn =>
    match kn.segs[c.seg]? with
    | none => .error .malformed
    | some sg => (decodeBurhus (s.launch g.launch).fmask kn.version (burBytes kn sg c.pc)).map Prod.fst

/-- A macro-operation of the crew runs: its Burhus instruction has not ended. -/
def burMacro (g : Group) (c : Crew) : Bool :=
  (match g.compute with | some m => decide (m.ctx = c.ctx) | none => false) || (match g.retire with | some m => decide (m.ctx = c.ctx) | none => false)

/-- Executes the instruction at the crew's place; a trap point raises its fault in the strands that reach it (02 R26). DESIGN CHOICE (log 80):
nothing is decoded after a trap point, and the spec does not say where strands that RFT returns from its handler go on; here the trap is
raised again there, in all of the crew's strands. -/
def burStep (k : Nat) (s : State) : State :=
  match s.crew k with
  | none => s
  | some (g, c) =>
    match burAt s g c with
    | .ok i => opStep i { s with focus := k }
    | .error .illOpcode => crewFault k c .illOpcode s
    | .error _ => crewFault k c .malformed s

/-- The successor segments that a terminator names (R31), as a first index and a count; none for another operation. -/
def termNames : Instr → Option (List (Nat × Nat))
  | .next b => some [(b.n1, 1)]
  | .nextC b => some [(b.n1, 1), (b.n2, 1)]
  | .nextIx b => some [(b.n1, b.n2)]
  | .exit _ | .rft _ => some []
  | _ => none

/-- A segment's terminator that stands on a loop-end bundle of the quick translation counts there (17 R343, R345). -/
def countLoopEnd (g : Group) (c : Crew) (s : State) : State :=
  match s.trans c.tr, burAt s g c with
  | some t, .ok i =>
    match if t.quick && (termNames i).isSome then Config.quickLoopEnd t.key.hash c.seg else none with
    | some n => bumpProf (s.part (s.partOfLaunch g.launch)).gth c.tr n s
    | none => s
  | _, _ => s

/-- BUNDLE_ISSUE for a Burhus crew: one instruction; a region that has filled a third of the store buffer closes first. -/
def burIssue (k : Nat) (s : State) : State :=
  match s.crew k with
  | none => s
  | some (g, c) =>
    if !mayIssue s g c || c.region.latched.isSome || burMacro g c || riding .load s k then s
    else if 256 ≤ c.region.buf.length then s.modRegion k fun r => { r with due := true }
    else burStep k (markIssued g.launch ((countLoopEnd g c s).modGroup k fun g => { g with
      lastCrew := some c.ctx, issued := s.cycle, running := g.running.map fun c => { c with notBefore := s.cycle + 1, last := c.pc } }))

/-! ## Signatures of a pair (20 R390) -/

/-- One step of the CRC-64 (ECMA-182), most significant bit first. -/
def crcBit (x : W64) (b : Bool) : W64 := if x.getLsbD 63 = b then x <<< (1 : Nat) else (x <<< (1 : Nat)) ^^^ 0x42F0E1EBA9EA3693
def crc64 (bs : List Byte) : W64 := bs.foldl (fun x b => (List.range 8).foldl (fun x i => crcBit x (b.getLsbD (7 - i))) x) 0

/-- What a bundle lands and appends, as bytes. -/
def entryBytes : BufEntry → List Byte
  | .store _ ls => ls.flatMap fun l => leBytes 8 l.pa ++ l.bytes
  | .sts ls => ls.flatMap fun l => leBytes 8 l.1 ++ l.2
  | .bkm v => leBytes 8 v.toNat
  | .fcb k v => leBytes 8 k ++ leBytes 8 v.toNat
  | .bind o b n => leBytes 8 o ++ leBytes 8 b ++ leBytes 8 n
  | .unbind o => leBytes 8 o
  | .engine c n => leBytes 8 c ++ leBytes 8 n

/-- The signature of a bundle that takes a crew from `a` to `b` in core cycle `t`. -/
def pairSig (t : Nat) (a b : Crew) : W64 :=
  crc64 ((a.inflight.filter fun l => l.at_ ≤ t).flatMap (fun l => leBytes 8 l.val.toNat) ++ (b.region.buf.drop a.region.buf.length).flatMap entryBytes)

/-- In a partition in pairs mode, the even core keeps the signature of its last bundle. -/
def signBundle (k t : Nat) (pairs : Bool) (a : Crew) (s : State) : State :=
  match pairs, s.crew k with
  | true, some (_, b) => s.modCore k fun c => { c with sig := pairSig t a b }
  | _, _ => s

/-- BUNDLE_ISSUE (R43): the core issues the next bundle, or instruction, of its running crew. -/
def execBundleIssue (core : Nat) (s : State) : Host.Outcome State Fault Refusal :=
  .next (match s.crew core with
    | none => s
    | some (g, c) =>
      let s := { s with focus := core }
      if c.fjoset then signBundle core s.cycle (s.part (s.partOfLaunch g.launch)).pairs c (nativeIssue core s) else burIssue core s)

/-- LATE_RESULT_STALL (R52): the core issues nothing while a result of its running crew is late. -/
def execLateResultStall (core : Nat) (s : State) : Host.Outcome State Fault Refusal :=
  .next (match s.crew core with
    | none => s
    | some (_, c) => if lateResult s c then s.modGroup core fun g => { g with issueAt := max g.issueAt (s.cycle + 1) } else s)

/-! ## Results that arrive (R50, R52) -/

/-- The first crew of a group whose oldest memory result has come over the ring (05 R115). -/
def arriving (s : State) (g : Group) : Option (Crew × MemReq) :=
  g.crews.findSome? fun c => match c.mem with | m :: _ => if m.done s then some (c, m) else none | [] => none

/-- Reads a request's bytes and lands them, for the bundles that issue from this cycle on (R50); a lane whose line does not verify lands zero and latches its fault,
or of an SP load marks a conflict (11 R237). -/
def arrive (k asid : Nat) (c : Crew) (m : MemReq) (s : State) : State :=
  let n := tyBytes m.ty.toNat
  let (s, rs, bad) := readLanes k asid m.pol.toNat (if m.lanes.any (fun l => decide ((m.lanes.filter fun x => x.lane = l.lane ∧ x.slot = l.slot).length = 2)) then 4 else n) m.own m.lanes s
  let lanes := (m.lanes.map fun l => (l.lane, l.slot)).eraseDups
  let ws := lanes.map fun (l : Nat × Nat) =>
    let dead := bad.any fun x => x.lane = l.1
    { at_ := s.cycle, deadline := max s.cycle m.deadline, cls := m.cls, reg := m.reg, slot := l.2, lane := l.1
      val := if dead then 0 else BitVec.ofNat 64 (extendVal m.ty.toNat (decide (m.cls = .s)) (joinLane rs l.1 l.2)) : Landing }
  s.modCtxCrew k c.ctx fun c =>
    let r := c.region
    let r := if m.sp && bad ≠ [] then { r with conflicted := true } else r
    let f : Option FaultRec := match (if m.sp then [] else bad) with
      | [] => r.latched
      | x :: _ => match r.latched with
        | some f => some f
        | none => some { kind := x.kind, lanes := (bad.filter fun y => y.kind = x.kind).map fun y => (y.lane, y.addr), bidx := c.pc, boff := c.pc, seg := c.seg }
    { c with mem := c.mem.drop 1, inflight := c.inflight ++ ws, region := { r with latched := f } }

/-- MEMORY_RESULT_ARRIVAL (R50): the oldest memory result that a crew of the core waits for arrives. -/
def execMemoryResultArrival (core : Nat) (s : State) : Host.Outcome State Fault Refusal :=
  .next (match s.group core with
    | none => s
    | some g =>
      match arriving s g with
      | none => s
      | some (c, m) => arrive core (s.asidOf g) c m s)

end Sys2Proof.Machine
end

