-- ==== Sys2Proof/Machine/Preempt.lean ====
section
/-!
DEFINITION. Urgent pre-emption, saving and restoring (spec/18_traps_preemption_containment.md R371 to R375), with the free
cores and staging banks of a partition (spec/16_scheduling.md R331).
-/
namespace Sys2Proof.Machine

/-! ## Free cores and staging banks (16 R331; 05 R108) -/

/-- The partition that holds a core's region. -/
def State.partOfCore (s : State) (k : Nat) : Option Nat :=
  (List.find? (fun (p : Nat × Part) => bitOf (regionOf k) p.2.regm) s.pkg.parts).map Prod.fst

/-- A core, or a pair by its even core, is free for a partition. Until the chair tables of its die are in force no work begins there (05 R113). -/
def freeCore (s : State) (p k : Nat) : Bool :=
  let ok := fun (j : Nat) => (s.group j).isNone && !(s.core j).fenced
  bitOf (regionOf k) (s.part p).regm && !s.pkg.chairDiesNext.contains (dieOf k) && ok k && (!(s.part p).pairs || (k % 2 = 0 && ok (k + 1)))

/-- The partition's staging banks that no group holds: those of the region's quad first. -/
def freeStaging (s : State) (p region : Nat) : List Nat :=
  let held := s.cores.flatMap fun c => match c.2.group with | some g => g.staging | none => []
  let all := (s.banksWhere fun e => bankMode e = 1 && bankPart e = p).filter fun b => !held.contains b
  (all.filter fun b => b / 32 = region) ++ (all.filter fun b => b / 32 ≠ region)

/-- The grants of groups that take `n` banks each in turn, each grant in ascending order. -/
def takeGrants : List Nat → List Nat → List (List Nat)
  | [], _ => []
  | n :: r, free => natSort (free.take n) :: takeGrants r (free.drop n)

/-- A grant finds its banks zeroed. -/
def zeroBanks (bs : List Nat) (s : State) : State :=
  s.modPkg fun p => { p with staging := p.staging.filter fun e => !bs.contains (e.1 / 196608) }

/-! ## Stopping clusters (R371, R372) -/

/-- Core `k` holds a group of a cluster: a core whose group has ended may hold another's. -/
def State.holds (s : State) (launch cluster k : Nat) : Bool := (s.group k).any fun g => decide (g.launch = launch) && decide (g.cluster = cluster)

/-- Stops placed clusters of a launch, which are then saved. -/
def preemptClusters (n : Nat) (cls : List Nat) (s : State) : State :=
  let l := s.launch n
  let hit := l.placed.filter fun x => cls.contains x.1
  let s := s.modLaunch n fun l => { l with preempt := (l.preempt ++ hit.map Prod.fst).eraseDups }
  foldS (hit.flatMap fun x => x.2.filter (s.holds n x.1)) stopCore s

/-- URGENT_PREEMPTION (R372): stops the clusters that are to be suspended; every one where none is marked. -/
def execUrgentPreemption (launch : Nat) (s : State) : Host.Outcome State Fault Refusal :=
  .next (let l := s.launch launch
    preemptClusters launch (if l.preempt = [] then l.placed.map Prod.fst else l.preempt) s)

/-- Rolls back the crews of a stopped group that are blocked away from a commit point, and the running one where its bound
has passed, unless its commit point has released what it buffered and waits for a full log. -/
def stopGroup (k : Nat) (s : State) : State :=
  match s.group k with
  | none => s
  | some g =>
    if !g.stopReq then s
    else
      let s := if s.now < g.stopAt then s else
        match (finishMacros k s).crew k with
        | none => s
        | some (_, c) =>
          if c.region.released then s
          else
          let (s, c) := undoCrew k c (finishMacros k s)
          pushReady k c false (s.modGroup k fun g => { g with running := none, lastCrew := some c.ctx })
      let bs := g.blocked.filter fun b => !atCommit b.2
      foldS bs (fun b s =>
        let (s, c) := undoCrew k b.1 s
        pushReady k c false (s.modGroup k fun g => { g with blocked := g.blocked.filter fun x => x.1.ctx ≠ b.1.ctx || atCommit x.2 })) s

/-- PREEMPTION_TIMEOUT (R372): what has not come to a commit point is rolled back. -/
def execPreemptionTimeout (core : Nat) (s : State) : Host.Outcome State Fault Refusal := .next (stopGroup core s)

/-! ## Save and restore (R373, R374) -/

/-- The group on a core as it is saved: with its staging bytes, its entries on their way published, and its CLK stopped. -/
def savedGroup (s : State) (g : Group) : Group :=
  let stg := (List.zip (List.range g.staging.length) g.staging).flatMap fun x =>
    (s.pkg.staging.filter fun e => e.1 / 196608 = x.2).map fun e => (x.1 * 196608 + e.1 % 196608, e.2)
  { g with
    clk := g.clk + (s.cycle - g.since)
    stg := stg
    fifo := g.fifo.map fun q => (q.1, { q.2 with entries := q.2.entries ++ q.2.inbound.map Prod.snd, inbound := [] })
    z0 := { g.z0 with pins := [] }, z1 := { g.z1 with pins := [] }
    stopReq := false, forced := false }

/-- The bytes of memory that back the spill areas of a core in a context: 256 KiB of the region's granule (05 R110). -/
def spillBack (s : State) (a k : Nat) : Option Nat := ((s.ctx a).spillGr.find? (regionOf k)).map fun g => g * 2 ^ 21 + k % 8 * 262144

/-- Writes a group's spill areas to their backing, under the function's key. -/
def saveSpill (a k : Nat) (g : Group) (s : State) : State × Group :=
  match spillBack s a k with
  | none => (s, g)
  | some b =>
    let m := s.mem.filter fun c => !(decide (b ≤ c.1) && decide (c.1 < b + 262144))
    let s := { s with mem := g.spill.foldl (fun m e => SMap.set 0 m (b + e.1) e.2) m }
    (foldS (List.range 2048) (fun i s => bumpCounter (b / 128 + i) s) s, { g with spill := [] })

/-- Reads a group's spill areas back from their backing. -/
def loadSpill (s : State) (a k : Nat) (g : Group) : Group :=
  match spillBack s a k with
  | none => g
  | some b => { g with spill := (s.mem.filter fun c => decide (b ≤ c.1) && decide (c.1 < b + 262144)).map fun c => (c.1 - b, c.2) }

/-- The core is left: its private cache drains by a release at .D and is dropped, with its TLB; its L1 stays (03 R66), and its streams' pins are
released (05 R109). -/
def leaveCore (k : Nat) (s : State) : State :=
  (unpinAll k (releaseDrain k s)).modCore k fun c => { c with group := none, cache := [], tlb := [] }

/-- Every group of a placed cluster stands at a commit point. -/
def clusterStill (s : State) (launch cluster : Nat) (cores : List Nat) : Bool :=
  (cores.filter (s.holds launch cluster)).all fun k => (s.group k).any fun g => g.still && g.stopReq

/-- Published entries are on their way to a bank of the group that is no longer in FIFO mode (07 R152). -/
def strayEntries (g : Group) : Bool := g.fifo.any fun q => !q.2.inbound.isEmpty && g.modeOf q.1 ≠ some 2

/-- CONTEXT_SAVE (R374): a cluster that is to be suspended, and whose crews stand at commit points, is saved and its cores are
free. -/
def execContextSave (launch cluster : Nat) (s : State) : Host.Outcome State Fault Refusal :=
  .next (let l := s.launch launch
    match l.placed.find? fun x => x.1 = cluster with
    | none => s
    | some (_, cores) =>
      if !(l.preempt.contains cluster) || !clusterStill s launch cluster cores then s
      else
        let gs := (cores.filter (s.holds launch cluster)).filterMap fun k => (s.group k).map fun g => (k, g)
        if gs.any fun x => strayEntries x.2 then killLaunch .fifoBad 0 0 launch s else
        let s := foldS (gs.map Prod.fst) leaveCore s
        let (s, saved) := gs.foldl (fun (y : State × List (Nat × Group)) x =>
          let (s, g) := saveSpill l.asid x.1 (savedGroup y.1 x.2) y.1
          (s, y.2 ++ [(x.1, g)])) (s, [])
        let s := s.modLaunch launch fun l => { l with
          placed := l.placed.filter fun x => x.1 ≠ cluster
          preempt := l.preempt.filter (· ≠ cluster)
          suspended := l.suspended ++ [{ cluster := cluster, groups := saved, cores := cores, written := true }] }
        callPlacement launch (boundRun launch s))

/-- A region that another cluster's reservation holds (16 R334). -/
def reservedFrom (s : State) (p n k r : Nat) : Bool :=
  match (s.part p).reserve with
  | some (m, j, x) => x = r && !(m = n && j = k)
  | none => false

/-- A reservation ends when its cluster is placed. -/
def endReserve (p n k : Nat) (s : State) : State :=
  s.modPart p fun x => { x with reserve := x.reserve.filter fun r => r.1 ≠ n || r.2.1 ≠ k }

/-- A suspended cluster can be restored: the cores it left are free, and the partition has its staging banks. -/
def canRestore (s : State) (n : Nat) (x : Saved) : Bool :=
  let p := s.partOfLaunch n
  x.groups.all (fun g => freeCore s p g.1) && !(x.groups.any fun g => reservedFrom s p n x.cluster (regionOf g.1)) &&
  decide ((x.groups.foldl (fun m g => m + g.2.staging.length) 0) ≤ (freeStaging s p (regionOf ((x.groups.map Prod.fst).headD 0))).length) &&
  !(s.ctx (s.launch n).asid).stopped && !(s.ctx (s.launch n).asid).treeStop && !(s.ctx (s.launch n).asid).recovering

/-- Restores a suspended cluster onto its cores (R373): a reservation that it held ends, and the next cluster becomes the head anew (16 R333, R334). -/
def restoreCluster (n : Nat) (x : Saved) (s : State) : State :=
  let p := s.partOfLaunch n
  let grants := takeGrants (x.groups.map fun g => g.2.staging.length) (freeStaging s p (regionOf ((x.groups.map Prod.fst).headD 0)))
  let s := zeroBanks grants.flatten s
  let s := foldS (List.zip x.groups grants) (fun y s =>
    let (k, g) := (y.1.1, loadSpill s (s.launch n).asid y.1.1 y.1.2)
    let bytes := g.stg.map fun e => (((y.2.getD (e.1 / 196608) 0) * 196608 + e.1 % 196608), e.2)
    let s := s.modPkg fun p => { p with staging := bytes.foldl (fun m e => SMap.set 0 m e.1 e.2) p.staging }
    let s := invalidateLines k (fun _ => true) s
    s.modCore k fun c => { c with group := some { g with staging := y.2, stg := [], since := s.cycle, lastCrew := none, issueAt := s.cycle + 3 } }) s
  boundRun n (endReserve p n x.cluster (s.modLaunch n fun l => { l with
    suspended := l.suspended.filter fun y => y.cluster ≠ x.cluster
    placed := l.placed ++ [(x.cluster, x.cores)], headSince := none }))

/-- CONTEXT_RESTORE (R373). -/
def execContextRestore (launch cluster : Nat) (s : State) : Host.Outcome State Fault Refusal :=
  .next (match (s.launch launch).suspended.find? fun x => x.cluster = cluster with
    | some x => if canRestore s launch x then restoreCluster launch x s else s
    | none => s)

end Sys2Proof.Machine
end

