-- ==== Sys2Proof/Machine/Replay.lean ====
section
/-!
DEFINITION. Replay and the split run (spec/18_traps_preemption_containment.md R359 to R361). Both execute the region's Burhus
instructions directly; a replay does so on a copy of the state, from which nothing comes back but the trap that it finds.
-/
namespace Sys2Proof.Machine

/-- One instruction of a run, with the matrix operation that it issues. -/
def runStep (k ctx : Nat) (s : State) : State := finishBoth k (fun m => m.ctx = ctx) (burStep k s)

/-- A run has come no further than the crew `c`. -/
def stuckAt (k : Nat) (c : Crew) (s : State) : Bool :=
  (s.crew k).any fun x => decide (x.2.pc = c.pc) && x.2.region.latched.isNone && !x.2.region.due

/-- In a replay, which computes and does not perform (R359), nothing that an operation gives waits for space: queue fronts and the consumer's bank
have places, and a counter has come to the number that a TLW waits for (log 31). -/
def liftBlocks (k : Nat) (s : State) : State :=
  match s.crew k with
  | none => s
  | some (g, c) =>
    let s := s.modPkg fun p => { p with eng := p.eng.map fun e => (e.1, { e.2 with queue := [], waiting := [] }) }
    let s := match c.hold with
      | some (.timeline cls n) => s.modEng (engKey (s.asidOf g) cls (dieOf k)) fun e => { e with counter := n }
      | some (.fifoSpace b) => (match g.down with
        | some d => s.modGroup d fun h => h.setQueue b { h.queue b with entries := [], inbound := [], unpublished := 0, taken := 0 }
        | none => s)
      | _ => s
    s.modCrew k fun c => { c with hold := none }

/-- A run stops where a trap is latched, at the region's closing commit point, at a given boundary, or where it cannot go on; in a replay nothing
that only performing needs holds it. -/
def burRun (k : Nat) (replay : Bool) (stop : Option Nat) : Nat → State → State
  | 0, s => s
  | n + 1, s =>
    match s.crew k with
    | none => s
    | some (_, c) =>
      if c.region.latched.isSome || c.region.due || decide (stop = some c.pc) then s
      else
        let s₁ := runStep k c.ctx s
        let s₁ := if replay && stuckAt k c s₁ then runStep k c.ctx (liftBlocks k s₁) else s₁
        let s₁ := s₁.modCrew k fun d => match d.hold with | some (.acquire _) => { d with hold := none } | _ => d
        if stuckAt k c s₁ then s₁ else burRun k replay stop n s₁

/-- The crew made the running one of its core, for a run that the Fjoset cores make; what the array does for other crews stands aside. -/
def asRunning (k : Nat) (c : Crew) (s : State) : State :=
  s.modGroup k fun g => { g with
    running := some { c with delivered := none }
    compute := g.compute.filter fun m => decide (m.ctx = c.ctx), retire := g.retire.filter fun m => decide (m.ctx = c.ctx)
    blocked := g.blocked.filter fun b => b.1.ctx ≠ c.ctx }

/-- A blocked crew that waits for delivery, with its fault, replayed or not yet. -/
def awaiting (g : Group) (replayed : Bool) : Option (Crew × FaultRec) :=
  g.blocked.findSome? fun b => match b.2, b.1.delivered with
    | .delivery, some f => if f.replayed = replayed then some (b.1, f) else none
    | _, _ => none

/-- More instructions than a segment of the kernel of a core's group can hold: code within one has no loop. -/
def runFuel (k : Nat) (s : State) : Nat :=
  match (s.group k).bind fun g => (s.launch g.launch).kernel with | some kn => kn.code.length + 2 | none => 2

/-- The trap that a replay of the crew's region finds before the commit point that closed the native region (R359, R361). -/
def replayTrap (k : Nat) (c : Crew) (s : State) : Option FaultRec :=
  ((burRun k true (c.delivered.bind FaultRec.until_) (runFuel k s) (asRunning k c s)).crew k).bind fun x => x.2.region.latched

/-- The crew goes back to its frontier, at its region's entry. -/
def resumeAtEntry (k : Nat) (c : Crew) (s : State) : State :=
  pushReady k { c with delivered := none } false
    (s.modGroup k fun g => { g with blocked := g.blocked.filter fun b => b.1.ctx ≠ c.ctx })

/-- REPLAY (R359, R361): the trap that replay finds is the one delivered; without one the crew resumes, and the partition
counts a vanished trap. A native-only crew has no Burhus state to replay (R364) and enters its handler. -/
def execReplay (core : Nat) (s : State) : Host.Outcome State Fault Refusal :=
  .next (match s.group core with
    | none => s
    | some g =>
      match awaiting g false with
      | none => s
      | some (c, f₀) =>
        let out := s.modGroup core fun g => { g with blocked := g.blocked.filter fun b => b.1.ctx ≠ c.ctx }
        if c.fjoset then routeFault core c f₀ out
        else match replayTrap core c s with
        | none => resumeAtEntry core c (s.modPart (s.fn (s.fnOf (s.asidOf g))).part fun p => { p with vanished := p.vanished + 1 })
        | some f => routeFault core c { f with replayed := true } out)

/-- Releases what the running crew's region holds, at boundary I, and opens the next region. -/
def closeSplit (k : Nat) (g : Group) (c : Crew) (s : State) : State :=
  let s := releaseRegion k g c.region s
  let s := s.modGroup k (closeRegion c)
  s.modCrew k fun _ => c.nextRegion ((s.group k).getD g) none

/-- SPLIT_RUN (R360): the crew executes up to I, commits there, and its trapped strands enter the handler; a BRK stops it for
the debugger, and where none is attached any more it does nothing (14 R303). -/
def execSplitRun (core : Nat) (s : State) : Host.Outcome State Fault Refusal :=
  .next (match s.group core with
    | none => s
    | some g =>
      match awaiting g true with
      | none => s
      | some (c, f) =>
        if f.kind ≠ .brk ∧ g.nested.isSome then
          s.modGroup core fun g => { g with blocked := g.blocked.map fun b => if b.1.ctx = c.ctx then (b.1, .nested) else b }
        else
          let back := fun (s : State) => s.modGroup core fun h => { h with
            running := g.running, lastCrew := g.lastCrew, issueAt := g.issueAt, compute := g.compute, retire := g.retire }
          let s' := burRun core false (some f.boff) (runFuel core s) (asRunning core c s)
          match s'.crew core with
          | none => s'
          | some (g', d) =>
            match d.region.latched with
            | some f' => back (deliver core f' s')
            | none =>
              if d.pc ≠ f.boff then
                let (s', d) := undoCrew core d s'
                back (pushReady core { d with delivered := none } false s')
              else
                let s' := serveLogTraps (closeSplit core g' d s')
                match s'.crew core with
                | none => s'
                | some (g', d) =>
                  let s' := s'.modGroup core fun g => { g with running := none }
                  if f.kind = .brk then
                    back (if (s'.ctx (s'.asidOf g')).dbg then pushBlocked core { d with delivered := some f } .debugger s'
                      else pushReady core { d with delivered := none } false s')
                  else match handlerOf s' g' d with
                    | some h => back (s'.modGroup core (enterHandler h d f s'.cycle))
                    | none => back s')

end Sys2Proof.Machine
end

