-- ==== Sys2Proof/Machine/Admission.lean ====
section
/-!
DEFINITION. Admission of a kernel (spec/02_burhus_code.md R30 to R39), and the reads and writes that the service die makes in
a context's address space (04 R75).
-/
namespace Sys2Proof.Machine

/-! ## Accesses of the service die -/

/-- Translates for the service die, which keeps no translation of its own. -/
def svcTranslate (asid va : Nat) (acc : Acc) (s : State) : State × Except Trap Phys :=
  let va := va % 2 ^ 56
  let cores := s.cores
  let p := s.pkg
  match walkFor 0 asid va acc s with
  | (s, r) =>
    let s := { s with cores := cores, pkg := { s.pkg with rtlb := p.rtlb, walk := p.walk, walkKeys := p.walkKeys } }
    match r with
    | .error t => (s, .error t)
    | .ok e =>
      match rights s asid acc e with
      | some t => (s, .error t)
      | none => (s, .ok { pa := e.frame * 65536 + (va - e.vpn * 65536), widx := e.widx })

/-- Reads bytes of a context, page by page. -/
def svcRead (asid : Nat) : Nat → Nat → Nat → State → State × Except Trap (List Byte)
  | 0, _, _, s => (s, .ok [])
  | fuel + 1, va, n, s =>
    if n = 0 then (s, .ok [])
    else
      let m := min n (65536 - va % 65536)
      match svcTranslate asid va .read s with
      | (s, .error t) => (s, .error t)
      | (s, .ok p) =>
        match physRead p.pa m s with
        | (s, none) => (s, .error .integFail)
        | (s, some bs) =>
          match svcRead asid fuel (va + m) (n - m) s with
          | (s, .ok r) => (s, .ok (bs ++ r))
          | e => e

/-- Reads `n` bytes at `va`. -/
def readCtx (asid va n : Nat) (s : State) : State × Except Trap (List Byte) := svcRead asid (n / 65536 + 2) va n s

/-! ## Object and kernel headers (R35 to R37) -/

/-- The versions of R1, as major × 10 + minor. -/
def versionOk (v : Nat) : Bool := [20, 21, 22, 23, 30].contains v

/-- An object header is in form (Table 2.11). -/
def objectOk (h : Nat) : Bool :=
  fld 31 0 h = 0x4F485242 && versionOk (fld 47 40 h * 10 + fld 39 32 h) && fld 39 32 h ≤ 9 && fld 63 48 h = 0 && fld 191 176 h = 0 &&
  fld 511 320 h = 0 && 1 ≤ fld 175 160 h && fld 159 128 h % 16 = 0 && fld 255 192 h % 64 = 0

/-- A kernel header is in form (Table 2.13), in an object with header `h`. -/
def headerOk (h k : Nat) (ksize : Nat) : Bool :=
  fld 31 0 k = 0x4B485242 && fld 47 32 k = fld 47 32 h && fld 63 51 k = 0 && fld 319 312 k = 0 && fld 399 392 k = 0 &&
  fld 767 560 k = 0 && fld 559 504 k = 0 && fld 495 464 k ≤ 65536 && fld 391 384 k ≤ 32 && fld 383 376 k ≤ 12 &&
  fld 375 372 k ≤ 3 && 1 ≤ fld 371 368 k && fld 371 368 k ≤ 8 && 1 ≤ fld 311 288 k && fld 287 256 k % 16 = 0 &&
  fld 343 320 k < fld 311 288 k && (fld 367 344 k = 0xFFFFFF || fld 367 344 k < fld 311 288 k) &&
  fld 223 192 k + fld 255 224 k ≤ ksize && fld 287 256 k + 16 * fld 311 288 k ≤ ksize

/-- Two extents share no byte. -/
def apart (a b : Nat × Nat) : Bool := a.2 = 0 || b.2 = 0 || a.1 + a.2 ≤ b.1 || b.1 + b.2 ≤ a.1

/-- No two extents of a list share a byte. -/
def allApart : List (Nat × Nat) → Bool
  | [] => true
  | a :: r => r.all (apart a) && allApart r

/-! ## Segments (R30 to R34) -/

/-- A segment-table entry, if its RSV bits and length are in form. -/
def segOf (e : Nat) : Option Seg :=
  if fld 127 118 e = 0 ∧ fld 95 83 e = 0 ∧ fld 63 56 e = 0 ∧ 1 ≤ fld 55 32 e then
    some { off := fld 31 0 e, len := fld 55 32 e, prio := fld 79 64 e, entry := bitOf 80 e, loopH := bitOf 81 e, trapH := bitOf 82 e }
  else none

/-- Checks a segment's extent (R30, R31): whole instructions up to its one terminator, or up to a trap point (R26). -/
def segScan (fm ver : Nat) (segs : List Seg) (trapH : Bool) : Nat → List Byte → Bool
  | 0, _ => false
  | fuel + 1, bs =>
    match decodeBurhus fm ver bs with
    | .error .truncated => false
    | .error _ => true
    | .ok (i, rest) =>
      match termNames i with
      | none => segScan fm ver segs trapH fuel rest
      | some ns =>
        rest.isEmpty && (trapH || (match i with | .rft _ => false | _ => true)) &&
        ns.all fun x => x.1 + x.2 ≤ segs.length && ((segs.drop x.1).take x.2).all fun t => t.trapH == trapH

/-- The segment table's own checks (R34). -/
def segsOk (segs : List Seg) (codeLen entry : Nat) (trap : Option Nat) : Bool :=
  segs.all (fun g => g.off + g.len ≤ codeLen) && allApart (segs.map fun g => (g.off, g.len)) &&
  (segs.filter (·.entry)).length = 1 &&
  (match segs[entry]? with | some g => g.entry && !g.trapH | none => false) &&
  (match trap with | some t => (match segs[t]? with | some g => g.trapH | none => false) | none => true)

/-! ## Admission (R38, R39) -/

/-- CHASH over a kernel's bytes, with its own field as zero, and the constant pool. -/
def chashOf (kb pool : List Byte) : BitVec 128 :=
  BitVec.ofNat 128 (leNat (shake256 (kb.take 8 ++ List.replicate 16 0 ++ kb.drop 24 ++ pool) 16))

/-- The kernel that a snapshot holds, if every check of R39 passes: object header, directory, kernel bytes, pool. -/
def kernelOf (fm asid kobj kidx : Nat) (h : Nat) (dir : List Nat) (kb pool : List Byte) : Option Kernel :=
  let ext := fun (e : Nat) => (fld 63 0 e, fld 95 64 e)
  let kh := leNat (kb.take 96)
  let os := fld 127 64 h
  let parts := [(0, 64), (fld 159 128 h, 16 * fld 175 160 h), (fld 255 192 h, fld 319 256 h)]
  let segs := (List.range (fld 311 288 kh)).map fun i => segOf (leNat ((kb.drop (fld 287 256 kh + 16 * i)).take 16))
  let trap := if fld 367 344 kh = 0xFFFFFF then none else some (fld 367 344 kh)
  let ver := fld 47 40 h * 10 + fld 39 32 h
  let code := (kb.drop (fld 223 192 kh)).take (fld 255 224 kh)
  if !(dir.all fun e => fld 127 96 e = 0 && fld 63 0 e % 64 = 0) then none
  else if !(parts ++ dir.map ext).all (fun x => x.1 + x.2 ≤ os) then none
  else if !(dir.all (fun e => parts.all (apart (ext e))) && allApart (dir.map ext)) then none
  else if kb.length < 96 || !headerOk h kh kb.length || segs.any Option.isNone then none
  else
    let segs := segs.filterMap id
    if !segsOk segs (fld 255 224 kh) (fld 343 320 kh) trap then none
    else if !segs.all (fun g => segScan fm ver segs g.trapH (g.len + 1) ((code.drop g.off).take g.len)) then none
    else if chashOf kb pool ≠ BitVec.ofNat 128 (fld 191 64 kh) then none
    else some {
      asid := asid, kobj := kobj, kidx := kidx, version := ver, hash := chashOf kb pool, code := code, segs := segs, pool := pool
      entrySeg := fld 343 320 kh, trapSeg := trap, stages := fld 371 368 kh, vbudget := fld 375 372 kh
      scratch := fld 463 432 kh, stageb := fld 391 384 kh, fifob := fld 383 376 kh, paramSz := fld 495 464 kh
      features := fld 503 496 kh, elastic := bitOf 48 kh, noGroom := bitOf 50 kh, noSpec := bitOf 49 kh }

/-- Takes the snapshot of an object and admits a kernel of it; none where it is refused or cannot be read (15 R313). -/
def admitRead (asid kobj kidx : Nat) (s : State) : State × Option Kernel :=
  match readCtx asid kobj 64 s with
  | (s, .error _) => (s, none)
  | (s, .ok hb) =>
    let h := leNat hb
    if !objectOk h || fld 175 160 h ≤ kidx then (s, none)
    else
      match readCtx asid (kobj + fld 159 128 h) (16 * fld 175 160 h) s with
      | (s, .error _) => (s, none)
      | (s, .ok db) =>
        let dir := (List.range (fld 175 160 h)).map fun i => leNat ((db.drop (16 * i)).take 16)
        let e := dir.getD kidx 0
        if fld 127 64 h < fld 63 0 e + fld 95 64 e ∨ fld 127 64 h < fld 255 192 h + fld 319 256 h then (s, none)
        else
          match readCtx asid (kobj + fld 63 0 e) (fld 95 64 e) s with
          | (s, .error _) => (s, none)
          | (s, .ok kb) =>
            match readCtx asid (kobj + fld 255 192 h) (fld 319 256 h) s with
            | (s, .error _) => (s, none)
            | (s, .ok pool) => (s, kernelOf (s.fn (s.fnOf asid)).fmask asid kobj kidx h dir kb pool)

/-- Keeps the outcome of an admission as the newest one of its object and index. -/
def noteKernel (k : Kernel) (s : State) : State :=
  s.modPkg fun p => { p with
    kernels := k :: p.kernels.filter fun x => !(x.asid = k.asid && x.kobj = k.kobj && x.kidx = k.kidx) }

/-- Admits a kernel, or refuses it. -/
def admitKernel (asid kobj kidx : Nat) (s : State) : State × Option Kernel :=
  match admitRead asid kobj kidx s with
  | (s, some k) => (noteKernel k s, some k)
  | (s, none) => (noteKernel { asid := asid, kobj := kobj, kidx := kidx, refused := true } s, none)

/-- ADMISSION (R39). -/
def execAdmission (asid kobj kidx : Nat) (s : State) : Host.Outcome State Fault Refusal := .next (admitKernel asid kobj kidx s).1

end Sys2Proof.Machine
end

