-- ==== Sys2Proof/Machine/Validate.lean ====
section
/-!
DEFINITION. Translation packages and their validation (spec/17_translation_contract.md R348, R352; spec/03_fjoset_bundles.md
R60 and the rules on native code that R352 names).
-/
namespace Sys2Proof.Machine

/-! ## Packages (R348) -/

/-- The parts of a package: the fields of its header (Table 17.2), its sections, and the bytes before its signature. -/
structure XPkg where
  header : Nat
  code : List (BitVec 512)
  side : List Byte
  entries : List Nat
  twins : List (Nat × Nat)
  body : List Byte
  sig : List Byte
  deriving DecidableEq, Repr

def XPkg.codeLen (x : XPkg) : Nat := fld 383 352 x.header
def XPkg.entryE (x : XPkg) : Nat := fld 351 328 x.header
def XPkg.trapE (x : XPkg) : Nat := fld 327 304 x.header
def XPkg.stages (x : XPkg) : Nat := fld 303 300 x.header
def XPkg.groomed (x : XPkg) : Bool := bitOf 211 x.header
def XPkg.fmask (x : XPkg) : Nat := fld 210 203 x.header
def XPkg.vbc (x : XPkg) : Nat := fld 202 201 x.header
def XPkg.chash (x : XPkg) : Nat := fld 191 64 x.header
def XPkg.tver (x : XPkg) : Nat := fld 63 48 x.header

/-- A length rounded up to the next 64-byte boundary. -/
def pad64 (n : Nat) : Nat := (n + 63) / 64 * 64

/-- A 64-byte header is in form (Table 17.2). -/
def xHeaderOk (h : Nat) : Bool :=
  fld 31 0 h = 0x58504A46 && fld 39 32 h = 1 && fld 47 40 h = 4 && fld 200 192 h = 0 && fld 223 212 h = 0 && fld 299 244 h = 0 &&
  1 ≤ fld 303 300 h && fld 303 300 h ≤ 8 && 1 ≤ fld 383 352 h && 1 ≤ fld 447 416 h && fld 447 416 h ≤ 16777215 &&
  fld 511 480 h ≤ 1280 && (fld 511 480 h ≠ 0 || fld 243 224 h = 0) && fld 351 328 h < fld 447 416 h && (fld 327 304 h = 0xFFFFFF || fld 327 304 h < fld 447 416 h)

/-- The lengths of a package's sections as its header has them, and where a section stands. -/
def pkgLens (h : Nat) : List Nat := [64 * fld 383 352 h, fld 415 384 h, 8 * fld 447 416 h, 8 * fld 479 448 h, fld 511 480 h]
def pkgAt (h i : Nat) : Nat := 64 + (((pkgLens h).take i).map pad64).sum

/-- The parts of a package's bytes, if they hold its sections. -/
def cutPkg (bs : List Byte) : Option XPkg :=
  let h := leNat (bs.take 64)
  let at_ := pkgAt h
  let sec := fun (i : Nat) => (bs.drop (at_ i)).take ((pkgLens h).getD i 0)
  if bs.length < 64 || bs.length < at_ 4 + fld 511 480 h then none
  else some {
    header := h
    code := (List.range (fld 383 352 h)).map fun i => BitVec.ofNat 512 (leNat (((sec 0).drop (64 * i)).take 64))
    side := sec 1
    entries := (List.range (fld 447 416 h)).map fun i => leNat (((sec 2).drop (8 * i)).take 8)
    twins := (List.range (fld 479 448 h)).map fun i =>
      let e := leNat (((sec 3).drop (8 * i)).take 8)
      (fld 31 0 e, fld 63 32 e)
    body := bs.take (at_ 4)
    sig := sec 4 }

/-- The parts of a package's bytes, if its header and sections are in form: each section is padded with zeros to the next 64-byte boundary. -/
def parsePkg (bs : List Byte) : Option XPkg :=
  let h := leNat (bs.take 64)
  let len := fun (i : Nat) => (pkgLens h).getD i 0
  let zero := fun (i : Nat) => ((bs.drop (pkgAt h i + len i)).take (pad64 (len i) - len i)).all (· == 0)
  if !xHeaderOk h || bs.length < pkgAt h 5 || !(List.range 5).all zero then none else cutPkg bs

/-- NHASH (R349). -/
def XPkg.nhash (x : XPkg) : BitVec 128 := BitVec.ofNat 128 (leNat (shake256 x.body 16))

/-! ## The side table (03 R60) -/

/-- A location record is in form (Table 3.16). -/
def locOk (r : Nat) : Bool :=
  let k := fld 25 22 r
  k ≤ 7 && fld 63 46 r = 0 && (k = 7 || fld 127 64 r = 0) && (k = 2 || k = 6 || fld 45 36 r = 0)

/-- The commit-point entries of a side table, if its header, entries and records are in form. -/
def sideOf (bs : List Byte) (khash : Nat) : Option (List CPoint) :=
  let h := leNat (bs.take 32)
  let locoff := fld 127 96 h
  let loccnt := fld 95 64 h
  let word := fun (o : Nat) => leNat ((bs.drop o).take 16)
  let es := (List.range (fld 63 40 h)).map fun i => word (32 + 16 * i)
  if bs.length < 32 || fld 31 0 h ≠ 0x42545346 || fld 39 32 h ≠ 1 || fld 255 128 h ≠ khash || locoff % 16 ≠ 0 ||
     bs.length < 32 + 16 * fld 63 40 h || bs.length < locoff + 16 * loccnt then none
  else
    let locs := (List.range loccnt).map fun i => word (locoff + 16 * i)
    if !(es.all fun e => fld 63 32 e + fld 79 64 e ≤ loccnt) || !locs.all locOk ||
       !((List.zip es (es.drop 1)).all fun p => fld 31 0 p.1 < fld 31 0 p.2) then none
    else some (es.map fun e => {
      bidx := fld 31 0 e, seg := fld 127 104 e, boff := fld 103 80 e
      locs := ((locs.drop (fld 63 32 e)).take (fld 79 64 e)).map (BitVec.ofNat 128) })

/-! ## Flow of control through a package -/

/-- A place on a path: a bundle; the target of a taken BRT with the delay bundles left, this one included; what the path fixes of lp0
and lp1 (end, start, count left, 0 inactive); and what it fixes of an RPT (first body bundle, returns left, cycles to the next body issue,
cycles that the returns not walked take). -/
structure Place where
  pos : Nat
  pend : Option (Nat × Nat) := none
  lp0 : Option (Nat × Nat × Nat) := none
  lp1 : Option (Nat × Nat × Nat) := none
  rpt : Option (Nat × Nat × Nat × Nat) := none
  deriving DecidableEq, Repr

/-- What a path fixes of a loop register. -/
def Place.lp (x : Place) (l : Bool) : Option (Nat × Nat × Nat) := if l then x.lp1 else x.lp0
def Place.setLp (x : Place) (l : Bool) (v : Option (Nat × Nat × Nat)) : Place := if l then { x with lp1 := v } else { x with lp0 := v }

/-- The place alone, without what its path fixes of counts. -/
def Place.bare (x : Place) : Place := { pos := x.pos, pend := x.pend }

/-- The target of a PBR at bundle `p` (14 R295). -/
def pbrTarget (p : Nat) (f : BSlot) : Nat :=
  if bitOf 17 f.opnd.toNat then f.imx.toNat else wrapI 32 ((p : Int) + sInt 17 (fld 16 0 f.opnd.toNat))

/-- What a bundle's B slot does to control. -/
def bOps (b : Bundle) : List Instr := b.slots.filter fun i => match i with
  | .pbr _ | .brt _ | .send _ | .halt _ | .lpset _ | .lpclr _ | .rpt _ | .cmt _ | .cmtSwap _ | .barGNative _ | .barKNative _
  | .yieldNative _ | .rftNative _ => true
  | _ => false

/-- Decoded code with the loops that it sets (end bundle, register, start), and the counts of its LPSETs, by bundle, where the code fixes
them. -/
structure VCode where
  bs : Array Bundle
  loops : List (Nat × Bool × Nat)
  counts : List (Nat × Nat) := []
  deriving DecidableEq, Repr

def VCode.at_ (v : VCode) (i : Nat) : Bundle := v.bs.getD i {}

/-- The loops of a code. -/
def loopsOf (bs : Array Bundle) : List (Nat × Bool × Nat) :=
  (List.range bs.size).flatMap fun p => (bOps (bs.getD p {})).filterMap fun i => match i with
    | .lpset f => some (p + fld 13 0 f.opnd.toNat, bitOf 19 f.opnd.toNat, p + 1)
    | _ => none

/-- The value of an s register that every write of it in a code gives it: the same unguarded MOVI. -/
def constS (bs : Array Bundle) (r : Nat) : Option Nat :=
  let ws := bs.toList.flatMap fun b => ((bundleOps b).filter fun i => (regsOf i).2.contains (rk .s r)).map fun i => match i with
    | .movi (.s f) => if f.ge || decide (tyWidth f.ty.toNat < 32) then none else some f.imx.toNat
    | _ => none
  match ws.eraseDups with
  | [some n] => some n
  | _ => none

/-- The counts of LPSETs that the code fixes. -/
def countsOf (bs : Array Bundle) : List (Nat × Nat) :=
  (List.range bs.size).filterMap fun p => (bOps (bs.getD p {})).findSome? fun i => match i with
    | .lpset f => (constS bs (fld 18 14 f.opnd.toNat)).map fun n => (p, n)
    | _ => none

/-- The code of decoded bundles. -/
def codeOf (bs : Array Bundle) : VCode := { bs := bs, loops := loopsOf bs, counts := countsOf bs }

/-- An M slot of one macro-operation that a repetition may repeat: its steps. -/
def mxSteps (b : Bundle) : Option Nat := b.slots.findSome? fun i => match i with | .mx f | .mxs f => some (f.nstep.toNat + 1) | _ => none

/-- The RPTA bundles that follow bundle `p`. -/
def VCode.body (v : VCode) (p : Nat) : Nat := ((List.range 33).find? fun i => !(v.at_ (p + 1 + i)).head.rpta).getD 33

/-- The starts to which the marks of bundle `p` may return (14 R299). -/
def VCode.returns (v : VCode) (p : Nat) : List Nat :=
  let h := (v.at_ p).head
  (v.loops.filter fun l => l.1 = p && (if l.2.1 then h.le1 else h.le0)).map fun l => l.2.2

/-- Where the bundle after a bundle with no transfer may stand: at a loop's end its start or the next bundle, as far as the path fixes
the count (14 R299). -/
def VCode.seq (v : VCode) (x : Place) : List Place :=
  let h := (v.at_ x.pos).head
  let nxt : Place := { x with pos := x.pos + 1 }
  if !h.le0 && !h.le1 then [nxt]
  else
    match x.lp h.le1 with
    | none => nxt :: (v.returns x.pos).map fun p => { x with pos := p }
    | some (e, st, n) =>
      if e ≠ x.pos then [nxt]
      else if 1 < n then [{ x with pos := st }.setLp h.le1 (some (e, st, n - 1))]
      else [nxt.setLp h.le1 (some (e, st, 0))]

/-- After a bundle of an RPT or its body: the body issues again for each repetition (10 R213), at least as many cycles after the last as a
repetition has steps. The first and the last return stand for those between. -/
def VCode.again (v : VCode) (x : Place) : List (Place × Nat) :=
  let b := v.at_ x.pos
  let steps := fun (n : Nat) => (mxSteps b).getD 1 * n
  match b.slots.findSome? fun i => match i with | .rpt f => some (fld 19 8 f.opnd.toNat + 1) | _ => none with
  | some n =>
    let len := v.body x.pos
    if len = 0 then (v.seq x).map fun y => (y, steps (n - 1))
    else
      let gap := max (steps 1) len - len
      let st : Option (Nat × Nat × Nat × Nat) :=
        if n = 1 then none else if n = 2 then some (x.pos + 1, 1, gap, 0) else some (x.pos + 1, 2, gap, (n - 3) * max (steps 1) len)
      (v.seq x).map fun y => ({ y with rpt := st }, 0)
  | none =>
    match x.rpt with
    | some (st, left, gap, rest) =>
      if b.head.rpta && !(v.at_ (x.pos + 1)).head.rpta then
        if left = 1 then [({ x with pos := st, rpt := none }, gap + rest)] else [({ x with pos := st, rpt := some (st, left - 1, gap, rest) }, gap)]
      else (v.seq x).map fun y => (y, 0)
    | none => (v.seq x).map fun y => (y, 0)

/-- Where control may go after the bundle of a place, and the cycles beyond the next in which no bundle issues; `bt k` are the targets that
b(k) may hold. -/
def VCode.nexts (v : VCode) (bt : Nat → List Nat) (x : Place) : List (Place × Nat) :=
  match x.pend with
  | some (t, 1) => [({ pos := t }, 0)]
  | some (t, n) => [({ x with pos := x.pos + 1, pend := some (t, n - 1) }, 0)]
  | none =>
    match (bOps (v.at_ x.pos)).head? with
    | some (.brt f) =>
      ((bt (fld 19 18 f.opnd.toNat)).map fun t => ({ pos := x.pos + 1, pend := some (t, 2) }, 0)) ++
        (if f.ge then (v.seq x).map fun y => (y, 0) else [])
    | some (.lpset f) =>
      let l := bitOf 19 f.opnd.toNat
      let e := x.pos + fld 13 0 f.opnd.toNat
      let skip : Place × Nat := ({ x with pos := e + 1 }.setLp l (some (e, x.pos + 1, 0)), 2)
      match (v.counts.find? fun c => c.1 = x.pos).map Prod.snd with
      | none => skip :: (v.seq x).map fun y => (y.setLp l none, 0)
      | some 0 => [skip]
      | some n => (v.seq x).map fun y => (y.setLp l (some (e, x.pos + 1, n)), 0)
    | some (.send _) | some (.halt _) => []
    | _ => v.again x

/-- Where control may go after the bundle of a place, whatever its path. -/
def VCode.succs (v : VCode) (bt : Nat → List Nat) (x : Place) : List Place := ((v.nexts bt x).map fun y => y.1.bare).eraseDups

/-- The targets that the b registers may hold at each place: pairs of a place and a register's target. -/
abbrev BSets := List (Place × List (Nat × Nat))

/-- The targets of b(k) at a place. -/
def BSets.get (m : BSets) (x : Place) : List (Nat × Nat) := match m.find? fun e => e.1 = x with | some e => e.2 | none => []

/-- Adds targets at a place; the answer says whether anything is new. -/
def BSets.add (m : BSets) (x : Place) (ts : List (Nat × Nat)) : BSets × Bool :=
  match m.find? fun e => e.1 = x with
  | some e =>
    let n := ts.filter fun t => !e.2.contains t
    if n = [] then (m, false) else (m.map fun y => if y.1 = x then (x, e.2 ++ n) else y, true)
  | none => ((x, ts) :: m, true)

/-- Spreads targets from a work list until nothing is new. -/
def spread (v : VCode) : Nat → List Place → BSets → BSets
  | 0, _, m => m
  | _, [], m => m
  | n + 1, x :: work, m =>
    let cur := m.get x
    let bt := fun (k : Nat) => (cur.filter fun t => t.1 = k).map Prod.snd
    let out := (bOps (v.at_ x.pos)).foldl (fun (o : List (Nat × Nat)) i => match i with
      | .pbr f => (o.filter fun t => t.1 ≠ fld 19 18 f.opnd.toNat) ++ [(fld 19 18 f.opnd.toNat, pbrTarget x.pos f)]
      | _ => o) cur
    let nx := (v.succs bt x).filter fun y => y.pos < v.bs.size
    let (m, ws) := nx.foldl (fun (a : BSets × List Place) y =>
      let (m, new) := a.1.add y out
      (m, if new then a.2 ++ [y] else a.2)) (m, work)
    spread v n ws m

/-- Where control enters regions from outside: the entries, and what follows a commit point, with the transfer or repeat prefix that its own bundle leaves
pending (03 R59). -/
def VCode.openings (v : VCode) (entries : List Nat) (m : BSets) : List Place :=
  let after := fun (p : Nat) => (v.nexts (fun k => ((m.get { pos := p }).filter fun t => t.1 = k).map Prod.snd) { pos := p }).map fun y => y.1
  ((entries.map fun p => ({ pos := p } : Place)) ++ (List.range v.bs.size).flatMap fun p => if hasCommit (v.at_ p) then after p else []).eraseDups.filter
    fun x => x.pos < v.bs.size

/-- The bundles from which targets of b registers spread: the entries, and the bundles after commit points. -/
def VCode.starts (v : VCode) (entries : List Nat) : List Nat :=
  (entries ++ (List.range v.bs.size).flatMap fun p => if hasCommit (v.at_ p) then [p + 1] else []).eraseDups.filter (· < v.bs.size)

/-! ## Paths in a commit region (R50, R51, R58) -/

/-- Results in flight along a path: register key, and cycles until the deadline. -/
abbrev Flights := List (Nat × Nat)

def Flights.merge (a b : Flights) : Flights :=
  b.foldl (fun m e => match m.find? fun x => x.1 = e.1 with
    | some x => if x.2 < e.2 then m.map fun y => if y.1 = e.1 then e else y else m
    | none => e :: m) a

/-- A move that the count of 256 bundles follows: onward, a transfer, or a return of a loop whose count the path fixes; an RPT's body issued again
does not count (R58). -/
def countedMove (x y : Place) : Bool :=
  decide (x.pos < y.pos) || (x.pend.any fun t => t.2 = 1) || (x.rpt.isNone && (x.lp0 ≠ y.lp0 || x.lp1 ≠ y.lp1))

/-- The places reached by the next bundle of every path, or of every path whose moves are counted (`fwd`), each with what may be in
flight there. -/
def levelNext (v : VCode) (m : BSets) (fwd : Bool) (l : List (Place × Flights)) : List (Place × Flights) :=
  l.foldl (fun (acc : List (Place × Flights)) x =>
    let b := v.at_ x.1.pos
    if hasCommit b && x.1.pend.isNone then acc
    else
      let all := if fwd then [] else Flights.merge x.2 ((bundleOps b).flatMap fun i => (writesOf i).map fun w => (w.1, w.2.2))
      let bt := fun (k : Nat) => ((m.get x.1.bare).filter fun t => t.1 = k).map Prod.snd
      let x' := if fwd then { x.1 with rpt := none } else x.1
      ((v.nexts bt x').filter fun y => y.1.pos < v.bs.size && (!fwd || countedMove x' y.1)).foldl (fun (a : List (Place × Flights)) yc =>
        let y := yc.1
        let fl := all.filterMap fun e => if 1 + yc.2 < e.2 then some (e.1, e.2 - 1 - yc.2) else none
        match a.find? fun e => e.1 = y with
        | some e => a.map fun z => if z.1 = y then (y, Flights.merge e.2 fl) else z
        | none => a ++ [(y, fl)]) acc) []

/-- A bundle reads a register in flight, or writes one before an earlier write lands. -/
def lateUse (v : VCode) (x : Place × Flights) : Bool :=
  let all := bundleOps (v.at_ x.1.pos)
  (all.flatMap fun i => (regsOf i).1).any (fun k => x.2.any fun e => e.1 = k) ||
  (all.flatMap writesOf).any fun w => x.2.any fun e => e.1 = w.1 && w.2.2 < e.2

/-- On some path of at most 256 bundles of a region, loop-end returns included, R50 fails. A repeat prefix issues its body at most twice more on a path (`again`),
which does not count; the levels allow for it. -/
def walkRegion (v : VCode) (m : BSets) : Nat → List (Place × Flights) → Bool
  | _, [] => false
  | 0, _ => false
  | n + 1, l => l.any (lateUse v) || walkRegion v m n (levelNext v m false l)

/-- Some counted path of a region has more than 256 bundles (R58 obligation 2): how often a loop runs whose count the code does not fix
is left to the core's own count (Table 17.4; log 38). -/
def overruns (v : VCode) (m : BSets) : Nat → List (Place × Flights) → Bool
  | _, [] => false
  | 0, _ => true
  | n + 1, l => overruns v m n (levelNext v m true l)

/-! ## Rules on single bundles and their neighbours -/

/-- Bundles that are delay bundles of a BRT: the two after it. -/
def VCode.isDelay (v : VCode) (p : Nat) : Bool :=
  [1, 2].any fun d => d ≤ p && (bOps (v.at_ (p - d))).any fun i => match i with | .brt _ => true | _ => false

/-- An operation of the buffer (11 R227). -/
def appends : Instr → Bool
  | .st _ | .stl _ | .sts _ | .bind _ | .unbind _ | .cpy _ | .cpy2 _ | .gath _ | .coll _ | .csrwBkm _ | .csrwFcb _ => true
  | _ => false

def isB (t : Instr → Bool) (b : Bundle) : Bool := b.slots.any t
def isBrt : Instr → Bool | .brt _ => true | _ => false
def isLpset : Instr → Bool | .lpset _ => true | _ => false
def isEndB : Instr → Bool | .send _ | .halt _ => true | _ => false
def isRptB : Instr → Bool | .rpt _ => true | _ => false
def isOrderedL : Instr → Bool | .atom _ | .cas _ => true | _ => false
def isRelFence : Instr → Bool | .rel _ | .fence _ => true | _ => false
def isSealGate : Instr → Bool | .seal _ | .gate _ => true | _ => false
def isBar : Instr → Bool | .barGNative _ | .barKNative _ => true | _ => false
def isRft : Instr → Bool | .rftNative _ => true | _ => false
def isPost : Instr → Bool | .postSelf .. | .postCore .. => true | _ => false
def isMSlot : Instr → Bool | .mx _ | .mxs _ | .mxr _ | .mxz _ => true | _ => false
def isLpclr : Instr → Bool | .lpclr _ => true | _ => false
def isSpOp : Instr → Bool
  | .ld (.l f) | .ldl (.l f) => bitOf 0 f.aop.toNat
  | _ => false

/-- The rules of R352 on bundle `p`, in order, each with what breaks it. -/
def bundleRules (v : VCode) (signed : Bool) (vbc p : Nat) : List (String × Bool) :=
  let b := v.at_ p
  let all := bundleOps b
  let d := v.isDelay p
  let cm := hasCommit b
  let ws := all.flatMap writesOf
  let marks := b.head.le0 || b.head.le1
  let n := v.body p
  [("R51", ws.any (fun w => w.2.2 < w.2.1) || (ws.map Prod.fst).eraseDups.length ≠ ws.length),
   ("R56", overBudget vbc all),
   ("R58", cm && (d || b.head.rpta)),
   ("R64", d && (isB isBrt b || isB isLpset b || marks)),
   ("R214",
      (isB isRptB b && ((mxSteps b).isNone || d || decide (32 < n) ||
        b.slots.any fun i => match i with | .rpt f => decide (4096 < (fld 19 8 f.opnd.toNat + 1) * (mxSteps b).getD 1) | _ => false)) ||
      (b.head.rpta && ((p = 0 || !((v.at_ (p - 1)).head.rpta || isB isRptB (v.at_ (p - 1)))) || isB isMSlot b || isB isBrt b ||
        isB isLpset b || isB isLpclr b || isB isEndB b || isB isRptB b || marks || cm))),
   ("R227", b.head.rpta && all.any appends),
   ("R232", isB isOrderedL b && !cm),
   ("R235", !signed && isB isSpOp b),
   ("R255", isB isRelFence b && !cm),
   ("R297", d && all.any (voidInDelay false)),
   ("R300", (b.head.le0 && b.head.le1) || (marks && (isB isBrt b || isB isEndB b)) ||
      (bOps b).any fun i => match i with
        | .lpset f =>
          let e := p + fld 13 0 f.opnd.toNat
          decide (v.bs.size ≤ e) || !(if bitOf 19 f.opnd.toNat then (v.at_ e).head.le1 else (v.at_ e).head.le0)
        | _ => false),
   ("R308", all.any isPost && !cm),
   ("R294", isB isEndB b && !cm),
   ("R271", isB isSealGate b && !cm),
   ("R301", isB isBar b && !cm),
   ("R363", isB isRft b && !cm)]

/-- The first broken rule of a list. -/
def firstBroken (l : List (String × Bool)) : Option String := (l.find? fun r => r.2).map Prod.fst

/-- The entry table is in form (14 R293). -/
def entriesOk (v : VCode) (es : List Nat) : Bool :=
  es.all fun e => fld 63 48 e = 0 && (fld 31 0 e = exitMark || (fld 31 0 e < v.bs.size && (v.at_ (fld 31 0 e)).head.entry))

/-- The bundles of the region that begins at some places. -/
def regionBundles (v : VCode) (m : BSets) : Nat → List (Place × Flights) → List Nat
  | 0, _ => []
  | _, [] => []
  | n + 1, l => l.map (fun x => x.1.pos) ++ regionBundles v m n (levelNext v m true l)

/-- The twin map is in form: each twin is an entry, and its region holds no SP load; and every SP load is in a region that has a twin
(Table 17.4; 11 R235). -/
def twinsOk (v : VCode) (m : BSets) (ts : List (Nat × Nat)) : Bool :=
  let region := fun (p : Nat) => regionBundles v m 256 [({ pos := p }, [])]
  let sp := (List.range v.bs.size).filter fun p => isB isSpOp (v.at_ p)
  ts.all (fun t => t.1 < v.bs.size && t.2 < v.bs.size && (v.at_ t.2).head.entry && (sp.isEmpty || (region t.2).all fun p => !sp.contains p)) &&
  (sp.isEmpty || let own := ts.flatMap fun t => region t.1; sp.all own.contains)

/-- Loads that a region's straight way issues before each operation above which none may be hoisted (17 R346); none where the way divides. -/
def loadsBefore (v : VCode) (m : BSets) : Nat → Nat → List (Place × Flights) → Option (List Nat)
  | 0, _, _ => none
  | _, _, [] => some []
  | n + 1, seen, [x] =>
    let ops := bundleOps (v.at_ x.1.pos)
    let orders := ops.any fun i => match i with
      | .acq _ | .bind _ | .unbind _ => true
      | i => isOrderedL i || isRelFence i || isSealGate i
    let k := (ops.filter fun i => match i with | .ld _ | .ldl _ => true | _ => false).length
    (loadsBefore v m n (seen + k) (levelNext v m true [x])).map fun r => if orders then seen :: r else r
  | _, _, _ => none

/-- No region of a groomed package issues a load before an operation that its twin, in Burhus order, issues it after (17 R346), as far as the regions run
straight on. -/
def hoistsOk (x : XPkg) : Bool :=
  let bs : Array Bundle := (x.code.filterMap fun w => match decodeBundle 0 w with | .ok b => some b | .error _ => none).toArray
  let v := codeOf bs
  x.twins.all fun t =>
    match loadsBefore v [] 256 0 [({ pos := t.1 }, [])], loadsBefore v [] 256 0 [({ pos := t.2 }, [])] with
    | some a, some b => (List.zip a b).all fun y => y.1 ≤ y.2
    | _, _ => true

/-- Validates a package under a feature mask (R352): the rule that fails first, or its commit-point entries. -/
def validate (fm : Nat) (signed : Bool) (x : XPkg) : Except String (List CPoint) :=
  let ds := x.code.map (decodeBundle fm)
  if ds.any (fun d => match d with | .ok _ => false | .error _ => true) then .error "R45"
  else
    let bs : Array Bundle := (ds.filterMap fun d => match d with | .ok b => some b | .error _ => none).toArray
    let v := codeOf bs
    let es := (x.entries.map fun e => fld 31 0 e).filter (· < bs.size)
    let sts := v.starts (es ++ x.twins.flatMap fun t => [t.1, t.2])
    let m := spread v (64 * bs.size + 64) (sts.map fun p => { pos := p }) (sts.map fun p => (({ pos := p } : Place), []))
    let rules := (List.range bs.size).flatMap (bundleRules v signed x.vbc)
    let names := ["R51", "R56", "R58", "R64", "R214", "R227", "R232", "R235", "R255", "R297", "R300", "R308", "R294", "R271", "R301", "R363"]
    let broke := fun (n : String) => rules.any fun r => r.1 = n && r.2
    let opens := v.openings (es ++ x.twins.flatMap fun t => [t.1, t.2]) m
    let paths := fun (n : Nat) (f : Nat → List (Place × Flights) → Bool) => opens.any fun p => f n [(p, [])]
    let side := sideOf x.side x.chash
    let sideBad := match side with
      | none => true
      | some cs => (cs.map CPoint.bidx) ≠ (List.range bs.size).filter fun p => hasCommit (v.at_ p)
    match firstBroken (names.take 1 |>.map fun n => (n, broke n)) with
    | some n => .error n
    | none =>
      if paths 768 (walkRegion v m) then .error "R50"
      else match firstBroken (names.drop 1 |>.take 1 |>.map fun n => (n, broke n)) with
        | some n => .error n
        | none =>
          if paths 256 (overruns v m) || broke "R58" then .error "R58"
          else if sideBad then .error "R60"
          else if !entriesOk v x.entries then .error "R293"
          else if bs.size ≤ fld 31 0 (x.entries.getD x.entryE exitMark) then .error "R63"
          else match firstBroken (names.drop 3 |>.map fun n => (n, broke n)) with
            | some n => .error n
            | none => if twinsOk v m x.twins then .ok (side.getD []) else .error "R352"

end Sys2Proof.Machine
end

