-- ==== Sys2Proof/Machine/Launching.lean ====
section
/-!
DEFINITION. Launches (spec/15_execution_model_launch.md R311 to R318; spec/16_scheduling.md R325 to R329, R337 to R339): the queues,
the launch record, taking and starting, the completion of a launch, completion records and the event ring.
-/
namespace Sys2Proof.Machine

/-! ## Fields of the launch record (15 Table 15.1) -/

def recCq (r : Nat) : Nat := fld 645 644 r
def recSq (r : Nat) : Nat := fld 643 642 r
def recWq (r : Nat) : Nat := fld 641 640 r
def recEclr (r : Nat) : Nat := fld 639 576 r
def recEset (r : Nat) : Nat := fld 575 512 r
def recEwait (r : Nat) : Nat := fld 511 448 r
def recLtag (r : Nat) : Nat := fld 447 416 r
def recKobj (r : Nat) : Nat := fld 119 64 r
def recKidx (r : Nat) : Nat := fld 55 40 r
def recStages (r : Nat) : Nat := fld 19 16 r
def recFpol (r : Nat) : Nat := fld 14 13 r
def recPclass (r : Nat) : Nat := fld 12 11 r
def recPrio (r : Nat) : Nat := fld 10 8 r

/-- The checks of R311 and R312 that a record of queue `q` passes by itself. -/
def recordOk (q r : Nat) : Bool :=
  let v := fld 7 0 r
  fld 1023 646 r = 0 && fld 383 376 r = 0 && fld 319 299 r = 0 && fld 287 283 r = 0 && fld 191 184 r = 0 && fld 127 120 r = 0 &&
  fld 63 56 r = 0 && fld 39 34 r = 0 && !bitOf 23 r && 1 ≤ v && v ≤ 3 && recPrio r ≤ q && fld 415 384 r % 4 = 0 &&
  1 ≤ fld 298 288 r && fld 298 288 r ≤ 1024 && (fld 33 28 r ≤ 32 || fld 33 28 r = 63) && (fld 27 24 r ≤ 12 || fld 27 24 r = 15) &&
  fld 22 20 r ≤ 4 && recFpol r ≤ 1 && recPclass r ≤ 1 && (v = 3 || recLtag r = 0) &&
  (2 ≤ v || (recTbound r = 0 && !bitOf 15 r && recFpol r = 0))

/-! ## Completion records and the event ring (16 R337 to R339) -/

/-- The bytes of a completion record (Table 16.2). -/
def completionRec (stamp lidx q status ltag : Nat) (fflag unrun : Bool) (fkind fcause finfo : Nat) : List Byte :=
  leBytes 32 (stamp % 2 ^ 64 + lidx % 2 ^ 32 * 2 ^ 64 + q * 2 ^ 96 + fflag.toNat * 2 ^ 99 + unrun.toNat * 2 ^ 100 + status * 2 ^ 112 +
    ltag * 2 ^ 128 + fkind * 2 ^ 160 + fcause * 2 ^ 176 + finfo % 2 ^ 64 * 2 ^ 192)

/-- STATUS of a completion record. -/
def recordStatus (b : List Byte) : Nat := fld 127 112 (leNat b)

/-- Tests the waiting heads of a context's queues in the order of R329. -/
def testHeads (a : Nat) (s : State) : State :=
  let c := s.ctx a
  let heads := (List.range 8).filterMap fun q => (c.queues.get {} q).head.map fun n => (recPrio (s.launch n).bits, q)
  let order := (List.range 8).reverse.flatMap fun p => (heads.filter fun h => h.1 = p).reverse
  foldS order (fun h s => s.post s.now (.launchStart a h.2)) s

/-- Applies ESET of a launch whose record has been written (15 R316, R317). -/
def applyEset (n : Nat) (s : State) : State :=
  let l := s.launch n
  let r := l.bits
  let st := match l.status with | some x => x.1 | none => 0
  if st ≠ 4 ∧ (st = 0 ∨ recFpol r = 1) then
    testHeads l.asid (s.modCtx l.asid fun c => { c with evv := c.evv ||| BitVec.ofNat 256 (recEset r * 2 ^ (64 * recSq r)) })
  else s

/-- Raises the ring's interrupt. -/
def ringInterrupt (a : Nat) (s : State) : State :=
  raiseMsix (s.fnOf a) (s.ctx a).ring.vec.toNat (s.modCtx a fun c => { c with ring := { c.ring with pending := 0, firstAt := none } })

/-- Counts a written record and raises the interrupt where its trigger is reached (R339). -/
def ringTrigger (a : Nat) (fault : Bool) (s : State) : State :=
  let first := (s.ctx a).ring.pending = 0
  let s := s.modCtx a fun c => { c with ring := { c.ring with
    ewi := c.ring.ewi + 1, pending := c.ring.pending + 1, firstAt := if first then some s.now else c.ring.firstAt } }
  let r := (s.ctx a).ring
  if fault || r.ecnt.toNat + 1 ≤ r.pending then ringInterrupt a s
  else if first && r.etim ≠ 0 then s.post (s.now + usec r.etim.toNat) (.eventRingTimer a)
  else s

/-- Writes held records in order while the ring is enabled and has room (R338); one whose address does not translate clears
EN and is reported. -/
def flushRing (a : Nat) : Nat → State → State
  | 0, s => s
  | n + 1, s =>
    let r := (s.ctx a).ring
    match r.held with
    | [] => s
    | (b, ln) :: rest =>
      if !r.en || decide (4096 ≤ (r.ewi - r.eri).toNat) then s
      else
        let va := r.base.toNat * 4096 + 32 * (r.ewi.toNat % 4096)
        match svcTranslate a va .write s with
        | (s, .error _) => report "RING_FAULT" (some (s.fnOf a)) va (s.modCtx a fun c => { c with ring := { c.ring with en := false } })
        | (s, .ok p) =>
          let s := (physWrite {} p.pa b s).1
          let s := s.modCtx a fun c => { c with ring := { c.ring with held := rest } }
          let s := ringTrigger a (recordStatus b = 8) s
          flushRing a n (match ln with | some l => applyEset l s | none => s)

/-- Adds a record to a context's ring. -/
def postRecord (a : Nat) (b : List Byte) (ln : Option Nat) (s : State) : State :=
  let s := s.modCtx a fun c => { c with ring := { c.ring with held := c.ring.held ++ [(b, ln)] } }
  flushRing a ((s.ctx a).ring.held.length + 1) s

/-! ## Completion (12 R257; 15 R317) -/

/-- No engine command of a launch is left. -/
def cmdsDone (s : State) (n : Nat) : Bool := s.pkg.eng.all fun e => e.2.queue.all fun c => c.launch ≠ n

/-- The launch's crews and commands have ended. -/
def completable (s : State) (n : Nat) : Bool :=
  match s.pkg.launches.find? n with
  | none => false
  | some l => !l.complete && !l.abandoned && (l.status.isSome || (l.started && l.ended = l.grid)) && l.placed.isEmpty && l.suspended.isEmpty && cmdsDone s n

/-- A release at system scope of every write of the package's cores. -/
def releaseCores (s : State) : State :=
  foldS ((s.cores.filter fun c => c.2.dfifo ≠ [] || c.2.link ≠ []).map Prod.fst) (fun k s => linkAll k (drainCore k s)) s

/-- Kernels killed by an error count in ERRK (19 R389). -/
def killedByError (st : Nat × Nat × Nat × Nat) : Bool :=
  st.1 = 1 && (st.2.1 = 10 || st.2.1 = 11 || st.2.1 = 31 || (st.2.1 = 18 && (st.2.2.1 = 10 || st.2.2.1 = 11)))

/-- The gondola lines of a translation are pinned no longer than a launch of a locked partition runs it (03 R69). -/
def unpinCode (tr : Option Nat) (s : State) : State :=
  let locked := fun (l : Nat × Launch) => !l.2.complete && l.2.tr == tr && (s.part (s.fn (s.fnOf l.2.asid)).part).locked
  if tr.isNone || s.pkg.launches.any locked then s
  else s.modPkg fun p => { p with gondola := p.gondola.map fun d => (d.1, d.2.map fun x => if x.pin && some (lineCode s x.line).1 == tr then { x with pin := false } else x) }

/-- Writes a launch's completion record, with its event bits in the same step. A head that waits for it under 13 R273 is tested again. -/
def finishLaunch (n : Nat) (s : State) : State :=
  let l := s.launch n
  let st := l.status.getD (0, 0, 0, 0)
  let bad := st.1 = 4
  let b := completionRec s.tim l.lidx l.q st.1 (if bad then 0 else recLtag l.bits) (!bad && st.1 ≠ 0 && recFpol l.bits = 1) (!l.issued)
    (if st.1 = 1 then st.2.1 else 0) (if st.1 = 1 then st.2.2.1 else 0) (if st.1 = 1 then st.2.2.2 else 0)
  let s := s.modLaunch n fun l => { l with complete := true }
  let s := if killedByError st then s.modFn (s.fnOf l.asid) fun f => { f with errk := min (f.errk + 1) (2 ^ 64 - 1) } else s
  let s := unpinCode l.tr (callPlacement n (postRecord l.asid b (some n) s))
  if (s.ctx l.asid).recv && ((s.ctx l.asid).queues.get {} l.q).head.isSome then s.post s.now (.launchStart l.asid l.q) else s

/-- LAUNCH_COMPLETION (12 R257). -/
def execLaunchCompletion (launch : Nat) (s : State) : Host.Outcome State Fault Refusal :=
  .next (if completable s launch then finishLaunch launch (serveLinkFails (releaseCores s)) else s)

/-- TIME_BOUND (15 R315): a launch whose bound has run is killed. -/
def execTimeBound (launch : Nat) (s : State) : Host.Outcome State Fault Refusal :=
  .next (let l := s.launch launch
    let ran := l.ran + (match l.runSince with | some t => s.now - t | none => 0)
    if l.runSince.isSome && decide (timeLimit s launch ≤ ran) then endLaunch (2, 0, 0, 0) launch s else s)

/-- EVENT_RING_TIMER (16 R339). -/
def execEventRingTimer (asid : Nat) (s : State) : Host.Outcome State Fault Refusal :=
  .next (let r := (s.ctx asid).ring
    match r.firstAt with
    | some t => if r.etim ≠ 0 && 0 < r.pending && decide (t + usec r.etim.toNat ≤ s.now) then ringInterrupt asid s else s
    | none => s)

/-! ## Taking an entry (16 R326 to R328; 15 R311, R313, R318; 17 R351) -/

/-- Applies `f` to a queue. -/
def modQueue (a q : Nat) (f : Queue → Queue) (s : State) : State :=
  s.modCtx a fun c => { c with queues := c.queues.set {} q (f (c.queues.get {} q)) }

/-- Launches of a queue that have started and are not complete. -/
def openOf (s : State) (a q : Nat) : List (Nat × Launch) :=
  s.pkg.launches.filter fun l => l.2.asid = a && l.2.q = q && !l.2.complete && !l.2.abandoned

/-- A context that logs in recovery mode starts no launch 32 indices or more beyond an incomplete one of its queue (13 R273). -/
def windowOk (s : State) (a q : Nat) (lidx : BitVec 32) : Bool :=
  !(s.ctx a).recv || (openOf s a q).all fun l => (lidx - BitVec.ofNat 32 l.2.lidx).toNat < 32

/-- The dispatcher may look at the next entry of a queue. -/
def mayTake (s : State) (a q : Nat) : Bool :=
  let c := s.ctx a
  let qu := c.queues.get {} q
  c.live && qu.en && !qu.halt && qu.head.isNone && qu.widx ≠ qu.ridx && !c.stopped && !c.treeStop && !c.recovering && (openOf s a q).length < 256 &&
  (!assisted s (s.fn (s.fnOf a)).part 2 || 0 < qu.credit) && windowOk s a q qu.ridx

/-- A queue halts by itself (R327). -/
def queueFault (a q : Nat) (s : State) : State :=
  let r := ((s.ctx a).queues.get {} q).ridx.toNat
  postRecord a (completionRec s.tim r q 8 0 false true 0 0 0) none (modQueue a q (fun x => { x with halt := true }) s)

/-- A native reference resolves to an installed package (17 R351), in place of a kernel header. -/
def nativeRef (s : State) (a r : Nat) (kidx : Nat) : Option (Nat × Kernel) :=
  let f := s.fnOf a
  if fld 511 193 r ≠ 0 ∨ 65536 < fld 191 160 r ∨ kidx ≠ 0 then none
  else
    (List.find? (fun (t : Nat × Trans) =>
      t.2.nhash = BitVec.ofNat 128 (fld 159 32 r) && t.2.fns.contains f && t.2.key.dom.toNat = (s.fn f).tdom) s.pkg.trans).map fun t =>
      (t.1, {
        asid := a, kobj := 0, kidx := 0, hash := t.2.nhash, entrySeg := t.2.entryE, trapSeg := t.2.trapE, stages := t.2.stages
        vbudget := t.2.key.vbc.toNat, paramSz := fld 191 160 r, elastic := bitOf 192 r, fjoset := true })

/-- The crews that a core holds at a budget (03 R56). -/
def crewMax (vbc : Nat) : Nat := match vbc with | 0 => 16 | 1 => 8 | 2 => 5 | _ => 4

/-- Unfenced cores, or pairs, that a partition holds in a region. -/
def coresIn (s : State) (p g : Nat) : Nat :=
  if !bitOf g (s.part p).regm then 0
  else if (s.part p).pairs then ((List.range 4).filter fun i => !(s.core (8 * g + 2 * i)).fenced && !(s.core (8 * g + 2 * i + 1)).fenced).length
  else ((List.range 8).filter fun i => !(s.core (8 * g + i)).fenced).length

/-- A cluster of `g` groups is within what a partition holds in one region (the first row of Table 15.3). -/
def groupsFit (s : State) (p g : Nat) : Bool :=
  decide (g ≤ if (s.part p).pairs then 4 else 8) && decide (g ≤ (List.range 64).foldl (fun m r => max m (coresIn s p r)) 0)

/-- Table 15.3: the banks granted for scratch, FIFO, staging and elastic use, or none where the request is beyond the device. -/
def resources (s : State) (p : Nat) (g nc vbc scratch nf nb : Nat) (elastic : Bool) : Option (Nat × Nat) :=
  let ns := ceilDiv scratch 32768
  if !groupsFit s p g then none
  else if crewMax vbc < nc then none
  else if ns + nf ≤ 12 ∧ nb ≤ 32 then some (ns, 0)
  else if !elastic || 12 < nf then none
  else
    let ne := ceilDiv (scratch - 32768 * (12 - nf)) 196608
    if 32 < nb + ne then none else some (12 - nf, ne)

/-- A launch that completes unrun, with its status. -/
def unrun (n st : Nat) (s : State) : State := finishLaunch n (s.modLaunch n fun l => { l with status := some (st, 0, 0, 0) })

/-- A record's nonzero STAGES differs from the one in the header of the kernel that it names (15 R311), which is found through the object's
header and directory before the object is checked (log 30). -/
def stagesClash (a r : Nat) (s : State) : State × Bool :=
  if recStages r = 0 then (s, false)
  else
    match readCtx a (recKobj r) 64 s with
    | (s, .error _) => (s, false)
    | (s, .ok hb) =>
      let h := leNat hb
      if !objectOk h || fld 175 160 h ≤ recKidx r then (s, false)
      else
        match readCtx a (recKobj r + fld 159 128 h + 16 * recKidx r) 16 s with
        | (s, .error _) => (s, false)
        | (s, .ok eb) =>
          match readCtx a (recKobj r + fld 63 0 (leNat eb)) 96 s with
          | (s, .error _) => (s, false)
          | (s, .ok kb) => (s, fld 371 368 (leNat kb) ≠ recStages r)

/-- What the checks of R328 make of a record: the status that ends it unrun, or the launch. -/
def resolve (a q lidx r : Nat) (s : State) : State × Except Nat Launch :=
  let base : Launch := { asid := a, q := q, lidx := lidx, record := BitVec.ofNat 1024 r }
  let go := fun (s : State) (tr : Option Nat) (kn : Kernel) =>
    let fn := s.fn (s.fnOf a)
    let stages := if recStages r = 0 then kn.stages else recStages r
    let vbc := if fld 22 20 r = 0 then kn.vbudget else fld 22 20 r - 1
    let scratch := if fld 223 192 r = 0xFFFFFFFF then kn.scratch else fld 223 192 r
    let nf := if fld 27 24 r = 15 then kn.fifob else fld 27 24 r
    let nb := if fld 33 28 r = 63 then kn.stageb else fld 33 28 r
    let spg := fld 298 288 r
    let gps := fld 282 280 r + 1
    if stages ≠ kn.stages ∨ (kn.fjoset ∧ vbc ≠ kn.vbudget) then (s, Except.error 4)
    else if bitOf 7 fn.fmask ∧ 1 < stages then (s, .error 3)
    else match resources s fn.part (stages * gps) (ceilDiv spg 64) vbc scratch nf nb kn.elastic with
      | none => (s, .error 3)
      | some (ns, ne) => (s, .ok { base with
          kernel := some kn, fjoset := kn.fjoset, tr := tr, grid := fld 279 256 r + 1, gps := gps, stages := stages, spg := spg
          vbc := vbc, nscr := ns, nfifo := nf, nstage := nb, nelast := ne })
  if !recordOk q r then (s, .error 4)
  else
    match readCtx a (recKobj r) 4 s with
    | (s, .error _) => (s, .error 5)
    | (s, .ok m) =>
      if leNat m = 0x46524E46 then
        match readCtx a (recKobj r) 64 s with
        | (s, .error _) => (s, .error 5)
        | (s, .ok b) => match nativeRef s a (leNat b) (recKidx r) with
          | none => (s, .error 5)
          | some (t, kn) => go s (some t) kn
      else
        match stagesClash a r s with
        | (s, true) => (s, .error 4)
        | (s, false) =>
          match admitKernel a (recKobj r) (recKidx r) s with
          | (s, none) => (s, .error 5)
          | (s, some kn) => go s none kn

/-- Takes entry RIDX of a queue: the launch is held as the head, or completes unrun. -/
def takeEntry (a q : Nat) (s : State) : State :=
  let qu := (s.ctx a).queues.get {} q
  let va := (qu.qbase.toNat * 128 + 128 * (qu.ridx.toNat % 2 ^ qu.qlog.toNat)) % 2 ^ 56
  if 2 ^ qu.qlog.toNat < (qu.widx - qu.ridx).toNat then queueFault a q s
  else
    match readCtx a va 128 s with
    | (s, .error _) => queueFault a q s
    | (s, .ok b) =>
      let s := modQueue a q (fun x => { x with credit := x.credit - 1 }) s
      let n := s.pkg.nextLaunch
      let s := s.modPkg fun p => { p with nextLaunch := n + 1 }
      let lidx := qu.ridx.toNat
      match resolve a q lidx (leNat b) s with
      | (s, .ok l) =>
        let s := s.modPkg fun p => { p with launches := p.launches.put n l }
        (modQueue a q (fun x => { x with head := some n, headOld := false }) s).post s.now (.launchStart a q)
      | (s, .error st) =>
        let l : Launch := { asid := a, q := q, lidx := lidx, record := if st = 4 then 0 else BitVec.ofNat 1024 (leNat b) }
        let s := s.modPkg fun p => { p with launches := p.launches.put n l }
        modQueue a q (fun x => { x with ridx := x.ridx + 1 }) (unrun n st s)

/-- QUEUE_TAKE (16 R328). -/
def execQueueTake (asid q : Nat) (s : State) : Host.Outcome State Fault Refusal := .next (if mayTake s asid q then takeEntry asid q s else s)

/-! ## Starting (15 R316; 17 R340, R341) -/

/-- Partition of a context. -/
def State.partOfCtx (s : State) (a : Nat) : Nat := (s.fn (s.fnOf a)).part

/-- EVV allows the launch (R316). -/
def eligible (s : State) (l : Launch) : Bool :=
  fld (64 * recWq l.bits + 63) (64 * recWq l.bits) (s.ctx l.asid).evv.toNat &&& recEwait l.bits = recEwait l.bits

/-- Enabled functions of a partition. -/
def fnsOf (s : State) (p : Nat) : List Nat := (s.pkg.fns.filter fun f => f.2.en && f.2.part = p).map Prod.fst

/-- The partitions that an entry concerns: the one that it names; those of a window's members; every one that holds regions, where it is the
service's (05 R107). -/
def partsOfEntry (s : State) (e : BankEntry) : List Nat :=
  if bankMode e = 0 then []
  else if bankSvc e then (s.pkg.parts.filter fun p => p.2.regm ≠ 0).map Prod.fst
  else if bankWin e ≠ 0 then ((s.pkg.wins.find? (bankWin e)).getD {}).members.map fun m => (s.fn m.1).part
  else [bankPart e]

/-- The partitions that bank changes concern. -/
def partsOfBanks (s : State) (bs : List (Nat × BankEntry)) : List Nat :=
  (bs.flatMap fun b => partsOfEntry s (s.pkg.banks.get 0 b.1) ++ partsOfEntry s b.2).eraseDups

/-- The function may start work in its partition now: bank changes do not wait, a cache bank stands, and the tenant slice is
its own (05 R104; 18 R369; 19 R382). -/
def mayStart (s : State) (a : Nat) : Bool :=
  let p := s.partOfCtx a
  (s.part p).pending.isEmpty && !(partsOfBanks s s.pkg.bankHeld).contains p &&
  !(s.partBanks p).isEmpty && !(s.ctx a).stopped && !(s.ctx a).treeStop && !(s.ctx a).recovering &&
  (match (s.part p).slice with | some f => f = s.fnOf a || (fnsOf s p).length ≤ 1 | none => true)

/-- The key of a Burhus launch (17 Table 17.1). -/
def keyOfLaunch (s : State) (l : Launch) : Key :=
  let f := s.fn (s.fnOf l.asid)
  let kn := l.kernel.getD { asid := 0, kobj := 0, kidx := 0 }
  { hash := kn.hash, tver := s.svc.tver, vbc := BitVec.ofNat 2 l.vbc, fmask := BitVec.ofNat 8 (kn.features &&& f.fmask)
    dom := BitVec.ofNat 10 f.tdom }

/-- The installed translation of a key; a locked-clock partition looks at quick translations only (17 R344). -/
def findTrans (s : State) (k : Key) (locked : Bool) : Option Nat :=
  (List.find? (fun (t : Nat × Trans) => !t.2.stale && t.2.key = k && t.2.fns.isEmpty && (!locked || t.2.quick)) s.pkg.trans).map Prod.fst

/-- The key block of a key (20 R399). -/
def keyWords (k : Key) : List W64 :=
  [BitVec.ofNat 64 k.hash.toNat, BitVec.ofNat 64 (k.hash.toNat / 2 ^ 64),
   BitVec.ofNat 64 (k.tver.toNat + k.vbc.toNat * 2 ^ 16 + k.fmask.toNat * 2 ^ 18 + k.dom.toNat * 2 ^ 26)]

/-- The nominal time of a quick translation in lift cycles (17 R343): 500 instructions per µs on each of four pairs, a byte
taken as an instruction at most. -/
def quickTime (kn : Kernel) : Nat := kn.code.length * 1600 / 2000 + 1

/-- Takes Fjoset pairs for the quick translation of a kernel (R343; 01 R10): up to four of those that are free, or where none of the 32 is, of those that are
free first. The answer is the lift cycle at which the translation is done. DESIGN CHOICE (log 104): the spec does not say how pairs are shared out. -/
def takePairs (kn : Kernel) (s : State) : State × Nat :=
  let free := fun (t : Nat) => (List.range 32).filter fun i => s.svc.pairs.get 0 i ≤ t
  let t := if (free s.now).isEmpty then (s.svc.pairs.map Prod.snd).foldl min (s.now + (s.svc.pairs.map Prod.snd).foldl max 0) else s.now
  let ps := (free t).take 4
  let done := if ps.length = 4 then t + quickTime kn else t + kn.code.length * 1600 / (500 * max 1 ps.length) + 1
  (s.modSvc fun v => { v with pairs := ps.foldl (fun m i => m.put i done) v.pairs }, done)

/-- Sets out to translate the kernel of a launch. -/
def quickBegin (n : Nat) (s : State) : State :=
  let (s, t) := takePairs ((s.launch n).kernel.getD { asid := 0, kobj := 0, kidx := 0 }) s
  s.post t (.quickTranslationDone n)

/-- Launches that are not complete. -/
def liveLaunch (l : Launch) : Bool := !l.complete && !l.abandoned

/-- Gives a launch its translation, or sets out to make one (17 R341). -/
def lookupTrans (n : Nat) (s : State) : State :=
  let l := s.launch n
  match l.tr with
  | some t => (mapCode l.asid t s).modTrans t fun x => { x with used := s.now }
  | none =>
    let k := keyOfLaunch s l
    let p := s.partOfLaunch n
    match findTrans s k (s.part p).locked with
    | some t =>
      ((mapCode l.asid t s).modLaunch n fun l => { l with
        tr := some t, key := some k, fjoset := (match s.trans t with | some x => !x.code.isEmpty | none => false) }).modTrans t fun x => { x with used := s.now }
    | none =>
      let joined := s.pkg.launches.any fun x => x.2.waitTr && liveLaunch x.2 && x.2.key = some k
      let s := s.modLaunch n fun l => { l with key := some k, waitTr := true }
      if joined then s
      else if assisted s p 1 then
        let kn := l.kernel.getD { asid := 0, kobj := 0, kidx := 0 }
        let s := postOwner 0x37 (BitVec.ofNat 16 n)
          (keyWords k ++ [BitVec.ofNat 64 l.asid, BitVec.ofNat 64 kn.kobj, BitVec.ofNat 64 kn.kidx]) s
        s.post (s.now + 160000 * (s.part p).rqto) (.transreqTimeout n)
      else quickBegin n s

/-- A locked-clock run that starts while certification has lapsed is recorded (20 R402). -/
def noteLapse (n : Nat) (s : State) : State :=
  let p := s.partOfLaunch n
  if (s.part p).locked && s.svc.lapsedAt.isSome then s.modPart p fun x => { x with lapses := x.lapses + 1 } else s

/-- What changes of the partition and of the feature mask since the entry was taken leave of a launch at its start (R316, R318; 19 R385): the
status that ends it unrun, where there is one. -/
def startFails (s : State) (l : Launch) : Option Nat :=
  let fn := s.fn (s.fnOf l.asid)
  let kn := l.kernel.getD { asid := 0, kobj := 0, kidx := 0 }
  if !kn.fjoset && !kn.segs.all (fun g => segScan fn.fmask kn.version kn.segs g.trapH (g.len + 1) ((kn.code.drop g.off).take g.len)) then some 5
  else if !groupsFit s fn.part (l.stages * l.gps) || (bitOf 7 fn.fmask && decide (1 < l.stages)) then some 3
  else none

/-- Starts the head of a queue (R316): its resources are checked, its parameters are captured, ECLR is applied, and it joins the placement
list. RIDX passes its entry, unless it was taken from the queue's earlier ring (R326). -/
def startHead (a q n : Nat) (s : State) : State :=
  let l := s.launch n
  let kn := l.kernel.getD { asid := 0, kobj := 0, kidx := 0 }
  let out := fun (s : State) =>
    modQueue a q (fun x => { x with head := none, headOld := false, ridx := if x.headOld then x.ridx else x.ridx + 1 }) s
  match startFails s l with
  | some st => unrun n st (out s)
  | none =>
  match if kn.paramSz = 0 then (s, .ok []) else readCtx a (fld 183 128 l.bits) kn.paramSz s with
  | (s, .error _) => unrun n 6 (out s)
  | (s, .ok ps) =>
    let s := out s
    let s := s.modCtx a fun c => { c with evv := c.evv &&& ~~~BitVec.ofNat 256 (recEclr l.bits * 2 ^ (64 * recCq l.bits)) }
    let ord := s.pkg.launches.foldl (fun (m : Nat) (x : Nat × Launch) => max m (x.2.startOrd + 1)) 0
    let s := s.modLaunch n fun l => { l with params := ps, started := true, startOrd := ord, fmask := (s.fn (s.fnOf a)).fmask }
    callPlacement n (testHeads a (lookupTrans n (noteLapse n s)))

/-- Lift cycles until a launch may begin: in locked-clock mode it begins at a frame origin (05 R114). DESIGN CHOICE (log 107): what begins there is
the start of R316; clusters that wait for a translation or for room are placed when these are there. -/
def startWait (s : State) (a : Nat) : Nat :=
  if (s.part (s.partOfCtx a)).locked then (2048 - (s.now + 2048 - s.pkg.frame.get 0 0 % 2048) % 2048) % 2048 else 0

/-- The waiting head of a queue. -/
def headOf (s : State) (a q : Nat) : Option Nat := ((s.ctx a).queues.get {} q).head

/-- Starts the head of a queue if it may start now; in locked-clock mode it waits for the frame origin. -/
def tryStart (a q : Nat) (s : State) : State :=
  match headOf s a q with
  | none => s
  | some n =>
    if eligible s (s.launch n) && mayStart s a && windowOk s a q (BitVec.ofNat 32 (s.launch n).lidx) then
      if startWait s a = 0 then startHead a q n s else s.post (s.now + startWait s a) (.launchStart a q)
    else s

/-- Order of starts (16 R329): higher PRIO, then the higher queue, then the lower ASID. -/
def startsBefore (s : State) (x y : Nat × Nat) : Bool :=
  let pr := fun (h : Nat × Nat) => match headOf s h.1 h.2 with | some n => recPrio (s.launch n).bits | none => 0
  decide (pr y < pr x) || (pr x = pr y && (decide (y.2 < x.2) || (x.2 = y.2 && decide (x.1 < y.1))))

/-- The heads of a context's partition that may start in this lift cycle and come before the head of its queue `q`, in their order. -/
def headsBefore (s : State) (a q : Nat) : List (Nat × Nat) :=
  let able := fun (h : Nat × Nat) => match headOf s h.1 h.2 with
    | some n => eligible s (s.launch n) && mayStart s h.1 && windowOk s h.1 h.2 (BitVec.ofNat 32 (s.launch n).lidx) && startWait s h.1 = 0
    | none => false
  let hs := (s.pkg.ctxs.filter fun c => c.2.live && s.partOfCtx c.1 = s.partOfCtx a).flatMap fun c => c.2.queues.map fun x => (c.1, x.1)
  (hs.filter fun h => able h && startsBefore s h (a, q)).foldl (fun acc h =>
    (acc.filter fun y => startsBefore s y h) ++ h :: acc.filter fun y => !startsBefore s y h) []

/-- The launches of a context's partition that are to complete now. -/
def dueCompletions (s : State) (a : Nat) : List Nat :=
  (s.pkg.launches.filter fun l => s.partOfLaunch l.1 = s.partOfCtx a && completable s l.1).map Prod.fst

/-- LAUNCH_START (15 R316): the completions of this lift cycle are applied first, and the heads that come before this one start first
(16 R329). -/
def execLaunchStart (asid q : Nat) (s : State) : Host.Outcome State Fault Refusal :=
  .next (let s := foldS (dueCompletions s asid) (fun n s => if completable s n then finishLaunch n (serveLinkFails (releaseCores s)) else s) s
    tryStart asid q (foldS (if (headOf s asid q).isSome then headsBefore s asid q else []) (fun h s => tryStart h.1 h.2 s) s))

/-! ## Writes to the queue block (16 R326, R338) -/

/-- QUEUE_CONTROL_WRITE (R326): bits 63:0 of a queue's controls. -/
def execQueueControlWrite (asid q : Nat) (value : BitVec 64) (s : State) : Host.Outcome State Fault Refusal :=
  .next (let c := s.ctx asid
    let qu := c.queues.get {} q
    let v := value.toNat
    let en := bitOf 63 v
    let qlog := fld 60 56 v
    let set := fun (x : Queue) => { x with qlog := BitVec.ofNat 5 qlog, qbase := BitVec.ofNat 49 (fld 55 7 v) }
    if q ≥ 8 then s
    else if qu.en then if en then s else modQueue asid q (fun x => { set x with en := false }) s
    else if !en then modQueue asid q set s
    else if qlog < 6 ∨ 20 < qlog ∨ (c.recv ∧ openOf s asid q ≠ []) then s
    else modQueue asid q (fun x => { set x with en := true, ridx := 0, widx := 0, halt := false, headOld := x.head.isSome }) s)

/-- WIDX_WRITE (R326): a release at system scope of the writer's earlier writes, which have performed at their home banks in
arrival order (20 R397). -/
def execWidxWrite (asid q : Nat) (value : BitVec 32) (s : State) : Host.Outcome State Fault Refusal :=
  .next (if q ≥ 8 then s else modQueue asid q (fun x => { x with widx := value }) s)

/-- EVENT_RING_CONTROL_WRITE (R338): 8-byte word `word` of the event-ring controls. -/
def execEventRingControlWrite (asid word : Nat) (value : BitVec 64) (s : State) : Host.Outcome State Fault Refusal :=
  .next (let v := value.toNat
    let r := (s.ctx asid).ring
    let set := fun (x : Ring) => s.modCtx asid fun c => { c with ring := x }
    match word with
    | 0 =>
      let x := { r with base := BitVec.ofNat 44 (fld 55 12 v), en := bitOf 63 v }
      let s := set (if bitOf 63 v && !r.en then { x with ewi := 0, eri := 0 } else x)
      flushRing asid (r.held.length + 1) s
    | 2 =>
      let eri := BitVec.ofNat 32 (fld 63 32 v)
      if 4096 < (r.ewi - eri).toNat then s else flushRing asid (r.held.length + 1) (set { r with eri := eri })
    | 3 =>
      let s := set { r with ecnt := BitVec.ofNat 12 (fld 31 20 v), etim := BitVec.ofNat 16 (fld 47 32 v), vec := BitVec.ofNat 11 (fld 58 48 v) }
      match r.firstAt with
      | some t => if fld 47 32 v = 0 then s else s.post (max s.now (t + usec (fld 47 32 v))) (.eventRingTimer asid)
      | none => s
    | _ => s)

end Sys2Proof.Machine
end

