-- ==== Sys2Proof/Machine/EngineRun.lean ====
section
/-!
DEFINITION. Engines at work (spec/06_copy_collective_engines.md R122 to R125, R128, R131, R134 to R140): start, completion, faults,
and collectives; and the reply of the page-fault service (spec/04_hbm_translation_protection.md R91).
-/
namespace Sys2Proof.Machine

/-- Key of an engine of a die and class. -/
def runKey (die cls eng : Nat) : Nat := (die * 2 + cls) * 16 + eng

/-- The engine is free again. -/
def freeRun (r : Nat) (s : State) : State := s.modPkg fun p => { p with runs := p.runs.del r }

/-- A command of an engine context. -/
def cmdOf (s : State) (key num : Nat) : Option EngCmd := (s.eng key).queue.find? fun c => c.num = num

/-- R135: the command stops, its number completes, and its kernel is killed with the command number and the faulting line. -/
def engineKill (key : Nat) (c : EngCmd) (cause : Nat) (s : State) : State :=
  killLaunch .engineFault cause (c.num % 2 ^ 47 * 2 ^ 17 + c.done / 128) c.launch (endCmd key c.num s)

/-- The address at which a transfer finds no translation, with the access kind, if it does (R134). -/
def parkedAt (c : EngCmd) (s : State) : Option (Nat × Acc) :=
  let at_ := fun (x : Nat) (o : Int) (acc : Acc) =>
    if c.scratchAt x || isStageRef x then none
    else
      let va := wrapI 56 ((x : Int) + o)
      match translate c.core c.asid va acc s with
      | (_, .error .addrUnmapped) => some (va, acc)
      | _ => none
  let idx := if c.op = 0x72 then
      (List.range 4).findSome? fun k => at_ c.idx (4 * (c.done / 2 ^ fld 35 32 c.strides) + k : Nat) .read
    else none
  match idx with
  | some x => some x
  | none =>
    match withIdx 0 c c.done s with
    | (_, .error _) => none
    | (_, .ok c) =>
      let (od, os, k) := movePiece c c.done
      let m := min k (128 - endPos c.dst od)
      (at_ c.src os .read).orElse fun _ => (at_ c.dst od .write).orElse fun _ => at_ c.src (os + ((m - 1 : Nat) : Int)) .read

/-- No merge of a command waits at a home bank. -/
def merged (s : State) (c : EngCmd) : Bool :=
  !(s.pkg.mergeQ.any fun q => q.2.any fun r => r.w.eng && r.w.asid = some c.asid && r.w.core = c.core && r.w.num = c.num)

/-- Every byte that a command has written has performed (R123). -/
def performed (s : State) (tag : Nat) (c : EngCmd) : Bool := arrived s tag && merged s c

/-- One lift cycle of an engine at work: it takes up at most 256 bytes and moves each line when it has all of it (R124, R130; log 101), unless a full
log holds its context. What comes next is posted: the
completion once every byte has performed, 20 lift cycles after the last access at a bank (05 Table 5.5), a page fault, or a fault. -/
def moveRun (i : Nat) (r : EngRun) (s : State) : State :=
  let die := i / 32
  let cls := i / 16 % 2
  match cmdOf s r.ctx r.num with
  | none => s
  | some c =>
    if moveTotal c ≤ c.done then
      if decide (r.doneAt ≤ s.now) && performed s r.tag c then s.post s.now (.engineComplete die cls (i % 16)) else s
    else if (s.ctx c.asid).logHeld && (s.ctx c.asid).sealing.isNone then s
    else
      match moveBytes r.tag 400 (256 + r.credit) c s with
      | (s, c', f) =>
        let s := modCmd r.ctx c.num (fun _ => c') s
        let s := s.modPkg fun p => { p with runs := p.runs.put i { r with doneAt := s.now + 20, credit := min 127 (256 + r.credit - (c'.done - c.done)) } }
        match f with
        | none => s
        | some .addrUnmapped => s.post s.now (.enginePageFault die cls (i % 16))
        | some k => s.post s.now (.engineFault die cls (i % 16) (trapCode k))

/-- One lift cycle of the engines. -/
def moveEngines (s : State) : State := foldS s.pkg.runs (fun r s => moveRun r.1 r.2 s) s

/-! ## Collectives (R137 to R140) -/

/-- Reads the `n` bytes of SEND that a member gives, line by line; those before are `bs`. They ride to the service die, where the fabric begins
(R125). The answer has the fault that stops it. -/
def collSend (tag : Nat) (c : EngCmd) (d : CollDesc) (n : Nat) : Nat → List Byte → State → State × List Byte × Option Trap
  | 0, bs, s => (s, bs, none)
  | fuel + 1, bs, s =>
    if n ≤ bs.length then (s, bs, none)
    else
      let o : Int := (bs.length : Int)
      let m := min (n - bs.length) (128 - endPos d.send o)
      match endPlace c d.send o m .read s with
      | (s, .error t) => (s, bs, some t)
      | (s, .ok p) =>
        match placeRead c p m s with
        | (s, .ok b) => collSend tag c d n fuel (bs ++ b) (rideData tag m c (p.wait s c) (p.fill s ++ dataRoute (p.station s c) (4, 0) 0 none) s)
        | (s, .error t) => (s, bs, some t)

/-- Writes the bytes that a member receives, line by line from offset `o` on, until a full log holds one: how many stand, and the fault that stops
it. -/
def collRecv (tag : Nat) (c : EngCmd) (d : CollDesc) (bs : List Byte) : Nat → Nat → State → State × Nat × Option Trap
  | 0, o, s => (s, o, none)
  | fuel + 1, o, s =>
    if bs.length ≤ o || (s.ctx c.asid).logHeld then (s, o, none)
    else
      let m := min (bs.length - o) (128 - endPos d.recv (o : Int))
      match endPlace c d.recv (o : Int) m .write s with
      | (s, .error t) => (s, o, some t)
      | (s, .ok q) =>
        match placeWrite c q ((bs.drop o).take m) s with
        | (s, .ok ()) => collRecv tag c d bs fuel (o + m) (rideData tag m c (q.wait s c) (dataRoute (4, 0) (q.station s c) 0 (q.l2bank s)) s)
        | (s, .error t) => (s, o, some t)

/-- The cause of a fault at a descriptor or member table: DESC_BAD where it is unmapped or refused, else its own (R134, R137). -/
def descCause (t : Trap) : Nat := if t = .addrUnmapped then 32 else trapCode t

/-- The cluster of a launch that has a group on a core, placed there or suspended from there: the command's own where it has one. -/
def clusterOn (s : State) (c : EngCmd) (core : Nat) : Option Nat :=
  if (findGroup s c.launch c.cluster core).isSome then some c.cluster
  else match (s.group core).filter fun g => g.launch = c.launch with
    | some g => some g.cluster
    | none => ((s.launch c.launch).suspended.find? fun x => x.groups.any fun g => g.1 = core).map Saved.cluster

/-- The flag word of a collective (R137): its target and the cluster of the group there; none where the word is out of form or no group of the launch,
placed or suspended, is on the core that it names (R128, R136). The issuing group may have ended. -/
def collFlag (s : State) (c : EngCmd) (w : Nat) : Option ((Nat × Nat × Nat) × Nat) :=
  let self := bitOf 5 w
  let k := fld 29 15 w
  if fld 63 30 w ≠ 0 ∨ k = 0 ∨ (self ∧ fld 14 6 w ≠ 0) then none
  else if self then some ((c.core, fld 4 0 w, k), c.cluster)
  else (clusterOn s c (fld 14 6 w)).map fun cl => ((fld 14 6 w, fld 4 0 w, k), cl)

/-- The descriptor of a collective command, with its member table checked; else the cause of its fault. -/
def collRead (c : EngCmd) (s : State) : State × Except Nat (BitVec 512) :=
  match readVirt c.core c.asid 3 c.dst 64 s with
  | (s, .error t) => (s, .error (descCause t))
  | (s, .ok b) =>
    let x := leNat b
    let d := collDesc x
    if !collOk x c.ty.toNat c.kind then (s, .error 32)
    else
      match readVirt c.core c.asid 3 d.memtab (4 * d.nmem) s with
      | (s, .error t) => (s, .error (descCause t))
      | (s, .ok tb) =>
        let ms := (List.range d.nmem).map fun i => leNat ((tb.drop (4 * i)).take 4)
        let flagOk := !d.flgen || (collFlag s c d.flagw).isSome
        if ms.all (· < 2 ^ 20) && decide ms.Nodup && ms.getD d.rank 0 = s.svc.pkgId.toNat && flagOk then (s, .ok (BitVec.ofNat 512 x))
        else (s, .error 32)

/-- A collective of this package with its command. -/
def collCmd (s : State) (domain collid : Nat) : Option (CollRun × EngCmd) :=
  (s.pkg.colls.find? fun x => x.domain = domain && x.collid = collid).bind fun x => (cmdOf s x.ctx x.num).map fun c => (x, c)

/-- A collective leaves the engine. -/
def dropColl (x : CollRun) (s : State) : State :=
  s.modPkg fun p => { p with colls := p.colls.filter fun y => !(y.ctx = x.ctx && y.num = x.num) }

/-- Ends this package's part in a collective with a fault. -/
def collKill (x : CollRun) (c : EngCmd) (cause : Nat) (s : State) : State :=
  boundRun c.launch (engineKill x.ctx c cause (dropColl x s))

/-- Starts a collective: its descriptor is read, and the pair must not be running on this package. -/
def startColl (die key : Nat) (c : EngCmd) (s : State) : State :=
  match collRead c s with
  | (s, .error cause) => engineKill key c cause s
  | (s, .ok x) =>
    let d := collDesc x.toNat
    let dom := (s.fn (s.fnOf c.asid)).cdom
    match collCmd s dom d.collid with
    | some (y, c') => engineKill key c 33 (collKill y c' 33 s)
    | none =>
      let f := if d.flgen then collFlag s c d.flagw else none
      let s := modCmd key c.num (fun c => { c with started := true, flag := f.map Prod.fst, fcl := (f.map Prod.snd).getD c.fcl }) s
      boundRun c.launch (s.modPkg fun p => { p with
        colls := p.colls ++ [{ domain := dom, collid := d.collid, die := die, ctx := key, num := c.num, desc := x, tag := p.nextTag }], nextTag := p.nextTag + 1 })

/-- The completion of a command (R123, R128): its number ends and its flag is posted. -/
def finishCmd (key : Nat) (c : EngCmd) (s : State) : State := postFlag c (endCmd key c.num s)

/-- Exclusive or of byte lists. -/
def xorBytes (a b : List Byte) : List Byte := List.zipWith (· ^^^ ·) a b

/-- Every protected context of a relay that is being built seals as many points as bring it to one point: `next` makes that one a new one. -/
def sealTogether (next : Bool) (cs : List Nat) (s : State) : State :=
  let will := fun (a : Nat) => (s.ctx a).rpn + (s.ctx a).sealQueue.length
  let p := cs.foldl (fun m a => max m (will a)) 0 + next.toNat
  foldS cs (fun a s => foldS (List.range (p - will a)) (fun _ s => requestSeal a none s) s) s

/-- Line `i` of the exclusive or of the members' vectors. -/
def xorLine (vs : List (List Byte)) (i : Nat) : Line := vs.foldl (fun d v => d ^^^ lineOfBytes ((v.drop (128 * i)).take 128)) 0

/-- The transfer of a relay that is being built, or that this package joins again, has met (13 R283, R285): once every protected context stands at one
point, the parity chunk is the exclusive or of the other members' chunks of this index, the contexts resume, and the command is answered with RPP. Of a
replacement every chunk is the exclusive or of the survivors', each with its parity in the place of its own chunk. -/
def relayMeet (id : Nat) (vectors : List (List Byte)) (s : State) : State :=
  match s.pkg.relays.find? id with
  | none => s
  | some r =>
    match r.building with
    | none => s
    | some h =>
      let rpp := if r.rebuild then r.rpp else (s.ctx (r.ctxs.headD 0)).rpn
      if !r.rebuild && r.ctxs.any fun a => (s.ctx a).sealing.isSome || !(s.ctx a).sealQueue.isEmpty || (s.ctx a).rpn ≠ rpp then
        (sealTogether false r.ctxs s).post (s.now + 2) (.collMeet id 0 true vectors)
      else
        let n := r.ch * 2 ^ 14
        let vs := vectors.set r.idx (if r.rebuild then [] else r.imageBytes s)
        let s := foldS (List.range n) (fun i s => putParity r i (xorLine vs (r.idx * n + i)) s) s
        let s := if r.rebuild then foldS (List.range (8 * n)) (fun i s => match r.imageLa s i with
            | some la => (homeWrite {} (la * 128) (bytesOfLine (xorLine vs i)) s).1
            | none => s) s else s
        let s := s.modPkg fun p => { p with relays := p.relays.put id { r with building := none, rebuild := false, rpp := rpp } }
        let s := foldS r.ctxs (fun a s => foldS (coresOf s a) resumeCore (s.modCtx a fun c => { c with stopped := false })) s
        accepted h (if r.rebuild then 0x26 else 0x25) [BitVec.ofNat 64 rpp] s

/-- What a collective has done so far. -/
def modColl (x : CollRun) (f : CollRun → CollRun) (s : State) : State :=
  s.modPkg fun p => { p with colls := p.colls.map fun y => if y.ctx = x.ctx && y.num = x.num then f y else y }

/-- A collective meets a fault at byte `o` of one of its vectors: it parks at an unmapped address, which the page-fault service is offered, and
goes on from there; every other fault ends it (R134, R135). -/
def collStop (again : Instr) (x : CollRun) (c : EngCmd) (va o : Nat) (t : Trap) (acc : Acc) (s : State) : State :=
  if t = .addrUnmapped then
    let va := wrapI 56 ((va : Int) + o)
    (offerFault c.asid va acc (modCmd x.ctx c.num (fun c => { c with parked := some va, done := o }) s)).post (s.now + 2) again
  else collKill x { c with done := o } (trapCode t) s

/-- The station at which the last of the `n` bytes of RECV has performed. -/
def collLast (c : EngCmd) (d : CollDesc) (n : Nat) (s : State) : Nat × Nat :=
  match (endPlace c d.recv ((n - 1 : Nat) : Int) 1 .write s).2 with
  | .ok q => q.station s c
  | .error _ => (dieOf c.core, regionStation c.core)

/-- The members of a collective agree: SEND is read, the marker placed, RECV written, and the command completes once that has performed (R139,
R140). A full log or a seal holds it where it stands. -/
def runColl (again : Instr) (x : CollRun) (c : EngCmd) (vectors : List (List Byte)) (s : State) : State :=
  let d := collDesc x.desc.toNat
  let n := d.count * tyBytes c.ty.toNat
  if vectors.length ≠ d.nmem || vectors.any (fun v => v.length ≠ n) then collKill x c 33 s
  else if c.parked.isSome || (s.ctx c.asid).sealing.isSome || (s.ctx c.asid).logHeld then s.post (s.now + 2) again
  else
    match collSend x.tag c d n n x.own s with
    | (s, own, some t) => collStop again x c d.send own.length t .read (modColl x (fun y => { y with own := own }) s)
    | (s, own, none) =>
      match placeMark c s with
      | (s, none) => (modColl x (fun y => { y with own := own }) s).post (s.now + 2) again
      | (s, some c) =>
        let out := collResult c.kind c.cop c.ty.toNat d.count d.rank (vectors.set d.rank own)
        let s := modCmd x.ctx c.num (fun y => { y with marked := true }) s
        match collRecv x.tag c d out out.length x.wrote s with
        | (s, o, some t) => collStop again x c d.recv o t .write (modColl x (fun y => { y with own := own, wrote := o }) s)
        | (s, o, none) =>
          if o = out.length && performed s x.tag c then
            finishCmd x.ctx { c with last := some (collLast c d out.length s) } (boundRun c.launch (dropColl x s))
          else (modColl x (fun y => { y with own := own, wrote := o }) s).post (s.now + 2) again

/-- COLL_MEET (R138, R139): the members' commands have met. `vectors` are the members' SEND vectors by rank, of which this
package's own is what its memory holds. -/
def execCollMeet (domain collid : Nat) (same : Bool) (vectors : List (List Byte)) (s : State) : Host.Outcome State Fault Refusal :=
  .next (match collCmd s domain collid with
    | none => relayMeet domain vectors s
    | some (x, c) => if !same then collKill x c 33 s else runColl (.collMeet domain collid same vectors) x c vectors s)

/-- COLL_ABORT (R140): a fault at another member. -/
def execCollAbort (domain collid : Nat) (s : State) : Host.Outcome State Fault Refusal :=
  .next (match collCmd s domain collid with
    | none => s
    | some (x, c) => collKill x c 34 s)

/-! ## Start, completion and faults of transfers -/

/-- A context whose visit has left nothing to start keeps no deficit. -/
def clearDeficit (key : Nat) (s : State) : State :=
  s.modEng key fun e => if e.startable.isNone then { e with deficit := 0 } else e

/-- An engine takes a transfer: what it moves over the rings has a tag of its own. -/
def startRun (r key : Nat) (c : EngCmd) (s : State) : State :=
  (modCmd key c.num (fun c => { c with started := true }) s).modPkg fun p => { p with
    runs := p.runs.put r { ctx := key, num := c.num, doneAt := s.now, tag := p.nextTag }, nextTag := p.nextTag + 1 }

/-- ENGINE_START (R122, R124): a free engine of a die takes the command that the arbiter selects, after the issuing core has
performed the stores that precede it (12 R256). -/
def execEngineStart (die cls : Nat) (s : State) : Host.Outcome State Fault Refusal :=
  .next (match arbitrate die cls (257 * (s.pkg.eng.length + 1)) (s.pkg.arb.get 0 (die * 2 + cls)) s with
    | (s, none) => s
    | (s, some (key, c, i)) =>
      let s := s.modEng key fun e => { e with deficit := e.deficit - cmdCost c }
      let s := s.modPkg fun p => { p with arb := p.arb.set 0 (die * 2 + cls) (2 * key + 1) }
      let s := linkAll c.core (drainCore c.core s)
      clearDeficit key (if c.op = 0x73 then startColl die key c s else startRun (runKey die cls i) key c s))

/-- The command that an engine runs. -/
def running (s : State) (die cls eng : Nat) : Option (EngRun × EngCmd) :=
  (s.pkg.runs.find? (runKey die cls eng)).bind fun r => (cmdOf s r.ctx r.num).map fun c => (r, c)

/-- ENGINE_COMPLETE (R123, R124): every byte has performed. -/
def execEngineComplete (die cls eng : Nat) (s : State) : Host.Outcome State Fault Refusal :=
  .next (match running s die cls eng with
    | none => freeRun (runKey die cls eng) s
    | some (r, c) =>
      if s.now < r.doneAt || decide (c.done < moveTotal c) || !performed s r.tag c then s else finishCmd r.ctx c (freeRun (runKey die cls eng) s))

/-- ENGINE_PAGE_FAULT (R134): the command parks at the faulting line and its engine is free; the page-fault service is offered the
address. A page that has been mapped meanwhile lets it go on. -/
def execEnginePageFault (die cls eng : Nat) (s : State) : Host.Outcome State Fault Refusal :=
  .next (match running s die cls eng with
    | none => freeRun (runKey die cls eng) s
    | some (r, c) =>
      if moveTotal c ≤ c.done then s
      else
        match parkedAt c s with
        | none => s
        | some (va, acc) =>
          offerFault c.asid va acc (modCmd r.ctx c.num (fun c => { c with parked := some (va % 2 ^ 56), started := false })
            (freeRun (runKey die cls eng) s)))

/-- ENGINE_FAULT (R135). -/
def execEngineFault (die cls eng cause : Nat) (s : State) : Host.Outcome State Fault Refusal :=
  .next (match running s die cls eng with
    | none => freeRun (runKey die cls eng) s
    | some (r, c) => engineKill r.ctx c cause (freeRun (runKey die cls eng) s))

/-! ## The reply of the page-fault service (04 R91; 06 R134) -/

/-- A crew waits for the service's answer about an address. -/
def faultsAt (va : Nat) : Crew × Wait → Bool
  | (_, .pageFault v) => v % 2 ^ 56 = va
  | _ => false

/-- The crews of a group that wait for an address become ready. -/
def wakeFaults (va now : Nat) (g : Group) : Group :=
  let up := g.blocked.filter (faultsAt va)
  let rs : List Ready := up.map fun b => { crew := { b.1 with delivered := none }, whole := false, since := now }
  { g with
    blocked := g.blocked.filter fun b => !faultsAt va b
    frontier := { g.frontier with ready := g.frontier.ready ++ rs.filter fun r => !r.crew.handler }
    nested := g.nested.map fun n => { n with frontier := { n.frontier with ready := n.frontier.ready ++ rs.filter fun r => r.crew.handler } } }

/-- The launches of a context with a crew that waits for an address. -/
def faultLaunches (a va : Nat) (s : State) : List Nat :=
  (s.pkg.launches.filter fun l => l.2.asid = a && !l.2.complete &&
    (l.2.cores.any (fun k => match s.group k with | some g => g.launch = l.1 && g.blocked.any (faultsAt va) | none => false) ||
     l.2.suspended.any fun x => x.groups.any fun g => g.2.blocked.any (faultsAt va))).map Prod.fst

/-- PAGE_FAULT_REPLY (04 R91; 06 R134): the service has mapped the page, and crews and parked commands go on; or it declines, and
their kernels are killed. -/
def execPageFaultReply (asid va : Nat) (mapped : Bool) (s : State) : Host.Outcome State Fault Refusal :=
  .next (let va := va % 2 ^ 56
    let cmds := (s.pkg.eng.filter fun e => e.1 / 8 = asid).flatMap fun e => (e.2.queue.filter fun c => c.parked = some va).map fun c => (e.1, c)
    if mapped then
      let s := foldS (coresOf s asid) (fun k s => s.modGroup k (wakeFaults va s.cycle)) s
      let s := foldS (faultLaunches asid va s) (fun n s => s.modLaunch n fun l => { l with suspended := l.suspended.map fun x =>
        { x with groups := x.groups.map fun g => (g.1, wakeFaults va s.cycle g.2) } }) s
      foldS cmds (fun x s => modCmd x.1 x.2.num (fun c => { c with parked := none }) s) s
    else
      let s := foldS cmds (fun x s => engineKill x.1 x.2 7 s) s
      foldS (faultLaunches asid va s) (killLaunch .addrUnmapped 0 va) s)

end Sys2Proof.Machine
end

