-- ==== Sys2Proof/Machine/MemEvents.lean ====
section
/-!
DEFINITION. Events of the memory system (spec/04_hbm_translation_protection.md R81, R87, R88, R97 to R101;
spec/12_memory_consistency.md R259; spec/13_recovery_undo.md R262): fills, write-backs, new keys, metadata groups, walks,
invalidation requests and accesses of peers.
-/
namespace Sys2Proof.Machine

/-- L2_FILL (R97, R101): a fill from HBM4, whose MAC holds at the first reading or at the second, or fails. -/
def execL2Fill (line : Nat) (macOk rereadOk : Bool) (s : State) : Host.Outcome State Fault Refusal := 
  .next (if isHbm (line * 128) then (fillLine line macOk rereadOk s).1 else s)

/-- WRITE_BACK (R98). -/
def execWriteBack (line : Nat) (s : State) : Host.Outcome State Fault Refusal := .next (writeBackLine line s)

/-- The contexts whose writes an owner's key covers: a function's own, or those of a window's members. -/
def ownerCtxs (s : State) (o : Nat) : List Nat :=
  let fns := errOwners s o
  (s.pkg.ctxs.filter fun c => c.2.live && fns.contains c.2.fnum).map Prod.fst

/-- REKEY (R99): once every context of the owner stands at a commit point, a new key is drawn and its granules are encrypted under
it. -/
def execRekey (owner : Nat) (s : State) : Host.Outcome State Fault Refusal :=
  .next (let cs := ownerCtxs s owner
    if (767 < owner ∧ owner ≠ 0x3FF) ∨ owner = 512 then s
    else if cs.all (contextStill s) then
      let s := rekeyOwner owner s
      foldS (cs.flatMap (coresOf s)) resumeCore s
    else (foldS (cs.flatMap (coresOf s)) stopCore s).post (s.now + 2) (.rekey owner))

/-- METADATA_EVICTION (R98, 13 R262): a dirty counter block leaves the metadata cache, with the nodes above it, as a group in the metadata log; a log
that is full takes it once a group before it is in place. -/
def execMetadataEviction (chunk : Nat) (s : State) : Host.Outcome State Fault Refusal :=
  .next (if !s.pkg.metaDirty.contains chunk then s
    else
      let (t, g) := formGroup chunk (s.ctr chunk) s
      if logRoom s g then
        ((logGroup g t).modPkg fun p => { p with metaDirty := p.metaDirty.filter (· ≠ chunk) }).post s.now (.metadataGroupCommit chunk)
      else s.post (s.now + 2) (.metadataEviction chunk))

/-- METADATA_GROUP_COMMIT (13 R262): the group's commit word is written; then its block and nodes go in place, and the root is updated. -/
def execMetadataGroupCommit (chunk : Nat) (s : State) : Host.Outcome State Fault Refusal :=
  .next (match s.pkg.metaLog.find? fun e => e.chunk = chunk with
    | some g =>
      if g.committed then applyGroup g s
      else (s.modPkg fun p => { p with
        metaLog := p.metaLog.map fun e => if e.chunk = chunk then { e with committed := true } else e }).post s.now (.metadataGroupCommit chunk)
    | none => s)

/-- PAGE_WALK (R81, R82): what a walk installs and sets. -/
def execPageWalk (core asid va : Nat) (acc : Acc) (s : State) : Host.Outcome State Fault Refusal :=
  .next (walkFor core asid (va % 2 ^ 56) acc s).1

/-- Some access that has not performed meets a test on its context and lane, or the command of a running engine meets one (R88): accesses of
open regions, stores on their way to their home banks, and results to come. -/
def accessHeld (s : State) (t : Nat → LaneAcc → Bool) (eng : EngCmd → Bool) : Bool :=
  let region := fun (a : Nat) (r : Region) =>
    r.buf.any (fun e => match e with | .store _ ls => ls.any (t a) | _ => false) ||
    r.ops.any fun o => match o with
      | .atom _ _ _ _ _ _ ls => ls.any fun x => t a x.1
      | .rel _ os => os.any fun x => t a x.1
      | _ => false
  s.cores.any (fun c => match c.2.group with
    | some g => g.crews.any fun x => region (s.asidOf g) x.region || x.mem.any fun m => m.lanes.any (t (s.asidOf g))
    | none => false) ||
  s.pkg.runs.any fun r => match cmdOf s r.2.ctx r.2.num with | some c => eng c | none => false

/-- An access of an open region or of a started engine command was translated under what a request covers (R88), as one whole page. -/
def invalHeld (s : State) (req : Nat) : Bool :=
  let hit := fun (a : Nat) (l : LaneAcc) =>
    invalCovers s req { asid := a, vpn := l.va % 2 ^ 56 / l.page * l.page / 65536, size := l.page, frame := 0, rd := true, w := true, x := false, d := true, widx := 0, pte := 0 }
  accessHeld s hit fun c =>
    if fld 3 0 req ≤ 1 then decide (c.asid = fld 31 20 req)
    else if fld 3 0 req = 2 then decide (s.fnOf c.asid = s.fnOf (fld 31 20 req))
    else true

/-- An access that was translated to a byte of some granules has not performed (R74, R88). -/
def granHeld (s : State) (gs : List Nat) : Bool :=
  let fns := (gs.flatMap fun g => errOwners s (s.ownerOf g)).eraseDups
  accessHeld s (fun _ l => isHbm l.pa && (gs.contains (granOf l.pa) || gs.contains (granOf (l.pa + 7)))) fun c => fns.contains (s.fnOf c.asid)

/-- Translations that an invalidation request covers are dropped, stores on their way perform, and the answer says whether the request is
complete (R88). -/
def invalidate (r : Nat) (s : State) : State × Bool :=
  let s := dropTlb (invalCovers s r) s
  if invalHeld s r then (s, false) else (mergeAll (releaseCores s), true)

/-- Translations of some granules are dropped, and the answer says whether they may be released (R74). -/
def quiesce (gs : List Nat) (s : State) : State × Bool :=
  let s := dropTlb (fun e => gs.any fun g => decide (e.frame * 65536 / 2 ^ 21 ≤ g) && decide (g ≤ (e.frame * 65536 + e.size - 1) / 2 ^ 21)) s
  if granHeld s gs then (s, false) else (mergeAll (releaseCores s), true)

/-- The request of Table 4.6 for a range of a context, as the Fjoset cores post it in hardware mode (R87); one that names too many units is for
the whole ASID. -/
def rangeRequest (a va n : Nat) : Nat :=
  if n / 65536 < 2 ^ 32 then va / 65536 * 2 ^ 64 + n / 65536 * 2 ^ 32 + a * 2 ^ 20 else a * 2 ^ 20 + 1

/-- INVALIDATION_REQUEST (R87, R88): translations that it covers are dropped at once; its completion is reported when no access
under one of them is left. A request out of form is refused. -/
def execInvalidationRequest (req : BitVec 128) (s : State) : Host.Outcome State Fault Refusal :=
  .next (let r := req.toNat
    if !invalOk r then report "INVAL_REFUSED" none r s
    else match invalidate r s with
      | (s, true) => report "INVAL_DONE" none r s
      | (s, false) => s.post (s.now + 2) (.invalidationRequest req))

/-- PEER_APERTURE_ACCESS (12 R259): a peer's write performs at its home bank, its read is served there. -/
def execPeerApertureAccess (pa len : Nat) (data : Option (List Byte)) (s : State) : Host.Outcome State Fault Refusal :=
  let held := fun (g : Nat) => granOk g && s.ownerOf g ≠ 0x3FE
  .next (if !isHbm pa || !held (granOf pa) || !held (granOf (pa + len - 1)) then s
    else match data with
      | some bs => (physWrite {} pa bs s).1
      | none => (physRead pa len s).1)

end Sys2Proof.Machine
end

