-- ==== Sys2Proof/Machine/Commands.lean ====
section
/-!
DEFINITION. How the service die takes a command (spec/19_partitions_tenants.md R378, R379; spec/20_reliability_boot_host.md R394, R396,
R398, R399): who may issue it, and the operands that recur.
-/
namespace Sys2Proof.Machine

/-- Word `i` of the operands. -/
def opw (w : List W64) (i : Nat) : Nat := (w.getD i 0).toNat

/-- Refuses a command whose operands break their layout. -/
def badOperand (h : CmdHdr) (code : Nat) (s : State) : State := refused h code "BAD_OPERAND" s

/-- The package answers commands: it has booted, or it answers only IDENTIFY and FWUPDATE over MCTP (R394). -/
def answers (h : CmdHdr) (code : Nat) (s : State) : Bool := s.svc.booted || (s.svc.dead && h.from_.cls = 3 && (code = 0x50 || code = 0x51))

/-- A command that any master may send. From a function mailbox it is not a command (Table 20.2). -/
def anyCmd (h : CmdHdr) (code : Nat) (run : State → State) (s : State) : State :=
  if !answers h code s then s
  else if h.from_.cls = 0 then refused h code "BAD_COMMAND" s
  else run (if s.svc.owner = some h.from_ then s.modSvc fun v => { v with heard := s.now } else s)

/-- The header of an owner's command that waits on the agenda to go on. -/
def waitingCmd (i : Instr) : Option CmdHdr :=
  match i with
  | .handover h _ => some h | .fconfig h _ => some h | .winfree h _ => some h | .revoke h _ => some h | .logset h _ => some h
  | .reverse h _ => some h | .recover h _ => some h | .dstop h _ => some h | .sealreq h _ => some h | .relayrebuild h _ => some h
  | _ => none

/-- The seals of a context that the owner has asked for and that are given up with its log are asked for again, so that each request has its
answer. -/
def repostSeals (a : Nat) (s : State) : State :=
  foldS ((s.ctx a).sealQueue.filterMap id) (fun h s => s.post s.now (.sealreq h [BitVec.ofNat 64 a])) s

/-- A command of the owner mailbox has been taken and not yet answered (19 R379). -/
def underWay (s : State) : Bool :=
  s.agenda.any (fun e => (waitingCmd e.2).isSome) || s.svc.handover.isSome || s.pkg.parts.any (fun p => p.2.pending.any fun x => x.1.isSome) ||
  s.pkg.ctxs.any (fun c => c.2.sealQueue.any Option.isSome) || s.pkg.relays.any fun r => r.2.building.isSome

/-- A command that only the owner may send, or, where `host`, also the host. -/
def ownerCmd (h : CmdHdr) (code : Nat) (run : State → State) (s : State) (host : Bool := false) : State :=
  anyCmd h code (fun s =>
    if s.svc.owner = some h.from_ || (host && h.from_.cls = 1) || s.svc.dead then run s else answer h code 1 "" [] s) s

/-- A command of a function's mailbox (Table 20.2). -/
def fnCmd (h : CmdHdr) (code : Nat) (run : State → State) (s : State) : State :=
  if !answers h code s then s
  else if h.from_.cls ≠ 0 || !(s.fn h.from_.ep).en then refused h code "BAD_COMMAND" s
  else run s

/-- A context word names a live context. -/
def ctxWord (s : State) (w : Nat) : Option Nat := if w < 4096 && (s.ctx w).live then some w else none

/-- A context word of a context that a function mailbox's own function holds. -/
def ownCtx (s : State) (h : CmdHdr) (w : Nat) : Option Nat := (ctxWord s w).filter fun a => s.fnOf a = h.from_.ep

/-- A key block. -/
def keyBlock (w : List W64) (i : Nat) : Option Key :=
  let x := opw w (i + 2)
  if fld 63 36 x ≠ 0 then none
  else some {
    hash := BitVec.ofNat 128 (opw w i + 2 ^ 64 * opw w (i + 1)), tver := BitVec.ofNat 16 (fld 15 0 x), vbc := BitVec.ofNat 2 (fld 17 16 x)
    fmask := BitVec.ofNat 8 (fld 25 18 x), dom := BitVec.ofNat 10 (fld 35 26 x) }

/-- A host buffer: bus address and length. -/
def hostBufOk (w : List W64) (i : Nat) : Bool := decide (opw w i + opw w (i + 1) ≤ 2 ^ 50)
/-- Physical address of a bus address (04 R70). -/
def busPa (x : Nat) : Nat := 2 ^ 51 + x
/-- The bytes of a host buffer. -/
def hostBytes (s : State) (w : List W64) (i : Nat) : List Byte := s.rawBytes (busPa (opw w i)) (opw w (i + 1))

/-- The words of a byte list. -/
def wordsOf (bs : List Byte) : List W64 := (List.range ((bs.length + 7) / 8)).map fun i => BitVec.ofNat 64 (leNat ((bs.drop (8 * i)).take 8))
/-- The bytes of words. -/
def bytesOf (ws : List W64) : List Byte := ws.flatMap fun w => leBytes 8 w.toNat

/-- Eight-byte words of a number. -/
def numWords (n x : Nat) : List W64 := wordsOf (leBytes (8 * n) x)

end Sys2Proof.Machine
end

