-- ==== Sys2Proof/Machine/TransSvc.lean ====
section
/-!
DEFINITION. The translation service (spec/17_translation_contract.md R340 to R350): quick translation, the Groomer, the cache, and the
commands of Table 17.3.
-/
namespace Sys2Proof.Machine

/-! ## The translation cache (R342) -/

/-- A crew of some group, placed or suspended, one beside its handler too, or a launch under way, can still issue from a translation. -/
def transUsed (s : State) (t : Nat) : Bool :=
  let grp := fun (g : Group) => (g.crews.any fun c => c.tr = t) || (g.nested.any fun n => n.held.tr = t)
  s.cores.any (fun c => match c.2.group with | some g => grp g | none => false) ||
  s.pkg.launches.any fun l => liveLaunch l.2 && (l.2.tr = some t || l.2.suspended.any fun x => x.groups.any fun g => grp g.2)

/-- A translation leaves the cache. -/
def dropTrans (t : Nat) (s : State) : State := (unmapCode t s).modPkg fun p => { p with trans := p.trans.del t }

/-- Evicts least recently used entries until `n` bytes have a place in the cache; none where nothing can be evicted. -/
def makeSpace (n : Nat) : Nat → State → State × Option Nat
  | 0, s => (s, none)
  | fuel + 1, s =>
    match cachePlace s n with
    | some b => (s, some b)
    | none =>
      match (s.pkg.trans.filter fun t => !transUsed s t.1).foldl (fun (b : Option (Nat × Trans)) t =>
          match b with
          | some x => if t.2.used < x.2.used then some t else b
          | none => some t) none with
      | none => (s, none)
      | some (t, _) => makeSpace n fuel (dropTrans t s)

/-- Writes a package's bytes at their place in the translation cache, through to HBM4 (01 R17). -/
def storePkg (b : Nat) (bs : List Byte) (s : State) : State :=
  foldS (List.range (bs.length / 128 + 2)) (fun i s => writeBackLine (lineOf b + 1 + i) s) (physWrite {} (b + 192) bs s).1

/-- Installs a translation under the next number, if the cache has space. -/
def installTrans (x : Trans) (s : State) : State × Option Nat :=
  match makeSpace (transRoom x) (s.pkg.trans.length + 1) s with
  | (s, none) => (s, none)
  | (s, some b) =>
    let n := s.pkg.nextTrans
    ((storePkg b x.pkg s).modPkg fun p => { p with trans := p.trans.put n { x with used := s.now, base := some b }, nextTrans := n + 1 }, some n)

/-- A launch of a key waits for its translation. -/
def awaits (k : Key) (l : Launch) : Bool := liveLaunch l && l.waitTr && l.key = some k

/-- Sets out to translate the kernel of the first launch that waits for a key. -/
def quickStart (k : Key) (s : State) : State :=
  match (s.pkg.launches.filter fun l => awaits k l.2).head? with
  | some (n, l) => if l.kernel.isSome then quickBegin n s else s
  | none => s

/-- Gives an installed translation to the launches that wait for its key, which may then be placed. A locked-clock partition takes quick
translations only (R344): its launches go on waiting for one. -/
def serveTrans (k : Key) (t : Nat) (s : State) : State :=
  let (nat, quick) := match s.trans t with | some x => (!x.code.isEmpty, x.quick) | none => (false, true)
  let ns := (s.pkg.launches.filter fun l => awaits k l.2 && (quick || !(s.part (s.partOfLaunch l.1)).locked)).map Prod.fst
  quickStart k (foldS ns (fun n s =>
    callPlacement n ((mapCode (s.launch n).asid t s).modLaunch n fun l => { l with tr := some t, waitTr := false, fjoset := nat })) s)

/-- The successors that a segment's terminator names. -/
def endNames (fm ver : Nat) : Nat → List Byte → List (Nat × Nat)
  | 0, _ => []
  | fuel + 1, bs =>
    match decodeBurhus fm ver bs with
    | .error _ => []
    | .ok (i, rest) => match termNames i with | some ns => ns | none => endNames fm ver fuel rest

/-- The commit-point entry of a translation at the end of a segment that names `e`: where the strands that enter `e` hold their
values. -/
def entryPoint (fm : Nat) (kn : Kernel) (t : Trans) (e : Nat) : Option CPoint :=
  (List.zip (List.range kn.segs.length) kn.segs).findSome? fun x =>
    if (endNames fm kn.version (x.2.len + 1) ((kn.code.drop x.2.off).take x.2.len)).any fun n => n.1 ≤ e && e < n.1 + n.2 then
      (t.side.filter fun p => p.seg = x.1).getLast?
    else none

/-- Strands of a Burhus kernel that wait to enter a segment take their places in the locations of a new translation. -/
def moveIn (fm : Nat) (kn : Kernel) (t : Trans) (g : Group) : Group :=
  let f := g.frontier
  let put := fun (e ctx : Nat) (ls : List (Nat × Nat)) (g : Group) => match entryPoint fm kn t e with | some p => toNative p ctx ls g | none => g
  let g := f.records.foldl (fun g r => put r.seg 0 (r.lists.flatMap fun l => l.2.map fun x => (l.1, x)) g) g
  let g := f.ready.foldl (fun g r => if r.whole then put r.crew.seg r.crew.ctx r.crew.strands g else g) g
  { g with frontier := { g.frontier with ready := g.frontier.ready.map fun r =>
      if r.whole then { r with crew := { r.crew with fjoset := true } } else r } }

/-- Puts a replacement in the place of a translation (R347, 03 R68): launches begin their next entries in it, those of a locked-clock partition excepted,
which uses quick translations only (R344). -/
def replaceTrans (old_ new : Nat) (s : State) : State :=
  let nat := match s.trans new with | some x => !x.code.isEmpty | none => false
  let quick := match s.trans new with | some x => x.quick | none => true
  let hit := s.pkg.launches.filter fun l => l.2.tr = some old_ && liveLaunch l.2 && (quick || !(s.part (s.partOfLaunch l.1)).locked)
  let s := s.modTrans old_ fun t => { t with stale := true, grooming := false }
  let s := foldS hit (fun l s => (mapCode l.2.asid new s).modLaunch l.1 fun l => { l with tr := some new, fjoset := nat }) s
  match s.trans new with
  | some t =>
    if !nat then s
    else foldS hit (fun l s =>
      match l.2.kernel with
      | none => s
      | some kn =>
        let go := moveIn l.2.fmask kn t
        let s := foldS l.2.cores (fun k s => s.modGroup k fun g => if g.launch = l.1 then go g else g) s
        s.modLaunch l.1 fun l => { l with suspended := l.suspended.map fun x => { x with groups := x.groups.map fun g => (g.1, go g.2) } }) s
  | none => s

/-! ## Quick translation and requests (R341, R343, R344) -/

/-- The quick translation of a kernel. -/
def quickTrans (k : Key) (kn : Kernel) : Trans :=
  { key := k
    entries := (List.zip (List.range kn.segs.length) kn.segs).map fun x => (x.2.prio, Config.quickBundle k.hash x.1)
    entryE := kn.entrySeg, trapE := kn.trapSeg, stages := kn.stages, chash := k.hash, kernel := some kn
    pkg := Config.quickPkg kn.code kn.pool (keyWords k) }

/-- QUICK_TRANSLATION_DONE (R341, R343): the launch's kernel has been translated; every launch that joined starts on the result. It
waits while the cache has no space. -/
def execQuickTranslationDone (launch : Nat) (s : State) : Host.Outcome State Fault Refusal :=
  .next (let l := s.launch launch
    match l.key, l.kernel with
    | some k, some kn =>
      if !(s.pkg.launches.any fun x => awaits k x.2) then s
      else
        match findTrans s k (s.part (s.partOfLaunch launch)).locked with
        | some t => serveTrans k t s
        | none =>
          match installTrans (quickTrans k kn) s with
          | (s, some t) => serveTrans k t s
          | (s, none) => s.post (s.now + usec 1) (.quickTranslationDone launch)
    | _, _ => s)

/-- TRANSREQ_TIMEOUT (R341): the host has sent nothing for the key that a launch asked for. -/
def execTransreqTimeout (launch : Nat) (s : State) : Host.Outcome State Fault Refusal :=
  .next (match (s.launch launch).key with | some k => quickStart k s | none => s)

/-! ## The Groomer (R345 to R347) -/

/-- The kernel that a translation translates, as the Fjoset cores keep it or as some launch holds it. -/
def kernelOfTrans (s : State) (t : Nat) : Option Kernel :=
  ((s.trans t).bind Trans.kernel).orElse fun _ => (List.find? (fun (l : Nat × Launch) => l.2.tr = some t) s.pkg.launches).bind fun l => l.2.kernel

/-- A translation may be groomed: its kernel allows it. -/
def groomable (s : State) (t : Nat) : Bool :=
  match s.trans t, kernelOfTrans s t with
  | some x, some kn => !x.stale && !kn.fjoset && !kn.noGroom
  | _, _ => false

/-- GROOM_START (R346): the Groomer begins to translate a hot translation's kernel again. -/
def execGroomStart (tr : Nat) (s : State) : Host.Outcome State Fault Refusal :=
  .next (if groomable s tr then s.modTrans tr fun t => { t with grooming := true, kernel := kernelOfTrans s tr } else s)

/-- A translation's pieces from a package that has been validated. -/
def transOf (x : XPkg) (side : List CPoint) (k : Key) (pkg : List Byte) : Trans :=
  { key := k, code := x.code, side := side
    entries := x.entries.map fun e => (fld 47 32 e, fld 31 0 e)
    twins := x.twins, entryE := x.entryE, trapE := if x.trapE = 0xFFFFFF then none else some x.trapE
    stages := x.stages, groomed := x.groomed, quick := false, nhash := x.nhash, chash := BitVec.ofNat 128 x.chash, pkg := pkg }

/-- A launch of a locked-clock partition uses a translation: the Groomer installs no replacement for it (R344). -/
def lockedUse (s : State) (tr : Nat) : Bool :=
  s.pkg.launches.any fun l => l.2.tr = some tr && liveLaunch l.2 && (s.part (s.partOfLaunch l.1)).locked

/-- The Groomer may hoist loads above stores: the kernel's header has NOSPEC = 0 (R346, 02 R37). -/
def mayHoist (s : State) (tr : Nat) : Bool := match kernelOfTrans s tr with | some kn => !kn.noSpec | none => false

/-- The entry numbers and priorities of a package are those of the Burhus segment table (R347). -/
def sameSegments (kn : Kernel) (x : XPkg) : Bool :=
  x.entries.map (fld 47 32) = kn.segs.map Seg.prio && x.entryE = kn.entrySeg && x.trapE = kn.trapSeg.getD 0xFFFFFF

/-- GROOMED_INSTALL (R346, R347): the Groomer's result, as a package, replaces a translation, with its key; launches of a locked-clock
partition keep theirs. -/
def execGroomedInstall (tr : Nat) (pkg : List Byte) (s : State) : Host.Outcome State Fault Refusal :=
  .next (match s.trans tr, parsePkg pkg with
    | some t, some x =>
      if !t.grooming || lockedUse s tr || !x.groomed || x.chash ≠ t.key.hash.toNat || x.vbc ≠ t.key.vbc.toNat || x.fmask ≠ t.key.fmask.toNat ||
         (kernelOfTrans s tr).any (fun kn => !sameSegments kn x) || !hoistsOk x then s
      else
        match validate t.key.fmask.toNat (mayHoist s tr) x with
        | .error _ => s
        | .ok side =>
          match installTrans { transOf x side t.key pkg with kernel := kernelOfTrans s tr } s with
          | (s, some n) => replaceTrans tr n s
          | (s, none) => s.post (s.now + usec 1) (.groomedInstall tr pkg)
    | _, _ => s)

/-- A translation in which a region has counted sixteen conflicts is to be replaced, unless it has been or a locked-clock partition runs it. -/
def conflictDue (s : State) (t : Nat × Trans) : Bool := t.2.conf.any (fun c => 16 ≤ c.2) && !t.2.stale && !lockedUse s t.1

/-- CONFLICT_LIMIT (11 R238): a translation one of whose regions has counted sixteen conflicts gives place to one in which that region's
twin stands as the region (R347). While the cache has no space for it, it waits (R342). -/
def execConflictLimit (s : State) : Host.Outcome State Fault Refusal :=
  .next (match List.find? (conflictDue s) s.pkg.trans with
    | none => s
    | some (n, t) =>
      match installTrans { t with noSp := t.noSp ++ (t.conf.filter fun c => 16 ≤ c.2).map Prod.fst, conf := [], prof := [], grooming := false } s with
      | (s, some m) => replaceTrans n m s
      | (_, none) => s)

/-! ## Commands (R350, Table 17.3) -/

/-- The installed translation of a key. -/
def transAt (s : State) (k : Key) : Option (Nat × Trans) :=
  List.find? (fun (t : Nat × Trans) => !t.2.stale && t.2.key = k) s.pkg.trans

/-- A package's bytes as exported: TWINCNT and GROOMED as installed, both 0 for a quick translation, SIGLEN and SRCPKG set, and the signature by the identity key (R349). -/
def signedPkg (s : State) (t : Trans) : List Byte × BitVec 128 :=
  let body := match parsePkg t.pkg with | some x => x.body | none => t.pkg
  let h := leNat (body.take 64)
  let h := if t.quick then h - fld 479 448 h * 2 ^ 448 - fld 211 211 h * 2 ^ 211 else h
  let h' := h - fld 511 480 h * 2 ^ 480 - fld 243 224 h * 2 ^ 224 + 1280 * 2 ^ 480 + s.svc.pkgId.toNat * 2 ^ 224
  let body := leBytes 64 h' ++ body.drop 64
  let sig := (Config.sign (shake256 body 64) ++ List.replicate 1280 0).take 1280
  (body ++ sig, BitVec.ofNat 128 (leNat (shake256 body 16)))

/-- Two words of a 128-bit value. -/
def words128 (x : BitVec 128) : List W64 := [x.setWidth 64, (x >>> (64 : Nat)).setWidth 64]

/-- EXPORT. -/
def execExportTr (h : CmdHdr) (w : List W64) (s : State) : Host.Outcome State Fault Refusal :=
  .next (ownerCmd h 0x30 (fun s =>
    match keyBlock w 0 with
    | none => badOperand h 0x30 s
    | some k =>
      if w.length ≠ 5 || !hostBufOk w 3 then badOperand h 0x30 s
      else
        match transAt s k with
        | none => refused h 0x30 "ABSENT" s
        | some (_, t) =>
          let (bs, nh) := signedPkg s t
          if opw w 4 < bs.length then badOperand h 0x30 s
          else accepted h 0x30 (words128 nh ++ [BitVec.ofNat 64 bs.length]) (s.putRaw (busPa (opw w 3)) bs)) s)

/-- Installs an arriving package under a key, or discards it because the key is present (R350). -/
def arriveTrans (x : Trans) (s : State) : State × Except String Nat :=
  match transAt s x.key with
  | some (n, t) =>
    if t.quick && x.groomed then
      match installTrans { x with kernel := t.kernel } s with
      | (s, some m) => (replaceTrans n m s, .ok m)
      | (s, none) => (s, .error "NO_SPACE")
    else (s, .error "PRESENT")
  | none =>
    match installTrans x s with
    | (s, some m) => (serveTrans x.key m s, .ok m)
    | (s, none) => (s, .error "NO_SPACE")

/-- IMPORT: the signature is verified, TVER is checked, and then the package is validated. -/
def execImportTr (h : CmdHdr) (w : List W64) (s : State) : Host.Outcome State Fault Refusal :=
  .next (ownerCmd h 0x31 (fun s =>
    if w.length ≠ 3 || decide (1024 ≤ opw w 0) || !hostBufOk w 1 then badOperand h 0x31 s
    else
      let bs := hostBytes s w 1
      match cutPkg bs with
      | none => refused h 0x31 "UNTRUSTED" s
      | some x =>
        if x.sig = [] || !(s.pkg.trust.any fun pk => Config.verify pk (shake256 x.body 64) x.sig) then refused h 0x31 "UNTRUSTED" s
        else if x.tver ≠ s.svc.tver.toNat then refused h 0x31 "TVER_DIFF" s
        else if parsePkg bs = none then refused h 0x31 "R348" s
        else
          let k : Key := { hash := BitVec.ofNat 128 x.chash, tver := s.svc.tver, vbc := BitVec.ofNat 2 x.vbc, fmask := BitVec.ofNat 8 x.fmask, dom := BitVec.ofNat 10 (opw w 0) }
          match validate x.fmask true x with
          | .error r => refused h 0x31 r s
          | .ok side =>
            match arriveTrans (transOf x side k bs) s with
            | (s, .error e) => refused h 0x31 e s
            | (s, .ok _) => accepted h 0x31 (keyWords k) s) s)

/-- TRUST: adds a key to the trust list, which holds at most 4,096. -/
def execTrustKey (h : CmdHdr) (w : List W64) (s : State) : Host.Outcome State Fault Refusal :=
  .next (ownerCmd h 0x32 (fun s =>
    let pk := (bytesOf (w.drop 1)).take 1793
    if w.length ≠ 226 || opw w 0 ≠ 1793 || ((bytesOf (w.drop 1)).drop 1793).any (fun b => b ≠ 0) then badOperand h 0x32 s
    else if s.pkg.trust.contains pk then accepted h 0x32 [] s
    else if 4096 ≤ s.pkg.trust.length then badOperand h 0x32 s
    else accepted h 0x32 [] (s.modPkg fun p => { p with trust := p.trust ++ [pk] })) s)

/-- UNTRUST: removes a key. -/
def execUntrustKey (h : CmdHdr) (w : List W64) (s : State) : Host.Outcome State Fault Refusal :=
  .next (ownerCmd h 0x33 (fun s =>
    let pk := (bytesOf (w.drop 1)).take 1793
    if w.length ≠ 226 || opw w 0 ≠ 1793 || ((bytesOf (w.drop 1)).drop 1793).any (fun b => b ≠ 0) then badOperand h 0x33 s
    else accepted h 0x33 [] (s.modPkg fun p => { p with trust := p.trust.filter (· ≠ pk) })) s)

/-- NATIVE: installs an unsigned package, for the functions listed. -/
def execNativeInstall (h : CmdHdr) (w : List W64) (s : State) : Host.Outcome State Fault Refusal :=
  .next (ownerCmd h 0x34 (fun s =>
    let n := fld 22 16 (opw w 0)
    let fns := (w.drop 3).map BitVec.toNat
    if fld 63 23 (opw w 0) ≠ 0 || fld 15 10 (opw w 0) ≠ 0 || n < 1 || 64 < n || !hostBufOk w 1 || w.length ≠ 3 + n || fns.any (512 ≤ ·) then
      badOperand h 0x34 s
    else if !(fns.all fun f => assisted s (s.fn f).part 1) then refused h 0x34 "BAD_COMMAND" s
    else
      let bs := hostBytes s w 1
      match parsePkg bs with
      | none => refused h 0x34 "R348" s
      | some x =>
        if x.sig ≠ [] || x.twins ≠ [] || x.groomed || x.tver ≠ 0 then refused h 0x34 "R350" s
        else
          match validate x.fmask false x with
          | .error r => refused h 0x34 r s
          | .ok side =>
            let only := x.chash = 0
            let k : Key := {
              hash := if only then x.nhash else BitVec.ofNat 128 x.chash, tver := s.svc.tver, vbc := BitVec.ofNat 2 x.vbc
              fmask := BitVec.ofNat 8 x.fmask, dom := BitVec.ofNat 10 (fld 9 0 (opw w 0)) }
            match arriveTrans { transOf x side k bs with fns := if only then fns else [] } s with
            | (s, .error e) => refused h 0x34 e s
            | (s, .ok _) => accepted h 0x34 (words128 x.nhash) s) s true)

/-- TCEVICT (R342): the entries of a domain, or of one key, that are not in use leave the cache. -/
def execTcevict (h : CmdHdr) (w : List W64) (s : State) : Host.Outcome State Fault Refusal :=
  .next (ownerCmd h 0x35 (fun s =>
    let d := fld 9 0 (opw w 0)
    let keyed := bitOf 63 (opw w 0)
    let k := keyBlock w 1
    if fld 62 10 (opw w 0) ≠ 0 || w.length ≠ (if keyed then 4 else 1) ||
       (keyed && (match k with | some k => k.dom.toNat ≠ d | none => true)) then badOperand h 0x35 s
    else
      let out := s.pkg.trans.filter fun t => t.2.key.dom.toNat = d && (!keyed || some t.2.key = k) && !transUsed s t.1
      accepted h 0x35 [BitVec.ofNat 64 out.length]
        (foldS (out.map Prod.fst) dropTrans s)) s)

/-- DECLINE (R341), which the host alone sends (Table 17.3): the launches that wait for the key are quick-translated. -/
def execDecline (h : CmdHdr) (w : List W64) (s : State) : Host.Outcome State Fault Refusal :=
  .next (anyCmd h 0x36 (fun s =>
    if h.from_.cls ≠ 1 then answer h 0x36 1 "" [] s
    else match keyBlock w 0 with
    | none => badOperand h 0x36 s
    | some k =>
      if w.length ≠ 3 then badOperand h 0x36 s
      else
        quickStart k (accepted h 0x36 [] s)) s)

end Sys2Proof.Machine
end

