-- ==== Sys2Proof/Machine/Partitions.lean ====
section
/-!
DEFINITION. Partitions (spec/19_partitions_tenants.md R380 to R383; spec/05_l2_lift_ring.md R104, R107, R113): the checks of a PCONFIG, the
order in which it is applied, and the launches that a change leaves unplaceable.
-/
namespace Sys2Proof.Machine

/-! ## Operands (20 Table 20.3) -/

/-- The record, bank entries and bitmaps of a PCONFIG. -/
structure PConf where
  p : Nat
  record : BitVec 256
  banks : List (Nat × BankEntry)
  /-- die, table, and the 256 bytes of positions -/
  maps : List (Nat × Nat × Nat)
  deriving DecidableEq, Repr

/-- The operands as they stand. -/
def pconfOf (w : List W64) : PConf :=
  let nb := fld 19 8 (opw w 0)
  let nm := fld 27 20 (opw w 0)
  let p := fld 5 0 (opw w 0)
  let r := leNat (bytesOf ((w.drop 1).take 4))
  { p := p
    record := BitVec.ofNat 256 (r - fld 99 94 r * 2 ^ 94 + p * 2 ^ 94)
    banks := ((w.drop 5).take nb).map fun x => (fld 10 0 x.toNat, BitVec.ofNat 32 (fld 63 32 x.toNat))
    maps := (List.range nm).map fun i =>
      let m := (w.drop (5 + nb + 33 * i)).take 33
      (fld 1 0 (opw m 0), fld 5 2 (opw m 0), leNat (bytesOf (m.drop 1))) }

/-- A bank entry's kinds: service, window, partition cache or staging. -/
def bankKinds (e : BankEntry) : Nat :=
  (bankSvc e).toNat + (if bankWin e ≠ 0 then 1 else 0)

/-- A bank entry is in form for partition `p` (05 Table 5.1; R381). -/
def entryForm (p : Nat) (e : BankEntry) : Bool :=
  fld 14 0 e.toNat = 0 && bankMode e ≤ 2 &&
  (if bankMode e = 0 then e = 0 || bankPart e = p && bankKinds e = 0
   else if bankKinds e = 0 then bankPart e = p else bankMode e = 2 && bankPart e = 0)

/-- Ranges of a partition record (Table 19.3). -/
def recordRanges (r : Nat) : Bool :=
  fld 69 0 r = 0 && fld 191 160 r ≠ 0 && 16 ≤ fld 159 144 r && 1 ≤ fld 143 128 r && fld 143 128 r ≤ 10000 && 5 ≤ fld 127 120 r &&
  fld 127 120 r ≤ 200 && 1 ≤ fld 119 112 r && 10 ≤ fld 111 107 r && fld 77 73 r ≤ 16 && fld 72 70 r ≤ 4

/-- The words are in layout. -/
def pconfLayout (w : List W64) : Bool :=
  let w0 := opw w 0
  let nb := fld 19 8 w0
  let nm := fld 27 20 w0
  fld 63 28 w0 = 0 && fld 7 6 w0 = 0 && nb ≤ 2048 && nm ≤ 40 && w.length = 5 + nb + 33 * nm &&
  ((w.drop 5).take nb).all (fun x => fld 31 11 x.toNat = 0) &&
  (List.range nm).all fun i => fld 63 6 (opw (w.drop (5 + nb + 33 * i)) 0) = 0 && fld 5 2 (opw (w.drop (5 + nb + 33 * i)) 0) < 10

/-- A bank belongs to a partition. -/
def bankOf (e : BankEntry) : Option Nat := if bankMode e ≠ 0 ∧ bankKinds e = 0 then some (bankPart e) else none

/-- The other partitions. -/
def otherParts (s : State) (p : Nat) : List (Nat × Part) := s.pkg.parts.filter fun x => x.1 ≠ p

/-- An entry of a chair table as it will be once every write has taken effect: 0x80 service, 0x40 + partition owned, 0 open. -/
def chairSoon (s : State) (die table pos : Nat) : Nat :=
  let k := (die * 10 + table) * 2048 + pos
  let e := match s.pkg.chairsNext.find? k with | some b => b.toNat | none => (s.pkg.chairs.get 0 k).toNat
  if e = 0 ∧ 2016 ≤ pos then 0x80 else e

/-- The bank entries after a PCONFIG. -/
def banksAfter (s : State) (bs : List (Nat × BankEntry)) : SMap BankEntry :=
  bs.foldl (fun m b => m.set 0 b.1 (if bankMode b.2 = 0 then 0 else b.2)) s.pkg.banks

/-- Every partition with regions and every window in use has a cache bank, the package has a service bank, and no entry is of two
kinds (05 R104). -/
def banksOk (s : State) (m : SMap BankEntry) (parts : List Nat) : Bool :=
  m.all (fun b => bankKinds b.2 ≤ 1) &&
  parts.all (fun p => m.any fun b => bankMode b.2 = 2 && bankOf b.2 = some p) &&
  s.pkg.wins.all (fun x => x.2.members.isEmpty || m.any fun b => bankMode b.2 = 2 && bankWin b.2 = x.1) &&
  m.any fun b => bankMode b.2 = 2 && bankSvc b.2

/-- Dies on which a partition holds a region. -/
def diesOf (regm : Nat) : List Nat := (List.range 4).filter fun d => fld (16 * d + 15) (16 * d) regm ≠ 0

/-- On some die every engine of a class is dedicated, and a partition with a region there has none of them (R381). -/
def starved (ps : List Part) (cls : Nat) : Bool :=
  let all : Nat := if cls = 0 then 16 else 4
  let sum : Nat := ps.foldl (fun n p => n + p.engs cls) 0
  decide (all ≤ sum) && ps.any fun p => diesOf p.regm ≠ [] && p.engs cls = 0

/-- The first check of R381 that a PCONFIG fails. -/
def pconfFails (s : State) (w : List W64) : Option String :=
  let c := pconfOf w
  let new : Part := { s.part c.p with record := c.record }
  let rest := otherParts s c.p
  let all := rest.map Prod.snd ++ [new]
  let chairBad := fun (t : Nat → Bool) => c.maps.any fun m => (List.range 2048).any fun i => bitOf i m.2.2 && t (chairSoon s m.1 m.2.1 i)
  if !pconfLayout w || !recordRanges c.record.toNat || new.regm = 0 || !c.banks.all (fun b => entryForm c.p b.2) then some "BAD_OPERAND"
  else if rest.any fun x => x.2.regm &&& new.regm ≠ 0 then some "REGION_TAKEN"
  else if c.banks.any fun b => match bankOf (s.pkg.banks.get 0 b.1) with | some q => q ≠ c.p | none => false then some "BANK_TAKEN"
  else if chairBad fun e => e / 64 = 1 && e % 64 ≠ c.p then some "CHAIR_TAKEN"
  else if chairBad fun e => e / 64 = 2 then some "SVC_POSITION"
  else if (new.locked && new.engs 0 = 0) || decide (16 < all.foldl (fun n p => n + p.engs 0) 0) || decide (4 < all.foldl (fun n p => n + p.engs 1) 0) then
    some "ENGINE_BOUND"
  else if new.locked && !s.svc.certified then some "NOT_CERTIFIED"
  else if starved all 0 || starved all 1 then some "ENGINE_STARVED"
  else if !banksOk s (banksAfter s c.banks) (c.p :: (rest.filter fun x => x.2.regm ≠ 0).map Prod.fst) then some "BANK_CONFIG"
  else none

/-! ## Bank changes (05 R107) -/

/-- Writes back and drops the L2 lines of a bank. -/
def flushBank (b : Nat) (s : State) : State :=
  let ls := (s.pkg.l2.filter fun e => e.2.bank = b).map Prod.fst
  let s := foldS ls writeBackLine (mergeBank b s)
  s.modPkg fun p => { p with l2 := p.l2.filter fun e => e.2.bank ≠ b }

/-- The home lists that an entry, as a cache bank, stands on: a list of owner codes whose home list it is on. -/
def listOwners (s : State) (e : BankEntry) : List Nat :=
  if bankMode e ≠ 2 then []
  else if bankSvc e then [0]
  else if bankWin e ≠ 0 then [512 + bankWin e]
  else ((s.pkg.fns.filter fun f => 1 ≤ f.1 && f.2.part = bankPart e).map Prod.fst).take 1

/-- The banks that changes of entries flush: those that change, and the home lists that they stand or will stand on (R107). -/
def banksTouched (s : State) (bs : List (Nat × BankEntry)) : List Nat :=
  let owners := bs.flatMap fun b => listOwners s (s.pkg.banks.get 0 b.1) ++ listOwners s b.2
  (owners.flatMap (s.homeList ·) ++ bs.map Prod.fst).eraseDups

/-- Applies changes of bank entries: what R107 asks for first, then the entries; merges that a full log still holds go to their new home banks. -/
def applyBanks (bs : List (Nat × BankEntry)) (s : State) : State :=
  let fin := banksAfter s bs
  let bs := bs.filter fun b => s.pkg.banks.get 0 b.1 ≠ fin.get 0 b.1
  let old_ := banksTouched s bs
  let s := foldS old_ flushBank s
  let left := old_.flatMap (s.pkg.mergeQ.get [] ·)
  let gone := (bs.filter fun b => bankMode (s.pkg.banks.get 0 b.1) = 1 || bankMode b.2 = 1).map Prod.fst
  foldS left enqueueMerge (s.modPkg fun p => { p with
    staging := p.staging.filter fun e => !gone.contains (e.1 / 196608)
    mergeQ := p.mergeQ.filter fun e => !old_.contains e.1
    banks := fin })

/-- A line of a bank that the changes flush is pinned. -/
def banksPinned (s : State) (bs : List (Nat × BankEntry)) : Bool :=
  let old_ := banksTouched s (bs.filter fun b => s.pkg.banks.get 0 b.1 ≠ (banksAfter s bs).get 0 b.1)
  s.pkg.l2.any fun e => old_.contains e.2.bank && 0 < e.2.pins

/-- No started launch of a partition is incomplete: it stands at an operator boundary (18 R369). -/
def atBoundary (s : State) (p : Nat) : Bool :=
  s.pkg.launches.all fun l => !(l.2.started && liveLaunch l.2 && s.partOfLaunch l.1 = p)

/-! ## Applying a PCONFIG (R382) -/

/-- The next frame origin of a die, from now on. DESIGN CHOICE (log 107): for a table written in the very lift cycle of an origin it is that one. -/
def nextOrigin (s : State) (die : Nat) : Nat :=
  let o := s.pkg.frame.get 0 die
  s.now + (2048 - (s.now + 2048 - o % 2048) % 2048) % 2048

/-- Writes position bitmaps, to take effect at the next frame origins (05 R113). -/
def writeChairs (p : Nat) (maps : List (Nat × Nat × Nat)) (s : State) : State :=
  let s := s.modPkg fun x => { x with
    chairsNext := maps.foldl (fun m t => (List.range 2048).foldl (fun m i =>
      let k := (t.1 * 10 + t.2.1) * 2048 + i
      let e := chairSoon s t.1 t.2.1 i
      if bitOf i t.2.2 then m.put k (BitVec.ofNat 8 (0x40 + p)) else if e = 0x40 + p then m.put k 0 else m) m) x.chairsNext
    chairDiesNext := (x.chairDiesNext ++ (List.range 4).filter fun d => !x.chairDies.contains d).eraseDups }
  foldS (List.range 4) (fun d s => s.post (nextOrigin s d) (.frameOrigin d)) s

/-- Clusters of a launch that stand on cores which meet a test. -/
def clustersOn (l : Launch) (t : Nat → Bool) : List Nat := (l.placed.filter fun c => c.2.any t).map Prod.fst

/-- Stops every cluster placed on a core that meets a test. -/
def preemptOn (t : Nat → Bool) (s : State) : State :=
  foldS (s.pkg.launches.filter fun l => !(clustersOn l.2 t).isEmpty) (fun l s => preemptClusters l.1 (clustersOn l.2 t) s) s

/-- The partition holds a placed or suspended cluster. -/
def holdsClusters (s : State) (p : Nat) : Bool :=
  s.pkg.launches.any fun l => s.partOfLaunch l.1 = p && (!l.2.placed.isEmpty || !l.2.suspended.isEmpty)

/-- Steps 2 and 3 of R382, which a PCONFIG takes once: its bank entries and its chair positions. -/
def setBanks (p : Nat) (c : PConf) (s : State) : State :=
  let s := (applyBanks c.banks s).modPkg fun x => { x with bankHeld := x.bankHeld.filter fun b => !c.banks.contains b }
  (writeChairs p c.maps s).modPart p fun x => { x with banksSet := true }

/-- Spill areas for the live contexts of a partition's functions in the regions that it has gained, each a granule of the function (05 R110). -/
def backSpills (p : Nat) (s : State) : State :=
  let cs := (s.pkg.ctxs.filter fun c => c.2.live && (s.fn c.2.fnum).part = p).map Prod.fst
  foldS cs (fun a s => foldS (List.range 64) (fun r s =>
    if !bitOf r (s.part p).regm || ((s.ctx a).spillGr.find? r).isSome then s
    else match freeGranules s 1 with
      | some [g] => (assignGranule g (s.fnOf a) s).modCtx a fun c => { c with spillGr := c.spillGr.put r g, saveGr := c.saveGr ++ [g] }
      | _ => s) s) s

/-- Applies the oldest PCONFIG of a partition as far as it may go now: what is held stays for a later evaluation. -/
def applyPending (p : Nat) : Nat → State → State
  | 0, s => s
  | fuel + 1, s =>
    match (s.part p).pending with
    | [] => s
    | (h, w) :: rest =>
      let c := pconfOf w
      let new : Part := { s.part p with record := c.record }
      let gone := fun (k : Nat) => bitOf (regionOf k) (s.part p).regm && !bitOf (regionOf k) new.regm
      let s := preemptOn gone s
      let s := s.modPart p fun x => { x with record := BitVec.ofNat 256 (x.record.toNat - x.regm * 2 ^ 192 + (x.regm &&& new.regm) * 2 ^ 192) }
      let held := s.modPkg fun x => { x with bankHeld := (x.bankHeld ++ c.banks).eraseDups }
      if !(s.part p).banksSet && !c.banks.isEmpty &&
         (!((partsOfBanks s c.banks).all (atBoundary s)) || banksPinned s c.banks) then held
      else
        let s := if (s.part p).banksSet then s else setBanks p c s
        if (s.part p).pairs ≠ new.pairs && holdsClusters s p then s
        else
          let s := backSpills p (s.modPart p fun x => { x with record := c.record, pending := rest, banksSet := false })
          let s := match h with | some h => accepted h 0x10 [] s | none => s
          applyPending p fuel s

/-- Banks with a lasting fault that are to be set to MODE 0 are, where their partitions stand at an operator boundary (20 Table 20.1). -/
def dropHeldBanks (s : State) : State :=
  let due := s.pkg.bankHeld.filter fun b => b.2 = 0 && s.svc.locs.any (fun r => r.loc = ⟨2, b.1⟩ && r.lasting) &&
    (partsOfBanks s [b]).all (atBoundary s) && !banksPinned s [b]
  if due.isEmpty then s else (applyBanks due s).modPkg fun x => { x with bankHeld := x.bankHeld.filter fun b => !due.contains b }

/-- A partition whose cooling certification has lapsed leaves locked mode at its operator boundary, and the owner is told (20 R402). -/
def applyUnlock (p : Nat) (s : State) : State :=
  if (s.part p).unlock && atBoundary s p then
    report "LEFT_LOCKED" none p (s.modPart p fun x => { x with unlock := false, record := x.record &&& BitVec.ofNat 256 (2 ^ 256 - 1 - 2 ^ 100) })
  else s

/-- Applies whatever is waiting in a partition. -/
def applyHeld (p : Nat) (s : State) : State := applyPending p ((s.part p).pending.length + 1) (applyUnlock p (dropHeldBanks s))

/-! ## Unplaceable launches (R383) -/

/-- The groups of a launch's cluster. -/
def Launch.groups (l : Launch) : Nat := l.stages * l.gps

/-- Some region of a partition holds cores, and the partition staging banks, enough for a cluster of a launch. -/
def fitsEver (s : State) (p : Nat) (l : Launch) : Bool :=
  let ok := fun (k : Nat) => !(s.core k).fenced && (!(s.part p).pairs || !(s.core (k + 1)).fenced)
  let step := if (s.part p).pairs then 2 else 1
  let most := 8 / step
  let g := l.groups
  decide (g * (l.nstage + l.nelast) ≤ (s.banksWhere fun e => bankMode e = 1 && bankPart e = p).length) &&
  (List.range 64).any fun r => bitOf r (s.part p).regm &&
    if l.stages = 1 then decide (g ≤ ((List.range most).filter fun i => ok (8 * r + step * i)).length)
    else (List.range (most + 1 - g)).any fun c0 => (List.range g).all fun i => ok (8 * r + step * (c0 + i))

/-- A launch can be placed no more. -/
def unplaceable (s : State) (n : Nat) (l : Launch) : Bool :=
  let p := s.partOfLaunch n
  l.suspended.any (fun x => x.groups.any fun g => !bitOf (regionOf g.1) (s.part p).regm || (s.core g.1).fenced ||
    ((s.part p).pairs && (s.core (g.1 + 1)).fenced)) ||
  (decide (l.nextCluster < l.grid) && !fitsEver s p l)

/-- Looks at every launch of a partition: one that has become unplaceable is suspended and its grace time of 100 ms starts; one that
is placeable again goes on. -/
def checkPlaceable (p : Nat) (s : State) : State :=
  foldS (s.pkg.launches.filter fun l => l.2.started && liveLaunch l.2 && l.2.status.isNone && s.partOfLaunch l.1 = p) (fun l s =>
    match unplaceable s l.1 l.2, l.2.unplacedAt with
    | true, none =>
      let s := preemptClusters l.1 (l.2.placed.map Prod.fst) s
      (s.modLaunch l.1 fun l => { l with unplacedAt := some s.now }).post (s.now + usec 100000) .coopUnplaceable
    | true, some _ => preemptClusters l.1 (l.2.placed.map Prod.fst) s
    | false, some _ => s.modLaunch l.1 fun l => { l with unplacedAt := none }
    | false, none => s) s

/-- COOP_UNPLACEABLE (R383): launches whose grace time has passed end. -/
def execCoopUnplaceable (s : State) : Host.Outcome State Fault Refusal :=
  .next (foldS (s.pkg.launches.filter fun l => match l.2.unplacedAt with
      | some t => liveLaunch l.2 && l.2.status.isNone && decide (t + usec 100000 ≤ s.now)
      | none => false) (fun l s => endLaunch (7, 0, 0, 0) l.1 s) s)

/-- A PCONFIG takes its place behind the partition's earlier ones (R382). -/
def queuePconf (p : Nat) (x : Option CmdHdr × List W64) (s : State) : State :=
  s.modPart p fun r => { r with pending := r.pending ++ [x], banksSet := r.banksSet && !r.pending.isEmpty }

/-- PCONFIG (R380 to R382). -/
def execPconfig (h : CmdHdr) (w : List W64) (s : State) : Host.Outcome State Fault Refusal :=
  .next (ownerCmd h 0x10 (fun s =>
    match pconfFails s w with
    | some e => refused h 0x10 e s
    | none =>
      let p := (pconfOf w).p
      (applyHeld p (queuePconf p (some h, w) s)).post s.now (.placementEvaluation p)) s)

end Sys2Proof.Machine
end

