-- ==== Sys2Proof/Machine/Placement.lean ====
section
/-!
DEFINITION. Placement (spec/16_scheduling.md R331 to R335; spec/15_execution_model_launch.md R310, R319, R320; spec/07 R142): what fits,
where a cluster goes, the state in which its groups start, reservations, and tenant slices (spec/18 R369, R370).
-/
namespace Sys2Proof.Machine

/-! ## Fit (R332) -/

/-- Cores, or even cores of pairs, by which a partition's regions are counted. -/
def coreSteps (s : State) (p r : Nat) : List Nat :=
  if (s.part p).pairs then (List.range 4).map fun i => 8 * r + 2 * i else (List.range 8).map fun i => 8 * r + i

/-- The cores that a cluster of a launch takes in a region, where `free` says which are free and `banks` staging banks are. -/
def coresFor (s : State) (p r : Nat) (l : Launch) (free : Nat → Bool) (banks : Nat) : Option (List Nat) :=
  let cs := coreSteps s p r
  let g := l.groups
  if !bitOf r (s.part p).regm || decide (banks < g * (l.nstage + l.nelast)) then none
  else if l.stages = 1 then
    let f := (cs.filter free).take g
    if f.length = g then some f else none
  else
    ((List.range (cs.length + 1 - g)).map fun c0 => (cs.drop c0).take g).find? fun x => x.length = g && x.all free

/-- FirstFit: the lowest-numbered region that a cluster fits, with its cores. -/
def firstFit (s : State) (p n k : Nat) (l : Launch) : Option (Nat × List Nat) :=
  (List.range 64).findSome? fun r =>
    if reservedFrom s p n k r then none
    else (coresFor s p r l (freeCore s p) (freeStaging s p r).length).map fun c => (r, c)

/-! ## A group at its start (15 R310, R319; 07 R142) -/

/-- Sets key and value pairs of a table. -/
def setAll {α : Type} [DecidableEq α] (d : α) (m : SMap α) (l : List (Nat × α)) : SMap α := l.foldl (fun m e => m.set d e.1 e.2) m

/-- The bank modes of a request: scratchpad from bank 0 up, FIFO from bank 11 down, cache between. -/
def bkmOf (ns nf : Nat) : BitVec 24 :=
  BitVec.ofNat 24 ((List.range 12).foldl (fun m b => m + (if b < ns then 1 else if 12 - nf ≤ b then 2 else 0) * 4 ^ b) 0)

/-- The whole entries with which a group starts: one for each crew slot. -/
def startEntries (s : State) (l : Launch) (seg : Nat) : List Ready :=
  let base : Crew := { seg := seg, tr := l.tr.getD 0, fjoset := l.fjoset }
  let at_ : Option (Nat × Nat) :=
    if l.fjoset then ((s.trans base.tr).bind fun t => t.entries[seg]?) else (l.kernel.bind fun kn => kn.segs[seg]?).map fun x => (x.prio, 0)
  match at_ with
  | none => []
  | some (prio, pc) =>
    (List.range (ceilDiv l.spg 64)).map fun j =>
      let lanes := (List.range (min 64 (l.spg - 64 * j))).map fun i => (i, j)
      { crew := { base with strands := lanes, ctx := j, prio := prio, pc := pc, region := { entry := pc, seg := seg, bur := (seg, 0) } }
        whole := true, since := s.cycle }

/-- Group `n` of cluster `k` as it starts on the `n`-th of the cluster's cores. DEDUCED (log 100): the acquire that its core makes before the first
bundle takes the 32 core cycles of 12 R249. -/
def startGroup (s : State) (ln k n : Nat) (cores grant : List Nat) : Group :=
  let l := s.launch ln
  let up := if 1 < l.stages ∧ l.gps ≤ n then cores.getD (n - l.gps) 0 else 0
  let down := if 1 < l.stages then cores[n + l.gps]? else none
  { launch := ln, cluster := k, gnum := n, since := s.cycle, issueAt := s.cycle + 32
    bkm := bkmOf l.nscr l.nfifo
    fdn := BitVec.ofNat 10 (match down with | some c => 2 ^ 9 + c | none => 0)
    fcb := setAll 0 [] ((List.range 12).map fun b => (b, BitVec.ofNat 21 (up * 2 ^ 12)))
    v := setAll 0 [] ((List.range l.spg).map fun i => (vKey (i / 64) 0 (i % 64), BitVec.ofNat 32 i))
    frontier := { ready := startEntries s l ((l.kernel.map (·.entrySeg)).getD 0) }
    live := List.range l.spg
    staging := grant }

/-- Loads a launch's native code for a core, as locked-clock mode asks (03 R69): into its L1 where that holds it, with the lines and presence bits of its
die's gondola (R67); longer code is pinned in the gondola. -/
def preload (k asid tr : Nat) (s : State) : State :=
  match s.trans tr with
  | none => s
  | some t =>
    foldS (List.range (ceilDiv t.code.length 4)) (fun i s =>
      let x := gline s (dieOf k) (instrLine s tr (4 * i))
      if t.code.length ≤ 1024 then l1Fill k asid tr (4 * i) (gondolaPut (dieOf k) { x with pres := setBit x.pres (k % 128) true } s)
      else gondolaPut (dieOf k) { x with pin := true } s) s

/-- Locked-clock mode starts a launch with cold TLBs (04 R86). -/
def coldTlbs (p : Nat) (s : State) : State :=
  let regm := (s.part p).regm
  let s := foldS ((s.cores.filter fun c => bitOf (regionOf c.1) regm).map Prod.fst) (fun k s => s.modCore k fun c => { c with tlb := [] }) s
  s.modPkg fun x => { x with
    rtlb := x.rtlb.filter fun e => !bitOf e.1 regm
    walk := x.walk.filter fun e => !bitOf e.1 regm
    walkKeys := x.walkKeys.filter fun e => !bitOf e.1 regm }

/-- Place(k, R): every group of the cluster starts at once, each core having acquired at system scope (12 R257). -/
def placeCluster (p ln k r : Nat) (cores : List Nat) (s : State) : State :=
  let l := s.launch ln
  let nb := l.nstage + l.nelast
  let grants := takeGrants (cores.map fun _ => nb) (freeStaging s p r)
  let s := if (s.part p).locked && k = 0 then coldTlbs p s else s
  let s := zeroBanks grants.flatten s
  let s := foldS (List.zip (List.range cores.length) (List.zip cores grants)) (fun x s =>
    let (n, c, grant) := x
    let s := invalidateLines c (fun _ => true) s
    let s := s.setGroup c (startGroup s ln k n cores grant)
    if (s.part p).locked then (match l.tr with | some t => preload c l.asid t s | none => s) else s) s
  let s := s.modLaunch ln fun l => { l with placed := l.placed ++ [(k, cores)], nextCluster := k + 1, headSince := none }
  boundRun ln (endReserve p ln k s)

/-! ## Reservations and priority 7 (R334; 18 R371) -/

/-- Free cores of a region, as the partition counts them. -/
def freeIn (s : State) (p r : Nat) : Nat := ((coreSteps s p r).filter (freeCore s p)).length

/-- The region that Reserve chooses: the most free cores, the lowest-numbered first, among those with enough cores. -/
def reserveRegion (s : State) (p : Nat) (l : Launch) : Option Nat :=
  ((List.range 64).filter fun r => bitOf r (s.part p).regm && decide (l.groups ≤ coresIn s p r)).foldl (fun (b : Option Nat) r =>
    match b with
    | some x => if freeIn s p x < freeIn s p r then some r else b
    | none => some r) none

/-- Clusters that a priority-7 head may stop in a region: class 0, below priority 7, latest placed first. -/
def victims (s : State) (p r : Nat) : List (Nat × Nat × List Nat) :=
  let all := s.pkg.launches.flatMap fun l =>
    if s.partOfLaunch l.1 = p && recPclass l.2.bits = 0 && recPrio l.2.bits < 7 && liveLaunch l.2 then
      (l.2.placed.filter fun c => c.2.any fun k => regionOf k = r).map fun c => (l.1, c.1, c.2)
    else []
  let age := fun (x : Nat × Nat × List Nat) => match s.group (x.2.2.headD 0) with | some g => g.since | none => 0
  let ins := fun (x : Nat × Nat × List Nat) (l : List (Nat × Nat × List Nat)) => (l.filter fun y => age x < age y) ++ x :: l.filter fun y => age y ≤ age x
  all.foldl (fun l x => ins x l) []

/-- The shortest run of victims whose cores and staging banks let a head fit. -/
def enough (s : State) (p r : Nat) (l : Launch) (vs : List (Nat × Nat × List Nat)) : List (Nat × Nat × List Nat) :=
  let upTo := (List.range (vs.length + 1)).find? fun n =>
    let cs := (vs.take n).flatMap fun v => v.2.2
    let banks := cs.foldl (fun m k => m + (match s.group k with | some g => g.staging.length | none => 0)) 0
    (coresFor s p r l (fun k => freeCore s p k || cs.contains k) ((freeStaging s p r).length + banks)).isSome
  match upTo with | some n => vs.take n | none => []

/-- A head of priority 7 that fits nowhere stops what it needs, in the region that its reservation holds or would take. -/
def urgentHead (p ln : Nat) (s : State) : State :=
  let l := s.launch ln
  if recPrio l.bits ≠ 7 then s
  else
    let mine := match (s.part p).reserve with | some (m, _, r) => if m = ln then some r else none | none => none
    match mine.orElse fun _ => reserveRegion s p l with
    | none => s
    | some r => foldS (enough s p r l (victims s p r)) (fun v s => preemptClusters v.1 [v.2.1] s) s

/-! ## Evaluation (R333) -/

/-- The started launches of a partition that have an unplaced or suspended cluster, by priority and start. -/
def placementList (s : State) (p : Nat) : List (Nat × Launch) :=
  let ls := s.pkg.launches.filter fun l => l.2.started && liveLaunch l.2 && l.2.status.isNone && s.partOfLaunch l.1 = p &&
    (decide (l.2.nextCluster < l.2.grid) || !l.2.suspended.isEmpty)
  let before := fun (a b : Nat × Launch) => recPrio b.2.bits < recPrio a.2.bits || (recPrio a.2.bits = recPrio b.2.bits && a.2.startOrd < b.2.startOrd)
  ls.foldl (fun acc x => (acc.filter fun y => before y x) ++ x :: acc.filter fun y => !before y x) []

/-- A launch may be placed now: its translation is there, its context runs, it is not unplaceable, and the slice is its function's. -/
def placeable (s : State) (l : Launch) : Bool :=
  let c := s.ctx l.asid
  let p := s.partOfCtx l.asid
  l.tr.isSome && !l.waitTr && !c.stopped && !c.treeStop && l.unplacedAt.isNone && !c.sealing.isSome && !c.logset && !c.recovering &&
  (match (s.part p).slice with | some f => f = s.fnOf l.asid || (fnsOf s p).length ≤ 1 | none => true)

/-- The lowest suspended cluster of a launch. -/
def lowestSaved (l : Launch) : Option Saved :=
  l.suspended.foldl (fun (b : Option Saved) x => match b with | some y => if x.cluster < y.cluster then some x else b | none => some x) none

/-- Places clusters of a launch while they fit; the answer says whether one was refused. -/
def placeAll (p ln : Nat) : Nat → State → State × Bool
  | 0, s => (s, false)
  | fuel + 1, s =>
    let l := s.launch ln
    match lowestSaved l with
    | some x =>
      if canRestore s ln x then placeAll p ln fuel (restoreCluster ln x s) else (s, true)
    | none =>
      if l.grid ≤ l.nextCluster then (s, false)
      else
        match firstFit s p ln l.nextCluster l with
        | some (r, cores) => placeAll p ln fuel (placeCluster p ln l.nextCluster r cores s)
        | none => (s, true)

/-- The first launch of the placement list has the head of placement: it waits from the evaluation in which that came to be (R333). -/
def becomeHead (p ln : Nat) (s : State) : State :=
  let s := foldS (s.pkg.launches.filter fun x => x.1 ≠ ln && x.2.headSince.isSome && s.partOfLaunch x.1 = p) (fun x s =>
    s.modLaunch x.1 fun l => { l with headSince := none }) s
  if (s.launch ln).headSince.isSome then s
  else (s.modLaunch ln fun l => { l with headSince := some s.now }).post (s.now + usec (s.part p).age) .reservationAgeing

/-- The head of placement has been refused: where it has aged, it may take a reservation (R333, R334). -/
def headRefused (p ln : Nat) (s : State) : State :=
  let s := becomeHead p ln s
  let l := s.launch ln
  let k := match lowestSaved l with | some x => x.cluster | none => l.nextCluster
  let s :=
    if (s.part p).reserve.isNone && l.headSince.any (fun t => decide (t + usec (s.part p).age ≤ s.now)) then
      match (match lowestSaved l with | some x => some (regionOf ((x.groups.map Prod.fst).headD 0)) | none => reserveRegion s p l) with
      | some r => s.modPart p fun x => { x with reserve := some (ln, k, r) }
      | none => s
    else s
  urgentHead p ln s

/-- Evaluate(): walks the placement list; `blocked` are the queues behind a refused cluster, and `seen` says that the head has been walked past. A
launch that may not be placed now keeps its place in the list, as head too. -/
def walkList (p : Nat) : List (Nat × Launch) → List (Nat × Nat) → Bool → State → State
  | [], _, _, s => s
  | (ln, l) :: rest, blocked, seen, s =>
    if blocked.contains (l.asid, l.q) then walkList p rest blocked seen s
    else if !placeable s l then walkList p rest ((l.asid, l.q) :: blocked) true (if seen then s else becomeHead p ln s)
    else
      match placeAll p ln (l.grid + l.suspended.length + 1) s with
      | (s, false) => walkList p rest blocked seen s
      | (s, true) => walkList p rest ((l.asid, l.q) :: blocked) true (if seen then s else headRefused p ln s)

/-- A reservation ends with the launch that holds it. -/
def dropReserve (p : Nat) (s : State) : State :=
  match (s.part p).reserve with
  | some (m, _, _) => if liveLaunch (s.launch m) && (s.launch m).status.isNone then s else s.modPart p fun x => { x with reserve := none }
  | none => s

/-! ## Tenant slices (18 R369, R370) -/

/-- A function has work in a partition: a queue entry, a waiting head or a launch under way. -/
def hasWork (s : State) (f : Nat) : Bool :=
  s.pkg.ctxs.any (fun c => c.2.live && c.2.fnum = f && c.2.queues.any fun q => q.2.en && (q.2.head.isSome || q.2.widx ≠ q.2.ridx)) ||
  s.pkg.launches.any fun l => l.2.started && liveLaunch l.2 && s.fnOf l.2.asid = f

/-- The mean of the last switch costs in lift cycles, and the effective slice of a function. -/
def switchCost (x : Part) : Nat := if x.costs = [] then 0 else x.costs.foldl (· + ·) 0 / x.costs.length * 8 / 5
def sliceOf (s : State) (p f : Nat) : Nat := max (usec (100 * (s.fn f).weight * (s.part p).slq)) (2 * switchCost (s.part p))

/-- Begins the slice of a function. -/
def beginSlice (p f : Nat) (s : State) : State :=
  let programmed := usec (100 * (s.fn f).weight * (s.part p).slq)
  let s := s.modPart p fun x => { x with slice := some f, sliceAt := s.now, raised := decide (programmed < 2 * switchCost x) }
  s.post (s.now + sliceOf s p f) (.tenantSliceEnd p)

/-- The first slice of a partition that functions share begins with the first function that has work. -/
def firstSlice (p : Nat) (s : State) : State :=
  if (s.part p).slice.isSome || (fnsOf s p).length ≤ 1 then s
  else match (fnsOf s p).find? (hasWork s) with | some f => beginSlice p f s | none => s

/-- TENANT_SLICE_END (R369): the next function in turn that has work takes the slice; without any there is none. -/
def execTenantSliceEnd (part : Nat) (s : State) : Host.Outcome State Fault Refusal :=
  .next (match (s.part part).slice with
    | none => s
    | some f =>
      if s.now < (s.part part).sliceAt + sliceOf s part f then s
      else
        let fs := fnsOf s part
        let turn := (fs.filter (f < ·)) ++ fs.filter (· ≤ f)
        match turn.find? (hasWork s) with
        | none => s.modPart part fun x => { x with slice := none, outgoing := none, switching := none }
        | some g =>
          let s := beginSlice part g s
          let s := if g = f then s else
            (s.modPart part fun x => { x with outgoing := some (f, s.now), switching := some s.now }).post
              (s.now + usec (100 * (s.part part).opb)) (.operatorBoundExpiry part)
          let s := foldS ((s.pkg.ctxs.filter fun c => c.2.live && c.2.fnum = g).map Prod.fst) testHeads s
          s.post s.now (.placementEvaluation part))

/-- OPERATOR_BOUND_EXPIRY (R369): the outgoing function's class-0 launches that still run are pre-empted. -/
def execOperatorBoundExpiry (part : Nat) (s : State) : Host.Outcome State Fault Refusal :=
  .next (match (s.part part).outgoing with
    | none => s
    | some (f, t) =>
      if s.now < t + usec (100 * (s.part part).opb) || (s.part part).slice = some f then s
      else
        let ls := s.pkg.launches.filter fun l => s.fnOf l.2.asid = f && s.partOfLaunch l.1 = part && recPclass l.2.bits = 0 && !l.2.placed.isEmpty
        foldS ls (fun l s => preemptClusters l.1 (l.2.placed.map Prod.fst) s) (s.modPart part fun x => { x with outgoing := none }))

/-- One evaluation of a partition. -/
def evaluate (p : Nat) (s : State) : State :=
  let s := firstSlice p (dropReserve p (checkPlaceable p (applyHeld p s)))
  walkList p (placementList s p) [] false s

/-- PLACEMENT_EVALUATION (R333). -/
def execPlacementEvaluation (part : Nat) (s : State) : Host.Outcome State Fault Refusal := .next (evaluate part s)

/-- RESERVATION_AGEING (R333): the partitions in which a head has aged are evaluated. -/
def execReservationAgeing (s : State) : Host.Outcome State Fault Refusal :=
  .next (foldS ((s.pkg.parts.filter fun x => s.pkg.launches.any fun l => s.partOfLaunch l.1 = x.1 &&
    (match l.2.headSince with | some t => decide (t + usec x.2.age ≤ s.now) | none => false)).map Prod.fst) evaluate s)

end Sys2Proof.Machine
end

