-- ==== Sys2Proof/Machine/RecoverySvc.lean ====
section
/-!
DEFINITION. The recovery service (spec/13_recovery_undo.md R264, R277 to R285; spec/23_programs_recovery.md R408 to R410): LOGSET, reverse
stepping, draining, seals on request, recovery, and relays.
-/
namespace Sys2Proof.Machine

/-! ## LOGSET (R264) -/

/-- A ULC value is in form (Table 13.1). -/
def ulcOk (v : Nat) : Bool :=
  let sz := fld 12 8 v
  fld 63 13 v = 0 && fld 7 4 v = 0 && fld 3 2 v ≠ 3 &&
  (if bitOf 1 v then 28 ≤ sz && sz ≤ 36 else if bitOf 0 v then 21 ≤ sz && sz ≤ 36 else true)

/-- The ring's bytes laid out for a new size: the records from the tail to the head. DESIGN CHOICE (log 110): where the new ring is smaller than what is
retained, the oldest records are overwritten and ULT stays. -/
def Ctx.relaid (c : Ctx) (n : Nat) : SMap Byte :=
  (List.range (c.rph - c.ult)).foldl (fun m i => m.set 0 ((c.ult + i) % n) (c.log.get 0 ((c.ult + i) % c.ring'))) []

/-- The seal slot of an invalid record. -/
def noSeal : SealSlot := {}

/-- Applies a ULC value to a context that has no placed cluster. -/
def applyUlc (a v : Nat) (s : State) : State :=
  let c := s.ctx a
  let span := bitOf 0 v
  let recv := bitOf 1 v
  let v' := if span || recv then v else v - fld 12 8 v * 2 ^ 8
  let n := 2 ^ fld 12 8 v'
  let s := s.modCtx a fun c => { c with
    log := if span || recv then c.relaid n else []
    ulc := BitVec.ofNat 64 v'
    spanTail := if span && !c.span then c.rph else c.spanTail
    ugn := if span && !c.span then 0 else c.ugn
    recTail := if recv && !c.recv then c.rph else c.recTail
    bitmap0 := if recv && c.recv then c.bitmap0 else []
    bitmap1 := if recv && c.recv then c.bitmap1 else []
    seal0 := if recv then c.seal0 else noSeal
    seal1 := if recv then c.seal1 else noSeal
    clearing := recv && c.recv && c.clearing
    logTrap := false, logset := false }
  let s := s.modCtx a fun c => { c with ult := c.tail, logIndex := c.logIndex.filter fun r => c.tail ≤ r.1 }
  let s := if span || recv then freeHeld a s else s.modCtx a fun c => { c with heldRecs := [], logHeld := false }
  if recv && !c.recv then writeSeal a 0 (s.ctx a).rph (s.ctx a).rph false (s.ctx a).rpc (s.ctx a).rpc s else s

/-- The log's granules, assigned anew for a ring of `n` granules. -/
def logGrans (a n : Nat) (s : State) : Option State :=
  let c := s.ctx a
  if c.logGr.length = n then some s
  else
    let s := foldS c.logGr releaseGranule s
    match freeGranules s n with
    | none => none
    | some gs => some ((foldS gs (fun g s => assignGranule g (s.fnOf a) s) s).modCtx a fun c => { c with logGr := gs })

/-- The service granule of a context's seal slots, assigned where recovery logging starts without one (R273). -/
def sealGran (a : Nat) (recv : Bool) (s : State) : Option State :=
  if !recv || (s.ctx a).sealGr.isSome then some s
  else match freeGranules s 1 with
    | some [g] => some ((assignGranule g 0x3FF s).modCtx a fun c => { c with sealGr := some g })
    | _ => none

/-- The ring as it is laid out anew stands in the log's granules. -/
def storeRing (a : Nat) (s : State) : State :=
  let c := s.ctx a
  if c.logGr.isEmpty || decide (c.rph ≤ c.ult) then s else forceLog a (s.modCtx a fun c => { c with uld := c.ult })

/-- A started engine command of a context has not completed. -/
def cmdsStarted (s : State) (a : Nat) : Bool := s.pkg.eng.any fun e => e.1 / 8 = a && e.2.queue.any fun c => c.started && c.parked.isNone

/-- A launch of a context has a placed cluster. -/
def ctxPlaced (s : State) (a : Nat) : Bool := s.pkg.launches.any fun l => l.2.asid = a && !l.2.placed.isEmpty

/-- A full log holds merges of a context. -/
def mergesHeld (s : State) (a : Nat) : Bool := s.pkg.mergeQ.any fun q => q.2.any fun r => r.w.asid = some a

/-- LOGSET: waits for the context's started commands, drains its stores, and changes ULC once every one has merged. -/
def execLogset (h : CmdHdr) (w : List W64) (s : State) : Host.Outcome State Fault Refusal :=
  .next (ownerCmd h 0x20 (fun s =>
    match ctxWord s (opw w 0) with
    | none => badOperand h 0x20 s
    | some a =>
      let v := opw w 1
      if w.length ≠ 2 || !ulcOk v then badOperand h 0x20 s
      else if bitOf 5 (s.fn (s.fnOf a)).fmask && v % 4 ≠ 0 then refused h 0x20 "FEATURE_MASKED" s
      else if ctxPlaced s a then refused h 0x20 "CTX_RUNNING" s
      else if cmdsStarted s a then (s.modCtx a fun c => { c with logset := true }).post (s.now + 2) (.logset h w)
      else
        let s := mergeAll (releaseCores s)
        if mergesHeld s a then (s.modCtx a fun c => { c with logset := true }).post (s.now + 2) (.logset h w)
        else
        match (sealGran a (bitOf 1 v) s).bind (logGrans a (if v % 4 = 0 then 0 else 2 ^ fld 12 8 v / 2 ^ 21)) with
        | none => refused h 0x20 "NO_GRANULE" (s.modCtx a fun c => { c with logset := false })
        | some s => accepted h 0x20 [] (storeRing a (applyUlc a v s))) s true)

/-! ## SEALREQ (R272) -/

/-- SEALREQ: the reply is owed until the point is made. -/
def execSealreq (h : CmdHdr) (w : List W64) (s : State) : Host.Outcome State Fault Refusal :=
  .next (ownerCmd h 0x23 (fun s =>
    match ctxWord s (opw w 0) with
    | none => badOperand h 0x23 s
    | some a => if w.length ≠ 1 then badOperand h 0x23 s else requestSeal a (some h) s) s true)

/-! ## DRAIN and REVERSE (R277, R278, R410) -/

/-- The end of a span: the first GATE record that opens a later one, or the head. -/
def Ctx.spanEnd (c : Ctx) (sp : Nat) : Nat :=
  match ((c.between c.spanTail c.rph).reverse).find? fun p => c.kindAt p = 2 && decide (sp < recSpan (c.headAt p)) with
  | some p => p
  | none => c.rph

/-- DRAIN: copies records from the span tail through a span's end, and moves the span tail. -/
def execDrain (h : CmdHdr) (w : List W64) (s : State) : Host.Outcome State Fault Refusal :=
  .next (ownerCmd h 0x22 (fun s =>
    match ctxWord s (opw w 0) with
    | none => badOperand h 0x22 s
    | some a =>
      let c := s.ctx a
      if w.length ≠ 4 || !hostBufOk w 1 || fld 63 32 (opw w 3) ≠ 0 then badOperand h 0x22 s
      else if !c.dbg then refused h 0x22 "NO_DEBUGGER" s
      else
        let e := if c.span then max c.spanAt (c.spanEnd (opw w 3)) else c.spanAt
        let n := e - c.spanAt
        if opw w 2 < n then badOperand h 0x22 s
        else
          let s := (forceLog a s).putRaw (busPa (opw w 1)) (c.recAt c.spanAt n)
          let s := s.modCtx a fun c => { c with spanTail := e }
          let s := s.modCtx a fun c => { c with ult := c.tail, logIndex := c.logIndex.filter fun r => c.tail ≤ r.1 }
          accepted h 0x22 [BitVec.ofNat 64 n, BitVec.ofNat 64 e] (freeHeld a s)) s)

/-- The latest GATE record that a REVERSE names. -/
def Ctx.gateFor (c : Ctx) (sel : Bool) (n : Nat) : Option Nat :=
  (c.between c.spanTail c.rph).find? fun p => c.kindAt p = 2 && (if sel then recSpan (c.headAt p) = n else gnumOf (c.headAt p) = n)

/-- The last HORIZON record after a position; one that a full log holds will stand at the head. -/
def Ctx.horizonAfter (c : Ctx) (p : Nat) : Option Nat :=
  if c.heldRecs.any fun r => match r with | .horizon .. => true | _ => false then some c.rph
  else (c.between (p + 1) c.rph).find? fun q => c.kindAt q = 3

/-- HORIZON_BLOCK, with the latest gate after the last HORIZON record. -/
def horizonBlock (h : CmdHdr) (c : Ctx) (q : Nat) (s : State) : State :=
  let g := (c.between q c.rph).find? fun p => c.kindAt p = 2
  answer h 0x21 3 "HORIZON_BLOCK" [match g with | some p => BitVec.ofNat 64 (gnumOf (c.headAt p)) | none => BitVec.allOnes 64] s

/-- Drops every private copy of a line. -/
def dropCopies (la : Nat) (s : State) : State :=
  foldS ((s.cores.filter fun c => c.2.cache.any fun l => l.line = la).map Prod.fst) (fun k s =>
    s.modCore k fun c => { c with cache := c.cache.filter fun l => l.line ≠ la }) s

/-- Undoes one LINE record through the line's home bank. The write counts as the context's, so that its next recovery release makes it
durable (log 41). -/
def undoLine (a p : Nat) (s : State) : State :=
  let c := s.ctx a
  if c.kindAt p ≠ 1 then s
  else
    let x := c.headAt p
    let la := lineNo x
    let s := dropCopies la (homeWrite {} (la * 128) (bytesOfLine (c.oldAt p)) s).1
    let s := s.modPkg fun p => match p.l2.find? la with
      | some l => { p with l2 := p.l2.put la { l with by_ := some a } }
      | none => p
    if lineFirst x then s.modCtx a fun c => { c with bitmap0 := c.bitmap0.filter (· ≠ la), bitmap1 := c.bitmap1.filter (· ≠ la) } else s

/-- Steps 4 to 6 of R278, with R410, where every record is in form. -/
def reverseTo (a p : Nat) (s : State) : State :=
  let c := s.ctx a
  let s := foldS (c.between (p + 1) c.rph) (undoLine a) s
  let g := c.headAt p
  let cprev := BitVec.ofNat 256 (g / 2 ^ 256)
  s.modCtx a fun c => { c with
    rph := p + 64, uld := p + 64
    rpc := shake256w (leBytes 32 cprev.toNat ++ c.recAt p 64)
    ugn := BitVec.ofNat 64 (recSpan g + gnumOf g * 2 ^ 32)
    logIndex := c.logIndex.filter fun r => r.1 ≤ p
    stopped := true, logHeld := false, heldRecs := [] }

/-- The bytes of memory from an address on, a line at a time; a line that does not verify reads as zero. -/
def verifiedBytes (s : State) (pa n : Nat) : List Byte :=
  (List.range (n / 128)).flatMap fun i => if s.verifies (pa / 128 + i) then s.rawBytes (pa + 128 * i) 128 else List.replicate 128 0

/-- The bytes of a log's records as they stand in HBM4 (R264): a store through a mapping of the log's granules, or a line that does not verify, shows there. -/
def Ctx.ringNow (c : Ctx) (s : State) : SMap Byte :=
  let ls := if c.logGr.isEmpty || decide (c.uld ≤ c.ult) then [] else (List.range ((c.uld - 1) / 128 - c.ult / 128 + 1)).map (c.ult / 128 + ·)
  ls.foldl (fun m i => match c.logPa (128 * i) with
    | some pa => SMap.setList 0 m (128 * i % c.ring') (verifiedBytes s pa 128)
    | none => m) c.log

/-- Merges of a context that a full log holds are discarded: they stand after every record, so that the walk leaves each line without them. -/
def dropHeldMerges (a : Nat) (s : State) : State :=
  s.modPkg fun p => { p with mergeQ := p.mergeQ.filterMap fun q => match q.2.filter fun r => r.w.asid ≠ some a with | [] => none | l => some (q.1, l) }

/-- Stops every cluster of a context (18 R371). -/
def stopContext (a : Nat) (s : State) : State :=
  foldS (s.pkg.launches.filter fun l => l.2.asid = a && !l.2.placed.isEmpty) (fun l s => preemptClusters l.1 (l.2.placed.map Prod.fst) s)
    (s.modCtx a fun c => { c with stopped := true })

/-- REVERSE (R278): the context is stopped first; then its running kernels end as REVERSED and its memory goes back to the gate. -/
def execReverse (h : CmdHdr) (w : List W64) (s : State) : Host.Outcome State Fault Refusal :=
  .next (ownerCmd h 0x21 (fun s =>
    match ctxWord s (opw w 0) with
    | none => badOperand h 0x21 s
    | some a =>
      if w.length ≠ 2 || fld 63 33 (opw w 1) ≠ 0 then badOperand h 0x21 s
      else if !(s.ctx a).dbg then refused h 0x21 "NO_DEBUGGER" s
      else if !contextStill s a then (stopContext a s).post (s.now + 2) (.reverse h w)
      else
        let c := s.ctx a
        match if c.span then c.gateFor (bitOf 32 (opw w 1)) (fld 31 0 (opw w 1)) else none with
        | none => refused h 0x21 "NO_GATE" s
        | some p =>
          match c.horizonAfter p with
          | some q => horizonBlock h c q s
          | none =>
            let s := foldS ((s.pkg.launches.filter fun l => l.2.asid = a && l.2.started && liveLaunch l.2).map Prod.fst) (endLaunch (9, 0, 0, 0)) s
            let s := s.modCtx a fun c => { c with stopped := true }
            if cmdsStarted s a then s.post (s.now + 2) (.reverse h w)
            else
              let s := forceLog a (mergeAll (releaseCores s))
              let s := s.modCtx a fun c => { c with log := c.ringNow s }
              match (s.ctx a).horizonAfter p with
              | some q => horizonBlock h (s.ctx a) q s
              | none =>
                let ps := (s.ctx a).between (p + 1) (s.ctx a).rph
                let s := dropHeldMerges a s
                if ps.all (s.ctx a).formAt then accepted h 0x21 [BitVec.ofNat 64 p] (reverseTo a p s)
                else answer h 0x21 3 "LOG_BAD" [] (foldS (ps.takeWhile (s.ctx a).formAt) (undoLine a) s)) s)

/-! ## RECOVER (R279 to R281, R408 to R410) -/

/-- Hashes the records from a position to another (R267); none where they do not end there. -/
def Ctx.chainFrom (c : Ctx) : Nat → Nat → Nat → BitVec 256 → Option (BitVec 256)
  | 0, _, _, _ => none
  | fuel + 1, p, e, x =>
    if p = e then some x
    else if e < p then none
    else
      let n := recLen (c.kindAt p)
      if !c.formAt p then none else c.chainFrom fuel (p + n) e (shake256w (leBytes 32 x.toNat ++ c.recAt p n))

/-- A seal record is valid (R279). -/
def Ctx.sealValid (c : Ctx) (b : List Byte) : Bool :=
  let x := leNat b
  b.length = 256 && fld 31 0 x = 0x4C414553 && fld 39 32 x = 1 && fld 63 42 x = 0 && fld 1791 1600 x = 0 &&
  fld 2047 1792 x = (shake256w (b.take 224)).toNat &&
  c.chainFrom (fld 191 128 x / 64 + 2) (fld 255 192 x) (fld 191 128 x) (BitVec.ofNat 256 (fld 767 512 x)) = some (BitVec.ofNat 256 (fld 511 256 x))

/-- Abandons every incomplete launch of a context (R408): its groups end, its commands that have not started are discarded, and a
held head is passed. -/
def abandonCtx (a : Nat) (s : State) : State :=
  let ls := s.pkg.launches.filter fun l => l.2.asid = a && liveLaunch l.2
  foldS ls (fun l s =>
    let s := foldS (l.2.cores.filter fun k => (s.group k).any fun g => decide (g.launch = l.1)) killGroup s
    let s := (dropCmds l.1 false s).modLaunch l.1 fun x => { x with abandoned := true, placed := [], suspended := [], preempt := [] }
    let s := boundRun l.1 s
    let hd := ((s.ctx a).queues.get {} l.2.q).head
    let s := if hd = some l.1 then modQueue a l.2.q (fun x => { x with head := none, headOld := false, ridx := if x.headOld then x.ridx else x.ridx + 1 }) s else s
    callPlacement l.1 s) s

/-- Rewrites a chunk that the walk writes (R280): walked lines with their old bytes, others as they verify. -/
def rewriteChunk (ch : Nat) (walked : List (Nat × Line)) (s : State) : State × List Nat :=
  let las := (List.range 64).map fun j => ch * 64 + j
  let s := foldS (las.filter fun la => !(walked.any fun x => x.1 = la)) writeBackLine s
  let bad := las.filter fun la => !(walked.any fun x => x.1 = la) && !s.verifies la
  let s := foldS walked (fun x s => dropCopies x.1 (s.putRaw (x.1 * 128) (bytesOfLine x.2))) s
  let s := s.modPkg fun p => { p with
    l2 := p.l2.filter fun e => e.1 / 64 ≠ ch
    meta_ := p.meta_.filter fun e => e.1 / 64 ≠ ch
    ctr := p.ctr.put ch { major := (p.ctrDur.get {} ch).major + 1 } }
  (commitChunk ch (foldS bad (fun la s => s.setMeta la { poison := true }) s), bad)

/-- What a recovery did: the chosen point's record, whether the other slot was torn, horizon records by cause, poisoned lines. -/
structure Recovered where
  point : Option (List Byte)
  torn : Bool
  hor : List Nat
  bad : List Nat
  deriving DecidableEq, Repr

/-- The report header (Table 23.1). -/
def Recovered.header (r : Recovered) : List Byte :=
  let x := leNat (r.point.getD [])
  let n := match r.point with | some _ => fld 127 64 x | none => 2 ^ 64 - 1
  leBytes 128 (n + fld 1279 1024 x * 2 ^ 64 + fld 1535 1280 x * 2 ^ 320 + r.torn.toNat * 2 ^ 576 +
    (List.range 5).foldl (fun m c => m + min 65535 (r.hor.filter (· = c)).length * 2 ^ (592 + 16 * c)) 0 + r.bad.length * 2 ^ 688)

/-- The log and the seal slots as they stand in HBM4 (R264, R273, R279): a store through a mapping of the log's granules, or a line that does not
verify, shows there. -/
def reloadLog (a : Nat) (s : State) : State :=
  let c := s.ctx a
  let slot := fun (i : Nat) (sl : SealSlot) => match c.sealGr with
    | some g => if sl.bytes = [] then sl else { sl with bytes := verifiedBytes s (g * 2 ^ 21 + 256 * i) 256 }
    | none => sl
  s.modCtx a fun c => { c with log := c.ringNow s, seal0 := slot 0 c.seal0, seal1 := slot 1 c.seal1 }

/-- Walks a context back to a point: the valid one with the larger number, or the one that `want` names. -/
def walkBack (a : Nat) (want : Option Nat) (s : State) : State × Recovered :=
  let s := reloadLog a s
  let c := s.ctx a
  let v := fun (sl : SealSlot) => if c.sealValid sl.bytes then some sl.bytes else none
  let num := fun (b : List Byte) => fld 127 64 (leNat b)
  let ok := fun (b : Option (List Byte)) => match want with | some n => b.filter fun x => num x = n | none => b
  let torn := fun (sl : SealSlot) => sl.bytes ≠ [] && (v sl).isNone
  let b0 := ok (v c.seal0)
  let b1 := ok (v c.seal1)
  let pick := match b0, b1 with
    | some x, some y => if num x < num y then some (y, true) else some (x, false)
    | some x, none => some (x, false)
    | none, some y => some (y, true)
    | none, none => none
  let inv := fun (sl : SealSlot) (keep : Bool) => if (torn sl) || (want.isSome && !keep) then noSeal else sl
  match pick with
  | none =>
    (storeSeal a 0 (storeSeal a 1 (s.modCtx a fun c => { c with seal0 := inv c.seal0 true, seal1 := inv c.seal1 true })),
     { point := none, torn := torn c.seal0 || torn c.seal1, hor := [], bad := [] })
  | some (b, one) =>
    let x := leNat b
    let lpos := fld 191 128 x
    let all := c.between lpos c.uld
    let ps := all.takeWhile c.formAt
    let lines := ps.filterMap fun p => if c.kindAt p = 1 then some (lineNo (c.headAt p), c.oldAt p) else none
    let hor := ps.filterMap fun p => if c.kindAt p = 3 then some (horCause (c.headAt p)) else none
    let chunks := (lines.map fun l => l.1 / 64).eraseDups
    let (s, bad) := chunks.foldl (fun (acc : State × List Nat) ch =>
      let mine := lines.filter fun l => l.1 / 64 = ch
      let (s, bad) := rewriteChunk ch mine acc.1
      (s, acc.2 ++ bad)) (s, [])
    let s := repostSeals a s
    let s := s.modCtx a fun c => { c with
      bitmap0 := [], bitmap1 := [], clearing := false
      rpn := num b, rps := BitVec.ofNat 3 (one.toNat + 2 * (bitOf 41 x).toNat)
      rph := lpos, uld := lpos, rpc := BitVec.ofNat 256 (fld 511 256 x)
      recTail := fld 255 192 x, ult := fld 255 192 x, spanTail := min c.spanTail lpos
      ugn := BitVec.ofNat 64 (fld 63 32 c.ugn.toNat * 2 ^ 32)
      evv := BitVec.ofNat 256 (fld 1023 768 x)
      seal0 := inv c.seal0 (!one), seal1 := inv c.seal1 one
      logIndex := c.logIndex.filter fun r => r.1 < lpos
      sealing := none, sealQueue := [], sealCores := [], logHeld := false, heldRecs := [], logTrap := false }
    let s := storeSeal a 0 (storeSeal a 1 s)
    let s := if ps.length = all.length then s else report "LOG_BAD" (some (s.fnOf a)) a s
    (s, { point := some b, torn := torn (if one then c.seal0 else c.seal1), hor := hor, bad := bad })

/-- Sends the report of a recovery in as many messages as it needs (20 Table 20.3). -/
def sendReport (h : CmdHdr) (r : Recovered) (s : State) : State :=
  let es := r.bad.map fun la => (BitVec.ofNat 64 la : W64)
  let s := accepted h 0x24 (wordsOf r.header ++ es.take 4078) s
  foldS (List.range (ceilDiv (es.length - 4078) 4094)) (fun i s => accepted h 0x24 (((es.drop 4078).drop (4094 * i)).take 4094) s) s

/-- A RECOVER stops a context: its launches are abandoned, and it takes and starts none until the RECOVER is done. -/
def stopForRecover (a : Nat) (s : State) : State := (abandonCtx a s).modCtx a fun c => { c with recovering := true }

/-- Recovers a context that stands stopped: what its launches released is drained into the log, the walk is made, and merges that a full log holds are
discarded. -/
def recoverCtx (a : Nat) (want : Option Nat) (s : State) : State × Recovered :=
  let (s, r) := walkBack a want (dropHeldMerges a (forceLog a (mergeAll (releaseCores s))))
  (s.modCtx a fun c => { c with recovering := false }, r)

/-- RECOVER: waits for the context's started commands. -/
def execRecover (h : CmdHdr) (w : List W64) (s : State) : Host.Outcome State Fault Refusal :=
  .next (ownerCmd h 0x24 (fun s =>
    match ctxWord s (opw w 0) with
    | none => badOperand h 0x24 s
    | some a =>
      if w.length ≠ 1 then badOperand h 0x24 s
      else
        let s := stopForRecover a s
        if cmdsStarted s a then s.post (s.now + 2) (.recover h w)
        else
          let (s, r) := recoverCtx a none s
          let s := sendReport h r s
          testHeads a (if r.point.isNone then report "NO_POINT" (some (s.fnOf a)) a s else s)) s)

/-! ## Relays (R282 to R285) -/

/-- The operands that RELAYBUILD and RELAYREBUILD share are in layout. -/
def relayWords (w : List W64) : Bool := 9 ≤ w.length && ((w.drop 1).take 8).all fun x => x.toNat < 2 ^ 20

/-- Package identifiers of the members. -/
def relayMembers (w : List W64) : List Nat := ((w.drop 1).take 8).map BitVec.toNat

/-- RELAYBUILD (R283): every protected context stops at a seal; the reduce-scatter that follows meets as a collective of the relay's
domain. -/
def execRelaybuild (h : CmdHdr) (w : List W64) (s : State) : Host.Outcome State Fault Refusal :=
  .next (ownerCmd h 0x25 (fun s =>
    let w0 := opw w 0
    let n := opw w 9
    let cs := (w.drop 10).map BitVec.toNat
    if !relayWords w || fld 39 35 w0 ≠ 0 || fld 63 40 w0 < 1 || 57344 < fld 63 40 w0 || n < 1 || 1024 < n || w.length ≠ 10 + n ||
       cs.any (fun a => (ctxWord s a).isNone || !(s.ctx a).recv) || (relayMembers w).getD (fld 34 32 w0) 0 ≠ s.svc.pkgId.toNat then
      badOperand h 0x25 s
    else
      let t := match s.pkg.relays.find? (fld 31 0 w0) with | some r => foldS r.parGr releaseGranule s | none => s
      match freeGranules t (fld 63 40 w0) with
      | none => refused h 0x25 "NO_GRANULE" s
      | some gs =>
        let r : Relay := { idx := fld 34 32 w0, ch := fld 63 40 w0, members := relayMembers w, ctxs := cs, rpp := 0, parGr := gs, building := some h }
        let s := (foldS gs (fun g s => assignGranule g 0x3FF s) t).modPkg fun p => { p with relays := p.relays.put (fld 31 0 w0) r }
        sealTogether true cs (foldS cs (fun a s => s.modCtx a fun c => { c with stopped := true }) s)) s true)

/-- RELAY_DECISION (R284): every member has reported that every delta of point RPP + 1 has arrived; the parity moves to it. -/
def execRelayDecision (relay : Nat) (deltas : List (Nat × Line)) (s : State) : Host.Outcome State Fault Refusal :=
  .next (match s.pkg.relays.find? relay with
    | none => s
    | some r =>
      if r.building.isSome || r.ctxs.any (fun a => (s.ctx a).rpn ≤ r.rpp) then s
      else
        let s := foldS deltas (fun d s => if d.1 < r.ch * 2 ^ 14 then putParity r d.1 (s.parityLine r d.1 ^^^ d.2) s else s) s
        s.modPkg fun p => { p with relays := p.relays.put relay { r with
          rpp := r.rpp + 1, sent := r.sent.filter fun d => r.rpp + 1 < d.1 } })

/-- RELAYREBUILD (R285): a survivor rolls every protected context back to the parity point, as RECOVER does, and takes the replacement as a member; a
package that takes the lost index itself waits for the survivors' chunks. -/
def execRelayrebuild (h : CmdHdr) (w : List W64) (s : State) : Host.Outcome State Fault Refusal :=
  .next (ownerCmd h 0x26 (fun s =>
    let w0 := opw w 0
    match s.pkg.relays.find? (fld 31 0 w0) with
    | none => badOperand h 0x26 s
    | some r =>
      let lost := fld 34 32 w0
      if !relayWords w || w.length ≠ 9 || fld 63 35 w0 ≠ 0 || r.building.isSome ||
         !((List.range 8).all fun i => i = lost || (relayMembers w).getD i 0 = r.members.getD i 0) then badOperand h 0x26 s
      else if lost = r.idx then
        s.modPkg fun p => { p with relays := p.relays.put (fld 31 0 w0) { r with members := relayMembers w, building := some h, rebuild := true, sent := [] } }
      else
        let s := foldS r.ctxs stopForRecover s
        if r.ctxs.any (cmdsStarted s) then s.post (s.now + 2) (.relayrebuild h w)
        else
        let s := foldS r.ctxs (fun a s => (recoverCtx a (some r.rpp) s).1) s
        let s := s.modPkg fun p => { p with relays := p.relays.put (fld 31 0 w0) { r with members := relayMembers w, sent := [] } }
        accepted h 0x26 [BitVec.ofNat 64 r.rpp] s) s true)

end Sys2Proof.Machine
end

