-- ==== Sys2Proof/Machine/Reliability.lean ====
section
/-!
DEFINITION. Errors (spec/20_reliability_boot_host.md R391 to R393; spec/18_traps_preemption_containment.md R367, R368, R376;
spec/19_partitions_tenants.md R389; spec/01_pubrika_x4.md R18): corrected and uncorrectable errors, lasting faults,
containment, and the reset of a compute die.
-/
namespace Sys2Proof.Machine

/-! ## Counters (19 R389) -/

/-- A saturating 64-bit count. -/
def inc64 (n : Nat) : Nat := min (n + 1) (2 ^ 64 - 1)

/-- The partition that a core or a bank belongs to. -/
def locPart (s : State) (l : Loc) : Option Nat :=
  if l.kind = 1 then s.partOfCore l.index else if l.kind = 2 then bankOf (s.pkg.banks.get 0 l.index) else none

/-- The only enabled function of a partition. -/
def soloFn (s : State) (p : Nat) : Option Nat :=
  match s.pkg.fns.filter fun f => f.2.en && f.2.part = p with
  | [f] => some f.1
  | _ => none

/-- The function whose own error an error at a location is: the one whose tag the access carried, or the partition's only one. -/
def ownFn (s : State) (l : Loc) (tag : Option Nat) : Option Nat :=
  match tag with
  | some f => some f
  | none => (locPart s l).bind (soloFn s)

/-- Counts for a function, if there is one. -/
def countFn (f : Option Nat) (g : Fn → Fn) (s : State) : State := match f with | some f => s.modFn f g | none => s

/-! ## Locations (20 R392, R393) -/

/-- The record of a location. -/
def locRec (s : State) (l : Loc) : LocRec := (s.svc.locs.find? fun r => r.loc = l).getD { loc := l }
def modLoc (l : Loc) (f : LocRec → LocRec) (s : State) : State :=
  s.modSvc fun v => { v with locs := v.locs.filter (fun r => r.loc ≠ l) ++ [f (locRec s l)] }

/-- 600 s in lift cycles. -/
def errWindow : Nat := usec 600000000

/-- The die of a shared part. -/
def locDie (l : Loc) : Nat := match l.kind with | 3 => l.index / 64 | 6 => l.index / 4 | _ => l.index

/-- A core is fenced by its own fault or with its die. -/
def coreDead (s : State) (k : Nat) : Bool :=
  s.svc.fencedLocs.any fun l => (l.kind = 1 && l.index = k) || (decide (4 ≤ l.kind) && decide (locDie l = dieOf k))

/-- Brings the fenced marks of the cores up to date. -/
def refence (s : State) : State :=
  foldS (List.range 512) (fun k s => if (s.core k).fenced = coreDead s k then s else s.modCore k fun c => { c with fenced := coreDead s k }) s

/-- Evaluates placement in every partition. -/
def evaluateAll (s : State) : State := foldS (s.pkg.parts.map Prod.fst) (fun p s => s.post s.now (.placementEvaluation p)) s

/-! ## Retiring a granule -/

/-- The leaves below a table, with their places. -/
def tableLeaves (s : State) : Nat → Nat → List (Nat × Nat)
  | 0, _ => []
  | n + 1, table => (List.range 1024).flatMap fun i =>
    let e := (readEntry (table + 8 * i) s).2
    if !bitOf 0 e then [] else if bitOf 1 e then tableLeaves s n (fld 51 13 e * 8192) else [(table + 8 * i, e)]

/-- The contexts' leaves that name HBM4 granules in a range. -/
def leavesIn (s : State) (cs : List Nat) (g n : Nat) : List (Nat × Nat) :=
  (cs.flatMap fun a => tableLeaves s 4 (s.ctx a).root).filter fun x =>
    let pa := fld 51 16 x.2 * 65536
    isHbm pa && decide (granOf pa < g + n) && decide (g ≤ granOf (pa + pageBytes (fld 3 2 x.2) - 1))

/-- Stops a core's group at once: its crews roll back to their commit points. -/
def haltCore (k : Nat) (s : State) : State := stopGroup k ((stopCore k s).modGroup k fun g => { g with stopAt := s.now })

/-- Copies a granule's lines to another of the same owner, and releases it. -/
def moveGranule (g g' o : Nat) (s : State) : State :=
  let s := foldS ((s.pkg.l2.filter fun e => e.1 / 16384 = g).map Prod.fst) writeBackLine s
  let bytes := s.mem.filter fun c => c.1 / 2 ^ 21 = g
  let bad := (s.pkg.meta_.filter fun e => e.1 / 16384 = g && e.2.poison).map Prod.fst
  let s := assignGranule g' o s
  let s := { s with mem := bytes.foldl (fun m c => SMap.set 0 m (c.1 % 2 ^ 21 + g' * 2 ^ 21) c.2) s.mem }
  releaseGranule g (foldS bad (fun la s => s.setMeta (la % 16384 + g' * 16384) { poison := true }) s)

/-- Moves what a retired granule holds, where leaves name it (Table 20.1): the owner's contexts stop at commit points meanwhile. -/
def copyGranule (g : Nat) (s : State) : State :=
  let o := s.ownerOf g
  let cs := ownerCtxs s o
  let huge := (leavesIn s cs g 1).any fun x => fld 3 2 x.2 = 2
  let n := if huge then 512 else 1
  let b := g / n * n
  let ls := leavesIn s cs b n
  match if ls.isEmpty then none else freeBlock s n with
  | none => s
  | some b' =>
    let ks := cs.flatMap (coresOf s)
    let s := mergeAll (releaseCores (foldS ks haltCore s))
    let s := foldS (List.range n) (fun i s => moveGranule (b + i) (b' + i) o s) s
    let s := foldS ls (fun x s => writeEntry x.1 (x.2 + b' * 2 ^ 21 - b * 2 ^ 21) s) s
    let s := foldS cs (fun a s => s.modCtx a fun c => { c with frames := c.frames.map fun f => if f.1 = b then (b', f.2) else f }) s
    let s := s.modPkg fun p => { p with wins := p.wins.map fun w => (w.1, { w.2 with granules := w.2.granules.map fun x => if x = g then b' else x }) }
    foldS ks resumeCore s

/-! ## Containment (18 R376) -/

/-- A core lies on a die, or its group has a staging grant in one of its banks. -/
def coreOn (s : State) (die k : Nat) : Bool :=
  decide (dieOf k = die) || (match s.group k with | some g => g.staging.any fun b => b / 512 = die | none => false)

/-- A launch has a group placed or suspended on a core of a die, or a staging grant in one of its banks. -/
def launchOn (s : State) (die n : Nat) (l : Launch) : Bool :=
  let held := fun (g : Group) => g.staging.any fun b => b / 512 = die
  (l.cores.any fun k => coreOn s die k && (s.group k).any fun g => decide (g.launch = n)) ||
  l.suspended.any fun x => x.groups.any fun g => decide (dieOf g.1 = die) || held g.2

/-- A partition holds a cache bank or an owned chair position on a die. -/
def partOn (s : State) (die p : Nat) : Bool :=
  s.pkg.banks.any (fun b => b.1 / 512 = die && bankMode b.2 = 2 && bankOf b.2 = some p) ||
  s.pkg.chairs.any fun c => c.1 / 20480 = die && c.2.toNat = 0x40 + p

/-- A context held a crew, a bank or a chair on a die (13 R279). -/
def ctxOn (s : State) (die a : Nat) : Bool :=
  s.pkg.launches.any (fun l => l.2.asid = a && liveLaunch l.2 && launchOn s die l.1 l.2) ||
  partOn s die (s.fn (s.fnOf a)).part ||
  s.pkg.banks.any fun b => b.1 / 512 = die && bankMode b.2 = 2 && (((s.pkg.wins.find? (bankWin b.2)).getD {}).members.any fun m => m.1 = s.fnOf a)

/-- Kills a launch that a shared part has failed, with cause 0, and counts it in its function's ERRS. -/
def killContained (n : Nat) (s : State) : State :=
  killLaunch .contained 0 0 n (s.modFn (s.fnOf (s.launch n).asid) fun f => { f with errs := inc64 f.errs })

/-- A shared part of a die has failed and its state survives: clusters with a crew, bank or chair on the die are suspended; those
whose cores do not remain are killed. -/
def containDie (die : Nat) (s : State) : State :=
  let hit := s.pkg.launches.filter fun l => l.2.started && liveLaunch l.2 && l.2.status.isNone &&
    (launchOn s die l.1 l.2 || partOn s die (s.partOfLaunch l.1))
  let dead := fun (n : Nat) (l : Launch) => l.cores.any (fun k => (s.core k).fenced && (s.group k).any fun g => decide (g.launch = n)) || l.suspended.any fun x => x.groups.any fun g => (s.core g.1).fenced
  let parts := fun (n : Nat) (l : Launch) => (l.placed.filter fun c => partOn s die (s.partOfLaunch n) || c.2.any fun k => coreOn s die k && s.holds n c.1 k).map Prod.fst
  evaluateAll (foldS hit (fun l s => if dead l.1 l.2 then killContained l.1 s else preemptClusters l.1 (parts l.1 l.2) s) s)

/-- A failure in an owner's counter tree (04 R102): the lines beneath the node are poisoned, and the owner's contexts stop until the
error policy has restored or discarded the covered granules. One in a service granule is contained as a failure of its die whose state
survives (18 R376), and the granules are retired. DESIGN CHOICE (log 106): in hardware mode too the contexts stand until an owner's RESTORE or
DISCARD; R102 does not say who restores or discards there. -/
def containTree (o first chunks : Nat) (s : State) : State :=
  let gs := s.orderOf o
  let chs := ((List.range chunks).map (first + ·)).filterMap fun i => gs[i / 256]?.map fun g => g * 256 + i % 256
  let las := chs.flatMap fun ch => (List.range 64).map (ch * 64 + ·)
  let s := foldS las (fun la s => s.setMeta la { s.lineMeta la with poison := true }) s
  let grans := (chs.map (· / 256)).eraseDups
  if o = 0x3FF then
    let s := s.modSvc fun v => { v with retired := (v.retired ++ grans).eraseDups }
    containDie (dieOfPa (chs.headD 0 * 8192)) (report "UNCORR_DATA" none (chs.headD 0) s)
  else
  let s := s.modPkg fun p => { p with treeBad := (p.treeBad ++ grans).eraseDups }
  let cs := ownerCtxs s o
  let s := foldS cs (fun a s => s.modCtx a fun c => { c with treeStop := true }) s
  let s := foldS (s.pkg.launches.filter fun l => cs.contains l.2.asid && !l.2.placed.isEmpty) (fun l s =>
    preemptClusters l.1 (l.2.placed.map Prod.fst) s) s
  report "UNCORR_DATA" (if o ≤ 511 then some o else none) (chs.headD 0) s

/-- The banks that lasting faults set to MODE 0 in a partition stay so: the owner is asked where none of its cache banks is left. -/
def dropBank (b : Nat) (s : State) : State :=
  let parts := ((s.pkg.parts.filter fun x => x.2.regm ≠ 0).map Prod.fst)
  if banksOk s (banksAfter s [(b, 0)]) parts then
    evaluateAll (s.modPkg fun p => { p with bankHeld := (p.bankHeld ++ [(b, 0)]).eraseDups })
  else report "BANK_CONFIG" none b s

/-- The error policy of a partition is host-assisted; for a granule, that of its owner's. -/
def policyAssisted (s : State) (l : Loc) : Bool :=
  match l.kind with
  | 0 => (errOwners s (s.ownerOf l.index)).any fun f => assisted s (s.fn f).part 3
  | 1 | 2 => match locPart s l with | some p => assisted s p 3 | none => false
  | _ => s.pkg.parts.any fun p => (diesOf p.2.regm).contains (locDie l) && assisted s p.1 3

/-- The action on a lasting fault (Table 20.1). -/
def actLasting (l : Loc) (s : State) : State :=
  let s := report "LASTING_FAULT" none (l.index * 2 ^ 32 + l.kind) s
  let wait := policyAssisted s l
  let fence := fun (s : State) => refence (s.modSvc fun v => { v with fencedLocs := (v.fencedLocs ++ [l]).eraseDups })
  match l.kind with
  | 0 =>
    let s := s.modSvc fun v => { v with retired := (v.retired ++ [l.index]).eraseDups }
    if wait || (errOwners s (s.ownerOf l.index)).any (fun f => assisted s (s.fn f).part 0) then s else copyGranule l.index s
  | 1 => evaluateAll (preemptOn (fun k => k = l.index || (k + 1 = l.index && k % 2 = 0 && ((s.partOfCore k).any fun p => (s.part p).pairs))) (fence s))
  | 2 => if wait then s else dropBank l.index s
  | _ => if wait then s else containDie (locDie l) (fence s)

/-- Records an error at a location; the third within 600 s makes its fault lasting, which is acted on once and kept in flash. -/
def noteError (l : Loc) (f : LocRec → LocRec) (s : State) : State :=
  let s := modLoc l (fun r => f { r with times := (r.times.filter fun t => s.now ≤ t + errWindow) ++ [s.now] }) s
  let r := locRec s l
  if r.lasting || r.times.length < 3 then s
  else
    let s := modLoc l (fun r => { r with lasting := true }) s
    actLasting l (s.modSvc fun v => { v with flash := v.flash.filter (fun x => x.loc ≠ l) ++ [locRec s l] })

/-- An error corrected, one that could not be corrected. -/
def noteCorrected (l : Loc) (s : State) : State := noteError l (fun r => { r with corrected := inc64 r.corrected }) s
def noteUncorrected (l : Loc) (s : State) : State := noteError l (fun r => { r with uncorrected := inc64 r.uncorrected }) s

/-! ## Events -/

/-- CORRECTED_ERROR (R391): counted; no visible value changes. -/
def execCorrectedError (loc : Loc) (fn : Option Nat) (s : State) : Host.Outcome State Fault Refusal :=
  .next (noteCorrected loc (countFn (ownFn s loc fn) (fun f => { f with errc := inc64 f.errc }) s))

/-- SCRUB (19 R389): an error met by an access that carries no function's tag; one that could not be corrected is handled where it is
consumed. -/
def execScrub (loc : Loc) (corrected : Bool) (s : State) : Host.Outcome State Fault Refusal :=
  .next (if corrected then noteCorrected loc (countFn (ownFn s loc none) (fun f => { f with errc := inc64 f.errc }) s)
    else noteUncorrected loc s)

/-- The crew's function. -/
def groupFn (s : State) (k : Nat) : Option Nat := (s.group k).map fun g => s.fnOf (s.asidOf g)

/-- Kills the kernel of the running crew of a core with UNCORR_DATA. -/
def killUncorr (k : Nat) (s : State) : State :=
  match s.group k with
  | some g => killLaunch .uncorrData 0 0 g.launch s
  | none => s

/-- The crew, by its context, that consumes an error on a core: for a scratchpad bank the one whose macro-operation streams from it, where there is one
(10 R212); else the running crew; else one whose macro-operation reads memory. -/
def consumer (s : State) (k : Nat) (bank : Option Nat) : Option Nat :=
  match s.group k with
  | none => none
  | some g =>
    let reads := fun (m : Macro) => match bank with
      | some b => (List.range m.steps).any fun j => (stepReads { m with at_ := j }).any fun r => 0 < bankLoad b r.1 r.2.1 r.2.2.2.1 r.2.2.2.2
      | none => m.kindA = 3 || m.kindB = 3
    let stream := ((g.compute.filter fun m => m.op ≤ 1 && reads m)).map Macro.ctx
    if bank.isSome then stream.orElse fun _ => g.running.map Crew.ctx else (g.running.map Crew.ctx).orElse fun _ => stream

/-- Rolls a crew of a core back and lets it run again, unless an error has been consumed in its region before (R368); one that was blocked is ready. -/
def rerunCrew (k ctx : Nat) (s : State) : State :=
  match s.ctxCrew k ctx with
  | none => s
  | some c =>
    if c.uncorrOnce then killUncorr k s
    else
      let (s, c) := undoCrew k c s
      let c := { c with uncorrOnce := true }
      let s := countFn (groupFn s k) (fun f => { f with errp := inc64 f.errp }) s
      if (s.group k).any fun g => g.blocked.any fun b => b.1.ctx = ctx then
        pushReady k c false (s.modGroup k fun g => { g with blocked := g.blocked.filter fun b => b.1.ctx ≠ ctx })
      else s.modCtxCrew k ctx fun _ => c

/-- Rolls back the crew that consumes an error. -/
def rerun (k : Nat) (s : State) : State := match consumer s k none with | some x => rerunCrew k x s | none => s

/-- Runs a refetch list again, in number order, from its recorded operands; the first fault, if there is one. -/
def refetchAll (cs : List EngCmd) (s : State) : State × Option (EngCmd × Trap) :=
  ((natSort (cs.map EngCmd.num)).filterMap fun n => cs.find? fun c => c.num = n).foldl (fun (x : State × Option (EngCmd × Trap)) c =>
    match x.2 with
    | some _ => x
    | none =>
      match moveBytes 0 (moveTotal c + 1) (moveTotal c) { c with done := 0, refetch := true, was := [] } x.1 with
      | (s, _, none) => (s, none)
      | (s, c', some t) => (s, some (c', t))) (s, none)

/-- Cancels the phase that the running crew is in (R367). -/
def cancelPhase (k ctx : Nat) (cs : List EngCmd) (s : State) : State :=
  match s.group k, s.ctxCrew k ctx with
  | none, _ => s
  | _, none => s
  | some g, some c =>
    if c.uncorrOnce then killUncorr k s
    else
      match refetchAll cs (modLoc ⟨1, k⟩ (fun r => { r with phases := inc64 r.phases }) (rerunCrew k ctx s)) with
      | (s, none) => s
      | (s, some (c', t)) => killLaunch .engineFault (trapCode t) (c'.num % 2 ^ 47 * 2 ^ 17 + c'.done / 128) g.launch s

/-- A crew consumes an uncorrectable error in its own core. -/
def consumed (k : Nat) (s : State) : State := countFn (groupFn s k) (fun f => { f with erru := inc64 f.erru }) s

/-- UNCORR_DATA (R367, R368). -/
def execUncorrData (core : Nat) (place : ErrPlace) (s : State) : Host.Outcome State Fault Refusal :=
  .next (match place with
    | .cleanLine la =>
      match (s.core core).findLine la with
      | some l =>
        if l.dirty ≠ 0 then noteUncorrected ⟨1, core⟩ (killUncorr core (consumed core s))
        else
          let s := s.modCore core fun c => { c with cache := c.cache.filter fun l => l.line ≠ la }
          noteUncorrected ⟨1, core⟩ (rerun core (consumed core s))
      | none =>
        match s.pkg.l2.find? la with
        | some l =>
          if l.dirty then noteUncorrected ⟨2, l.bank⟩ (killUncorr core (consumed core s))
          else
            let s := s.modPkg fun p => { p with l2 := p.l2.del la }
            noteUncorrected ⟨2, l.bank⟩ (rerun core (consumed core s))
        | none => s
    | .scratchBank bank =>
      let s := consumed core s
      let s := match (consumer s core (some bank)).bind fun x => (s.ctxCrew core x).bind fun c => c.region.phase.map fun p => (x, p) with
        | some (x, b, some cs) => if b = bank then cancelPhase core x cs s else killUncorr core s
        | _ => killUncorr core s
      noteUncorrected ⟨1, core⟩ s
    | .dirtyOrRegister => noteUncorrected ⟨1, core⟩ (killUncorr core (consumed core s))
    | .pairsSignature =>
      let sig := fun (k : Nat) (s : State) => noteUncorrected ⟨1, k⟩ (modLoc ⟨1, k⟩ (fun r => { r with sigs := inc64 r.sigs }) s)
      sig (core / 2 * 2 + 1) (sig (core / 2 * 2) (rerun (core / 2 * 2) (consumed (core / 2 * 2) s)))
    | .hbmLine la => noteUncorrected ⟨0, la / 16384⟩ (s.setMeta la { s.lineMeta la with poison := true })
    | .engineBuffer die cls eng =>
      match running s die cls eng with
      | some (r, c) =>
        let s := s.modFn (s.fnOf c.asid) fun f => { f with erru := inc64 f.erru }
        engineKill r.ctx c (trapCode .uncorrData) (freeRun (runKey die cls eng) s)
      | none => s)

/-! ## Loss of a die (01 R18, 13 R279) -/

/-- Started commands of a context on other dies than `die` run to their end (13 R279). A collective ends as null. -/
def settleCmds (die a : Nat) (s : State) : State :=
  foldS ((s.pkg.eng.filter fun e => e.1 / 8 = a).flatMap fun e => (e.2.queue.filter fun c => c.started).map fun c => (e.1, c)) (fun x s =>
    let s := if x.1 % 4 = die || x.2.op = 0x73 then s else (moveBytes 0 (moveTotal x.2 + 1) (moveTotal x.2) x.2 s).1
    let s := s.modPkg fun p => { p with
      runs := p.runs.filter fun r => !(r.2.ctx = x.1 && r.2.num = x.2.num)
      colls := p.colls.filter fun r => !(r.ctx = x.1 && r.num = x.2.num) }
    endCmd x.1 x.2.num s) (s.modCtx a fun c => { c with sealing := none })

/-- Metadata groups whose commit word is durable go in place again before anything else (13 R262). -/
def replayGroups (ours : Nat → Bool) (s : State) : State :=
  foldS (s.pkg.metaLog.filter fun e => ours e.chunk && e.committed) applyGroup s

/-- Sets banks that a reset found to hold a lasting fault to MODE 0, after the change of home lists that this is (05 R104, R107), and tells the
owner. The checks of a configuration apply but for that of a partition's last cache bank: a bank without which they would fail keeps its entry
(DESIGN CHOICE, log 85). -/
def dropLost (bs : List Nat) (s : State) : State :=
  foldS bs (fun b s =>
    let s := report "BANK_CONFIG" none b s
    if banksOk s (banksAfter s [(b, 0)]) [] then applyBanks [(b, 0)] s else s) s

/-- Running chain hash at a log position, from the last seal or the last GATE record before it (13 R267). -/
def Ctx.chainAt (c : Ctx) (p : Nat) : Option (BitVec 256) :=
  let fromSeal : Option (BitVec 256) :=
    if c.recv ∧ c.lastSeal.1 ≤ p then c.chainFrom (p / 64 + 2) c.lastSeal.1 p c.lastSeal.2 else none
  fromSeal.orElse fun _ => ((c.between c.ult p).find? fun q => c.kindAt q = 2).bind fun q =>
    c.chainFrom (p / 64 + 2) (q + 64) p (shake256w (leBytes 32 (c.headAt q / 2 ^ 256) ++ c.recAt q 64))

/-- A die reset loses the records of a log beyond its durable end (13 R269). Their lines hold in HBM4 what they held before; one that still stands
in L2 holds it again. -/
def loseTail (a : Nat) (s : State) : State :=
  let c := s.ctx a
  let s := foldS (c.between c.uld c.rph) (fun p s =>
    if c.kindAt p ≠ 1 then s
    else match s.pkg.l2.find? (lineNo (c.headAt p)) with
    | some l => s.modPkg fun q => { q with l2 := q.l2.put (lineNo (c.headAt p)) { l with data := c.oldAt p, tag := none } }
    | none => s) s
  s.modCtx a fun c => { c with
    rph := c.uld, rpc := (c.chainAt c.uld).getD c.rpc, logIndex := c.logIndex.filter fun r => r.1 < c.uld, heldRecs := [], logHeld := false }

/-- What a die loses: registers, SRAM, L2, TLBs and engine commands; metadata of its stacks that is not durable. -/
def wipeDie (die : Nat) (s : State) : State :=
  let ours := fun (ch : Nat) => dieOfPa (ch * 8192) = die
  let s := foldS ((s.pkg.eng.filter fun e => e.1 % 4 = die).flatMap fun e => e.2.queue.map fun c => (e.1, c.num)) (fun x s => endCmd x.1 x.2 s) s
  let s := foldS ((s.cores.filter fun c => dieOf c.1 = die).map Prod.fst) (fun k s => s.setCore k { fenced := (s.core k).fenced }) s
  let s := dropRides die (replayGroups ours s)
  s.modPkg fun p => { p with
    l2 := p.l2.filter fun e => e.2.bank / 512 ≠ die
    mergeQ := p.mergeQ.filter fun e => e.1 / 512 ≠ die
    staging := p.staging.filter fun e => e.1 / 196608 / 512 ≠ die
    rtlb := p.rtlb.filter fun e => e.1 / 16 ≠ die
    walk := p.walk.filter fun e => e.1 / 16 ≠ die
    walkKeys := p.walkKeys.filter fun e => e.1 / 16 ≠ die
    gondola := p.gondola.filter fun e => e.1 ≠ die
    metaCache := p.metaCache.filter fun e => e.1 / 4 ≠ die
    runs := p.runs.filter fun e => e.1 / 32 ≠ die
    colls := p.colls.filter fun e => e.die ≠ die
    arb := p.arb.filter fun e => e.1 / 2 ≠ die
    ctr := (p.ctrDur.filter fun e => ours e.1).foldl (fun m e => m.put e.1 e.2) (p.ctr.filter fun e => !ours e.1)
    metaDirty := p.metaDirty.filter fun ch => !ours ch
    metaLog := p.metaLog.filter fun e => !ours e.chunk
    chairDies := p.chairDies.filter (· ≠ die)
    chairDiesNext := if p.chairDies.contains die then (p.chairDiesNext ++ [die]).eraseDups else p.chairDiesNext }

/-- The reset of a compute die: contexts that log in recovery mode are recovered, launches of others with work on the die are killed;
then bank entries and chair tables are written back. -/
def resetDie (die : Nat) (s : State) : State :=
  let ctxs := (s.pkg.ctxs.filter fun c => c.2.live && ctxOn s die c.1).map Prod.fst
  let recv := ctxs.filter fun a => (s.ctx a).recv
  let work := fun (n : Nat) (l : Launch) => launchOn s die n l || ctxs.contains l.asid ||
    s.pkg.eng.any fun e => e.1 % 4 = die && e.2.queue.any fun c => c.launch = n
  let others := s.pkg.launches.filter fun l => liveLaunch l.2 && l.2.status.isNone && !(recv.contains l.2.asid) && work l.1 l.2
  let s := foldS (ctxs.filter fun a => (s.ctx a).span || (s.ctx a).recv) loseTail s
  let s := foldS recv (fun a s => settleCmds die a (abandonCtx a s)) s
  let s := wipeDie die (foldS others (fun l s => killContained l.1 s) s)
  let s := s.post (nextOrigin s die) (.frameOrigin die)
  let lost := s.pkg.banks.filter fun b => b.1 / 512 = die && bankMode b.2 ≠ 0 && s.svc.locs.any fun r => r.loc = ⟨2, b.1⟩ && r.lasting
  let s := dropLost (lost.map Prod.fst) s
  let s := foldS recv (fun a s =>
    let s := forceLog a (mergeAll (releaseCores s))
    let (s, r) := walkBack a none s
    let s := match s.svc.owner with | some m => sendReport { from_ := m } r s | none => s
    testHeads a (if r.point.isNone then report "NO_POINT" (some (s.fnOf a)) a s else s)) s
  foldS (s.pkg.parts.map Prod.fst) (fun p s => s.post (nextOrigin s die) (.placementEvaluation p)) s

/-- COMPUTE_DIE_RESET (R18, R279). -/
def execComputeDieReset (die : Nat) (s : State) : Host.Outcome State Fault Refusal := .next (if 4 ≤ die then s else resetDie die s)

/-- CONTAINMENT (18 R376). -/
def execContainment (kind : ContainKind) (s : State) : Host.Outcome State Fault Refusal :=
  .next (match kind with
    | .ownerTree o first chunks => containTree o first chunks s
    | .dieSurvives die => containDie die s
    | .dieLost die => if 4 ≤ die then s else resetDie die s)

/-- UNRETIRE (20 R392, R399). -/
def execUnretire (h : CmdHdr) (w : List W64) (s : State) : Host.Outcome State Fault Refusal :=
  .next (ownerCmd h 0x55 (fun s =>
    let x := opw w 0
    let l : Loc := ⟨fld 3 0 x, fld 63 32 x⟩
    let most := match l.kind with | 0 => 2 ^ 31 | 1 => 512 | 2 => 2048 | 3 => 256 | 4 => 4 | 5 => 4 | _ => 16
    if w.length ≠ 1 || fld 31 4 x ≠ 0 || 6 < l.kind || most ≤ l.index then badOperand h 0x55 s
    else
      let s := s.modSvc fun v => { v with
        locs := v.locs.filter fun r => r.loc ≠ l
        flash := v.flash.filter fun r => r.loc ≠ l
        fencedLocs := v.fencedLocs.filter (· ≠ l)
        retired := if l.kind = 0 then v.retired.filter (· ≠ l.index) else v.retired }
      accepted h 0x55 [] (evaluateAll (refence s))) s)

end Sys2Proof.Machine
end

