-- ==== Sys2Proof/Machine/Debugger.lean ====
section
/-!
DEFINITION. The debugger's commands (spec/18_traps_preemption_containment.md R377; spec/20_reliability_boot_host.md R399, Table 20.4;
spec/21_programs_loops_faults.md R403, R404).
-/
namespace Sys2Proof.Machine

/-- The group of a context that stands on a core, or that was saved from it. -/
def dbgGroup (s : State) (a core : Nat) : Option Group :=
  match (s.group core).filter fun g => s.asidOf g = a with
  | some g => some g
  | none => s.pkg.launches.findSome? fun l =>
    if l.2.asid = a then l.2.suspended.findSome? fun x => (x.groups.find? fun y => y.1 = core).map Prod.snd else none

/-- Changes that group. -/
def modDbgGroup (a core : Nat) (f : Group → Group) (s : State) : State :=
  match (s.group core).filter fun g => s.asidOf g = a with
  | some g => s.setGroup core (f g)
  | none => foldS (s.pkg.launches.filter fun l => l.2.asid = a && !l.2.suspended.isEmpty) (fun l s => s.modLaunch l.1 fun l => { l with
      suspended := l.suspended.map fun x => { x with groups := x.groups.map fun y => if y.1 = core then (y.1, f y.2) else y } }) s

/-- A strand as a strand selector names it: core, home slot, lane. -/
structure Strand where
  core : Nat
  slot : Nat
  lane : Nat
  deriving DecidableEq, Repr

/-- The strand selector of a command. -/
def strandOf (w : Nat) : Option Strand := if fld 63 19 w ≠ 0 then none else some ⟨fld 8 0 w, fld 12 9 w, fld 18 13 w⟩

/-- The crew that holds a strand, where one does. -/
def crewOf (g : Group) (x : Strand) : Option Crew :=
  (g.crews ++ (g.nested.map Nested.held).toList).find? fun c => c.strands.contains (x.lane, x.slot)

/-- The strand lives and its crew does not run. -/
def strandStopped (g : Group) (x : Strand) : Bool :=
  g.live.contains (x.slot * 64 + x.lane) && !(match g.running with | some c => c.strands.contains (x.lane, x.slot) | none => false)

/-- The commit-point entry through which a crew's Burhus registers are read: none where they stand in x and c. -/
def dbgPoint (s : State) (g : Group) (c : Crew) : Option CPoint :=
  if c.fjoset && burhusKernel s g then (sideAt s c c.region.openBidx).filter fun p => (p.seg, p.boff) = c.region.bur else none

/-- A register word is in form for the kernel that the group runs. -/
def regWordOk (s : State) (g : Group) (w : Nat) : Bool :=
  if burhusKernel s g then fld 63 22 w = 0
  else
    let r := fld 7 0 w
    fld 63 23 w = 0 && bitOf 22 w && fld 21 8 w = 0 &&
    (decide (r ≤ 31) || (decide (64 ≤ r) && decide (r < 64 + 16 * ((s.launch g.launch).vbc + 1))) || (decide (128 ≤ r) && decide (r ≤ 156)) ||
     r = 160 || r = 161)

/-- The location record of a register word. -/
def recFor (p : CPoint) (w : Nat) : Option (BitVec 128) := p.locs.find? fun r => fld 21 0 r.toNat = fld 21 0 w

/-- Fields of a loop register. -/
def LoopReg.part (r : LoopReg) (i : Nat) : W64 :=
  match i with | 0 => r.start.setWidth 64 | 1 => r.stop.setWidth 64 | 2 => r.count.setWidth 64 | _ => (BitVec.ofBool r.active).setWidth 64
def LoopReg.setPart (r : LoopReg) (i : Nat) (v : W64) : LoopReg :=
  match i with
  | 0 => { r with start := v.setWidth 32 } | 1 => { r with stop := v.setWidth 32 } | 2 => { r with count := v.setWidth 32 }
  | _ => { r with active := v.getLsbD 0 }

/-- Native state by its code (Table 20.4). -/
def nativeReg (g : Group) (c : Crew) (x : Strand) (r : Nat) : W64 :=
  let i := g.ctx c.ctx
  if r ≤ 31 then i.s.get 0 r
  else if r < 128 then (g.getV x.slot (r - 64) x.lane).setWidth 64
  else if r < 136 then g.p.get 0 (pKey x.slot (r - 128))
  else if r < 140 then (BitVec.ofBool (i.q.getLsbD (r - 136))).setWidth 64
  else if r < 144 then (i.b.get 0 (r - 140)).setWidth 64
  else if r < 148 then (i.a.get 0 (r - 144)).setWidth 64
  else if r < 152 then i.lp0.part (r - 148)
  else if r < 156 then i.lp1.part (r - 152)
  else if r = 156 then i.fpf.setWidth 64
  else if r = 160 then BitVec.ofNat 64 c.region.entry
  else match c.delivered with | some f => BitVec.ofNat 64 f.bidx | none => 0

/-- Writes native state by its code; what the commit shadow holds is written there too. -/
def setNativeReg (c : Crew) (x : Strand) (r : Nat) (v : W64) (g : Group) : Group :=
  let i := g.ctx c.ctx
  let sh := i.shadow
  if r ≤ 31 then g.put c.ctx .s r x.slot x.lane v
  else if r < 128 then g.put c.ctx .v (r - 64) x.slot x.lane v
  else if r < 136 then { g with p := g.p.set 0 (pKey x.slot (r - 128)) v }
  else if r < 140 then g.setCtx c.ctx { i with q := setBit i.q (r - 136) (v.getLsbD 0), shadow := { sh with q := setBit sh.q (r - 136) (v.getLsbD 0) } }
  else if r < 144 then g.setCtx c.ctx { i with b := i.b.set 0 (r - 140) (v.setWidth 32), shadow := { sh with b := sh.b.set 0 (r - 140) (v.setWidth 32) } }
  else if r < 148 then g.setCtx c.ctx { i with a := i.a.set 0 (r - 144) (v.setWidth 48) }
  else if r < 152 then g.setCtx c.ctx { i with lp0 := i.lp0.setPart (r - 148) v, shadow := { sh with lp0 := sh.lp0.setPart (r - 148) v } }
  else if r < 156 then g.setCtx c.ctx { i with lp1 := i.lp1.setPart (r - 152) v, shadow := { sh with lp1 := sh.lp1.setPart (r - 152) v } }
  else g.setCtx c.ctx { i with fpf := v.setWidth 5 }

/-- A Burhus register of a strand, or none where it is dead. -/
def burhusReg (g : Group) (c : Crew) (p : Option CPoint) (x : Strand) (w : Nat) : Option W64 :=
  match p with
  | none => some (if bitOf 21 w then (BitVec.ofBool (g.getC x.slot x.lane (fld 20 0 w))).setWidth 64 else g.getX x.slot x.lane (fld 20 0 w))
  | some p => (recFor p w).map fun r => BitVec.ofNat 64 (locVal g c.ctx x.slot x.lane r.toNat)

/-- Writes a Burhus register of a strand where it stands; none where it has no place. -/
def setBurhusReg (g : Group) (c : Crew) (p : Option CPoint) (x : Strand) (w : Nat) (v : W64) : Option Group :=
  match p with
  | none => some (g.put c.ctx (if bitOf 21 w then .c else .x) (fld 20 0 w) x.slot x.lane v)
  | some p =>
    (recFor p w).bind fun r =>
      let r := r.toNat
      let hi := v >>> (32 : Nat)
      let at_ := fun (k : Nat) => spillKey x.slot (256 * k + 4 * x.lane)
      match fld 25 22 r with
      | 0 => some (g.put c.ctx .s (fld 35 26 r) x.slot x.lane v)
      | 1 => some (g.put c.ctx .v (fld 35 26 r) x.slot x.lane v)
      | 2 => some ((g.put c.ctx .v (fld 35 26 r) x.slot x.lane v).put c.ctx .v (fld 45 36 r) x.slot x.lane hi)
      | 3 => some (g.put c.ctx .p (fld 35 26 r) x.slot x.lane v)
      | 4 => some (setNativeReg c x (136 + fld 35 26 r) v g)
      | 5 => some { g with spill := SMap.setList 0 g.spill (at_ (fld 35 26 r)) (leBytes 4 v.toNat) }
      | 6 => some { g with spill := SMap.setList 0 (SMap.setList 0 g.spill (at_ (fld 35 26 r)) (leBytes 4 v.toNat)) (at_ (fld 45 36 r)) (leBytes 4 hi.toNat) }
      | _ => none

/-- The crews that the debugger has stopped go on (R363, R404): a Burhus crew skips the trapped instruction, native code without
Burhus code runs its region again with every BRK as NOP. -/
def freeStopped (now : Nat) (g : Group) : Group :=
  let go := fun (c : Crew) =>
    let c' := match c.delivered with
      | none => c
      | some f =>
        if c.fjoset then { c with brkNop := true }
        else
          let sk := if f.lanes.isEmpty then c.strands.map Prod.fst else f.lanes.map Prod.fst
          { c with skip := sk, region := { c.region with skip0 := sk } }
    ({ crew := { c' with delivered := none }, whole := false, since := now } : Ready)
  let out := g.blocked.filter fun b => b.2 = .debugger
  let g := { g with blocked := g.blocked.filter fun b => b.2 ≠ .debugger }
  out.foldl (fun g b =>
    if b.1.handler then { g with nested := g.nested.map fun n => { n with frontier := { n.frontier with ready := n.frontier.ready ++ [go b.1] } } }
    else { g with frontier := { g.frontier with ready := g.frontier.ready ++ [go b.1] } }) g

/-- Resumes a context. -/
def contContext (a : Nat) (s : State) : State :=
  let s := s.modCtx a fun c => { c with stopped := false }
  let s := foldS (coresOf s a) (fun k s => s.modGroup k (freeStopped s.cycle)) s
  let s := foldS (s.pkg.launches.filter fun l => l.2.asid = a && !l.2.suspended.isEmpty) (fun l s => s.modLaunch l.1 fun l => { l with
    suspended := l.suspended.map fun x => { x with groups := x.groups.map fun y => (y.1, freeStopped s.cycle y.2) } }) s
  testHeads a (s.post s.now (.placementEvaluation (s.fn (s.fnOf a)).part))

/-- A debugger command on a context that has a debugger. -/
def dbgCmd (h : CmdHdr) (code : Nat) (w : List W64) (form : Bool) (run : Nat → State → State) (s : State) : State :=
  ownerCmd h code (fun s =>
    match ctxWord s (opw w 0) with
    | none => badOperand h code s
    | some a => if !form then badOperand h code s else if !(s.ctx a).dbg then refused h code "NO_DEBUGGER" s else run a s) s

/-- DATTACH. -/
def execDattach (h : CmdHdr) (w : List W64) (s : State) : Host.Outcome State Fault Refusal :=
  .next (ownerCmd h 0x44 (fun s =>
    match ctxWord s (opw w 0) with
    | none => badOperand h 0x44 s
    | some a =>
      if w.length ≠ 1 then badOperand h 0x44 s
      else if (s.ctx a).dbg then refused h 0x44 "DBG_ATTACHED" s
      else accepted h 0x44 [] (s.modCtx a fun c => { c with dbg := true })) s)

/-- DDETACH: a stopped context resumes as DCONT resumes it. -/
def execDdetach (h : CmdHdr) (w : List W64) (s : State) : Host.Outcome State Fault Refusal :=
  .next (dbgCmd h 0x45 w (w.length = 1) (fun a s => accepted h 0x45 [] (contContext a (s.modCtx a fun c => { c with dbg := false }))) s)

/-- DSTOP: the reply is sent when every crew of the context stands at a commit point. -/
def execDstop (h : CmdHdr) (w : List W64) (s : State) : Host.Outcome State Fault Refusal :=
  .next (dbgCmd h 0x40 w (w.length = 1) (fun a s =>
    let s := stopContext a s
    if contextStill s a then accepted h 0x40 [] s else s.post (s.now + 2) (.dstop h w)) s)

/-- DCONT. -/
def execDcont (h : CmdHdr) (w : List W64) (s : State) : Host.Outcome State Fault Refusal :=
  .next (dbgCmd h 0x43 w (w.length = 1) (fun a s => accepted h 0x43 [] (contContext a s)) s)

/-- DREAD: registers of a stopped strand, with the mask of the dead ones; what the answer holds for a dead one is open (log 5). -/
def execDread (h : CmdHdr) (w : List W64) (s : State) : Host.Outcome State Fault Refusal :=
  .next (let n := opw w 2
    dbgCmd h 0x41 w (decide (1 ≤ n) && decide (n ≤ 4000) && w.length = 3 + n) (fun a s =>
      match strandOf (opw w 1) with
      | none => badOperand h 0x41 s
      | some x =>
        match dbgGroup s a x.core with
        | none => badOperand h 0x41 s
        | some g =>
          if !strandStopped g x || !((w.drop 3).all fun r => regWordOk s g r.toNat) then badOperand h 0x41 s
          else
            let c := (crewOf g x).getD { ctx := x.slot }
            let vs := (w.drop 3).map fun r =>
              if burhusKernel s g then burhusReg g c (dbgPoint s g c) x r.toNat else some (nativeReg g c x (fld 7 0 r.toNat))
            let dead := (List.zip (List.range n) vs).foldl (fun (m : Nat) v => if v.2.isNone then m + 2 ^ v.1 else m) 0
            accepted h 0x41 (BitVec.ofNat 64 n :: (List.zip (List.range n) vs).map (fun v => v.2.getD (Config.freeValue (s.free + v.1))) ++ numWords ((n + 63) / 64) dead)
              (if dead = 0 then s else s.draw n)) s)

/-- DWRITE: one listed register of a stopped strand. -/
def execDwrite (h : CmdHdr) (w : List W64) (s : State) : Host.Outcome State Fault Refusal :=
  .next (dbgCmd h 0x42 w (w.length = 4) (fun a s =>
    match strandOf (opw w 1) with
    | none => badOperand h 0x42 s
    | some x =>
      match dbgGroup s a x.core with
      | none => badOperand h 0x42 s
      | some g =>
        let r := opw w 2
        let v := w.getD 3 0
        let c := (crewOf g x).getD { ctx := x.slot }
        if !strandStopped g x || !regWordOk s g r || (bitOf 22 r && decide (160 ≤ fld 7 0 r)) then badOperand h 0x42 s
        else if !burhusKernel s g then accepted h 0x42 [] (modDbgGroup a x.core (setNativeReg c x (fld 7 0 r) v) s)
        else
          match setBurhusReg g c (dbgPoint s g c) x r v with
          | some g' => accepted h 0x42 [] (modDbgGroup a x.core (fun _ => g') s)
          | none => refused h 0x42 "UNLISTED" s) s)

end Sys2Proof.Machine
end

