-- ==== Sys2Proof/Machine/Tenants.lean ====
section
/-!
DEFINITION. Ownership, functions, contexts, windows and granules (spec/19_partitions_tenants.md R378, R379, R384 to R387, R414;
spec/04_hbm_translation_protection.md R74, R76, R92, R100, R102; spec/20_reliability_boot_host.md R399).
-/
namespace Sys2Proof.Machine

/-! ## The owner (R378, R379) -/

/-- A master becomes owner: it must be heard from within 3 s. -/
def setOwner (m : Master) (s : State) : State :=
  (s.modSvc fun v => { v with owner := some m, heard := s.now, window := none, claims := [] }).post (s.now + usec 3000000) .ownershipLapse

/-- OWNED, with the owner's class. -/
def owned (h : CmdHdr) (m : Master) (s : State) : State := answer h 0x01 2 "" [BitVec.ofNat 64 m.cls] s

/-- CLAIM: held while the claim window is open; without an owner it wins, else it is answered OWNED. -/
def execClaim (h : CmdHdr) (w : List W64) (s : State) : Host.Outcome State Fault Refusal :=
  .next (anyCmd h 0x01 (fun s =>
    if w ≠ [] || h.from_.cls < 1 || 3 < h.from_.cls then badOperand h 0x01 s
    else if s.svc.window.isSome then s.modSvc fun v => { v with claims := v.claims ++ [(h.from_, h.tag)] }
    else match s.svc.owner with
      | some m => owned h m s
      | none => accepted h 0x01 [] (setOwner h.from_ s)) s)

/-- The claim that wins: the highest class, and within it the lowest endpoint. -/
def winner (cs : List (Master × BitVec 16)) : Option (Master × BitVec 16) :=
  cs.foldl (fun (b : Option (Master × BitVec 16)) c => match b with
    | none => some c
    | some x => if x.1.cls < c.1.cls || (x.1.cls = c.1.cls && c.1.ep < x.1.ep) then some c else b) none

/-- KEEP. -/
def execKeep (h : CmdHdr) (w : List W64) (s : State) : Host.Outcome State Fault Refusal :=
  .next (ownerCmd h 0x02 (fun s => if w ≠ [] then badOperand h 0x02 s else accepted h 0x02 [] s) s)

/-- OWNERSHIP_LAPSE: the owner has sent nothing for 3 s. -/
def execOwnershipLapse (s : State) : Host.Outcome State Fault Refusal :=
  .next (match s.svc.owner with
    | none => s
    | some _ =>
      if s.now < s.svc.heard + usec 3000000 then s.post (s.svc.heard + usec 3000000) .ownershipLapse
      else s.modSvc fun v => { v with owner := none, handover := none })

/-- HANDOVER: waits for the target's ACCEPT; one that finds another waiting takes its turn behind it. -/
def execHandover (h : CmdHdr) (w : List W64) (s : State) : Host.Outcome State Fault Refusal :=
  .next (ownerCmd h 0x03 (fun s =>
    let x := opw w 0
    let m : Master := ⟨fld 1 0 x, fld 15 8 x⟩
    if w.length ≠ 1 || fld 7 2 x ≠ 0 || fld 63 16 x ≠ 0 || m.cls = 0 || (m.cls = 1 && m.ep ≠ 0) then badOperand h 0x03 s
    else if s.svc.handover.isSome then s.post (s.now + 2) (.handover h w)
    else (s.modSvc fun v => { v with handover := some (m, h, s.now) }).post (s.now + usec 100000) .handoverTimeout) s)

/-- ACCEPT: the target of a HANDOVER becomes owner. -/
def execAccept (h : CmdHdr) (w : List W64) (s : State) : Host.Outcome State Fault Refusal :=
  .next (anyCmd h 0x04 (fun s =>
    match s.svc.handover with
    | some (m, h', t) =>
      if h.from_ ≠ m || s.now > t + usec 100000 then answer h 0x04 1 "" [] s
      else if w ≠ [] then badOperand h 0x04 s
      else accepted h 0x04 [] (accepted h' 0x03 [] (setOwner m (s.modSvc fun v => { v with handover := none })))
    | none => if s.svc.owner = some h.from_ then refused h 0x04 "NO_ACCEPT" s else answer h 0x04 1 "" [] s) s)

/-- HANDOVER_TIMEOUT: the target has not accepted within 100 ms. -/
def execHandoverTimeout (s : State) : Host.Outcome State Fault Refusal :=
  .next (match s.svc.handover with
    | some (_, h, t) =>
      if s.now < t + usec 100000 then s else refused h 0x03 "NO_ACCEPT" (s.modSvc fun v => { v with handover := none })
    | none => s)

/-! ## Functions (R384, R385) -/

/-- A context ends: what is tagged with its ASID is invalidated (03 R66), and its granules are released. -/
def freeContext (a : Nat) (s : State) : State :=
  let c := s.ctx a
  let s := dropTlb (fun e => e.asid = a) (repostSeals a s)
  let s := foldS (s.cores.map Prod.fst) (fun k s => s.modCore k fun x => { x with
    l1 := x.l1.filter fun l => l.1 ≠ a, cache := x.cache.filter fun l => l.asid ≠ a || l.dirty ≠ 0 }) s
  let mapped := c.frames.flatMap fun f => (List.range f.2.1).map (f.1 + ·)
  let s := foldS (c.logGr ++ c.sealGr.toList ++ c.saveGr ++ c.tblGr ++ mapped) releaseGranule s
  let s := s.modFn c.fnum fun f => { f with used := f.used - mapped.length }
  let keys := (s.pkg.launches.filterMap fun l => if l.2.asid = a && l.2.waitTr then l.2.key else none).eraseDups
  foldS keys quickStart (s.modPkg fun p => { p with
    codePtes := p.codePtes.filter fun e => !c.tblGr.contains (granOf e.1)
    ctxs := p.ctxs.del a
    eng := p.eng.filter fun e => e.1 / 8 ≠ a
    kernels := p.kernels.filter fun k => k.asid ≠ a
    launches := p.launches.filter fun l => l.2.asid ≠ a })

/-- The contexts of a function. -/
def ctxsOf (s : State) (f : Nat) : List Nat := (s.pkg.ctxs.filter fun c => c.2.live && c.2.fnum = f).map Prod.fst

/-- Kills every incomplete launch of a function, with FKIND 0, and writes the completion records that can be written now. -/
def killFn (f : Nat) (s : State) : State :=
  let ls := (s.pkg.launches.filter fun l => liveLaunch l.2 && s.fnOf l.2.asid = f).map Prod.fst
  let s := foldS ls (endLaunch (1, 0, 0, 0)) s
  foldS ls (fun n s => if completable s n then finishLaunch n (releaseCores s) else s) s

/-- A function's contexts, key and granules go. Function 0 keeps its key and the granules that hold the page tables of live contexts (04 R74). -/
def clearFn (f : Nat) (s : State) : State :=
  let s := foldS (ctxsOf s f) freeContext s
  let tables := s.pkg.ctxs.flatMap fun c => if c.2.live then c.2.tblGr else []
  let s := foldS ((s.pkg.owners.filter fun g => fld 9 0 g.2.toNat = f && !tables.contains g.1).map Prod.fst) releaseGranule s
  (if f = 0 then rekeyOwner 0 s else s).modFn f fun x => { x with key := if f = 0 then x.key else 0, used := 0, record := x.record &&& BitVec.ofNat 128 (2 ^ 128 - 1 - 2 ^ 50) }

/-- A started command of one of a function's contexts has not completed. -/
def fnBusy (s : State) (f : Nat) : Bool := (ctxsOf s f).any (cmdsStarted s)

/-- Setting EN draws the function's key, which function 0 holds since boot, and zeroes its error counters (R385, R389). -/
def enableFn (f : Nat) (s : State) : State :=
  (if f = 0 then rekeyOwner 0 else drawKey f) (s.modFn f fun x => { x with errc := 0, erru := 0, errp := 0, errs := 0, errk := 0, used := 0 })

/-- Writes a function's record. -/
def writeFn (f : Nat) (r : BitVec 128) (s : State) : State :=
  let was := (s.fn f).en
  let s := s.modFn f fun x => { x with record := r }
  if !was && (s.fn f).en then enableFn f s else s

/-- The first check of an FCONFIG that fails. -/
def fconfFails (s : State) (w : List W64) : Option String :=
  let r := opw w 0 + 2 ^ 64 * opw w 1
  let f := fld 48 40 r
  let new : Fn := { record := BitVec.ofNat 128 r }
  if w.length ≠ 2 || bitOf 49 r || fld 39 19 r ≠ 0 || new.weight = 0 || 486528 < new.gquota then some "BAD_OPERAND"
  else if (s.fn f).en && new.part ≠ (s.fn f).part then some "FN_ENABLED"
  else if new.maxc + 1 < (ctxsOf s f).length then some "CTX_LIVE"
  else none

/-- FCONFIG (R384, R385): a function that is disabled waits for its started commands. -/
def execFconfig (h : CmdHdr) (w : List W64) (s : State) : Host.Outcome State Fault Refusal :=
  .next (ownerCmd h 0x11 (fun s =>
    match fconfFails s w with
    | some e => refused h 0x11 e s
    | none =>
      let r := opw w 0 + 2 ^ 64 * opw w 1
      let f := fld 48 40 r
      if (s.fn f).en && !bitOf 50 r then
        let s := killFn f s
        if fnBusy s f then s.post (s.now + 2) (.fconfig h w) else accepted h 0x11 [] (writeFn f (BitVec.ofNat 128 r) (clearFn f s))
      else accepted h 0x11 [] (writeFn f (BitVec.ofNat 128 r) s)) s)

/-- FUNCTION_RESET (04 R92): as a disable; what the host reaches of the function goes back to its reset values. -/
def execFunctionReset (fn : Nat) (s : State) : Host.Outcome State Fault Refusal :=
  .next (if 512 ≤ fn then s
    else
      let s := killFn fn s
      if fnBusy s fn then s.post (s.now + 2) (.functionReset fn)
      else (clearFn fn s).modFn fn fun x => { x with hw0 := 0, hw1 := 0, reply := [], ready := false, msix := [] })

/-- CLAIM_WINDOW_CLOSE (R378): the best claim wins and every other is answered OWNED; without a claim the default configuration is
applied. -/
def execClaimWindowClose (s : State) : Host.Outcome State Fault Refusal :=
  .next (match s.svc.window with
    | none => s
    | some t =>
      if s.now < t then s.post t .claimWindowClose
      else
        let cs := s.svc.claims
        match winner cs with
        | some (m, tag) =>
          let s := accepted { from_ := m, tag := tag } 0x01 [] (setOwner m s)
          foldS (cs.filter fun c => c ≠ (m, tag)) (fun c s => owned { from_ := c.1, tag := c.2 } m s) s
        | none =>
          let s := s.modSvc fun v => { v with window := none }
          let s := foldS s.svc.flashParts (fun w s =>
            let p := (pconfOf w).p
            (applyHeld p (queuePconf p (none, w) s)).post s.now (.placementEvaluation p)) s
          foldS s.svc.flashFns (fun w s => writeFn (fld 48 40 (opw w 0)) (BitVec.ofNat 128 (opw w 0 + 2 ^ 64 * opw w 1)) s) s)

/-! ## Contexts (R386) -/

/-- The regions of a function's partition. -/
def fnRegions (s : State) (f : Nat) : List Nat := (List.range 64).filter fun r => bitOf r (s.part (s.fn f).part).regm

/-- CTXNEW: the lowest slot and the lowest ASID that are free; the translation word with an empty table, the save granule, and for each region of
the partition the granule that backs the spill areas of its cores (05 R110; log 86). -/
def execCtxnew (h : CmdHdr) (w : List W64) (s : State) : Host.Outcome State Fault Refusal :=
  .next (fnCmd h 0x60 (fun s =>
    let f := h.from_.ep
    let slots := (ctxsOf s f).map fun a => (s.ctx a).slot
    match w, (List.range ((s.fn f).maxc + 1)).find? fun j => !slots.contains j with
    | _ :: _, _ => badOperand h 0x60 s
    | [], none => refused h 0x60 "NO_SLOT" s
    | [], some j =>
      match (List.range 4096).find? fun a => !(s.ctx a).live, freeGranules s (2 + (fnRegions s f).length) with
      | some a, some (g :: g' :: gs) =>
        let s := foldS (s.cores.map Prod.fst) (fun k s => s.modCore k fun x => { x with l1 := x.l1.filter fun l => l.1 ≠ a }) s
        let s := foldS (g' :: gs) (fun x s => assignGranule x f s) (assignGranule g 0 (dropTlb (fun e => e.asid = a) s))
        let c : Ctx := {
          word := BitVec.ofNat 64 (a * 2 ^ 52 + g * 2 ^ 21 + f * 2 + 1)
          live := true, slot := j, tblGr := [g], tbls := 1, saveGr := g' :: gs, spillGr := List.zip (fnRegions s f) gs }
        accepted h 0x60 [BitVec.ofNat 64 (a + j * 2 ^ 16)] (s.modPkg fun p => { p with ctxs := p.ctxs.put a c })
      | _, _ => refused h 0x60 "NO_GRANULE" s) s)

/-- CTXFREE. -/
def execCtxfree (h : CmdHdr) (w : List W64) (s : State) : Host.Outcome State Fault Refusal :=
  .next (fnCmd h 0x61 (fun s =>
    match ownCtx s h (opw w 0) with
    | none => badOperand h 0x61 s
    | some a =>
      if w.length ≠ 1 then badOperand h 0x61 s
      else if s.pkg.launches.any fun l => l.2.asid = a && liveLaunch l.2 then refused h 0x61 "LAUNCH_LIVE" s
      else accepted h 0x61 [] (freeContext a s)) s)

/-- The pages of a range. -/
def rangePages (va n sz : Nat) : List Nat := (List.range (n / pageBytes sz)).map fun i => va + i * pageBytes sz

/-- The pages of a context that a range covers and that stand in a granule, each with its size code. -/
def pagesIn (a va n : Nat) (s : State) : List (Nat × Nat) :=
  let c := s.ctx a
  let szAt := fun (v : Nat) => match c.maps.find? fun m => decide (m.1 ≤ v ∧ v < m.1 + m.2.1) with | some m => m.2.2.2.2 | none => 0
  ((c.frames.flatMap fun f => f.2.2).map fun v => (v, szAt v)).filter fun p => decide (p.1 < va + n) && decide (va < p.1 + pageBytes p.2)

/-- Makes the leaves of a range invalid and posts the invalidation request for it; the answer says whether that is complete (04 R87, R88). -/
def unmapLeaves (a va n : Nat) (s : State) : State × Bool :=
  let pages := pagesIn a va n s
  if pages.isEmpty then (s, true) else invalidate (rangeRequest a va n) (foldS pages (fun p s => unmapPage a p.1 p.2 s) s)

/-- Takes a range of addresses out of a context's mapping, and releases the blocks of which no page is left. -/
def unmapRange (a va n : Nat) (s : State) : State :=
  let c := s.ctx a
  let pages := (pagesIn a va n s).map Prod.fst
  let left := c.frames.map fun f => (f.1, f.2.1, f.2.2.filter fun v => !pages.contains v)
  let gone := (left.filter fun f => f.2.2.isEmpty).flatMap fun f => (List.range f.2.1).map (f.1 + ·)
  let s := (foldS gone releaseGranule s).modFn c.fnum fun f => { f with used := f.used - gone.length }
  let cut := fun (m : Nat × Nat × Nat × Bool × Nat) =>
    let (lo, len, rw, lz, sz) := m
    let e := lo + len
    if e ≤ va || va + n ≤ lo then [m]
    else (if lo < va then [(lo, va - lo, rw, lz, sz)] else []) ++ (if va + n < e then [(va + n, e - va - n, rw, lz, sz)] else [])
  s.modCtx a fun c => { c with frames := left.filter fun f => !f.2.2.isEmpty, maps := c.maps.flatMap cut }

/-- The page-fault service of a function's partition is in hardware mode. -/
def hwPaging (s : State) (f : Nat) : Bool := !assisted s (s.fn f).part 0

/-- MAP: a range that is not lazy is backed at once, and is refused whole where the quota or the free granules do not hold it. -/
def execMapMem (h : CmdHdr) (w : List W64) (s : State) : Host.Outcome State Fault Refusal :=
  .next (fnCmd h 0x62 (fun s =>
    let f := h.from_.ep
    let va := opw w 1
    let n := opw w 2
    let x := opw w 3
    let sz := fld 4 3 x
    if !hwPaging s f then refused h 0x62 "BAD_COMMAND" s
    else match ownCtx s h (opw w 0) with
    | none => badOperand h 0x62 s
    | some a =>
      if w.length ≠ 4 || fld 63 5 x ≠ 0 || sz = 3 || va % pageBytes sz ≠ 0 || n = 0 || n % pageBytes sz ≠ 0 || 2 ^ 56 < va + n ||
         !bitOf 0 x then badOperand h 0x62 s
      else
        let m : Nat × Nat × Nat × Bool × Nat := (va, n, fld 1 0 x, bitOf 2 x, sz)
        let map := fun (s : State) =>
          let t := (unmapRange a va n s).modCtx a fun c => { c with maps := c.maps ++ [m] }
          if bitOf 2 x then (t, none)
          else
            let blk := blockGrans sz * 2 ^ 21
            let bs := ((rangePages va n sz).map fun v => v / blk * blk).eraseDups
            if (t.fn f).gquota < (t.fn f).used + bs.length * blockGrans sz then (t, some "QUOTA")
            else
              match bs.foldl (fun (r : State × Bool) b => if r.2 then backBlock a (max b va) m r.1 else r) (t, true) with
              | (t, true) => (t, none)
              | (t, false) => (t, some "NO_GRANULE")
        match (map s).2 with
        | some e => refused h 0x62 e s
        | none =>
          match unmapLeaves a va n s with
          | (s, false) => s.post (s.now + 2) (.mapMem h w)
          | (s, true) => accepted h 0x62 [] (map s).1) s)

/-- UNMAP. -/
def execUnmapMem (h : CmdHdr) (w : List W64) (s : State) : Host.Outcome State Fault Refusal :=
  .next (fnCmd h 0x63 (fun s =>
    if !hwPaging s h.from_.ep then refused h 0x63 "BAD_COMMAND" s
    else match ownCtx s h (opw w 0) with
    | none => badOperand h 0x63 s
    | some a =>
      if w.length ≠ 3 || opw w 1 % 65536 ≠ 0 || opw w 2 = 0 || opw w 2 % 65536 ≠ 0 || 2 ^ 56 < opw w 1 + opw w 2 then badOperand h 0x63 s
      else match unmapLeaves a (opw w 1) (opw w 2) s with
        | (s, false) => s.post (s.now + 2) (.unmapMem h w)
        | (s, true) => accepted h 0x63 [] (unmapRange a (opw w 1) (opw w 2) s)) s)

/-! ## Windows (04 R100) -/

/-- WINNEW: the window's key is drawn, and its granules are assigned. -/
def execWinnew (h : CmdHdr) (w : List W64) (s : State) : Host.Outcome State Fault Refusal :=
  .next (ownerCmd h 0x12 (fun s =>
    let x := opw w 0
    let n := fld 7 0 x
    let m := fld 11 8 x
    let ng := fld 63 32 x
    let ms := (w.drop 1).map BitVec.toNat
    if fld 31 12 x ≠ 0 || n = 0 || m = 0 || 8 < m || ng = 0 || 4094 < ng || w.length ≠ 1 + m || ms.any (fun y => fld 63 10 y ≠ 0) ||
       (s.pkg.wins.find? n).isSome then badOperand h 0x12 s
    else if ms.any fun y => bitOf 6 (s.fn (fld 8 0 y)).fmask then refused h 0x12 "FEATURE_MASKED" s
    else match freeGranules s ng with
      | none => refused h 0x12 "NO_GRANULE" s
      | some gs =>
        let win : Window := { members := ms.map fun y => (fld 8 0 y, bitOf 9 y), granules := gs }
        let s := drawKey (512 + n) (s.modPkg fun p => { p with wins := p.wins.put n win })
        accepted h 0x12 (gs.map fun g => BitVec.ofNat 64 g) (foldS gs (fun g s => assignGranule g (512 + n) s) s)) s)

/-- WINFREE: the window's granules are released once no access to them is left (04 R74, R88). -/
def execWinfree (h : CmdHdr) (w : List W64) (s : State) : Host.Outcome State Fault Refusal :=
  .next (ownerCmd h 0x13 (fun s =>
    match s.pkg.wins.find? (opw w 0) with
    | none => badOperand h 0x13 s
    | some win =>
      if w.length ≠ 1 then badOperand h 0x13 s
      else
        match quiesce win.granules s with
        | (s, false) => s.post (s.now + 2) (.winfree h w)
        | (s, true) => accepted h 0x13 [] ((foldS win.granules releaseGranule s).modPkg fun p => { p with wins := p.wins.del (opw w 0) })) s)

/-! ## Services of the owner (R387, R414) -/

/-- DISPATCH: the dispatcher may take so many more entries of a queue. -/
def execDispatch (h : CmdHdr) (w : List W64) (s : State) : Host.Outcome State Fault Refusal :=
  .next (ownerCmd h 0x14 (fun s =>
    let x := opw w 0
    let n := opw w 1
    match ctxWord s (x % 4096) with
    | none => badOperand h 0x14 s
    | some a =>
      if w.length ≠ 2 || fld 63 15 x ≠ 0 || n = 0 || 2 ^ 32 ≤ n then badOperand h 0x14 s
      else accepted h 0x14 [] ((modQueue a (fld 14 12 x) (fun q => { q with credit := q.credit + n }) s).post s.now (.queueTake a (fld 14 12 x)))) s)

/-- Contexts that a tree failure stopped go on once the granules that it covered are restored or discarded (04 R102). -/
def resumeTree (o : Nat) (s : State) : State :=
  if s.pkg.treeBad.any fun g => s.ownerOf g = o then s
  else
    let cs := (ownerCtxs s o).filter fun a => (s.ctx a).treeStop
    let s := foldS cs (fun a s => testHeads a (s.modCtx a fun c => { c with treeStop := false })) s
    foldS ((cs.map fun a => (s.fn (s.fnOf a)).part).eraseDups) (fun p s => s.post s.now (.placementEvaluation p)) s

/-- Rewrites a granule of an owner under fresh counters, from bytes or as zeros. -/
def rewriteGranule (g o : Nat) (bs : List Byte) (s : State) : State :=
  let s := ((zeroGranule g o s).modPkg fun p => { p with treeBad := p.treeBad.filter (· ≠ g) }).putRaw (g * 2 ^ 21) bs
  foldS (List.range 256) (fun j s => commitChunk (g * 256 + j) s) s

/-- The owner word of RESTORE and DISCARD: owner code and count. -/
def ownerWord (w : List W64) (per most : Nat) : Option (Nat × Nat) :=
  let x := opw w 0
  let n := fld 63 32 x
  if fld 31 10 x ≠ 0 || n = 0 || most < n || w.length ≠ 1 + per * n then none else some (fld 9 0 x, n)

/-- RESTORE. -/
def execRestoreGr (h : CmdHdr) (w : List W64) (s : State) : Host.Outcome State Fault Refusal :=
  .next (ownerCmd h 0x15 (fun s =>
    match ownerWord w 2 2046 with
    | none => badOperand h 0x15 s
    | some (o, n) =>
      let ps := (List.range n).map fun i => (opw w (1 + 2 * i), opw w (2 + 2 * i))
      if ps.any fun p => !granOk p.1 || s.ownerOf p.1 ≠ o || o = 0x3FE || 2 ^ 50 < p.2 + 2 ^ 21 then badOperand h 0x15 s
      else accepted h 0x15 [] (resumeTree o (foldS ps (fun p s => rewriteGranule p.1 o (s.rawBytes (busPa p.2) (2 ^ 21)) s) s))) s)

/-- DISCARD. -/
def execDiscardGr (h : CmdHdr) (w : List W64) (s : State) : Host.Outcome State Fault Refusal :=
  .next (ownerCmd h 0x16 (fun s =>
    match ownerWord w 1 4093 with
    | none => badOperand h 0x16 s
    | some (o, n) =>
      let gs := (List.range n).map fun i => opw w (1 + i)
      if gs.any fun g => !granOk g || s.ownerOf g ≠ o || o = 0x3FE then badOperand h 0x16 s
      else accepted h 0x16 [] (resumeTree o (foldS gs (fun g s => rewriteGranule g o [] s) s))) s)

/-- The function word of GRANT and REVOKE: function and count. -/
def grantWord (w : List W64) : Option (Nat × Nat) :=
  let x := opw w 0
  if fld 31 9 x ≠ 0 || fld 63 32 x = 0 || 4094 < fld 63 32 x then none else some (fld 8 0 x, fld 63 32 x)

/-- GRANT. -/
def execGrant (h : CmdHdr) (w : List W64) (s : State) : Host.Outcome State Fault Refusal :=
  .next (ownerCmd h 0x17 (fun s =>
    match grantWord w with
    | none => badOperand h 0x17 s
    | some (f, n) =>
      if w.length ≠ 1 then badOperand h 0x17 s
      else match freeGranules s n with
        | none => refused h 0x17 "NO_GRANULE" s
        | some gs => accepted h 0x17 (gs.map fun g => BitVec.ofNat 64 g) (foldS gs (fun g s => assignGranule g f s) s)) s)

/-- A granule holds a context's log, save area or seal slots. -/
def granBusy (s : State) (g : Nat) : Bool := s.pkg.ctxs.any fun c => c.2.logGr.contains g || c.2.saveGr.contains g || c.2.sealGr == some g

/-- REVOKE: the granules are released once no access to them is left (04 R74, R88). -/
def execRevoke (h : CmdHdr) (w : List W64) (s : State) : Host.Outcome State Fault Refusal :=
  .next (ownerCmd h 0x18 (fun s =>
    match grantWord w with
    | none => badOperand h 0x18 s
    | some (f, n) =>
      let gs := (w.drop 1).map BitVec.toNat
      if gs.length ≠ n || gs.any (fun g => !granOk g || s.ownerOf g ≠ f) then badOperand h 0x18 s
      else if gs.any (granBusy s) then refused h 0x18 "GRANULE_BUSY" s
      else match quiesce gs s with
      | (s, false) => s.post (s.now + 2) (.revoke h w)
      | (s, true) =>
        let s := s.modPkg fun p => { p with ctxs := p.ctxs.map fun c => (c.1, { c.2 with
          tblGr := c.2.tblGr.filter fun g => !gs.contains g
          tbls := if c.2.tblGr.any (fun g => gs.contains g) then 256 * (c.2.tblGr.filter fun g => !gs.contains g).length else c.2.tbls
          frames := c.2.frames.filter fun x => !gs.contains x.1 }) }
        accepted h 0x18 [] (foldS gs releaseGranule s)) s)

end Sys2Proof.Machine
end

