-- ==== Sys2Proof/Machine/Package.lean ====
section
/-!
DEFINITION. The package as a whole (spec/20_reliability_boot_host.md R393 to R395, R398 to R402; spec/05_l2_lift_ring.md R104, R113;
spec/01_pubrika_x4.md R18): boot and power, attestation, telemetry, links, clocks and cooling.
-/
namespace Sys2Proof.Machine

/-! ## Firmware and boot (R394) -/

/-- An image passes the boot ROM's checks. -/
def imageOk (img : List Byte) : Bool :=
  Config.verify (Config.fwKey img) (shake256 img 64) (Config.fwSig img) &&
  decide (shake256 (Config.fwKey img) Config.fusedHash.length = Config.fusedHash) && decide (Config.fusedMin.toNat ≤ (Config.fwVersions img).1.toNat)

/-- The first of the two slots whose image passes. -/
def bootSlot (v : Svc) : Option (Nat × List Byte) :=
  if imageOk v.fw0 then some (0, v.fw0) else if imageOk v.fw1 then some (1, v.fw1) else none

/-- What package flash holds of lasting faults comes into force again (R392, R393). -/
def loadFlash (s : State) : State :=
  let ls := (s.svc.flash.filter fun r => r.lasting).map fun r => r.loc
  refence (s.modSvc fun v => { v with
    locs := v.flash, tempHist := v.flashTemp, powerHist := v.flashPower
    retired := (ls.filter fun l => l.kind = 0).map fun l => l.index
    fencedLocs := ls.filter fun l => l.kind = 1 || decide (3 ≤ l.kind) })

/-- The banks of the power-on configuration: bank 0 of slice 64d of each die serves (05 R104). -/
def serviceEntry : BankEntry := 0xA0000000
def powerOnBanks : SMap BankEntry := (List.range 4).map fun d => (512 * d, serviceEntry)

/-- Boot with an image: the claim window of 2 s opens. -/
def bootWith (slot : Nat) (img : List Byte) (s : State) : State :=
  let s := s.modSvc fun v => { v with
    booted := true, dead := false, bootAt := s.now, slot := slot, measure := shake256 img 64
    secVer := (Config.fwVersions img).1, tver := (Config.fwVersions img).2, idKey := true
    owner := none, claims := [], window := some (s.now + usec 2000000) }
  let s := drawKey 0 (drawKey 0x3FF (loadFlash (s.modPkg fun p => { p with banks := powerOnBanks })))
  (s.post (s.now + usec 2000000) .claimWindowClose).post (s.now + usec 3600000000) .flashCounterWrite

/-- POWER_ON_BOOT. -/
def execPowerOnBoot (s : State) : Host.Outcome State Fault Refusal :=
  .next (if s.svc.booted then s
    else match bootSlot s.svc with
      | some (slot, img) => bootWith slot img s
      | none => s.modSvc fun v => { v with dead := true })

/-- What an unpowered package keeps: its flash, and memory that is not its own. The count of open values, and that of keys drawn, go
on. -/
def powerOff (s : State) : State :=
  { State.reset with
    now := s.now, free := s.free
    mem := s.mem.filter fun c => decide (2 ^ 50 ≤ c.1)
    svc := { ({} : Svc) with
      fw0 := s.svc.fw0, fw1 := s.svc.fw1, flashParts := s.svc.flashParts, flashFns := s.svc.flashFns, idKey := s.svc.idKey, draws := s.svc.draws
      flash := s.svc.flash, flashAt := s.svc.flashAt, flashTemp := s.svc.flashTemp, flashPower := s.svc.flashPower } }

/-- POWER_LOSS (R18, R393): nothing on the dies and nothing in HBM4 is retained; counts since the last flash write are lost. -/
def execPowerLoss (s : State) : Host.Outcome State Fault Refusal := .next (powerOff s)

/-- Writes counters and histograms to package flash. -/
def writeFlash (s : State) : State :=
  s.modSvc fun v => { v with flash := v.locs, flashTemp := v.tempHist, flashPower := v.powerHist, flashAt := s.now }

/-- FLASH_COUNTER_WRITE (R393), and again within the hour. -/
def execFlashCounterWrite (s : State) : Host.Outcome State Fault Refusal :=
  .next ((writeFlash s).post (s.now + usec 3600000000) .flashCounterWrite)

/-- ORDERLY_SHUTDOWN (R393): as a loss of power, after the counters are written. -/
def execOrderlyShutdown (s : State) : Host.Outcome State Fault Refusal := .next (powerOff (writeFlash s))

/-- FWUPDATE: an image is verified before it is written, and runs from the next boot. -/
def execFwupdate (h : CmdHdr) (w : List W64) (s : State) : Host.Outcome State Fault Refusal :=
  .next (ownerCmd h 0x51 (fun s =>
    let slot := opw w 0
    if w.length ≠ 3 || 1 < slot || !hostBufOk w 1 then badOperand h 0x51 s
    else if s.svc.booted && slot = s.svc.slot then refused h 0x51 "SLOT_BUSY" s
    else
      let img := hostBytes s w 1
      if !imageOk img then refused h 0x51 "BAD_IMAGE" s
      else accepted h 0x51 [] (s.modSvc fun v => if slot = 0 then { v with fw0 := img } else { v with fw1 := img })) s)

/-! ## Identity -/

/-- IDENTIFY: a command of the owner's like others (19 R379), and answered over MCTP by a package that could not boot. -/
def execIdentify (h : CmdHdr) (w : List W64) (s : State) : Host.Outcome State Fault Refusal :=
  .next (ownerCmd h 0x50 (fun s =>
    if w ≠ [] then badOperand h 0x50 s
    else
      let v := s.svc
      accepted h 0x50 ([v.pkgId.setWidth 64, BitVec.ofNat 64 (v.tver.toNat + v.secVer.toNat * 2 ^ 16 + v.slot * 2 ^ 32 + 4 * 2 ^ 40)] ++
        numWords 8 (leNat v.measure)) s) s)

/-- The bytes of every partition and function record. -/
def recordBytes (s : State) : List Byte :=
  (List.range 64).flatMap (fun p => leBytes 32 (s.part p).record.toNat) ++ (List.range 512).flatMap fun f => leBytes 16 (s.fn f).record.toNat

/-- ATTEST (R395). -/
def execAttest (h : CmdHdr) (w : List W64) (s : State) : Host.Outcome State Fault Refusal :=
  .next (ownerCmd h 0x52 (fun s =>
    if w.length ≠ 4 then badOperand h 0x52 s
    else
      let v := s.svc
      let ws := numWords 8 (leNat v.measure) ++
        [BitVec.ofNat 64 (v.secVer.toNat + v.tver.toNat * 2 ^ 16 + v.pkgId.toNat * 2 ^ 32)] ++ wordsOf (shake256 (recordBytes s) 32) ++ w ++
        [(1280 : W64)]
      let sig := (Config.sign (bytesOf ws) ++ List.replicate 1280 0).take 1280
      accepted h 0x52 (ws ++ wordsOf sig) s) s)

/-- ASSIGNID. -/
def execAssignid (h : CmdHdr) (w : List W64) (s : State) : Host.Outcome State Fault Refusal :=
  .next (ownerCmd h 0x54 (fun s =>
    if w.length ≠ 1 || 2 ^ 20 ≤ opw w 0 then badOperand h 0x54 s
    else accepted h 0x54 [] (s.modSvc fun v => { v with pkgId := BitVec.ofNat 20 (opw w 0) })) s)

/-- APCONFIG (R400). -/
def execApconfig (h : CmdHdr) (w : List W64) (s : State) : Host.Outcome State Fault Refusal :=
  .next (ownerCmd h 0x53 (fun s =>
    let x := opw w 0
    if w.length ≠ 11 || fld 62 12 x ≠ 0 || 2 ^ 20 ≤ opw w 1 || 2 ^ 14 ≤ opw w 2 then badOperand h 0x53 s
    else
      let a : Aperture := {
        v := bitOf 63 x, pkg := BitVec.ofNat 20 (opw w 1), frame := BitVec.ofNat 14 (opw w 2)
        fns := BitVec.ofNat 512 (leNat (bytesOf (w.drop 3))) }
      accepted h 0x53 [] (s.modPkg fun p => { p with aps := if bitOf 63 x then p.aps.put (fld 11 0 x) a else p.aps.del (fld 11 0 x) })) s)

/-! ## Telemetry (Table 20.5) -/

/-- Sums over a list. -/
def sumBy {α : Type} (l : List α) (f : α → Nat) : Nat := l.foldl (fun n a => n + f a) 0

/-- Histogram bins that have counts. -/
def histPairs (base : Nat) (h : SMap Nat) : List (Nat × Nat) := (h.filter fun e => e.2 ≠ 0).map fun e => (base + e.1, e.2)

/-- The counters of a scope. -/
def telemetry (s : State) (scope n : Nat) (l : Loc) (k : Option Key) : List (Nat × Nat) :=
  match scope with
  | 0 =>
    let ls := s.svc.locs
    [(1, sumBy ls LocRec.corrected), (2, sumBy ls LocRec.uncorrected), (3, sumBy ls LocRec.phases), (4, sumBy ls LocRec.sigs)] ++
    histPairs 0x1000 s.svc.tempHist ++ histPairs 0x2000 s.svc.powerHist
  | 1 =>
    let p := s.part n
    let fs := (s.pkg.fns.filter fun f => f.2.part = n).map Prod.snd
    let slice := match p.slice with | some f => sliceOf s n f * 5 / 8 | none => 0
    [(1, sumBy fs Fn.errc), (2, sumBy fs Fn.erru), (3, sumBy fs Fn.errp), (0x10, switchCost p * 5 / 16), (0x11, slice), (0x12, p.raised.toNat),
     (0x13, p.vanished), (0x14, p.brks), (0x15, p.stsLost), (0x16, p.lapses)]
  | 2 =>
    let f := s.fn n
    [(1, f.errc), (2, f.erru), (3, f.errp), (0x14, f.brks), (0x15, f.stsLost)]
  | 3 =>
    let r := locRec s l
    [(1, r.corrected), (2, r.uncorrected), (3, r.phases), (4, r.sigs)]
  | _ =>
    match k.bind (transAt s) with
    | some (_, t) => (t.prof.map fun e => (e.1, e.2.toNat)) ++ t.conf.map fun e => (2 ^ 63 + e.1, e.2)
    | none => []

/-- TELEMETRY: read by any master. -/
def execTelemetry (h : CmdHdr) (w : List W64) (s : State) : Host.Outcome State Fault Refusal :=
  .next (anyCmd h 0x57 (fun s =>
    let x := opw w 0
    let scope := fld 3 0 x
    let n := fld 63 32 x
    let y := opw w 1
    let len := match scope with | 3 => 2 | 4 => 4 | _ => 1
    if w.length ≠ len || fld 31 4 x ≠ 0 || 4 < scope || (scope = 1 && 64 ≤ n) || (scope = 2 && 512 ≤ n) ||
       ((scope = 0 || 3 ≤ scope) && n ≠ 0) || (scope = 3 && (fld 31 4 y ≠ 0 || 6 < fld 3 0 y)) || (scope = 4 && (keyBlock w 1).isNone) then
      badOperand h 0x57 s
    else
      let ps := (telemetry s scope n ⟨fld 3 0 y, fld 63 32 y⟩ (keyBlock w 1)).take 2046
      accepted h 0x57 (BitVec.ofNat 64 ps.length :: ps.flatMap fun e => [BitVec.ofNat 64 e.1, BitVec.ofNat 64 e.2]) s) s)

/-! ## Power, clocks and cooling (R401, R402) -/

/-- POWERCAP. -/
def execPowercap (h : CmdHdr) (w : List W64) (s : State) : Host.Outcome State Fault Refusal :=
  .next (ownerCmd h 0x56 (fun s =>
    if w.length ≠ 1 || opw w 0 < 1500 || 4500 < opw w 0 then badOperand h 0x56 s
    else accepted h 0x56 [] ((s.modSvc fun v => { v with cap := opw w 0 }).post s.now .islandPowerStep)) s)

/-- ISLAND_POWER_STEP: core islands of partitions that are not locked are lowered by 50 MHz, down to 400, while the power is above the
cap, and raised again, up to the nominal 800, while it is not. -/
def execIslandPowerStep (s : State) : Host.Outcome State Fault Refusal :=
  .next (s.modSvc fun v => { v with mhz := if v.cap < v.watts then max 400 (v.mhz - 50) else min 800 (v.mhz + 50) })

/-- The clock in MHz of each of the 1,024 islands (01 R10, 20 R401): 512 cores, 256 L2 slices, 256 lift-ring segments. The islands of cores
in a locked partition, and those of the L2 and the ring, stay at their nominal clocks. -/
def islandMhz (s : State) (i : Nat) : Option Nat :=
  if i < 512 then
    match s.partOfCore i with
    | some p => some (if (s.part p).locked then 800 else s.svc.mhz)
    | none => some s.svc.mhz
  else if i < 1024 then some 1600
  else none

/-- COOLING_TELEMETRY: one second's coolant inlet in °C, flow in L/min, and power in W at the cold plate. -/
def execCoolingTelemetry (inlet flow watts : Nat) (s : State) : Host.Outcome State Fault Refusal :=
  .next (if !s.svc.booted then s
    else
      let ok := decide (inlet ≤ 40) && decide (6 ≤ flow) && decide (watts ≤ 4500)
      let was := s.svc.certified
      let s := s.modSvc fun v => { v with
        certified := ok, watts := watts
        tempHist := v.tempHist.set 0 (inlet / 5) (v.tempHist.get 0 (inlet / 5) + 1)
        powerHist := v.powerHist.set 0 (watts / 50) (v.powerHist.get 0 (watts / 50) + 1)
        lapsedAt := if ok then none else if was then some s.now else v.lapsedAt }
      if ok || !was then s
      else
        let s := foldS (s.pkg.parts.filter fun p => p.2.locked) (fun p s => s.modPart p.1 fun x => { x with
          lapses := x.lapses + (s.pkg.launches.filter fun l => l.2.started && liveLaunch l.2 && s.partOfLaunch l.1 = p.1).length }) s
        s.post (s.now + usec 10000000) .certificationLapse)

/-- CERTIFICATION_LAPSE: 10 s after certification lapsed, each locked partition is to leave locked mode at its next operator
boundary. -/
def execCertificationLapse (s : State) : Host.Outcome State Fault Refusal :=
  .next (match s.svc.lapsedAt with
    | none => s
    | some t =>
      if s.now < t + usec 10000000 then s.post (t + usec 10000000) .certificationLapse
      else foldS (s.pkg.parts.filter fun p => p.2.locked) (fun p s =>
        (s.modPart p.1 fun x => { x with unlock := true }).post s.now (.placementEvaluation p.1)) s)

/-! ## Frames and links (05 R112, R113; 20 R400) -/

/-- FRAME_ORIGIN: chair entries written for a die take effect at its next frame origin. -/
def execFrameOrigin (die : Nat) (s : State) : Host.Outcome State Fault Refusal :=
  .next (if 4 ≤ die then s
    else if nextOrigin s die ≠ s.now then s.post (nextOrigin s die) (.frameOrigin die)
    else
      let new := s.pkg.chairsNext.filter fun e => e.1 / 20480 = die
      let s := if s.pkg.chairDiesNext.contains die then evaluateAll s else s
      s.modPkg fun p => { p with
        chairs := new.foldl (fun m e => m.set 0 e.1 e.2) p.chairs
        chairsNext := p.chairsNext.filter fun e => e.1 / 20480 ≠ die
        chairDies := if p.chairDiesNext.contains die then (p.chairDies ++ [die]).eraseDups else p.chairDies
        chairDiesNext := p.chairDiesNext.filter (· ≠ die) })

/-- The fabric port that a context's peer accesses take: the lowest one allotted to its partition that is up. -/
def portOf (s : State) (asid : Nat) : Option Nat :=
  (List.range 16).find? fun p => bitOf p (s.part (s.fn (s.fnOf asid)).part).fpm && !s.svc.down.contains p

/-- The loads of a crew over a link that has failed land zero and latch LINK_FAIL. -/
def failLoads (now : Nat) (c : Crew) : Crew :=
  let peer := fun (m : MemReq) => m.lanes.filter fun l => isPeer l.pa
  let bad := c.mem.flatMap peer
  if bad.isEmpty then c
  else
    { c with
      mem := c.mem.map fun m => { m with lanes := m.lanes.filter fun l => !isPeer l.pa }
      inflight := c.inflight ++ c.mem.flatMap fun m => (peer m).map fun l =>
        { at_ := now + 1, deadline := max (now + 1) m.deadline, cls := m.cls, reg := m.reg, slot := l.slot, lane := l.lane, val := 0 }
      region := { c.region with latched := match c.region.latched with
        | some f => some f
        | none => some { kind := .linkFail, lanes := bad.map fun l => (l.lane, l.va), bidx := c.pc, boff := c.pc, seg := c.seg } } }

/-- LINK_DOWN (R400): the port goes down, and every access in flight over it fails with LINK_FAIL. -/
def execLinkDown (port : Nat) (s : State) : Host.Outcome State Fault Refusal :=
  .next (if 16 ≤ port || s.svc.down.contains port then s
    else
      let hit := (s.cores.filter fun c => match c.2.group with | some g => portOf s (s.asidOf g) = some port | none => false).map Prod.fst
      let s := s.modSvc fun v => { v with down := v.down ++ [port] }
      foldS hit (fun k s =>
        let lost := (s.core k).link.filter fun q => isPeer q.pa
        let s := s.modCore k fun c => { c with link := c.link.filter fun q => !isPeer q.pa }
        let s := foldS lost (failLink k) s
        match s.group k with
        | some g => foldS g.crews (fun c s => s.modCtxCrew k c.ctx (failLoads s.cycle)) s
        | none => s) s)

end Sys2Proof.Machine
end

