-- ==== Sys2Proof/Machine/HostLink.lean ====
section
/-!
DEFINITION. The host link (spec/20_reliability_boot_host.md R396 to R399, R412, R415; spec/19_partitions_tenants.md R386): doorbells,
register windows and the host window.
-/
namespace Sys2Proof.Machine

/-- Takes a command to its meaning. A code that Table 20.2 does not assign is refused. -/
def cmdOutcome (i : Instr) (s : State) : Host.Outcome State Fault Refusal :=
  match i with
  | .claim h w => execClaim h w s | .keep h w => execKeep h w s | .handover h w => execHandover h w s | .accept h w => execAccept h w s
  | .pconfig h w => execPconfig h w s | .fconfig h w => execFconfig h w s | .winnew h w => execWinnew h w s
  | .winfree h w => execWinfree h w s | .dispatch h w => execDispatch h w s | .restoreGr h w => execRestoreGr h w s
  | .discardGr h w => execDiscardGr h w s | .grant h w => execGrant h w s | .revoke h w => execRevoke h w s
  | .logset h w => execLogset h w s | .reverse h w => execReverse h w s | .drain h w => execDrain h w s
  | .sealreq h w => execSealreq h w s | .recover h w => execRecover h w s | .relaybuild h w => execRelaybuild h w s
  | .relayrebuild h w => execRelayrebuild h w s | .exportTr h w => execExportTr h w s | .importTr h w => execImportTr h w s
  | .trustKey h w => execTrustKey h w s | .untrustKey h w => execUntrustKey h w s | .nativeInstall h w => execNativeInstall h w s
  | .tcevict h w => execTcevict h w s | .decline h w => execDecline h w s | .dstop h w => execDstop h w s
  | .dread h w => execDread h w s | .dwrite h w => execDwrite h w s | .dcont h w => execDcont h w s | .dattach h w => execDattach h w s
  | .ddetach h w => execDdetach h w s | .identify h w => execIdentify h w s | .fwupdate h w => execFwupdate h w s
  | .attest h w => execAttest h w s | .apconfig h w => execApconfig h w s | .assignid h w => execAssignid h w s
  | .unretire h w => execUnretire h w s | .powercap h w => execPowercap h w s | .telemetry h w => execTelemetry h w s
  | .ctxnew h w => execCtxnew h w s | .ctxfree h w => execCtxfree h w s | .mapMem h w => execMapMem h w s | .unmapMem h w => execUnmapMem h w s
  | _ => .next s

/-- Takes a message as a command (R398, R412). -/
def cmdStep (m : Master) (msg : List Byte) (s : State) : State :=
  match decodeMsg m msg with
  | none => s
  | some (c, h, w) =>
    if !answers h c s then s
    else match mkCmd c h (w.getD []) with
      | none => refused h c "BAD_COMMAND" s
      | some i => match w with
        | none => refused h c "BAD_OPERAND" s
        | some _ => nextOf (cmdOutcome i s) s

/-- The mailbox goes on to the oldest request of the owner once no earlier command is under way (19 R379). -/
def takeRequest (s : State) : State :=
  match s.svc.inbox with
  | [] => s
  | (m, msg) :: rest => if underWay s then s else cmdStep m msg (s.modSvc fun v => { v with inbox := rest })

/-- OWNER_DOORBELL (R396, R398): a master submits a request. The host's doorbell clears READY. The owner's requests are taken one at a time, in
order of arrival (19 R379); with no message the mailbox goes on to the next of them. -/
def execOwnerDoorbell (m : Master) (msg : List Byte) (s : State) : Host.Outcome State Fault Refusal :=
  .next (if m.cls < 1 || 3 < m.cls then s
    else if msg.isEmpty then takeRequest s
    else
      let s := if m.cls = 1 then s.modSvc fun v => { v with ready := false } else s
      if s.svc.owner = some m && (decodeMsg m msg).isSome then
        takeRequest (s.modSvc fun v => { v with heard := s.now, inbox := v.inbox ++ [(m, msg)] })
      else cmdStep m msg s)

/-- FUNCTION_DOORBELL (R396): at most 2,032 operand bytes. -/
def execFunctionDoorbell (fn : Nat) (msg : List Byte) (s : State) : Host.Outcome State Fault Refusal :=
  .next (if 512 ≤ fn then s else cmdStep { cls := 0, ep := fn } (msg.take 2048) (s.modFn fn fun f => { f with ready := false }))

/-- A function's context slots. -/
def slotCtx (s : State) (fn j : Nat) : Option Nat := (List.find? (fun (c : Nat × Ctx) => c.2.live && c.2.fnum = fn && c.2.slot = j) s.pkg.ctxs).map Prod.fst

/-- REGISTER_WRITE (R415; 19 Table 19.5): an 8-byte write to a function's register window. What is read-only or unassigned discards
it. -/
def execRegisterWrite (fn off : Nat) (value : BitVec 64) (s : State) : Host.Outcome State Fault Refusal :=
  .next (let v := value.toNat
    if 512 ≤ fn || off % 8 ≠ 0 || 2 ^ 22 ≤ off then s
    else if off < 0x800 then s.modFn fn fun f => { f with req := SMap.setList 0 f.req off (leBytes 8 v) }
    else if off = 0xFF8 then s.post s.now (.functionDoorbell fn (SMap.getList 0 (s.fn fn).req 0 2048))
    else if off = 0x2000 then s.modFn fn fun f => { f with hw0 := BitVec.ofNat 64 (fld 63 63 v * 2 ^ 63 + fld 11 0 v) }
    else if off = 0x2008 then s.modFn fn fun f => { f with hw1 := BitVec.ofNat 64 (fld 55 16 v * 2 ^ 16) }
    else if off < 0x10000 then s
    else
      let o := off % 512
      match slotCtx s fn ((off - 0x10000) / 512) with
      | none => s
      | some a =>
        if 288 ≤ o then s
        else if 256 ≤ o then s.post s.now (.eventRingControlWrite a ((o - 256) / 8) value)
        else if o % 32 = 0 then s.post s.now (.queueControlWrite a (o / 32) value)
        else if o % 32 = 16 then s.post s.now (.widxWrite a (o / 32) (value.setWidth 32))
        else s)

/-- A failed access through the host window is counted and reported with its address and cause. -/
def hostWindowFail (fn va : Nat) (t : Trap) (s : State) : State :=
  report (match t with | .addrUnmapped => "HOST_WINDOW_UNMAPPED" | .addrProt => "HOST_WINDOW_PROT" | _ => "HOST_WINDOW_INTEG") (some fn) va
    (s.modFn fn fun f => { f with hwErr := f.hwErr + 1 })

/-- Reads through the host window, line by line. -/
def hostRead (fn a : Nat) (ps : List (Nat × Nat × Nat)) (s : State) : State × Option (List Byte) :=
  ps.foldl (fun (x : State × Option (List Byte)) p =>
    match x.2 with
    | none => x
    | some bs =>
      match svcTranslate a p.1 .read x.1 with
      | (s, .error t) => (hostWindowFail fn p.1 t s, none)
      | (s, .ok q) =>
        match physRead q.pa p.2.2 s with
        | (s, some b) => (s, some (bs ++ b))
        | (s, none) => (hostWindowFail fn p.1 .integFail s, none)) (s, some [])

/-- Writes through the host window, line by line, at the home banks and not logged. -/
def hostWrite (fn a : Nat) (bs : List Byte) (ps : List (Nat × Nat × Nat)) (s : State) : State :=
  foldS ps (fun p s =>
    match svcTranslate a p.1 .write s with
    | (s, .error t) => hostWindowFail fn p.1 t s
    | (s, .ok q) =>
      match physWrite {} q.pa ((bs.drop p.2.1).take p.2.2) s with
      | (s, true) => s
      | (s, false) => hostWindowFail fn p.1 .integFail s) s

/-- HOST_WINDOW_ACCESS (R397, R415): a read, or a write of data, at an offset in BAR4. -/
def execHostWindowAccess (fn off len : Nat) (data : Option (List Byte)) (s : State) : Host.Outcome State Fault Refusal :=
  .next (if 512 ≤ fn then s
    else
      let f := s.fn fn
      let va := fld 55 16 f.hw1.toNat * 65536 + off
      let n := match data with | some bs => bs.length | none => len
      let ps := linePieces (n / 128 + 2) (va % 2 ^ 56) 0 n
      match if bitOf 63 f.hw0.toNat then slotCtx s fn (fld 11 0 f.hw0.toNat) else none, data with
      | none, none => s.modFn fn fun f => { f with hwRead := some (List.replicate n 0xFF) }
      | none, some _ => s
      | some a, none => let (s, r) := hostRead fn a ps s; s.modFn fn fun f => { f with hwRead := r }
      | some a, some bs => hostWrite fn a bs ps s)

end Sys2Proof.Machine
end

