-- ==== Sys2Proof/Machine/Dispatch.lean ====
section
/-!
DEFINITION. One arm per instruction, each one direct call of its meaning.
-/
namespace Sys2Proof.Machine
open Sys2Proof

def exec (i : Instr) (s : State) : Host.Outcome State Fault Refusal :=
  match i with
  | .iadd f => Sys2Proof.Machine.execIadd f s
  | .isub f => Sys2Proof.Machine.execIsub f s
  | .imul f => Sys2Proof.Machine.execImul f s
  | .imulh f => Sys2Proof.Machine.execImulh f s
  | .imad f => Sys2Proof.Machine.execImad f s
  | .imin f => Sys2Proof.Machine.execImin f s
  | .imax f => Sys2Proof.Machine.execImax f s
  | .iabs f => Sys2Proof.Machine.execIabs f s
  | .ineg f => Sys2Proof.Machine.execIneg f s
  | .and_ f => Sys2Proof.Machine.execAnd f s
  | .or_ f => Sys2Proof.Machine.execOr f s
  | .xor_ f => Sys2Proof.Machine.execXor f s
  | .not_ f => Sys2Proof.Machine.execNot f s
  | .andn f => Sys2Proof.Machine.execAndn f s
  | .shl f => Sys2Proof.Machine.execShl f s
  | .shr f => Sys2Proof.Machine.execShr f s
  | .sar f => Sys2Proof.Machine.execSar f s
  | .rot f => Sys2Proof.Machine.execRot f s
  | .popc f => Sys2Proof.Machine.execPopc f s
  | .clz f => Sys2Proof.Machine.execClz f s
  | .brev f => Sys2Proof.Machine.execBrev f s
  | .bfx f => Sys2Proof.Machine.execBfx f s
  | .bfi f => Sys2Proof.Machine.execBfi f s
  | .sel f => Sys2Proof.Machine.execSel f s
  | .icmp f => Sys2Proof.Machine.execIcmp f s
  | .mov f => Sys2Proof.Machine.execMov f s
  | .movi f => Sys2Proof.Machine.execMovi f s
  | .lea f => Sys2Proof.Machine.execLea f s
  | .idiv f => Sys2Proof.Machine.execIdiv f s
  | .irem f => Sys2Proof.Machine.execIrem f s
  | .fadd f => Sys2Proof.Machine.execFadd f s
  | .fsub f => Sys2Proof.Machine.execFsub f s
  | .fmul f => Sys2Proof.Machine.execFmul f s
  | .ffma f => Sys2Proof.Machine.execFfma f s
  | .scale f => Sys2Proof.Machine.execScale f s
  | .fmin f => Sys2Proof.Machine.execFmin f s
  | .fmax f => Sys2Proof.Machine.execFmax f s
  | .fcmp f => Sys2Proof.Machine.execFcmp f s
  | .frcp f => Sys2Proof.Machine.execFrcp f s
  | .frsq f => Sys2Proof.Machine.execFrsq f s
  | .fexp2 f => Sys2Proof.Machine.execFexp2 f s
  | .flog2 f => Sys2Proof.Machine.execFlog2 f s
  | .ftanh f => Sys2Proof.Machine.execFtanh f s
  | .fdot4 f => Sys2Proof.Machine.execFdot4 f s
  | .hadd2 f => Sys2Proof.Machine.execHadd2 f s
  | .hmul2 f => Sys2Proof.Machine.execHmul2 f s
  | .hfma2 f => Sys2Proof.Machine.execHfma2 f s
  | .hdot2 f => Sys2Proof.Machine.execHdot2 f s
  | .cvt f => Sys2Proof.Machine.execCvt f s
  | .pack f => Sys2Proof.Machine.execPack f s
  | .unpack f => Sys2Proof.Machine.execUnpack f s
  | .voteAny f => Sys2Proof.Machine.execVoteAny f s
  | .voteAll f => Sys2Proof.Machine.execVoteAll f s
  | .voteBallot f => Sys2Proof.Machine.execVoteBallot f s
  | .voteEq f => Sys2Proof.Machine.execVoteEq f s
  | .shfl f => Sys2Proof.Machine.execShfl f s
  | .cred f => Sys2Proof.Machine.execCred f s
  | .ld f => Sys2Proof.Machine.execLd f s
  | .st f => Sys2Proof.Machine.execSt f s
  | .lds f => Sys2Proof.Machine.execLds f s
  | .sts f => Sys2Proof.Machine.execSts f s
  | .ldl f => Sys2Proof.Machine.execLdl f s
  | .stl f => Sys2Proof.Machine.execStl f s
  | .ldc f => Sys2Proof.Machine.execLdc f s
  | .push f => Sys2Proof.Machine.execPush f s
  | .pop f => Sys2Proof.Machine.execPop f s
  | .atom f => Sys2Proof.Machine.execAtom f s
  | .cas f => Sys2Proof.Machine.execCas f s
  | .pref f => Sys2Proof.Machine.execPref f s
  | .acq f => Sys2Proof.Machine.execAcq f s
  | .rel f => Sys2Proof.Machine.execRel f s
  | .fence f => Sys2Proof.Machine.execFence f s
  | .bind f => Sys2Proof.Machine.execBind f s
  | .unbind f => Sys2Proof.Machine.execUnbind f s
  | .seal f => Sys2Proof.Machine.execSeal f s
  | .gate f => Sys2Proof.Machine.execGate f s
  | .cpy f => Sys2Proof.Machine.execCpy f s
  | .cpy2 f => Sys2Proof.Machine.execCpy2 f s
  | .gath f => Sys2Proof.Machine.execGath f s
  | .coll f => Sys2Proof.Machine.execColl f s
  | .tlw f => Sys2Proof.Machine.execTlw f s
  | .tlr f => Sys2Proof.Machine.execTlr f s
  | .mmaT f => Sys2Proof.Machine.execMmaT f s
  | .mretT f => Sys2Proof.Machine.execMretT f s
  | .mzeroT f => Sys2Proof.Machine.execMzeroT f s
  | .next f => Sys2Proof.Machine.execNext f s
  | .nextC f => Sys2Proof.Machine.execNextC f s
  | .nextIx f => Sys2Proof.Machine.execNextIx f s
  | .exit f => Sys2Proof.Machine.execExit f s
  | .rft f => Sys2Proof.Machine.execRft f s
  | .barG f => Sys2Proof.Machine.execBarG f s
  | .barK f => Sys2Proof.Machine.execBarK f s
  | .yield_ f => Sys2Proof.Machine.execYield f s
  | .trap f => Sys2Proof.Machine.execTrap f s
  | .brk f => Sys2Proof.Machine.execBrk f s
  | .csrr f => Sys2Proof.Machine.execCsrr f s
  | .csrwBkm f => Sys2Proof.Machine.execCsrwBkm f s
  | .csrwFcb f => Sys2Proof.Machine.execCsrwFcb f s
  | .csrwFpf f => Sys2Proof.Machine.execCsrwFpf f s
  | .csrwAdr f => Sys2Proof.Machine.execCsrwAdr f s
  | .spl f => Sys2Proof.Machine.execSpl f s
  | .fil f => Sys2Proof.Machine.execFil f s
  | .mx f => Sys2Proof.Machine.execMx f s
  | .mxs f => Sys2Proof.Machine.execMxs f s
  | .mxr f => Sys2Proof.Machine.execMxr f s
  | .mxz f => Sys2Proof.Machine.execMxz f s
  | .xv vd ss => Sys2Proof.Machine.execXv vd ss s
  | .xs sx sd vs lane => Sys2Proof.Machine.execXs sx sd vs lane s
  | .xsP sd pk => Sys2Proof.Machine.execXsP sd pk s
  | .bc ss => Sys2Proof.Machine.execBc ss s
  | .pbr f => Sys2Proof.Machine.execPbr f s
  | .brt f => Sys2Proof.Machine.execBrt f s
  | .send f => Sys2Proof.Machine.execSend f s
  | .halt f => Sys2Proof.Machine.execHalt f s
  | .lpset f => Sys2Proof.Machine.execLpset f s
  | .lpclr f => Sys2Proof.Machine.execLpclr f s
  | .rpt f => Sys2Proof.Machine.execRpt f s
  | .cmt f => Sys2Proof.Machine.execCmt f s
  | .cmtSwap f => Sys2Proof.Machine.execCmtSwap f s
  | .barGNative f => Sys2Proof.Machine.execBarGNative f s
  | .barKNative f => Sys2Proof.Machine.execBarKNative f s
  | .yieldNative f => Sys2Proof.Machine.execYieldNative f s
  | .rftNative f => Sys2Proof.Machine.execRftNative f s
  | .wait flag k => Sys2Proof.Machine.execWait flag k s
  | .postSelf flag k => Sys2Proof.Machine.execPostSelf flag k s
  | .postCore flag core k => Sys2Proof.Machine.execPostCore flag core k s
  | .bundleIssue core => Sys2Proof.Machine.execBundleIssue core s
  | .lateResultStall core => Sys2Proof.Machine.execLateResultStall core s
  | .memoryResultArrival core => Sys2Proof.Machine.execMemoryResultArrival core s
  | .commitPoint core => Sys2Proof.Machine.execCommitPoint core s
  | .pageFaultReply asid va mapped => Sys2Proof.Machine.execPageFaultReply asid va mapped s
  | .crewSelect core => Sys2Proof.Machine.execCrewSelect core s
  | .forcedSwitchOut core => Sys2Proof.Machine.execForcedSwitchOut core s
  | .barrierRelease core cluster => Sys2Proof.Machine.execBarrierRelease core cluster s
  | .flagDelivery core flag k launch remote => Sys2Proof.Machine.execFlagDelivery core flag k launch remote s
  | .fifoPublication core bank => Sys2Proof.Machine.execFifoPublication core bank s
  | .waitSatisfied core => Sys2Proof.Machine.execWaitSatisfied core s
  | .bankModeChangeDone core => Sys2Proof.Machine.execBankModeChangeDone core s
  | .dirtyLineDrain core => Sys2Proof.Machine.execDirtyLineDrain core s
  | .homeBankMerge bank => Sys2Proof.Machine.execHomeBankMerge bank s
  | .l2Fill line macOk rereadOk => Sys2Proof.Machine.execL2Fill line macOk rereadOk s
  | .writeBack line => Sys2Proof.Machine.execWriteBack line s
  | .rekey owner => Sys2Proof.Machine.execRekey owner s
  | .metadataEviction chunk => Sys2Proof.Machine.execMetadataEviction chunk s
  | .metadataGroupCommit chunk => Sys2Proof.Machine.execMetadataGroupCommit chunk s
  | .logLineAck asid => Sys2Proof.Machine.execLogLineAck asid s
  | .recoveryReserveSeal asid => Sys2Proof.Machine.execRecoveryReserveSeal asid s
  | .bitmapClearDone asid => Sys2Proof.Machine.execBitmapClearDone asid s
  | .pageWalk core asid va acc => Sys2Proof.Machine.execPageWalk core asid va acc s
  | .invalidationRequest req => Sys2Proof.Machine.execInvalidationRequest req s
  | .engineAccept core => Sys2Proof.Machine.execEngineAccept core s
  | .engineStart die cls => Sys2Proof.Machine.execEngineStart die cls s
  | .engineComplete die cls eng => Sys2Proof.Machine.execEngineComplete die cls eng s
  | .enginePageFault die cls eng => Sys2Proof.Machine.execEnginePageFault die cls eng s
  | .engineFault die cls eng cause => Sys2Proof.Machine.execEngineFault die cls eng cause s
  | .collMeet domain collid same vectors => Sys2Proof.Machine.execCollMeet domain collid same vectors s
  | .collAbort domain collid => Sys2Proof.Machine.execCollAbort domain collid s
  | .macroOperationStart core retire => Sys2Proof.Machine.execMacroOperationStart core retire s
  | .matrixStep core retire => Sys2Proof.Machine.execMatrixStep core retire s
  | .rptRepeat core => Sys2Proof.Machine.execRptRepeat core s
  | .replay core => Sys2Proof.Machine.execReplay core s
  | .splitRun core => Sys2Proof.Machine.execSplitRun core s
  | .uncorrData core place => Sys2Proof.Machine.execUncorrData core place s
  | .correctedError loc fn => Sys2Proof.Machine.execCorrectedError loc fn s
  | .urgentPreemption launch => Sys2Proof.Machine.execUrgentPreemption launch s
  | .preemptionTimeout core => Sys2Proof.Machine.execPreemptionTimeout core s
  | .contextSave launch cluster => Sys2Proof.Machine.execContextSave launch cluster s
  | .contextRestore launch cluster => Sys2Proof.Machine.execContextRestore launch cluster s
  | .tenantSliceEnd part => Sys2Proof.Machine.execTenantSliceEnd part s
  | .operatorBoundExpiry part => Sys2Proof.Machine.execOperatorBoundExpiry part s
  | .containment kind => Sys2Proof.Machine.execContainment kind s
  | .computeDieReset die => Sys2Proof.Machine.execComputeDieReset die s
  | .queueTake asid q => Sys2Proof.Machine.execQueueTake asid q s
  | .admission asid kobj kidx => Sys2Proof.Machine.execAdmission asid kobj kidx s
  | .launchStart asid q => Sys2Proof.Machine.execLaunchStart asid q s
  | .transreqTimeout launch => Sys2Proof.Machine.execTransreqTimeout launch s
  | .quickTranslationDone launch => Sys2Proof.Machine.execQuickTranslationDone launch s
  | .groomStart tr => Sys2Proof.Machine.execGroomStart tr s
  | .groomedInstall tr pkg => Sys2Proof.Machine.execGroomedInstall tr pkg s
  | .placementEvaluation part => Sys2Proof.Machine.execPlacementEvaluation part s
  | .timeBound launch => Sys2Proof.Machine.execTimeBound launch s
  | .launchCompletion launch => Sys2Proof.Machine.execLaunchCompletion launch s
  | .eventRingTimer asid => Sys2Proof.Machine.execEventRingTimer asid s
  | .queueControlWrite asid q value => Sys2Proof.Machine.execQueueControlWrite asid q value s
  | .widxWrite asid q value => Sys2Proof.Machine.execWidxWrite asid q value s
  | .eventRingControlWrite asid word value => Sys2Proof.Machine.execEventRingControlWrite asid word value s
  | .registerWrite fn off value => Sys2Proof.Machine.execRegisterWrite fn off value s
  | .hostWindowAccess fn off len data => Sys2Proof.Machine.execHostWindowAccess fn off len data s
  | .ownerDoorbell m msg => Sys2Proof.Machine.execOwnerDoorbell m msg s
  | .functionDoorbell fn msg => Sys2Proof.Machine.execFunctionDoorbell fn msg s
  | .frameOrigin die => Sys2Proof.Machine.execFrameOrigin die s
  | .linkDown port => Sys2Proof.Machine.execLinkDown port s
  | .relayDecision relay deltas => Sys2Proof.Machine.execRelayDecision relay deltas s
  | .claim h w => Sys2Proof.Machine.execClaim h w s
  | .keep h w => Sys2Proof.Machine.execKeep h w s
  | .handover h w => Sys2Proof.Machine.execHandover h w s
  | .accept h w => Sys2Proof.Machine.execAccept h w s
  | .pconfig h w => Sys2Proof.Machine.execPconfig h w s
  | .fconfig h w => Sys2Proof.Machine.execFconfig h w s
  | .winnew h w => Sys2Proof.Machine.execWinnew h w s
  | .winfree h w => Sys2Proof.Machine.execWinfree h w s
  | .dispatch h w => Sys2Proof.Machine.execDispatch h w s
  | .restoreGr h w => Sys2Proof.Machine.execRestoreGr h w s
  | .discardGr h w => Sys2Proof.Machine.execDiscardGr h w s
  | .grant h w => Sys2Proof.Machine.execGrant h w s
  | .revoke h w => Sys2Proof.Machine.execRevoke h w s
  | .logset h w => Sys2Proof.Machine.execLogset h w s
  | .reverse h w => Sys2Proof.Machine.execReverse h w s
  | .drain h w => Sys2Proof.Machine.execDrain h w s
  | .sealreq h w => Sys2Proof.Machine.execSealreq h w s
  | .recover h w => Sys2Proof.Machine.execRecover h w s
  | .relaybuild h w => Sys2Proof.Machine.execRelaybuild h w s
  | .relayrebuild h w => Sys2Proof.Machine.execRelayrebuild h w s
  | .exportTr h w => Sys2Proof.Machine.execExportTr h w s
  | .importTr h w => Sys2Proof.Machine.execImportTr h w s
  | .trustKey h w => Sys2Proof.Machine.execTrustKey h w s
  | .untrustKey h w => Sys2Proof.Machine.execUntrustKey h w s
  | .nativeInstall h w => Sys2Proof.Machine.execNativeInstall h w s
  | .tcevict h w => Sys2Proof.Machine.execTcevict h w s
  | .decline h w => Sys2Proof.Machine.execDecline h w s
  | .dstop h w => Sys2Proof.Machine.execDstop h w s
  | .dread h w => Sys2Proof.Machine.execDread h w s
  | .dwrite h w => Sys2Proof.Machine.execDwrite h w s
  | .dcont h w => Sys2Proof.Machine.execDcont h w s
  | .dattach h w => Sys2Proof.Machine.execDattach h w s
  | .ddetach h w => Sys2Proof.Machine.execDdetach h w s
  | .identify h w => Sys2Proof.Machine.execIdentify h w s
  | .fwupdate h w => Sys2Proof.Machine.execFwupdate h w s
  | .attest h w => Sys2Proof.Machine.execAttest h w s
  | .apconfig h w => Sys2Proof.Machine.execApconfig h w s
  | .assignid h w => Sys2Proof.Machine.execAssignid h w s
  | .unretire h w => Sys2Proof.Machine.execUnretire h w s
  | .powercap h w => Sys2Proof.Machine.execPowercap h w s
  | .telemetry h w => Sys2Proof.Machine.execTelemetry h w s
  | .ctxnew h w => Sys2Proof.Machine.execCtxnew h w s
  | .ctxfree h w => Sys2Proof.Machine.execCtxfree h w s
  | .mapMem h w => Sys2Proof.Machine.execMapMem h w s
  | .unmapMem h w => Sys2Proof.Machine.execUnmapMem h w s
  | .peerApertureAccess pa len data => Sys2Proof.Machine.execPeerApertureAccess pa len data s
  | .linkAcknowledgement core ok => Sys2Proof.Machine.execLinkAcknowledgement core ok s
  | .gondolaFill die line core => Sys2Proof.Machine.execGondolaFill die line core s
  | .sealRecordWritten asid => Sys2Proof.Machine.execSealRecordWritten asid s
  | .functionReset fn => Sys2Proof.Machine.execFunctionReset fn s
  | .coolingTelemetry inlet flow watts => Sys2Proof.Machine.execCoolingTelemetry inlet flow watts s
  | .scrub loc corrected => Sys2Proof.Machine.execScrub loc corrected s
  | .conflictLimit => Sys2Proof.Machine.execConflictLimit s
  | .powerOnBoot => Sys2Proof.Machine.execPowerOnBoot s
  | .claimWindowClose => Sys2Proof.Machine.execClaimWindowClose s
  | .ownershipLapse => Sys2Proof.Machine.execOwnershipLapse s
  | .handoverTimeout => Sys2Proof.Machine.execHandoverTimeout s
  | .reservationAgeing => Sys2Proof.Machine.execReservationAgeing s
  | .coopUnplaceable => Sys2Proof.Machine.execCoopUnplaceable s
  | .certificationLapse => Sys2Proof.Machine.execCertificationLapse s
  | .flashCounterWrite => Sys2Proof.Machine.execFlashCounterWrite s
  | .powerLoss => Sys2Proof.Machine.execPowerLoss s
  | .orderlyShutdown => Sys2Proof.Machine.execOrderlyShutdown s
  | .islandPowerStep => Sys2Proof.Machine.execIslandPowerStep s

end Sys2Proof.Machine
end

