-- ==== Sys2Proof/Machine/Agents.lean ====
section
/-!
DEFINITION. Which agent moves next (log 1). The agenda holds the events that are to come; where none is due, the agents of the package
are looked at in one order, and the first that has something to do at this lift cycle does it. Where none has, time passes.
-/
namespace Sys2Proof.Machine

/-- The arrays and queues of a core: steps of the array (10 R205), changes of bank modes, entries and results that arrive. -/
def coreArrivals (s : State) (k : Nat) (g : Group) : List Instr :=
  let lane := fun (r : Bool) => match g.lane r with
    | none => []
    | some m => if m.started then [.matrixStep k r] else [.macroOperationStart k r]
  let late := if (arriving s g).isSome then [.memoryResultArrival k] else []
  lane false ++ lane true ++ (if g.changing.isEmpty then [] else [.bankModeChangeDone k]) ++
  ((g.fifo.filter fun q => !q.2.inbound.isEmpty).map fun q => .fifoPublication k q.1) ++ late ++
  (if g.crews.any (fun c => !c.accepting.isEmpty) then [.engineAccept k] else [])

/-- The crews of a core: commit points, waits, deliveries (while no stop is under way, 18 R375), issue and selection. -/
def coreCrews (s : State) (k : Nat) (g : Group) : List Instr :=
  (if g.running.isSome then [.forcedSwitchOut k] else []) ++ [.commitPoint k] ++ (if g.blocked.isEmpty then [] else (.waitSatisfied k :: if g.stopReq then [] else [.replay k, .splitRun k])) ++
  (if 0 < g.atBarG then [.barrierRelease k false] else []) ++ (if 0 < g.atBarK then [.barrierRelease k true] else []) ++
  (match g.running with
    | none => [.crewSelect k]
    | some c => if c.hold.isSome || c.yielded then [.crewSelect k]
      else [.rptRepeat k] ++ if mayIssue s g c then [.bundleIssue k] else [])

/-- What a core sends outward by itself: host and peer stores, and the oldest dirty line. -/
def coreDrains (k : Nat) (c : Core) : List Instr :=
  (if c.link.isEmpty then [] else [.linkAcknowledgement k true]) ++ if c.dfifo.isEmpty then [] else [.dirtyLineDrain k]

/-- The recovery service and the launch queues of a context. -/
def ctxWork (a : Nat) (c : Ctx) : List Instr :=
  (if c.sealing.isSome then [.sealRecordWritten a] else []) ++ (if c.clearing then [.bitmapClearDone a] else []) ++
  (if c.recv then [.recoveryReserveSeal a] else []) ++ (if c.uld < c.rph then [.logLineAck a] else []) ++
  (c.queues.filter fun q => q.2.en && q.2.widx ≠ q.2.ridx).map fun q => .queueTake a q.1

/-- The owner mailbox. -/
def mailboxWork (s : State) : List Instr :=
  match s.svc.inbox with
  | [] => []
  | x :: _ => if underWay s then [] else [.ownerDoorbell x.1 []]

/-- The engines and the dispatcher. -/
def serviceWork (s : State) : List Instr :=
  ((List.range 8).filter fun i => !(readyEngs (i / 2) (i % 2) s).isEmpty).map
    (fun i => .engineStart (i / 2) (i % 2)) ++
  (s.pkg.launches.flatMap fun l => (l.2.preempt.map fun c => Instr.contextSave l.1 c) ++ if completable s l.1 then [.launchCompletion l.1] else []) ++
  (s.pkg.mergeQ.map fun q => .homeBankMerge q.1) ++ if s.pkg.trans.any (conflictDue s) then [.conflictLimit] else []

/-- What agents may have to do at this lift cycle, in the order in which they are looked at. -/
def candidates (s : State) : List Instr :=
  (s.cores.flatMap fun c => match c.2.group with | some g => coreArrivals s c.1 g | none => []) ++
  (s.cores.flatMap fun c => match c.2.group with | some g => coreCrews s c.1 g | none => []) ++
  serviceWork s ++ mailboxWork s ++ (s.pkg.ctxs.flatMap fun c => ctxWork c.1 c.2) ++ s.cores.flatMap fun c => coreDrains c.1 c.2

/-- The first candidate that changes the state. -/
def firstChange (s : State) : List Instr → Option Instr
  | [] => none
  | i :: r => if nextOf (exec i s) s = s then firstChange s r else some i

/-- A lift cycle passes: the rings move, the engines, and the tile fetch units ask for what they need; a full log
in mode TRAP has its effect, and so has a link that has failed. -/
def passTime (s : State) : State :=
  let s := serveLogTraps (serveLinkFails (moveEngines (rideStep { s with now := s.now + 1 })))
  foldS (s.cores.map Prod.fst) tileFetch s

/-- Events of the agenda that come last in their lift cycle: starts, after every other event of it, completions and takes among them (15 R316;
16 R329), and the ageing of a reservation (16 R333). -/
def lateRank : Instr → Nat
  | .launchStart _ _ => 1
  | .reservationAgeing => 2
  | _ => 0

/-- The first due event of a rank, and the agenda without it. -/
def takeDue (now rank : Nat) : List (Nat × Instr) → Option (Instr × List (Nat × Instr))
  | [] => none
  | (t, i) :: r =>
    if now < t then none
    else if lateRank i = rank then some (i, r)
    else (takeDue now rank r).map fun x => (x.1, (t, i) :: x.2)

/-- The event that is next: the first of the agenda that is due, else an agent's, else one that comes last in its lift cycle; without one,
time passes. The state with which it comes has the event taken from the agenda. -/
def nextEvent (s : State) : Option Instr × State :=
  match takeDue s.now 0 s.agenda with
  | some (i, r) => (some i, { s with agenda := r })
  | none =>
    match firstChange s (candidates s) with
    | some i => (some i, s)
    | none =>
      match (takeDue s.now 1 s.agenda).orElse fun _ => takeDue s.now 2 s.agenda with
      | some (i, r) => (some i, { s with agenda := r })
      | none => (none, s)

end Sys2Proof.Machine
end

