-- ==== Sys2Proof/Machine/Step.lean ====
section
/-!
DEFINITION. One step of the machine: the event that is next, or the passing of one lift cycle. And the placing of one instruction where
the next step fetches it (log 3).
-/
namespace Sys2Proof.Machine

/-- One step of the machine. -/
def step (s : State) : Host.Outcome State Fault Refusal :=
  match nextEvent s with
  | (some i, t) => exec i t
  | (none, t) => .next (passTime t)

/-- A Burhus kernel of one segment that holds some bytes, with zeros behind them up to the longest instruction. -/
def probeKernel (bs : List Byte) : Kernel :=
  { asid := 0, kobj := 0, kidx := 0, version := 30, code := bs ++ List.replicate (32 - bs.length) 0
    segs := [{ off := 0, len := 32, prio := 1, entry := true, loopH := false, trapH := false }] }

/-- A translation of one bundle. -/
def probeTrans (b : BitVec 512) : Trans := { key := { hash := 0, tver := 0, vbc := 0, fmask := 0, dom := 0 }, code := [b], entries := [(1, 0)] }

/-- A launch of one group of 64 strands on core 0, that runs a kernel or a native translation. -/
def probeLaunch (kn : Kernel) (fjoset : Bool) : Launch :=
  { asid := 0, q := 0, lidx := 0, kernel := some kn, fjoset := fjoset, tr := some 0, started := true, placed := [(0, [0])], nextCluster := 1
    runSince := some 0, spg := 64 }

/-- Its group: one crew of 64 strands at the start of the code, which is running. -/
def probeGroup (fjoset : Bool) : Group :=
  { launch := 0, cluster := 0, gnum := 0, live := List.range 64
    running := some { strands := (List.range 64).map fun i => (i, 0), prio := 1, fjoset := fjoset } }

/-- The state with a kernel or a translation running on core 0 in context 0, whose issue is the next event. -/
def State.probe (s : State) (kn : Kernel) (t : Trans) (fjoset : Bool) : State :=
  { s with
    agenda := [(s.now, .bundleIssue 0)]
    cores := s.cores.put 0 { group := some (probeGroup fjoset), l1 := [(0, 0, 0)] }
    pkg := { s.pkg with
      ctxs := s.pkg.ctxs.put 0 { word := 1, live := true }
      launches := s.pkg.launches.put 0 (probeLaunch kn fjoset), trans := s.pkg.trans.put 0 t } }

/-- An instruction of spec/opcode_table.json placed where the next step fetches it: as the bytes of a Burhus segment, or in its slot of a
native bundle. -/
def State.withFetchWord (s : State) (nbits w : Nat) : State :=
  if nbits = 32 then s.probe { probeKernel [] with fjoset := true } (probeTrans (slotBundle w)) true
  else s.probe (probeKernel (leBytes (nbits / 8) w)) (probeTrans 0) false

end Sys2Proof.Machine
end

