-- ==== Sys2Proof/Safety.lean ====
section
/-!
DEFINITION. What a safe run is: no step of it stops.
-/
namespace Sys2Proof

/-- `n` steps from `s` all answer a next state. -/
def runsFor (s : Machine.State) : Nat → Prop
  | 0 => True
  | n + 1 => ∃ t, Machine.step s = .next t ∧ runsFor t n

end Sys2Proof
end

