-- ==== Sys2Proof/WellFormed.lean ====
section
/-!
DEFINITION. Well-formed instructions: those that some bytes or slot words stand for (the limits of spec/02 R19 to R29,
spec/03 R43 to R49 and the chapters they name), commands that fit a message (spec/20 R398), and events whose operands name
parts that the package has (spec/01 R6 to R10).
-/
namespace Sys2Proof

/-- Range of one Burhus operand (02 R20, R21). -/
def wfOpd (op : Nat) (f : BIns) : Opd → Bool
  | .d => decide (f.d ≤ 2097151)
  | .a => decide (f.a ≤ 2097151)
  | .b => decide (f.b ≤ 2097151)
  | .c => decide (f.c ≤ 2097151)
  | .e => decide (f.e ≤ 2097151)
  | .f => decide (f.f ≤ 2097151)
  | .s1 => decide (f.n1 ≤ 16777214)
  | .s2 => decide (f.n2 ≤ 16777214)
  | .disp => decide (-2147483648 ≤ f.i) && decide (f.i ≤ 2147483647)
  | .imm =>
    let t := f.m1.toNat % 16
    if op = 0x1A ∧ t = 4 then decide (0 ≤ f.i) && decide (f.i < 2 ^ 32)
    else if op = 0x1A ∧ (t = 5 ∨ t = 6) then decide (0 ≤ f.i) && decide (f.i < 2 ^ 16)
    else decide ((immRange op t).1 ≤ f.i) && decide (f.i ≤ (immRange op t).2)
  | .y1 => decide (f.n1 < 256)
  | .y2 => decide (f.n2 < 256)
  | .n1 hi => decide (f.n1 ≤ hi)
  | .n2 hi => decide (f.n2 ≤ hi)
  | .h => decide (f.n1 < 65536)

/-- An operand that the opcode map does not list is 0. -/
def wfUnused (os : List Opd) (f : BIns) : Bool :=
  (os.contains .d || f.d == 0) && (os.contains .a || f.a == 0) && (os.contains .b || f.b == 0) &&
  (os.contains .c || f.c == 0) && (os.contains .e || f.e == 0) && (os.contains .f || f.f == 0) &&
  (os.contains .disp || os.contains .imm || f.i == 0) &&
  (os.any (fun o => match o with | .s1 | .y1 | .n1 _ | .h => true | _ => false) || f.n1 == 0) &&
  (os.any (fun o => match o with | .s2 | .y2 | .n2 _ => true | _ => false) || f.n2 == 0)

/-- A Burhus instruction of version 3.0 with no masked feature (02 R19 to R29). -/
def wfBur (op : Nat) (f : BIns) : Bool :=
  match bMap op with
  | none => false
  | some (cls, _) =>
    let os := opds op f.immPage f.m1.toNat
    (!f.immPage || immOk op) && (1 ≤ mBytes cls || f.m1 == 0) && (2 ≤ mBytes cls || f.m2 == 0) &&
    (match f.guard with | none => true | some g => decide (g ≤ 4194303) && !noGuard op) &&
    os.all (wfOpd op f) && wfUnused os f && bLimits op f && bCsrOk op f.n1 &&
    decide ((encodeBIns op f).length ≤ 32)

/-- An S slot (03 Table 3.3). -/
def wfS (op : Nat) (f : SSlot) : Bool :=
  sAssigned op && sLimits op f && (f.im || f.imx == 0) && decide (encS op f ≠ 0)

/-- A V slot (03 Table 3.4, R54). -/
def wfV (op : Nat) (f : VSlot) : Bool :=
  vAssigned op && vLimits op f && (f.im || f.imx == 0) && (f.bb || f.bcs == 0) && decide (encV op f ≠ 0)

/-- An L slot (03 Table 3.6). -/
def wfL (op : Nat) (f : LSlot) : Bool := lAssigned op && lLimits op f && (f.im || f.imx == 0)

/-- An M slot (10 R203). -/
def wfM (op : Nat) (f : MSlot) : Bool :=
  if op = 0x8A then f.ab == 0 && f.nstep == 0 && f.bsrc == 0 && (f.asrc == 0 || f.asrc == 2)
  else if op = 0x8B then f.fw == 0 && f.aa == 0 && f.ab == 0 && f.nstep == 0 && f.asrc == 0 && f.bsrc == 0
  else true

/-- A B slot (03 Table 3.8); IMX is read only by a PBR whose operand says so. -/
def wfB (op : Nat) (f : BSlot) : Bool :=
  bSlotLimits op f && ((op == 1 && bitOf 17 f.opnd.toNat) || f.imx == 0)

/-- A command whose operands fit its message (20 R398). -/
def wfCmd (w : List W64) : Bool := decide (w.length ≤ 4094)

/-- An event names cores, L2 banks, dies and engine classes that the package has (01 R10, Table 1.1; 06 R120). -/
def wfEvent : Instr → Bool
  | .bundleIssue k | .lateResultStall k | .memoryResultArrival k | .commitPoint k | .crewSelect k | .forcedSwitchOut k
  | .barrierRelease k _ | .flagDelivery k _ _ _ _ | .waitSatisfied k | .bankModeChangeDone k | .dirtyLineDrain k
  | .pageWalk k _ _ _ | .engineAccept k | .macroOperationStart k _ | .matrixStep k _ | .rptRepeat k | .replay k | .splitRun k
  | .uncorrData k _ | .preemptionTimeout k | .linkAcknowledgement k _ => decide (k < 512)
  | .fifoPublication k bank => decide (k < 512) && decide (bank < 12)
  | .homeBankMerge bank => decide (bank < 2048)
  | .gondolaFill die _ k => decide (die < 4) && decide (k < 512)
  | .engineStart die cls | .engineComplete die cls _ | .enginePageFault die cls _ | .engineFault die cls _ _ =>
    decide (die < 4) && decide (cls < 2)
  | .computeDieReset die | .frameOrigin die => decide (die < 4)
  | _ => true

/-- An instruction that its encoding admits. -/
def wellFormed (i : Instr) : Bool :=
  match formOf i with
  | some (.bur f) => wfBur (opcOf i) f && decide (mkBur (opcOf i) f = some i)
  | some (.s f) =>
    wfS (opcOf i) f &&
    decide ((if opcOf i = 0xE1 ∧ csrNative f.imx.toNat then some (Instr.csrwAdr f)
             else mkShared (opcOf i) f.sub.toNat f.imx.toNat (.s f)) = some i)
  | some (.v f) => wfV (opcOf i) f && decide (mkShared (opcOf i) f.sub.toNat 0 (.v f) = some i)
  | some (.l f) =>
    wfL (opcOf i) f &&
    decide ((if opcOf i = 0x5C then some (Instr.spl f) else if opcOf i = 0x5D then some (Instr.fil f)
             else mkShared (opcOf i) 0 0 (.l f)) = some i)
  | none =>
    match i with
    | .mx f | .mxs f | .mxr f | .mxz f => wfM (opcOf i) f
    | .cmt f => wfB 7 f && !bitOf 19 f.opnd.toNat
    | .cmtSwap f => wfB 7 f && bitOf 19 f.opnd.toNat
    | .pbr f | .brt f | .send f | .lpset f | .lpclr f | .rpt f | .halt f | .barGNative f | .barKNative f
    | .yieldNative f | .rftNative f => wfB (opcOf i) f
    | .trap (.b f) => wfB 0x0C f
    | .brk (.b f) => wfB 0x0D f
    | _ =>
      match cmdOf i with
      | some (_, _, w) => wfCmd w
      | none => wfEvent i

end Sys2Proof
end

