-- ==== Sys2Proof/Certificates/Slice0/Obligations.lean ====
section
/-!
DEFINITION. The statements for the provers, and the notions that they are written with: what an operation computes, said from the rules
of spec/ in the arithmetic of bit vectors, integers and rational numbers.
-/
open Sys2Proof Sys2Proof.Machine

namespace Sys2Proof.Claims

/-! ## Values as the rules read them -/

/-- The value cut to the width of its type (R179). -/
abbrev low (t x : Nat) : BitVec (tyWidth t) := BitVec.ofNat (tyWidth t) x

/-- N(x) of R179: two's complement for .S32 and .S64, else unsigned. -/
def N (t x : Nat) : Int := if t = 0 ∨ t = 2 then (low t x).toInt else (low t x).toNat

/-- An integer modulo 2^w of its type. -/
def W (t : Nat) (i : Int) : Nat := (BitVec.ofInt (tyWidth t) i).toNat

/-- The nearer bound of N's range, for a value outside it (R179, .SAT). -/
def clamp (t : Nat) (i : Int) : Int :=
  if t = 0 ∨ t = 2 then max (-(2 ^ (tyWidth t - 1))) (min (2 ^ (tyWidth t - 1) - 1) i) else max 0 (min (2 ^ tyWidth t - 1) i)

/-- The rational number that an exact value is; none for infinities and NaNs. -/
def num : FV → Option ℚ
  | .fin s m e => some ((if s then -1 else 1) * m * (2 : ℚ) ^ e)
  | _ => none

/-! ## What an operation leaves as it was -/

/-- Memory, the package, the service die, time and the agenda, and the other cores are as they were; of the focus core only the group may
have changed. -/
def OutsideKept (s t : State) : Prop :=
  t.mem = s.mem ∧ t.pkg = s.pkg ∧ t.svc = s.svc ∧ t.now = s.now ∧ t.agenda = s.agenda ∧ t.free = s.free ∧ t.focus = s.focus ∧
  (∀ k, k ≠ s.focus → t.core k = s.core k) ∧ { t.core s.focus with group := (s.core s.focus).group } = s.core s.focus

/-- Of a group and its running crew an instruction of Burhus code has changed register `d` of the strands `ls` alone, a condition register or
a value register, beside the crew's place and, in its region, what a rollback restores and the flags. -/
def OnlyRegister (cond : Bool) (g : Group) (c : Crew) (ls : List (Nat × Nat)) (d : Nat) (g' : Group) (c' : Crew) : Prop :=
  g' = { g with x := g'.x, c := g'.c, running := some c' } ∧
  (∀ slot lane n, lane < 64 → n ≤ 2097151 → (cond = true ∨ n ≠ d ∨ (lane, slot) ∉ ls) → g'.getX slot lane n = g.getX slot lane n) ∧
  (∀ slot lane n, lane < 64 → n ≤ 2097151 → (cond = false ∨ n ≠ d ∨ (lane, slot) ∉ ls) → g'.getC slot lane n = g.getC slot lane n) ∧
  ∃ (p : Nat) (u : List BUndo) (r : BitVec 5) (w : Option (BitVec 5)),
    c' = { c with pc := p, skip := [], region := { c.region with undo := u, raised := r, fpfWrite := w } }

/-- Of a group and its running crew a slot has changed the crew's results in flight alone, by adding to them, and the flags of its region. -/
def OnlyInFlight (g : Group) (c : Crew) (g' : Group) (c' : Crew) : Prop :=
  g' = { g with running := some c' } ∧ ∃ (new : List Landing) (r : BitVec 5) (w : Option (BitVec 5)),
    c' = { c with inflight := c.inflight ++ new, region := { c.region with raised := r, fpfWrite := w } }

/-- Of a group only the running crew has changed, and of it the place, the results in flight and the region. -/
def OnlyRegion (g : Group) (c : Crew) (g' : Group) (c' : Crew) : Prop :=
  g' = { g with running := some c' } ∧ ∃ (p : Nat) (k : List Nat) (f : List Landing) (r : Region),
    c' = { c with pc := p, skip := k, inflight := f, region := r }

/-! ## What an arithmetic operation does -/

/-- What a Burhus arithmetic operation leaves: every executing strand's destination holds its result, the crew stands past the instruction,
and the sticky flags of all results join those of the region. `cond` says that the destination is a condition register. -/
def BurLeaves (op : Nat) (cond : Bool) (R : Ctl → Srcs → Nat × BitVec 5 → Prop) (g : Group) (c : Crew) (b : BIns) (g' : Group) (c' : Crew) : Prop :=
  ∃ r : Nat × Nat → Nat × BitVec 5,
    (∀ l ∈ burLanes g c b.guard, R (ctlOf op (.bur b)) (burSrcs op g b l.2 l.1) (r l)) ∧
    (∀ l ∈ burLanes g c b.guard, if cond then g'.getC l.2 l.1 b.d = (r l).1.testBit 0 else g'.getX l.2 l.1 b.d = BitVec.ofNat 64 (r l).1) ∧
    c'.region.raised = (burLanes g c b.guard).foldl (fun a l => a ||| (r l).2) c.region.raised ∧
    c'.pc = c.pc + (encodeBIns op b).length

/-- What an arithmetic S slot leaves: where its guard holds, its result in flight with the least bound of Table 3.12 and the deadline that LAT
gives, and its flags in the region; else nothing. -/
def ScalarLeaves (op : Nat) (cond : Bool) (R : Ctl → Srcs → Nat × BitVec 5 → Prop) (s : State) (g : Group) (c : Crew) (d : SSlot) (c' : Crew) : Prop :=
  ∃ r : Nat × BitVec 5, R (ctlOf op (.s d)) (sSrcs g c d) r ∧
    c'.inflight = c.inflight ++ (if qGuard g c d.gq.toNat d.ge d.gn then
      [{ at_ := s.cycle + leastS op, deadline := s.cycle + d.lat.toNat + 1, cls := if cond then .q else .s
         reg := d.sd.toNat, slot := 0, lane := 0, val := BitVec.ofNat 64 r.1 }] else []) ∧
    c'.region.raised = (if qGuard g c d.gq.toNat d.ge d.gn then c.region.raised ||| r.2 else c.region.raised)

/-- What an arithmetic V slot leaves: the results of the executing lanes in flight, and their flags in the region. -/
def VectorLeaves (op : Nat) (cond : Bool) (R : Ctl → Srcs → Nat × BitVec 5 → Prop) (s : State) (g : Group) (c : Crew) (d : VSlot) (c' : Crew) : Prop :=
  ∃ r : Nat × Nat → Nat × BitVec 5,
    (∀ l ∈ vecLanes g c d.gp.toNat d.ge d.gn, R (ctlOf op (.v d)) (vSrcs g c d l.2 l.1) (r l)) ∧
    c'.inflight = c.inflight ++ (vecLanes g c d.gp.toNat d.ge d.gn).map (fun l =>
      { at_ := s.cycle + leastV op, deadline := s.cycle + d.lat.toNat + 1, cls := if cond then .p else .v
        reg := d.vd.toNat, slot := l.2, lane := l.1, val := BitVec.ofNat 64 (r l).1 }) ∧
    c'.region.raised = (vecLanes g c d.gp.toNat d.ge d.gn).foldl (fun a l => a ||| (r l).2) c.region.raised

/-- Where the focus core's crew runs it, an arithmetic operation completes in every form that is well formed, and its results relate to its
control fields and sources by `R`. -/
def Gives (mk : Form → Instr) (cond : Bool) (R : Ctl → Srcs → Nat × BitVec 5 → Prop) : Prop :=
  ∀ (s : State) (g : Group) (c : Crew) (f : Form), wellFormed (mk f) = true → s.crew s.focus = some (g, c) →
    ∃ (t : State) (g' : Group) (c' : Crew), exec (mk f) s = .next t ∧ t.crew s.focus = some (g', c') ∧
      match f with
      | .bur b => BurLeaves (opcOf (mk f)) cond R g c b g' c'
      | .s d => ScalarLeaves (opcOf (mk f)) cond R s g c d c'
      | .v d => VectorLeaves (opcOf (mk f)) cond R s g c d c'
      | .l _ => False

/-- The same for an operation of Burhus code alone. -/
def BurGives (mk : BIns → Instr) (cond : Bool) (R : Ctl → Srcs → Nat × BitVec 5 → Prop) : Prop :=
  ∀ (s : State) (g : Group) (c : Crew) (b : BIns), wellFormed (mk b) = true → s.crew s.focus = some (g, c) →
    ∃ (t : State) (g' : Group) (c' : Crew), exec (mk b) s = .next t ∧ t.crew s.focus = some (g', c') ∧
      BurLeaves (opcOf (mk b)) cond R g c b g' c'

/-- A result that depends on control fields and sources alone, and raises no flag (R158). -/
abbrev is (h : Ctl → Srcs → Nat) : Ctl → Srcs → Nat × BitVec 5 → Prop := fun c x r => r = (h c x, 0)

end Sys2Proof.Claims

open Sys2Proof.Claims

/-! ## Integer operations (09 R179, R180) -/

/-- IADD and ISUB saturate with .SAT and else wrap; IMIN, IMAX, IABS and INEG (R179, Table 9.3). -/
def Sys2Proof.Claims.IntegerSums : Prop :=
  Gives .iadd false (is fun c x => W c.ty (if c.sat then clamp c.ty (N c.ty x.a + N c.ty x.b) else N c.ty x.a + N c.ty x.b)) ∧
  Gives .isub false (is fun c x => W c.ty (if c.sat then clamp c.ty (N c.ty x.a - N c.ty x.b) else N c.ty x.a - N c.ty x.b)) ∧
  Gives .imin false (is fun c x => W c.ty (if N c.ty x.a ≤ N c.ty x.b then N c.ty x.a else N c.ty x.b)) ∧
  Gives .imax false (is fun c x => W c.ty (if N c.ty x.a ≤ N c.ty x.b then N c.ty x.b else N c.ty x.a)) ∧
  Gives .iabs false (is fun c x => if (low c.ty x.a).msb then (-low c.ty x.a).toNat else (low c.ty x.a).toNat) ∧
  Gives .ineg false (is fun c x => (-low c.ty x.a).toNat)

/-- IMUL, IMULH and IMAD: the low and the high half of the exact product, and the product with a sum (R179, Table 9.3). -/
def Sys2Proof.Claims.IntegerProducts : Prop :=
  Gives .imul false (is fun c x => (low c.ty x.a * low c.ty x.b).toNat) ∧
  Gives .imulh false (is fun c x => (BitVec.ofInt (2 * tyWidth c.ty) (N c.ty x.a * N c.ty x.b)).toNat / 2 ^ tyWidth c.ty) ∧
  Gives .imad false (is fun c x => (low c.ty x.a * low c.ty x.b + low c.ty x.c).toNat)

/-- IDIV and IREM: Table 9.4 with its corners (R180). -/
def Sys2Proof.Claims.IntegerDivision : Prop :=
  BurGives .idiv false (is fun c x =>
    if N c.ty x.b = 0 then 2 ^ tyWidth c.ty - 1
    else if N c.ty x.a = -(2 ^ (tyWidth c.ty - 1)) ∧ N c.ty x.b = -1 then W c.ty (N c.ty x.a)
    else W c.ty (Int.tdiv (N c.ty x.a) (N c.ty x.b))) ∧
  BurGives .irem false (is fun c x =>
    if N c.ty x.b = 0 then W c.ty (N c.ty x.a)
    else if N c.ty x.a = -(2 ^ (tyWidth c.ty - 1)) ∧ N c.ty x.b = -1 then 0
    else W c.ty (N c.ty x.a - N c.ty x.b * Int.tdiv (N c.ty x.a) (N c.ty x.b)))

/-- AND, OR, XOR, NOT and ANDN by bits; SHL, SHR, SAR and ROT, where a shift by the width or more leaves zeros or sign bits (R179, Table 9.3). -/
def Sys2Proof.Claims.LogicAndShifts : Prop :=
  Gives .and_ false (is fun c x => (low c.ty x.a &&& low c.ty x.b).toNat) ∧
  Gives .or_ false (is fun c x => (low c.ty x.a ||| low c.ty x.b).toNat) ∧
  Gives .xor_ false (is fun c x => (low c.ty x.a ^^^ low c.ty x.b).toNat) ∧
  Gives .not_ false (is fun c x => (~~~low c.ty x.a).toNat) ∧
  Gives .andn false (is fun c x => (low c.ty x.a &&& ~~~low c.ty x.b).toNat) ∧
  Gives .shl false (is fun c x => (low c.ty x.a <<< (low c.ty x.b).toNat).toNat) ∧
  Gives .shr false (is fun c x => (low c.ty x.a >>> (low c.ty x.b).toNat).toNat) ∧
  Gives .sar false (is fun c x => ((low c.ty x.a).sshiftRight (low c.ty x.b).toNat).toNat) ∧
  Gives .rot false (is fun c x => ((low c.ty x.a).rotateLeft (low c.ty x.b).toNat).toNat)

/-- POPC, CLZ and BREV; BFX and BFI, whose field is `n2` bits from bit `n1` upward (R179, Table 9.3). -/
def Sys2Proof.Claims.BitFields : Prop :=
  Gives .popc false (is fun c x => ((List.range (tyWidth c.ty)).filter fun i => x.a.testBit i).length) ∧
  Gives .clz false (fun c x r => r.2 = 0 ∧ r.1 ≤ tyWidth c.ty ∧ (∀ i, tyWidth c.ty - r.1 ≤ i → i < tyWidth c.ty → x.a.testBit i = false) ∧
    (r.1 < tyWidth c.ty → x.a.testBit (tyWidth c.ty - 1 - r.1) = true)) ∧
  Gives .brev false (fun c x r => r.2 = 0 ∧ r.1 < 2 ^ tyWidth c.ty ∧ ∀ i, i < tyWidth c.ty → r.1.testBit i = x.a.testBit (tyWidth c.ty - 1 - i)) ∧
  Gives .bfx false (fun c x r => r.2 = 0 ∧ r.1 < 2 ^ tyWidth c.ty ∧ ∀ i, i < tyWidth c.ty →
    r.1.testBit i = if i < c.n2 then x.a.testBit (c.n1 + i) else (decide (c.ty = 0 ∨ c.ty = 2) && x.a.testBit (c.n1 + c.n2 - 1))) ∧
  Gives .bfi false (fun c x r => r.2 = 0 ∧ r.1 < 2 ^ tyWidth c.ty ∧ ∀ i, i < tyWidth c.ty →
    r.1.testBit i = if c.n1 ≤ i ∧ i < c.n1 + c.n2 then x.c.testBit (i - c.n1) else x.a.testBit i)

/-- SEL, MOV and MOVI copy bits; LEA adds a scaled index; ICMP compares under N (R179, Table 9.3, Table 2.2). -/
def Sys2Proof.Claims.MovesAndCompares : Prop :=
  Gives .sel false (is fun c x => (low c.ty (if x.k then x.a else x.b)).toNat) ∧
  Gives .mov false (is fun c x => (low c.ty x.a).toNat) ∧
  Gives .movi false (is fun c x => (low c.ty x.b).toNat) ∧
  Gives .lea false (is fun c x => (BitVec.ofNat 64 x.a + BitVec.ofNat 64 x.b <<< c.n1).toNat) ∧
  Gives .icmp true (fun c x r => r.2 = 0 ∧ c.cond ≤ 5 ∧
    (r.1.testBit 0 = true ↔
      (c.cond = 0 ∧ N c.ty x.a = N c.ty x.b) ∨ (c.cond = 1 ∧ N c.ty x.a ≠ N c.ty x.b) ∨ (c.cond = 2 ∧ N c.ty x.a < N c.ty x.b) ∨
      (c.cond = 3 ∧ N c.ty x.a ≤ N c.ty x.b) ∨ (c.cond = 4 ∧ N c.ty x.a > N c.ty x.b) ∨ (c.cond = 5 ∧ N c.ty x.a ≥ N c.ty x.b)))

/-! ## Floating-point operations (08 R159 to R168, 09 R181 to R190) -/

namespace Sys2Proof.Claims

/-- RoundInt of a rational number (Table 8.2): 0 nearest even, 1 toward zero, 2 down, 3 up. -/
def roundInt (mode : Nat) (y : ℚ) : ℤ :=
  match mode with
  | 0 => if y - ⌊y⌋ < 1 / 2 then ⌊y⌋ else if 1 / 2 < y - ⌊y⌋ then ⌊y⌋ + 1 else if Even ⌊y⌋ then ⌊y⌋ else ⌊y⌋ + 1
  | 1 => if 0 ≤ y then ⌊y⌋ else ⌈y⌉
  | 2 => ⌊y⌋
  | _ => ⌈y⌉

/-- The largest finite value of a format, as its bits read. -/
def maxFinite (F : Fmt) : ℚ := (num (F.read F.maxBits)).getD 0

/-- The formats of Table 8.1. -/
def formats : List Fmt := [fmtF32, fmtF16, fmtBF16, fmtE4M3, fmtE5M2]

/-- A finite or infinite value lies below another; zeros of either sign are equal. -/
def less : FV → FV → Prop
  | .inf s, .inf t => s = true ∧ t = false
  | .inf s, .fin .. => s = true
  | .fin .., .inf t => t = false
  | .fin s m x, .fin t n y => (if s then -1 else 1) * (m : ℚ) * 2 ^ x < (if t then -1 else 1) * (n : ℚ) * 2 ^ y
  | _, _ => False

/-- IV where a signalling NaN is among the operands (R160). -/
def ivIf (b : Bool) : Flags := if b then fIV else 0

/-- The sum of two exact values rounded into `F` under mode `m` (R181): NaNs, infinities, and the one rounding of the exact sum, whose zero
takes the operands' sign if they agree, and else is negative under .RDN alone. -/
def SumTo (F : Fmt) (m : Nat) (a b : FV) (r : Nat × Flags) : Prop :=
  match a, b with
  | .nan s, b => r = (F.nan, ivIf (s || b.isSig))
  | _, .nan t => r = (F.nan, ivIf t)
  | .inf s, .inf t => r = if s = t then (F.infOf s, 0) else (F.nan, fIV)
  | .inf s, .fin .. => r = (F.infOf s, 0)
  | .fin .., .inf t => r = (F.infOf t, 0)
  | .fin s p x, .fin t q y => ∃ v n e, num (.fin v n e) = some ((if s then -1 else 1) * (p : ℚ) * 2 ^ x + (if t then -1 else 1) * (q : ℚ) * 2 ^ y) ∧
      (n = 0 → v = if s = t then s else decide (m = 2)) ∧ r = roundF F m false (.fin v n e)

/-- The product of two exact values rounded into `F` (R181). -/
def ProductTo (F : Fmt) (m : Nat) (a b : FV) (r : Nat × Flags) : Prop :=
  match a, b with
  | .nan s, b => r = (F.nan, ivIf (s || b.isSig))
  | _, .nan t => r = (F.nan, ivIf t)
  | .inf s, .inf t => r = (F.infOf (s != t), 0)
  | .inf s, .fin t q _ => r = if q = 0 then (F.nan, fIV) else (F.infOf (s != t), 0)
  | .fin s p _, .inf t => r = if p = 0 then (F.nan, fIV) else (F.infOf (s != t), 0)
  | .fin s p x, .fin t q y => ∃ (n : Nat) (e : Int), (n : ℚ) * 2 ^ e = (p : ℚ) * 2 ^ x * ((q : ℚ) * 2 ^ y) ∧ r = roundF F m false (.fin (s != t) n e)

/-- a × b + c with one rounding (R181): the product is not rounded; 0 × ∞ is invalid whatever c is. -/
def FmaTo (F : Fmt) (m : Nat) (a b c : FV) (r : Nat × Flags) : Prop :=
  match a, b with
  | .nan s, b => r = (F.nan, ivIf (s || b.isSig || c.isSig))
  | _, .nan t => r = (F.nan, ivIf (t || c.isSig))
  | .inf s, .inf t => SumTo F m (.inf (s != t)) c r
  | .inf s, .fin t q _ => if q = 0 then r = (F.nan, fIV) else SumTo F m (.inf (s != t)) c r
  | .fin s p _, .inf t => if p = 0 then r = (F.nan, fIV) else SumTo F m (.inf (s != t)) c r
  | .fin s p x, .fin t q y => SumTo F m (.fin (s != t) (p * q) (x + y)) c r

/-- Element `e` of a packed pair (R157). -/
def elem (F : Fmt) (x e : Nat) : FV := F.read (x / 2 ^ (16 * e))

/-- Two elements packed in 32 bits, each related by `h` on its own, with their flags joined (R186). -/
def Pairwise (h : Nat → Nat × Flags → Prop) (r : Nat × Flags) : Prop :=
  ∃ r0 r1, h 0 r0 ∧ h 1 r1 ∧ r = (r0.1 + r1.1 * 2 ^ 16, r0.2 ||| r1.2)

end Sys2Proof.Claims

/-- RoundInt of a magnitude with its sign is the integer that Table 8.2 gives for the number (R161). -/
def Obligations.RoundInteger : Prop :=
  ∀ (mode : Nat) (s : Bool) (m : Nat) (e : Int), mode ≤ 3 →
    (if s then -((roundMag mode s m e).1 : ℤ) else (roundMag mode s m e).1) = roundInt mode ((if s then -1 else 1) * m * (2 : ℚ) ^ e) ∧
    ((roundMag mode s m e).2 = false ↔ ((roundMag mode s m e).1 : ℚ) = m * (2 : ℚ) ^ e)

/-- Round of a finite nonzero number into a format: the quantum, the rounding, the overflow of Table 8.3 and the flags that R162 gives. -/
def Sys2Proof.Claims.RoundToFormat : Prop :=
  ∀ F ∈ formats, ∀ (mode : Nat) (sat s : Bool) (m : Nat) (x : Int), mode ≤ 3 → m ≠ 0 →
    let v : ℚ := (if s then -1 else 1) * m * (2 : ℚ) ^ x
    let e : ℤ := max (Int.log 2 |v|) F.emin
    let r : ℚ := roundInt mode (v / 2 ^ (e - F.fb)) * 2 ^ (e - F.fb)
    if maxFinite F < |r| then
      roundF F mode sat (.fin s m x) =
        (if sat ∨ mode = 1 ∨ (mode = 2 ∧ s = false) ∨ (mode = 3 ∧ s = true) then F.sgn s F.maxBits
         else if F.e4m3 then 0x7F else F.sgn s ((2 ^ F.eb - 1) * 2 ^ F.fb), fOF ||| fNX)
    else
      num (F.read (roundF F mode sat (.fin s m x)).1) = some r ∧ (F.read (roundF F mode sat (.fin s m x)).1).neg = s ∧
      (roundF F mode sat (.fin s m x)).2 = (if r = v then 0 else if |r| < 2 ^ F.emin then fNX ||| fUF else fNX)

/-- FADD, FSUB, FMUL, FFMA and SCALE round the exact value once, with the special cases of R181. -/
def Obligations.FloatArithmetic : Prop :=
  Gives .fadd false (fun c x r => SumTo (fmtOf c.ty) c.rnd ((fmtOf c.ty).read x.a) ((fmtOf c.ty).read x.b) r) ∧
  Gives .fsub false (fun c x r => SumTo (fmtOf c.ty) c.rnd ((fmtOf c.ty).read x.a) ((fmtOf c.ty).read x.b).flip r) ∧
  Gives .fmul false (fun c x r => ProductTo (fmtOf c.ty) c.rnd ((fmtOf c.ty).read x.a) ((fmtOf c.ty).read x.b) r) ∧
  Gives .ffma false (fun c x r => FmaTo (fmtOf c.ty) c.rnd ((fmtOf c.ty).read x.a) ((fmtOf c.ty).read x.b) ((fmtOf c.ty).read x.c) r) ∧
  Gives .scale false (fun c x r =>
    match (fmtOf c.ty).read x.a with
    | .nan s => r = ((fmtOf c.ty).nan, ivIf s)
    | .inf s => r = ((fmtOf c.ty).infOf s, 0)
    | .fin s m e => r = roundF (fmtOf c.ty) c.rnd false (.fin s m (e + (BitVec.ofNat 32 x.b).toInt)))

/-- FMIN and FMAX: the other operand beside one NaN, −0 below +0, bits unchanged (R182); FCMP by Table 9.5 (R183). -/
def Sys2Proof.Claims.FloatCompares : Prop :=
  let minMax := fun (lo : Bool) (c : Ctl) (x : Srcs) (r : Nat × BitVec 5) =>
    let F := fmtOf c.ty
    let a := F.read x.a
    let b := F.read x.b
    let bits := fun v => v % 2 ^ (F.eb + F.fb + 1)
    r.2 = ivIf (a.isSig || b.isSig) ∧
    (a.isNan → b.isNan → r.1 = F.nan) ∧ (a.isNan → ¬b.isNan → r.1 = bits x.b) ∧ (¬a.isNan → b.isNan → r.1 = bits x.a) ∧
    (less a b → r.1 = bits (if lo then x.a else x.b)) ∧ (less b a → r.1 = bits (if lo then x.b else x.a)) ∧
    (¬a.isNan → ¬b.isNan → ¬less a b → ¬less b a →
      r.1 = bits x.a ∧ r.1 = bits x.b ∨ a.neg ≠ b.neg ∧ r.1 = bits (if a.neg = lo then x.a else x.b))
  Gives .fmin false (minMax true) ∧ Gives .fmax false (minMax false) ∧
  Gives .fcmp true (fun c x r =>
    let a := (fmtOf c.ty).read x.a
    let b := (fmtOf c.ty).read x.b
    let nan := a.isNan || b.isNan
    c.cond ≤ 6 ∧
    r.2 = (if 2 ≤ c.cond ∧ c.cond ≤ 5 then ivIf nan else ivIf (a.isSig || b.isSig)) ∧
    (r.1.testBit 0 = true ↔
      (c.cond = 0 ∧ nan = false ∧ ¬less a b ∧ ¬less b a) ∨ (c.cond = 1 ∧ (nan = true ∨ less a b ∨ less b a)) ∨ (c.cond = 2 ∧ less a b) ∨
      (c.cond = 3 ∧ nan = false ∧ ¬less b a) ∨ (c.cond = 4 ∧ less b a) ∨ (c.cond = 5 ∧ nan = false ∧ ¬less a b) ∨ (c.cond = 6 ∧ nan = true)))

/-- FRCP and FRSQ: the special operands of Table 9.6, and for every other operand one rounding of a number within 2^-96 of the exact value,
relative to it; the powers of two (of four) that Table 9.6 and R184 name are exact. -/
def Obligations.Reciprocals : Prop :=
  Gives .frcp false (fun c x r =>
    match fmtF32.read x.a with
    | .nan s => r = (fmtF32.nan, ivIf s)
    | .inf s => r = (fmtF32.sgn s 0, 0)
    | .fin s m e => if m = 0 then r = (fmtF32.infOf s, fDZ)
      else ∃ (n : Nat) (k : Int), |(n : ℚ) * 2 ^ k * (m * 2 ^ e) - 1| ≤ 2 ^ (-96 : ℤ) ∧ (m = 2 ^ 23 → (n : ℚ) * 2 ^ k * (m * 2 ^ e) = 1) ∧
        r = roundF fmtF32 c.rnd false (.fin s n k)) ∧
  Gives .frsq false (fun c x r =>
    match fmtF32.read x.a with
    | .nan s => r = (fmtF32.nan, ivIf s)
    | .inf s => r = if s then (fmtF32.nan, fIV) else (0, 0)
    | .fin s m e => if m = 0 then r = (fmtF32.infOf s, fDZ) else if s then r = (fmtF32.nan, fIV)
      else ∃ (n : Nat) (k : Int), |((n : ℚ) * 2 ^ k) ^ 2 * (m * 2 ^ e) - 1| ≤ 2 ^ (-96 : ℤ) ∧ (m = 2 ^ 23 → Odd e → ((n : ℚ) * 2 ^ k) ^ 2 * (m * 2 ^ e) = 1) ∧
        r = roundF fmtF32 c.rnd false (.fin false n k))

/-- FEXP2, FLOG2 and FTANH: the special operands of Table 9.6 and the exact cases of R184, which raise no flag. -/
def Sys2Proof.Claims.Exponentials : Prop :=
  Gives .fexp2 false (fun _ x r =>
    match fmtF32.read x.a with
    | .nan s => r = (fmtF32.nan, ivIf s)
    | .inf s => r = (if s then 0 else fmtF32.infOf false, 0)
    | .fin s m e => (m = 0 → r = (0x3F800000, 0)) ∧
      ∀ k : ℤ, num (.fin s m e) = some (k : ℚ) → -149 ≤ k → k ≤ 127 → num (fmtF32.read r.1) = some ((2 : ℚ) ^ k) ∧ r.2 = 0) ∧
  Gives .flog2 false (fun _ x r =>
    match fmtF32.read x.a with
    | .nan s => r = (fmtF32.nan, ivIf s)
    | .inf s => r = if s then (fmtF32.nan, fIV) else (fmtF32.infOf false, 0)
    | .fin s m e => if m = 0 then r = (fmtF32.infOf true, fDZ) else if s then r = (fmtF32.nan, fIV)
      else ∀ k : ℤ, num (.fin s m e) = some ((2 : ℚ) ^ k) → num (fmtF32.read r.1) = some (k : ℚ) ∧ r.2 = 0) ∧
  Gives .ftanh false (fun c x r =>
    match fmtF32.read x.a with
    | .nan s => r = (fmtF32.nan, ivIf s)
    | .inf s => r = (fmtF32.sgn s 0x3F800000, 0)
    | .fin s m _ => (m = 0 → r = (fmtF32.sgn s 0, 0)) ∧ (m ≠ 0 → ∃ n k, r = roundF fmtF32 c.rnd false (.fin s n k)))

/-- HADD2, HMUL2 and HFMA2 work on the two elements of a pair on their own (R186); HDOT2 and FDOT4 are chains of FP32 steps, each rounded
as FFMA rounds it, with the flags of all of them joined (R185, R187). -/
def Obligations.PackedAndDotProducts : Prop :=
  Gives .hadd2 false (fun c x r => Pairwise (fun i => SumTo (fmtOf c.ty) c.rnd (elem (fmtOf c.ty) x.a i) (elem (fmtOf c.ty) x.b i)) r) ∧
  Gives .hmul2 false (fun c x r => Pairwise (fun i => ProductTo (fmtOf c.ty) c.rnd (elem (fmtOf c.ty) x.a i) (elem (fmtOf c.ty) x.b i)) r) ∧
  Gives .hfma2 false (fun c x r =>
    Pairwise (fun i => FmaTo (fmtOf c.ty) c.rnd (elem (fmtOf c.ty) x.a i) (elem (fmtOf c.ty) x.b i) (elem (fmtOf c.ty) x.c i)) r) ∧
  BurGives .hdot2 false (fun c x r => ∃ t u,
    FmaTo fmtF32 c.rnd (elem (fmtOf c.ty) x.a 0) (elem (fmtOf c.ty) x.b 0) (fmtF32.read x.c) t ∧
    FmaTo fmtF32 c.rnd (elem (fmtOf c.ty) x.a 1) (elem (fmtOf c.ty) x.b 1) (fmtF32.read t.1) u ∧
    r = (u.1, t.2 ||| u.2 ||| ivIf ((elem (fmtOf c.ty) x.a 0).isSig || (elem (fmtOf c.ty) x.a 1).isSig || (elem (fmtOf c.ty) x.b 0).isSig ||
      (elem (fmtOf c.ty) x.b 1).isSig))) ∧
  (∀ (s : State) (g : Group) (c : Crew) (b : BIns), wellFormed (.fdot4 b) = true → s.crew s.focus = some (g, c) →
    ∃ (t : State) (g' : Group) (c' : Crew), exec (.fdot4 b) s = .next t ∧ t.crew s.focus = some (g', c') ∧
      c'.pc = c.pc + (encodeBIns 0x2C b).length ∧
      ∃ r : Nat × Nat → Nat → Nat × BitVec 5,
        (∀ l ∈ burLanes g c b.guard, r l 0 = ((g.getX l.2 l.1 b.c).toNat % 2 ^ 32, 0) ∧ ∀ k, k < 4 → ∃ u,
          FmaTo fmtF32 (fld 5 4 b.m1.toNat) (fmtF32.read (g.getX l.2 l.1 (b.a + k)).toNat) (fmtF32.read (g.getX l.2 l.1 (b.b + k)).toNat)
            (fmtF32.read (r l k).1) u ∧ r l (k + 1) = (u.1, (r l k).2 ||| u.2)) ∧
        (∀ l ∈ burLanes g c b.guard, g'.getX l.2 l.1 b.d = BitVec.ofNat 64 (r l 4).1) ∧
        c'.region.raised = (burLanes g c b.guard).foldl (fun a l => a ||| (r l 4).2) c.region.raised)

namespace Sys2Proof.Claims

/-- Least and greatest value of an integer type (R158). -/
def intLo (t : Nat) : ℤ := if t = 0 ∨ t = 2 ∨ t = 12 ∨ t = 14 then -(2 ^ (tyWidth t - 1)) else 0
def intHi (t : Nat) : ℤ := if t = 0 ∨ t = 2 ∨ t = 12 ∨ t = 14 then 2 ^ (tyWidth t - 1) - 1 else 2 ^ tyWidth t - 1

/-- An integer source's value. -/
def intVal (t x : Nat) : ℤ := if t = 0 ∨ t = 2 ∨ t = 12 ∨ t = 14 then (low t x).toInt else (low t x).toNat

/-- The exact value of a floating-point or LOG6 source (R159, R165). -/
def floatVal (t x : Nat) : FV := if t = 11 then log6Read x else (fmtOf t).read x

/-- The conversion of `x` from type `s` to type `d` (Table 8.6). -/
def Converts (d s m : Nat) (sat : Bool) (x : Nat) (r : Nat × Flags) : Prop :=
  if d = s then r = ((low d x).toNat, 0)
  else if tyB d || tyB s then r = (((low s x).setWidth (tyWidth d)).toNat, 0)
  else if tyInt s && tyInt d then
    r = (W d (if sat then max (intLo d) (min (intHi d) (intVal s x)) else intVal s x), 0)
  else if tyInt s then
    let v : FV := .fin (decide (intVal s x < 0)) (intVal s x).natAbs 0
    r = if d = 11 then roundLog6 m sat v else roundF (fmtOf d) m sat v
  else if tyInt d then
    let bad : ℤ := if sat then if (floatVal s x).isNan then 0 else if (floatVal s x).neg then intLo d else intHi d else if intLo d = 0 then intHi d else intLo d
    match num (floatVal s x) with
    | none => r = (W d bad, fIV)
    | some v => if intLo d ≤ roundInt m v ∧ roundInt m v ≤ intHi d then r = (W d (roundInt m v), if (roundInt m v : ℚ) = v then 0 else fNX) else r = (W d bad, fIV)
  else if d = 11 then r = ((roundLog6 m sat (floatVal s x)).1, ivIf (floatVal s x).isSig ||| (roundLog6 m sat (floatVal s x)).2)
  else if (d = 4 ∧ (s = 5 ∨ s = 6)) ∨ ((d = 4 ∨ d = 5 ∨ d = 6) ∧ (s = 9 ∨ s = 10)) then
    match floatVal s x with
    | .nan g => r = ((fmtOf d).nan, ivIf g)
    | .inf n => r = ((fmtOf d).infOf n, 0)
    | v => r.2 = 0 ∧ num ((fmtOf d).read r.1) = num v ∧ ((fmtOf d).read r.1).neg = v.neg
  else r = ((roundF (fmtOf d) m sat (floatVal s x)).1, ivIf (floatVal s x).isSig ||| (roundF (fmtOf d) m sat (floatVal s x)).2)

end Sys2Proof.Claims

/-- CVT, PACK and UNPACK convert by Table 8.6; PACK places element 1 at bit 16 or 8, and UNPACK takes an element from there (R188 to R190). -/
def Obligations.Conversions : Prop :=
  let place := fun (t : Nat) => if tyWidth t = 16 then 16 else 8
  Gives .cvt false (fun c x r => Converts c.ty c.src c.rnd c.sat x.a r) ∧
  Gives .pack false (fun c x r => ∃ r0 r1, Converts c.ty c.src c.rnd c.sat x.a r0 ∧ Converts c.ty c.src c.rnd c.sat x.b r1 ∧
    r = (r0.1 + r1.1 * 2 ^ place c.ty, r0.2 ||| r1.2)) ∧
  Gives .unpack false (fun c x r => c.n1 ≤ 1 ∧ Converts c.ty c.src c.rnd c.sat (x.a / 2 ^ (place c.src * c.n1)) r)

/-- Every LOG6 code but NaR reads as a finite value that rounds back to the code under .RNE (R164 to R166). -/
def Sys2Proof.Claims.Log6Codes : Prop :=
  ∀ x, x < 64 → (x = 0x30 → log6Read x = .nan false) ∧ (x ≠ 0x30 → (num (log6Read x)).isSome ∧ (roundLog6 0 false (log6Read x)).1 = x)

/-! ## Crew operations (09 R191 to R195) -/

namespace Sys2Proof.Claims

/-- What a crew operation of Burhus code leaves: the value `v` in register `d` of every executing strand, the flags `fl` raised if one
executes, and the crew past the instruction. -/
def CrewBur (i : Instr) (b : BIns) (cond : Bool) (v : Group → Crew → Nat × Nat → Nat) (fl : Group → Crew → BitVec 5) : Prop :=
  ∀ (s : State) (g : Group) (c : Crew), wellFormed i = true → s.crew s.focus = some (g, c) →
    ∃ (t : State) (g' : Group) (c' : Crew), exec i s = .next t ∧ t.crew s.focus = some (g', c') ∧
      c'.pc = c.pc + (encodeBIns (opcOf i) b).length ∧
      (∀ l ∈ burLanes g c b.guard, if cond then g'.getC l.2 l.1 b.d = (v g c l).testBit 0 else g'.getX l.2 l.1 b.d = BitVec.ofNat 64 (v g c l)) ∧
      c'.region.raised = c.region.raised ||| (if burLanes g c b.guard = [] then 0 else fl g c)

/-- What a crew operation of a V slot leaves: results in flight to the registers `ws` lists, with the least bound of Table 3.12. -/
def CrewVec (i : Instr) (d : VSlot) (ws : Group → Crew → List RegWr) (fl : Group → Crew → BitVec 5) : Prop :=
  ∀ (s : State) (g : Group) (c : Crew), wellFormed i = true → s.crew s.focus = some (g, c) →
    ∃ (t : State) (g' : Group) (c' : Crew), exec i s = .next t ∧ t.crew s.focus = some (g', c') ∧
      c'.inflight = c.inflight ++ (ws g c).map (fun w =>
        { at_ := s.cycle + leastV (opcOf i), deadline := s.cycle + d.lat.toNat + 1, cls := w.cls, reg := w.reg, slot := w.slot, lane := w.lane, val := w.val }) ∧
      c'.region.raised = c.region.raised ||| (if vecLanes g c d.gp.toNat d.ge d.gn = [] then 0 else fl g c)

/-- The executing lanes of a V slot. -/
abbrev vls (g : Group) (c : Crew) (d : VSlot) : List (Nat × Nat) := vecLanes g c d.gp.toNat d.ge d.gn

/-- The value of SHFL's lane `j`, or the own value where lane `j` does not execute (R194). -/
def shflFrom (ls : List (Nat × Nat)) (val : Nat × Nat → Nat) (l : Nat × Nat) (j : Int) : Nat :=
  match ls.find? fun k => (k.1 : Int) = j with
  | some k => val k
  | none => val l

/-- The source lane of SHFL (R194). -/
def shflSource (sub i u : Nat) : Int := if sub = 0 then u else if sub = 1 then (i ^^^ u : Nat) else if sub = 2 then (i : Int) - u else (i : Int) + u

/-- One operation of CRED (R195) on values of a type. -/
def reduceOp (sub ty l h : Nat) : Nat × BitVec 5 :=
  if sub = 0 then if ty = 4 then fAdd fmtF32 0 (fmtF32.read l) (fmtF32.read h) else (W ty (N ty l + N ty h), 0)
  else if sub = 1 then if ty = 4 then fMinMax fmtF32 true l h else (W ty (min (N ty l) (N ty h)), 0)
  else if sub = 2 then if ty = 4 then fMinMax fmtF32 false l h else (W ty (max (N ty l) (N ty h)), 0)
  else if sub = 3 then ((low ty l &&& low ty h).toNat, 0)
  else if sub = 4 then ((low ty l ||| low ty h).toNat, 0)
  else ((low ty l ^^^ low ty h).toNat, 0)

/-- Node `k` of level `n` of the fixed tree over the executing lanes (R195), with the flags of the operations beneath it; an absent side is
skipped. -/
def reduceTree (sub ty : Nat) (ls : List (Nat × Nat)) (val : Nat × Nat → Nat) : Nat → Nat → Option (Nat × BitVec 5)
  | 0, k => (ls.find? fun l => l.1 = k).map fun l => (val l, 0)
  | n + 1, k =>
    match reduceTree sub ty ls val n (2 * k), reduceTree sub ty ls val n (2 * k + 1) with
    | some a, some b => some ((reduceOp sub ty a.1 b.1).1, a.2 ||| b.2 ||| (reduceOp sub ty a.1 b.1).2)
    | some a, none => some a
    | none, b => b

end Sys2Proof.Claims

/-- VOTE.ANY, VOTE.ALL, VOTE.BALLOT and VOTE.EQ over the executing lanes; with none, nothing is written. A V slot's BALLOT writes the bit of every
lane of the crew, zero where it does not execute (R192, R193). -/
def Sys2Proof.Claims.Votes : Prop :=
  (∀ b, CrewBur (.voteAny (.bur b)) b true (fun g c _ => ((burLanes g c b.guard).any fun l => g.getC l.2 l.1 b.a).toNat) (fun _ _ => 0)) ∧
  (∀ b, CrewBur (.voteAll (.bur b)) b true (fun g c _ => ((burLanes g c b.guard).all fun l => g.getC l.2 l.1 b.a).toNat) (fun _ _ => 0)) ∧
  (∀ d, CrewVec (.voteAny (.v d)) d (fun g c => if vls g c d = [] then [] else
    [{ cls := .q, reg := d.vd.toNat % 4, slot := 0, lane := 0, val := BitVec.ofNat 64 ((vls g c d).any fun l => g.getP l.2 (d.va.toNat % 8) l.1).toNat }]) (fun _ _ => 0)) ∧
  (∀ d, CrewVec (.voteAll (.v d)) d (fun g c => if vls g c d = [] then [] else
    [{ cls := .q, reg := d.vd.toNat % 4, slot := 0, lane := 0, val := BitVec.ofNat 64 ((vls g c d).all fun l => g.getP l.2 (d.va.toNat % 8) l.1).toNat }]) (fun _ _ => 0)) ∧
  (∀ b, ∀ (s : State) (g : Group) (c : Crew), wellFormed (.voteBallot (.bur b)) = true → s.crew s.focus = some (g, c) →
    ∃ (t : State) (g' : Group) (c' : Crew), exec (.voteBallot (.bur b)) s = .next t ∧ t.crew s.focus = some (g', c') ∧
      ∀ l ∈ burLanes g c b.guard, ∀ i, i < 64 →
        ((g'.getX l.2 l.1 b.d).getLsbD i = true ↔ ∃ m ∈ burLanes g c b.guard, m.1 = i ∧ g.getC m.2 m.1 b.a = true)) ∧
  (∀ d, ∀ (s : State) (g : Group) (c : Crew), wellFormed (.voteBallot (.v d)) = true → s.crew s.focus = some (g, c) →
    (vls g c d = [] → exec (.voteBallot (.v d)) s = .next s) ∧ (vls g c d ≠ [] →
    ∃ (t : State) (g' : Group) (c' : Crew) (bits : Nat × Nat → Bool), exec (.voteBallot (.v d)) s = .next t ∧ t.crew s.focus = some (g', c') ∧
      c'.inflight = c.inflight ++ (ballotLanes g c).map (fun l =>
        { at_ := s.cycle + leastV 0x40, deadline := s.cycle + d.lat.toNat + 1, cls := .p, reg := d.vd.toNat, slot := l.2, lane := l.1
          val := BitVec.ofNat 64 (bits l).toNat }) ∧
      ∀ l ∈ ballotLanes g c, bits l = true ↔ ∃ m ∈ vls g c d, m.1 = l.1 ∧ g.getP m.2 (d.va.toNat % 8) m.1 = true)) ∧
  (∀ b, CrewBur (.voteEq b) b true (fun g c l => ((burLanes g c b.guard).all fun k =>
    low (b.m1.toNat % 16) (g.getX k.2 k.1 b.a).toNat = low (b.m1.toNat % 16) (g.getX l.2 l.1 b.a).toNat).toNat) (fun _ _ => 0))

/-- SHFL takes the value of another lane of the crew, as all are read at issue (R194). -/
def Sys2Proof.Claims.Shuffle : Prop :=
  (∀ b, CrewBur (.shfl (.bur b)) b false (fun g c l =>
    shflFrom (burLanes g c b.guard) (fun k => (low (b.m1.toNat % 16) (g.getX k.2 k.1 b.a).toNat).toNat) l
      (shflSource (b.m1.toNat / 16) l.1 ((g.getX l.2 l.1 b.b).toNat % 2 ^ 32))) (fun _ _ => 0)) ∧
  (∀ d, CrewVec (.shfl (.v d)) d (fun g c => (vls g c d).map fun l =>
    { cls := .v, reg := d.vd.toNat, slot := l.2, lane := l.1
      val := BitVec.ofNat 64 (shflFrom (vls g c d) (fun k => (g.getV k.2 d.va.toNat k.1).toNat) l
        (shflSource d.sub.toNat l.1 (vOperandB g c d l.2 l.1 % 2 ^ 32))) }) (fun _ _ => 0))

/-- CRED reduces the executing lanes by the fixed tree of R195 and gives every one of them the result. -/
def Sys2Proof.Claims.Reductions : Prop :=
  (∀ b, CrewBur (.cred (.bur b)) b false
    (fun g c _ => ((reduceTree (b.m1.toNat / 16) (b.m1.toNat % 16) (burLanes g c b.guard)
      (fun k => (low (b.m1.toNat % 16) (g.getX k.2 k.1 b.a).toNat).toNat) 6 0).map Prod.fst).getD 0)
    (fun g c => ((reduceTree (b.m1.toNat / 16) (b.m1.toNat % 16) (burLanes g c b.guard)
      (fun k => (low (b.m1.toNat % 16) (g.getX k.2 k.1 b.a).toNat).toNat) 6 0).map Prod.snd).getD 0)) ∧
  (∀ d, CrewVec (.cred (.v d)) d (fun g c => (vls g c d).map fun l =>
    { cls := .v, reg := d.vd.toNat, slot := l.2, lane := l.1
      val := BitVec.ofNat 64 (((reduceTree d.sub.toNat d.ty.toNat (vls g c d) (fun k => (g.getV k.2 d.va.toNat k.1).toNat) 6 0).map Prod.fst).getD 0) })
    (fun g c => ((reduceTree d.sub.toNat d.ty.toNat (vls g c d) (fun k => (g.getV k.2 d.va.toNat k.1).toNat) 6 0).map Prod.snd).getD 0))

/-! ## Loads, stores and core memories (07 R144 to R155, 11 R218 to R239) -/

namespace Sys2Proof.Claims

/-- Byte `i` of a value. -/
def byteAt (x i : Nat) : Byte := BitVec.ofNat 8 (x / 256 ^ i)

/-- The loaded value in its register (07 R147, 09 R174): .S8 and .S16 sign-extended to 32 bits, .S32 to 64 in a scalar register, the rest
zero-extended. -/
def extended (ty : Nat) (scalar : Bool) (bs : List Byte) : W64 :=
  if ty = 12 then ((BitVec.ofNat 8 (leNat bs)).signExtend 32).setWidth 64
  else if ty = 14 then ((BitVec.ofNat 16 (leNat bs)).signExtend 32).setWidth 64
  else if ty = 0 ∧ scalar then (BitVec.ofNat 32 (leNat bs)).signExtend 64
  else BitVec.ofNat 64 (leNat bs)

/-- The `n` bytes at `pa` stand in the private cache, in HBM space and outside a window (R224). -/
def InCache (s : State) (pa n : Nat) (x : CLine) : Prop :=
  isHbm pa ∧ s.hit s.focus (lineOf pa) = some x ∧ maskAt (pa % 128) n &&& x.valid = maskAt (pa % 128) n

/-- The bytes that a load gives from a cached line: the crew's own buffered bytes over the line's (R225). -/
def loaded (c : Crew) (pa n : Nat) (x : CLine) : List Byte := overlayOwn (ownBuffered c) pa (lineBytes x.data (pa % 128) n)

/-- What a load leaves whose lanes' bytes are `bytes`: a Burhus load writes its register and moves on, a slot's results land 16 cycles on;
every other register, memory, and what the private cache holds are unchanged. `free` says that no acquire waits for the result (12 R242). -/
def LoadLeaves (free : Bool) (op : Nat) (f : Form) (s t : State) (g : Group) (c : Crew) (bytes : Nat × Nat → List Byte) : Prop :=
  t.mem = s.mem ∧ t.pkg = s.pkg ∧ t.svc = s.svc ∧ (∀ k, k ≠ s.focus → t.core k = s.core k) ∧
  (∀ l, (t.core s.focus).findLine l = (s.core s.focus).findLine l) ∧ ∃ (g' : Group) (c' : Crew), t.crew s.focus = some (g', c') ∧
    match f with
    | .bur b => OnlyRegister false g c (burLanes g c b.guard) b.d g' c' ∧ c'.pc = c.pc + (encodeBIns op b).length ∧
        c'.region.raised = c.region.raised ∧
        ∀ l ∈ burLanes g c b.guard, g'.getX l.2 l.1 b.d = extended (b.m1.toNat % 16) false (bytes l)
    | f => g' = { g with running := some c' } ∧ c' = { c with inflight := c.inflight ++ (memLanes g c f).map fun l =>
        { at_ := s.cycle + 16, deadline := s.cycle + lBound f, cls := memCls f, reg := memDest f, slot := l.2, lane := l.1
          val := extended (memTy f) (memScalar f) (bytes l), held := true, free := free } }

/-- A fault latched in the running crew's region, unless an earlier one is: its kind and the lanes with their addresses; a Burhus crew stays
at the instruction and its registers are as they were (03 R59, 18 R359). -/
def Latches (s t : State) (g : Group) (c : Crew) (kind : Trap) (lanes : List (Nat × Nat)) : Prop :=
  t.mem = s.mem ∧ ∃ (g' : Group) (c' : Crew) (f : FaultRec), t.crew s.focus = some (g', c') ∧ c'.pc = c.pc ∧ g' = { g with running := some c' } ∧
    c'.region.latched = some f ∧ (c.region.latched = none → f.kind = kind ∧ f.lanes = lanes) ∧ (∀ e, c.region.latched = some e → f = e)

end Sys2Proof.Claims

/-- The size of each memory type and the effective address of each form (R218). -/
def Obligations.EffectiveAddress : Prop :=
  (∀ t ∈ [12, 13], tyBytes t = 1) ∧ (∀ t ∈ [14, 15, 5, 6], tyBytes t = 2) ∧ (∀ t ∈ [0, 1, 4, 7], tyBytes t = 4) ∧ (∀ t ∈ [2, 3, 8], tyBytes t = 8) ∧
  (∀ (g : Group) (c : Crew) (b : BIns) (l : Nat × Nat),
    (memEa g c (.bur b) l.1 l.2 : ℤ) = ((g.getX l.2 l.1 b.a).toNat + b.i) % 2 ^ 56) ∧
  (∀ (g : Group) (c : Crew) (d : LSlot) (l : Nat × Nat),
    (memEa g c (.l d) l.1 l.2 : ℤ) = ((g.getA c.ctx d.ar.toNat).toNat +
      (if d.xe = false then 0 else if d.xc = false then ((g.getS c.ctx d.x.toNat).toNat : ℤ) else (g.getV l.2 d.x.toNat l.1).toInt) +
      (if d.im then d.imx.toInt else d.disp.toInt)) % 2 ^ 56) ∧
  ∀ d i, i ∈ [Instr.ld (.l d), .st (.l d), .lds (.l d), .sts (.l d), .ldl (.l d), .stl (.l d), .ldc (.l d), .pref (.l d)] →
    wellFormed i = true → d.xc = true → d.dv = true

/-- LD of bytes that the private cache holds, whose translations are held (R225, R218): each executing lane's register takes them, with the
crew's own buffered stores over them. -/
def Sys2Proof.Claims.LoadHits : Prop :=
  ∀ (s : State) (g : Group) (c : Crew) (f : Form) (p : Nat × Nat → Phys) (x : Nat × Nat → CLine),
    wellFormed (.ld f) = true → s.crew s.focus = some (g, c) → isSp f = false → memPol f ≠ 2 →
    (∀ l ∈ memLanes g c f, memEa g c f l.1 l.2 % tyBytes (memTy f) = 0 ∧ InCache s (p l).pa (tyBytes (memTy f)) (x l) ∧
      (p l).widx = 0 ∧ (p l).ready ≤ s.cycle ∧ translate s.focus (s.asidOf g) (memEa g c f l.1 l.2) .read s = (s, .ok (p l))) →
    ∃ t, exec (.ld f) s = .next t ∧ LoadLeaves false 0x50 f s t g c (fun l => loaded c (p l).pa (tyBytes (memTy f)) (x l))

/-- LD of a slot whose bytes the private cache lacks in some lane asks for them: the request waits with the crew, to land by the deadline that
LAT gives or to stall the core, and no earlier than its translations are held (R225, 03 R52, 04 R84). -/
def Sys2Proof.Claims.LoadMisses : Prop :=
  ∀ (s : State) (g : Group) (c : Crew) (d : LSlot) (p : Nat × Nat → Phys),
    wellFormed (.ld (.l d)) = true → s.crew s.focus = some (g, c) → isSp (.l d) = false →
    (∀ l ∈ memLanes g c (.l d), memEa g c (.l d) l.1 l.2 % tyBytes d.ty.toNat = 0 ∧
      translate s.focus (s.asidOf g) (memEa g c (.l d) l.1 l.2) .read s = (s, .ok (p l))) →
    (∃ l ∈ memLanes g c (.l d), s.hit s.focus (lineOf (p l).pa) = none) →
    ∃ (t : State) (g' : Group) (c' : Crew) (own : List (Nat × Byte)), exec (.ld (.l d)) s = .next t ∧ t.mem = s.mem ∧ t.crew s.focus = some (g', c') ∧
      c'.inflight = c.inflight ∧
      c'.mem = c.mem ++ [{ deadline := s.cycle + d.lat.toNat + 1, cls := if d.dv then .v else .s, reg := d.d.toNat, ty := d.ty, pol := d.pol, own := own
                           lanes := (memLanes g c (.l d)).map fun l =>
                             { lane := l.1, slot := l.2, va := memEa g c (.l d) l.1 l.2, pa := (p l).pa, widx := (p l).widx, page := (p l).page }
                           ready := (memLanes g c (.l d)).foldl (fun m l => max m (p l).ready) 0 }]

/-- LDL places byte `o` of a strand's array at the interleaved address of R222, checks the offset against LSIZE, and then reads as LD does; an
8-byte access is two words (that a scalar form takes the array of the crew's lowest active strand is the model's choice, log 11). -/
def Sys2Proof.Claims.LocalLoads : Prop :=
  ∀ (s : State) (g : Group) (c : Crew) (f : Form) (p : Nat → Phys) (x : Nat → CLine),
    wellFormed (.ldl f) = true → s.crew s.focus = some (g, c) → isSp f = false →
    let la := s.launch g.launch
    let n := tyBytes (memTy f)
    let P := 64 * ((la.grid * (la.stages * la.gps) * la.spg + 63) / 64)
    let t := fun (l : Nat × Nat) => let k := if memScalar f then c.strands.headD (0, 0) else l; (g.cluster * (la.stages * la.gps) + g.gnum) * la.spg + k.2 * 64 + k.1
    let va := fun (l : Nat × Nat) (o : Nat) => (fld 375 320 la.record.toNat + 4 * (P * (o / 4) + t l) + o % 4) % 2 ^ 56
    4 * P < 2 ^ 56 → 0 < P →
    (∀ l ∈ memLanes g c f, memEa g c f l.1 l.2 % n = 0 ∧ memEa g c f l.1 l.2 + n ≤ fld 415 384 la.record.toNat ∧
      ∀ o, o = memEa g c f l.1 l.2 ∨ n = 8 ∧ o = memEa g c f l.1 l.2 + 4 → va l o % min 4 n = 0 ∧
        InCache s (p (va l o)).pa (min 4 n) (x (va l o)) ∧ (p (va l o)).widx = 0 ∧ (p (va l o)).ready ≤ s.cycle ∧
        translate s.focus (s.asidOf g) (va l o) .read s = (s, .ok (p (va l o)))) →
    ∃ u, exec (.ldl f) s = .next u ∧ LoadLeaves false 0x54 f s u g c (fun l =>
      let word := fun o => loaded c (p (va l o)).pa (min 4 n) (x (va l o))
      if n = 8 then word (memEa g c f l.1 l.2) ++ word (memEa g c f l.1 l.2 + 4) else word (memEa g c f l.1 l.2))

/-- LDC reads the constant pool (POL 0) or the parameter block (POL 1) at the effective address as an offset, 16 cycles on in a slot; an access
beyond its end raises ADDR_UNMAPPED in that lane (R223). -/
def Sys2Proof.Claims.ConstantLoads : Prop :=
  ∀ (s : State) (g : Group) (c : Crew) (f : Form), wellFormed (.ldc f) = true → s.crew s.focus = some (g, c) →
    let src := if memPol f = 0 then (match (s.launch g.launch).kernel with | some kn => kn.pool | none => []) else (s.launch g.launch).params
    let n := tyBytes (memTy f)
    ((∀ l ∈ memLanes g c f, memEa g c f l.1 l.2 % n = 0 ∧ memEa g c f l.1 l.2 + n ≤ src.length) →
      ∃ t, exec (.ldc f) s = .next t ∧ LoadLeaves true 0x56 f s t g c (fun l => (src.drop (memEa g c f l.1 l.2)).take n)) ∧
    ∀ b, f = .bur b → memLanes g c f ≠ [] → (∀ l ∈ memLanes g c f, memEa g c f l.1 l.2 % n = 0 ∧ src.length < memEa g c f l.1 l.2 + n) →
      ∃ t, exec (.ldc f) s = .next t ∧ Latches s t g c .addrUnmapped ((memLanes g c f).map fun l => (l.1, memEa g c f l.1 l.2))

/-- ST and STL buffer their bytes with the region, lane by lane in order, and write no memory before the commit point (R226, R222; a scalar STL
takes the array that log 11 names). -/
def Obligations.StoresAreBuffered : Prop :=
  (∀ (s : State) (g : Group) (c : Crew) (f : Form) (p : Nat × Nat → Phys),
    wellFormed (.st f) = true → s.crew s.focus = some (g, c) → c.region.buf.length < 768 → memLanes g c f ≠ [] →
    (∀ l ∈ memLanes g c f, memEa g c f l.1 l.2 % tyBytes (memTy f) = 0 ∧
      translate s.focus (s.asidOf g) (memEa g c f l.1 l.2) .write s = (s, .ok (p l))) →
    ∃ (t : State) (g' : Group) (c' : Crew), exec (.st f) s = .next t ∧ t.mem = s.mem ∧ t.crew s.focus = some (g', c') ∧
      c'.pc = c.pc + (match f with | .bur b => (encodeBIns 0x51 b).length | _ => 0) ∧
      c'.region.buf = c.region.buf ++ [.store (BitVec.ofNat 2 (memPol f)) ((memLanes g c f).map fun l =>
        { lane := l.1, slot := l.2, va := memEa g c f l.1 l.2, pa := (p l).pa, widx := (p l).widx, page := (p l).page
          bytes := (List.range (tyBytes (memTy f))).map (byteAt (memSrc g c f l.1 l.2)) })]) ∧
  ∀ (s : State) (g : Group) (c : Crew) (f : Form) (p : Nat → Phys),
    wellFormed (.stl f) = true → s.crew s.focus = some (g, c) → c.region.buf.length < 768 → memLanes g c f ≠ [] →
    let la := s.launch g.launch
    let n := tyBytes (memTy f)
    let P := 64 * ((la.grid * (la.stages * la.gps) * la.spg + 63) / 64)
    let t := fun (l : Nat × Nat) => let k := if memScalar f then c.strands.headD (0, 0) else l; (g.cluster * (la.stages * la.gps) + g.gnum) * la.spg + k.2 * 64 + k.1
    let va := fun (l : Nat × Nat) (o : Nat) => (fld 375 320 la.record.toNat + 4 * (P * (o / 4) + t l) + o % 4) % 2 ^ 56
    4 * P < 2 ^ 56 → 0 < P →
    (∀ l ∈ memLanes g c f, memEa g c f l.1 l.2 % n = 0 ∧ memEa g c f l.1 l.2 + n ≤ fld 415 384 la.record.toNat ∧
      ∀ o, o = memEa g c f l.1 l.2 ∨ n = 8 ∧ o = memEa g c f l.1 l.2 + 4 → va l o % min 4 n = 0 ∧
        translate s.focus (s.asidOf g) (va l o) .write s = (s, .ok (p (va l o)))) →
    ∃ (u : State) (g' : Group) (c' : Crew), exec (.stl f) s = .next u ∧ u.mem = s.mem ∧ u.crew s.focus = some (g', c') ∧
      c'.pc = c.pc + (match f with | .bur b => (encodeBIns 0x55 b).length | _ => 0) ∧
      c'.region.buf = c.region.buf ++ [.store 0 ((memLanes g c f).flatMap fun l =>
        ((if n = 8 then [0, 4] else [0]).map fun (i : Nat) =>
          let o := memEa g c f l.1 l.2 + i
          { lane := l.1, slot := l.2, va := va l o, pa := (p (va l o)).pa, widx := (p (va l o)).widx, page := (p (va l o)).page
            bytes := (List.range (min 4 n)).map fun j => byteAt (memSrc g c f l.1 l.2) (i + j) : LaneAcc }))]

/-- An access whose address is no multiple of its size raises ADDR_ALIGN in that lane: LD, ST, ATOM and CAS of Burhus code all of whose
executing lanes are misaligned latch it and have no other effect (R219). -/
def Obligations.MisalignedAccessesFault : Prop :=
  ∀ (s : State) (g : Group) (c : Crew) (b : BIns) (i : Instr), i ∈ [Instr.ld (.bur b), .st (.bur b), .atom (.bur b), .cas (.bur b)] →
    wellFormed i = true → s.crew s.focus = some (g, c) → burLanes g c b.guard ≠ [] →
    (∀ l ∈ burLanes g c b.guard, memEa g c (.bur b) l.1 l.2 % tyBytes (b.m1.toNat % 16) ≠ 0) →
    ∃ (t : State) (ls : List (Nat × Nat)), exec i s = .next t ∧ Latches s t g c .addrAlign ls ∧
      ls.map Prod.fst = (burLanes g c b.guard).map Prod.fst ∧
      (i ∈ [Instr.ld (.bur b), .st (.bur b)] → ls = (burLanes g c b.guard).map fun l => (l.1, memEa g c (.bur b) l.1 l.2))

/-- PREF changes no register and no memory, raises nothing, and moves on, whatever its lanes name. A line that stands in L2 goes into the private
cache under POL 0, whole and clean, and under POL 1 the cache is as it was (R239). -/
def Sys2Proof.Claims.PrefetchOnlyHints : Prop :=
  ∀ (s : State) (g : Group) (c : Crew) (f : Form), wellFormed (.pref f) = true → s.crew s.focus = some (g, c) →
    let moves := fun (t : State) => t.mem = s.mem ∧ t.crew s.focus = some
      (let c' := match f with | .bur b => { c with pc := c.pc + (encodeBIns 0x5B b).length, skip := [] } | _ => c
       ({ g with running := some c' }, c'))
    ((∀ l ∈ memLanes g c f, (∃ t, translate s.focus (s.asidOf g) (memEa g c f l.1 l.2) .read s = (s, .error t)) ∨
      ∃ p, translate s.focus (s.asidOf g) (memEa g c f l.1 l.2) .read s = (s, .ok p) ∧ (isHbm p.pa = false ∨ p.widx ≠ 0 ∨ 2 ≤ memPol f)) →
      ∃ t, exec (.pref f) s = .next t ∧ moves t ∧ t.pkg = s.pkg ∧ (t.core s.focus).cache = (s.core s.focus).cache) ∧
    ∀ (l : Nat × Nat) (p : Phys) (x : L2Line), memLanes g c f = [l] → translate s.focus (s.asidOf g) (memEa g c f l.1 l.2) .read s = (s, .ok p) →
      isHbm p.pa = true → p.widx = 0 → s.pkg.l2.find? (lineOf p.pa) = some x → s.pkg.mergeQ.get [] (s.homeBank (lineOf p.pa)) = [] →
      (memPol f = 0 → (s.core s.focus).dfifo = [] → s.ways s.focus ≠ [] → (∀ y ∈ (s.core s.focus).cache, y.line % 256 ≠ lineOf p.pa % 256) →
        ∃ (t : State) (y : CLine), exec (.pref f) s = .next t ∧ moves t ∧ t.hit s.focus (lineOf p.pa) = some y ∧ y.data = x.data ∧ y.valid = fullMask ∧
          y.dirty = 0) ∧
      (memPol f = 1 → ∃ t, exec (.pref f) s = .next t ∧ moves t ∧ (t.core s.focus).cache = (s.core s.focus).cache ∧
        t.pkg.l2.find? (lineOf p.pa) = some { x with used := s.now })

/-- LDS reads scratchpad bytes with the crew's own buffered ones over them, and STS buffers its bytes with the region; an access beyond 384 KiB,
misaligned, or in a bank that is not in scratchpad mode raises LOCAL_BAD (07 R144 to R147). -/
def Obligations.Scratchpad : Prop :=
  (∀ (s : State) (g : Group) (c : Crew) (f : Form), wellFormed (.lds f) = true → s.crew s.focus = some (g, c) →
    let n := tyBytes (memTy f)
    (∀ l ∈ memLanes g c f, memEa g c f l.1 l.2 % n = 0 ∧ memEa g c f l.1 l.2 + n ≤ 393216 ∧ g.modeOf (memEa g c f l.1 l.2 / 32768) = some 1) →
    ∃ (t : State) (g' : Group) (c' : Crew), exec (.lds f) s = .next t ∧ OutsideKept s t ∧ t.crew s.focus = some (g', c') ∧ g'.scratch = g.scratch ∧
      let bytes := fun (l : Nat × Nat) => overlayOwn (ownLocal c) (memEa g c f l.1 l.2) ((List.range n).map fun i => SMap.get 0 g.scratch (memEa g c f l.1 l.2 + i))
      match f with
      | .bur b => OnlyRegister false g c (burLanes g c b.guard) b.d g' c' ∧ c'.pc = c.pc + (encodeBIns 0x52 b).length ∧
          ∀ l ∈ burLanes g c b.guard, g'.getX l.2 l.1 b.d = extended (b.m1.toNat % 16) false (bytes l)
      | f => OnlyInFlight g c g' c' ∧ c'.inflight = c.inflight ++ (memLanes g c f).map fun l =>
          { at_ := s.cycle + 5 + passes ((memLanes g c f).map fun l => memEa g c f l.1 l.2), deadline := s.cycle + lBound f, cls := memCls f
            reg := memDest f, slot := l.2, lane := l.1, val := extended (memTy f) (memScalar f) (bytes l), held := true, free := true }) ∧
  (∀ (s : State) (g : Group) (c : Crew) (f : Form), wellFormed (.sts f) = true → s.crew s.focus = some (g, c) → c.region.buf.length < 768 →
    let n := tyBytes (memTy f)
    memLanes g c f ≠ [] →
    (∀ l ∈ memLanes g c f, memEa g c f l.1 l.2 % n = 0 ∧ memEa g c f l.1 l.2 + n ≤ 393216 ∧ g.modeOf (memEa g c f l.1 l.2 / 32768) = some 1) →
    ∃ (t : State) (g' : Group) (c' : Crew), exec (.sts f) s = .next t ∧ t.mem = s.mem ∧ t.crew s.focus = some (g', c') ∧ g'.scratch = g.scratch ∧
      c'.pc = c.pc + (match f with | .bur b => (encodeBIns 0x53 b).length | _ => 0) ∧
      c'.region.buf = c.region.buf ++ [.sts ((memLanes g c f).map fun l =>
        (memEa g c f l.1 l.2, (List.range n).map (byteAt (memSrc g c f l.1 l.2))))]) ∧
  ∀ (s : State) (g : Group) (c : Crew) (b : BIns) (i : Instr), i ∈ [Instr.lds (.bur b), .sts (.bur b)] → wellFormed i = true →
    s.crew s.focus = some (g, c) → burLanes g c b.guard ≠ [] →
    (∀ l ∈ burLanes g c b.guard, let a := memEa g c (.bur b) l.1 l.2; let n := tyBytes (b.m1.toNat % 16)
      a % n ≠ 0 ∨ 393216 < a + n ∨ g.modeOf (a / 32768) ≠ some 1) →
    ∃ t, exec i s = .next t ∧ Latches s t g c .localBad ((burLanes g c b.guard).map fun l => (l.1, memEa g c (.bur b) l.1 l.2))

/-- PUSH makes one entry of 64 lanes, zero in the lanes that do not execute, tentative until the commit point, and takes a place of the
consumer's queue; a full queue blocks the crew, with nothing taken; a core without a consumer, or a crew that is not the producer, raises
FIFO_BAD (07 R151, R152). -/
def Sys2Proof.Claims.Pushes : Prop :=
  ∀ (s : State) (g : Group) (c : Crew) (f : Form), wellFormed (.push f) = true → s.crew s.focus = some (g, c) →
    (∀ (d : Nat) (h : Group), g.down = some d → s.sibling g d = some h → h.pcrew (fifoBank f) = c.ctx →
      ((h.queue (fifoBank f)).entries.length + (h.queue (fifoBank f)).inbound.length + (h.queue (fifoBank f)).unpublished < 128 →
        ∃ (t : State) (g' : Group) (c' : Crew) (e : List W32), exec (.push f) s = .next t ∧ t.mem = s.mem ∧ t.crew s.focus = some (g', c') ∧
          g' = { g with fifo := g'.fifo, running := some c' } ∧ (d ≠ s.focus → g'.fifo = g.fifo) ∧
          c' = { c with pc := c'.pc, skip := c'.skip, region := { c.region with pushed := c'.region.pushed } } ∧
          c'.region.pushed = c.region.pushed ++ [(fifoBank f, e)] ∧ e.length = 64 ∧
          (∀ i, i < 64 → (∀ l ∈ fifoLanes g c f, l.1 ≠ i) → e[i]? = some 0) ∧
          (∀ i, i < 64 → (∃ l ∈ fifoLanes g c f, l.1 = i) → ∃ l ∈ fifoLanes g c f, l.1 = i ∧ e[i]? = some (BitVec.ofNat 32 (memSrc g c f l.1 l.2))) ∧
          c'.pc = c.pc + (match f with | .bur b => (encodeBIns 0x57 b).length | _ => 0) ∧
          ∃ h', t.group d = some h' ∧ (d ≠ s.focus → h' = { h with fifo := h'.fifo }) ∧ (∀ b, b ≠ fifoBank f → h'.queue b = h.queue b) ∧ (h'.queue (fifoBank f)).unpublished = (h.queue (fifoBank f)).unpublished + 1 ∧
            (h'.queue (fifoBank f)).entries = (h.queue (fifoBank f)).entries) ∧
      (128 ≤ (h.queue (fifoBank f)).entries.length + (h.queue (fifoBank f)).inbound.length + (h.queue (fifoBank f)).unpublished →
        (c.region.pushed.filter fun p => p.1 = fifoBank f).length ≠ 128 →
        ∃ (t : State) (g' : Group) (c' : Crew), exec (.push f) s = .next t ∧ t.mem = s.mem ∧ t.crew s.focus = some (g', c') ∧
          g' = { g with running := some c' } ∧ c' = { c with hold := some (.fifoSpace (fifoBank f)) })) ∧
    ((g.down = none ∨ ∃ d h, g.down = some d ∧ s.sibling g d = some h ∧ h.pcrew (fifoBank f) ≠ c.ctx) → fifoLanes g c f ≠ [] →
      ∃ t, exec (.push f) s = .next t ∧ Latches s t g c .fifoBad ((fifoLanes g c f).map fun l => (l.1, 0)))

/-- POP takes the oldest published entry that the region has not taken, lane by lane; an empty queue blocks the crew; a bank that is no FIFO, or
a crew that is not its consumer, raises FIFO_BAD (07 R151, R152). -/
def Sys2Proof.Claims.Pops : Prop :=
  ∀ (s : State) (g : Group) (c : Crew) (f : Form), wellFormed (.pop f) = true → s.crew s.focus = some (g, c) →
    (g.modeOf (fifoBank f) = some 2 → g.ccrew (fifoBank f) = c.ctx →
      (∀ e, (g.queue (fifoBank f)).entries[(g.queue (fifoBank f)).taken]? = some e →
        ∃ (t : State) (g' : Group) (c' : Crew), exec (.pop f) s = .next t ∧ OutsideKept s t ∧ t.crew s.focus = some (g', c') ∧
          g' = { g with fifo := g'.fifo, x := g'.x, running := some c' } ∧ (∀ b, b ≠ fifoBank f → g'.queue b = g.queue b) ∧
          (g'.queue (fifoBank f)).taken = (g.queue (fifoBank f)).taken + 1 ∧ (g'.queue (fifoBank f)).entries = (g.queue (fifoBank f)).entries ∧
          c'.region.popped.get 0 (fifoBank f) = c.region.popped.get 0 (fifoBank f) + 1 ∧
          match f with
          | .bur b => c'.pc = c.pc + (encodeBIns 0x58 b).length ∧
              (∀ slot lane n, lane < 64 → n ≤ 2097151 → (n ≠ b.d ∨ (lane, slot) ∉ burLanes g c b.guard) → g'.getX slot lane n = g.getX slot lane n) ∧ ∀ l ∈ burLanes g c b.guard, g'.getX l.2 l.1 b.d = (e.getD l.1 0).setWidth 64
          | f => g'.x = g.x ∧ c'.inflight = c.inflight ++ (fifoLanes g c f).map fun l =>
              { at_ := s.cycle + 6, deadline := s.cycle + lBound f, cls := memCls f, reg := memDest f, slot := l.2, lane := l.1
                val := (e.getD l.1 0).setWidth 64 }) ∧
      ((g.queue (fifoBank f)).entries.length ≤ (g.queue (fifoBank f)).taken →
        ∃ (t : State) (g' : Group) (c' : Crew), exec (.pop f) s = .next t ∧ t.mem = s.mem ∧ t.crew s.focus = some (g', c') ∧
          g' = { g with running := some c' } ∧ c' = { c with hold := some (.fifoEntry (fifoBank f)) })) ∧
    ∀ b, f = .bur b → (g.modeOf (fifoBank f) ≠ some 2 ∨ g.ccrew (fifoBank f) ≠ c.ctx) → burLanes g c b.guard ≠ [] →
      ∃ t, exec (.pop f) s = .next t ∧ Latches s t g c .fifoBad ((burLanes g c b.guard).map fun l => (l.1, 0))

/-- SPL writes a register into the crew's spill area at issue, and FIL reads it back, to land 24 cycles on; area bytes that no lane names stay
as they were (07 R155, 03 R56). -/
def Sys2Proof.Claims.SpillsAndFills : Prop :=
  (∀ (s : State) (g : Group) (c : Crew) (d : LSlot), wellFormed (.spl d) = true → s.crew s.focus = some (g, c) →
    let place := fun (l : Nat × Nat) => if d.dv then l.2 * 16384 + 256 * (d.disp.toNat % 64) + 4 * l.1
      else c.ctx * 16384 + 256 * (d.disp.toNat % 64) + 8 * (d.disp.toNat / 64 % 32)
    let size := if d.dv then 4 else 8
    ∃ (t : State) (g' : Group) (c' : Crew), exec (.spl d) s = .next t ∧ OutsideKept s t ∧ t.crew s.focus = some (g', c') ∧ c' = c ∧ g' = { g with spill := g'.spill } ∧
      (∀ l ∈ memLanes g c (.l d), ∀ j, j < size → SMap.get 0 g'.spill (place l + j) =
        byteAt (if d.dv then (g.getV l.2 d.d.toNat l.1).toNat else (g.getS c.ctx d.d.toNat).toNat) j) ∧
      (∀ k, (∀ l ∈ memLanes g c (.l d), k < place l ∨ place l + size ≤ k) → SMap.get 0 g'.spill k = SMap.get 0 g.spill k)) ∧
  ∀ (s : State) (g : Group) (c : Crew) (d : LSlot), wellFormed (.fil d) = true → s.crew s.focus = some (g, c) →
    let place := fun (l : Nat × Nat) => if d.dv then l.2 * 16384 + 256 * (d.disp.toNat % 64) + 4 * l.1
      else c.ctx * 16384 + 256 * (d.disp.toNat % 64) + 8 * (d.disp.toNat / 64 % 32)
    ∃ (t : State) (g' : Group) (c' : Crew), exec (.fil d) s = .next t ∧ OutsideKept s t ∧ t.crew s.focus = some (g', c') ∧ OnlyInFlight g c g' c' ∧
      c'.inflight = c.inflight ++ (memLanes g c (.l d)).map fun l =>
        { at_ := s.cycle + 24, deadline := s.cycle + d.lat.toNat + 1, cls := if d.dv then .v else .s, reg := d.d.toNat, slot := l.2, lane := l.1
          val := BitVec.ofNat 64 (leNat ((List.range (if d.dv then 4 else 8)).map fun j => SMap.get 0 g.spill (place l + j))) }

/-- The transfer slot: XV gives every lane the low half of a scalar, XS takes one lane with or without its sign, XS.P the bits of the crew's lanes
of a predicate register, 0 for a lane that belongs to a live strand outside the crew, each 2 cycles on; BC writes nothing (07 R154, 03 R54,
09 R192). -/
def Sys2Proof.Claims.Transfers : Prop :=
  ∀ (s : State) (g : Group) (c : Crew), s.crew s.focus = some (g, c) →
    (∀ vd ss, ∃ (t : State) (g' : Group) (c' : Crew), exec (.xv vd ss) s = .next t ∧ OutsideKept s t ∧ t.crew s.focus = some (g', c') ∧ OnlyInFlight g c g' c' ∧
      c'.inflight = c.inflight ++ c.strands.map fun l =>
        { at_ := s.cycle + 2, deadline := s.cycle + 2, cls := .v, reg := vd.toNat, slot := l.2, lane := l.1
          val := BitVec.ofNat 64 ((g.getS c.ctx ss.toNat).toNat % 2 ^ 32) }) ∧
    (∀ sx sd vs lane, ∃ (t : State) (g' : Group) (c' : Crew), exec (.xs sx sd vs lane) s = .next t ∧ OutsideKept s t ∧ t.crew s.focus = some (g', c') ∧
      OnlyInFlight g c g' c' ∧
      let x := g.getV (laneSlot c lane.toNat) vs.toNat lane.toNat
      c'.inflight = c.inflight ++
        [{ at_ := s.cycle + 2, deadline := s.cycle + 2, cls := .s, reg := sd.toNat, slot := 0, lane := 0
           val := if sx then BitVec.ofInt 64 x.toInt else BitVec.ofNat 64 x.toNat }]) ∧
    (∀ sd pk, ∃ (t : State) (g' : Group) (c' : Crew) (v : W64), exec (.xsP sd pk) s = .next t ∧ OutsideKept s t ∧ t.crew s.focus = some (g', c') ∧
      OnlyInFlight g c g' c' ∧
      c'.inflight = c.inflight ++ [{ at_ := s.cycle + 2, deadline := s.cycle + 2, cls := .s, reg := sd.toNat, slot := 0, lane := 0, val := v }] ∧
      ∀ i, i < 64 → v.getLsbD i = ((ownLanes g c).contains (i, laneSlot c i) && g.getP (laneSlot c i) pk.toNat i)) ∧
    ∀ ss, exec (.bc ss) s = .next s

/-- ATOM and CAS up to the commit point: every executing lane's access is noted with its operands, in lane order, a commit point is due after
the instruction, and nothing is written before it; a place that the scope has not raises ATOM_BAD (11 R231 to R233). -/
def Sys2Proof.Claims.AtomicsWaitForTheCommitPoint : Prop :=
  ∀ (s : State) (g : Group) (c : Crew) (f : Form) (cas : Bool) (p : Nat × Nat → Phys),
    let i := if cas then Instr.cas f else .atom f
    let n := tyBytes (memTy f)
    let at_ := fun (l : Nat × Nat) => ({ lane := l.1, slot := l.2, va := atomEa g c f l.1 l.2, pa := (p l).pa, widx := (p l).widx, page := (p l).page } : LaneAcc)
    wellFormed i = true → s.crew s.focus = some (g, c) →
    (∀ l ∈ memLanes g c f, atomEa g c f l.1 l.2 % n = 0 ∧ translate s.focus (s.asidOf g) (atomEa g c f l.1 l.2) .write s = (s, .ok (p l))) →
    ((∀ l ∈ memLanes g c f, atomPlaceBad cas (atomOp f) (memTy f) (atomScope f) (at_ l) = false) →
      ∃ (t : State) (g' : Group) (c' : Crew), exec i s = .next t ∧ t.mem = s.mem ∧ t.crew s.focus = some (g', c') ∧ c'.region.due = true ∧
        c'.region.ops = c.region.ops ++ [.atom cas (BitVec.ofNat 4 (atomOp f)) (BitVec.ofNat 4 (memTy f)) (BitVec.ofNat 3 (atomScope f)) (memCls f) (memDest f)
          ((memLanes g c f).map fun l => (at_ l, atomVals cas g c f l.1 l.2))] ∧
        c'.pc = c.pc + (match f with | .bur b => (encodeBIns (if cas then 0x5A else 0x59) b).length | _ => 0)) ∧
    ∀ b, f = .bur b → memLanes g c f ≠ [] → (∀ l ∈ memLanes g c f, atomPlaceBad cas (atomOp f) (memTy f) (atomScope f) (at_ l) = true) →
      ∃ (t : State) (ls : List (Nat × Nat)), exec i s = .next t ∧ Latches s t g c .atomBad ls ∧ ls.map Prod.fst = (memLanes g c f).map Prod.fst

/-- What ATOM and CAS make of an old value (R233): the operation on the type's width, CAS writing where the old value equals the compare value. -/
def Sys2Proof.Claims.AtomicResults : Prop :=
  (∀ op ty v old, ty ∈ [0, 1, 2, 3, 7, 8] → op ≤ 6 → old < 2 ^ tyWidth ty →
    atomNew false op ty v 0 old = some (
      if op = 0 then (low ty old + low ty v).toNat else if op = 1 then W ty (min (N ty old) (N ty v))
      else if op = 2 then W ty (max (N ty old) (N ty v)) else if op = 3 then (low ty old &&& low ty v).toNat
      else if op = 4 then (low ty old ||| low ty v).toNat else if op = 5 then (low ty old ^^^ low ty v).toNat else (low ty v).toNat)) ∧
  ∀ ty v w old, old < 2 ^ tyWidth ty → atomNew true 0 ty v w old = if low ty old = low ty v then some (low ty w).toNat else none

/-! ## Ordering, recovery and special registers (12 R246 to R255, 13 R271, R274, 15 R321 to R324) -/

/-- REL, FENCE, SEAL and GATE are noted for the commit point that stands after them. REL of one object is noted for one strand that names it; where
more name it, the crew stays at the instruction for the others, whose count an ATOM.ADD adds at a commit point of its own, before the next
object's (12 R248, R251, R254; 13 R271, R274). -/
def Sys2Proof.Claims.OrderingIsNoted : Prop :=
  ∀ (s : State) (g : Group) (c : Crew) (f : Form), s.crew s.focus = some (g, c) → crewExecutes g c f = true →
    let notes := fun (i : Instr) (op : Nat) (o : CommitOp) =>
      ∃ (t : State) (g' : Group) (c' : Crew), exec i s = .next t ∧ t.mem = s.mem ∧ t.crew s.focus = some (g', c') ∧ c'.region.due = true ∧
        c'.region.ops = c.region.ops ++ [o] ∧ c'.pc = c.pc + (match f with | .bur b => (encodeBIns op b).length | _ => 0)
    (wellFormed (.fence f) = true → notes (.fence f) 0x62 (.fence (BitVec.ofNat 3 (syncScope f)) (syncSc f))) ∧
    (wellFormed (.seal f) = true → c.handler = false → notes (.seal f) 0x68 .seal) ∧
    (wellFormed (.gate f) = true → notes (.gate f) 0x69 (.gate (gateNum f) c.pc)) ∧
    ∀ (va : Nat) (p : Phys), wellFormed (.rel f) = true →
      (((syncObjs g c f).find? fun o => namedBefore g c f o.2.2).orElse fun _ => (syncObjs g c f).head?).map (fun o => o.2.2) = some va → va % 8 = 0 → translate s.focus (s.asidOf g) va .write s = (s, .ok p) →
      atomBad (syncScope f) p.pa p.widx false 0 8 = false →
      ∃ (l : LaneAcc) (t : State) (g' : Group) (c' : Crew), l.va = va ∧ l.pa = p.pa ∧ l.widx = p.widx ∧ exec (.rel f) s = .next t ∧ t.mem = s.mem ∧
        t.crew s.focus = some (g', c') ∧ c'.region.due = true ∧
        let others := (syncObjs g c f).filter fun o => o.2.2 = va
        let now := if namedBefore g c f va then others else others.take 1
        c'.region.ops = c.region.ops ++ [if namedBefore g c f va then .add (BitVec.ofNat 3 (syncScope f)) l others.length
          else .rel (BitVec.ofNat 3 (syncScope f)) [(l, 1)]] ∧
        (now.length = (syncObjs g c f).length → c'.pc = c.pc + (match f with | .bur b => (encodeBIns 0x61 b).length | _ => 0)) ∧
        (now.length ≠ (syncObjs g c f).length → c'.pc = c.pc ∧ ∀ i, c'.skip.contains i = (c.skip.contains i || decide (∃ o ∈ now, o.1 = i)))

/-- ACQ waits until every load, atomic, TLR and command-number result of its crew has landed, those of LDC and LDS apart (R242), and then: at crew and
group scope it only moves on; at a wider scope, or of a window's object, the crew waits 32 core cycles more, and the clean lines that the object's
bindings cover, or all of them where it has none, have left the private cache (12 R249). -/
def Sys2Proof.Claims.Acquires : Prop :=
  ∀ (s : State) (g : Group) (c : Crew) (f : Form), wellFormed (.acq f) = true → s.crew s.focus = some (g, c) →
    (crewExecutes g c f = true → c.mem ≠ [] ∨ c.accepting ≠ [] ∨ (∃ l ∈ c.inflight, l.held = true ∧ l.free = false ∧ s.cycle < l.at_) → ∃ (t : State) (g' : Group), exec (.acq f) s = .next t ∧ t.mem = s.mem ∧
      t.crew s.focus = some (g', { c with hold := some (.acquire s.cycle) })) ∧
    (∀ p : Nat × Nat → Phys, crewExecutes g c f = false ∨ c.unlanded s.cycle = false →
      (∀ o ∈ syncObjs g c f, o.2.2 % 8 = 0 ∧ translate s.focus (s.asidOf g) o.2.2 .read s = (s, .ok (p (o.1, o.2.1))) ∧
        atomBad (syncScope f) (p (o.1, o.2.1)).pa (p (o.1, o.2.1)).widx false 0 8 = false) → (∀ l ∈ (s.core s.focus).cache, l.dirty = 0) →
      ∃ (t : State) (g' : Group) (c' : Crew), exec (.acq f) s = .next t ∧ t.mem = s.mem ∧ t.crew s.focus = some (g', c') ∧ g' = { g with running := some c' } ∧
        c'.hold = (if syncObjs g c f ≠ [] ∧ (2 ≤ syncScope f ∨ ∃ o ∈ syncObjs g c f, (p (o.1, o.2.1)).widx ≠ 0) then some (.acquire (s.cycle + 32)) else c.hold) ∧
        c'.pc = c.pc + (match f with | .bur b => (encodeBIns 0x60 b).length | _ => 0)) ∧
    ∀ (va : Nat) (p : Phys), c.unlanded s.cycle = false → 2 ≤ syncScope f → syncObjs g c f ≠ [] → (∀ o ∈ syncObjs g c f, o.2.2 = va) → va % 8 = 0 →
      translate s.focus (s.asidOf g) va .read s = (s, .ok p) → p.widx = 0 → atomBad (syncScope f) p.pa 0 false 0 8 = false →
      (∀ l ∈ (s.core s.focus).cache, l.dirty = 0) →
      ∃ (t : State) (g' : Group) (c' : Crew), exec (.acq f) s = .next t ∧ t.mem = s.mem ∧ t.crew s.focus = some (g', c') ∧
        (t.core s.focus).cache = (if (s.ctx (s.asidOf g)).binds.any (fun b => b.1 = va) then
          (s.core s.focus).cache.filter (fun l => !covered s (s.asidOf g) va l) else []) ∧
        g' = { g with running := some c' } ∧
        c'.hold = some (.acquire (s.cycle + 32)) ∧ c'.pc = c.pc + (match f with | .bur b => (encodeBIns 0x60 b).length | _ => 0)

/-- BIND and UNBIND: each distinct binding, or unbound object, of the executing strands or of the slot is buffered with the region's stores, and BIND
keeps a place of the context's table for each; an object that is no multiple of 8, an empty span, one above 2^48 bytes or one beyond 2^56 raises
SYNC_BAD (12 R247). -/
def Sys2Proof.Claims.Bindings : Prop :=
  (∀ (s : State) (g : Group) (c : Crew) (f : Form), wellFormed (.bind f) = true → s.crew s.focus = some (g, c) →
    (∀ o ∈ bindOps g c f, o.2.1 % 8 = 0 ∧ 0 < o.2.2.2 ∧ o.2.2.2 ≤ 2 ^ 48 ∧ o.2.2.1 + o.2.2.2 ≤ 2 ^ 56) →
    (s.ctx (s.asidOf g)).binds.length + (s.ctx (s.asidOf g)).bindRes + (bindOps g c f).length ≤ 1024 → c.region.buf.length + (bindOps g c f).length ≤ 768 →
    ∃ (t : State) (g' : Group) (c' : Crew) (es : List BufEntry), exec (.bind f) s = .next t ∧ t.mem = s.mem ∧ t.crew s.focus = some (g', c') ∧
      g' = { g with running := some c' } ∧ c' = { c with pc := c.pc + (match f with | .bur b => (encodeBIns 0x63 b).length | _ => 0)
                                                         skip := c'.skip, region := { c.region with buf := c.region.buf ++ es } } ∧
      (∀ e, e ∈ es ↔ ∃ o ∈ bindOps g c f, e = .bind (o.2.1 % 2 ^ 56) o.2.2.1 o.2.2.2) ∧ es.length ≤ (bindOps g c f).length ∧
      (t.ctx (s.asidOf g)).bindRes = (s.ctx (s.asidOf g)).bindRes + es.length ∧ (t.ctx (s.asidOf g)).binds = (s.ctx (s.asidOf g)).binds) ∧
  (∀ (s : State) (g : Group) (c : Crew) (f : Form), wellFormed (.unbind f) = true → s.crew s.focus = some (g, c) →
    (∀ o ∈ syncObjs g c f, o.2.2 % 8 = 0) → c.region.buf.length + (syncObjs g c f).length ≤ 768 →
    ∃ (t : State) (g' : Group) (c' : Crew) (es : List BufEntry), exec (.unbind f) s = .next t ∧ t.mem = s.mem ∧ t.crew s.focus = some (g', c') ∧
      g' = { g with running := some c' } ∧ c' = { c with pc := c.pc + (match f with | .bur b => (encodeBIns 0x64 b).length | _ => 0)
                                                         skip := c'.skip, region := { c.region with buf := c.region.buf ++ es } } ∧
      (∀ e, e ∈ es ↔ ∃ o ∈ syncObjs g c f, e = .unbind o.2.2) ∧ es.length ≤ (syncObjs g c f).length) ∧
  ∀ (s : State) (g : Group) (c : Crew) (b : BIns) (l : Nat × Nat), s.crew s.focus = some (g, c) → burLanes g c b.guard = [l] →
    c.region.buf.length < 768 →
    let o := (g.getX l.2 l.1 b.a).toNat
    let base := (g.getX l.2 l.1 b.b).toNat
    let len := (g.getX l.2 l.1 b.c).toNat
    (wellFormed (.bind (.bur b)) = true → o % 8 = 0 → 0 < len → len ≤ 2 ^ 48 → base + len ≤ 2 ^ 56 →
      (s.ctx (s.asidOf g)).binds.length + (s.ctx (s.asidOf g)).bindRes < 1024 →
      ∃ (t : State) (g' : Group) (c' : Crew), exec (.bind (.bur b)) s = .next t ∧ t.mem = s.mem ∧ t.crew s.focus = some (g', c') ∧
        c'.region.buf = c.region.buf ++ [.bind (o % 2 ^ 56) base len] ∧ c'.pc = c.pc + (encodeBIns 0x63 b).length ∧
        (t.ctx (s.asidOf g)).bindRes = (s.ctx (s.asidOf g)).bindRes + 1 ∧ (t.ctx (s.asidOf g)).binds = (s.ctx (s.asidOf g)).binds) ∧
    (wellFormed (.bind (.bur b)) = true → (o % 8 ≠ 0 ∨ len = 0 ∨ 2 ^ 48 < len ∨ 2 ^ 56 < base + len) →
      ∃ t, exec (.bind (.bur b)) s = .next t ∧ Latches s t g c .syncBad [(l.1, 0)]) ∧
    (wellFormed (.unbind (.bur b)) = true → o % 2 ^ 56 % 8 = 0 →
      ∃ (t : State) (g' : Group) (c' : Crew), exec (.unbind (.bur b)) s = .next t ∧ t.mem = s.mem ∧ t.crew s.focus = some (g', c') ∧
        c'.region.buf = c.region.buf ++ [.unbind (o % 2 ^ 56)] ∧ c'.pc = c.pc + (encodeBIns 0x64 b).length) ∧
    (wellFormed (.unbind (.bur b)) = true → o % 2 ^ 56 % 8 ≠ 0 →
      ∃ t, exec (.unbind (.bur b)) s = .next t ∧ Latches s t g c .syncBad [(l.1, 0)])

/-- CSRR gives every executing strand, or s(d) after 4 cycles, the value of the register that it names; the values of a selection of them are
spelt out, FPF with the flags that the region has raised (15 R322, Table 15.6, 08 R163). -/
def Sys2Proof.Claims.SpecialReads : Prop :=
  (∀ (s : State) (g : Group) (c : Crew) (f : Form), wellFormed (.csrr f) = true → s.crew s.focus = some (g, c) →
    ∃ (t : State) (g' : Group) (c' : Crew), exec (.csrr f) s = .next t ∧ t.mem = s.mem ∧ t.crew s.focus = some (g', c') ∧
      match f with
      | .bur b => c'.pc = c.pc + (encodeBIns 0xE0 b).length ∧
          ∀ l ∈ burLanes g c b.guard, g'.getX l.2 l.1 b.d = BitVec.ofNat 64 (csrValue s s.focus g c b.n1 l.1 l.2)
      | .s d => c'.inflight = c.inflight ++ (if qGuard g c d.gq.toNat d.ge d.gn then
          [{ at_ := s.cycle + 4, deadline := s.cycle + d.lat.toNat + 1, cls := .s, reg := d.sd.toNat, slot := 0, lane := 0
             val := BitVec.ofNat 64 (csrValue s s.focus g c (d.imx.toNat % 2 ^ 16) 0 0) }] else [])
      | _ => False) ∧
  ∀ (s : State) (k : Nat) (g : Group) (c : Crew) (lane slot : Nat),
    let v := fun n => csrValue s k g c n lane slot
    let x := s.ctx (s.asidOf g)
    v 0x00 = g.clk + (s.now / 2 - g.since) ∧
    (c.region.fpfWrite = none → v 0x08 = ((g.ctxs.get {} c.ctx).fpf ||| c.region.raised).toNat) ∧
    v 0x10 = (s.launch g.launch).q * 2 ^ 32 + (s.launch g.launch).lidx ∧ v 0x11 = g.cluster ∧ v 0x12 = (s.launch g.launch).grid ∧
    v 0x15 = s.svc.pkgId.toNat ∧ (∀ j, j < 4 → v (0x20 + j) = x.evv.toNat / 2 ^ (64 * j) % 2 ^ 64) ∧ v 0x30 = x.ulc.toNat ∧ v 0x31 = x.rpn ∧
    v 0x32 = x.rps.toNat ∧ v 0x33 = x.rph ∧ (∀ j, j < 4 → v (0x34 + j) = x.rpc.toNat / 2 ^ (64 * j) % 2 ^ 64) ∧ v 0x38 = x.ult ∧ v 0x39 = x.uld ∧
    v 0x3A = x.ugn.toNat ∧ (c.region.buf = [] → v 0x40 = ((c.region.csr0.map Prod.fst).getD g.bkm).toNat) ∧ v 0x42 = g.fdn.toNat ∧
    (∀ j, j < 4 → v (0x60 + j) = ((g.ctxs.get {} c.ctx).a.get 0 j).toNat) ∧ v 0x70 = slot * 64 + lane

/-- CSRW takes the lowest-numbered executing strand's value, or s(SA): FPF waits for the commit point, FCB and a legal BKM are buffered with the
region's stores, an illegal BKM raises BANK_BAD, and ADR + k lands one cycle on; where nothing executes, nothing is written (15 R323, 07 R143,
R150). -/
def Sys2Proof.Claims.SpecialWrites : Prop :=
  (∀ (s : State) (g : Group) (c : Crew) (f : Form), s.crew s.focus = some (g, c) → csrwVal g c f = none →
    (∀ i ∈ [Instr.csrwFpf f, .csrwFcb f, .csrwBkm f], wellFormed i = true → ∃ (t : State) (g' : Group) (c' : Crew), exec i s = .next t ∧ OutsideKept s t ∧
      t.crew s.focus = some (g', c') ∧ g' = { g with running := some c' } ∧ c'.region = c.region ∧ c'.inflight = c.inflight ∧
      c'.pc = c.pc + (match f with | .bur b => (encodeBIns 0xE1 b).length | _ => 0)) ∧
    ∀ d, f = .s d → wellFormed (.csrwAdr d) = true → exec (.csrwAdr d) s = .next s) ∧
  ∀ (s : State) (g : Group) (c : Crew) (f : Form) (lane : Nat) (v : W64), s.crew s.focus = some (g, c) → csrwVal g c f = some (lane, v) →
    let moved := fun (c' : Crew) => c'.pc = c.pc + (match f with | .bur b => (encodeBIns 0xE1 b).length | _ => 0)
    (wellFormed (.csrwFpf f) = true → ∃ (t : State) (g' : Group) (c' : Crew), exec (.csrwFpf f) s = .next t ∧ t.mem = s.mem ∧
      t.crew s.focus = some (g', c') ∧ moved c' ∧ c'.region.fpfWrite = some (v.setWidth 5) ∧ (g'.ctxs.get {} c.ctx).fpf = (g.ctxs.get {} c.ctx).fpf) ∧
    (wellFormed (.csrwFcb f) = true → c.region.buf.length < 768 → ∃ (t : State) (g' : Group) (c' : Crew), exec (.csrwFcb f) s = .next t ∧ t.mem = s.mem ∧
      t.crew s.focus = some (g', c') ∧ moved c' ∧ c'.region.buf = c.region.buf ++ [.fcb (csrNum f - 0x50) v] ∧ g'.fcb = g.fcb) ∧
    (wellFormed (.csrwBkm f) = true → c.region.buf.length < 768 → (∀ b, b < 12 → v.toNat / 4 ^ b % 4 ≠ 3) →
      ∃ (t : State) (g' : Group) (c' : Crew), exec (.csrwBkm f) s = .next t ∧ t.mem = s.mem ∧ t.crew s.focus = some (g', c') ∧ moved c' ∧
        c'.region.buf = c.region.buf ++ [.bkm v] ∧ g'.bkm = g.bkm) ∧
    (wellFormed (.csrwBkm f) = true → (∃ b, b < 12 ∧ v.toNat / 4 ^ b % 4 = 3) →
      ∃ t, exec (.csrwBkm f) s = .next t ∧ Latches s t g c .bankBad [(lane, 0)]) ∧
    ∀ d, f = .s d → wellFormed (.csrwAdr d) = true → ∃ (t : State) (g' : Group) (c' : Crew), exec (.csrwAdr d) s = .next t ∧ OutsideKept s t ∧
      t.crew s.focus = some (g', c') ∧ OnlyInFlight g c g' c' ∧ c'.inflight = c.inflight ++
        [{ at_ := s.cycle + 1, deadline := s.cycle + 1, cls := .a, reg := d.imx.toNat % 2 ^ 16 - 0x60, slot := 0, lane := 0
           val := BitVec.ofNat 64 (v.toNat % 2 ^ 48) }]

/-! ## Engines (06 R120 to R133, R137) -/

/-- CPY, CPY2, GATH and COLL of a crew with its full mask: the command takes the next number of the context's engine queue and the last place in
it, and the number goes to the destination; release waits for the commit point; a partial mask raises PARTIAL_MASK, and operands that acceptance
refuses raise its fault, with no command made (06 R120, R121, R127 to R129, R137). -/
def Obligations.EngineCommands : Prop :=
  ∀ e ∈ [((Instr.cpy, 0x70, 0, 4) : (Form → Instr) × Nat × Nat × Nat), (.cpy2, 0x71, 0, 5), (.gath, 0x72, 0, 5), (.coll, 0x73, 1, 2)],
  ∀ (s : State) (g : Group) (c : Crew) (f : Form), wellFormed (e.1 f) = true → s.crew s.focus = some (g, c) → crewExecutes g c f = true →
    let op := e.2.1
    let cls := e.2.2.1
    let cnt := e.2.2.2
    let v := engOperand g c f (engRegs f)
    let o : EngOps := { dst := v 1, src := v 2, c := if 3 < cnt then v 3 else 0, e := if 4 < cnt then v 4 else 0, fw := if op ≠ 0x73 ∧ engFlag f then some (v cnt) else none }
    let key := engKey (s.asidOf g) cls (s.focus / 128)
    let whole := fullCrew s g c = true ∧ ∀ b, f = .bur b → (burLanes g c b.guard).length = c.strands.length
    (whole → acceptFault s g s.focus op o = none → (s.eng key).queue.length < 256 → (s.eng key).waiting = [] → c.region.buf.length < 768 →
      ∃ (t : State) (g' : Group) (c' : Crew) (x : EngCmd), exec (e.1 f) s = .next t ∧ t.mem = s.mem ∧ t.crew s.focus = some (g', c') ∧
        (t.eng key).last = (s.eng key).last + 1 ∧ (t.eng key).queue = (s.eng key).queue ++ [x] ∧ (t.eng key).counter = (s.eng key).counter ∧
        x.num = (s.eng key).last + 1 ∧ x.op = op ∧ x.core = s.focus ∧ x.launch = g.launch ∧ x.dst = v 1 ∧ x.src = v 2 ∧ x.released = false ∧ x.started = false ∧
        (∀ k, k ≠ key → t.eng k = s.eng k) ∧ g' = { g with x := g'.x, running := some c' } ∧
        c'.region.buf = c.region.buf ++ [.engine cls ((s.eng key).last + 1)] ∧
        match f with
        | .bur b => c'.pc = c.pc + (encodeBIns op b).length ∧ (∀ l ∈ c.strands, g'.getX l.2 l.1 b.d = BitVec.ofNat 64 ((s.eng key).last + 1)) ∧
            ∀ slot lane n, lane < 64 → n ≤ 2097151 → (n ≠ b.d ∨ (lane, slot) ∉ c.strands) → g'.getX slot lane n = g.getX slot lane n
        | .l d => c'.inflight = c.inflight ++ [{ at_ := s.cycle + 16, deadline := s.cycle + d.lat.toNat + 1, cls := .s, reg := d.d.toNat, slot := 0, lane := 0
                                                 val := BitVec.ofNat 64 ((s.eng key).last + 1), held := true }]
        | _ => False) ∧
    (whole → acceptFault s g s.focus op o = none → (s.eng key).queue.length = 256 → (s.focus, c.ctx) ∉ (s.eng key).waiting →
      ∃ (t : State) (g' : Group) (c' : Crew), exec (e.1 f) s = .next t ∧ t.mem = s.mem ∧ t.crew s.focus = some (g', c') ∧
        (t.eng key).waiting = (s.eng key).waiting ++ [(s.focus, c.ctx)] ∧ (t.eng key).queue = (s.eng key).queue ∧ (t.eng key).last = (s.eng key).last ∧
        c'.pc = c.pc ∧ c'.region = c.region ∧ (∀ b, f = .bur b → c' = c) ∧
        ∀ d, f = .l d → ∃ x, c'.accepting = c.accepting ++ [{ cmd := x, cls := cls, reg := d.d.toNat, deadline := s.cycle + d.lat.toNat + 1 }] ∧
          x.op = op ∧ x.core = s.focus ∧ x.launch = g.launch ∧ x.dst = v 1 ∧ x.src = v 2) ∧
    (c.strands ≠ [] → ¬whole → ∃ t, exec (e.1 f) s = .next t ∧ t.pkg = s.pkg ∧ Latches s t g c .partialMask (c.strands.map fun l => (l.1, 0))) ∧
    ∀ k, whole → acceptFault s g s.focus op o = some k →
      ∃ t, exec (e.1 f) s = .next t ∧ t.pkg = s.pkg ∧ Latches s t g c k (c.strands.map fun l => (l.1, 0))

/-- TLR reads the timeline counter; TLW of a number that the counter has reached is an acquire that holds the crew 32 cycles, of a later one
blocks it, and of one beyond the last number raises TL_BAD (06 R132, R133). -/
def Obligations.Timelines : Prop :=
  ∀ (s : State) (g : Group) (c : Crew) (f : Form), s.crew s.focus = some (g, c) →
    let e := s.eng (engKey (s.asidOf g) (tlClass f) (s.focus / 128))
    let n := engOperand g c f (fun _ => match f with | .bur b => b.a | _ => 0) 0
    (wellFormed (.tlr f) = true → ∃ (t : State) (g' : Group) (c' : Crew), exec (.tlr f) s = .next t ∧ t.mem = s.mem ∧ t.pkg = s.pkg ∧
      t.crew s.focus = some (g', c') ∧
      match f with
      | .bur b => c'.pc = c.pc + (encodeBIns 0x75 b).length ∧ ∀ l ∈ burLanes g c b.guard, g'.getX l.2 l.1 b.d = BitVec.ofNat 64 e.counter
      | .l d => c'.inflight = c.inflight ++ (if qGuard g c (d.gp.toNat % 4) d.ge d.gn then
          [{ at_ := s.cycle + 8, deadline := s.cycle + d.lat.toNat + 1, cls := .s, reg := d.d.toNat, slot := 0, lane := 0, val := BitVec.ofNat 64 e.counter
             held := true }] else [])
      | _ => False) ∧
    (wellFormed (.tlw f) = true → crewExecutes g c f = true → n ≤ e.last → n ≤ e.counter → (∀ l ∈ (s.core s.focus).cache, l.dirty = 0) →
      ∃ (t : State) (g' : Group) (c' : Crew), exec (.tlw f) s = .next t ∧ t.mem = s.mem ∧ t.crew s.focus = some (g', c') ∧
        (t.core s.focus).cache = [] ∧ g' = { g with running := some c' } ∧ c' = { c with pc := c'.pc, skip := c'.skip, hold := some (.acquire (s.cycle + 32)) } ∧
        c'.pc = c.pc + (match f with | .bur b => (encodeBIns 0x74 b).length | _ => 0)) ∧
    (wellFormed (.tlw f) = true → crewExecutes g c f = true → n ≤ e.last → e.counter < n →
      ∃ (t : State) (g' : Group), exec (.tlw f) s = .next t ∧ OutsideKept s t ∧ g' = { g with running := g'.running } ∧ t.crew s.focus = some (g', { c with hold := some (.timeline (tlClass f) n) })) ∧
    (wellFormed (.tlw f) = true → crewExecutes g c f = true → e.last < n → c.strands ≠ [] →
      ∃ t, exec (.tlw f) s = .next t ∧ Latches s t g c .tlBad (c.strands.map fun l => (l.1, 0)))

/-! ## Control flow (14 R292 to R308; 03 R57, R64; 18 R363, R366) -/

namespace Sys2Proof.Claims

/-- An operation noted for the commit point that it asks for: only the crew's region and place change (03 R57). -/
def Noted (i : Instr) (s : State) (g : Group) (c : Crew) (ops : List CommitOp) (n : Nat) : Prop :=
  ∃ (t : State) (g' : Group) (c' : Crew), exec i s = .next t ∧ OutsideKept s t ∧ t.crew s.focus = some (g', c') ∧
    g' = { g with running := some c' } ∧ c' = { c with pc := c.pc + n, skip := c'.skip, region := { c.region with ops := c.region.ops ++ ops, due := true } }

/-- The commit operation of a terminator: every strand with its successor; one that was to skip the terminator ends (log 12). -/
def sends (c : Crew) (h : Nat × Nat → Nat) : List CommitOp :=
  [.send (c.strands.map fun l => (l.1, l.2, if l.1 ∈ c.skip then 0xFFFFFFFF else h l))]

end Sys2Proof.Claims

/-- Terminators, segment ends, barriers and commit marks are noted for the commit point, each with its successors; a NEXT.IX index that is not
below its count, and an RFT outside a handler, raise BAD_SUCCESSOR; a barrier in a handler ends its kernel (14 R292, R294, R301; 18 R363, R366;
that a strand which skips a terminator ends is the model's reading, log 12). -/
def Obligations.SegmentEnds : Prop :=
  ∀ (s : State) (g : Group) (c : Crew), s.crew s.focus = some (g, c) →
    (∀ b, wellFormed (.next b) = true → Noted (.next b) s g c (sends c fun _ => b.n1) (encodeBIns 0xC0 b).length) ∧
    (∀ b, wellFormed (.nextC b) = true →
      Noted (.nextC b) s g c (sends c fun l => if g.getC l.2 l.1 b.c then b.n1 else b.n2) (encodeBIns 0xC1 b).length) ∧
    (∀ b, wellFormed (.nextIx b) = true →
      let v := fun (l : Nat × Nat) => (g.getX l.2 l.1 b.a).toNat % 2 ^ 32
      let bad := c.strands.filter fun l => decide (l.1 ∉ c.skip ∧ b.n2 ≤ v l)
      (bad = [] → Noted (.nextIx b) s g c (sends c fun l => b.n1 + v l) (encodeBIns 0xC2 b).length) ∧
      (bad ≠ [] → ∃ t, exec (.nextIx b) s = .next t ∧ Latches s t g c .badSuccessor (bad.map fun l => (l.1, 0)))) ∧
    (∀ b, wellFormed (.exit b) = true → Noted (.exit b) s g c (sends c fun _ => 0xFFFFFFFF) (encodeBIns 0xC3 b).length) ∧
    (∀ d, wellFormed (.send d) = true →
      Noted (.send d) s g c [.send (c.strands.map fun l => (l.1, l.2, (g.getV l.2 (d.opnd.toNat / 2 ^ 14) l.1).toNat))] 0) ∧
    (∀ d, wellFormed (.halt d) = true → Noted (.halt d) s g c [.halt] 0) ∧
    (∀ d, wellFormed (.cmt d) = true → Noted (.cmt d) s g c [] 0) ∧
    (∀ d, wellFormed (.cmtSwap d) = true →
      Noted (.cmtSwap d) s g c [.swap (d.opnd.toNat / 2 ^ 15 % 16) (d.opnd.toNat / 2 ^ 11 % 16)] 0) ∧
    (c.handler = true → (∀ b, wellFormed (.rft b) = true → Noted (.rft b) s g c [.rft] (encodeBIns 0xC4 b).length) ∧
      (∀ d, wellFormed (.rftNative d) = true → Noted (.rftNative d) s g c [.rft] 0)) ∧
    (c.handler = false → (∀ b, wellFormed (.barG b) = true → Noted (.barG b) s g c [.bar false] (encodeBIns 0xC8 b).length) ∧
      (∀ b, wellFormed (.barK b) = true → Noted (.barK b) s g c [.bar true] (encodeBIns 0xC9 b).length) ∧
      (∀ d, wellFormed (.barGNative d) = true → Noted (.barGNative d) s g c [.bar false] 0) ∧
      (∀ d, wellFormed (.barKNative d) = true → Noted (.barKNative d) s g c [.bar true] 0)) ∧
    (c.handler = false → c.strands ≠ [] → ∀ i, ((∃ b, i = .rft b) ∨ ∃ d, i = .rftNative d) → wellFormed i = true →
      ∃ t, exec i s = .next t ∧ Latches s t g c .badSuccessor (c.strands.map fun l => (l.1, 0))) ∧
    (c.handler = true → ∀ i, ((∃ b, i = .barG b ∨ i = .barK b) ∨ ∃ d, i = .barGNative d ∨ i = .barKNative d) → wellFormed i = true →
      ∃ (t : State) (g' : Group) (c' : Crew) (f : FaultRec), exec i s = .next t ∧ t.mem = s.mem ∧ t.crew s.focus = some (g', c') ∧
        c'.region.latched = some f ∧ f.kind = .handlerFault ∧ routeOf f = .kill ∧ c'.region.due = true)

/-- YIELD marks the crew to pass its turn. TRAP latches its code in the strands that execute it. BRK latches BRK where a debugger is attached and
did not let the crew pass it; with none attached it is counted in its function and partition and passed (14 R302, R303; 21 R404). -/
def Obligations.YieldsAndTraps : Prop :=
  ∀ (s : State) (g : Group) (c : Crew), s.crew s.focus = some (g, c) →
    let moves := fun (i : Instr) (y : Bool) (n : Nat) => ∃ (t : State) (g' : Group) (c' : Crew), exec i s = .next t ∧ t.mem = s.mem ∧
      t.crew s.focus = some (g', c') ∧ g' = { g with running := some c' } ∧ c' = { c with yielded := y, skip := c'.skip, pc := c.pc + n }
    let codes := fun (i : Instr) (k : Trap) (n : Nat) (ls : List (Nat × Nat)) => ∃ t, exec i s = .next t ∧ Latches s t g c k (ls.map fun l => (l.1, 0)) ∧
      (c.region.latched = none → ∃ (g' : Group) (c' : Crew) (f : FaultRec), t.crew s.focus = some (g', c') ∧ c'.region.latched = some f ∧ f.code = n)
    (∀ b, wellFormed (.yield_ b) = true → burLanes g c b.guard ≠ [] → moves (.yield_ b) true (encodeBIns 0xCA b).length) ∧
    (∀ b, wellFormed (.yield_ b) = true → burLanes g c b.guard = [] → moves (.yield_ b) c.yielded (encodeBIns 0xCA b).length) ∧
    (∀ d, wellFormed (.yieldNative d) = true → moves (.yieldNative d) true 0) ∧
    (∀ b, wellFormed (.trap (.bur b)) = true → burLanes g c b.guard ≠ [] → codes (.trap (.bur b)) .trapOp b.n1 (burLanes g c b.guard)) ∧
    (∀ b, wellFormed (.trap (.bur b)) = true → burLanes g c b.guard = [] → moves (.trap (.bur b)) c.yielded (encodeBIns 0xCB b).length) ∧
    (∀ d, wellFormed (.trap (.b d)) = true → qGuard g c d.gq.toNat d.ge d.gn = true → codes (.trap (.b d)) .trapOp (d.opnd.toNat % 256) c.strands) ∧
    (∀ f, wellFormed (.trap (.b f)) = true → qGuard g c f.gq.toNat f.ge f.gn = false → exec (.trap (.b f)) s = .next s) ∧
    (∀ b, wellFormed (.brk (.bur b)) = true → burLanes g c b.guard ≠ [] → (s.ctx (s.asidOf g)).dbg = true → c.brkNop = false →
      codes (.brk (.bur b)) .brk b.n1 (burLanes g c b.guard)) ∧
    (∀ b, wellFormed (.brk (.bur b)) = true → (burLanes g c b.guard = [] ∨ (s.ctx (s.asidOf g)).dbg = false ∨ c.brkNop = true) →
      moves (.brk (.bur b)) c.yielded (encodeBIns 0xCC b).length) ∧
    (∀ d, wellFormed (.brk (.b d)) = true → qGuard g c d.gq.toNat d.ge d.gn = true → (s.ctx (s.asidOf g)).dbg = true → c.brkNop = false →
      codes (.brk (.b d)) .brk (d.opnd.toNat % 256) c.strands) ∧
    (∀ d, wellFormed (.brk (.b d)) = true → (qGuard g c d.gq.toNat d.ge d.gn = false ∨ ((s.ctx (s.asidOf g)).dbg = true ∧ c.brkNop = true)) →
      exec (.brk (.b d)) s = .next s) ∧
    (∀ i b, i = Instr.brk b → wellFormed i = true → (s.ctx (s.asidOf g)).dbg = false →
      (match b with | .bur b => burLanes g c b.guard ≠ [] | .b d => qGuard g c d.gq.toNat d.ge d.gn = true) →
      ∃ t, exec i s = .next t ∧ (t.fn (s.fnOf (s.asidOf g))).brks = (s.fn (s.fnOf (s.asidOf g))).brks + 1 ∧
        (t.part (s.fn (s.fnOf (s.asidOf g))).part).brks = (s.part (s.fn (s.fnOf (s.asidOf g))).part).brks + 1)

/-- PBR's target reaches b(k) a cycle on; two delay bundles follow a BRT, taken or not, and one whose guard holds transfers after them, while one
in a delay bundle does nothing;
LPSET starts a loop of its count, or skips the body of a count of 0; LPCLR ends one; RPT repeats the M slot of its bundle, whose locations move
on by the streams' lengths (14 R295 to R298; 03 R64; 10 R213). -/
def Obligations.BranchesAndLoops : Prop :=
  ∀ (s : State) (g : Group) (c : Crew) (d : BSlot), s.crew s.focus = some (g, c) →
    let o := d.opnd.toNat
    let loop := fun (x : IssueCtx) => if o / 2 ^ 19 % 2 = 1 then x.lp1 else x.lp0
    let other := fun (x : IssueCtx) => if o / 2 ^ 19 % 2 = 1 then x.lp0 else x.lp1
    (wellFormed (.pbr d) = true → ∃ (t : State) (g' : Group) (c' : Crew), exec (.pbr d) s = .next t ∧ t.crew s.focus = some (g', c') ∧
      OnlyInFlight g c g' c' ∧ ∃ v : W64, c'.inflight = c.inflight ++
        [{ at_ := s.cycle + 1, deadline := s.cycle + 1, cls := .b, reg := o / 2 ^ 18 % 4, slot := 0, lane := 0, val := v }] ∧
      v.toNat = (if o / 2 ^ 17 % 2 = 1 then d.imx.toNat else ((c.pc + (BitVec.ofNat 17 o).toInt) % 2 ^ 32).toNat) ∧
      (inL1 s s.focus (s.asidOf g) c.tr v.toNat = true ∨ bundleWord s c v.toNat = none ∨ (s.trans c.tr).bind Trans.base = none → t.mem = s.mem ∧ t.pkg = s.pkg)) ∧
    (wellFormed (.brt d) = true → c.delay = 0 → qGuard g c d.gq.toNat d.ge d.gn = true →
      ∃ (t : State) (g' : Group) (c' : Crew), exec (.brt d) s = .next t ∧ OutsideKept s t ∧ t.crew s.focus = some (g', c') ∧ g' = { g with frontier := g'.frontier, nested := g'.nested, running := some c' } ∧
        (if c.handler = true then g'.frontier = g.frontier else g'.nested = g.nested) ∧
        c' = { c with branch := some ((g.getB c.ctx (o / 2 ^ 18 % 4)).toNat, 3), delay := 3 }) ∧
    (wellFormed (.brt d) = true → c.delay = 0 → qGuard g c d.gq.toNat d.ge d.gn = false →
      ∃ (t : State) (g' : Group), exec (.brt d) s = .next t ∧ OutsideKept s t ∧ t.crew s.focus = some (g', { c with delay := 3 }) ∧
        g' = { g with running := some { c with delay := 3 } }) ∧
    (wellFormed (.brt d) = true → 0 < c.delay → exec (.brt d) s = .next s) ∧
    (wellFormed (.lpset d) = true → ∃ (t : State) (g' : Group) (c' : Crew), exec (.lpset d) s = .next t ∧ OutsideKept s t ∧
      t.crew s.focus = some (g', c') ∧ g' = { g with ctxs := g'.ctxs, running := some c' } ∧ (∀ k, k ≠ c.ctx → g'.ctx k = g.ctx k) ∧
      g'.ctx c.ctx = { g.ctx c.ctx with lp0 := (g'.ctx c.ctx).lp0, lp1 := (g'.ctx c.ctx).lp1 } ∧ other (g'.ctx c.ctx) = other (g.ctx c.ctx) ∧
      let n := (g.getS c.ctx (o / 2 ^ 14 % 32)).setWidth 32
      if n = 0 then (loop (g'.ctx c.ctx)).active = false ∧ c' = { c with branch := some (c.pc + o % 2 ^ 14 + 1, 0), notBefore := s.cycle + 3 }
      else c' = c ∧ loop (g'.ctx c.ctx) =
        { start := BitVec.ofNat 32 (c.pc + 1), stop := BitVec.ofNat 32 (c.pc + o % 2 ^ 14), count := n, active := true }) ∧
    (wellFormed (.lpclr d) = true → ∃ (t : State) (g' : Group), exec (.lpclr d) s = .next t ∧ OutsideKept s t ∧ t.crew s.focus = some (g', c) ∧
      g' = { g with ctxs := g'.ctxs } ∧ (∀ k, k ≠ c.ctx → g'.ctx k = g.ctx k) ∧
      g'.ctx c.ctx = { g.ctx c.ctx with lp0 := (g'.ctx c.ctx).lp0, lp1 := (g'.ctx c.ctx).lp1 } ∧
      (loop (g'.ctx c.ctx)).active = false ∧ (loop (g'.ctx c.ctx)).count = 0 ∧ other (g'.ctx c.ctx) = other (g.ctx c.ctx)) ∧
    (∀ m x, wellFormed (.rpt d) = true → rptSlot s g c = some (m, x) →
      ∃ (t : State) (g' : Group) (c' : Crew), exec (.rpt d) s = .next t ∧ OutsideKept s t ∧ t.crew s.focus = some (g', c') ∧
        g' = { g with ctxs := g'.ctxs, running := some c' } ∧ (∀ k, k ≠ c.ctx → g'.ctx k = g.ctx k) ∧
        g'.ctx c.ctx = { g.ctx c.ctx with a := (g'.ctx c.ctx).a } ∧ (∀ r, r ≠ m.aa.toNat → r ≠ m.ab.toNat → g'.getA c.ctx r = g.getA c.ctx r) ∧
        c' = { c with rpt := some { left := o / 2 ^ 8, slot := m, mxs := x, rptIdx := c.pc } } ∧
        let w := (g.getS c.ctx m.fw.toNat).toNat % 2 ^ 32
        let la := if m.asrc = 1 then 0 else streamA w (m.nstep.toNat + 1)
        let lb := if m.bsrc = 1 then 0 else streamB w (m.nstep.toNat + 1)
        (g'.getA c.ctx m.aa.toNat).toNat = ((g.getA c.ctx m.aa.toNat).toNat + la + if m.ab = m.aa then lb else 0) % 2 ^ 48 ∧
        (g'.getA c.ctx m.ab.toNat).toNat = ((g.getA c.ctx m.ab.toNat).toNat + lb + if m.ab = m.aa then la else 0) % 2 ^ 48) ∧
    (wellFormed (.rpt d) = true → rptSlot s g c = none → exec (.rpt d) s = .next s)

/-- WAIT takes its counts where the flag holds them and no older waiter stands before it; else the crew waits. For a flag posted from another core
an acquire comes first, while the flag keeps the counts: it waits for the crew's earlier results, drops the private cache's lines, and takes 32 core
cycles. A POST is noted for its commit point where the target core runs a group of the launch, and raises FLAG_BAD elsewhere; its delivery adds the
counts to the group that was meant (14 R305 to R308). -/
def Obligations.Flags : Prop :=
  (∀ (s : State) (g : Group) (c : Crew) (flag : BitVec 5) (k : BitVec 15), s.crew s.focus = some (g, c) →
    let x := g.flags.get {} flag.toNat
    (k = 0 → exec (.wait flag k) s = .next s) ∧
    (k ≠ 0 → k.toNat ≤ x.count.toNat → (c.served ≠ none ∨ olderWaiter g flag.toNat = false) →
      (x.remote = false ∨ c.acq ≠ none →
        ∃ (t : State) (g' : Group) (c' : Crew), exec (.wait flag k) s = .next t ∧ OutsideKept s t ∧ t.crew s.focus = some (g', c') ∧
          g' = { g with flags := g'.flags, running := some c' } ∧
          (g'.flags.get {} flag.toNat).count.toNat + k.toNat = x.count.toNat ∧ (g'.flags.get {} flag.toNat).remote = x.remote ∧
          (∀ f, f ≠ flag.toNat → g'.flags.get {} f = g.flags.get {} f) ∧
          c' = { c with served := none, acq := none, region := { c.region with waits := c.region.waits ++ [(flag.toNat, k.toNat)] } }) ∧
      (x.remote = true → c.acq = none → c.unlanded s.cycle = true →
        ∃ (t : State) (g' : Group) (c' : Crew), exec (.wait flag k) s = .next t ∧ OutsideKept s t ∧ t.crew s.focus = some (g', c') ∧
          g' = { g with running := some c' } ∧ c' = { c with served := some (flag.toNat, k.toNat), hold := some (.acquire s.cycle) }) ∧
      (x.remote = true → c.acq = none → c.unlanded s.cycle = false → (∀ l ∈ (s.core s.focus).cache, l.dirty = 0) →
        ∃ (t : State) (g' : Group) (c' : Crew), exec (.wait flag k) s = .next t ∧ t.mem = s.mem ∧ t.crew s.focus = some (g', c') ∧
          g' = { g with flags := g'.flags, running := some c' } ∧ (t.core s.focus).cache = [] ∧
          (g'.flags.get {} flag.toNat).count = x.count ∧ (g'.flags.get {} flag.toNat).remote = false ∧
          (∀ f, f ≠ flag.toNat → g'.flags.get {} f = g.flags.get {} f) ∧
          c' = { c with served := some (flag.toNat, k.toNat), acq := some (s.cycle + 32), hold := some (.acquire (s.cycle + 32)) })) ∧
    (k ≠ 0 → (x.count.toNat < k.toNat ∨ (c.served = none ∧ olderWaiter g flag.toNat = true)) →
      ∃ (t : State) (g' : Group), exec (.wait flag k) s = .next t ∧ OutsideKept s t ∧ g' = { g with running := g'.running } ∧
        t.crew s.focus = some (g', { c with hold := some (.flag flag.toNat k.toNat) })) ∧
    Noted (.postSelf flag k) s g c [.post true s.focus flag.toNat k.toNat g.cluster] 0 ∧
    ∀ core : BitVec 9,
      (∀ h, s.group core.toNat = some h → h.launch = g.launch → Noted (.postCore flag core k) s g c [.post false core.toNat flag.toNat k.toNat h.cluster] 0) ∧
      ((∀ h, s.group core.toNat = some h → h.launch ≠ g.launch) → c.strands ≠ [] →
        ∃ t, exec (.postCore flag core k) s = .next t ∧ Latches s t g c .flagBad (c.strands.map fun l => (l.1, 0)))) ∧
  ∀ (s : State) (g : Group) (core flag k : Nat) (remote : Bool), s.group core = some g → (g.flags.get {} flag).count.toNat + k ≤ 65535 →
    ∃ (t : State) (g' : Group), exec (.flagDelivery core flag k (g.launch, g.cluster) remote) s = .next t ∧ t.mem = s.mem ∧ t.group core = some g' ∧
      (g'.flags.get {} flag).count.toNat = (g.flags.get {} flag).count.toNat + k ∧ (∀ f, f ≠ flag → g'.flags.get {} f = g.flags.get {} f) ∧
      g' = { g with flags := g'.flags } ∧ ((g'.flags.get {} flag).remote = true ↔ (g.flags.get {} flag).remote = true ∨ remote = true)

/-! ## The matrix engine (10 R198 to R216; 08 R167 to R173) -/

namespace Sys2Proof.Claims

/-- A macro-operation that one of the eight operations issues, as its form gives it. -/
structure Issued where
  i : Instr
  m : Macro
  /-- the lanes whose format word is not lane 0's -/
  diverge : List Nat := []
  /-- a field of a tile operand word that Table 10.7 refuses -/
  bad : Bool := false

/-- The M slot forms: their registers are read at issue (10 R203, R212). -/
def ofSlot (g : Group) (c : Crew) (op : Nat) (d : MSlot) : Issued where
  i := [Instr.mx d, .mxs d, .mxr d, .mxz d].getD op (.mxz d)
  m := { z := d.z, op := op, fmt := (g.getS c.ctx d.fw.toNat).setWidth 32, locA := (g.getA c.ctx d.aa.toNat).toNat, locB := (g.getA c.ctx d.ab.toNat).toNat,
         kindA := d.asrc.toNat, kindB := d.bsrc.toNat, steps := if op ≤ 1 then d.nstep.toNat + 1 else 1, issued := 0, ctx := c.ctx }

/-- The tile operand words of MMA.T, MRET.T and MZERO.T: location in bits 47:0, kind in bits 49:48, K ÷ 32 − 1 in bits 63:56 (10 R216). -/
def ofTile (g : Group) (c : Crew) (op : Nat) (b : BIns) : Issued :=
  let x := fun r => (g.getX (laneSlot c 0) 0 r).toNat
  let w := if op = 3 then 0 else x b.a % 2 ^ 32
  let ta := if op = 3 then x 0 else x b.b
  let tb := if op = 0 then x b.c else ta
  let rsv := fun y => decide (y / 2 ^ 50 % 64 ≠ 0)
  { i := if op = 0 then .mmaT b else if op = 2 then .mretT b else .mzeroT b
    m := { z := decide (b.n1 = 1), op := op, fmt := BitVec.ofNat 32 w, locA := ta % 2 ^ 48, locB := tb % 2 ^ 48, kindA := ta / 2 ^ 48 % 4, kindB := tb / 2 ^ 48 % 4
           steps := if op = 0 then (ta / 2 ^ 56 + 1) * fwBlock w else 1, issued := 0, ctx := c.ctx
           bur := some (encodeBIns (if op = 0 then 0x80 else if op = 2 then 0x81 else 0x82) b).length }
    diverge := if op = 3 then [] else (c.strands.filter fun l => decide ((g.getX l.2 l.1 b.a).toNat % 2 ^ 32 ≠ w)).map Prod.fst
    bad := op ≠ 3 && (rsv ta || (op = 0 && (rsv tb || decide (ta / 2 ^ 56 ≠ tb / 2 ^ 56))) || (op = 2 && decide (ta / 2 ^ 56 ≠ 0 ∨ ta / 2 ^ 48 % 2 = 1))) }

end Sys2Proof.Claims

/-- The eight matrix operations at issue: the checks of Table 10.7 in their order, and where they pass, the operation stands in its lane, waiting
to start, its crew holds the accumulator, and the region names it; it takes a number for each of its steps, under which the bytes of staging and
memory streams ride; an operation whose lane is busy waits (10 R198, R205, R212, R216). -/
def Obligations.MatrixIssue : Prop :=
  ∀ (s : State) (g : Group) (c : Crew) (q : Issued), s.crew s.focus = some (g, c) → wellFormed q.i = true →
    ((∃ op d, op < 4 ∧ q = ofSlot g c op d) ∨
      ∃ op b, op ∈ [0, 2, 3] ∧ q = ofTile g c op b ∧ burLanes g c b.guard ≠ [] ∧ (burLanes g c b.guard).length = c.strands.length) →
    (g.lane (decide (q.m.op = 2)) ≠ none → exec q.i s = .next s) ∧
    (g.lane (decide (q.m.op = 2)) = none →
    let w := q.m.fmt.toNat
    let own := (g.acc q.m.z).active = false ∨ (g.acc q.m.z).holder = some c.ctx
    let fmt := q.m.op = 3 ∨ (fwOk w = true ∧ fwMasked (s.launch g.launch).fmask w = false)
    let all := c.strands.map fun l => (l.1, 0)
    (fullCrew s g c = true → q.diverge = [] → c.handler = false → own → fmt → q.bad = false → (q.m.op ≤ 1 → q.m.steps % fwBlock w = 0) →
      ∃ (t : State) (g' : Group) (c' : Crew), exec q.i s = .next t ∧ t.mem = s.mem ∧ t.crew s.focus = some (g', c') ∧ c'.pc = c.pc ∧
        t.pkg = { s.pkg with nextTag := s.pkg.nextTag + q.m.steps } ∧
        g'.lane (decide (q.m.op = 2)) = some { q.m with issued := s.cycle, tag := s.pkg.nextTag } ∧ (g'.acc q.m.z).live = (g.acc q.m.z).live ∧
        (g'.acc q.m.z).active = true ∧ (g'.acc q.m.z).holder = some c.ctx ∧ g'.acc (!q.m.z) = g.acc (!q.m.z) ∧
        g' = { g with z0 := g'.z0, z1 := g'.z1, compute := g'.compute, retire := g'.retire, running := some c' } ∧
        g'.lane (!decide (q.m.op = 2)) = g.lane (!decide (q.m.op = 2)) ∧ c' = { c with region := c'.region } ∧
        c'.region = { c.region with zNamed := c.region.zNamed ||| (if q.m.z then 2 else 1), macros := s.pkg.nextTag :: c.region.macros }) ∧
    (fullCrew s g c = false → c.strands ≠ [] → ∃ t, exec q.i s = .next t ∧ Latches s t g c .partialMask all) ∧
    (fullCrew s g c = true → q.diverge ≠ [] → ∃ t, exec q.i s = .next t ∧ Latches s t g c .fmtDiverge (q.diverge.map fun i => (i, 0))) ∧
    (fullCrew s g c = true → q.diverge = [] → c.handler = false → ¬own → ∃ t, exec q.i s = .next t ∧ Latches s t g c .mxBad all) ∧
    (fullCrew s g c = true → q.diverge = [] → c.handler = false → own → ¬fmt → ∃ t, exec q.i s = .next t ∧ Latches s t g c .fmtBad all) ∧
    (fullCrew s g c = true → q.diverge = [] → c.handler = false → own → fmt → (q.bad = true ∨ (q.m.op ≤ 1 ∧ q.m.steps % fwBlock w ≠ 0)) →
      ∃ t, exec q.i s = .next t ∧ Latches s t g c .mxBad all))

/-- A lane's operation starts once its turn has come: MXS and MXZ clear the accumulator, an MXZ ends with its start; a compute step adds one block
along K at the block's end, once the bytes of its streams have arrived, and the last step frees the lane; a retire step writes one column of 128 elements, rounded, and moves on
(10 R205 to R211). -/
def Sys2Proof.Claims.MatrixLanes : Prop :=
  (∀ (s : State) (core : Nat) (retire : Bool) (g : Group) (m : Macro), s.group core = some g → g.lane retire = some m → (m.op = 2 ↔ retire = true) →
    m.op ≤ 3 → m.started = false → macroReady g s.cycle m = true → m.kindA ≠ 1 → m.kindB ≠ 1 →
    ∃ (t : State) (g' : Group), exec (.macroOperationStart core retire) s = .next t ∧ t.mem = s.mem ∧ t.group core = some g' ∧
      (g'.acc m.z).live = (if m.op = 1 ∨ m.op = 3 then [] else (g.acc m.z).live) ∧ g'.acc (!m.z) = g.acc (!m.z) ∧
      (m.op ≠ 3 → g'.lane retire = some { m with started := true, start := s.cycle, baseA := if m.op = 2 then m.baseA else 0, baseB := if m.op = 2 then m.baseB else 0 }) ∧
      (m.op = 3 → g'.lane retire = none)) ∧
  (∀ (s : State) (core : Nat) (g : Group) (m : Macro) (a b : List Byte), s.group core = some g → g.compute = some m → m.op ≤ 1 → m.started = true →
    m.start + m.at_ + m.delay ≤ s.cycle → fwScaled m.fmt.toNat = false → m.at_ < m.steps → stepArrived s m = true → stepHazard core m s = false →
    stepBytes core m s = (s, .ok (some [a, b])) →
    ∃ (t : State) (g' : Group), exec (.matrixStep core false) s = .next t ∧ t.mem = s.mem ∧ t.group core = some g' ∧ g'.acc (!m.z) = g.acc (!m.z) ∧
      ((m.at_ + 1) % fwBlock m.fmt.toNat ≠ 0 → (g'.acc m.z).live = (g.acc m.z).live ∧
        ∃ m', g'.compute = some m' ∧ m'.at_ = m.at_ + 1 ∧ m'.bufA = m.bufA ++ a ∧ m'.bufB = m.bufB ++ b) ∧
      ((m.at_ + 1) % fwBlock m.fmt.toNat = 0 →
        (∀ r < 128, ∀ k < 256, (g'.acc m.z).live.get 0 (256 * r + k) = acc34Add ((g.acc m.z).live.get 0 (256 * r + k)) (blockSum ((List.range 32).map fun j =>
          let n := fwBytes m.fmt.toNat
          prodV (fwA m.fmt.toNat) (fwB m.fmt.toNat) (leNat (((m.bufA ++ a).drop (n * (128 * j + r))).take n))
            (leNat (((m.bufB ++ b).drop (n * (256 * j + k))).take n)) 127 127))) ∧
        (m.at_ + 1 = m.steps → g'.compute = none) ∧
        (m.at_ + 1 ≠ m.steps → ∃ m', g'.compute = some m' ∧ m'.at_ = m.at_ + 1 ∧
          m'.bufA = (m.bufA ++ a).drop (4096 * fwBytes m.fmt.toNat) ∧ m'.bufB = (m.bufB ++ b).drop (8192 * fwBytes m.fmt.toNat)))) ∧
  (∀ (s : State) (core : Nat) (g : Group) (m : Macro), s.group core = some g → g.retire = some m → m.op = 2 → m.started = true → m.at_ < 256 →
    m.start + m.at_ + m.delay ≤ s.cycle → m.kindA = 0 → m.locA + 32768 * outBytes m.fmt.toNat ≤ 393216 → (∀ b < 12, g.modeOf b = some 1) →
    ∃ (t : State) (g' : Group), exec (.matrixStep core true) s = .next t ∧ t.mem = s.mem ∧ t.group core = some g' ∧
      (∀ r < 128, ∀ j < outBytes m.fmt.toNat, g'.scratch.get 0 (m.locA + (256 * r + m.at_) * outBytes m.fmt.toNat + j) =
        byteAt (retireElem m.fmt.toNat ((g.acc m.z).live.get 0 (256 * r + m.at_))).1 j) ∧
      (∀ k, (∀ r < 128, k < m.locA + (256 * r + m.at_) * outBytes m.fmt.toNat ∨ m.locA + (256 * r + m.at_ + 1) * outBytes m.fmt.toNat ≤ k) →
        g'.scratch.get 0 k = g.scratch.get 0 k) ∧
      (∀ z, g'.acc z = { g.acc z with pins := (g'.acc z).pins }) ∧ (m.at_ = 255 → g'.retire = none) ∧ (m.at_ ≠ 255 → ∃ m', g'.retire = some m' ∧ m'.at_ = m.at_ + 1)) ∧
  ∀ (s : State) (core : Nat) (g : Group) (c : Crew) (r : Rpt), s.crew core = some (g, c) → c.rpt = some r → inBody s g c = false →
    (r.left = 0 ∨ g.compute = none) →
    ∃ (t : State) (g' : Group) (c' : Crew), exec (.rptRepeat core) s = .next t ∧ t.mem = s.mem ∧ t.crew core = some (g', c') ∧
      (r.left = 0 → c' = { c with rpt := none }) ∧
      (r.left ≠ 0 → c'.pc = r.rptIdx + 1 ∧ c'.rpt = some { r with left := r.left - 1, again := true })

/-- A block sum is exact: finite products sum as rational numbers, a NaN or infinities of both signs give NaN, infinities of one sign stay; a
product multiplies its elements and the powers of two of their scales, and a scale of 255 gives NaN (10 R208, R209). -/
def Sys2Proof.Claims.BlockSums : Prop :=
  (∀ ps : List FV, (∀ p ∈ ps, num p ≠ none) → num (blockSum ps) = some ((ps.map fun p => (num p).getD 0).sum)) ∧
  (∀ ps : List FV, (∃ p ∈ ps, p.isNan = true) → (blockSum ps).isNan = true) ∧
  (∀ ps : List FV, FV.inf true ∈ ps → FV.inf false ∈ ps → (blockSum ps).isNan = true) ∧
  (∀ (ps : List FV) (n : Bool), (∀ p ∈ ps, p.isNan = false) → FV.inf n ∈ ps → FV.inf (!n) ∉ ps → blockSum ps = .inf n) ∧
  (∀ ca cb a b ea eb, ea = 255 ∨ eb = 255 → (prodV ca cb a b ea eb).isNan = true) ∧
  (∀ ca cb a b ea eb x y, ea < 255 → eb < 255 → ca ≤ 4 → cb ≤ 4 → num ((codeFmt ca).read a) = some x → num ((codeFmt cb).read b) = some y →
    num (prodV ca cb a b ea eb) = some (x * y * (2 : ℚ) ^ ((ea : ℤ) - 127) * (2 : ℚ) ^ ((eb : ℤ) - 127))) ∧
  ∀ a b ea eb, ea < 255 → eb < 255 →
    num (prodV 6 6 a b ea eb) = some (((BitVec.ofNat 8 a).toInt * (BitVec.ofNat 8 b).toInt : ℤ) * (2 : ℚ) ^ ((ea : ℤ) - 127) * (2 : ℚ) ^ ((eb : ℤ) - 127))

/-! ## Commit points and traps (03 R57 to R59, 18 R355 to R364) -/

namespace Sys2Proof.Claims

/-- A running crew that has nothing in flight: its commit point need not wait (03 R57 step 1), and no log of a context is full. -/
def Settled (s : State) (core : Nat) (g : Group) (c : Crew) : Prop :=
  s.crew core = some (g, c) ∧ c.inflight = [] ∧ c.mem = [] ∧ c.accepting = [] ∧ g.compute = none ∧ g.retire = none ∧ g.linkFail = false ∧
    (s.ctx (s.asidOf g)).logHeld = false ∧ ∀ x ∈ s.pkg.ctxs, x.2.logTrap = false

/-- A settled Burhus crew whose region took no fault and no FIFO entry, whose commit point has performed nothing yet, and that nothing keeps from
issuing on. -/
def Closing (s : State) (core : Nat) (g : Group) (c : Crew) : Prop :=
  Settled s core g c ∧ c.region.due = true ∧ c.fjoset = false ∧ c.region.latched = none ∧ c.region.conflicted = false ∧ c.region.pushed = [] ∧
    c.region.popped = [] ∧ c.region.released = false ∧ c.region.opsDone = 0 ∧ c.region.asked = false ∧ riding .op s core = false ∧
    g.stopReq = false ∧ g.forced = false

/-- The crew issues on from where it stands, in a new region, which keeps what its last bundle leaves pending, and BKM and FCB as the group
holds them. -/
def GoesOn (g' : Group) (c c' : Crew) : Prop :=
  c' = { c with
    region := {
      entry := c.pc, seg := c.seg, openBidx := c.last, opened := true, bur := c.region.bur, skip0 := c.skip, branch0 := c.branch, delay0 := c.delay
      rpt0 := c.rpt, csr0 := some g'.bankCsrs }
    windows := [], brkNop := false, uncorrOnce := false }

end Sys2Proof.Claims

/-- A commit point: it waits for nothing that is outstanding; FPF takes the region's flags; the shadow takes the registers; accumulators that the
region named take their live values as image; buffered scratchpad bytes and stores perform; a segment end places its strands in the frontier, and
a group whose strands have all ended leaves its core (03 R57; 07 R146; 08 R163; 10 R199; 11 R228; 14 R290, R294). -/
def Obligations.CommitPoints : Prop :=
  (∀ (s : State) (core : Nat) (g : Group) (c : Crew), Closing s core g c → c.region.buf = [] → c.region.ops = [] →
    ∃ (t : State) (g' : Group) (c' : Crew), exec (.commitPoint core) s = .next t ∧ t.mem = s.mem ∧ t.crew core = some (g', c') ∧ GoesOn g' c c' ∧
      (g'.ctx c.ctx).fpf = (match c.region.fpfWrite with | some v => v | none => (g.ctx c.ctx).fpf ||| c.region.raised) ∧
      (g'.ctx c.ctx).shadow = { q := (g.ctx c.ctx).q, b := (g.ctx c.ctx).b, lp0 := (g.ctx c.ctx).lp0, lp1 := (g.ctx c.ctx).lp1 } ∧
      (∀ z, (g'.acc z).live = (g.acc z).live ∧ (g'.acc z).holder = (g.acc z).holder ∧
        if c.region.zNamed.getLsbD z.toNat then (g'.acc z).image = (g.acc z).live ∧ (g'.acc z).active = false
        else (g'.acc z).image = (g.acc z).image ∧ (g'.acc z).active = (g.acc z).active) ∧
      g'.x = g.x ∧ g'.c = g.c ∧ g'.v = g.v ∧ g'.p = g.p ∧ g'.scratch = g.scratch) ∧
  (∀ (s : State) (core : Nat) (g : Group) (c : Crew) (a : Nat) (bs : List Byte), Closing s core g c → c.region.buf = [.sts [(a, bs)]] → c.region.ops = [] →
    g.modeOf (a / 2 ^ 15 % 16) = some 1 →
    ∃ (t : State) (g' : Group) (c' : Crew), exec (.commitPoint core) s = .next t ∧ t.mem = s.mem ∧ t.crew core = some (g', c') ∧ GoesOn g' c c' ∧
      (∀ i b, bs[i]? = some b → g'.scratch.get 0 (a + i) = b) ∧ ∀ k, k < a ∨ a + bs.length ≤ k → g'.scratch.get 0 k = g.scratch.get 0 k) ∧
  (∀ (s : State) (core : Nat) (g : Group) (c : Crew) (l : LaneAcc) (x : CLine), Closing s core g c → c.region.buf = [.store 0 [l]] → c.region.ops = [] →
    isHbm l.pa = true → l.widx = 0 → l.pa % 128 + l.bytes.length ≤ 128 → (s.core core).dfifo = [] → s.hit core (lineOf l.pa) = some x →
    ∃ (t : State) (g' : Group) (c' : Crew) (x' : CLine), exec (.commitPoint core) s = .next t ∧ t.mem = s.mem ∧ t.crew core = some (g', c') ∧ GoesOn g' c c' ∧
      t.hit core (lineOf l.pa) = some x' ∧ x'.dirty = x.dirty ||| maskAt (l.pa % 128) l.bytes.length ∧
      (∀ i b, l.bytes[i]? = some b → lineBytes x'.data (l.pa % 128 + i) 1 = [b]) ∧
      ∀ o < 128, o < l.pa % 128 ∨ l.pa % 128 + l.bytes.length ≤ o → lineBytes x'.data o 1 = lineBytes x.data o 1) ∧
  (∀ (s : State) (core : Nat) (g : Group) (c : Crew) (l : List (Nat × Nat × Nat)) (kn : Kernel) (sg : Seg) (e : Nat),
    Closing s core g c → c.region.buf = [] → c.region.ops = [.send l] → (s.launch g.launch).fjoset = false → c.handler = false →
    (s.launch g.launch).kernel = some kn → kn.segs[e]? = some sg → e ≠ 0xFFFFFFFF → intactStrands g c.strands = true → l ≠ [] → (∀ y ∈ l, y.2.2 = e) → g.live ≠ [] →
    ∃ (t : State) (g' : Group) (r : Ready), exec (.commitPoint core) s = .next t ∧ t.mem = s.mem ∧ t.group core = some g' ∧ g'.running = none ∧
      g'.frontier.records = g.frontier.records ∧ g'.frontier.ready = g.frontier.ready ++ [r] ∧ r.whole = true ∧ r.passes = 0 ∧
      r.crew.strands = l.map (fun y => (y.1, y.2.1)) ∧ r.crew.seg = e ∧ r.crew.prio = sg.prio ∧ r.crew.pc = 0 ∧ g'.live = g.live) ∧
  ∀ (s : State) (core : Nat) (g : Group) (c : Crew) (l : List (Nat × Nat × Nat)),
    Closing s core g c → c.region.buf = [] → c.region.ops = [.send l] → (s.launch g.launch).fjoset = false → c.handler = false →
    (∀ y ∈ l, y.2.2 = 0xFFFFFFFF) → (∀ x ∈ g.live, ∃ y ∈ l, x = y.2.1 * 64 + y.1) →
    ∃ t, exec (.commitPoint core) s = .next t ∧ t.mem = s.mem ∧ t.group core = none

/-- Delivery of a latched fault. A Burhus crew that stands at its region's entry waits for the replay that names the fault; a fault that replay does
not find again has vanished, and the crew goes on; the split run at the fault's instruction sends the trapped strands into the handler, with
FINFO and the trap word in their last two registers, and holds the rest; a native-only crew enters its handler at once; after the last RFT the
crew is whole again, and the returned strands skip the instruction; a fault of the kill route ends the launch
(18 R355 to R365, Tables 18.1, 18.2; 03 R59). -/
def Obligations.TrapDelivery : Prop :=
  (∀ (s : State) (core : Nat) (g : Group) (c : Crew) (f : FaultRec) (h : Entry), Settled s core g c → c.fjoset = false → c.handler = false →
    c.region.latched = some f → routeOf f = .handler → handlerOf s g c = some h → c.region.buf = [] → c.region.pushed = [] →
    ∃ (t : State) (g' : Group) (d : Crew), exec (.commitPoint core) s = .next t ∧ t.mem = s.mem ∧ t.group core = some g' ∧ g'.running = none ∧
      g'.blocked = g.blocked ++ [(d, .delivery)] ∧ d.delivered = some { f with until_ := none } ∧ d.pc = c.region.entry ∧ d.seg = c.region.seg ∧ d.strands = c.strands ∧
      d.region.latched = none) ∧
  (∀ (s : State) (core : Nat) (g : Group) (c : Crew) (f₀ : FaultRec), s.group core = some g → awaiting g false = some (c, f₀) → c.fjoset = false →
    (replayTrap core c s = none → ∃ (t : State) (g' : Group), exec (.replay core) s = .next t ∧ t.mem = s.mem ∧ t.group core = some g' ∧
      g'.blocked = g.blocked.filter (fun b => b.1.ctx ≠ c.ctx) ∧
      (c.handler = false → ∃ r, g'.frontier.ready = g.frontier.ready ++ [r] ∧ r.crew = { c with delivered := none } ∧ r.whole = false) ∧
      (t.part (s.fn (s.fnOf (s.asidOf g))).part).vanished = (s.part (s.fn (s.fnOf (s.asidOf g))).part).vanished + 1) ∧
    (∀ f h, replayTrap core c s = some f → routeOf f = .handler → c.handler = false → handlerOf s g c = some h →
      ∃ (t : State) (g' : Group), exec (.replay core) s = .next t ∧ t.mem = s.mem ∧ t.group core = some g' ∧
        g'.blocked = g.blocked.filter (fun b => b.1.ctx ≠ c.ctx) ++ [({ c with delivered := some { f with replayed := true } }, .delivery)])) ∧
  (∀ (s : State) (core : Nat) (g : Group) (c : Crew) (f : FaultRec) (h : Entry), s.group core = some g → awaiting g true = some (c, f) → f.kind ≠ .brk →
    g.nested = none → handlerOf s g c = some h → c.fjoset = false → f.boff = c.pc → c.region.latched = none → c.region.due = false → c.region.buf = [] →
    c.region.pushed = [] → c.region.popped = [] → (∀ x ∈ s.pkg.ctxs, x.2.logTrap = false) → (∀ l ∈ c.strands, l.1 < 64) →
    let trapped := fun (l : Nat × Nat) => f.lanes.any fun x => x.1 = l.1
    ∃ (t : State) (g' : Group) (n : Nested) (r : Ready), exec (.splitRun core) s = .next t ∧ t.mem = s.mem ∧ t.group core = some g' ∧ g'.nested = some n ∧
      g'.running = g.running ∧ n.fault = f ∧ n.returned = [] ∧ n.held.strands = c.strands.filter (fun l => !trapped l) ∧ n.held.pc = c.pc ∧
      n.frontier = { ready := [r] } ∧ r.crew.strands = c.strands.filter trapped ∧ r.crew.seg = h.seg ∧ r.crew.prio = h.prio ∧ r.crew.pc = h.pc ∧
      r.crew.handler = true ∧
      ∀ l ∈ c.strands, trapped l = true → g'.getX l.2 l.1 2097150 = BitVec.ofNat 64 (f.addrOf l.1) ∧
        g'.getX l.2 l.1 2097151 = BitVec.ofNat 64 (f.boff % 2 ^ 24 * 2 ^ 40 + f.seg % 2 ^ 24 * 2 ^ 16 + f.code % 256 * 2 ^ 8 + trapCode f.kind)) ∧
  (∀ (s : State) (core : Nat) (g : Group) (c : Crew) (f : FaultRec) (h : Entry), Settled s core g c → c.fjoset = true → c.handler = false →
    burhusKernel s g = false → c.region.due = true → c.region.latched = some f → routeOf f = .handler → handlerOf s g c = some h → g.nested = none →
    g.stopReq = false → c.region.buf = [] → c.region.pushed = [] →
    ∃ (t : State) (g' : Group) (n : Nested) (r : Ready), exec (.commitPoint core) s = .next t ∧ t.mem = s.mem ∧ t.group core = some g' ∧ g'.running = none ∧
      g'.nested = some n ∧ n.fault = { f with until_ := none } ∧ n.held.pc = c.region.entry ∧ n.frontier = { ready := [r] } ∧ r.crew.seg = h.seg ∧ r.crew.pc = h.pc) ∧
  (∀ (s : State) (core : Nat) (g : Group) (c : Crew) (n : Nested), Closing s core g c → c.region.buf = [] → c.region.ops = [.rft] → c.handler = true →
    g.nested = some n → n.frontier = {} → (∀ b ∈ g.blocked, b.1.handler = false ∧ b.2 ≠ .nested) → n.held.handler = false → n.held.fjoset = false →
    c.strands ≠ [] →
    ∃ (t : State) (g' : Group) (r : Ready), exec (.commitPoint core) s = .next t ∧ t.mem = s.mem ∧ t.group core = some g' ∧ g'.running = none ∧
      g'.nested = none ∧ g'.frontier.ready = g.frontier.ready ++ [r] ∧ r.crew.pc = n.held.pc ∧ r.crew.seg = n.held.seg ∧
      (∀ l, l ∈ r.crew.strands ↔ l ∈ n.held.strands ∨ l ∈ n.returned ∨ l ∈ c.strands) ∧
      r.crew.skip = n.held.skip ++ (n.returned ++ c.strands).map Prod.fst) ∧
  ∀ (s : State) (core cl : Nat) (g : Group) (c : Crew) (f : FaultRec), Settled s core g c → c.fjoset = false → c.handler = false → c.region.latched = some f →
    routeOf f = .kill → c.region.buf = [] → c.region.pushed = [] → g.blocked = [] → g.frontier = {} → g.nested = none → s.pkg.eng = [] →
    (∃ l, s.pkg.launches.find? g.launch = some l ∧ l.complete = false ∧ l.status = none ∧ l.abandoned = false ∧ l.placed = [(cl, [core])] ∧ l.suspended = []) → f.kind ≠ .trapOp →
    ∃ t, exec (.commitPoint core) s = .next t ∧ t.mem = s.mem ∧ t.group core = none ∧
      (t.launch g.launch).status = some (1, trapCode f.kind, f.cause, match f.lanes with | l :: _ => l.2 | [] => 0)

/-- The registers that a Burhus instruction writes come back when its pass is rolled back (03 R59, 01 R13). -/
def Obligations.RollbackRestoresRegisters : Prop :=
  ∀ (k : Nat) (ws : List RegWr) (s : State) (g : Group) (c : Crew), s.crew k = some (g, c) → (∀ w ∈ ws, w.cls = .x ∨ w.cls = .c) →
    ∃ (g' : Group) (c' : Crew), (putBur k ws s).crew k = some (g', c') ∧
      ∀ slot lane n, (undoRegs c'.region.undo g').getX slot lane n = (undoRegs c.region.undo g).getX slot lane n ∧
        (undoRegs c'.region.undo g').getC slot lane n = (undoRegs c.region.undo g).getC slot lane n

/-! ## Events of a core (03 R50, R52; 07 R143, R149, R151; 11 R230; 13 R268; 14 R289, R291, R301, R306) -/

/-- The events that move the crews of a core: a late result stalls its issue; a blocked crew leaves; the ready entry of the greater priority, and
of equal ones that of the lower entry number, is selected; an entry passed over 1,024 times marks the crew to leave; a wait that is over
makes its crew ready; a barrier that every live strand has reached lets its crews go in its cycle (03 R52; 14 R289, R291, R301, R306). -/
def Obligations.CrewEvents : Prop :=
  (∀ (s : State) (core : Nat) (g : Group) (c : Crew), s.crew core = some (g, c) → lateResult s c = true →
    ∃ (t : State) (g' : Group), exec (.lateResultStall core) s = .next t ∧ t.mem = s.mem ∧ t.crew core = some (g', c) ∧
      g' = { g with issueAt := max g.issueAt (s.cycle + 1) }) ∧
  (∀ (s : State) (core : Nat) (g : Group) (c : Crew) (w : Wait), s.crew core = some (g, c) → c.hold = some w → g.stopReq = false → g.frontier = {} →
    g.nested = none →
    ∃ (t : State) (g' : Group), exec (.crewSelect core) s = .next t ∧ t.mem = s.mem ∧ t.group core = some g' ∧ g'.running = none ∧
      g'.blocked = g.blocked ++ [({ c with hold := none }, w)] ∧ g'.frontier = {}) ∧
  (∀ (s : State) (core : Nat) (g : Group) (a b : Ready), s.group core = some g → g.running = none → g.stopReq = false → g.forced = false →
    g.nested = none → (g.frontier = { ready := [a, b] } ∨ g.frontier = { ready := [b, a] }) →
    (∀ r ∈ [a, b], r.whole = false ∧ r.crew.yielded = false ∧ r.crew.mem = [] ∧ r.crew.accepting = [] ∧ r.crew.inflight = []) →
    (b.crew.prio < a.crew.prio ∨ (b.crew.prio = a.crew.prio ∧ a.crew.seg < b.crew.seg)) →
    ∃ (t : State) (g' : Group), exec (.crewSelect core) s = .next t ∧ t.mem = s.mem ∧ t.group core = some g' ∧ g'.running = some a.crew ∧
      g'.frontier = { ready := [{ b with passes := b.passes + 1 }] }) ∧
  (∀ (s : State) (core : Nat) (g : Group) (c : Crew), s.crew core = some (g, c) → c.handler = false → g.forcedRun = false →
    ((∃ r ∈ g.frontier.ready, 1024 ≤ r.passes) ∨ ∃ r ∈ g.frontier.records, 1024 ≤ r.passes) →
    ∃ t, exec (.forcedSwitchOut core) s = .next t ∧ t.mem = s.mem ∧ t.crew core = some ({ g with forced := true }, c)) ∧
  (∀ (s : State) (core : Nat) (g : Group) (c : Crew), s.crew core = some (g, c) → g.forcedRun = true → exec (.forcedSwitchOut core) s = .next s) ∧
  (∀ (s : State) (core : Nat) (g : Group) (c : Crew) (w : Wait) (rest : List (Crew × Wait)), s.group core = some g → g.blocked = (c, w) :: rest →
    c.handler = false → waitOver s core g [] c w = true →
    ∃ (t : State) (g' : Group) (r : Ready), exec (.waitSatisfied core) s = .next t ∧ t.mem = s.mem ∧ t.group core = some g' ∧ g'.blocked = rest ∧
      g'.frontier.ready = g.frontier.ready ++ [r] ∧ r.whole = false ∧ r.crew = { c with served := match w with | .flag f n => some (f, n) | _ => c.served }) ∧
  (∀ (s : State) (k : Nat) (g : Group) (c : Crew), (∀ t, waitOver s k g [] c (.acquire t) = true ↔ t ≤ s.cycle ∧ c.unlanded s.cycle = false ∧ riding .drain s k = false) ∧
    (∀ cls n, waitOver s k g [] c (.timeline cls n) = true ↔ n ≤ (s.eng (engKey (s.asidOf g) cls (k / 128))).counter) ∧
    waitOver s k g [] c .logStall = !(s.ctx (s.asidOf g)).logHeld ∧ waitOver s k g [] c .debugger = false ∧
    ∀ f n, (∀ x ∈ g.crews, x.served = none) → (waitOver s k g [] c (.flag f n) = true ↔ n ≤ (g.flags.get {} f).count.toNat)) ∧
  ∀ (s : State) (core : Nat) (g : Group), s.group core = some g → 0 < g.atBarG → g.atBarG = g.live.length → (∃ t, g.barGAt = some t ∧ t ≤ s.cycle) → (∀ b ∈ g.blocked, b.1.handler = false) →
    ∃ (t : State) (g' : Group), exec (.barrierRelease core false) s = .next t ∧ t.mem = s.mem ∧ t.group core = some g' ∧ g'.atBarG = 0 ∧
      g'.atBarK = g.atBarK ∧ g'.blocked = g.blocked.filter (fun b => b.2 ≠ .barrier false) ∧
      g'.frontier.ready = g.frontier.ready ++ ((g.blocked.filter (fun b => b.2 = .barrier false)).map fun b => { crew := b.1, whole := false, since := s.cycle })

/-- The events of a core's memories: FIFO entries on their way become visible; bank modes come into force; the oldest entry of the dirty-line FIFO
goes to its home bank; the oldest memory result of a crew, all of whose rides have ended, lands in the cycle in which it arrives (log 10); a far store performs,
or its failure is kept, with its address, for the commit point of its kernel; a page-fault reply returns its crews, or ends their launches (03 R50; 04 R91; 07 R143, R149, R151; 11 R230). -/
def Sys2Proof.Claims.CoreMemoryEvents : Prop :=
  (∀ (s : State) (core bank : Nat) (g : Group), s.group core = some g → g.modeOf bank = some 2 → (∃ e ∈ (g.queue bank).inbound, e.1 ≤ s.cycle) →
    ∃ (t : State) (g' : Group), exec (.fifoPublication core bank) s = .next t ∧ t.mem = s.mem ∧ t.group core = some g' ∧
      (g'.queue bank).entries = (g.queue bank).entries ++ ((g.queue bank).inbound.filter fun e => e.1 ≤ s.cycle).map Prod.snd ∧
      (g'.queue bank).inbound = (g.queue bank).inbound.filter (fun e => s.cycle < e.1) ∧ ∀ b, b ≠ bank → g'.queue b = g.queue b) ∧
  (∀ (s : State) (core : Nat) (g : Group), s.group core = some g →
    ∃ t, exec (.bankModeChangeDone core) s = .next t ∧ t.mem = s.mem ∧
      t.group core = some { g with changing := g.changing.filter fun b => decide (s.cycle < b.2) }) ∧
  (∀ (s : State) (core la : Nat) (d : Line) (m : Mask) (w : Writer) (r : List DEntry), (s.core core).dfifo = .bytes la d m w :: r →
    ∃ t, exec (.dirtyLineDrain core) s = .next t ∧ t.mem = s.mem ∧ (t.core core).dfifo = r ∧ (t.core core).cache = (s.core core).cache ∧
      t.pkg.mergeQ.get [] (s.homeBank la) = s.pkg.mergeQ.get [] (s.homeBank la) ++ [{ line := la, data := d, mask := m, w := w }] ∧
      ∀ b, b ≠ s.homeBank la → t.pkg.mergeQ.get [] b = s.pkg.mergeQ.get [] b) ∧
  (∀ (s : State) (core : Nat) (g : Group) (c : Crew) (m : MemReq) (r : List MemReq) (l : LaneAcc) (x : CLine), s.crew core = some (g, c) →
    c.mem = m :: r → m.done s = true → m.lanes = [l] → m.pol ≠ 2 → l.widx = 0 → InCache { s with focus := core } l.pa (tyBytes m.ty.toNat) x →
    ∃ (t : State) (g' : Group) (c' : Crew), exec (.memoryResultArrival core) s = .next t ∧ t.mem = s.mem ∧ t.crew core = some (g', c') ∧ c'.mem = r ∧
      c'.inflight = c.inflight ++ [{ at_ := s.cycle, deadline := max s.cycle m.deadline, cls := m.cls, reg := m.reg, slot := l.slot, lane := l.lane
                                     val := extended m.ty.toNat (decide (m.cls = .s)) (overlayOwn m.own l.pa (lineBytes x.data (l.pa % 128) (tyBytes m.ty.toNat))) }]) ∧
  (∀ (s : State) (core : Nat) (q : LinkReq) (r : List LinkReq), (s.core core).link = q :: r → linkUp s q.asid q.pa = true →
    ∃ t, exec (.linkAcknowledgement core true) s = .next t ∧ (t.core core).link = r ∧ (∀ i b, q.bytes[i]? = some b → SMap.get 0 t.mem (q.pa + i) = b) ∧
      ∀ a, a < q.pa ∨ q.pa + q.bytes.length ≤ a → SMap.get 0 t.mem a = SMap.get 0 s.mem a) ∧
  (∀ (s : State) (core : Nat) (g : Group) (q : LinkReq) (r : List LinkReq), s.group core = some g → (s.core core).link = q :: r →
    ∃ t, exec (.linkAcknowledgement core false) s = .next t ∧ t.mem = s.mem ∧ (t.core core).link = r ∧ t.group core =
      some (if g.launch = q.launch then { g with linkFail := true, linkVa := if g.linkFail then g.linkVa else q.va } else g)) ∧
  ∀ (s : State) (core va : Nat) (g : Group), s.group core = some g → (∀ b ∈ g.blocked, b.1.handler = false) → va < 2 ^ 56 →
    let waits := fun (b : Crew × Wait) => match b.2 with | .pageFault v => decide (v % 2 ^ 56 = va) | _ => false
    ∃ (t : State) (g' : Group), exec (.pageFaultReply (s.asidOf g) va true) s = .next t ∧ t.mem = s.mem ∧ t.group core = some g' ∧
      g'.blocked = g.blocked.filter (fun b => !waits b) ∧
      g'.frontier.ready = g.frontier.ready ++ ((g.blocked.filter waits).map fun b => { crew := { b.1 with delivered := none }, whole := false, since := s.cycle })

/-! ## Events of the memory system (04 R82 to R101; 05 R106; 12 R259; 13 R262 to R272) -/

namespace Sys2Proof.Claims

/-- Byte `i` of a line. -/
def byteOf (l : Line) (i : Nat) : Byte := BitVec.ofNat 8 (l.toNat / 256 ^ i)

/-- No store is on its way from a core to its home bank or over a link. -/
def Drained (s : State) : Prop := (∀ k, (s.core k).dfifo = [] ∧ (s.core k).link = []) ∧ ∀ b, s.pkg.mergeQ.get [] b = []

/-- The line of a request laid over an L2 line: the masked bytes are the request's, the rest stay. -/
def Laid (old new d : Line) (m : Mask) : Prop := ∀ i < 128, byteOf new i = if m.getLsbD i then byteOf d i else byteOf old i

end Sys2Proof.Claims

/-- A fill installs the line that memory holds where it verifies, and poisons it elsewhere; a write-back puts a dirty line into memory under a new
counter, with the log durable past its tag; a merge lays its bytes over the line, after the old line of a logging context stands in the log; a
peer's write performs at the home bank, and one to a granule without an owner does nothing (04 R74, R97, R98, R101; 05 R106; 12 R259; 13 R265, R268, R269). -/
def Sys2Proof.Claims.LineEvents : Prop :=
  (∀ (s : State) (line : Nat) (a b : Bool), isHbm (line * 128) = true → s.pkg.l2.find? line = none → (fetchMeta (line / 64) s).2 = true →
    s.verifies line = true → (a = true ∨ b = true) →
    (s.pkg.l2.filter fun e => e.2.bank = s.homeBank line && e.1 % 128 = line % 128).length < 12 →
    ∃ (t : State) (l : L2Line), exec (.l2Fill line a b) s = .next t ∧ t.mem = s.mem ∧ t.pkg.l2.find? line = some l ∧ l.dirty = false ∧ l.bank = s.homeBank line ∧
      ∀ i < 128, byteOf l.data i = SMap.get 0 s.mem (line * 128 + i)) ∧
  (∀ (s : State) (line : Nat) (a b : Bool), isHbm (line * 128) = false → exec (.l2Fill line a b) s = .next s) ∧
  (∀ (s : State) (line : Nat) (a b : Bool), isHbm (line * 128) = true → s.pkg.l2.find? line = none →
    ((fetchMeta (line / 64) s).2 = false ∨ s.verifies line = false ∨ (a = false ∧ b = false)) →
    ∃ t, exec (.l2Fill line a b) s = .next t ∧ t.mem = s.mem ∧ t.pkg.l2.find? line = none ∧ (t.lineMeta line).poison = true) ∧
  (∀ (s : State) (line : Nat) (l : L2Line), s.pkg.l2.find? line = some l → l.dirty = true →
    ∃ (t : State) (l' : L2Line), exec (.writeBack line) s = .next t ∧ t.pkg.l2.find? line = some l' ∧ l'.dirty = false ∧ l'.data = l.data ∧ t.verifies line = true ∧
      (∀ i < 128, SMap.get 0 t.mem (line * 128 + i) = byteOf l.data i) ∧
      ((∀ x p, l.tag = some (x, p) → p ≤ (s.ctx x).uld) →
        (∀ a, a < line * 128 ∨ line * 128 + 128 ≤ a → SMap.get 0 t.mem a = SMap.get 0 s.mem a) ∧
        ((s.ctr (line / 64)).minors.get 0 (line % 64) ≠ 127 →
          (t.ctr (line / 64)).minors.get 0 (line % 64) = (s.ctr (line / 64)).minors.get 0 (line % 64) + 1)) ∧
      ∀ x p, l.tag = some (x, p) → (s.ctx x).uld < p → (t.ctx x).uld = (s.ctx x).rph) ∧
  (∀ (s : State) (line : Nat), (∀ l, s.pkg.l2.find? line = some l → l.dirty = false) → exec (.writeBack line) s = .next s) ∧
  (∀ (s : State) (bank : Nat) (r : MergeReq) (rest : List MergeReq) (l : L2Line), s.pkg.mergeQ.get [] bank = r :: rest →
    s.pkg.l2.find? r.line = some l → r.w.asid = none → (∀ x ∈ s.pkg.ctxs, x.2.logTrap = false) →
    ∃ (t : State) (l' : L2Line), exec (.homeBankMerge bank) s = .next t ∧ t.mem = s.mem ∧ t.pkg.mergeQ.get [] bank = rest ∧
      t.pkg.l2.find? r.line = some l' ∧ l'.dirty = true ∧ Laid l.data l'.data r.data r.mask) ∧
  (∀ (s : State) (bank a : Nat) (r : MergeReq) (rest : List MergeReq) (l : L2Line), s.pkg.mergeQ.get [] bank = r :: rest →
    s.pkg.l2.find? r.line = some l → r.w.asid = some a → (s.ctx a).span = true → winOf (s.ownerOf (r.line / 16384)) = 0 →
    (s.ctx a).rph + 192 + (s.ctx a).sealRoom - (s.ctx a).ult ≤ (s.ctx a).ring' → 192 ≤ (s.ctx a).ring' → (∀ x ∈ s.pkg.ctxs, x.2.logTrap = false) →
    ∃ (t : State) (l' : L2Line), exec (.homeBankMerge bank) s = .next t ∧ t.mem = s.mem ∧ t.pkg.mergeQ.get [] bank = rest ∧
      t.pkg.l2.find? r.line = some l' ∧ Laid l.data l'.data r.data r.mask ∧ l'.tag = some (a, (s.ctx a).rph + 192) ∧ (t.ctx a).rph = (s.ctx a).rph + 192 ∧
      ∀ i < 128, (t.ctx a).log.get 0 (((s.ctx a).rph + 64 + i) % (s.ctx a).ring') = byteOf l.data i) ∧
  (∀ (s : State) (pa len : Nat) (d : Option (List Byte)), isHbm pa = false ∨ granOk (granOf pa) = false ∨ s.ownerOf (granOf pa) = 0x3FE →
    exec (.peerApertureAccess pa len d) s = .next s) ∧
  (∀ (s : State) (pa : Nat) (bs : List Byte) (l : L2Line), isHbm pa = true → granOk (granOf pa) = true → s.ownerOf (granOf pa) ≠ 0x3FE → bs ≠ [] → pa % 128 + bs.length ≤ 128 →
    s.pkg.l2.find? (lineOf pa) = some l → s.pkg.mergeQ.get [] (s.homeBank (lineOf pa)) = [] →
    ∃ (t : State) (l' : L2Line), exec (.peerApertureAccess pa bs.length (some bs)) s = .next t ∧ t.mem = s.mem ∧ t.pkg.l2.find? (lineOf pa) = some l' ∧
      (∀ i b, bs[i]? = some b → byteOf l'.data (pa % 128 + i) = b) ∧
      ∀ o < 128, o < pa % 128 ∨ pa % 128 + bs.length ≤ o → byteOf l'.data o = byteOf l.data o) ∧
  ∀ (s : State) (pa len : Nat) (l : L2Line), isHbm pa = true → granOk (granOf pa) = true → s.ownerOf (granOf pa) ≠ 0x3FE → 0 < len → pa % 128 + len ≤ 128 →
    s.pkg.l2.find? (lineOf pa) = some l → s.pkg.mergeQ.get [] (s.homeBank (lineOf pa)) = [] →
    ∃ (t : State) (l' : L2Line), exec (.peerApertureAccess pa len none) s = .next t ∧ t.mem = s.mem ∧ t.pkg.l2.find? (lineOf pa) = some l' ∧ l'.data = l.data

/-- Metadata, logs, seals, keys, walks and invalidations: what each event changes (03 R67; 04 R82, R87, R88, R99; 13 R262, R269, R270, R272). -/
def Obligations.RecoveryAndTranslationEvents : Prop :=
  (∀ (s : State) (chunk : Nat), chunk ∈ s.pkg.metaDirty → let g := (formGroup chunk (s.ctr chunk) s).2
    (logRoom s g = true → ∃ t, exec (.metadataEviction chunk) s = .next t ∧ t.mem = s.mem ∧ chunk ∉ t.pkg.metaDirty ∧
      t.pkg.metaLog = s.pkg.metaLog.filter (fun e => e.chunk ≠ chunk) ++ [g] ∧ g.chunk = chunk ∧ g.committed = false ∧ g.blk.minors = (s.ctr chunk).minors ∧
      g.nodes.map Prod.fst = (s.nodesOf chunk).map Prod.fst ∧ (s.now, Instr.metadataGroupCommit chunk) ∈ t.agenda) ∧
    (logRoom s g = false → ∃ t, exec (.metadataEviction chunk) s = .next t ∧ t.mem = s.mem ∧ t.pkg = s.pkg ∧ (s.now + 2, Instr.metadataEviction chunk) ∈ t.agenda)) ∧
  (∀ (s : State) (chunk : Nat) (g : MetaGroup), s.pkg.metaLog.find? (fun e => e.chunk = chunk) = some g → g.committed = false →
    ∃ t, exec (.metadataGroupCommit chunk) s = .next t ∧ t.mem = s.mem ∧ t.pkg.ctrDur = s.pkg.ctrDur ∧ t.pkg.tree = s.pkg.tree ∧
      t.pkg.metaLog.find? (fun e => e.chunk = chunk) = some { g with committed := true } ∧ (s.now, Instr.metadataGroupCommit chunk) ∈ t.agenda) ∧
  (∀ (s : State) (chunk : Nat) (g : MetaGroup), s.pkg.metaLog.find? (fun e => e.chunk = chunk) = some g → g.committed = true →
    ∃ t, exec (.metadataGroupCommit chunk) s = .next t ∧ t.mem = s.mem ∧ t.pkg.ctrDur.get {} chunk = g.blk ∧
      t.pkg.metaLog = s.pkg.metaLog.filter (fun e => e.chunk ≠ chunk)) ∧
  (∀ (s : State) (asid : Nat), let c := s.ctx asid
    (c.rph ≤ c.uld → exec (.logLineAck asid) s = .next s) ∧
    (c.uld < c.rph → ∃ t, exec (.logLineAck asid) s = .next t ∧ t.ctx asid = { c with uld := min c.rph ((c.uld / 128 + 1) * 128) } ∧
      (∀ a, a / 2 ^ 21 ∉ c.logGr → SMap.get 0 t.mem a = SMap.get 0 s.mem a) ∧
      ∀ pa, c.logPa (128 * (c.uld / 128)) = some pa → pa % 128 = 0 → t.rawBytes pa 128 = c.recAt (128 * (c.uld / 128)) 128)) ∧
  (∀ (s : State) (asid : Nat), (s.ctx asid).clearing = true → ∃ t, exec (.bitmapClearDone asid) s = .next t ∧ t.mem = s.mem ∧
    t.ctx asid = if (s.ctx asid).bsel then { s.ctx asid with bitmap0 := [], clearing := false } else { s.ctx asid with bitmap1 := [], clearing := false }) ∧
  (∀ (s : State) (asid : Nat), let c := s.ctx asid
    c.recv = true → 7 * c.ring' < 8 * (c.rph - c.ult) → c.sealing = none →
    ∃ t, exec (.recoveryReserveSeal asid) s = .next t ∧ t.mem = s.mem ∧ (t.ctx asid).sealing = some { num := c.rpn + 1, lpos := c.rph, chain := c.rpc, core := (c.sealCores ++ [0]).headD 0 } ∧
      (t.ctx asid).rps.getLsbD 2 = true ∧ (t.ctx asid).sealQueue = c.sealQueue ++ [none] ∧
      ∀ k ∈ coresOf s asid, ∃ g, t.group k = some g ∧ g.stopReq = true) ∧
  (∀ (s : State) (asid : Nat) (r : SealRun), let c := s.ctx asid
    c.sealing = some r → r.recorded = true → c.sealQueue = [none] →
    ∃ t, exec (.sealRecordWritten asid) s = .next t ∧
      ((∀ r ∈ s.pkg.relays, asid ∉ r.2.ctxs) → ∀ a, c.sealGr ≠ some (a / 2 ^ 21) → SMap.get 0 t.mem a = SMap.get 0 s.mem a) ∧ (t.ctx asid).rpn = r.num ∧ (t.ctx asid).sealing = none ∧ (t.ctx asid).clearing = true ∧
      (t.ctx asid).rps.getLsbD 0 = decide (r.num % 2 = 1) ∧ (t.ctx asid).rps.getLsbD 1 = !c.rps.getLsbD 1 ∧ (t.ctx asid).rps.getLsbD 2 = false ∧
      (if r.num % 2 = 0 then (t.ctx asid).seal0 else (t.ctx asid).seal1).durable = true) ∧
  (∀ (s : State) (owner : Nat), owner ≤ 511 → (∀ a ∈ ownerCtxs s owner, contextStill s a = true) →
    ∃ t, exec (.rekey owner) s = .next t ∧ t.mem = s.mem ∧ t.svc.draws = s.svc.draws + 1 ∧ (t.fn owner).key = s.svc.draws + 1 ∧
      ∀ ch ∈ ownerChunks s owner, (t.ctr ch).major = 0 ∧ (t.ctr ch).minors = []) ∧
  (∀ (s s' : State) (core asid va pte e cost : Nat) (acc : Acc), (s.ctx asid).valid = true → isHbm (s.ctx asid).root = true →
    s.ownerOf (granOf (s.ctx asid).root) = 0 → walkFrom core asid (s.ctx asid).fnum (va % 2 ^ 56) 4 (s.ctx asid).root s = (s', .leaf pte e, cost) →
    e.testBit 10 = true → (acc = .write ∧ e.testBit 5 = true → e.testBit 11 = true) →
    let x := { tlbOf asid (va % 2 ^ 56) pte e with ready := walkDone s' (core / 8) cost }
    ∃ t, exec (.pageWalk core asid va acc) s = .next t ∧ t.mem = s'.mem ∧ { asid := asid, page := va % 2 ^ 56 / 65536, until_ := x.ready : WalkKey } ∈ t.pkg.walkKeys.get [] (core / 8) ∧ (t.core core).tlb.head? = some x ∧ (t.pkg.rtlb.get [] (core / 8)).head? = some x) ∧
  (∀ (s : State) (core asid va : Nat) (acc : Acc), (s.ctx asid).valid = false → exec (.pageWalk core asid va acc) s = .next s) ∧
  (∀ (s : State) (req : BitVec 128), invalOk req.toNat = true → Drained s →
    ∃ t, exec (.invalidationRequest req) s = .next t ∧ t.mem = s.mem ∧
      (if invalHeld s req.toNat then t.svc.reports = s.svc.reports ∧ (s.now + 2, Instr.invalidationRequest req) ∈ t.agenda
       else t.svc.reports = s.svc.reports ++ [{ what := "INVAL_DONE", fn := none, addr := req.toNat }]) ∧
      (∀ k e, e ∈ (t.core k).tlb ↔ e ∈ (s.core k).tlb ∧ invalCovers s req.toNat e = false) ∧
      (∀ r e, e ∈ t.pkg.rtlb.get [] r ↔ e ∈ s.pkg.rtlb.get [] r ∧ invalCovers s req.toNat e = false) ∧
      ∀ r l, l ∈ t.pkg.walk.get [] r ↔ l ∈ s.pkg.walk.get [] r ∧ ∀ e ∈ walkEntries l, invalCovers s req.toNat e = false) ∧
  (∀ (s : State) (req : BitVec 128), invalOk req.toNat = false →
    ∃ t, exec (.invalidationRequest req) s = .next t ∧ t.cores = s.cores ∧ t.pkg = s.pkg ∧ t.mem = s.mem ∧
      t.svc.reports = s.svc.reports ++ [{ what := "INVAL_REFUSED", fn := none, addr := req.toNat }]) ∧
  ∀ (s : State) (die line core : Nat) (g : Group), s.group core = some g →
    ∃ t x, exec (.gondolaFill die line core) s = .next t ∧ t.mem = s.mem ∧ (t.pkg.gondola.get [] die).head? = some x ∧ x.line = line ∧
      x.pres.getLsbD (core % 128) = true ∧ (s.asidOf g, (lineCode s line).1, (lineCode s line).2 / 4) ∈ (t.core core).l1

/-! ## Engines at work (06 R121 to R125, R128 to R140) -/

/-- The engines: a waiting command is accepted in its turn once its queue has a place; a started CPY takes a free engine, and each piece that it moves
stands at its destination; a completed command leaves its queue, and the counter follows an unbroken run of numbers; a page fault parks the command and frees the
engine; a fault, a collective whose members do not agree, and an abort end the launch (06 R121 to R124, R129, R134, R135, R138, R140). -/
def Obligations.EngineEvents : Prop :=
  (∀ (s : State) (core : Nat) (g : Group) (c : Crew) (r : AcceptReq) (rest : List AcceptReq), s.crew core = some (g, c) → c.accepting = r :: rest →
    let key := engKey r.cmd.asid r.cls (core / 128)
    (s.eng key).queue.length < 256 → (s.eng key).waiting.head? = some (core, c.ctx) → c.region.buf.length < 768 →
    ∃ (t : State) (g' : Group) (c' : Crew), exec (.engineAccept core) s = .next t ∧ t.mem = s.mem ∧ t.crew core = some (g', c') ∧ c'.accepting = rest ∧
      (t.eng key).last = (s.eng key).last + 1 ∧ (t.eng key).queue = (s.eng key).queue ++ [{ r.cmd with num := (s.eng key).last + 1 }] ∧
      (t.eng key).waiting = (s.eng key).waiting.drop 1 ∧ c'.region.buf = c.region.buf ++ [.engine r.cls ((s.eng key).last + 1)] ∧
      c'.inflight = c.inflight ++ [{ at_ := s.cycle, deadline := max s.cycle r.deadline, cls := .s, reg := r.reg, slot := 0, lane := 0
                                     val := BitVec.ofNat 64 ((s.eng key).last + 1), held := true }]) ∧
  (∀ (s s' : State) (die cls key i : Nat) (c : EngCmd),
    arbitrate die cls (257 * (s.pkg.eng.length + 1)) (s.pkg.arb.get 0 (die * 2 + cls)) s = (s', some (key, c, i)) → c ∈ (s'.eng key).queue →
    ((s'.eng key).queue.map EngCmd.num).Nodup → c.op ≠ 0x73 → (s'.core c.core).dfifo = [] → (s'.core c.core).link = [] →
    ∃ t, exec (.engineStart die cls) s = .next t ∧ t.mem = s'.mem ∧ t.cores = s'.cores ∧
      t.pkg.runs.find? (runKey die cls i) = some { ctx := key, num := c.num, doneAt := s'.now, tag := s'.pkg.nextTag } ∧
      cmdOf t key c.num = some { c with started := true }) ∧
  (∀ (s : State) (tag od os m : Nat) (g : Group) (c : EngCmd), c.op = 0x70 → s.group c.core = some g → g.launch = c.launch →
    g.cluster = c.cluster → (∀ b < 12, g.modeOf b = some 1) → c.was = [] → c.srcLine = none →
    let src := c.src % 2 ^ 19 + os
    let dst := c.dst % 2 ^ 19 + od
    c.src / 2 ^ 60 % 16 = 14 → c.dst / 2 ^ 60 % 16 = 14 → c.src / 2 ^ 32 % 512 = c.core → c.dst / 2 ^ 32 % 512 = c.core → src + m ≤ 393216 →
    dst + m ≤ 393216 → 0 < m → m ≤ 128 →
    ∃ (t : State) (g' : Group) (c' : EngCmd), moveOne tag c od os m s = (t, .ok (some c')) ∧ c'.done = c.done + m ∧ t.mem = s.mem ∧
      t.group c.core = some g' ∧ (∀ j < m, g'.scratch.get 0 (dst + j) = g.scratch.get 0 (src + j)) ∧
      ∀ a, a < dst ∨ dst + m ≤ a → g'.scratch.get 0 a = g.scratch.get 0 a) ∧
  (∀ (s : State) (die cls eng : Nat) (r : EngRun) (c : EngCmd), running s die cls eng = some (r, c) → r.doneAt ≤ s.now → moveTotal c ≤ c.done →
    performed s r.tag c = true → c.flag = none →
    ∃ t, exec (.engineComplete die cls eng) s = .next t ∧ t.mem = s.mem ∧ t.pkg.runs.find? (runKey die cls eng) = none ∧ cmdOf t r.ctx c.num = none ∧
      ((s.eng r.ctx).ended = [] → (t.eng r.ctx).counter = if c.num = (s.eng r.ctx).counter + 1 then c.num else (s.eng r.ctx).counter)) ∧
  (∀ (s : State) (die cls eng : Nat) (r : EngRun) (c : EngCmd) (va : Nat) (acc : Acc), running s die cls eng = some (r, c) →
    c.done < moveTotal c → parkedAt c s = some (va, acc) →
    ∃ t, exec (.enginePageFault die cls eng) s = .next t ∧ t.pkg.runs.find? (runKey die cls eng) = none ∧
      cmdOf t r.ctx c.num = some { c with parked := some (va % 2 ^ 56), started := false } ∧ (t.eng r.ctx).counter = (s.eng r.ctx).counter) ∧
  (∀ (s : State) (l : Launch) (x : CollRun) (r : EngRun) (c : EngCmd) (die cls eng cause : Nat), s.pkg.launches.find? c.launch = some l →
    l.complete = false → l.abandoned = false → l.status = none → let info := c.num % 2 ^ 47 * 2 ^ 17 + c.done / 128
    (running s die cls eng = some (r, c) →
      ∃ t, exec (.engineFault die cls eng cause) s = .next t ∧ (t.launch c.launch).status = some (1, 18, cause, info)) ∧
    (∀ vs, collCmd s x.domain x.collid = some (x, c) →
      ∃ t, exec (.collMeet x.domain x.collid false vs) s = .next t ∧ (t.launch c.launch).status = some (1, 18, 33, info)) ∧
    (collCmd s x.domain x.collid = some (x, c) →
      ∃ t, exec (.collAbort x.domain x.collid) s = .next t ∧ (t.launch c.launch).status = some (1, 18, 34, info))) ∧
  (∀ (s s₁ s' : State) (x : CollRun) (c : EngCmd) (own : List Byte) (vs : List (List Byte)), collCmd s x.domain x.collid = some (x, c) →
    let d := collDesc x.desc.toNat
    let n := d.count * tyBytes c.ty.toNat
    let out := collResult c.kind c.cop c.ty.toNat d.count d.rank (vs.set d.rank own)
    c.parked = none → c.refetch = false → (s.ctx c.asid).sealing = none → (s.ctx c.asid).logHeld = false → vs.length = d.nmem →
    (∀ v ∈ vs, v.length = n) → collSend x.tag c d n n x.own s = (s₁, own, none) → (s₁.ctx c.asid).span = false → (s₁.ctx c.asid).recv = false →
    collRecv x.tag { c with marked := true } d out out.length x.wrote (modCmd x.ctx c.num (fun y => { y with marked := true }) s₁) = (s', out.length, none) →
    performed s' x.tag { c with marked := true } = true → c.flag = none →
    ∃ t, exec (.collMeet x.domain x.collid true vs) s = .next t ∧ t.mem = s'.mem ∧ t.cores = s'.cores ∧ cmdOf t x.ctx c.num = none) ∧
  ∀ (cop ty count rank : Nat) (vs : List (List Byte)), (∀ v ∈ vs, v.length = count * tyBytes ty) → collResult 1 cop ty count rank vs = vs.flatten

/-! ## Launches, translation and scheduling (02 R39; 15 R315 to R320; 16 R325 to R339; 17 R341 to R347; 18 R369 to R375) -/

/-- The dispatcher: an entry that claims more than the queue holds halts it; a resolved entry becomes the head; an admitted kernel is kept, and a
refused one remembered; a head that may start, with no completion due and no head before it, takes its events and moves RIDX on, past an entry of the ring that stands; a bound that has run ends its launch with status 2;
a launch whose crews and commands have ended writes its completion record; the event ring's timer raises the interrupt that is pending
(02 R39; 15 R315 to R317; 16 R326 to R329, R337, R339). -/
def Obligations.DispatchEvents : Prop :=
  (∀ (s : State) (a q : Nat), let qu := (s.ctx a).queues.get {} q
    (mayTake s a q = false → exec (.queueTake a q) s = .next s) ∧
    (mayTake s a q = true → 2 ^ qu.qlog.toNat < (qu.widx - qu.ridx).toNat →
      ∃ t, exec (.queueTake a q) s = .next t ∧ ((t.ctx a).queues.get {} q).halt = true ∧ ((t.ctx a).queues.get {} q).ridx = qu.ridx) ∧
    ∀ (b : List Byte) (s₁ s' : State) (l : Launch), mayTake s a q = true → (qu.widx - qu.ridx).toNat ≤ 2 ^ qu.qlog.toNat →
      readCtx a ((qu.qbase.toNat * 128 + 128 * (qu.ridx.toNat % 2 ^ qu.qlog.toNat)) % 2 ^ 56) 128 s = (s₁, .ok b) →
      resolve a q qu.ridx.toNat (leNat b)
        ((modQueue a q (fun x => { x with credit := x.credit - 1 }) s₁).modPkg fun p => { p with nextLaunch := p.nextLaunch + 1 }) = (s', .ok l) →
      ∃ t, exec (.queueTake a q) s = .next t ∧ t.mem = s'.mem ∧ t.launch s₁.pkg.nextLaunch = l ∧
        ((t.ctx a).queues.get {} q).head = some s₁.pkg.nextLaunch ∧ ((t.ctx a).queues.get {} q).headOld = false) ∧
  (∀ (s s' : State) (asid kobj kidx : Nat) (k : Option Kernel), admitRead asid kobj kidx s = (s', k) →
    ∃ t, exec (.admission asid kobj kidx) s = .next t ∧ t.mem = s'.mem ∧
      t.pkg.kernels.head? = some (k.getD { asid := asid, kobj := kobj, kidx := kidx, refused := true })) ∧
  (∀ (s : State) (a q n : Nat) (l : Launch) (kn : Kernel), ((s.ctx a).queues.get {} q).head = some n → s.pkg.launches.find? n = some l → l.kernel = some kn →
    kn.paramSz = 0 → startFails s l = none → headsBefore s a q = [] → dueCompletions s a = [] →
    (eligible s l = true → mayStart s a = true → windowOk s a q (BitVec.ofNat 32 l.lidx) = true → startWait s a = 0 → ∃ t, exec (.launchStart a q) s = .next t ∧
      ((∀ x ∈ s.pkg.trans, x.2.base = none) → t.mem = s.mem) ∧ (t.launch n).started = true ∧
      ((t.ctx a).queues.get {} q).head = none ∧ ((t.ctx a).queues.get {} q).ridx =
        (if ((s.ctx a).queues.get {} q).headOld then ((s.ctx a).queues.get {} q).ridx else ((s.ctx a).queues.get {} q).ridx + 1) ∧
      ∀ i < 256, (t.ctx a).evv.getLsbD i = ((s.ctx a).evv.getLsbD i && !((recEclr l.bits * 2 ^ (64 * recCq l.bits)).testBit i))) ∧
    (eligible s l = false → exec (.launchStart a q) s = .next s)) ∧
  (∀ (s : State) (n t₀ : Nat) (l : Launch), s.pkg.launches.find? n = some l → l.complete = false → l.abandoned = false → l.status = none →
    l.runSince = some t₀ →
    timeLimit s n ≤ l.ran + (s.now - t₀) →
    ∃ t, exec (.timeBound n) s = .next t ∧ (t.launch n).status = some (2, 0, 0, 0) ∧ (t.launch n).placed = [] ∧ (t.launch n).suspended = []) ∧
  (∀ (s : State) (n : Nat) (l : Launch), s.pkg.launches.find? n = some l → completable s n = true → (∀ c ∈ s.cores, c.2.dfifo = [] ∧ c.2.link = []) →
    s.pkg.linkBad = [] → (s.ctx l.asid).ring.en = false → l.q < 8 →
    ∃ (t : State) (b : List Byte), exec (.launchCompletion n) s = .next t ∧ t.mem = s.mem ∧ (t.launch n).complete = true ∧
      (t.ctx l.asid).ring.held = (s.ctx l.asid).ring.held ++ [(b, some n)] ∧ b.length = 32 ∧ leNat b / 2 ^ 64 % 2 ^ 32 = l.lidx % 2 ^ 32 ∧ leNat b / 2 ^ 96 % 8 = l.q ∧
      (l.status = none → leNat b / 2 ^ 112 % 2 ^ 16 = 0)) ∧
  ∀ (s : State) (asid t₀ : Nat), let r := (s.ctx asid).ring
    r.firstAt = some t₀ → r.etim ≠ 0 → 0 < r.pending → t₀ + 1600 * r.etim.toNat ≤ s.now →
    ∃ t, exec (.eventRingTimer asid) s = .next t ∧ t.mem = s.mem ∧ (t.ctx asid).ring.pending = 0 ∧ (t.ctx asid).ring.firstAt = none ∧
      (t.fn (s.fnOf asid)).msix = (s.fn (s.fnOf asid)).msix ++ [r.vec.toNat]

/-- The translation service: a host that has sent nothing leaves the launch to quick translation; its result serves every launch that waits for
the key; the Groomer takes on a translation that its kernel lets it, and its result replaces it for later entries; sixteen conflicts of one
region, once there is room, replace it by a copy in which that region begins at its twin (log 90; 11 R238; 17 R341, R343, R346, R347). -/
def Obligations.TranslationEvents : Prop :=
  (∀ (s : State) (n m : Nat) (k : Key) (l : Launch) (kn : Kernel), (s.launch n).key = some k →
    (s.pkg.launches.filter fun l => awaits k l.2).head? = some (m, l) → s.launch m = l → l.kernel = some kn →
    ∃ t, exec (.transreqTimeout n) s = .next t ∧ t.mem = s.mem ∧ t.svc.pairs = (takePairs kn s).1.svc.pairs ∧
      ((takePairs kn s).2, Instr.quickTranslationDone m) ∈ t.agenda ∧ (s.svc.pairs = [] → (takePairs kn s).2 = s.now + quickTime kn)) ∧
  (∀ (s : State) (n : Nat) (k : Key) (kn : Kernel), (s.launch n).key = some k → (s.launch n).kernel = some kn →
    (∃ x ∈ s.pkg.launches, x.1 = n ∧ x.2 = s.launch n ∧ awaits k x.2 = true) →
    (∀ t₀, findTrans s k (s.part (s.partOfLaunch n)).locked = some t₀ → ((s.part (s.partOfLaunch n)).locked = true → ∀ x, s.trans t₀ = some x → x.quick = true) →
      ∃ t, exec (.quickTranslationDone n) s = .next t ∧ (t.launch n).tr = some t₀ ∧ (t.launch n).waitTr = false) ∧
    (findTrans s k (s.part (s.partOfLaunch n)).locked = none → ∃ t, exec (.quickTranslationDone n) s = .next t ∧
      ∀ p, (makeSpace (transRoom (quickTrans k kn)) (s.pkg.trans.length + 1) s = (s, some p) → (t.launch n).tr = some s.pkg.nextTrans ∧ (t.launch n).waitTr = false ∧
        ∃ x, t.trans s.pkg.nextTrans = some x ∧ x.key = k ∧ x.quick = (quickTrans k kn).quick ∧ x.base = some p))) ∧
  (∀ (s : State) (tr : Nat), groomable s tr = true → ∃ t x, exec (.groomStart tr) s = .next t ∧ t.mem = s.mem ∧ t.trans tr = some x ∧ x.grooming = true ∧ x.kernel = kernelOfTrans s tr) ∧
  (∀ (s : State) (tr p : Nat) (pkg : List Byte) (x : Trans) (y : XPkg) (side : List CPoint), s.trans tr = some x → parsePkg pkg = some y → x.grooming = true →
    lockedUse s tr = false → (∀ kn, kernelOfTrans s tr = some kn → sameSegments kn y = true) → hoistsOk y = true → y.groomed = true → y.chash = x.key.hash.toNat → y.vbc = x.key.vbc.toNat → y.fmask = x.key.fmask.toNat →
    validate x.key.fmask.toNat (mayHoist s tr) y = .ok side → makeSpace (transRoom (transOf y side x.key pkg)) (s.pkg.trans.length + 1) s = (s, some p) →
    s.pkg.nextTrans ≠ tr →
    ∃ t a b, exec (.groomedInstall tr pkg) s = .next t ∧ t.trans tr = some a ∧ a.stale = true ∧ a.grooming = false ∧
      t.trans s.pkg.nextTrans = some b ∧ b.key = x.key ∧ b.code = y.code ∧ b.groomed = true ∧ b.base = some p ∧
      ∀ n l, s.pkg.launches.find? n = some l → l.tr = some tr → liveLaunch l = true → (t.launch n).tr = some s.pkg.nextTrans) ∧
  (∀ (s : State), List.find? (conflictDue s) s.pkg.trans = none → exec .conflictLimit s = .next s) ∧
  ∀ (s : State) (n : Nat) (x : Trans), List.find? (conflictDue s) s.pkg.trans = some (n, x) → s.trans n = some x →
    ((makeSpace (transRoom x) (s.pkg.trans.length + 1) s).2 = none → exec .conflictLimit s = .next s) ∧
    ∀ p, s.pkg.nextTrans ≠ n → makeSpace (transRoom x) (s.pkg.trans.length + 1) s = (s, some p) →
      ∃ t y z, exec .conflictLimit s = .next t ∧ t.trans n = some y ∧ y.stale = true ∧ y.conf = x.conf ∧
        t.trans s.pkg.nextTrans = some z ∧ z.key = x.key ∧ z.code = x.code ∧ z.conf = [] ∧ z.stale = false ∧ z.base = some p ∧
        z.noSp = x.noSp ++ (x.conf.filter fun c => 16 ≤ c.2).map Prod.fst

/-- Placement and pre-emption: an evaluation places a cluster where it fits, its groups starting with their strand numbers in v0; a stop asks the
cores of a cluster, and what does not come to a commit point in time is rolled back; a still cluster is saved with its groups and restored
on its cores; the tenant slice passes in turn, and the outgoing function's launches are pre-empted at the operator bound; a launch that was
unplaceable for 100 ms ends with status 7 (15 R319, R320; 16 R332, R333; 18 R369, R371 to R374; 19 R383). -/
def Obligations.SchedulingEvents : Prop :=
  (∀ (s : State) (p n r : Nat) (l : Launch) (cores : List Nat), s.pkg.launches = [(n, l)] → placementList s p = [(n, l)] → (s.part p).pending = [] →
    (s.part p).unlock = false → s.pkg.bankHeld = [] → (s.part p).reserve = none → (s.part p).slice ≠ none → unplaceable s n l = false → placeable s l = true →
    l.suspended = [] → l.grid = l.nextCluster + 1 → firstFit s p n l.nextCluster l = some (r, cores) →
    ∃ t, exec (.placementEvaluation p) s = .next t ∧ (t.launch n).placed = l.placed ++ [(l.nextCluster, cores)] ∧ (t.launch n).nextCluster = l.grid ∧
      ∀ i k, cores[i]? = some k → ∃ g, t.group k = some g ∧ g.launch = n ∧ g.cluster = l.nextCluster ∧ g.gnum = i ∧ g.live = List.range l.spg ∧
        ∀ j < l.spg, g.getV (j / 64) 0 (j % 64) = BitVec.ofNat 32 j) ∧
  (∀ (s : State) (n cl k : Nat) (l : Launch) (g : Group), s.pkg.launches.find? n = some l → l.preempt = [] → l.placed = [(cl, [k])] → s.group k = some g →
    g.launch = n → g.cluster = cl → g.stopReq = false →
    ∃ (t : State) (g' : Group), exec (.urgentPreemption n) s = .next t ∧ t.mem = s.mem ∧ (t.launch n).preempt = [cl] ∧ t.group k = some g' ∧ g'.stopReq = true ∧
      g'.stopAt = s.now + 8704) ∧
  (∀ (s : State) (core : Nat) (g : Group) (c : Crew), s.crew core = some (g, c) → g.stopReq = true → g.stopAt ≤ s.now → g.blocked = [] → g.compute = none →
    g.retire = none → c.region.buf = [] → c.accepting = [] → c.region.pushed = [] → c.region.released = false → c.handler = false →
    ∃ (t : State) (g' : Group) (r : Ready), exec (.preemptionTimeout core) s = .next t ∧ t.mem = s.mem ∧ t.group core = some g' ∧ g'.running = none ∧
      g'.frontier.ready = g.frontier.ready ++ [r] ∧ r.crew.pc = c.region.entry ∧ r.crew.seg = c.region.seg ∧ r.crew.strands = c.strands ∧ r.whole = false) ∧
  (∀ (s : State) (n cl k : Nat) (l : Launch) (g : Group), s.pkg.launches.find? n = some l → l.preempt = [cl] → l.placed = [(cl, [k])] → s.group k = some g →
    g.launch = n → g.cluster = cl → g.still = true → g.stopReq = true → strayEntries g = false → (s.core k).dfifo = [] → s.pkg.mergeQ = [] →
    ∃ (t : State) (x : Saved) (g' : Group), exec (.contextSave n cl) s = .next t ∧
      (match (s.ctx l.asid).spillGr.find? (k / 8) with
       | none => t.mem = s.mem ∧ g'.spill = g.spill
       | some gr => ∀ a, a < gr * 2 ^ 21 + k % 8 * 262144 ∨ gr * 2 ^ 21 + k % 8 * 262144 + 262144 ≤ a → (∀ e ∈ g.spill, e.1 < 262144) →
           SMap.get 0 t.mem a = SMap.get 0 s.mem a) ∧ t.group k = none ∧ (t.launch n).placed = [] ∧
      (t.launch n).preempt = [] ∧ (t.launch n).suspended = l.suspended ++ [x] ∧ x.cluster = cl ∧ x.cores = [k] ∧ x.groups = [(k, g')] ∧ g'.x = g.x ∧ g'.c = g.c ∧ g'.v = g.v ∧
      g'.p = g.p ∧ g'.ctxs = g.ctxs ∧ g'.scratch = g.scratch ∧ g'.z0 = { g.z0 with pins := [] } ∧ g'.z1 = { g.z1 with pins := [] } ∧ g'.flags = g.flags ∧
      g'.frontier = g.frontier ∧ g'.clk = g.clk + (s.cycle - g.since)) ∧
  (∀ (s : State) (n k : Nat) (l : Launch) (x : Saved) (g : Group), s.pkg.launches.find? n = some l → l.suspended = [x] → x.groups = [(k, g)] →
    canRestore s n x = true → (s.core k).cache = [] →
    ∃ (t : State) (g' : Group), exec (.contextRestore n x.cluster) s = .next t ∧ t.mem = s.mem ∧ t.group k = some g' ∧ (t.launch n).suspended = [] ∧
      (t.launch n).placed = l.placed ++ [(x.cluster, x.cores)] ∧ g'.x = g.x ∧ g'.v = g.v ∧ g'.p = g.p ∧ g'.ctxs = g.ctxs ∧ g'.scratch = g.scratch ∧
      g'.z0 = g.z0 ∧ g'.z1 = g.z1 ∧ g'.frontier = g.frontier ∧ g'.since = s.cycle ∧ g'.clk = g.clk ∧
      ((s.ctx l.asid).spillGr.find? (k / 8) = none → g'.spill = g.spill)) ∧
  (∀ (s : State) (p f f' : Nat), (s.part p).slice = some f → (s.part p).sliceAt + sliceOf s p f ≤ s.now → f' ≠ f →
    ((fnsOf s p).filter (f < ·) ++ (fnsOf s p).filter (· ≤ f)).find? (hasWork s) = some f' →
    ∃ t, exec (.tenantSliceEnd p) s = .next t ∧ t.mem = s.mem ∧ (t.part p).slice = some f' ∧ (t.part p).sliceAt = s.now ∧ (t.part p).outgoing = some (f, s.now)) ∧
  (∀ (s : State) (p f t₀ : Nat), (s.part p).outgoing = some (f, t₀) → t₀ + 1600 * (100 * (s.part p).opb) ≤ s.now → (s.part p).slice ≠ some f →
    ∃ t, exec (.operatorBoundExpiry p) s = .next t ∧ t.mem = s.mem ∧ (t.part p).outgoing = none ∧
      ∀ n l, (n, l) ∈ s.pkg.launches → s.pkg.launches.find? n = some l → s.fnOf l.asid = f → s.partOfLaunch n = p → recPclass l.bits = 0 →
        ∀ c ∈ l.placed, c.1 ∈ (t.launch n).preempt) ∧
  (∀ (s : State), (∀ l ∈ s.pkg.launches, l.2.headSince = none) → exec .reservationAgeing s = .next s) ∧
  (∀ (s : State) (p n t₀ : Nat) (l : Launch), s.pkg.parts = [(p, s.part p)] → s.pkg.launches = [(n, l)] → s.partOfLaunch n = p → l.headSince = some t₀ →
    t₀ + 1600 * (s.part p).age ≤ s.now → ∃ t, exec .reservationAgeing s = .next t ∧ exec (.placementEvaluation p) s = .next t) ∧
  ∀ (s : State) (n t₀ : Nat) (l : Launch), s.pkg.launches = [(n, l)] → l.unplacedAt = some t₀ → l.complete = false → l.abandoned = false → l.status = none →
    t₀ + 160000000 ≤ s.now → ∃ t, exec .coopUnplaceable s = .next t ∧ (t.launch n).status = some (7, 0, 0, 0) ∧ (t.launch n).placed = []

/-! ## What the host writes (15 R326; 16 R336, R338, R339; 19 R386; 20 R396 to R399, R412, R415) -/

/-- The host's stores into the package: a queue's control word keeps an enabled queue as it is, or disables it, or sets a disabled one, or
enables it with both indices at 0; a write index is taken as it is; the event-ring control words; what a register window posts, writes or
discards; a doorbell runs the command that its message holds, the owner's once no earlier command of the owner
is under way, and one that waits is taken then; and the host window reads ones where it is disabled, and else the bytes of
the address that it maps (16 R326, R338; 19 R379, R386; 20 R396, R397, R412, R415). -/
def Obligations.HostWrites : Prop :=
  (∀ (s : State) (a q : Nat) (v : BitVec 64), q < 8 → let qu := (s.ctx a).queues.get {} q
    let set : Queue := { qu with qlog := v.extractLsb' 56 5, qbase := v.extractLsb' 7 49 }
    ∃ t, exec (.queueControlWrite a q v) s = .next t ∧ t.mem = s.mem ∧ t.cores = s.cores ∧ t.svc = s.svc ∧
      (∀ q' ≠ q, (t.ctx a).queues.get {} q' = (s.ctx a).queues.get {} q') ∧
      (qu.en = true → v.getLsbD 63 = true → t = s) ∧
      (qu.en = true → v.getLsbD 63 = false → (t.ctx a).queues.get {} q = { set with en := false }) ∧
      (qu.en = false → v.getLsbD 63 = false → (t.ctx a).queues.get {} q = set) ∧
      (qu.en = false → v.getLsbD 63 = true → 6 ≤ (v.extractLsb' 56 5).toNat → (v.extractLsb' 56 5).toNat ≤ 20 →
        ((s.ctx a).recv = false ∨ openOf s a q = []) →
        (t.ctx a).queues.get {} q = { set with en := true, ridx := 0, widx := 0, halt := false, headOld := qu.head.isSome }) ∧
      (qu.en = false → v.getLsbD 63 = true → ((v.extractLsb' 56 5).toNat < 6 ∨ 20 < (v.extractLsb' 56 5).toNat) → t = s)) ∧
  (∀ (s : State) (a q : Nat) (v : BitVec 32), q < 8 →
    ∃ t, exec (.widxWrite a q v) s = .next t ∧ t.mem = s.mem ∧ t.cores = s.cores ∧ t.svc = s.svc ∧
      (t.ctx a).queues.get {} q = { (s.ctx a).queues.get {} q with widx := v } ∧
      ∀ q' ≠ q, (t.ctx a).queues.get {} q' = (s.ctx a).queues.get {} q') ∧
  (∀ (s : State) (a n : Nat) (v : BitVec 64), (s.ctx a).ring.held = [] → let r := (s.ctx a).ring
    ∃ t, exec (.eventRingControlWrite a n v) s = .next t ∧ t.mem = s.mem ∧ t.cores = s.cores ∧ t.svc = s.svc ∧
      (n = 0 → (t.ctx a).ring.base = v.extractLsb' 12 44 ∧ (t.ctx a).ring.en = v.getLsbD 63 ∧
        (v.getLsbD 63 = true → r.en = false → (t.ctx a).ring.ewi = 0 ∧ (t.ctx a).ring.eri = 0) ∧
        (v.getLsbD 63 = false ∨ r.en = true → (t.ctx a).ring.ewi = r.ewi ∧ (t.ctx a).ring.eri = r.eri)) ∧
      (n = 2 → (t.ctx a).ring = if (r.ewi - v.extractLsb' 32 32).toNat ≤ 4096 then { r with eri := v.extractLsb' 32 32 } else r) ∧
      (n = 3 → (t.ctx a).ring = { r with ecnt := v.extractLsb' 20 12, etim := v.extractLsb' 32 16, vec := v.extractLsb' 48 11 }) ∧
      (n ≠ 0 → n ≠ 2 → n ≠ 3 → t = s)) ∧
  (∀ (s : State) (fn off : Nat) (v : BitVec 64), fn < 512 →
    ∃ t, exec (.registerWrite fn off v) s = .next t ∧ t.mem = s.mem ∧ t.cores = s.cores ∧ t.svc = s.svc ∧
      (off % 8 ≠ 0 → t = s) ∧
      (off % 8 = 0 → off < 2048 → t.agenda = s.agenda ∧ (∀ i < 8, SMap.get 0 (t.fn fn).req (off + i) = byteAt v.toNat i) ∧
        ∀ j, (∀ i < 8, j ≠ off + i) → SMap.get 0 (t.fn fn).req j = SMap.get 0 (s.fn fn).req j) ∧
      (off = 0xFF8 → t.pkg = s.pkg ∧ (s.now, Instr.functionDoorbell fn (SMap.getList 0 (s.fn fn).req 0 2048)) ∈ t.agenda) ∧
      (off = 0x2000 → (t.fn fn).hw0 = v &&& 0x8000000000000FFF) ∧
      (off = 0x2008 → (t.fn fn).hw1 = v &&& 0x00FFFFFFFFFF0000) ∧
      (∀ a j q, slotCtx s fn j = some a → j < 8064 → q < 8 →
        (off = 0x10000 + 512 * j + 32 * q → (s.now, Instr.queueControlWrite a q v) ∈ t.agenda) ∧
        (off = 0x10000 + 512 * j + 32 * q + 16 → (s.now, Instr.widxWrite a q (v.extractLsb' 0 32)) ∈ t.agenda) ∧
        (off = 0x10000 + 512 * j + 32 * q + 8 → t = s)) ∧
      (∀ a j n, slotCtx s fn j = some a → j < 8064 → n < 4 → off = 0x10000 + 512 * j + 256 + 8 * n → (s.now, Instr.eventRingControlWrite a n v) ∈ t.agenda) ∧
      ∀ j, slotCtx s fn j = none → 0x10000 + 512 * j ≤ off → off < 0x10000 + 512 * (j + 1) → t = s) ∧
  (∀ (s : State) (fn off n : Nat) (bs : List Byte), fn < 512 → (s.fn fn).hw0.getLsbD 63 = false →
    exec (.hostWindowAccess fn off n (some bs)) s = .next s ∧
    ∃ t, exec (.hostWindowAccess fn off n none) s = .next t ∧ t.mem = s.mem ∧ (t.fn fn).hwRead = some (List.replicate n 0xFF)) ∧
  (∀ (s s' : State) (fn off n a : Nat) (x : Phys), fn < 512 → (s.fn fn).hw0.getLsbD 63 = true → slotCtx s fn ((s.fn fn).hw0.extractLsb' 0 12).toNat = some a →
    let va := ((s.fn fn).hw1.extractLsb' 16 40).toNat * 65536 + off
    va < 2 ^ 56 → 0 < n → va % 128 + n ≤ 128 →
    (∀ s'' b, svcTranslate a va .read s = (s', .ok x) → physRead x.pa n s' = (s'', some b) →
      ∃ t, exec (.hostWindowAccess fn off n none) s = .next t ∧ t.mem = s''.mem ∧ (t.fn fn).hwRead = some b) ∧
    (svcTranslate a va .read s = (s', .error .addrUnmapped) → ∃ t, exec (.hostWindowAccess fn off n none) s = .next t ∧ t.mem = s'.mem ∧
      (t.fn fn).hwRead = none ∧ (t.fn fn).hwErr = (s'.fn fn).hwErr + 1 ∧ ∃ r ∈ t.svc.reports, r.fn = some fn ∧ r.addr = va) ∧
    ∀ bs s'', svcTranslate a va .write s = (s', .ok x) → bs.length = n → physWrite {} x.pa bs s' = (s'', true) →
      exec (.hostWindowAccess fn off n (some bs)) s = .next s'') ∧
  (∀ (s : State) (m : Master) (msg : List Byte) (c : Nat) (h : CmdHdr) (w : List W64), 1 ≤ m.cls → m.cls ≤ 3 → decodeMsg m msg = some (c, h, some w) →
    let s₁ := if m.cls = 1 then s.modSvc fun v => { v with ready := false } else s
    let s' := if s.svc.owner = some m then s₁.modSvc fun v => { v with heard := s.now } else s₁
    answers h c s' = true →
    ((s.svc.owner = some m → s.svc.inbox = [] ∧ underWay s = false) →
      (∀ i, mkCmd c h w = some i → exec (.ownerDoorbell m msg) s = exec i s' ∧ ∃ t, exec (.ownerDoorbell m msg) s = .next t) ∧
      (mkCmd c h w = none → ∃ t, exec (.ownerDoorbell m msg) s = .next t ∧ t.mem = s.mem)) ∧
    (s.svc.owner = some m → underWay s = true →
      exec (.ownerDoorbell m msg) s = .next (s'.modSvc fun v => { v with inbox := v.inbox ++ [(m, msg)] })) ∧
    (∀ rest i, s.svc.inbox = (m, msg) :: rest → underWay s = false → mkCmd c h w = some i →
      exec (.ownerDoorbell m []) s = exec i (s.modSvc fun v => { v with inbox := rest }))) ∧
  ∀ (s : State) (fn c : Nat) (msg : List Byte) (h : CmdHdr) (w : List W64), fn < 512 → decodeMsg { cls := 0, ep := fn } (msg.take 2048) = some (c, h, some w) →
    let s' := s.modFn fn fun f => { f with ready := false }
    answers h c s' = true →
    (∀ i, mkCmd c h w = some i → exec (.functionDoorbell fn msg) s = exec i s' ∧ ∃ t, exec (.functionDoorbell fn msg) s = .next t) ∧
    (mkCmd c h w = none → ∃ t, exec (.functionDoorbell fn msg) s = .next t ∧ (t.fn h.from_.ep).ready = true ∧ t.mem = s.mem)

/-! ## Commands of the owner (19 R378 to R387, R414; 20 R394, R396, R398, R399, R412) -/

namespace Sys2Proof.Claims

/-- The owner sends a command, from a master that is no function mailbox, to a package that has booted. -/
def Owns (h : CmdHdr) (s : State) : Prop := s.svc.booted = true ∧ s.svc.owner = some h.from_ ∧ h.from_.cls ≠ 0

/-- The owner has been heard from: what the package notes of any command of its owner before the command's effect. -/
def heard (s : State) : State := s.modSvc fun v => { v with heard := s.now }

/-- The last message that the package sent answers a command: status, refusal name and words. -/
def Says (t : State) (h : CmdHdr) (code status : Nat) (name : String) (ws : List W64) : Prop :=
  t.svc.out.getLast? = some { dest := h.from_, cmd := code, tag := h.tag, status := status, name := name, payload := ws }

/-- Nothing but the service die's own records has changed. -/
def OnlySvc (s t : State) : Prop := t.mem = s.mem ∧ t.cores = s.cores ∧ t.pkg.ctxs = s.pkg.ctxs ∧ t.pkg.parts = s.pkg.parts ∧ t.pkg.owners = s.pkg.owners ∧
  t.pkg.launches = s.pkg.launches ∧ t.pkg.trans = s.pkg.trans

/-- A word of an operand list. -/
abbrev wd (n : Nat) : W64 := BitVec.ofNat 64 n

end Sys2Proof.Claims

/-- Who may command: a package that has not booted answers nothing; a command that is not of a mailbox's kind is refused with BAD_COMMAND; and a
command of the owner from another master is answered with status 1 and has no other effect. The host may send six of them as well (20 Table 20.2;
R394, R396, R399). -/
def Obligations.CommandAccess : Prop :=
  ∀ (i : Instr) (c : Nat) (h : CmdHdr) (w : List W64) (s : State), cmdOf i = some (c, h, w) →
    let fnKind := decide (0x60 ≤ c)
    let free := decide (c ∈ [0x01, 0x04, 0x57])
    let byHost := decide (c ∈ [0x20, 0x23, 0x25, 0x26, 0x34, 0x36])
    (s.svc.booted = false → s.svc.dead = false → exec i s = .next s) ∧
    (s.svc.booted = true → h.from_.cls = 0 → fnKind = false → exec i s = .next (answer h c 3 "BAD_COMMAND" [] s)) ∧
    (s.svc.booted = true → h.from_.cls ≠ 0 → fnKind = true → exec i s = .next (answer h c 3 "BAD_COMMAND" [] s)) ∧
    (s.svc.booted = true → s.svc.dead = false → h.from_.cls ≠ 0 → fnKind = false → free = false → s.svc.owner ≠ some h.from_ →
      (byHost = false ∨ h.from_.cls ≠ 1) → exec i s = .next (answer h c 1 "" [] s)) ∧
    ∀ st name ws, h.from_.cls ≠ 0 → Claims.Says (answer h c st name ws s) h c st name ws ∧ Claims.OnlySvc s (answer h c st name ws s)

/-- Ownership and configuration: a claim is held while the window is open, wins where there is no owner and is else answered with the
owner's class; KEEP is heard; a handover waits for the target's acceptance, which makes it the owner; a partition's record, bank entries and
chair positions, and a function's record, are what the command carries (19 R378 to R382, R384, R385). -/
def Obligations.OwnershipCommands : Prop :=
  (∀ (s : State) (h : CmdHdr), s.svc.booted = true → 1 ≤ h.from_.cls → h.from_.cls ≤ 3 →
    ∃ t, exec (.claim h []) s = .next t ∧ Claims.OnlySvc s t ∧
      (s.svc.window.isSome = true → t.svc.claims = s.svc.claims ++ [(h.from_, h.tag)] ∧ t.svc.out = s.svc.out ∧ t.svc.owner = s.svc.owner) ∧
      (s.svc.window = none → s.svc.owner = none → t.svc.owner = some h.from_ ∧ Claims.Says t h 1 0 "" [] ∧
        (s.now + 4800000000, Instr.ownershipLapse) ∈ t.agenda) ∧
      ∀ m, s.svc.window = none → s.svc.owner = some m → t.svc.owner = some m ∧ Claims.Says t h 1 2 "" [Claims.wd m.cls]) ∧
  (∀ (s : State) (h : CmdHdr), Claims.Owns h s → ∃ t, exec (.keep h []) s = .next t ∧ Claims.OnlySvc s t ∧ t.svc.heard = s.now ∧ t.svc.owner = s.svc.owner ∧
    Claims.Says t h 2 0 "" []) ∧
  (∀ (s : State) (h : CmdHdr) (m : Master), Claims.Owns h s → s.svc.handover = none → 1 ≤ m.cls → m.cls ≤ 3 → m.ep < 256 → (m.cls = 1 → m.ep = 0) →
    ∃ t, exec (.handover h [Claims.wd (m.cls + m.ep * 256)]) s = .next t ∧ Claims.OnlySvc s t ∧ t.svc.handover = some (m, h, s.now) ∧ t.svc.owner = s.svc.owner ∧
      t.svc.out = s.svc.out ∧ (s.now + 160000000, Instr.handoverTimeout) ∈ t.agenda) ∧
  (∀ (s : State) (h h' : CmdHdr) (t₀ : Nat), s.svc.booted = true → h.from_.cls ≠ 0 → h'.from_.cls ≠ 0 → s.svc.handover = some (h.from_, h', t₀) →
    s.now ≤ t₀ + 160000000 →
    ∃ t, exec (.accept h []) s = .next t ∧ Claims.OnlySvc s t ∧ t.svc.owner = some h.from_ ∧ t.svc.handover = none ∧ Claims.Says t h 4 0 "" [] ∧
      ({ dest := h'.from_, cmd := 3, tag := h'.tag, status := 0 } : Reply) ∈ t.svc.out) ∧
  (∀ (s : State) (h : CmdHdr) (w : List W64), Claims.Owns h s → let c := pconfOf w
    (∀ e, pconfFails s w = some e → ∃ t, exec (.pconfig h w) s = .next t ∧ Claims.OnlySvc s t ∧ Claims.Says t h 0x10 3 e []) ∧
    (pconfFails s w = none → s.pkg.launches = [] → s.pkg.bankHeld = [] → (s.part c.p).pending = [] → (s.part c.p).unlock = false →
      banksPinned s c.banks = false →
      ∃ t, exec (.pconfig h w) s = .next t ∧ Claims.Says t h 0x10 0 "" [] ∧ (c.banks = [] → (∀ x ∈ s.pkg.ctxs, x.2.live = true → (s.fn x.2.fnum).part ≠ c.p) → t.mem = s.mem ∧ t.cores = s.cores) ∧
        (t.part c.p).record = c.record ∧ (t.part c.p).pending = [] ∧ (∀ p ≠ c.p, t.part p = s.part p) ∧
        (∀ b e, (c.banks.filter fun x => x.1 = b).getLast? = some (b, e) → t.pkg.banks.get 0 b = if bankMode e = 0 then 0 else e) ∧
        (∀ b, (∀ x ∈ c.banks, x.1 ≠ b) → t.pkg.banks.get 0 b = s.pkg.banks.get 0 b) ∧
        (∀ d tb x, c.maps = [(d, tb, x)] → ∀ i < 2048, chairSoon t d tb i =
          if x.testBit i then 0x40 + c.p else if chairSoon s d tb i = 0x40 + c.p then (if i < 2016 then 0 else 0x80) else chairSoon s d tb i) ∧
        (s.now, Instr.placementEvaluation c.p) ∈ t.agenda)) ∧
  ∀ (s : State) (h : CmdHdr) (r : BitVec 128), Claims.Owns h s → let f := (r.extractLsb' 40 9).toNat
    let w := [r.extractLsb' 0 64, r.extractLsb' 64 64]
    fconfFails s w = none →
    ((s.fn f).en = false ∨ r.getLsbD 50 = true →
      ∃ t, exec (.fconfig h w) s = .next t ∧ Claims.Says t h 0x11 0 "" [] ∧ t.mem = s.mem ∧ t.cores = s.cores ∧ (t.fn f).record = r ∧
        (∀ k ≠ f, (t.fn k).record = (s.fn k).record ∧ (t.fn k).key = (s.fn k).key) ∧ ((s.fn f).en = true → (t.fn f).key = (s.fn f).key) ∧
        ((s.fn f).en = false → r.getLsbD 50 = true → (t.fn f).key = s.svc.draws + 1 ∧ (t.fn f).errc = 0 ∧ (t.fn f).erru = 0 ∧ (t.fn f).errp = 0 ∧
          (t.fn f).errs = 0 ∧ (t.fn f).errk = 0)) ∧
    ((s.fn f).en = true → r.getLsbD 50 = false → s.pkg.launches = [] → s.pkg.eng = [] →
      ∃ t, exec (.fconfig h w) s = .next t ∧ Claims.Says t h 0x11 0 "" [] ∧ (t.fn f).record = r ∧ (t.fn f).key = (if f = 0 then s.svc.draws + 1 else 0) ∧
        (∀ a c, t.pkg.ctxs.find? a = some c → c.live = true → c.fnum ≠ f) ∧
        ∀ g o, s.pkg.owners.find? g = some o → fld 9 0 o.toNat = f → (∀ x ∈ s.pkg.ctxs, g ∉ x.2.tblGr) → t.ownerOf g = 0x3FE)

/-- Windows, launches and granules: a window takes free granules under a key of its own and gives them back; a dispatch allows so many more entries
of a queue; a restore rewrites granules from the host and a discard with zeros; a grant names free granules and a revoke frees the granules it
names; a free or a revoke waits while an access to the granules has not performed (04 R74, R76, R88, R100, R102; 19 R387, R414). -/
def Obligations.GranuleCommands : Prop :=
  (∀ (s : State) (h : CmdHdr) (n ng : Nat) (ms : List Nat) (gs : List Nat), Claims.Owns h s → 1 ≤ n → n < 256 → 1 ≤ ms.length → ms.length ≤ 8 → 1 ≤ ng → ng ≤ 4094 →
    (∀ m ∈ ms, m < 1024 ∧ (s.fn (m % 512)).fmask.testBit 6 = false) → s.pkg.wins.find? n = none → freeGranules s ng = some gs →
    ∃ t win, exec (.winnew h (Claims.wd (n + ms.length * 256 + ng * 2 ^ 32) :: ms.map Claims.wd)) s = .next t ∧ Claims.Says t h 0x12 0 "" (gs.map Claims.wd) ∧
      t.pkg.wins.find? n = some win ∧ win.members = ms.map (fun m => (m % 512, m.testBit 9)) ∧ win.granules = gs ∧
      win.key = s.svc.draws + 1 ∧ ∀ g ∈ gs, t.ownerOf g = 512 + n) ∧
  (∀ (s : State) (h : CmdHdr) (n : Nat) (win : Window), Claims.Owns h s → n < 2 ^ 64 → s.pkg.wins.find? n = some win →
    (granHeld s win.granules = false → Claims.Drained s → ∃ t, exec (.winfree h [Claims.wd n]) s = .next t ∧ Claims.Says t h 0x13 0 "" [] ∧
      t.pkg.wins.find? n = none ∧ t.mem = s.mem ∧ ∀ g ∈ win.granules, t.ownerOf g = 0x3FE) ∧
    (granHeld s win.granules = true → ∃ t, exec (.winfree h [Claims.wd n]) s = .next t ∧ t.mem = s.mem ∧ t.svc.out = s.svc.out ∧ t.pkg.wins = s.pkg.wins ∧
      t.pkg.owners = s.pkg.owners ∧ (s.now + 2, Instr.winfree h [Claims.wd n]) ∈ t.agenda)) ∧
  (∀ (s : State) (h : CmdHdr) (a q n : Nat), Claims.Owns h s → a < 4096 → (s.ctx a).live = true → q < 8 → 1 ≤ n → n < 2 ^ 32 →
    ∃ t, exec (.dispatch h [Claims.wd (a + q * 4096), Claims.wd n]) s = .next t ∧ Claims.Says t h 0x14 0 "" [] ∧ t.mem = s.mem ∧ t.cores = s.cores ∧
      ((t.ctx a).queues.get {} q).credit = ((s.ctx a).queues.get {} q).credit + n ∧ (s.now, Instr.queueTake a q) ∈ t.agenda) ∧
  (∀ (s : State) (h : CmdHdr) (o g bus : Nat), Claims.Owns h s → s.ownerOf g = o → o ≠ 0x3FE → granOk g = true → bus + 2 ^ 21 ≤ 2 ^ 50 →
    (∃ t, exec (.restoreGr h [Claims.wd (o + 2 ^ 32), Claims.wd g, Claims.wd bus]) s = .next t ∧ Claims.Says t h 0x15 0 "" [] ∧ t.ownerOf g = o ∧
      (∀ i < 2 ^ 21, SMap.get 0 t.mem (g * 2 ^ 21 + i) = SMap.get 0 s.mem (2 ^ 51 + bus + i)) ∧
      ∀ x, x / 2 ^ 21 ≠ g → SMap.get 0 t.mem x = SMap.get 0 s.mem x) ∧
    ∃ t, exec (.discardGr h [Claims.wd (o + 2 ^ 32), Claims.wd g]) s = .next t ∧ Claims.Says t h 0x16 0 "" [] ∧ t.ownerOf g = o ∧
      (∀ i < 2 ^ 21, SMap.get 0 t.mem (g * 2 ^ 21 + i) = 0) ∧ ∀ x, x / 2 ^ 21 ≠ g → SMap.get 0 t.mem x = SMap.get 0 s.mem x) ∧
  (∀ (s : State) (h : CmdHdr) (f n : Nat), Claims.Owns h s → f < 512 → 1 ≤ n → n ≤ 4094 →
    (∀ gs, freeGranules s n = some gs → ∃ t, exec (.grant h [Claims.wd (f + n * 2 ^ 32)]) s = .next t ∧ Claims.Says t h 0x17 0 "" (gs.map Claims.wd) ∧
      ∀ g ∈ gs, t.ownerOf g = f) ∧
    (freeGranules s n = none → ∃ t, exec (.grant h [Claims.wd (f + n * 2 ^ 32)]) s = .next t ∧ Claims.OnlySvc s t ∧ Claims.Says t h 0x17 3 "NO_GRANULE" [])) ∧
  ∀ (s : State) (h : CmdHdr) (f : Nat) (gs : List Nat), Claims.Owns h s → f < 512 → 1 ≤ gs.length → gs.length ≤ 4094 → (∀ g ∈ gs, granOk g = true ∧ s.ownerOf g = f) →
    let w := Claims.wd (f + gs.length * 2 ^ 32) :: gs.map Claims.wd
    ((∀ g ∈ gs, granBusy s g = false) → granHeld s gs = false → Claims.Drained s → ∃ t, exec (.revoke h w) s = .next t ∧ Claims.Says t h 0x18 0 "" [] ∧
      ∀ g ∈ gs, t.ownerOf g = 0x3FE) ∧
    ((∀ g ∈ gs, granBusy s g = false) → granHeld s gs = true → ∃ t, exec (.revoke h w) s = .next t ∧ t.mem = s.mem ∧ t.svc.out = s.svc.out ∧
      t.pkg.owners = s.pkg.owners ∧ (s.now + 2, Instr.revoke h w) ∈ t.agenda) ∧
    ((∃ g ∈ gs, granBusy s g = true) → ∃ t, exec (.revoke h w) s = .next t ∧ Claims.OnlySvc s t ∧ Claims.Says t h 0x18 3 "GRANULE_BUSY" [])

/-- Commands of a function's mailbox: a new context takes the lowest free slot and number, with an empty table; a context without launches
goes with its granules; a lazy range is entered; and a range is taken out of a context's mapping once no access under it is left. Each answers in the mailbox and raises its
vector (04 R77, R86; 19 R386; 20 R396). -/
def Obligations.MailboxCommands : Prop :=
  (∀ (s : State) (h : CmdHdr) (a j g g' : Nat) (gs : List Nat), s.svc.booted = true → h.from_.cls = 0 → h.from_.ep < 512 → (s.fn h.from_.ep).en = true →
    ((List.range ((s.fn h.from_.ep).maxc + 1)).find? fun j => !((ctxsOf s h.from_.ep).map fun a => (s.ctx a).slot).contains j) = some j →
    ((List.range 4096).find? fun a => !(s.ctx a).live) = some a → freeGranules s (2 + (fnRegions s h.from_.ep).length) = some (g :: g' :: gs) →
    ∃ t, exec (.ctxnew h []) s = .next t ∧ (t.fn h.from_.ep).reply = replyBytes 0x60 h.tag 0 "" [Claims.wd (a + j * 2 ^ 16)] ∧ (t.fn h.from_.ep).ready = true ∧
      (t.fn h.from_.ep).msix = (s.fn h.from_.ep).msix ++ [0] ∧ t.svc = s.svc ∧ (t.ctx a).live = true ∧ (t.ctx a).fnum = h.from_.ep ∧ (t.ctx a).slot = j ∧
      (t.ctx a).valid = true ∧ (t.ctx a).queues = [] ∧ (t.ctx a).evv = 0 ∧ (t.ctx a).ulc = 0 ∧ t.ownerOf g = 0 ∧ (∀ x ∈ g' :: gs, t.ownerOf x = h.from_.ep) ∧
      (t.ctx a).spillGr = List.zip (fnRegions s h.from_.ep) gs ∧
      (∀ i < 2 ^ 21, SMap.get 0 t.mem (g * 2 ^ 21 + i) = 0) ∧ ∀ b ≠ a, t.ctx b = s.ctx b) ∧
  (∀ (s : State) (h : CmdHdr) (a : Nat), s.svc.booted = true → h.from_.cls = 0 → (s.fn h.from_.ep).en = true → a < 4096 → (s.ctx a).live = true →
    s.fnOf a = h.from_.ep →
    ((s.pkg.launches.any fun l => l.2.asid = a && liveLaunch l.2) = false →
      ∃ t, exec (.ctxfree h [Claims.wd a]) s = .next t ∧ (t.fn h.from_.ep).reply = replyBytes 0x61 h.tag 0 "" [] ∧
        ((∀ l ∈ s.pkg.launches, l.2.waitTr = false) → t.svc = s.svc) ∧ t.mem = s.mem ∧ t.ctx a = {} ∧
        (∀ b ≠ a, t.ctx b = s.ctx b) ∧ (∀ g ∈ (s.ctx a).tblGr ++ (s.ctx a).saveGr ++ (s.ctx a).logGr ++ (s.ctx a).sealGr.toList, t.ownerOf g = 0x3FE) ∧
        ∀ k, ∀ e ∈ (t.core k).tlb, e.asid ≠ a) ∧
    ((s.pkg.launches.any fun l => l.2.asid = a && liveLaunch l.2) = true →
      ∃ t, exec (.ctxfree h [Claims.wd a]) s = .next t ∧ (t.fn h.from_.ep).reply = replyBytes 0x61 h.tag 3 "LAUNCH_LIVE" [] ∧ t.pkg.ctxs = s.pkg.ctxs ∧
        t.mem = s.mem)) ∧
  (∀ (s : State) (h : CmdHdr) (a va n rw sz : Nat), s.svc.booted = true → h.from_.cls = 0 → (s.fn h.from_.ep).en = true → hwPaging s h.from_.ep = true →
    a < 4096 → (s.ctx a).live = true → s.fnOf a = h.from_.ep → va % pageBytes sz = 0 → n % pageBytes sz = 0 → 0 < n → va + n ≤ 2 ^ 56 → sz ≤ 2 → rw < 4 →
    rw % 2 = 1 → (s.ctx a).frames = [] → (s.ctx a).maps = [] → (∀ c ∈ s.cores, c.2.dfifo = [] ∧ c.2.link = []) → s.pkg.mergeQ = [] →
    ∃ t, exec (.mapMem h [Claims.wd a, Claims.wd va, Claims.wd n, Claims.wd (rw + 4 + sz * 8)]) s = .next t ∧ (t.fn h.from_.ep).reply = replyBytes 0x62 h.tag 0 "" [] ∧
      t.svc = s.svc ∧ (t.ctx a).maps = [(va, n, rw, true, sz)] ∧ (t.ctx a).frames = [] ∧ ∀ b ≠ a, t.ctx b = s.ctx b) ∧
  ∀ (s : State) (h : CmdHdr) (a va n : Nat), s.svc.booted = true → h.from_.cls = 0 → (s.fn h.from_.ep).en = true → hwPaging s h.from_.ep = true →
    a < 4096 → (s.ctx a).live = true → s.fnOf a = h.from_.ep → va % 65536 = 0 → n % 65536 = 0 → 0 < n → va + n ≤ 2 ^ 56 →
    ((unmapLeaves a va n s).2 = false → ∃ t, exec (.unmapMem h [Claims.wd a, Claims.wd va, Claims.wd n]) s = .next t ∧ t.svc.out = s.svc.out ∧
      (s.now + 2, Instr.unmapMem h [Claims.wd a, Claims.wd va, Claims.wd n]) ∈ t.agenda) ∧
    ((unmapLeaves a va n s).2 = true → ∃ t, exec (.unmapMem h [Claims.wd a, Claims.wd va, Claims.wd n]) s = .next t ∧ (t.fn h.from_.ep).reply = replyBytes 0x63 h.tag 0 "" [] ∧
      (∀ m ∈ (t.ctx a).maps, m.1 + m.2.1 ≤ va ∨ va + n ≤ m.1) ∧
      ∀ f ∈ (t.ctx a).frames, ∀ v ∈ f.2.2, ∃ f' ∈ (s.ctx a).frames, f'.1 = f.1 ∧ v ∈ f'.2.2)

/-! ## Commands of the recovery, translation, debugger and package services (13 R264, R272 to R285; 17 R341, R342, R349, R350; 18 R377;
20 R391 to R395, R400, R401; 23 R408 to R410) -/

/-- The recovery service: LOGSET sets ULC of a context without clusters; SEALREQ performs a release where nothing is logged and else starts
the next seal; DRAIN copies records to the host and moves the span tail; REVERSE undoes every line newer than a gate, or reports a record out of form; RECOVER walks a context back;
a relay is formed over its contexts, each asked for a seal, and a rebuild takes them back to the parity point (13 R264, R272, R277 to R285; 23 R408 to
R410). -/
def Obligations.RecoveryCommands : Prop :=
  (∀ (s : State) (h : CmdHdr) (a v : Nat), Claims.Owns h s → a < 4096 → (s.ctx a).live = true → v < 2 ^ 64 → ulcOk v = true →
    ((s.fn (s.fnOf a)).fmask.testBit 5 = false ∨ v % 4 = 0) →
    (ctxPlaced s a = true → ∃ t, exec (.logset h [Claims.wd a, Claims.wd v]) s = .next t ∧ Claims.OnlySvc s t ∧ Claims.Says t h 0x20 3 "CTX_RUNNING" []) ∧
    (ctxPlaced s a = false → cmdsStarted s a = true → ∃ t, exec (.logset h [Claims.wd a, Claims.wd v]) s = .next t ∧ t.mem = s.mem ∧ t.svc.out = s.svc.out ∧
      (t.ctx a).logset = true ∧ (s.now + 2, Instr.logset h [Claims.wd a, Claims.wd v]) ∈ t.agenda) ∧
    (ctxPlaced s a = false → cmdsStarted s a = false → mergesHeld (mergeAll (releaseCores (Claims.heard s))) a = true →
      ∃ t, exec (.logset h [Claims.wd a, Claims.wd v]) s = .next t ∧ t.svc.out = s.svc.out ∧ (t.ctx a).logset = true ∧ (t.ctx a).ulc = (s.ctx a).ulc ∧
        ∃ n, (n, Instr.logset h [Claims.wd a, Claims.wd v]) ∈ t.agenda) ∧
    (ctxPlaced s a = false → cmdsStarted s a = false → mergesHeld (mergeAll (releaseCores (Claims.heard s))) a = false → ∀ s',
      (sealGran a (v.testBit 1) (mergeAll (releaseCores (Claims.heard s)))).bind (logGrans a (if v % 4 = 0 then 0 else 2 ^ fld 12 8 v / 2 ^ 21)) = some s' →
      ∃ t, exec (.logset h [Claims.wd a, Claims.wd v]) s = .next t ∧ Claims.Says t h 0x20 0 "" [] ∧ (t.ctx a).logset = false ∧
        (t.ctx a).span = v.testBit 0 ∧ (t.ctx a).recv = v.testBit 1 ∧ (t.ctx a).full = fld 3 2 v ∧ (v % 4 ≠ 0 → (t.ctx a).ulc = BitVec.ofNat 64 v) ∧
        ((s'.ctx a).recv = false → v.testBit 1 = true → (s'.ctx a).heldRecs = [] → (t.ctx a).rpn = 0 ∧ (t.ctx a).seal0.durable = true ∧ (t.ctx a).recTail = (s'.ctx a).rph) ∧
        (v.testBit 1 = false → (t.ctx a).bitmap0 = [] ∧ (t.ctx a).bitmap1 = []))) ∧
  (∀ (s : State) (h : CmdHdr) (a : Nat), Claims.Owns h s → a < 4096 → (s.ctx a).live = true →
    ((s.ctx a).recv = false → ∃ t, exec (.sealreq h [Claims.wd a]) s = .next t ∧ t.mem = (recoveryRelease a (drainAll a (Claims.heard s))).mem ∧
      Claims.Says t h 0x23 0 "" [Claims.wd (s.ctx a).rpn]) ∧
    ((s.ctx a).recv = true → (s.ctx a).sealing = none → ∃ t r, exec (.sealreq h [Claims.wd a]) s = .next t ∧ t.mem = s.mem ∧ t.svc.out = s.svc.out ∧
      (t.ctx a).sealing = some r ∧ r.num = (s.ctx a).rpn + 1 ∧ (t.ctx a).sealQueue = (s.ctx a).sealQueue ++ [some h] ∧ (t.ctx a).rps.getLsbD 2 = true ∧
      ∀ k g, k ∈ coresOf s a → s.group k = some g → ∃ g', t.group k = some g' ∧ g'.stopReq = true)) ∧
  (∀ (s : State) (h : CmdHdr) (a bus room sp : Nat), Claims.Owns h s → a < 4096 → (s.ctx a).live = true → (s.ctx a).dbg = true → sp < 2 ^ 32 →
    bus + room ≤ 2 ^ 50 → let c := s.ctx a
    let e := if c.span then max c.spanAt (c.spanEnd sp) else c.spanAt
    e - c.spanAt ≤ room → c.heldRecs = [] →
    ∃ t, exec (.drain h [Claims.wd a, Claims.wd bus, Claims.wd room, Claims.wd sp]) s = .next t ∧ t.cores = s.cores ∧
      Claims.Says t h 0x22 0 "" [Claims.wd (e - c.spanAt), Claims.wd e] ∧ (t.ctx a).spanTail = e ∧ (t.ctx a).uld = c.rph ∧ (t.ctx a).rph = c.rph ∧
      t.rawBytes (2 ^ 51 + bus) (c.recAt c.spanAt (e - c.spanAt)).length = c.recAt c.spanAt (e - c.spanAt) ∧
      ∀ x, x < 2 ^ 51 + bus → x / 2 ^ 21 ∉ c.logGr → SMap.get 0 t.mem x = SMap.get 0 s.mem x) ∧
  (∀ (s : State) (h : CmdHdr) (a n : Nat) (sel : Bool), Claims.Owns h s → a < 4096 → (s.ctx a).live = true → (s.ctx a).dbg = true → n < 2 ^ 32 → s.cores = [] →
    s.pkg.mergeQ = [] → s.pkg.launches = [] → s.pkg.eng = [] → let c := s.ctx a
    let w := [Claims.wd a, Claims.wd (n + sel.toNat * 2 ^ 32)]
    let s₁ := forceLog a ((Claims.heard s).modCtx a fun c => { c with stopped := true })
    let s₂ := s₁.modCtx a fun c => { c with log := c.ringNow s₁ }
    let d := s₂.ctx a
    (∀ p, c.span = true → c.gateFor sel n = some p → c.horizonAfter p = none → d.horizonAfter p = none → (d.between (p + 1) d.rph).all d.formAt = false →
      ∃ t, exec (.reverse h w) s = .next t ∧ Claims.Says t h 0x21 3 "LOG_BAD" [] ∧ (t.ctx a).rph = c.rph) ∧
    (∀ p, c.span = true → c.gateFor sel n = some p → c.horizonAfter p = none → d.horizonAfter p = none → (d.between (p + 1) d.rph).all d.formAt = true →
      ∃ t, exec (.reverse h w) s = .next t ∧ Claims.Says t h 0x21 0 "" [Claims.wd p] ∧ (t.ctx a).rph = p + 64 ∧ (t.ctx a).uld = p + 64 ∧ (t.ctx a).stopped = true ∧
        (∀ r ∈ (t.ctx a).logIndex, r.1 ≤ p) ∧ t.mem = (foldS (d.between (p + 1) d.rph) (undoLine a) s₂).mem) ∧
    (∀ p q, c.span = true → c.gateFor sel n = some p → c.horizonAfter p = none → d.horizonAfter p = some q → ∃ t ws, exec (.reverse h w) s = .next t ∧
      Claims.Says t h 0x21 3 "HORIZON_BLOCK" ws ∧ (t.ctx a).rph = c.rph) ∧
    (∀ p q, c.span = true → c.gateFor sel n = some p → c.horizonAfter p = some q → ∃ t ws, exec (.reverse h w) s = .next t ∧ t.mem = s.mem ∧
      Claims.Says t h 0x21 3 "HORIZON_BLOCK" ws ∧ (t.ctx a).rph = c.rph) ∧
    ((c.span = false ∨ c.gateFor sel n = none) → ∃ t, exec (.reverse h w) s = .next t ∧ t.mem = s.mem ∧ Claims.Says t h 0x21 3 "NO_GATE" [])) ∧
  (∀ (s : State) (h : CmdHdr) (a : Nat), Claims.Owns h s → a < 4096 → (s.ctx a).live = true → cmdsStarted (stopForRecover a (Claims.heard s)) a = true →
    ∃ t, exec (.recover h [Claims.wd a]) s = .next t ∧ (t.ctx a).recovering = true ∧ ∃ n, (n, Instr.recover h [Claims.wd a]) ∈ t.agenda) ∧
  (∀ (s s' : State) (h : CmdHdr) (a : Nat) (r : Recovered), Claims.Owns h s → a < 4096 → (s.ctx a).live = true → cmdsStarted (stopForRecover a (Claims.heard s)) a = false →
    recoverCtx a none (stopForRecover a (Claims.heard s)) = (s', r) → r.bad = [] →
    ∃ t, exec (.recover h [Claims.wd a]) s = .next t ∧ t.mem = s'.mem ∧ t.cores = s'.cores ∧ t.ctx a = s'.ctx a ∧ (t.ctx a).recovering = false ∧ Claims.Says t h 0x24 0 "" (wordsOf r.header) ∧
      (r.point = none → ∃ x ∈ t.svc.reports, x.what = "NO_POINT" ∧ x.addr = a)) ∧
  (∀ (s : State) (a : Nat), let c := s.ctx a
    reloadLog a s = s → c.sealValid c.seal0.bytes = true → c.sealValid c.seal1.bytes = false → let x := leNat c.seal0.bytes
    (c.between (fld 191 128 x) c.uld).all c.formAt = true →
    ∃ t r, walkBack a none s = (t, r) ∧ r.point = some c.seal0.bytes ∧ (t.ctx a).rpn = fld 127 64 x ∧ (t.ctx a).rph = fld 191 128 x ∧
      (t.ctx a).uld = fld 191 128 x ∧ (t.ctx a).rpc = BitVec.ofNat 256 (fld 511 256 x) ∧ (t.ctx a).evv = BitVec.ofNat 256 (fld 1023 768 x) ∧
      (t.ctx a).sealing = none ∧ (t.ctx a).rps.getLsbD 0 = false ∧
      ∀ la old, c.sealGr ≠ some (la / 16384) → (∀ y ∈ s.pkg.ctxs, la / 16384 ∉ y.2.logGr) → (((c.between (fld 191 128 x) c.uld).filter fun p => c.kindAt p = 1 && lineNo (c.headAt p) = la).map c.oldAt).getLast? = some old →
        ∀ i < 128, SMap.get 0 t.mem (la * 128 + i) = Claims.byteOf old i) ∧
  (∀ (s : State) (h : CmdHdr) (id j ch : Nat) (ms cs : List Nat), Claims.Owns h s → id < 2 ^ 32 → j < 8 → 1 ≤ ch → ch ≤ 57344 → ms.length = 8 → (∀ m ∈ ms, m < 2 ^ 20) →
    ms.getD j 0 = s.svc.pkgId.toNat → 1 ≤ cs.length → cs.length ≤ 1024 → (∀ a ∈ cs, a < 4096 ∧ (s.ctx a).live = true ∧ (s.ctx a).recv = true ∧ (s.ctx a).sealing = none) →
    s.pkg.relays.find? id = none → let w := Claims.wd (id + j * 2 ^ 32 + ch * 2 ^ 40) :: ms.map Claims.wd ++ Claims.wd cs.length :: cs.map Claims.wd
    (freeGranules s ch = none → ∃ t, exec (.relaybuild h w) s = .next t ∧ Claims.OnlySvc s t ∧ Claims.Says t h 0x25 3 "NO_GRANULE" []) ∧
    ∀ gs, freeGranules s ch = some gs → ∃ t r, exec (.relaybuild h w) s = .next t ∧ (∀ x, x / 2 ^ 21 ∉ gs → SMap.get 0 t.mem x = SMap.get 0 s.mem x) ∧
      t.svc.out = s.svc.out ∧ t.pkg.relays.find? id = some r ∧ r.idx = j ∧ r.ch = ch ∧ r.members = ms ∧ r.ctxs = cs ∧ r.rpp = 0 ∧ r.building = some h ∧
      r.parGr = gs ∧ (∀ g ∈ gs, t.ownerOf g = 0x3FF) ∧ ∀ a ∈ cs, (t.ctx a).stopped = true ∧ (t.ctx a).sealing.isSome = true) ∧
  ∀ (s : State) (h : CmdHdr) (id lost : Nat) (ms : List Nat) (r : Relay), Claims.Owns h s → id < 2 ^ 32 → lost < 8 → s.pkg.relays.find? id = some r → r.building = none →
    r.rpp < 2 ^ 64 → ms.length = 8 → (∀ m ∈ ms, m < 2 ^ 20) → (∀ i < 8, i ≠ lost → ms.getD i 0 = r.members.getD i 0) →
    let w := Claims.wd (id + lost * 2 ^ 32) :: ms.map Claims.wd
    let s₁ := foldS r.ctxs stopForRecover (Claims.heard s)
    (lost = r.idx → ∃ t, exec (.relayrebuild h w) s = .next t ∧ t.mem = s.mem ∧ t.svc.out = s.svc.out ∧
      t.pkg.relays.find? id = some { r with members := ms, building := some h, rebuild := true, sent := [] }) ∧
    (lost ≠ r.idx → (∃ a ∈ r.ctxs, cmdsStarted s₁ a = true) → ∃ t n, exec (.relayrebuild h w) s = .next t ∧ (n, Instr.relayrebuild h w) ∈ t.agenda) ∧
    (lost ≠ r.idx → (∀ a ∈ r.ctxs, cmdsStarted s₁ a = false) → ∃ t, exec (.relayrebuild h w) s = .next t ∧ Claims.Says t h 0x26 0 "" [Claims.wd r.rpp] ∧
      t.pkg.relays.find? id = some { r with members := ms, sent := [] } ∧ t.mem = (foldS r.ctxs (fun a s => (recoverCtx a (some r.rpp) s).1) s₁).mem)

/-- The translation service: an export signs a translation into the host's buffer; an import and a native install put a valid package into the
cache under its key; keys are trusted and untrusted; an eviction takes out what no crew uses; and a declined launch is translated here (17 R341, R342,
R349, R350). -/
def Obligations.TranslationCommands : Prop :=
  (∀ (s : State) (h : CmdHdr) (k : Key) (n bus room : Nat) (x : Trans), Claims.Owns h s → bus + room ≤ 2 ^ 50 → transAt s k = some (n, x) →
    (signedPkg s x).1.length ≤ room →
    ∃ t, exec (.exportTr h (keyWords k ++ [Claims.wd bus, Claims.wd room])) s = .next t ∧ t.cores = s.cores ∧ t.pkg.trans = s.pkg.trans ∧
      t.rawBytes (2 ^ 51 + bus) (signedPkg s x).1.length = (signedPkg s x).1 ∧
      Claims.Says t h 0x30 0 "" (words128 (signedPkg s x).2 ++ [Claims.wd (signedPkg s x).1.length])) ∧
  (∀ (s s' : State) (h : CmdHdr) (d bus len n : Nat) (x : XPkg) (side : List CPoint), Claims.Owns h s → d < 1024 → bus + len ≤ 2 ^ 50 →
    parsePkg (s.rawBytes (2 ^ 51 + bus) len) = some x → x.sig ≠ [] →
    x.tver = s.svc.tver.toNat → validate x.fmask true x = .ok side →
    let k : Key := { hash := BitVec.ofNat 128 x.chash, tver := s.svc.tver, vbc := BitVec.ofNat 2 x.vbc, fmask := BitVec.ofNat 8 x.fmask, dom := BitVec.ofNat 10 d }
    arriveTrans (transOf x side k (s.rawBytes (2 ^ 51 + bus) len)) (Claims.heard s) = (s', .ok n) →
    ∃ t, exec (.importTr h [Claims.wd d, Claims.wd bus, Claims.wd len]) s = .next t ∧
      if ∃ pk ∈ s.pkg.trust, Config.verify pk (shake256 x.body 64) x.sig = true then t.mem = s'.mem ∧ t.pkg.trans = s'.pkg.trans ∧
        Claims.Says t h 0x31 0 "" (keyWords k) ∧ ∃ y, t.trans n = some y ∧ y.key = k ∧ y.code = x.code
      else t.mem = s.mem ∧ t.pkg.trans = s.pkg.trans ∧ Claims.Says t h 0x31 3 "UNTRUSTED" []) ∧
  (∀ (s : State) (h : CmdHdr) (pk : List Byte), Claims.Owns h s → pk.length = 1793 →
    let w := Claims.wd 1793 :: wordsOf pk
    (pk ∉ s.pkg.trust → s.pkg.trust.length < 4096 → ∃ t, exec (.trustKey h w) s = .next t ∧ Claims.OnlySvc s t ∧ Claims.Says t h 0x32 0 "" [] ∧
      t.pkg.trust = s.pkg.trust ++ [pk]) ∧
    (pk ∈ s.pkg.trust → ∃ t, exec (.trustKey h w) s = .next t ∧ Claims.OnlySvc s t ∧ Claims.Says t h 0x32 0 "" [] ∧ t.pkg.trust = s.pkg.trust) ∧
    ∃ t, exec (.untrustKey h w) s = .next t ∧ Claims.OnlySvc s t ∧ Claims.Says t h 0x33 0 "" [] ∧ pk ∉ t.pkg.trust ∧ ∀ y ≠ pk, y ∈ s.pkg.trust → y ∈ t.pkg.trust) ∧
  (∀ (s s' : State) (h : CmdHdr) (d bus len n f : Nat) (x : XPkg) (side : List CPoint), Claims.Owns h s → d < 1024 → f < 512 → assisted s (s.fn f).part 1 = true →
    bus + len ≤ 2 ^ 50 → parsePkg (s.rawBytes (2 ^ 51 + bus) len) = some x → x.sig = [] → x.twins = [] → x.groomed = false → x.tver = 0 →
    validate x.fmask false x = .ok side →
    let k : Key := { hash := if x.chash = 0 then x.nhash else BitVec.ofNat 128 x.chash, tver := s.svc.tver, vbc := BitVec.ofNat 2 x.vbc,
                     fmask := BitVec.ofNat 8 x.fmask, dom := BitVec.ofNat 10 d }
    arriveTrans { transOf x side k (s.rawBytes (2 ^ 51 + bus) len) with fns := if x.chash = 0 then [f] else [] } (Claims.heard s) = (s', .ok n) →
    ∃ t, exec (.nativeInstall h [Claims.wd (d + 2 ^ 16), Claims.wd bus, Claims.wd len, Claims.wd f]) s = .next t ∧ t.mem = s'.mem ∧ t.pkg.trans = s'.pkg.trans ∧
      Claims.Says t h 0x34 0 "" (words128 x.nhash)) ∧
  (∀ (s : State) (h : CmdHdr) (d : Nat), Claims.Owns h s → d < 1024 →
    ∃ t n, exec (.tcevict h [Claims.wd d]) s = .next t ∧ ((∀ x ∈ s.pkg.trans, x.2.base = none) → t.mem = s.mem ∧ t.cores = s.cores) ∧ Claims.Says t h 0x35 0 "" [Claims.wd n] ∧
      n = (s.pkg.trans.filter fun x => x.2.key.dom.toNat = d && !transUsed s x.1).length ∧
      ∀ i x, (i, x) ∈ t.pkg.trans ↔ (i, x) ∈ s.pkg.trans ∧ ∀ y, (i, y) ∈ s.pkg.trans → ¬(y.key.dom.toNat = d ∧ transUsed s i = false)) ∧
  (∀ (s : State) (h : CmdHdr) (k : Key) (n : Nat) (kn : Kernel), s.svc.booted = true → h.from_.cls = 1 → s.pkg.launches = [(n, s.launch n)] →
    awaits k (s.launch n) = true → (s.launch n).kernel = some kn →
    ∃ t, exec (.decline h (keyWords k)) s = .next t ∧ t.mem = s.mem ∧ Claims.Says t h 0x36 0 "" [] ∧
      ((takePairs kn s).2, Instr.quickTranslationDone n) ∈ t.agenda ∧ (s.svc.pairs = [] → (takePairs kn s).2 = s.now + quickTime kn)) ∧
  ∀ (s : State) (h : CmdHdr) (w : List W64), s.svc.booted = true → 1 < h.from_.cls → ∃ t, exec (.decline h w) s = .next t ∧ Claims.OnlySvc s t ∧ Claims.Says t h 0x36 1 "" []

/-- The debugger: it attaches to a context once; a stop asks every placed cluster and answers when all its crews stand at commit points; reads and
writes are of a stopped strand's registers; and a resumed context's crews go on past the BRK that stopped them (18 R377; 20 Table 20.4; 21 R404). -/
def Obligations.DebuggerCommands : Prop :=
  ∀ (s : State) (h : CmdHdr) (a : Nat), Claims.Owns h s → a < 4096 → (s.ctx a).live = true →
    ((s.ctx a).dbg = false →
      (∃ t, exec (.dattach h [Claims.wd a]) s = .next t ∧ t.mem = s.mem ∧ t.cores = s.cores ∧ (t.ctx a).dbg = true ∧ Claims.Says t h 0x44 0 "" []) ∧
      (∃ t, exec (.dstop h [Claims.wd a]) s = .next t ∧ Claims.OnlySvc s t ∧ Claims.Says t h 0x40 3 "NO_DEBUGGER" []) ∧
      (∃ t, exec (.dcont h [Claims.wd a]) s = .next t ∧ Claims.OnlySvc s t ∧ Claims.Says t h 0x43 3 "NO_DEBUGGER" []) ∧
      ∃ t, exec (.ddetach h [Claims.wd a]) s = .next t ∧ Claims.OnlySvc s t ∧ Claims.Says t h 0x45 3 "NO_DEBUGGER" []) ∧
    ((s.ctx a).dbg = true →
      (∃ t, exec (.dattach h [Claims.wd a]) s = .next t ∧ Claims.OnlySvc s t ∧ Claims.Says t h 0x44 3 "DBG_ATTACHED" []) ∧
      (∃ t, exec (.ddetach h [Claims.wd a]) s = .next t ∧ t.mem = s.mem ∧ (t.ctx a).dbg = false ∧ (t.ctx a).stopped = false ∧ Claims.Says t h 0x45 0 "" []) ∧
      (∃ t, exec (.dcont h [Claims.wd a]) s = .next t ∧ t.mem = s.mem ∧ (t.ctx a).dbg = true ∧ (t.ctx a).stopped = false ∧ Claims.Says t h 0x43 0 "" [] ∧
        ∀ k g, k ∈ coresOf s a → s.group k = some g → (∀ b ∈ g.blocked, b.2 ≠ .debugger ∨ b.1.handler = false) → ∃ g', t.group k = some g' ∧
          (∀ b ∈ g'.blocked, b.2 ≠ .debugger) ∧
          ∀ b ∈ g.blocked, b.2 = .debugger → ∃ r ∈ g'.frontier.ready, r.crew.delivered = none ∧ r.crew.pc = b.1.pc ∧ r.crew.strands = b.1.strands) ∧
      (∃ t, exec (.dstop h [Claims.wd a]) s = .next t ∧ t.mem = s.mem ∧ (t.ctx a).stopped = true ∧
        (contextStill t a = true → Claims.Says t h 0x40 0 "" []) ∧ (contextStill t a = false → t.svc.out = s.svc.out ∧ (s.now + 2, Instr.dstop h [Claims.wd a]) ∈ t.agenda)) ∧
      ∀ (k slot lane r : Nat) (v : W64) (g : Group) (c : Crew), k < 512 → slot < 16 → lane < 64 → s.group k = some g → s.asidOf g = a → burhusKernel s g = true →
        g.live.contains (slot * 64 + lane) = true → g.running = none → crewOf g ⟨k, slot, lane⟩ = some c → dbgPoint s g c = none → r < 2 ^ 21 →
        let sel := Claims.wd (k + slot * 2 ^ 9 + lane * 2 ^ 13)
        (∃ t, exec (.dread h [Claims.wd a, sel, 2, Claims.wd r, Claims.wd (r + 2 ^ 21)]) s = .next t ∧ Claims.OnlySvc s t ∧
          Claims.Says t h 0x41 0 "" [2, g.getX slot lane r, (BitVec.ofBool (g.getC slot lane r)).setWidth 64, 0]) ∧
        (∃ t g', exec (.dwrite h [Claims.wd a, sel, Claims.wd r, v]) s = .next t ∧ t.mem = s.mem ∧ Claims.Says t h 0x42 0 "" [] ∧ t.group k = some g' ∧
          g'.getX slot lane r = v ∧ g'.c = g.c ∧ g'.v = g.v ∧ g'.ctxs = g.ctxs ∧ g'.frontier = g.frontier) ∧
        ∃ t g', exec (.dwrite h [Claims.wd a, sel, Claims.wd (r + 2 ^ 21), v]) s = .next t ∧ t.mem = s.mem ∧ Claims.Says t h 0x42 0 "" [] ∧ t.group k = some g' ∧
          g'.getC slot lane r = v.getLsbD 0 ∧ g'.x = g.x ∧ g'.v = g.v ∧ g'.ctxs = g.ctxs)

/-- The package's own services: its identity, counters and signed measurement are told; an image that passes the boot checks is written to the slot
that does not run; an aperture, an identifier and a power cap are taken; and a location's faults are forgotten (20 R391 to R395, R400, R401). -/
def Obligations.PackageCommands : Prop :=
  (∀ (s : State) (h : CmdHdr), s.svc.booted = true → h.from_.cls ≠ 0 →
    (s.svc.owner = some h.from_ → ∃ t, exec (.identify h []) s = .next t ∧ Claims.OnlySvc s t ∧ Claims.Says t h 0x50 0 "" ([s.svc.pkgId.setWidth 64,
      Claims.wd (s.svc.tver.toNat + s.svc.secVer.toNat * 2 ^ 16 + s.svc.slot * 2 ^ 32 + 4 * 2 ^ 40)] ++ numWords 8 (leNat s.svc.measure))) ∧
    (∀ f < 512, ∃ t, exec (.telemetry h [Claims.wd (2 + f * 2 ^ 32)]) s = .next t ∧ Claims.OnlySvc s t ∧ Claims.Says t h 0x57 0 ""
      ([5, 1, Claims.wd (s.fn f).errc, 2, Claims.wd (s.fn f).erru, 3, Claims.wd (s.fn f).errp, 0x14, Claims.wd (s.fn f).brks, 0x15, Claims.wd (s.fn f).stsLost])) ∧
    ∀ kind i, kind ≤ 6 → i < 2 ^ 32 → let r := locRec s ⟨kind, i⟩
      ∃ t, exec (.telemetry h [3, Claims.wd (kind + i * 2 ^ 32)]) s = .next t ∧ Claims.OnlySvc s t ∧
        Claims.Says t h 0x57 0 "" [4, 1, Claims.wd r.corrected, 2, Claims.wd r.uncorrected, 3, Claims.wd r.phases, 4, Claims.wd r.sigs]) ∧
  (∀ (s : State) (h : CmdHdr), Claims.Owns h s →
    (∀ slot bus len, slot ≤ 1 → s.svc.slot ≠ slot → bus + len ≤ 2 ^ 50 → let img := s.rawBytes (2 ^ 51 + bus) len
      ∃ t, exec (.fwupdate h [Claims.wd slot, Claims.wd bus, Claims.wd len]) s = .next t ∧ Claims.OnlySvc s t ∧ t.svc.slot = s.svc.slot ∧ t.svc.measure = s.svc.measure ∧
        if imageOk img then Claims.Says t h 0x51 0 "" [] ∧ t.svc.fw0 = (if slot = 0 then img else s.svc.fw0) ∧ t.svc.fw1 = (if slot = 0 then s.svc.fw1 else img)
        else Claims.Says t h 0x51 3 "BAD_IMAGE" [] ∧ t.svc.fw0 = s.svc.fw0 ∧ t.svc.fw1 = s.svc.fw1) ∧
    (∀ n0 n1 n2 n3 : W64, ∃ t ws sig, exec (.attest h [n0, n1, n2, n3]) s = .next t ∧ Claims.OnlySvc s t ∧ Claims.Says t h 0x52 0 "" (ws ++ wordsOf sig) ∧
      sig = (Config.sign (bytesOf ws) ++ List.replicate 1280 0).take 1280 ∧ ws.take 8 = numWords 8 (leNat s.svc.measure) ∧ (ws.drop 13).take 4 = [n0, n1, n2, n3]) ∧
    (∀ (i pkg frame : Nat) (fns : List W64), i < 4096 → pkg < 2 ^ 20 → frame < 2 ^ 14 → fns.length = 8 →
      (∃ t, exec (.apconfig h (Claims.wd (2 ^ 63 + i) :: Claims.wd pkg :: Claims.wd frame :: fns)) s = .next t ∧ Claims.OnlySvc s t ∧ Claims.Says t h 0x53 0 "" [] ∧
        t.pkg.aps.find? i = some { v := true, pkg := BitVec.ofNat 20 pkg, frame := BitVec.ofNat 14 frame, fns := BitVec.ofNat 512 (leNat (bytesOf fns)) } ∧
        ∀ j ≠ i, t.pkg.aps.find? j = s.pkg.aps.find? j) ∧
      ∃ t, exec (.apconfig h (Claims.wd i :: Claims.wd pkg :: Claims.wd frame :: fns)) s = .next t ∧ Claims.OnlySvc s t ∧ Claims.Says t h 0x53 0 "" [] ∧
        t.pkg.aps.find? i = none) ∧
    (∀ n < 2 ^ 20, ∃ t, exec (.assignid h [Claims.wd n]) s = .next t ∧ Claims.OnlySvc s t ∧ Claims.Says t h 0x54 0 "" [] ∧ t.svc.pkgId = BitVec.ofNat 20 n) ∧
    (∀ kind i, kind ≤ 6 → i < (match kind with | 0 => 2 ^ 31 | 1 => 512 | 2 => 2048 | 3 => 256 | 4 => 4 | 5 => 4 | _ => 16) →
      ∃ t, exec (.unretire h [Claims.wd (kind + i * 2 ^ 32)]) s = .next t ∧ t.mem = s.mem ∧ Claims.Says t h 0x55 0 "" [] ∧ (∀ r ∈ t.svc.locs, r.loc ≠ ⟨kind, i⟩) ∧
        (∀ r ∈ t.svc.flash, r.loc ≠ ⟨kind, i⟩) ∧ (⟨kind, i⟩ ∉ t.svc.fencedLocs) ∧ (kind = 0 → i ∉ t.svc.retired)) ∧
    ∀ n, 1500 ≤ n → n ≤ 4500 → ∃ t, exec (.powercap h [Claims.wd n]) s = .next t ∧ Claims.OnlySvc s t ∧ Claims.Says t h 0x56 0 "" [] ∧ t.svc.cap = n ∧
      (s.now, Instr.islandPowerStep) ∈ t.agenda)

/-! ## Errors, resets and the package's own events (01 R18; 04 R92, R102; 05 R113; 13 R284; 18 R367, R368, R376; 19 R378, R379, R389; 20 R391 to
R394, R400 to R402) -/

namespace Sys2Proof.Claims

/-- An error recorded at a location now makes no fault lasting: it is lasting already, or fewer than two errors stand in the window of 600 s. -/
def Quiet (s : State) (l : Loc) : Prop :=
  (locRec s l).lasting = true ∨ ((locRec s l).times.filter fun t => s.now ≤ t + 960000000000).length < 2

/-- A crew's group has nothing in its arrays, and its region has released nothing outward: what a rollback takes back is in the crew and the group. -/
def Contained (g : Group) (c : Crew) : Prop :=
  g.compute = none ∧ g.retire = none ∧ c.region.buf = [] ∧ c.accepting = [] ∧ c.region.pushed = [] ∧ ∀ b ∈ g.blocked, b.1.ctx ≠ c.ctx

/-- A launch can be ended. -/
def Open (s : State) (n : Nat) : Prop := (s.launch n).complete = false ∧ (s.launch n).abandoned = false ∧ (s.launch n).status = none

/-- The running crew of a core stands again at its region's entry, having consumed an error there. -/
def Again (s t : State) (k : Nat) (g : Group) (c : Crew) : Prop := t.mem = s.mem ∧ ∃ g' c', t.crew k = some (g', c') ∧ g'.launch = g.launch ∧ c'.pc = c.region.entry ∧
  c'.seg = c.region.seg ∧ c'.strands = c.strands ∧ c'.uncorrOnce = true

end Sys2Proof.Claims

/-- Errors: a corrected one is counted; one that scrubbing cannot correct is counted at its location; the third in 600 s makes the fault lasting, which is
reported; a crew that consumes one in a clean copy, in a scratch bank of its phase or in a pair's signature runs its region again, once, and else its kernel
is killed with UNCORR_DATA; a line of HBM4 is poisoned; an engine's command kills its kernel with ENGINE_FAULT (18 R367, R368; 19 R389; 20 R391 to
R393). -/
def Obligations.Errors : Prop :=
  (∀ (s : State) (l : Loc) (fn : Option Nat), Claims.Quiet s l →
    ∃ t, exec (.correctedError l fn) s = .next t ∧ t.mem = s.mem ∧ t.cores = s.cores ∧ t.pkg.ctxs = s.pkg.ctxs ∧ t.pkg.launches = s.pkg.launches ∧
      (locRec t l).corrected = inc64 (locRec s l).corrected ∧ (locRec t l).uncorrected = (locRec s l).uncorrected ∧
      (∀ l' ≠ l, locRec t l' = locRec s l') ∧ (∀ f, ownFn s l fn = some f → (t.fn f).errc = inc64 (s.fn f).errc) ∧
      ∀ f, ownFn s l fn ≠ some f → t.fn f = s.fn f) ∧
  (∀ (s : State) (l : Loc), Claims.Quiet s l →
    (∃ t, exec (.scrub l true) s = .next t ∧ t.mem = s.mem ∧ t.cores = s.cores ∧ (locRec t l).corrected = inc64 (locRec s l).corrected ∧
      ∀ f, ownFn s l none = some f → (t.fn f).errc = inc64 (s.fn f).errc) ∧
    ∃ t, exec (.scrub l false) s = .next t ∧ t.mem = s.mem ∧ t.cores = s.cores ∧ t.pkg = s.pkg ∧ (locRec t l).uncorrected = inc64 (locRec s l).uncorrected ∧
      (locRec t l).corrected = (locRec s l).corrected) ∧
  (∀ (s : State) (l : Loc) (fn : Option Nat), ¬Claims.Quiet s l →
    ∃ s', exec (.correctedError l fn) s = .next (actLasting l s') ∧ s'.mem = s.mem ∧ (locRec s' l).lasting = true ∧ locRec s' l ∈ s'.svc.flash) ∧
  (∀ (s : State) (k : Nat), k < 512 → s.pkg.launches = [] → ((actLasting ⟨1, k⟩ s).core k).fenced = true ∧ (actLasting ⟨1, k⟩ s).mem = s.mem ∧
    ∃ x ∈ (actLasting ⟨1, k⟩ s).svc.reports, x.what = "LASTING_FAULT" ∧ x.addr = k * 2 ^ 32 + 1) ∧
  (∀ (s : State) (k la : Nat) (x : CLine) (g : Group) (c : Crew), s.crew k = some (g, c) → (s.core k).findLine la = some x → Claims.Quiet s ⟨1, k⟩ →
    (x.dirty = 0 → c.uncorrOnce = false → Claims.Contained g c →
      ∃ t, exec (.uncorrData k (.cleanLine la)) s = .next t ∧ Claims.Again s t k g c ∧ (t.core k).findLine la = none ∧
        (t.fn (s.fnOf (s.asidOf g))).erru = inc64 (s.fn (s.fnOf (s.asidOf g))).erru ∧ (t.fn (s.fnOf (s.asidOf g))).errp = inc64 (s.fn (s.fnOf (s.asidOf g))).errp ∧
        (locRec t ⟨1, k⟩).uncorrected = inc64 (locRec s ⟨1, k⟩).uncorrected) ∧
    ((x.dirty ≠ 0 ∨ c.uncorrOnce = true) → Claims.Contained g c → Claims.Open s g.launch →
      ∃ t, exec (.uncorrData k (.cleanLine la)) s = .next t ∧ (t.launch g.launch).status = some (1, 11, 0, 0) ∧ (t.launch g.launch).placed = [])) ∧
  (∀ (s : State) (k b : Nat) (g : Group) (c : Crew), s.crew k = some (g, c) → Claims.Quiet s ⟨1, k⟩ → Claims.Contained g c →
    (c.region.phase = some (b, some []) → c.uncorrOnce = false → ∃ t, exec (.uncorrData k (.scratchBank b)) s = .next t ∧ Claims.Again s t k g c ∧
      (locRec t ⟨1, k⟩).phases = inc64 (locRec s ⟨1, k⟩).phases) ∧
    (c.region.phase = none → Claims.Open s g.launch →
      ∃ t, exec (.uncorrData k (.scratchBank b)) s = .next t ∧ (t.launch g.launch).status = some (1, 11, 0, 0)) ∧
    (Claims.Open s g.launch → ∃ t, exec (.uncorrData k .dirtyOrRegister) s = .next t ∧ (t.launch g.launch).status = some (1, 11, 0, 0)) ∧
    (k % 2 = 0 → Claims.Quiet s ⟨1, k + 1⟩ → c.uncorrOnce = false → ∃ t, exec (.uncorrData k .pairsSignature) s = .next t ∧ Claims.Again s t k g c ∧
      (locRec t ⟨1, k⟩).sigs = inc64 (locRec s ⟨1, k⟩).sigs ∧ (locRec t ⟨1, k + 1⟩).sigs = inc64 (locRec s ⟨1, k + 1⟩).sigs)) ∧
  (∀ (s : State) (k la : Nat), Claims.Quiet s ⟨0, la / 16384⟩ →
    ∃ t, exec (.uncorrData k (.hbmLine la)) s = .next t ∧ t.mem = s.mem ∧ t.cores = s.cores ∧ (t.lineMeta la).poison = true ∧
      (∀ lb ≠ la, t.lineMeta lb = s.lineMeta lb) ∧ (locRec t ⟨0, la / 16384⟩).uncorrected = inc64 (locRec s ⟨0, la / 16384⟩).uncorrected) ∧
  ∀ (s : State) (k die cls eng : Nat) (r : EngRun) (c : EngCmd), running s die cls eng = some (r, c) → Claims.Open s c.launch → (s.launch c.launch).placed = [] →
    (s.launch c.launch).suspended = [] →
    ∃ t, exec (.uncorrData k (.engineBuffer die cls eng)) s = .next t ∧ t.mem = s.mem ∧
      (t.launch c.launch).status = some (1, 18, 11, c.num % 2 ^ 47 * 2 ^ 17 + c.done / 128) ∧ t.pkg.runs.find? (runKey die cls eng) = none

/-- Containment and resets: what holds a part of a failed die stops, and on a die that is lost its kernels are killed with CONTAINED and the cores are as
after reset; a failed tree node stops its owner's contexts; a function's reset takes its key, contexts and windows' registers; a link that goes down fails
the accesses over it; chair entries take effect at the frame origin; a relay's decision moves its parity (01 R18; 04 R92, R102; 05 R113; 13 R284; 18
R376; 20 R400). -/
def Obligations.ContainmentAndResets : Prop :=
  (∀ (s : State) (die n : Nat) (l : Launch), die < 4 → s.pkg.launches = [(n, l)] → l.status = none → l.complete = false → l.abandoned = false → l.started = true →
    launchOn s die n l = true → (l.cores.all fun k => !(s.core k).fenced) = true → l.suspended = [] →
    ∃ t, exec (.containment (.dieSurvives die)) s = .next t ∧ t.mem = s.mem ∧ (t.launch n).status = none ∧
      ∀ c ∈ l.placed, (partOn s die (s.partOfLaunch n) || c.2.any fun k => coreOn s die k && s.holds n c.1 k) = true → c.1 ∈ (t.launch n).preempt) ∧
  (∀ (s : State) (die n : Nat) (l : Launch), die < 4 → s.pkg.launches = [(n, l)] → l.status = none → l.complete = false → l.abandoned = false →
    launchOn s die n l = true → (∀ a, (s.ctx a).recv = false ∧ (s.ctx a).span = false) → s.pkg.eng = [] → s.svc.locs = [] →
    exec (.containment (.dieLost die)) s = exec (.computeDieReset die) s ∧
    ∃ t, exec (.computeDieReset die) s = .next t ∧ (t.launch n).status = some (1, 31, 0, 0) ∧
      (t.fn (s.fnOf l.asid)).errs = inc64 (s.fn (s.fnOf l.asid)).errs ∧
      (∀ k, k / 128 = die → (t.core k).group = none ∧ (t.core k).cache = [] ∧ (t.core k).dfifo = [] ∧ (t.core k).tlb = []) ∧
      (∀ e ∈ t.pkg.l2, e.2.bank / 512 ≠ die) ∧ t.pkg.banks = s.pkg.banks ∧ (nextOrigin s die, Instr.frameOrigin die) ∈ t.agenda) ∧
  (∀ (s : State) (o first n : Nat), s.pkg.launches = [] →
    ∃ t, exec (.containment (.ownerTree o first n)) s = .next t ∧ t.mem = s.mem ∧ t.cores = s.cores ∧
      (o ≠ 0x3FF → ∀ a ∈ ownerCtxs s o, (t.ctx a).treeStop = true) ∧
      (∀ i < n, ∀ g, (s.orderOf o)[(first + i) / 256]? = some g →
        (∀ j < 64, (t.lineMeta ((g * 256 + (first + i) % 256) * 64 + j)).poison = true) ∧ (o = 0x3FF → g ∈ t.svc.retired) ∧ (o ≠ 0x3FF → g ∈ t.pkg.treeBad)) ∧
      ∃ x ∈ t.svc.reports, x.what = "UNCORR_DATA") ∧
  (∀ (s : State) (f : Nat), f < 512 → s.pkg.launches = [] → s.pkg.eng = [] →
    ∃ t, exec (.functionReset f) s = .next t ∧ (t.fn f).en = false ∧ (f ≠ 0 → (t.fn f).key = 0) ∧ (t.fn f).hw0 = 0 ∧ (t.fn f).hw1 = 0 ∧ (t.fn f).reply = [] ∧
      (t.fn f).ready = false ∧ (t.fn f).msix = [] ∧ (∀ a c, t.pkg.ctxs.find? a = some c → c.live = true → c.fnum ≠ f) ∧
      ∀ g o, s.pkg.owners.find? g = some o → fld 9 0 o.toNat = f → (∀ x ∈ s.pkg.ctxs, g ∉ x.2.tblGr) → t.ownerOf g = 0x3FE) ∧
  (∀ (s : State) (port k : Nat) (g : Group), port < 16 → port ∉ s.svc.down → s.group k = some g → portOf s (s.asidOf g) = some port →
    ∃ t g', exec (.linkDown port) s = .next t ∧ t.mem = s.mem ∧ t.svc.down = s.svc.down ++ [port] ∧ (∀ q ∈ (t.core k).link, isPeer q.pa = false) ∧
      (∀ q ∈ (s.core k).link, isPeer q.pa = false → q ∈ (t.core k).link) ∧ t.group k = some g' ∧
      ((∃ q ∈ (s.core k).link, isPeer q.pa = true ∧ q.launch = g.launch) → g'.linkFail = true) ∧
      ∀ c, g.running = some c → c.region.latched = none → (∃ m ∈ c.mem, ∃ l ∈ m.lanes, isPeer l.pa = true) →
        ∃ c' f, g'.running = some c' ∧ c'.region.latched = some f ∧ f.kind = .linkFail) ∧
  (∀ (s : State) (port : Nat), port ∈ s.svc.down → exec (.linkDown port) s = .next s) ∧
  (∀ (s : State) (die : Nat), die < 4 → nextOrigin s die = s.now →
    ∃ t, exec (.frameOrigin die) s = .next t ∧ t.mem = s.mem ∧ t.cores = s.cores ∧ (∀ e ∈ t.pkg.chairsNext, e.1 / 20480 ≠ die) ∧
      (∀ k b, (s.pkg.chairsNext.filter fun e => e.1 = k) = [(k, b)] → k / 20480 = die → t.pkg.chairs.get 0 k = b) ∧
      (∀ k, (∀ e ∈ s.pkg.chairsNext, e.1 ≠ k) → t.pkg.chairs.get 0 k = s.pkg.chairs.get 0 k) ∧
      ∀ k, k / 20480 ≠ die → t.pkg.chairs.get 0 k = s.pkg.chairs.get 0 k) ∧
  (∀ (s : State) (die : Nat), die < 4 → nextOrigin s die ≠ s.now →
    ∃ t, exec (.frameOrigin die) s = .next t ∧ t.pkg = s.pkg ∧ (nextOrigin s die, Instr.frameOrigin die) ∈ t.agenda) ∧
  ∀ (s : State) (id i : Nat) (d : Line) (r : Relay), s.pkg.relays.find? id = some r → r.building = none → (∀ a ∈ r.ctxs, r.rpp < (s.ctx a).rpn) → i < r.ch * 2 ^ 14 →
    ∃ t r', exec (.relayDecision id [(i, d)]) s = .next t ∧ t.cores = s.cores ∧ t.pkg.relays.find? id = some r' ∧ r'.rpp = r.rpp + 1 ∧ r'.parGr = r.parGr ∧
      (r.parityLa i = none → t.mem = s.mem) ∧
      ∀ la, r.parityLa i = some la → t.parityLine r' i = s.parityLine r i ^^^ d ∧
        ∀ x, x < la * 128 ∨ la * 128 + 128 ≤ x → SMap.get 0 t.mem x = SMap.get 0 s.mem x

/-- Boot and power: an image that passes is booted and the claim window opens over the power-on banks; a package with none is dead; a loss of power leaves what
flash keeps, and an orderly shutdown writes the counters first; counters go to flash within the hour; the clocks of the islands follow the cap; and cooling
telemetry certifies, or lapses, and after 10 s locked partitions leave locked mode (20 R392 to R394, R401, R402). -/
def Sys2Proof.Claims.BootAndPower : Prop :=
  (∀ s : State, s.svc.booted = true → exec .powerOnBoot s = .next s) ∧
  (∀ s : State, s.svc.booted = false → ∃ t, exec .powerOnBoot s = .next t ∧ t.mem = s.mem ∧ match bootSlot s.svc with
    | some (slot, img) => t.svc.booted = true ∧ t.svc.dead = false ∧ t.svc.slot = slot ∧ t.svc.measure = shake256 img 64 ∧
      t.svc.secVer = (Config.fwVersions img).1 ∧ t.svc.tver = (Config.fwVersions img).2 ∧ t.svc.owner = none ∧ t.svc.claims = [] ∧
      t.svc.svcKey = s.svc.draws + 1 ∧ (t.fn 0).key = s.svc.draws + 2 ∧ t.svc.window = some (s.now + 3200000000) ∧ t.pkg.banks = [(0, 0xA0000000), (512, 0xA0000000), (1024, 0xA0000000), (1536, 0xA0000000)] ∧
      (s.now + 3200000000, Instr.claimWindowClose) ∈ t.agenda ∧ (∀ r, r ∈ s.svc.flash → r.lasting = true → r.loc.kind = 0 → r.loc.index ∈ t.svc.retired) ∧
      ∀ r, r ∈ s.svc.flash → r.lasting = true → r.loc.kind = 1 → r.loc.index < 512 → (t.core r.loc.index).fenced = true
    | none => t.svc.dead = true ∧ t.svc.booted = false ∧ t.pkg = s.pkg ∧ t.cores = s.cores) ∧
  (∀ s : State, ∃ t, exec .powerLoss s = .next t ∧ t.cores = State.reset.cores ∧ t.pkg = State.reset.pkg ∧ t.agenda = State.reset.agenda ∧ t.svc.booted = false ∧
    t.svc.owner = none ∧ t.svc.locs = [] ∧ t.svc.flash = s.svc.flash ∧ t.svc.fw0 = s.svc.fw0 ∧ t.svc.fw1 = s.svc.fw1 ∧ t.svc.flashParts = s.svc.flashParts ∧
    (∀ x < 2 ^ 50, SMap.get 0 t.mem x = 0)) ∧
  (∀ s : State, ∃ t, exec .orderlyShutdown s = .next t ∧ t.cores = State.reset.cores ∧ t.pkg = State.reset.pkg ∧ t.svc.booted = false ∧ t.svc.flash = s.svc.locs ∧
    t.svc.flashTemp = s.svc.tempHist ∧ t.svc.flashPower = s.svc.powerHist ∧ ∀ x < 2 ^ 50, SMap.get 0 t.mem x = 0) ∧
  (∀ s : State, ∃ t, exec .flashCounterWrite s = .next t ∧ Claims.OnlySvc s t ∧ t.svc.flash = s.svc.locs ∧ t.svc.flashTemp = s.svc.tempHist ∧
    t.svc.flashPower = s.svc.powerHist ∧ t.svc.flashAt = s.now ∧ (s.now + 5760000000000, Instr.flashCounterWrite) ∈ t.agenda) ∧
  (∀ s : State, ∃ t, exec .islandPowerStep s = .next t ∧ Claims.OnlySvc s t ∧
    (s.svc.cap < s.svc.watts → t.svc.mhz = max 400 (s.svc.mhz - 50)) ∧ (s.svc.watts ≤ s.svc.cap → t.svc.mhz = min 800 (s.svc.mhz + 50))) ∧
  (∀ (s : State) (inlet flow watts : Nat), (s.svc.booted = false → exec (.coolingTelemetry inlet flow watts) s = .next s) ∧
    (s.svc.booted = true → ∃ t, exec (.coolingTelemetry inlet flow watts) s = .next t ∧ t.mem = s.mem ∧ t.cores = s.cores ∧ t.svc.watts = watts ∧
      t.svc.certified = decide (inlet ≤ 40 ∧ 6 ≤ flow ∧ watts ≤ 4500) ∧
      t.svc.tempHist.get 0 (inlet / 5) = s.svc.tempHist.get 0 (inlet / 5) + 1 ∧ t.svc.powerHist.get 0 (watts / 50) = s.svc.powerHist.get 0 (watts / 50) + 1 ∧
      (s.svc.certified = true → t.svc.certified = false → t.svc.lapsedAt = some s.now ∧ (s.now + 16000000000, Instr.certificationLapse) ∈ t.agenda))) ∧
  (∀ (s : State), s.svc.lapsedAt = none → exec .certificationLapse s = .next s) ∧
  ∀ (s : State) (t₀ : Nat), s.svc.lapsedAt = some t₀ →
    (s.now < t₀ + 16000000000 → ∃ t, exec .certificationLapse s = .next t ∧ t.pkg = s.pkg ∧ t.mem = s.mem ∧ (t₀ + 16000000000, Instr.certificationLapse) ∈ t.agenda) ∧
    (t₀ + 16000000000 ≤ s.now → ∃ t, exec .certificationLapse s = .next t ∧ t.mem = s.mem ∧ t.cores = s.cores ∧
      ∀ p, ((s.pkg.parts.any fun x => x.1 = p && x.2.locked) = true → (t.part p).unlock = true ∧ (s.now, Instr.placementEvaluation p) ∈ t.agenda) ∧
        (t.part p).record = (s.part p).record)

/-- The passing of ownership: at the end of the claim window the claim of the highest class, and in it of the lowest endpoint, wins, and every other
is answered OWNED; an owner that sends nothing for 3 s is no longer the owner; and a handover that nobody accepts in 100 ms is refused (19 R378,
R379). -/
def Sys2Proof.Claims.OwnershipPasses : Prop :=
  (∀ (s : State) (t₀ : Nat), s.svc.window = some t₀ → t₀ ≤ s.now → s.svc.claims ≠ [] → (∀ c ∈ s.svc.claims, c.1.cls ≠ 0) →
    ∃ t m tag, exec .claimWindowClose s = .next t ∧ Claims.OnlySvc s t ∧ (m, tag) ∈ s.svc.claims ∧ t.svc.owner = some m ∧ t.svc.window = none ∧
      (∀ c ∈ s.svc.claims, c.1.cls < m.cls ∨ (c.1.cls = m.cls ∧ m.ep ≤ c.1.ep)) ∧ ({ dest := m, cmd := 1, tag := tag, status := 0 } : Reply) ∈ t.svc.out ∧
      (∀ c ∈ s.svc.claims, c ≠ (m, tag) → ({ dest := c.1, cmd := 1, tag := c.2, status := 2, payload := [Claims.wd m.cls] } : Reply) ∈ t.svc.out) ∧
      (s.now + 4800000000, Instr.ownershipLapse) ∈ t.agenda) ∧
  (∀ (s : State) (t₀ : Nat), s.svc.window = some t₀ → t₀ ≤ s.now → s.svc.claims = [] → s.svc.flashParts = [] → s.svc.flashFns = [] →
    ∃ t, exec .claimWindowClose s = .next t ∧ Claims.OnlySvc s t ∧ t.svc.owner = s.svc.owner ∧ t.svc.window = none ∧ t.svc.out = s.svc.out) ∧
  (∀ s : State, s.svc.window = none → exec .claimWindowClose s = .next s) ∧
  (∀ (s : State) (m : Master), s.svc.owner = some m →
    (s.svc.heard + 4800000000 ≤ s.now → ∃ t, exec .ownershipLapse s = .next t ∧ Claims.OnlySvc s t ∧ t.svc.owner = none ∧ t.svc.handover = none) ∧
    (s.now < s.svc.heard + 4800000000 → ∃ t, exec .ownershipLapse s = .next t ∧ Claims.OnlySvc s t ∧ t.svc = s.svc ∧
      (s.svc.heard + 4800000000, Instr.ownershipLapse) ∈ t.agenda)) ∧
  ∀ (s : State) (m : Master) (h : CmdHdr) (t₀ : Nat), s.svc.handover = some (m, h, t₀) → h.from_.cls ≠ 0 →
    (t₀ + 160000000 ≤ s.now → ∃ t, exec .handoverTimeout s = .next t ∧ Claims.OnlySvc s t ∧ t.svc.owner = s.svc.owner ∧ t.svc.handover = none ∧
      Claims.Says t h 3 3 "NO_ACCEPT" []) ∧
    (s.now < t₀ + 160000000 → exec .handoverTimeout s = .next s)

/-! ## Frames (02 R20, 03 R50, 09 R174, R175; 11 R226; 12; 15 R323) -/

namespace Sys2Proof.Claims

/-- The operations of slots and of Burhus code that only write a register, each with whether that is a condition register. -/
def registerOps : List ((Form → Instr) × Bool) :=
  [(.iadd, false), (.isub, false), (.imul, false), (.imulh, false), (.imad, false), (.imin, false), (.imax, false), (.iabs, false), (.ineg, false),
   (.and_, false), (.or_, false), (.xor_, false), (.not_, false), (.andn, false), (.shl, false), (.shr, false), (.sar, false), (.rot, false)] ++
  [(.popc, false), (.clz, false), (.brev, false), (.bfx, false), (.bfi, false), (.sel, false), (.icmp, true), (.mov, false), (.movi, false), (.lea, false),
   (.fadd, false), (.fsub, false), (.fmul, false), (.ffma, false), (.scale, false), (.fmin, false), (.fmax, false), (.fcmp, true)] ++
  [(.frcp, false), (.frsq, false), (.fexp2, false), (.flog2, false), (.ftanh, false), (.hadd2, false), (.hmul2, false), (.hfma2, false), (.cvt, false),
   (.pack, false), (.unpack, false), (.voteAny, true), (.voteAll, true), (.voteBallot, false), (.shfl, false), (.cred, false), (.csrr, false), (.tlr, false)]

/-- Those of Burhus code alone. -/
def burhusOps : List ((BIns → Instr) × Bool) := [(.idiv, false), (.irem, false), (.fdot4, false), (.hdot2, false), (.voteEq, true)]

/-- The accesses that an operation translates as it issues, each with its kind. -/
def accesses (s : State) (g : Group) (c : Crew) : Instr → List (Acc × Nat)
  | .st f => (memLanes g c f).map fun l => (.write, memEa g c f l.1 l.2)
  | .stl f => (localLanes (s.launch g.launch) g c f (memLanes g c f)).1.map fun l => (.write, l.2.2)
  | .atom f | .cas f => (memLanes g c f).map fun l => (.write, atomEa g c f l.1 l.2)
  | .rel f => (syncObjs g c f).map fun l => (.write, l.2.2)
  | _ => []

/-- The operations that the commit point performs, and the writes of special registers that wait for it. -/
def deferredOps : List (Form → Instr) := [.st, .sts, .stl, .atom, .cas, .rel, .fence, .seal, .gate, .unbind, .csrwFpf, .csrwFcb, .csrwBkm]

end Sys2Proof.Claims

/-- Where an operation that writes registers leaves a next state, nothing changed but its destination: of Burhus code the register that it names
in the strands that execute it, at once; of a slot the results in flight; beside them the crew's place, its region's sticky flags and what a
rollback restores. Memory, special and exception registers, accumulators, flags and every other core are as they were (09 R174, R175, 08 R163). -/
def Obligations.RegisterFrame : Prop :=
  (∀ o ∈ registerOps, ∀ (s t : State) (g : Group) (c : Crew) (f : Form), wellFormed (o.1 f) = true → s.crew s.focus = some (g, c) →
    exec (o.1 f) s = .next t → OutsideKept s t ∧ ∃ (g' : Group) (c' : Crew), t.crew s.focus = some (g', c') ∧
      match f with
      | .bur b => OnlyRegister o.2 g c (burLanes g c b.guard) b.d g' c'
      | _ => OnlyInFlight g c g' c') ∧
  ∀ o ∈ burhusOps, ∀ (s t : State) (g : Group) (c : Crew) (b : BIns), wellFormed (o.1 b) = true → s.crew s.focus = some (g, c) →
    exec (o.1 b) s = .next t → OutsideKept s t ∧ ∃ (g' : Group) (c' : Crew), t.crew s.focus = some (g', c') ∧
      OnlyRegister o.2 g c (burLanes g c b.guard) b.d g' c'

/-- An operation that waits for its commit point changes no register, no special register and no byte of memory as it issues, where translating
its accesses changes nothing: of the machine only the running crew's place, its region and its results in flight change; BIND keeps beside them
places of its context's binding table (11 R226, R232; 12 R247, R248, R251; 13 R271, R274; 15 R323; 07 R143, R150). -/
def Obligations.DeferredFrame : Prop :=
  (∀ mk ∈ deferredOps, ∀ (s t : State) (g : Group) (c : Crew) (f : Form), wellFormed (mk f) = true → s.crew s.focus = some (g, c) →
    (∀ a ∈ accesses s g c (mk f), (translate s.focus (s.asidOf g) a.2 a.1 s).1 = s) →
    exec (mk f) s = .next t → OutsideKept s t ∧ ∃ (g' : Group) (c' : Crew), t.crew s.focus = some (g', c') ∧ OnlyRegion g c g' c') ∧
  ∀ (s t : State) (g : Group) (c : Crew) (f : Form), wellFormed (.bind f) = true → s.crew s.focus = some (g, c) → exec (.bind f) s = .next t →
    OutsideKept s { t with pkg := s.pkg } ∧ (∃ (g' : Group) (c' : Crew), t.crew s.focus = some (g', c') ∧ OnlyRegion g c g' c') ∧
    t.pkg = { s.pkg with ctxs := t.pkg.ctxs } ∧ (∀ a, a ≠ s.asidOf g → t.ctx a = s.ctx a) ∧
    t.ctx (s.asidOf g) = { s.ctx (s.asidOf g) with bindRes := (t.ctx (s.asidOf g)).bindRes }

/-! ## A step (03 R43, R52; 02 R19, R26; 01 R13) -/

/-- A step runs the agenda's first event if it is due, unless it is one that comes last in its lift cycle; else the first of the package's agents that
has something to do; else a start or an ageing that is due (15 R316; 16 R329, R333); else it lets a lift cycle pass, in which the rings, the engines and the tile fetch units move; it always answers a next state. The issue of a Burhus crew runs the instruction that its bytes decode to, once the crew may issue, with the
crew marked as issued and not to issue again in this cycle, and a loop end of its quick translation counted (17 R343, R345); bytes that decode to none raise their fault in every strand (that one agent moves in a
step, and that Burhus code runs directly, are the model's choices: logs 1 and 2). -/
def Obligations.StepRuns : Prop :=
  (∀ (s : State) (t : Nat) (i : Instr) (r : List (Nat × Instr)), s.agenda = (t, i) :: r → t ≤ s.now →
    ((∀ n q, i ≠ .launchStart n q) → i ≠ .reservationAgeing → step s = exec i { s with agenda := r }) ∧
    ((∃ n q, i = .launchStart n q) ∨ i = .reservationAgeing → (∀ e, r.head? = some e → s.now < e.1) →
      (∀ j, firstChange s (candidates s) = some j → step s = exec j s) ∧
      (firstChange s (candidates s) = none → step s = exec i { s with agenda := r }))) ∧
  (∀ (s : State), (∀ e, s.agenda.head? = some e → s.now < e.1) →
    (∀ i, firstChange s (candidates s) = some i → step s = exec i s) ∧
    (firstChange s (candidates s) = none → step s = .next (passTime s) ∧ (passTime s).now = s.now + 1)) ∧
  (∀ s : State, ∃ t, step s = .next t) ∧
  ∀ (s : State) (k : Nat) (g : Group) (c : Crew), s.crew k = some (g, c) → c.fjoset = false → mayIssue s g c = true → c.region.latched = none →
    burMacro g c = false → riding .load s k = false → c.region.buf.length < 256 →
    ∃ u : State, u = markIssued g.launch ((countLoopEnd g c { s with focus := k }).setGroup k { g with
        lastCrew := some c.ctx, issued := s.cycle, running := some { c with notBefore := s.cycle + 1, last := c.pc } }) ∧
      (∀ i, burAt u g c = .ok i → exec (.bundleIssue k) s = exec i u) ∧
      (c.strands ≠ [] → ∀ e, burAt u g c = .error e → ∃ t, exec (.bundleIssue k) s = .next t ∧ ∃ (g' : Group) (c' : Crew) (f : FaultRec),
        t.crew k = some (g', c') ∧ c'.region.latched = some f ∧ f.kind = (if e = .illOpcode then .illOpcode else .malformed) ∧
        f.lanes = c.strands.map fun l => (l.1, 0))

/-- The issue of a native crew: its results due have landed, and if the crew may issue and the bundle at its place stands in the L1, decodes and
has nothing to wait for, the operations of the bundle run, those that read special registers first, a POST last, and each kind in slot order, the crew counts the bundle and goes on to the next; a
bundle that does not decode ends its region with ILL_OPCODE or MALFORMED, and one whose line is not in the L1 is asked for (03 R43 to R45, R50,
R58, R66). -/
def Obligations.NativeIssue : Prop :=
  ∀ (s : State) (k : Nat) (g : Group) (c : Crew) (w : BitVec 512), (s.crew k).map (fun x => x.2.fjoset) = some true →
    let s1 := enterTwin k (landDue k s.cycle { s with focus := k })
    s1.crew k = some (g, c) → (s.part (s.partOfLaunch g.launch)).pairs = false → mayIssue s1 g c = true → c.rpt = none → c.branch = none → c.delay = 0 →
    bundleWord s1 c c.pc = some w →
    (inL1 s1 k (s.asidOf g) c.tr c.pc = false → exec (.bundleIssue k) s = .next (fetchMiss k c.tr c.pc s1)) ∧
    (inL1 s1 k (s.asidOf g) c.tr c.pc = true →
      (∀ b, decodeBundle (s.launch g.launch).fmask w = .ok b → b.head = {} → (s.launch g.launch).record.getLsbD 15 = false →
        let is := b.sync.toList ++ b.slots
        overBudget (s.launch g.launch).vbc is = false → c.region.count < 256 → blockedBy s1 is = none → laneBusy g is = false → hasCommit b = false →
        let u := markIssued g.launch (s1.setGroup k { g with
          lastCrew := some c.ctx, issued := s.cycle
          running := some { c with notBefore := s.cycle + 1, region := { c.region with count := c.region.count + 1 } } })
        exec (.bundleIssue k) s = .next (sequence k c.pc b false ((readsFirst is).foldl (fun s i => nextOf (exec i s) s) u))) ∧
      ∀ e, decodeBundle (s.launch g.launch).fmask w = .error e →
        exec (.bundleIssue k) s = .next (stopAtOnce k (if e = .illOpcode then .illOpcode else .malformed) s1))

/-! ## Encodings (02 R19 to R29, 03 R43 to R49, 10 R203, 20 R398) -/

namespace Sys2Proof.Claims

/-- Bytes from their numbers. -/
def octets (l : List Nat) : List Byte := l.map (BitVec.ofNat 8)

/-- The Burhus bytes `l` stand for `i`, in a kernel of version 3.0 with every feature. -/
abbrev Reads (l : List Nat) (i : Instr) : Prop := decodeBurhus 0 30 (octets l) = .ok (i, [])

end Sys2Proof.Claims

/-- Burhus instructions of every family as their bytes spell them: those of Table 2.15, and words of the later chapters' formats. -/
def Sys2Proof.Claims.BurhusWords : Prop :=
  Reads [0x1A, 0x00, 0x82, 0x01, 0x00] (.movi (.bur { d := 130 })) ∧
  Reads [0x1A, 0x04, 0x03, 0x00, 0x00, 0xC0, 0x3F] (.movi (.bur { m1 := 4, d := 3, i := 0x3FC00000 })) ∧
  Reads [0xF0, 0x18, 0x00, 0x02, 0x82, 0x01, 0x00] (.icmp (.bur { immPage := true, d := 2, a := 130 })) ∧
  Reads [0xC0, 0x01] (.next { n1 := 1 }) ∧
  Reads [0xEF, 0x04, 0x23, 0x04, 0x07, 0x03, 0x04, 0x07] (.ffma (.bur { guard := some 4, m1 := 4, d := 7, a := 3, b := 4, c := 7 })) ∧
  Reads [0xF0, 0x00, 0x00, 0x82, 0x01, 0x82, 0x01, 0x01] (.iadd (.bur { immPage := true, d := 130, a := 130, i := 1 })) ∧
  Reads [0xC1, 0x05, 0x01, 0x02] (.nextC { c := 5, n1 := 1, n2 := 2 }) ∧ Reads [0xC3] (.exit {}) ∧ Reads [0xC4] (.rft {}) ∧
  Reads [0x38, 0x8B, 0x04, 0x0C, 0x09] (.cvt (.bur { m1 := 0x8B, m2 := 4, d := 12, a := 9 })) ∧
  Reads [0x59, 0x00, 0x03, 0x05, 0x06, 0x07, 0x00] (.atom (.bur { m2 := 3, d := 5, a := 6, b := 7 })) ∧
  Reads [0x63, 0x14, 0x15, 0x16] (.bind (.bur { a := 20, b := 21, c := 22 })) ∧ Reads [0x61, 0x03, 0x14] (.rel (.bur { m1 := 3, a := 20 })) ∧
  Reads [0x50, 0x04, 0x09, 0x14, 0xC0, 0x00] (.ld (.bur { m1 := 4, d := 9, a := 20, i := 64 })) ∧ Reads [0x62, 0x0B] (.fence (.bur { m1 := 11 })) ∧
  Reads [0xE0, 0x09, 0x08, 0x00] (.csrr (.bur { d := 9, n1 := 8 }))

/-- Slots of a native bundle as their bits spell them (03 Tables 3.3 to 3.9, 10 Table 10.4), the S slot with IMX beside it. -/
def Sys2Proof.Claims.SlotWords : Prop :=
  decS 0 0x180000A11800 4 = .ok (some (.icmp (.s { sub := 2, im := true, sd := 1, sa := 3, imx := 4 }))) ∧
  decV 0 0x38305940C2400000 0 0 = .ok (some (.cvt (.v { lat := 3, ty := 11, sat := true, sub := 4, vd := 12, va := 9 }))) ∧
  decL 0 0x570007004600000B 0 = .ok (some (.push (.l { ty := 7, dv := true, d := 6, disp := 11 }))) ∧
  decL 0 0x580A07004900000B 0 = .ok (some (.pop (.l { lat := 5, ty := 7, dv := true, d := 9, disp := 11 }))) ∧
  decL 0 0x502604004970C040 0 = .ok (some (.ld (.l { lat := 19, ty := 4, dv := true, d := 9, ar := 1, xe := true, xc := true, x := 3, disp := 64 }))) ∧
  decL 0 0x6100001800800000 0 = .ok (some (.rel (.l { scope := 3, ar := 2 }))) ∧
  decM 0x8814407D00000000 = .ok (some (.mx { fw := 5, ab := 1, nstep := 31, asrc := 1 })) ∧
  decM 0x8A16000000000000 = .ok (some (.mxr { fw := 5, aa := 2 })) ∧
  decB 0x0301C000 0 = .ok (some (.send { opnd := 0x1C000 })) ∧ decB 0x01040010 0 = .ok (some (.pbr { opnd := 0x40010 })) ∧
  decB 0x02640000 0 = .ok (some (.brt { gq := 1, ge := true, opnd := 0x40000 })) ∧ decB 0x0E000000 0 = .ok (some (.rftNative {})) ∧
  decY 0x46000002 = .ok (some (.wait 3 2)) ∧ decX 0x1140 false = .ok [.xv 5 0]

/-- Decoding what the encoder writes gives the instruction back, for every well-formed instruction: of Burhus code whatever bytes follow, of each
slot of a bundle, and of a command's message (02 R19 to R29, 03 R43 to R49, 10 R203, 20 R398). -/
def Obligations.EncodingsRoundTrip : Prop :=
  (∀ (i : Instr) (f : BIns) (rest : List Byte), formOf i = some (.bur f) → wellFormed i = true →
    decodeBurhus 0 30 (encodeBIns (opcOf i) f ++ rest) = .ok (i, rest)) ∧
  (∀ (i : Instr) (f : SSlot), formOf i = some (.s f) → wellFormed i = true → decS 0 (encS (opcOf i) f) f.imx.toNat = .ok (some i)) ∧
  (∀ (i : Instr) (f : VSlot), formOf i = some (.v f) → wellFormed i = true → decV 0 (encV (opcOf i) f) f.imx.toNat f.bcs.toNat = .ok (some i)) ∧
  (∀ (i : Instr) (f : LSlot), formOf i = some (.l f) → wellFormed i = true → decL 0 (encL (opcOf i) f) f.imx.toNat = .ok (some i)) ∧
  (∀ (i : Instr), wellFormed i = true → (∀ w x, encode i = .bSlot w x → decB w x = .ok (some i)) ∧ (∀ w, encode i = .mSlot w → decM w = .ok (some i)) ∧
    (∀ w, encode i = .xSlot w → (∃ b, decX w b = .ok [i]) ∧ ((∀ r, i ≠ .bc r) → decX w false = .ok [i])) ∧
    (∀ w, encode i = .ySlot w → decY w = .ok (some i))) ∧
  ∀ (i : Instr) (c : Nat) (h : CmdHdr) (w : List W64), cmdOf i = some (c, h, w) → wellFormed i = true →
    decodeMsg h.from_ (encodeMsg c h w) = some (c, h, some w) ∧ mkCmd c h w = some i

/-! ## Reset and what every step keeps (01 R18, 04 R70 to R74, 19 Tables 19.1 and 19.3, 20 R394) -/

/-- Right after reset nothing is booted and nobody owns the package; no core holds a group, a cache line or a translation; every granule is free
but those of the translation cache and of the stacks' metadata logs (logs 81 and 103); memory lists nothing and is in canonical form (host memory: log 4); functions and partitions hold the resets of their records. -/
def Obligations.ResetState : Prop :=
  let s := State.reset
  s.now = 0 ∧ s.svc.booted = false ∧ s.svc.owner = none ∧ s.svc.window = none ∧ s.svc.pkgId = 0 ∧ Memory.wf s.mem = true ∧ (∀ a, SMap.get 0 s.mem a = 0) ∧
  (∀ k, s.core k = { group := none, cache := [], dfifo := [], link := [], tlb := [], l1 := [] }) ∧ (∀ g, s.ownerOf g = if inCache g || inMetaLog g then 0x3FF else 0x3FE) ∧
  (∀ f, f < 512 → (s.fn f).record.toNat = f * 2 ^ 40 + 2 ^ 66 + f * 2 ^ 86) ∧
  (∀ p, p < 64 → (s.part p).record.toNat = p * 2 ^ 94 + 16 * 2 ^ 107 + 10 * 2 ^ 112 + 20 * 2 ^ 120 + 100 * 2 ^ 128 + 256 * 2 ^ 144) ∧
  (∀ a, (s.ctx a).live = false) ∧ s.pkg.launches = [] ∧ s.pkg.trans = [] ∧ s.pkg.l2 = [] ∧ ∀ a, (s.pkg.aps.get {} a).v = false

/-- Memory stays in its canonical form: addresses rising, and no byte listed that is 0, in every step of the machine. -/
def Obligations.StepKeepsMemory : Prop := ∀ s t : State, Memory.wf s.mem = true → step s = .next t → Memory.wf t.mem = true

/-- Sums, products and quotients of integers: IADD, ISUB, IMIN, IMAX, IABS, INEG, IMUL, IMULH, IMAD, IDIV and IREM (R179, R180). -/
def Obligations.IntegerArithmetic : Prop := IntegerSums ∧ IntegerProducts ∧ IntegerDivision

/-- Logic, shifts, bit fields, moves and integer comparisons (R179, Table 9.3). -/
def Obligations.BitOperations : Prop := LogicAndShifts ∧ BitFields ∧ MovesAndCompares

/-- Rounding into the formats of Table 8.1 (R162), and LOG6 codes as values (R164 to R166). -/
def Obligations.RoundingIntoFormats : Prop := RoundToFormat ∧ Log6Codes

/-- FMIN, FMAX and FCMP (R182, R183); FEXP2, FLOG2 and FTANH (R184). -/
def Obligations.FloatComparesAndExponentials : Prop := FloatCompares ∧ Exponentials

/-- VOTE, SHFL and CRED over the executing lanes (R191 to R195). -/
def Obligations.CrewOperations : Prop := Votes ∧ Shuffle ∧ Reductions

/-- LD of cached bytes and of absent ones, and PREF (R218, R225, R239). -/
def Obligations.Loads : Prop := LoadHits ∧ LoadMisses ∧ PrefetchOnlyHints

/-- LDL (R222) and LDC (R223). -/
def Obligations.LocalAndConstantLoads : Prop := LocalLoads ∧ ConstantLoads

/-- PUSH and POP (07 R151, R152). -/
def Obligations.Fifos : Prop := Pushes ∧ Pops

/-- SPL, FIL, XV, XS, XS.P and BC (07 R154, R155). -/
def Obligations.SpillsAndTransfers : Prop := SpillsAndFills ∧ Transfers

/-- ATOM and CAS up to their commit point, and what they make of an old value (11 R231 to R233). -/
def Obligations.Atomics : Prop := AtomicsWaitForTheCommitPoint ∧ AtomicResults

/-- REL, FENCE, SEAL, GATE, ACQ, BIND and UNBIND (12 R247 to R254; 13 R271, R274). -/
def Obligations.Ordering : Prop := OrderingIsNoted ∧ Acquires ∧ Bindings

/-- CSRR and CSRW (15 R322, R323). -/
def Obligations.SpecialRegisters : Prop := SpecialReads ∧ SpecialWrites

/-- The steps of the matrix lanes and the sums that they form (10 R205 to R211). -/
def Obligations.MatrixArithmetic : Prop := MatrixLanes ∧ BlockSums

/-- What the core memories, the caches and the home banks do by themselves. -/
def Obligations.CoreAndLineEvents : Prop := CoreMemoryEvents ∧ LineEvents

/-- Power-on and off, and how the package passes from owner to owner. -/
def Obligations.PowerAndOwnership : Prop := BootAndPower ∧ OwnershipPasses

/-- Words written out bit by bit decode to the instructions that they stand for. -/
def Obligations.DecodedWords : Prop := BurhusWords ∧ SlotWords

namespace Sys2Proof.Claims

/-- The events of memory complete: what each of them takes, it takes (03 R50; 04 R91, R97, R98; 05 R106; 07 R143, R149; 11 R230; 12 R259). -/
def MemoryCompletes : Prop :=
  (∀ (s : State) (core : Nat) (g : Group) (c : Crew) (m : MemReq) (r : List MemReq), s.crew core = some (g, c) → c.mem = m :: r → m.done s = true →
    ∃ (t : State) (g' : Group) (c' : Crew) (ws : List Landing), exec (.memoryResultArrival core) s = .next t ∧ t.crew core = some (g', c') ∧ c'.mem = r ∧
      c'.inflight = c.inflight ++ ws ∧ ws.map (fun w => (w.lane, w.slot)) = (m.lanes.map fun l => (l.lane, l.slot)).eraseDups ∧
      ∀ w ∈ ws, w.at_ = s.cycle ∧ w.cls = m.cls ∧ w.reg = m.reg) ∧
  (∀ (s : State) (core va : Nat) (g : Group) (b : Crew), s.group core = some g → va < 2 ^ 56 → g.blocked = [(b, .pageFault va)] → b.handler = false →
    ∃ (t : State) (g' : Group), exec (.pageFaultReply (s.asidOf g) va true) s = .next t ∧ t.mem = s.mem ∧ t.group core = some g' ∧ g'.blocked = [] ∧
      g'.frontier.ready = g.frontier.ready ++ [{ crew := { b with delivered := none }, whole := false, since := s.cycle }]) ∧
  (∀ (s : State) (core bank t₀ : Nat) (e : List W32) (g : Group), s.group core = some g → g.modeOf bank = some 2 → (g.queue bank).inbound = [(t₀, e)] →
    t₀ ≤ s.cycle → ∃ (t : State) (g' : Group), exec (.fifoPublication core bank) s = .next t ∧ t.mem = s.mem ∧ t.group core = some g' ∧
      (g'.queue bank).entries = (g.queue bank).entries ++ [e] ∧ (g'.queue bank).inbound = []) ∧
  (∀ (s : State) (core : Nat) (g : Group), s.group core = some g → ∃ (t : State) (g' : Group), exec (.bankModeChangeDone core) s = .next t ∧ t.mem = s.mem ∧
    t.group core = some g' ∧ g'.bkm = g.bkm ∧ ∀ b, b ∈ g'.changing ↔ b ∈ g.changing ∧ s.cycle < b.2) ∧
  (∀ (s : State) (core la : Nat) (d : Line) (m : Mask) (w : Writer) (r : List DEntry), (s.core core).dfifo = .bytes la d m w :: r →
    ∃ t, exec (.dirtyLineDrain core) s = .next t ∧ (t.core core).dfifo = r ∧
      { line := la, data := d, mask := m, w := w } ∈ t.pkg.mergeQ.get [] (s.homeBank la)) ∧
  (∀ (s : State) (bank : Nat) (r : MergeReq) (l : L2Line), s.pkg.mergeQ.get [] bank = [r] → s.pkg.l2.find? r.line = some l → r.w.asid = none →
    (∀ x ∈ s.pkg.ctxs, x.2.logTrap = false) →
    ∃ (t : State) (l' : L2Line), exec (.homeBankMerge bank) s = .next t ∧ t.pkg.mergeQ.get [] bank = [] ∧ t.pkg.l2.find? r.line = some l' ∧ l'.dirty = true) ∧
  (∀ (s : State) (line : Nat), isHbm (line * 128) = true → s.pkg.l2.find? line = none → (fetchMeta (line / 64) s).2 = true → s.verifies line = true →
    (∀ e ∈ s.pkg.l2, e.1 % 128 ≠ line % 128) →
    ∃ (t : State) (l : L2Line), exec (.l2Fill line true true) s = .next t ∧ t.mem = s.mem ∧ t.pkg.l2.find? line = some l ∧ l.dirty = false) ∧
  (∀ (s : State) (line : Nat) (l : L2Line), s.pkg.l2.find? line = some l → l.dirty = true → l.tag = none →
    ∃ (t : State) (l' : L2Line), exec (.writeBack line) s = .next t ∧ t.pkg.l2.find? line = some l' ∧ l'.dirty = false ∧
      ∀ i < 128, SMap.get 0 t.mem (line * 128 + i) = byteOf l.data i) ∧
  (∀ (s : State) (pa : Nat) (b : Byte) (l : L2Line), isHbm pa = true → granOk (granOf pa) = true → s.ownerOf (granOf pa) ≠ 0x3FE →
    s.pkg.l2.find? (lineOf pa) = some l → s.pkg.mergeQ.get [] (s.homeBank (lineOf pa)) = [] →
    (∃ (t : State) (l' : L2Line), exec (.peerApertureAccess pa 1 (some [b])) s = .next t ∧ t.pkg.l2.find? (lineOf pa) = some l' ∧ byteOf l'.data (pa % 128) = b) ∧
    ∃ (t : State) (l' : L2Line), exec (.peerApertureAccess pa 1 none) s = .next t ∧ t.pkg.l2.find? (lineOf pa) = some l' ∧ l'.data = l.data) ∧
  ∀ (s : State) (core : Nat) (ok : Bool) (q : LinkReq) (r : List LinkReq), (s.core core).link = q :: r →
    ∃ t, exec (.linkAcknowledgement core ok) s = .next t ∧ (t.core core).link = r ∧
      (ok = true → linkUp s q.asid q.pa = true → ∀ i b, q.bytes[i]? = some b → SMap.get 0 t.mem (q.pa + i) = b) ∧ (ok = false → t.mem = s.mem)

/-- PREF, the operations of synchronisation and recovery, and those of counting flags complete, in every form, where the guard holds and where it does
not. PREF always moves on. ACQ moves on once its crew's results have landed, with a wait of 32 core cycles at a wide scope. REL, FENCE, SEAL and GATE
ask for a commit point, with their operation noted for it where they execute; BIND and UNBIND buffer what they name; WAIT takes its counts where
the flag holds them; a POST is noted for its commit point, and its delivery adds the counts (11 R239; 12 R247 to R251, R254; 13 R271, R274; 14 R305 to
R308). -/
def SynchronisationCompletes : Prop :=
  (∀ (s : State) (g : Group) (c : Crew), s.crew s.focus = some (g, c) →
    let ran := fun (i : Instr) (h : Group → Crew → Prop) => ∃ (t : State) (g' : Group) (c' : Crew), exec i s = .next t ∧ t.crew s.focus = some (g', c') ∧ h g' c'
    let past := fun (op : Nat) (f : Form) => c.pc + (match f with | .bur b => (encodeBIns op b).length | _ => 0)
    let mapped := fun (f : Form) (acc : Acc) => ∀ o ∈ syncObjs g c f, o.2.2 % 8 = 0 ∧
      ∃ p : Phys, translate s.focus (s.asidOf g) o.2.2 acc s = (s, .ok p) ∧ atomBad (syncScope f) p.pa p.widx false 0 8 = false
    (∀ f : Form,
      (wellFormed (.pref f) = true → ran (.pref f) fun g' c' => g' = { g with running := some c' } ∧ c' = { c with pc := past 0x5B f, skip := c'.skip }) ∧
      (wellFormed (.acq f) = true → (crewExecutes g c f = true → c.unlanded s.cycle = false) → mapped f .read →
        ran (.acq f) fun g' c' => g' = { g with running := some c' } ∧ c'.pc = past 0x60 f ∧ (c'.hold = c.hold ∨ c'.hold = some (.acquire (s.cycle + 32))) ∧
          (2 ≤ syncScope f → crewExecutes g c f = true → c'.hold = some (.acquire (s.cycle + 32)))) ∧
      (wellFormed (.rel f) = true → mapped f .write → ran (.rel f) fun g' c' => g' = { g with running := some c' } ∧ c'.region.due = true ∧
        ∃ o, c'.region.ops = c.region.ops ++ if crewExecutes g c f then [o] else []) ∧
      (∀ x ∈ [(Instr.fence f, 0x62, CommitOp.fence (BitVec.ofNat 3 (syncScope f)) (syncSc f)), (.seal f, 0x68, .seal), (.gate f, 0x69, .gate (gateNum f) c.pc)],
        wellFormed x.1 = true → (x.1 = .seal f → crewExecutes g c f = true → c.handler = false) →
        ran x.1 fun g' c' => g' = { g with running := some c' } ∧ c'.region.due = true ∧ c'.pc = past x.2.1 f ∧
          c'.region.ops = c.region.ops ++ if crewExecutes g c f then [x.2.2] else []) ∧
      (wellFormed (.bind f) = true → (∀ o ∈ bindOps g c f, o.2.1 % 8 = 0 ∧ 0 < o.2.2.2 ∧ o.2.2.2 ≤ 2 ^ 48 ∧ o.2.2.1 + o.2.2.2 ≤ 2 ^ 56) →
        (s.ctx (s.asidOf g)).binds.length + (s.ctx (s.asidOf g)).bindRes + (bindOps g c f).length ≤ 1024 →
        c.region.buf.length + (bindOps g c f).length ≤ 768 → ran (.bind f) fun g' c' => g' = { g with running := some c' } ∧ c'.pc = past 0x63 f ∧
          ∃ es, c'.region.buf = c.region.buf ++ es ∧ ∀ e, e ∈ es ↔ ∃ o ∈ bindOps g c f, e = .bind (o.2.1 % 2 ^ 56) o.2.2.1 o.2.2.2) ∧
      (wellFormed (.unbind f) = true → (∀ o ∈ syncObjs g c f, o.2.2 % 8 = 0) → c.region.buf.length + (syncObjs g c f).length ≤ 768 →
        ran (.unbind f) fun g' c' => g' = { g with running := some c' } ∧ c'.pc = past 0x64 f ∧
          ∃ es, c'.region.buf = c.region.buf ++ es ∧ ∀ e, e ∈ es ↔ ∃ o ∈ syncObjs g c f, e = .unbind o.2.2)) ∧
    ∀ (flag : BitVec 5) (k : BitVec 15),
      (k.toNat ≤ (g.flags.get {} flag.toNat).count.toNat → (c.served ≠ none ∨ olderWaiter g flag.toNat = false) →
        ((g.flags.get {} flag.toNat).remote = false ∨ c.acq ≠ none) →
        ran (.wait flag k) fun g' c' => c'.hold = c.hold ∧ (g'.flags.get {} flag.toNat).count.toNat + k.toNat = (g.flags.get {} flag.toNat).count.toNat) ∧
      (ran (.postSelf flag k) fun _ c' => c'.region.due = true ∧ c'.region.ops = c.region.ops ++ [.post true s.focus flag.toNat k.toNat g.cluster]) ∧
      ∀ (core : BitVec 9) (h : Group), s.group core.toNat = some h → h.launch = g.launch → ran (.postCore flag core k) fun _ c' =>
        c'.region.due = true ∧ c'.region.ops = c.region.ops ++ [.post false core.toNat flag.toNat k.toNat h.cluster]) ∧
  ∀ (s : State) (g : Group) (core flag k : Nat) (remote : Bool), s.group core = some g → (g.flags.get {} flag).count.toNat + k ≤ 65535 →
    ∃ (t : State) (g' : Group), exec (.flagDelivery core flag k (g.launch, g.cluster) remote) s = .next t ∧ t.group core = some g' ∧
      (g'.flags.get {} flag).count.toNat = (g.flags.get {} flag).count.toNat + k

/-- The commands of ownership and configuration complete (19 R378 to R382, R384, R385). -/
def OwnershipCompletes : Prop :=
  (∀ (s : State) (h : CmdHdr), s.svc.booted = true → 1 ≤ h.from_.cls → h.from_.cls ≤ 3 → s.svc.window = none → s.svc.owner = none →
    ∃ t, exec (.claim h []) s = .next t ∧ t.svc.owner = some h.from_ ∧ Says t h 1 0 "" []) ∧
  (∀ (s : State) (h : CmdHdr), Owns h s → ∃ t, exec (.keep h []) s = .next t ∧ t.svc.heard = s.now ∧ Says t h 2 0 "" []) ∧
  (∀ (s : State) (h : CmdHdr), Owns h s → s.svc.handover = none →
    ∃ t, exec (.handover h [wd 1]) s = .next t ∧ t.svc.handover = some (⟨1, 0⟩, h, s.now) ∧ t.svc.owner = s.svc.owner) ∧
  (∀ (s : State) (h h' : CmdHdr), s.svc.booted = true → h.from_.cls ≠ 0 → h'.from_.cls ≠ 0 → s.svc.handover = some (h.from_, h', s.now) →
    ∃ t, exec (.accept h []) s = .next t ∧ t.svc.owner = some h.from_ ∧ t.svc.handover = none) ∧
  (∀ (s : State) (h : CmdHdr) (w : List W64), Owns h s → pconfFails s w = none → s.pkg.launches = [] → s.pkg.bankHeld = [] →
    (s.part (pconfOf w).p).pending = [] → (s.part (pconfOf w).p).unlock = false → (pconfOf w).banks = [] →
    ∃ t, exec (.pconfig h w) s = .next t ∧ Says t h 0x10 0 "" [] ∧ (t.part (pconfOf w).p).record = (pconfOf w).record) ∧
  ∀ (s : State) (h : CmdHdr) (r : BitVec 128), Owns h s → let f := (r.extractLsb' 40 9).toNat
    let w := [r.extractLsb' 0 64, r.extractLsb' 64 64]
    fconfFails s w = none → (s.fn f).en = false → ∃ t, exec (.fconfig h w) s = .next t ∧ Says t h 0x11 0 "" [] ∧ (t.fn f).record = r

/-- The debugger's commands complete (18 R377; 20 Table 20.4; 21 R404). -/
def DebuggerCompletes : Prop :=
  ∀ (s : State) (h : CmdHdr) (a : Nat), Owns h s → a < 4096 → (s.ctx a).live = true →
    ((s.ctx a).dbg = false → ∃ t, exec (.dattach h [wd a]) s = .next t ∧ (t.ctx a).dbg = true ∧ Says t h 0x44 0 "" []) ∧
    ((s.ctx a).dbg = true →
      (∃ t, exec (.ddetach h [wd a]) s = .next t ∧ (t.ctx a).dbg = false ∧ Says t h 0x45 0 "" []) ∧
      (∃ t, exec (.dcont h [wd a]) s = .next t ∧ (t.ctx a).stopped = false ∧ Says t h 0x43 0 "" []) ∧
      (∃ t, exec (.dstop h [wd a]) s = .next t ∧ (t.ctx a).stopped = true) ∧
      ∀ (k lane r : Nat) (v : W64) (g : Group) (c : Crew), k < 512 → lane < 64 → r < 2 ^ 21 → s.group k = some g → s.asidOf g = a →
        burhusKernel s g = true → g.live.contains lane = true → g.running = none → crewOf g ⟨k, 0, lane⟩ = some c → dbgPoint s g c = none →
        (∃ t, exec (.dread h [wd a, wd (k + lane * 2 ^ 13), 1, wd r]) s = .next t ∧ Says t h 0x41 0 "" [1, g.getX 0 lane r, 0]) ∧
        ∃ t g', exec (.dwrite h [wd a, wd (k + lane * 2 ^ 13), wd r, v]) s = .next t ∧ t.group k = some g' ∧ g'.getX 0 lane r = v)

/-- Resets, and what the links and rings do by themselves, complete (01 R18; 04 R92, R102; 05 R113; 13 R284; 18 R376; 20 R400). -/
def ResetsComplete : Prop :=
  (∀ (s : State) (o first n : Nat), s.pkg.launches = [] → ∃ t, exec (.containment (.ownerTree o first n)) s = .next t ∧
    ∀ i < n, ∀ g, (s.orderOf o)[(first + i) / 256]? = some g → ∀ j < 64, (t.lineMeta ((g * 256 + (first + i) % 256) * 64 + j)).poison = true) ∧
  (∀ (s : State) (die : Nat), die < 4 → s.pkg.ctxs = [] → ∃ t, exec (.computeDieReset die) s = .next t ∧
    ∀ k, k / 128 = die → (t.core k).group = none ∧ (t.core k).cache = [] ∧ (t.core k).dfifo = [] ∧ (t.core k).fenced = (s.core k).fenced) ∧
  (∀ (s : State) (f : Nat), f < 512 → s.pkg.launches = [] → s.pkg.eng = [] → ∃ t, exec (.functionReset f) s = .next t ∧ (t.fn f).en = false ∧ (t.fn f).msix = []) ∧
  (∀ (s : State) (port : Nat), port < 16 → port ∉ s.svc.down → ∃ t, exec (.linkDown port) s = .next t ∧ t.svc.down = s.svc.down ++ [port]) ∧
  (∀ (s : State) (die k : Nat) (b : Byte), die < 4 → nextOrigin s die = s.now → s.pkg.chairsNext = [(k, b)] → k / 20480 = die →
    ∃ t, exec (.frameOrigin die) s = .next t ∧ t.pkg.chairs.get 0 k = b ∧ t.pkg.chairsNext = []) ∧
  ∀ (s : State) (id : Nat) (r : Relay), s.pkg.relays.find? id = some r → r.building = none → (∀ a ∈ r.ctxs, r.rpp < (s.ctx a).rpn) →
    ∃ t r', exec (.relayDecision id []) s = .next t ∧ t.pkg.relays.find? id = some r' ∧ r'.rpp = r.rpp + 1

end Sys2Proof.Claims

/-- The operations of synchronisation, and the package's events and commands, complete: where nothing stands against one of them, it ends in a next state that holds its own effect. -/
def Obligations.Completions : Prop := SynchronisationCompletes ∧ MemoryCompletes ∧ OwnershipCompletes ∧ DebuggerCompletes ∧ ResetsComplete
end

