-- ==== Sys2Proof/Laws/Sparse.lean ====
section
/-!
SUPPORT. Laws of sparse tables: reading after a write, and that writes keep the canonical form; and that every operation
on memory keeps it.
-/
namespace Sys2Proof.Machine

variable {α : Type}

/-! ## Reading after a write -/

@[simp] theorem SMap.get_nil (d : α) (k : Nat) : SMap.get d ([] : SMap α) k = d := rfl

theorem SMap.get_put_self (d : α) (m : SMap α) (k : Nat) (v : α) : SMap.get d (m.put k v) k = v := by
  induction m with
  | nil => simp [SMap.put, SMap.get]
  | cons e m ih =>
    obtain ⟨j, u⟩ := e
    simp only [SMap.put]
    split
    · simp [SMap.get]
    · split
      · simp [SMap.get]
      · next h => simp [SMap.get, Ne.symm h, ih]

theorem SMap.get_put_ne (d : α) (m : SMap α) {k j : Nat} (v : α) (h : j ≠ k) :
    SMap.get d (m.put k v) j = SMap.get d m j := by
  induction m with
  | nil => simp [SMap.put, SMap.get, Ne.symm h]
  | cons e m ih =>
    obtain ⟨i, u⟩ := e
    simp only [SMap.put]
    split
    · simp [SMap.get, Ne.symm h]
    · split
      · next hk => subst hk; simp [SMap.get, Ne.symm h]
      · simp only [SMap.get, ih]

theorem SMap.get_del_self (d : α) (m : SMap α) (k : Nat) : SMap.get d (m.del k) k = d := by
  induction m with
  | nil => rfl
  | cons e m ih =>
    obtain ⟨i, u⟩ := e
    by_cases hi : i = k
    · simpa [SMap.del, hi] using ih
    · simp only [SMap.del, List.filter_cons, ne_eq, hi, not_false_eq_true, decide_true, if_true, SMap.get, if_false]
      exact ih

theorem SMap.get_del_ne (d : α) (m : SMap α) {k j : Nat} (h : j ≠ k) : SMap.get d (m.del k) j = SMap.get d m j := by
  induction m with
  | nil => rfl
  | cons e m ih =>
    obtain ⟨i, u⟩ := e
    by_cases hi : i = k
    · subst hi
      simpa [SMap.del, SMap.get, Ne.symm h] using ih
    · simp only [SMap.del, List.filter_cons, ne_eq, hi, not_false_eq_true, decide_true, if_true, SMap.get]
      split
      · rfl
      · exact ih

variable [DecidableEq α]

/-- A read of the key written gives the value written. -/
@[simp] theorem SMap.get_set_self (d : α) (m : SMap α) (k : Nat) (v : α) : SMap.get d (SMap.set d m k v) k = v := by
  unfold SMap.set
  split
  · next h => rw [SMap.get_del_self, h]
  · exact SMap.get_put_self d m k v

/-- A write leaves every other key alone. -/
theorem SMap.get_set_ne (d : α) (m : SMap α) {k j : Nat} (v : α) (h : j ≠ k) :
    SMap.get d (SMap.set d m k v) j = SMap.get d m j := by
  unfold SMap.set
  split
  · exact SMap.get_del_ne d m h
  · exact SMap.get_put_ne d m v h

theorem SMap.get_set (d : α) (m : SMap α) (k j : Nat) (v : α) :
    SMap.get d (SMap.set d m k v) j = if j = k then v else SMap.get d m j := by
  split
  · next h => rw [h, SMap.get_set_self]
  · next h => exact SMap.get_set_ne d m v h

/-- What a run of writes leaves at a key. -/
theorem SMap.get_setList (d : α) (m : SMap α) (k j : Nat) (vs : List α) :
    SMap.get d (SMap.setList d m k vs) j =
      if k ≤ j ∧ j < k + vs.length then vs.getD (j - k) d else SMap.get d m j := by
  induction vs generalizing m k with
  | nil => simp only [SMap.setList, List.length_nil, Nat.add_zero]; rw [if_neg (by omega)]
  | cons v vs ih =>
    simp only [SMap.setList, ih, SMap.get_set, List.length_cons]
    by_cases h1 : j = k
    · subst h1
      rw [if_neg (by omega), if_pos rfl, if_pos (by omega)]
      simp
    · by_cases h2 : k + 1 ≤ j ∧ j < k + 1 + vs.length
      · rw [if_pos h2, if_pos (by omega), show j - k = (j - (k + 1)) + 1 by omega]
        simp
      · rw [if_neg h2, if_neg h1, if_neg (by omega)]

theorem SMap.getList_length (d : α) (m : SMap α) (k n : Nat) : (SMap.getList d m k n).length = n := by
  induction n generalizing k with
  | zero => rfl
  | succ n ih => simp [SMap.getList, ih]

/-! ## The canonical form -/

theorem SMap.wfFrom_mono (d : α) {lo lo' : Nat} (h : lo ≤ lo') (m : SMap α) (w : SMap.wfFrom d lo' m = true) :
    SMap.wfFrom d lo m = true := by
  cases m with
  | nil => rfl
  | cons e m =>
    obtain ⟨j, v⟩ := e
    simp only [SMap.wfFrom, Bool.and_eq_true, decide_eq_true_eq] at w ⊢
    exact ⟨⟨by omega, w.1.2⟩, w.2⟩

theorem SMap.wfFrom_put (d : α) {lo : Nat} (m : SMap α) (k : Nat) (v : α) (hk : lo ≤ k) (hv : v ≠ d)
    (w : SMap.wfFrom d lo m = true) : SMap.wfFrom d lo (m.put k v) = true := by
  induction m generalizing lo with
  | nil => simp [SMap.put, SMap.wfFrom, hk, hv]
  | cons e m ih =>
    obtain ⟨j, u⟩ := e
    simp only [SMap.wfFrom, Bool.and_eq_true, decide_eq_true_eq] at w
    simp only [SMap.put]
    split
    · simp only [SMap.wfFrom, Bool.and_eq_true, decide_eq_true_eq]
      exact ⟨⟨hk, by simpa using hv⟩, ⟨⟨by omega, w.1.2⟩, w.2⟩⟩
    · split
      · next hj =>
        subst hj
        simp only [SMap.wfFrom, Bool.and_eq_true, decide_eq_true_eq]
        exact ⟨⟨hk, by simpa using hv⟩, w.2⟩
      · simp only [SMap.wfFrom, Bool.and_eq_true, decide_eq_true_eq]
        exact ⟨w.1, ih (by omega) w.2⟩

theorem SMap.wfFrom_filter (d : α) {lo : Nat} (m : SMap α) (p : Nat × α → Bool) (w : SMap.wfFrom d lo m = true) :
    SMap.wfFrom d lo (m.filter p) = true := by
  induction m generalizing lo with
  | nil => rfl
  | cons e m ih =>
    obtain ⟨j, u⟩ := e
    simp only [SMap.wfFrom, Bool.and_eq_true, decide_eq_true_eq] at w
    simp only [List.filter_cons]
    split
    · simp only [SMap.wfFrom, Bool.and_eq_true, decide_eq_true_eq]
      exact ⟨w.1, ih w.2⟩
    · exact SMap.wfFrom_mono d (by omega : lo ≤ j + 1) _ (ih w.2)

theorem SMap.wf_set (d : α) (m : SMap α) (k : Nat) (v : α) (w : SMap.wf d m = true) : SMap.wf d (SMap.set d m k v) = true := by
  unfold SMap.set
  split
  · exact SMap.wfFrom_filter d m _ w
  · next h => exact SMap.wfFrom_put d m k v (Nat.zero_le k) h w

theorem SMap.wf_filter (d : α) (m : SMap α) (p : Nat × α → Bool) (w : SMap.wf d m = true) : SMap.wf d (m.filter p) = true :=
  SMap.wfFrom_filter d m p w

theorem SMap.wf_setList (d : α) (m : SMap α) (k : Nat) (vs : List α) (w : SMap.wf d m = true) :
    SMap.wf d (SMap.setList d m k vs) = true := by
  induction vs generalizing m k with
  | nil => exact w
  | cons v vs ih => exact ih _ _ (SMap.wf_set d m k v w)

/-- Two canonical tables that read alike are equal. -/
theorem SMap.wfFrom_get_lt (d : α) {lo : Nat} (m : SMap α) (w : SMap.wfFrom d lo m = true) {k : Nat} (h : k < lo) :
    SMap.get d m k = d := by
  induction m generalizing lo with
  | nil => rfl
  | cons e m ih =>
    obtain ⟨j, u⟩ := e
    simp only [SMap.wfFrom, Bool.and_eq_true, decide_eq_true_eq] at w
    simp only [SMap.get]
    rw [if_neg (by omega)]
    exact ih w.2 (by omega)

/-! ## Memory -/

/-- The memory at reset is in canonical form. -/
theorem Memory.wf_reset : Memory.wf State.reset.mem = true := rfl

/-- Writing physical bytes keeps the canonical form. -/
theorem Memory.wf_putRaw (s : State) (pa : Nat) (bs : List Byte) (w : Memory.wf s.mem = true) :
    Memory.wf (s.putRaw pa bs).mem = true := SMap.wf_setList 0 _ _ _ w

/-- Dropping bytes, as clearing a granule and a loss of power do, keeps it. -/
theorem Memory.wf_filter (m : Memory) (p : Nat × Byte → Bool) (w : Memory.wf m = true) : Memory.wf (m.filter p) = true :=
  SMap.wf_filter 0 m p w

/-- Writing bytes one by one, as copying a granule does, keeps it. -/
theorem Memory.wf_foldl (m : Memory) (f : Nat × Byte → Nat) (l : List (Nat × Byte)) (w : Memory.wf m = true) :
    Memory.wf (l.foldl (fun (m : Memory) c => SMap.set (0 : Byte) m (f c) c.2) m) = true := by
  induction l generalizing m with
  | nil => exact w
  | cons c l ih => exact ih _ (SMap.wf_set 0 m _ _ w)

/-- A read of bytes after a write of them gives what was written, and every other byte is left alone. -/
theorem State.get_putRaw (s : State) (pa a : Nat) (bs : List Byte) :
    SMap.get 0 (s.putRaw pa bs).mem a = if pa ≤ a ∧ a < pa + bs.length then bs.getD (a - pa) 0 else SMap.get 0 s.mem a :=
  SMap.get_setList 0 s.mem pa a bs

end Sys2Proof.Machine
end

