-- ==== Sys2Proof/Laws/State.lean ====
section
/-!
SUPPORT. What each update of the state leaves in each field: one lemma per field per update.
-/
namespace Sys2Proof.Machine

@[simp] theorem State.setCore_now (s : State) (k : Nat) (c : Core) : (s.setCore k c).now = s.now := rfl
@[simp] theorem State.setCore_agenda (s : State) (k : Nat) (c : Core) : (s.setCore k c).agenda = s.agenda := rfl
@[simp] theorem State.setCore_free (s : State) (k : Nat) (c : Core) : (s.setCore k c).free = s.free := rfl
@[simp] theorem State.setCore_focus (s : State) (k : Nat) (c : Core) : (s.setCore k c).focus = s.focus := rfl
@[simp] theorem State.setCore_mem (s : State) (k : Nat) (c : Core) : (s.setCore k c).mem = s.mem := rfl
@[simp] theorem State.setCore_cores (s : State) (k : Nat) (c : Core) : (s.setCore k c).cores = s.cores.set {} k c := rfl
@[simp] theorem State.setCore_pkg (s : State) (k : Nat) (c : Core) : (s.setCore k c).pkg = s.pkg := rfl
@[simp] theorem State.setCore_svc (s : State) (k : Nat) (c : Core) : (s.setCore k c).svc = s.svc := rfl

@[simp] theorem State.modCore_now (s : State) (k : Nat) (f : Core → Core) : (s.modCore k f).now = s.now := rfl
@[simp] theorem State.modCore_agenda (s : State) (k : Nat) (f : Core → Core) : (s.modCore k f).agenda = s.agenda := rfl
@[simp] theorem State.modCore_free (s : State) (k : Nat) (f : Core → Core) : (s.modCore k f).free = s.free := rfl
@[simp] theorem State.modCore_focus (s : State) (k : Nat) (f : Core → Core) : (s.modCore k f).focus = s.focus := rfl
@[simp] theorem State.modCore_mem (s : State) (k : Nat) (f : Core → Core) : (s.modCore k f).mem = s.mem := rfl
@[simp] theorem State.modCore_pkg (s : State) (k : Nat) (f : Core → Core) : (s.modCore k f).pkg = s.pkg := rfl
@[simp] theorem State.modCore_svc (s : State) (k : Nat) (f : Core → Core) : (s.modCore k f).svc = s.svc := rfl

@[simp] theorem State.setGroup_now (s : State) (k : Nat) (g : Group) : (s.setGroup k g).now = s.now := rfl
@[simp] theorem State.setGroup_agenda (s : State) (k : Nat) (g : Group) : (s.setGroup k g).agenda = s.agenda := rfl
@[simp] theorem State.setGroup_free (s : State) (k : Nat) (g : Group) : (s.setGroup k g).free = s.free := rfl
@[simp] theorem State.setGroup_focus (s : State) (k : Nat) (g : Group) : (s.setGroup k g).focus = s.focus := rfl
@[simp] theorem State.setGroup_mem (s : State) (k : Nat) (g : Group) : (s.setGroup k g).mem = s.mem := rfl
@[simp] theorem State.setGroup_pkg (s : State) (k : Nat) (g : Group) : (s.setGroup k g).pkg = s.pkg := rfl
@[simp] theorem State.setGroup_svc (s : State) (k : Nat) (g : Group) : (s.setGroup k g).svc = s.svc := rfl

@[simp] theorem State.modGroup_now (s : State) (k : Nat) (f : Group → Group) : (s.modGroup k f).now = s.now := by unfold State.modGroup; split <;> rfl
@[simp] theorem State.modGroup_agenda (s : State) (k : Nat) (f : Group → Group) : (s.modGroup k f).agenda = s.agenda := by unfold State.modGroup; split <;> rfl
@[simp] theorem State.modGroup_free (s : State) (k : Nat) (f : Group → Group) : (s.modGroup k f).free = s.free := by unfold State.modGroup; split <;> rfl
@[simp] theorem State.modGroup_focus (s : State) (k : Nat) (f : Group → Group) : (s.modGroup k f).focus = s.focus := by unfold State.modGroup; split <;> rfl
@[simp] theorem State.modGroup_mem (s : State) (k : Nat) (f : Group → Group) : (s.modGroup k f).mem = s.mem := by unfold State.modGroup; split <;> rfl
@[simp] theorem State.modGroup_pkg (s : State) (k : Nat) (f : Group → Group) : (s.modGroup k f).pkg = s.pkg := by unfold State.modGroup; split <;> rfl
@[simp] theorem State.modGroup_svc (s : State) (k : Nat) (f : Group → Group) : (s.modGroup k f).svc = s.svc := by unfold State.modGroup; split <;> rfl

@[simp] theorem State.modCrew_now (s : State) (k : Nat) (f : Crew → Crew) : (s.modCrew k f).now = s.now := State.modGroup_now ..
@[simp] theorem State.modCrew_agenda (s : State) (k : Nat) (f : Crew → Crew) : (s.modCrew k f).agenda = s.agenda := State.modGroup_agenda ..
@[simp] theorem State.modCrew_free (s : State) (k : Nat) (f : Crew → Crew) : (s.modCrew k f).free = s.free := State.modGroup_free ..
@[simp] theorem State.modCrew_focus (s : State) (k : Nat) (f : Crew → Crew) : (s.modCrew k f).focus = s.focus := State.modGroup_focus ..
@[simp] theorem State.modCrew_mem (s : State) (k : Nat) (f : Crew → Crew) : (s.modCrew k f).mem = s.mem := State.modGroup_mem ..
@[simp] theorem State.modCrew_pkg (s : State) (k : Nat) (f : Crew → Crew) : (s.modCrew k f).pkg = s.pkg := State.modGroup_pkg ..
@[simp] theorem State.modCrew_svc (s : State) (k : Nat) (f : Crew → Crew) : (s.modCrew k f).svc = s.svc := State.modGroup_svc ..

@[simp] theorem State.modRegion_now (s : State) (k : Nat) (f : Region → Region) : (s.modRegion k f).now = s.now := State.modGroup_now ..
@[simp] theorem State.modRegion_agenda (s : State) (k : Nat) (f : Region → Region) : (s.modRegion k f).agenda = s.agenda := State.modGroup_agenda ..
@[simp] theorem State.modRegion_free (s : State) (k : Nat) (f : Region → Region) : (s.modRegion k f).free = s.free := State.modGroup_free ..
@[simp] theorem State.modRegion_focus (s : State) (k : Nat) (f : Region → Region) : (s.modRegion k f).focus = s.focus := State.modGroup_focus ..
@[simp] theorem State.modRegion_mem (s : State) (k : Nat) (f : Region → Region) : (s.modRegion k f).mem = s.mem := State.modGroup_mem ..
@[simp] theorem State.modRegion_pkg (s : State) (k : Nat) (f : Region → Region) : (s.modRegion k f).pkg = s.pkg := State.modGroup_pkg ..
@[simp] theorem State.modRegion_svc (s : State) (k : Nat) (f : Region → Region) : (s.modRegion k f).svc = s.svc := State.modGroup_svc ..

@[simp] theorem State.modCtxCrew_now (s : State) (k c : Nat) (f : Crew → Crew) : (s.modCtxCrew k c f).now = s.now := State.modGroup_now ..
@[simp] theorem State.modCtxCrew_agenda (s : State) (k c : Nat) (f : Crew → Crew) : (s.modCtxCrew k c f).agenda = s.agenda := State.modGroup_agenda ..
@[simp] theorem State.modCtxCrew_free (s : State) (k c : Nat) (f : Crew → Crew) : (s.modCtxCrew k c f).free = s.free := State.modGroup_free ..
@[simp] theorem State.modCtxCrew_focus (s : State) (k c : Nat) (f : Crew → Crew) : (s.modCtxCrew k c f).focus = s.focus := State.modGroup_focus ..
@[simp] theorem State.modCtxCrew_mem (s : State) (k c : Nat) (f : Crew → Crew) : (s.modCtxCrew k c f).mem = s.mem := State.modGroup_mem ..
@[simp] theorem State.modCtxCrew_pkg (s : State) (k c : Nat) (f : Crew → Crew) : (s.modCtxCrew k c f).pkg = s.pkg := State.modGroup_pkg ..
@[simp] theorem State.modCtxCrew_svc (s : State) (k c : Nat) (f : Crew → Crew) : (s.modCtxCrew k c f).svc = s.svc := State.modGroup_svc ..

@[simp] theorem State.post_now (s : State) (t : Nat) (i : Instr) : (s.post t i).now = s.now := rfl
@[simp] theorem State.post_agenda (s : State) (t : Nat) (i : Instr) : (s.post t i).agenda = insertEvent t i s.agenda := rfl
@[simp] theorem State.post_free (s : State) (t : Nat) (i : Instr) : (s.post t i).free = s.free := rfl
@[simp] theorem State.post_focus (s : State) (t : Nat) (i : Instr) : (s.post t i).focus = s.focus := rfl
@[simp] theorem State.post_mem (s : State) (t : Nat) (i : Instr) : (s.post t i).mem = s.mem := rfl
@[simp] theorem State.post_cores (s : State) (t : Nat) (i : Instr) : (s.post t i).cores = s.cores := rfl
@[simp] theorem State.post_pkg (s : State) (t : Nat) (i : Instr) : (s.post t i).pkg = s.pkg := rfl
@[simp] theorem State.post_svc (s : State) (t : Nat) (i : Instr) : (s.post t i).svc = s.svc := rfl

@[simp] theorem State.modPkg_now (s : State) (f : Pkg → Pkg) : (s.modPkg f).now = s.now := rfl
@[simp] theorem State.modPkg_agenda (s : State) (f : Pkg → Pkg) : (s.modPkg f).agenda = s.agenda := rfl
@[simp] theorem State.modPkg_free (s : State) (f : Pkg → Pkg) : (s.modPkg f).free = s.free := rfl
@[simp] theorem State.modPkg_focus (s : State) (f : Pkg → Pkg) : (s.modPkg f).focus = s.focus := rfl
@[simp] theorem State.modPkg_mem (s : State) (f : Pkg → Pkg) : (s.modPkg f).mem = s.mem := rfl
@[simp] theorem State.modPkg_cores (s : State) (f : Pkg → Pkg) : (s.modPkg f).cores = s.cores := rfl
@[simp] theorem State.modPkg_pkg (s : State) (f : Pkg → Pkg) : (s.modPkg f).pkg = f s.pkg := rfl
@[simp] theorem State.modPkg_svc (s : State) (f : Pkg → Pkg) : (s.modPkg f).svc = s.svc := rfl

@[simp] theorem State.modSvc_now (s : State) (f : Svc → Svc) : (s.modSvc f).now = s.now := rfl
@[simp] theorem State.modSvc_agenda (s : State) (f : Svc → Svc) : (s.modSvc f).agenda = s.agenda := rfl
@[simp] theorem State.modSvc_free (s : State) (f : Svc → Svc) : (s.modSvc f).free = s.free := rfl
@[simp] theorem State.modSvc_focus (s : State) (f : Svc → Svc) : (s.modSvc f).focus = s.focus := rfl
@[simp] theorem State.modSvc_mem (s : State) (f : Svc → Svc) : (s.modSvc f).mem = s.mem := rfl
@[simp] theorem State.modSvc_cores (s : State) (f : Svc → Svc) : (s.modSvc f).cores = s.cores := rfl
@[simp] theorem State.modSvc_pkg (s : State) (f : Svc → Svc) : (s.modSvc f).pkg = s.pkg := rfl
@[simp] theorem State.modSvc_svc (s : State) (f : Svc → Svc) : (s.modSvc f).svc = f s.svc := rfl

@[simp] theorem State.modFn_now (s : State) (k : Nat) (f : Fn → Fn) : (s.modFn k f).now = s.now := rfl
@[simp] theorem State.modFn_agenda (s : State) (k : Nat) (f : Fn → Fn) : (s.modFn k f).agenda = s.agenda := rfl
@[simp] theorem State.modFn_free (s : State) (k : Nat) (f : Fn → Fn) : (s.modFn k f).free = s.free := rfl
@[simp] theorem State.modFn_focus (s : State) (k : Nat) (f : Fn → Fn) : (s.modFn k f).focus = s.focus := rfl
@[simp] theorem State.modFn_mem (s : State) (k : Nat) (f : Fn → Fn) : (s.modFn k f).mem = s.mem := rfl
@[simp] theorem State.modFn_cores (s : State) (k : Nat) (f : Fn → Fn) : (s.modFn k f).cores = s.cores := rfl
@[simp] theorem State.modFn_svc (s : State) (k : Nat) (f : Fn → Fn) : (s.modFn k f).svc = s.svc := rfl

@[simp] theorem State.modPart_now (s : State) (k : Nat) (f : Part → Part) : (s.modPart k f).now = s.now := rfl
@[simp] theorem State.modPart_agenda (s : State) (k : Nat) (f : Part → Part) : (s.modPart k f).agenda = s.agenda := rfl
@[simp] theorem State.modPart_free (s : State) (k : Nat) (f : Part → Part) : (s.modPart k f).free = s.free := rfl
@[simp] theorem State.modPart_focus (s : State) (k : Nat) (f : Part → Part) : (s.modPart k f).focus = s.focus := rfl
@[simp] theorem State.modPart_mem (s : State) (k : Nat) (f : Part → Part) : (s.modPart k f).mem = s.mem := rfl
@[simp] theorem State.modPart_cores (s : State) (k : Nat) (f : Part → Part) : (s.modPart k f).cores = s.cores := rfl
@[simp] theorem State.modPart_svc (s : State) (k : Nat) (f : Part → Part) : (s.modPart k f).svc = s.svc := rfl

@[simp] theorem State.modCtx_now (s : State) (a : Nat) (f : Ctx → Ctx) : (s.modCtx a f).now = s.now := rfl
@[simp] theorem State.modCtx_agenda (s : State) (a : Nat) (f : Ctx → Ctx) : (s.modCtx a f).agenda = s.agenda := rfl
@[simp] theorem State.modCtx_free (s : State) (a : Nat) (f : Ctx → Ctx) : (s.modCtx a f).free = s.free := rfl
@[simp] theorem State.modCtx_focus (s : State) (a : Nat) (f : Ctx → Ctx) : (s.modCtx a f).focus = s.focus := rfl
@[simp] theorem State.modCtx_mem (s : State) (a : Nat) (f : Ctx → Ctx) : (s.modCtx a f).mem = s.mem := rfl
@[simp] theorem State.modCtx_cores (s : State) (a : Nat) (f : Ctx → Ctx) : (s.modCtx a f).cores = s.cores := rfl
@[simp] theorem State.modCtx_svc (s : State) (a : Nat) (f : Ctx → Ctx) : (s.modCtx a f).svc = s.svc := rfl

@[simp] theorem State.modLaunch_now (s : State) (l : Nat) (f : Launch → Launch) : (s.modLaunch l f).now = s.now := by unfold State.modLaunch; split <;> rfl
@[simp] theorem State.modLaunch_agenda (s : State) (l : Nat) (f : Launch → Launch) : (s.modLaunch l f).agenda = s.agenda := by unfold State.modLaunch; split <;> rfl
@[simp] theorem State.modLaunch_free (s : State) (l : Nat) (f : Launch → Launch) : (s.modLaunch l f).free = s.free := by unfold State.modLaunch; split <;> rfl
@[simp] theorem State.modLaunch_focus (s : State) (l : Nat) (f : Launch → Launch) : (s.modLaunch l f).focus = s.focus := by unfold State.modLaunch; split <;> rfl
@[simp] theorem State.modLaunch_mem (s : State) (l : Nat) (f : Launch → Launch) : (s.modLaunch l f).mem = s.mem := by unfold State.modLaunch; split <;> rfl
@[simp] theorem State.modLaunch_cores (s : State) (l : Nat) (f : Launch → Launch) : (s.modLaunch l f).cores = s.cores := by unfold State.modLaunch; split <;> rfl
@[simp] theorem State.modLaunch_svc (s : State) (l : Nat) (f : Launch → Launch) : (s.modLaunch l f).svc = s.svc := by unfold State.modLaunch; split <;> rfl

@[simp] theorem State.modTrans_now (s : State) (t : Nat) (f : Trans → Trans) : (s.modTrans t f).now = s.now := by unfold State.modTrans; split <;> rfl
@[simp] theorem State.modTrans_agenda (s : State) (t : Nat) (f : Trans → Trans) : (s.modTrans t f).agenda = s.agenda := by unfold State.modTrans; split <;> rfl
@[simp] theorem State.modTrans_free (s : State) (t : Nat) (f : Trans → Trans) : (s.modTrans t f).free = s.free := by unfold State.modTrans; split <;> rfl
@[simp] theorem State.modTrans_focus (s : State) (t : Nat) (f : Trans → Trans) : (s.modTrans t f).focus = s.focus := by unfold State.modTrans; split <;> rfl
@[simp] theorem State.modTrans_mem (s : State) (t : Nat) (f : Trans → Trans) : (s.modTrans t f).mem = s.mem := by unfold State.modTrans; split <;> rfl
@[simp] theorem State.modTrans_cores (s : State) (t : Nat) (f : Trans → Trans) : (s.modTrans t f).cores = s.cores := by unfold State.modTrans; split <;> rfl
@[simp] theorem State.modTrans_svc (s : State) (t : Nat) (f : Trans → Trans) : (s.modTrans t f).svc = s.svc := by unfold State.modTrans; split <;> rfl

@[simp] theorem State.modEng_now (s : State) (k : Nat) (f : EngCtx → EngCtx) : (s.modEng k f).now = s.now := rfl
@[simp] theorem State.modEng_agenda (s : State) (k : Nat) (f : EngCtx → EngCtx) : (s.modEng k f).agenda = s.agenda := rfl
@[simp] theorem State.modEng_free (s : State) (k : Nat) (f : EngCtx → EngCtx) : (s.modEng k f).free = s.free := rfl
@[simp] theorem State.modEng_focus (s : State) (k : Nat) (f : EngCtx → EngCtx) : (s.modEng k f).focus = s.focus := rfl
@[simp] theorem State.modEng_mem (s : State) (k : Nat) (f : EngCtx → EngCtx) : (s.modEng k f).mem = s.mem := rfl
@[simp] theorem State.modEng_cores (s : State) (k : Nat) (f : EngCtx → EngCtx) : (s.modEng k f).cores = s.cores := rfl
@[simp] theorem State.modEng_svc (s : State) (k : Nat) (f : EngCtx → EngCtx) : (s.modEng k f).svc = s.svc := rfl

@[simp] theorem State.putRaw_now (s : State) (a : Nat) (bs : List Byte) : (s.putRaw a bs).now = s.now := rfl
@[simp] theorem State.putRaw_agenda (s : State) (a : Nat) (bs : List Byte) : (s.putRaw a bs).agenda = s.agenda := rfl
@[simp] theorem State.putRaw_free (s : State) (a : Nat) (bs : List Byte) : (s.putRaw a bs).free = s.free := rfl
@[simp] theorem State.putRaw_focus (s : State) (a : Nat) (bs : List Byte) : (s.putRaw a bs).focus = s.focus := rfl
@[simp] theorem State.putRaw_mem (s : State) (a : Nat) (bs : List Byte) : (s.putRaw a bs).mem = SMap.setList 0 s.mem a bs := rfl
@[simp] theorem State.putRaw_cores (s : State) (a : Nat) (bs : List Byte) : (s.putRaw a bs).cores = s.cores := rfl
@[simp] theorem State.putRaw_pkg (s : State) (a : Nat) (bs : List Byte) : (s.putRaw a bs).pkg = s.pkg := rfl
@[simp] theorem State.putRaw_svc (s : State) (a : Nat) (bs : List Byte) : (s.putRaw a bs).svc = s.svc := rfl

/-! ## What stands in the package is as it was where the cores alone change -/

@[simp] theorem State.setCore_launch (s : State) (k : Nat) (c : Core) (n : Nat) : (s.setCore k c).launch n = s.launch n := rfl
@[simp] theorem State.setCore_ctx (s : State) (k : Nat) (c : Core) (n : Nat) : (s.setCore k c).ctx n = s.ctx n := rfl
@[simp] theorem State.setCore_fn (s : State) (k : Nat) (c : Core) (n : Nat) : (s.setCore k c).fn n = s.fn n := rfl
@[simp] theorem State.setCore_part (s : State) (k : Nat) (c : Core) (n : Nat) : (s.setCore k c).part n = s.part n := rfl
@[simp] theorem State.setCore_cycle (s : State) (k : Nat) (c : Core) : (s.setCore k c).cycle = s.cycle := rfl

@[simp] theorem State.modCore_launch (s : State) (k : Nat) (f : Core → Core) (n : Nat) : (s.modCore k f).launch n = s.launch n := rfl
@[simp] theorem State.modCore_ctx (s : State) (k : Nat) (f : Core → Core) (n : Nat) : (s.modCore k f).ctx n = s.ctx n := rfl
@[simp] theorem State.modCore_fn (s : State) (k : Nat) (f : Core → Core) (n : Nat) : (s.modCore k f).fn n = s.fn n := rfl
@[simp] theorem State.modCore_part (s : State) (k : Nat) (f : Core → Core) (n : Nat) : (s.modCore k f).part n = s.part n := rfl
@[simp] theorem State.modCore_cycle (s : State) (k : Nat) (f : Core → Core) : (s.modCore k f).cycle = s.cycle := rfl

@[simp] theorem State.setGroup_launch (s : State) (k : Nat) (g : Group) (n : Nat) : (s.setGroup k g).launch n = s.launch n := rfl
@[simp] theorem State.setGroup_ctx (s : State) (k : Nat) (g : Group) (n : Nat) : (s.setGroup k g).ctx n = s.ctx n := rfl
@[simp] theorem State.setGroup_fn (s : State) (k : Nat) (g : Group) (n : Nat) : (s.setGroup k g).fn n = s.fn n := rfl
@[simp] theorem State.setGroup_part (s : State) (k : Nat) (g : Group) (n : Nat) : (s.setGroup k g).part n = s.part n := rfl
@[simp] theorem State.setGroup_cycle (s : State) (k : Nat) (g : Group) : (s.setGroup k g).cycle = s.cycle := rfl

@[simp] theorem State.modGroup_launch (s : State) (k : Nat) (f : Group → Group) (n : Nat) : (s.modGroup k f).launch n = s.launch n := by unfold State.modGroup; split <;> rfl
@[simp] theorem State.modGroup_ctx (s : State) (k : Nat) (f : Group → Group) (n : Nat) : (s.modGroup k f).ctx n = s.ctx n := by unfold State.modGroup; split <;> rfl
@[simp] theorem State.modGroup_fn (s : State) (k : Nat) (f : Group → Group) (n : Nat) : (s.modGroup k f).fn n = s.fn n := by unfold State.modGroup; split <;> rfl
@[simp] theorem State.modGroup_part (s : State) (k : Nat) (f : Group → Group) (n : Nat) : (s.modGroup k f).part n = s.part n := by unfold State.modGroup; split <;> rfl
@[simp] theorem State.modGroup_cycle (s : State) (k : Nat) (f : Group → Group) : (s.modGroup k f).cycle = s.cycle := by unfold State.modGroup; split <;> rfl

@[simp] theorem State.modCrew_launch (s : State) (k : Nat) (f : Crew → Crew) (n : Nat) : (s.modCrew k f).launch n = s.launch n := State.modGroup_launch ..
@[simp] theorem State.modCrew_ctx (s : State) (k : Nat) (f : Crew → Crew) (n : Nat) : (s.modCrew k f).ctx n = s.ctx n := State.modGroup_ctx ..
@[simp] theorem State.modCrew_fn (s : State) (k : Nat) (f : Crew → Crew) (n : Nat) : (s.modCrew k f).fn n = s.fn n := State.modGroup_fn ..
@[simp] theorem State.modCrew_part (s : State) (k : Nat) (f : Crew → Crew) (n : Nat) : (s.modCrew k f).part n = s.part n := State.modGroup_part ..
@[simp] theorem State.modCrew_cycle (s : State) (k : Nat) (f : Crew → Crew) : (s.modCrew k f).cycle = s.cycle := State.modGroup_cycle ..

@[simp] theorem State.modRegion_launch (s : State) (k : Nat) (f : Region → Region) (n : Nat) : (s.modRegion k f).launch n = s.launch n := State.modGroup_launch ..
@[simp] theorem State.modRegion_ctx (s : State) (k : Nat) (f : Region → Region) (n : Nat) : (s.modRegion k f).ctx n = s.ctx n := State.modGroup_ctx ..
@[simp] theorem State.modRegion_fn (s : State) (k : Nat) (f : Region → Region) (n : Nat) : (s.modRegion k f).fn n = s.fn n := State.modGroup_fn ..
@[simp] theorem State.modRegion_part (s : State) (k : Nat) (f : Region → Region) (n : Nat) : (s.modRegion k f).part n = s.part n := State.modGroup_part ..
@[simp] theorem State.modRegion_cycle (s : State) (k : Nat) (f : Region → Region) : (s.modRegion k f).cycle = s.cycle := State.modGroup_cycle ..

@[simp] theorem State.modCtxCrew_launch (s : State) (k c : Nat) (f : Crew → Crew) (n : Nat) : (s.modCtxCrew k c f).launch n = s.launch n := State.modGroup_launch ..
@[simp] theorem State.modCtxCrew_ctx (s : State) (k c : Nat) (f : Crew → Crew) (n : Nat) : (s.modCtxCrew k c f).ctx n = s.ctx n := State.modGroup_ctx ..
@[simp] theorem State.modCtxCrew_fn (s : State) (k c : Nat) (f : Crew → Crew) (n : Nat) : (s.modCtxCrew k c f).fn n = s.fn n := State.modGroup_fn ..
@[simp] theorem State.modCtxCrew_part (s : State) (k c : Nat) (f : Crew → Crew) (n : Nat) : (s.modCtxCrew k c f).part n = s.part n := State.modGroup_part ..
@[simp] theorem State.modCtxCrew_cycle (s : State) (k c : Nat) (f : Crew → Crew) : (s.modCtxCrew k c f).cycle = s.cycle := State.modGroup_cycle ..

end Sys2Proof.Machine
end

