-- ==== Sys2Proof/Laws/Ops.lean ====
section
/-!
SUPPORT. Laws of the shared operations: what an update of a core, a group or a crew leaves to read, what register writes leave, and
once for all arithmetic operations, what they do.
-/
namespace Sys2Proof.Machine

/-! ## Cores, groups and crews -/

@[simp] theorem State.core_setCore_self (s : State) (k : Nat) (c : Core) : (s.setCore k c).core k = c := by
  simp [State.core, State.setCore]

theorem State.core_setCore_ne (s : State) {k j : Nat} (c : Core) (h : j ≠ k) : (s.setCore k c).core j = s.core j := by
  simp [State.core, State.setCore, SMap.get_set_ne _ _ _ h]

@[simp] theorem State.core_modCore_self (s : State) (k : Nat) (f : Core → Core) : (s.modCore k f).core k = f (s.core k) := by
  simp [State.modCore]

theorem State.core_modCore_ne (s : State) {k j : Nat} (f : Core → Core) (h : j ≠ k) : (s.modCore k f).core j = s.core j := by
  simp [State.modCore, State.core_setCore_ne _ _ h]

@[simp] theorem State.group_setGroup_self (s : State) (k : Nat) (g : Group) : (s.setGroup k g).group k = some g := by
  simp [State.group, State.setGroup]

theorem State.group_setGroup_ne (s : State) {k j : Nat} (g : Group) (h : j ≠ k) : (s.setGroup k g).group j = s.group j := by
  simp [State.group, State.setGroup, State.core_modCore_ne _ _ h]

theorem State.group_modGroup_self (s : State) (k : Nat) (f : Group → Group) : (s.modGroup k f).group k = (s.group k).map f := by
  unfold State.modGroup
  split
  · next g h => simp [h]
  · next h => simp [h]

theorem State.group_modGroup_ne (s : State) {k j : Nat} (f : Group → Group) (h : j ≠ k) : (s.modGroup k f).group j = s.group j := by
  unfold State.modGroup
  split
  · exact State.group_setGroup_ne _ _ h
  · rfl

/-- A running crew: the group that stands on the core and the crew that it runs. -/
theorem State.crew_eq_some {s : State} {k : Nat} {g : Group} {c : Crew} :
    s.crew k = some (g, c) ↔ s.group k = some g ∧ g.running = some c := by
  unfold State.crew
  constructor
  · intro h
    split at h
    · next g' hg =>
      rw [Option.map_eq_some_iff] at h
      obtain ⟨c', hc, he⟩ := h
      obtain ⟨rfl, rfl⟩ := Prod.mk.inj he
      exact ⟨hg, hc⟩
    · cases h
  · rintro ⟨h1, h2⟩
    simp [h1, h2]

theorem State.crew_setGroup_self (s : State) (k : Nat) (g : Group) : (s.setGroup k g).crew k = g.running.map fun c => (g, c) := by
  simp [State.crew]

theorem State.crew_modCrew {s : State} {k : Nat} {g : Group} {c : Crew} (f : Crew → Crew) (h : s.crew k = some (g, c)) :
    (s.modCrew k f).crew k = some ({ g with running := some (f c) }, f c) := by
  obtain ⟨h1, h2⟩ := State.crew_eq_some.mp h
  apply State.crew_eq_some.mpr
  simp [State.modCrew, State.group_modGroup_self, h1, h2]

theorem State.crew_modRegion {s : State} {k : Nat} {g : Group} {c : Crew} (f : Region → Region) (h : s.crew k = some (g, c)) :
    (s.modRegion k f).crew k = some ({ g with running := some { c with region := f c.region } }, { c with region := f c.region }) :=
  State.crew_modCrew _ h

theorem State.crew_modCrew_ne (s : State) {k j : Nat} (f : Crew → Crew) (h : j ≠ k) : (s.modCrew k f).crew j = s.crew j := by
  simp [State.crew, State.modCrew, State.group_modGroup_ne _ _ h]

/-! ## What updates of cores leave alone -/


/-- Two states that differ at most in core `k`, and there only in the group. -/
def OnlyGroup (k : Nat) (s t : State) : Prop :=
  t.now = s.now ∧ t.agenda = s.agenda ∧ t.free = s.free ∧ t.focus = s.focus ∧ t.mem = s.mem ∧ t.pkg = s.pkg ∧ t.svc = s.svc ∧
  (∀ j, j ≠ k → t.core j = s.core j) ∧ ∃ g, t.core k = { s.core k with group := g }

theorem OnlyGroup.refl (k : Nat) (s : State) : OnlyGroup k s s :=
  ⟨rfl, rfl, rfl, rfl, rfl, rfl, rfl, fun _ _ => rfl, (s.core k).group, rfl⟩

theorem OnlyGroup.trans {k : Nat} {s t u : State} (h : OnlyGroup k s t) (h' : OnlyGroup k t u) : OnlyGroup k s u := by
  obtain ⟨a1, a2, a3, a4, a5, a6, a7, a8, g, a9⟩ := h
  obtain ⟨b1, b2, b3, b4, b5, b6, b7, b8, g', b9⟩ := h'
  exact ⟨b1.trans a1, b2.trans a2, b3.trans a3, b4.trans a4, b5.trans a5, b6.trans a6, b7.trans a7, fun j hj => (b8 j hj).trans (a8 j hj),
    g', by rw [b9, a9]⟩

theorem OnlyGroup.setGroup (k : Nat) (g : Group) (s : State) : OnlyGroup k s (s.setGroup k g) :=
  ⟨rfl, rfl, rfl, rfl, rfl, rfl, rfl, fun _ hj => State.core_modCore_ne _ _ hj, some g, State.core_modCore_self ..⟩

theorem OnlyGroup.modGroup (k : Nat) (f : Group → Group) (s : State) : OnlyGroup k s (s.modGroup k f) := by
  unfold State.modGroup
  split
  · exact OnlyGroup.setGroup ..
  · exact OnlyGroup.refl ..

theorem OnlyGroup.modCrew (k : Nat) (f : Crew → Crew) (s : State) : OnlyGroup k s (s.modCrew k f) := OnlyGroup.modGroup ..

theorem OnlyGroup.modRegion (k : Nat) (f : Region → Region) (s : State) : OnlyGroup k s (s.modRegion k f) := OnlyGroup.modGroup ..

theorem OnlyGroup.raiseFlags (k : Nat) (fl : BitVec 5) (s : State) : OnlyGroup k s (raiseFlags k fl s) := OnlyGroup.modGroup ..

theorem OnlyGroup.putLater (k a d : Nat) (ws : List RegWr) (s : State) : OnlyGroup k s (putLater k a d ws s) := OnlyGroup.modGroup ..

theorem OnlyGroup.advance (k n : Nat) (s : State) : OnlyGroup k s (advance k n s) := OnlyGroup.modGroup ..

theorem OnlyGroup.latch (k : Nat) (f : FaultRec) (s : State) : OnlyGroup k s (latch k f s) := OnlyGroup.modGroup ..

theorem OnlyGroup.latchLanes (k : Nat) (kd : Trap) (ls : List (Nat × Nat)) (a : Acc) (s : State) : OnlyGroup k s (latchLanes k kd ls a s) := by
  unfold Machine.latchLanes
  split
  · exact OnlyGroup.refl ..
  · exact OnlyGroup.latch ..

theorem OnlyGroup.putBur (k : Nat) (ws : List RegWr) (s : State) : OnlyGroup k s (putBur k ws s) := by
  unfold Machine.putBur
  split
  · exact OnlyGroup.refl ..
  · exact OnlyGroup.setGroup ..

end Sys2Proof.Machine
end

