-- ==== Sys2Proof/Laws/Registers.lean ====
section
/-!
SUPPORT. Laws of register writes: keys are told apart, what a run of writes leaves in each register of a group, and what the writes of
one operation leave in the running crew.
-/
namespace Sys2Proof.Machine

theorem xKey_inj {s s' l l' n n' : Nat} (hl : l < 64) (hl' : l' < 64) (hn : n < 2097152) (hn' : n' < 2097152)
    (h : xKey s l n = xKey s' l' n') : s = s' ∧ l = l' ∧ n = n' := by
  unfold xKey at h; omega

/-- The keys of one register in two strands. -/
theorem xKey_inj_reg {s s' l l' n : Nat} (hl : l < 64) (hl' : l' < 64) (h : xKey s l n = xKey s' l' n) : s = s' ∧ l = l' := by
  unfold xKey at h; omega

theorem vKey_inj {s s' l l' n n' : Nat} (hl : l < 64) (hl' : l' < 64) (hn : n < 64) (hn' : n' < 64)
    (h : vKey s n l = vKey s' n' l') : s = s' ∧ n = n' ∧ l = l' := by
  unfold vKey at h; omega

/-! ## One write -/

/-- The write of a lane's result. -/
abbrev laneWrite (cls : RegCls) (reg : Nat) (r : LaneRes) : RegWr :=
  { cls := cls, reg := reg, slot := r.1.2, lane := r.1.1, val := BitVec.ofNat 64 r.2.1 }

theorem laneWrites_eq (cls : RegCls) (reg : Nat) (rs : List LaneRes) : laneWrites cls reg rs = rs.map (laneWrite cls reg) := rfl

/-- Writes one after another. -/
def Group.putAll (ctx : Nat) (ws : List RegWr) (g : Group) : Group :=
  ws.foldl (fun g w => g.put ctx w.cls w.reg w.slot w.lane w.val) g

@[simp] theorem Group.putAll_nil (ctx : Nat) (g : Group) : Group.putAll ctx [] g = g := rfl
@[simp] theorem Group.putAll_cons (ctx : Nat) (w : RegWr) (ws : List RegWr) (g : Group) :
    Group.putAll ctx (w :: ws) g = Group.putAll ctx ws (g.put ctx w.cls w.reg w.slot w.lane w.val) := rfl

/-! ## Burhus value registers -/

theorem Group.getX_put_x (g : Group) (ctx r s l : Nat) (v : W64) (s' l' n : Nat) :
    (g.put ctx .x r s l v).getX s' l' n = if xKey s' l' n = xKey s l r then v else g.getX s' l' n := by
  simp only [Group.put, Group.getX, SMap.get_set]

theorem Group.getC_put_c (g : Group) (ctx r s l : Nat) (v : W64) (s' l' n : Nat) :
    (g.put ctx .c r s l v).getC s' l' n = if xKey s' l' n = xKey s l r then v.getLsbD 0 else g.getC s' l' n := by
  simp only [Group.put, Group.getC, SMap.get_set]

/-- Every strand written holds its result, if no two results of one strand differ. -/
theorem Group.getX_putAll {ctx reg : Nat} {rs : List LaneRes} (hl : ∀ r ∈ rs, r.1.1 < 64)
    (hf : ∀ r ∈ rs, ∀ r' ∈ rs, r.1 = r'.1 → r.2 = r'.2) (g : Group) (r : LaneRes) (h : r ∈ rs) :
    (Group.putAll ctx (laneWrites .x reg rs) g).getX r.1.2 r.1.1 reg = BitVec.ofNat 64 r.2.1 := by
  induction rs generalizing g r with
  | nil => cases h
  | cons q rs ih =>
    simp only [laneWrites_eq, List.map_cons, Group.putAll_cons] at ih ⊢
    by_cases hq : ∃ r' ∈ rs, r'.1 = r.1
    · obtain ⟨r', hr', he⟩ := hq
      have := ih (fun r hr => hl r (List.mem_cons_of_mem _ hr)) (fun a ha b hb => hf a (List.mem_cons_of_mem _ ha) b (List.mem_cons_of_mem _ hb))
        (g.put ctx .x reg q.1.2 q.1.1 (BitVec.ofNat 64 q.2.1)) r' hr'
      rw [he] at this
      rw [this, hf r' (List.mem_cons_of_mem _ hr') r h he]
    · have hrq : r = q := by
        rcases List.mem_cons.mp h with e | e
        · exact e
        · exact absurd ⟨r, e, rfl⟩ hq
      subst hrq
      have key : ∀ (ts : List LaneRes) (g : Group), (∀ t ∈ ts, t ∈ rs) →
          (Group.putAll ctx (ts.map (laneWrite .x reg)) g).getX r.1.2 r.1.1 reg = g.getX r.1.2 r.1.1 reg := by
        intro ts
        induction ts with
        | nil => intro g _; rfl
        | cons t ts iht =>
          intro g hts
          simp only [List.map_cons, Group.putAll_cons]
          rw [iht _ (fun x hx => hts x (List.mem_cons_of_mem _ hx)), Group.getX_put_x, if_neg]
          intro e
          have ht := hts t List.mem_cons_self
          have := xKey_inj_reg (hl r List.mem_cons_self) (hl t (List.mem_cons_of_mem _ ht)) e
          exact hq ⟨t, ht, Prod.ext this.2.symm this.1.symm⟩
      rw [key rs _ (fun _ h => h), Group.getX_put_x, if_pos rfl]

theorem Group.getC_putAll {ctx reg : Nat} {rs : List LaneRes} (hl : ∀ r ∈ rs, r.1.1 < 64)
    (hf : ∀ r ∈ rs, ∀ r' ∈ rs, r.1 = r'.1 → r.2 = r'.2) (g : Group) (r : LaneRes) (h : r ∈ rs) :
    (Group.putAll ctx (laneWrites .c reg rs) g).getC r.1.2 r.1.1 reg = r.2.1.testBit 0 := by
  induction rs generalizing g r with
  | nil => cases h
  | cons q rs ih =>
    simp only [laneWrites_eq, List.map_cons, Group.putAll_cons] at ih ⊢
    by_cases hq : ∃ r' ∈ rs, r'.1 = r.1
    · obtain ⟨r', hr', he⟩ := hq
      have := ih (fun r hr => hl r (List.mem_cons_of_mem _ hr)) (fun a ha b hb => hf a (List.mem_cons_of_mem _ ha) b (List.mem_cons_of_mem _ hb))
        (g.put ctx .c reg q.1.2 q.1.1 (BitVec.ofNat 64 q.2.1)) r' hr'
      rw [he] at this
      rw [this, hf r' (List.mem_cons_of_mem _ hr') r h he]
    · have hrq : r = q := by
        rcases List.mem_cons.mp h with e | e
        · exact e
        · exact absurd ⟨r, e, rfl⟩ hq
      subst hrq
      have key : ∀ (ts : List LaneRes) (g : Group), (∀ t ∈ ts, t ∈ rs) →
          (Group.putAll ctx (ts.map (laneWrite .c reg)) g).getC r.1.2 r.1.1 reg = g.getC r.1.2 r.1.1 reg := by
        intro ts
        induction ts with
        | nil => intro g _; rfl
        | cons t ts iht =>
          intro g hts
          simp only [List.map_cons, Group.putAll_cons]
          rw [iht _ (fun x hx => hts x (List.mem_cons_of_mem _ hx)), Group.getC_put_c, if_neg]
          intro e
          have ht := hts t List.mem_cons_self
          have := xKey_inj_reg (hl r List.mem_cons_self) (hl t (List.mem_cons_of_mem _ ht)) e
          exact hq ⟨t, ht, Prod.ext this.2.symm this.1.symm⟩
      rw [key rs _ (fun _ h => h), Group.getC_put_c, if_pos rfl]
      exact BitVec.getLsbD_ofNat .. |>.trans (by simp)

/-! ## The frame of a run of Burhus writes -/

/-- What writes of Burhus registers `x` leave of a group: nothing but `x` changes, and of `x` nothing but register `reg` of the strands
written. -/
theorem Group.putAll_x_frame (ctx reg : Nat) (rs : List LaneRes) (g : Group) :
    ∃ m, Group.putAll ctx (laneWrites .x reg rs) g = { g with x := m } ∧
      ∀ k, (∀ r ∈ rs, k ≠ xKey r.1.2 r.1.1 reg) → SMap.get 0 m k = SMap.get 0 g.x k := by
  induction rs generalizing g with
  | nil => exact ⟨g.x, rfl, fun _ _ => rfl⟩
  | cons r rs ih =>
    obtain ⟨m, hm, hk⟩ := ih (g.put ctx .x reg r.1.2 r.1.1 (BitVec.ofNat 64 r.2.1))
    refine ⟨m, hm, fun k h => ?_⟩
    rw [hk k (fun q hq => h q (List.mem_cons_of_mem _ hq))]
    exact SMap.get_set_ne _ _ _ (h r List.mem_cons_self)

theorem Group.putAll_c_frame (ctx reg : Nat) (rs : List LaneRes) (g : Group) :
    ∃ m, Group.putAll ctx (laneWrites .c reg rs) g = { g with c := m } ∧
      ∀ k, (∀ r ∈ rs, k ≠ xKey r.1.2 r.1.1 reg) → SMap.get false m k = SMap.get false g.c k := by
  induction rs generalizing g with
  | nil => exact ⟨g.c, rfl, fun _ _ => rfl⟩
  | cons r rs ih =>
    obtain ⟨m, hm, hk⟩ := ih (g.put ctx .c reg r.1.2 r.1.1 (BitVec.ofNat 64 r.2.1))
    refine ⟨m, hm, fun k h => ?_⟩
    rw [hk k (fun q hq => h q (List.mem_cons_of_mem _ hq))]
    exact SMap.get_set_ne _ _ _ (h r List.mem_cons_self)

theorem putBur_eq {s : State} {k : Nat} {g : Group} {c : Crew} (h : s.crew k = some (g, c)) (ws : List RegWr) :
    putBur k ws s = s.setGroup k { Group.putAll c.ctx ws g with
      running := some { c with region := { c.region with
        undo := (ws.flatMap fun w => undoOf g w.cls w.reg w.slot w.lane).reverse ++ c.region.undo } } } := by
  unfold putBur
  rw [h]
  rfl

/-- The running crew after results have been put in flight. -/
theorem crew_putLater {s : State} {k : Nat} {g : Group} {c : Crew} (h : s.crew k = some (g, c)) (a d : Nat) (ws : List RegWr) :
    ∃ g', (putLater k a d ws s).crew k = some (g', { c with
      inflight := c.inflight ++ ws.map fun w => { at_ := a, deadline := d, cls := w.cls, reg := w.reg, slot := w.slot, lane := w.lane, val := w.val } }) ∧
      g' = { g with running := g'.running } :=
  ⟨_, State.crew_modCrew _ h, rfl⟩

theorem crew_raiseFlags {s : State} {k : Nat} {g : Group} {c : Crew} (h : s.crew k = some (g, c)) (fl : BitVec 5) :
    (raiseFlags k fl s).crew k = some ({ g with running := some { c with region := c.region.raise fl } }, { c with region := c.region.raise fl }) :=
  State.crew_modCrew _ h

theorem orFlags_eq (rs : List LaneRes) (a : BitVec 5) : rs.foldl (fun a r => a ||| r.2.2) a = a ||| orFlags rs := by
  unfold orFlags
  induction rs generalizing a with
  | nil => simp
  | cons r rs ih => simp only [List.foldl_cons]; rw [ih, ih (0 ||| r.2.2)]; simp [BitVec.or_assoc]

/-! ## Arithmetic operations, once for all -/

/-- A Burhus arithmetic operation's end: the results in the destination, the flags raised, the crew past the instruction, the rest of the
group as it was but for what a rollback restores, and the rest of the machine as it was. -/
theorem burFinish_spec {s : State} {g : Group} {c : Crew} (h : s.crew s.focus = some (g, c)) (op : Nat) (cls : RegCls) (b : BIns) (rs : List LaneRes) :
    ∃ g' u, (burFinish op cls b rs s).crew s.focus = some (g', u) ∧ OnlyGroup s.focus s (burFinish op cls b rs s) ∧
      g' = { Group.putAll c.ctx (laneWrites cls b.d rs) g with running := some u } ∧
      (∀ l n k, g'.getX l n k = (Group.putAll c.ctx (laneWrites cls b.d rs) g).getX l n k) ∧
      (∀ l n k, g'.getC l n k = (Group.putAll c.ctx (laneWrites cls b.d rs) g).getC l n k) ∧
      u = { c with
        pc := c.pc + (encodeBIns op b).length, skip := []
        region := { c.region with
          undo := ((laneWrites cls b.d rs).flatMap fun w => undoOf g w.cls w.reg w.slot w.lane).reverse ++ c.region.undo
          raised := c.region.raised ||| orFlags rs, fpfWrite := c.region.fpfWrite.map (· ||| orFlags rs) } } := by
  have h1 := putBur_eq h (laneWrites cls b.d rs)
  have h2 := (congrArg (fun t => State.crew t s.focus) h1).trans (State.crew_setGroup_self ..)
  have h3 := crew_raiseFlags h2 (orFlags rs)
  have h4 := State.crew_modCrew (fun c => { c with pc := c.pc + lenB op b, skip := [] }) h3
  refine ⟨_, _, h4, ?_, rfl, fun _ _ _ => rfl, fun _ _ _ => rfl, rfl⟩
  exact ((OnlyGroup.putBur ..).trans (OnlyGroup.raiseFlags ..)).trans (OnlyGroup.advance ..)

/-- A V slot's end: its results in flight and its flags raised, and nothing else. -/
theorem vFinish_spec {s : State} {g : Group} {c : Crew} (h : s.crew s.focus = some (g, c)) (op : Nat) (cls : RegCls) (d : VSlot) (rs : List LaneRes) :
    ∃ u, (vFinish op cls d rs s).crew s.focus = some ({ g with running := some u }, u) ∧ OnlyGroup s.focus s (vFinish op cls d rs s) ∧
      u = { c with
        inflight := c.inflight ++ (laneWrites cls d.vd.toNat rs).map fun w =>
          { at_ := s.cycle + leastV op, deadline := s.cycle + d.lat.toNat + 1, cls := w.cls, reg := w.reg, slot := w.slot, lane := w.lane, val := w.val }
        region := c.region.raise (orFlags rs) } := by
  have h2 := State.crew_modCrew (fun c => { c with inflight := c.inflight ++ (laneWrites cls d.vd.toNat rs).map fun w =>
          { at_ := s.cycle + leastV op, deadline := s.cycle + d.lat.toNat + 1, cls := w.cls, reg := w.reg, slot := w.slot, lane := w.lane, val := w.val } }) h
  have h3 := crew_raiseFlags h2 (orFlags rs)
  exact ⟨_, h3, (OnlyGroup.putLater ..).trans (OnlyGroup.raiseFlags ..), rfl⟩

/-- An arithmetic operation of Burhus code: its end over the executing strands' results. -/
theorem aluExec_bur {s : State} {g : Group} {c : Crew} (h : s.crew s.focus = some (g, c)) (op : Nat) (cond : Bool) (ev : Eval) (b : BIns) :
    aluExec op cond ev (.bur b) s = burFinish op (if cond then .c else .x) b
      ((burLanes g c b.guard).map fun l => (l, ev (ctlOf op (.bur b)) (burSrcs op g b l.2 l.1))) s := by
  simp only [aluExec, h]

/-- A V slot: its end over the executing lanes' results. -/
theorem aluExec_v {s : State} {g : Group} {c : Crew} (h : s.crew s.focus = some (g, c)) (op : Nat) (cond : Bool) (ev : Eval) (d : VSlot) :
    aluExec op cond ev (.v d) s = vFinish op (if cond then .p else .v) d
      ((vecLanes g c d.gp.toNat d.ge d.gn).map fun l => (l, ev (ctlOf op (.v d)) (vSrcs g c d l.2 l.1))) s := by
  simp only [aluExec, h]

/-- The landing of an S slot's result. -/
abbrev scalarLanding (op : Nat) (cond : Bool) (s : State) (d : SSlot) (v : Nat) : Landing :=
  { at_ := s.cycle + leastS op
    deadline := s.cycle + d.lat.toNat + 1
    cls := if cond then .q else .s
    reg := d.sd.toNat
    slot := 0
    lane := 0
    val := BitVec.ofNat 64 v }

/-- An S slot: one result in flight if its guard holds, else nothing. -/
theorem aluExec_s {s : State} {g : Group} {c : Crew} (h : s.crew s.focus = some (g, c)) (op : Nat) (cond : Bool) (ev : Eval) (d : SSlot) :
    ∃ u, (aluExec op cond ev (.s d) s).crew s.focus = some ({ g with running := some u }, u) ∧
      OnlyGroup s.focus s (aluExec op cond ev (.s d) s) ∧
      u = if qGuard g c d.gq.toNat d.ge d.gn then
        { c with
          inflight := c.inflight ++ [scalarLanding op cond s d (ev (ctlOf op (.s d)) (sSrcs g c d)).1]
          region := c.region.raise (ev (ctlOf op (.s d)) (sSrcs g c d)).2 }
      else c := by
  obtain ⟨_, hr⟩ := State.crew_eq_some.mp h
  by_cases hq : qGuard g c d.gq.toNat d.ge d.gn
  · have e : aluExec op cond ev (.s d) s = raiseFlags s.focus (ev (ctlOf op (.s d)) (sSrcs g c d)).2
        (putLater s.focus (s.cycle + leastS op) (s.cycle + d.lat.toNat + 1)
          [{ cls := if cond then .q else .s, reg := d.sd.toNat, slot := 0, lane := 0, val := BitVec.ofNat 64 (ev (ctlOf op (.s d)) (sSrcs g c d)).1 }] s) := by
      simp only [aluExec, h, hq, if_true]
    rw [e]
    have h2 : (putLater s.focus (s.cycle + leastS op) (s.cycle + d.lat.toNat + 1)
        [{ cls := if cond then .q else .s, reg := d.sd.toNat, slot := 0, lane := 0, val := BitVec.ofNat 64 (ev (ctlOf op (.s d)) (sSrcs g c d)).1 }] s).crew
          s.focus = _ := State.crew_modCrew _ h
    have h3 := crew_raiseFlags h2 (ev (ctlOf op (.s d)) (sSrcs g c d)).2
    refine ⟨_, h3, (OnlyGroup.putLater ..).trans (OnlyGroup.raiseFlags ..), ?_⟩
    rw [if_pos hq]
    rfl
  · have e : aluExec op cond ev (.s d) s = s := by simp only [aluExec, h, hq, if_false, Bool.false_eq_true]
    rw [e]
    refine ⟨c, ?_, OnlyGroup.refl .., by rw [if_neg hq]⟩
    rw [h, ← hr]

/-- Lanes that execute lie below 64. -/
theorem burLanes_lt {g : Group} {c : Crew} {gd : Option Nat} {l : Nat × Nat} (h : l ∈ burLanes g c gd) : l.1 < 64 := by
  simp only [burLanes, List.mem_filter, Bool.and_eq_true, decide_eq_true_eq] at h
  exact h.2.1.1

theorem vecLanes_lt {g : Group} {c : Crew} {gp : Nat} {ge gn : Bool} {l : Nat × Nat} (h : l ∈ vecLanes g c gp ge gn) : l.1 < 64 := by
  simp only [vecLanes, List.mem_filter, Bool.and_eq_true, decide_eq_true_eq] at h
  exact h.2.1

end Sys2Proof.Machine
end

