-- ==== Sys2Proof/Tests/Slice0.lean ====
section
/-!
SUPPORT. Tests of the model against results from the spec's tables and worked examples or reckoned by hand from its rules, and for every
statement of the certificate a state and operands that meet its hypotheses.
-/
open Sys2Proof Sys2Proof.Machine Sys2Proof.Claims

set_option Elab.async false

namespace Sys2Proof.Tests

/-! ## Ill-formed terms, one for each check of WellFormed -/

theorem test_wf_operand_number : wellFormed (.iadd (.bur { d := 2097152 })) = false := by decide
theorem test_wf_operand_a : wellFormed (.mov (.bur { a := 2097152 })) = false := by decide
theorem test_wf_operand_b : wellFormed (.iadd (.bur { b := 2097152 })) = false := by decide
theorem test_wf_operand_c : wellFormed (.imad (.bur { c := 2097152 })) = false := by decide
theorem test_wf_operands_e_f : wellFormed (.cpy2 (.bur { e := 2097152 })) = false ∧ wellFormed (.gath (.bur { m1 := 0x80, f := 2097152 })) = false := by decide
theorem test_wf_segment : wellFormed (.next { n1 := 16777215 }) = false := by decide
theorem test_wf_second_segment : wellFormed (.nextC { n2 := 16777215 }) = false := by decide
theorem test_wf_displacement : wellFormed (.ld (.bur { i := 2147483648 })) = false := by decide
theorem test_wf_immediate : wellFormed (.iadd (.bur { immPage := true, i := 4294967296 })) = false := by decide
theorem test_wf_float_immediate : wellFormed (.movi (.bur { m1 := 4, i := -1 })) = false ∧ wellFormed (.movi (.bur { m1 := 5, i := 65536 })) = false := by decide
theorem test_wf_code_byte : wellFormed (.trap (.bur { n1 := 256 })) = false := by decide
theorem test_wf_counted_bytes : wellFormed (.push (.bur { n1 := 12 })) = false ∧ wellFormed (.bfx (.bur { n1 := 64, n2 := 1 })) = false := by decide
theorem test_wf_csr_number : wellFormed (.csrr (.bur { n1 := 65536 })) = false ∧ wellFormed (.csrr (.bur { n1 := 2 })) = false := by decide
theorem test_wf_unlisted_operand : wellFormed (.mov (.bur { c := 1 })) = false ∧ wellFormed (.exit { n1 := 1 }) = false := by decide
theorem test_wf_immediate_page : wellFormed (.mov (.bur { immPage := true })) = false := by decide
theorem test_wf_control_bytes : wellFormed (.exit { m1 := 1 }) = false ∧ wellFormed (.iadd (.bur { m2 := 1 })) = false := by decide
theorem test_wf_guard : wellFormed (.iadd (.bur { guard := some 4194304 })) = false ∧ wellFormed (.exit { guard := some 0 }) = false := by decide
theorem test_wf_type : wellFormed (.iadd (.bur { m1 := 4 })) = false := by decide
theorem test_wf_opcode_of_constructor : wellFormed (.csrwBkm (.bur { n1 := 8 })) = false := by decide
theorem test_wf_s_slot : wellFormed (.frcp (.s { ty := 4 })) = false ∧ wellFormed (.iadd (.s { gq := 1 })) = false ∧
    wellFormed (.iadd (.s { imx := 1, sd := 1 })) = false ∧ wellFormed (.iadd (.s {})) = false := by decide
theorem test_wf_v_slot : wellFormed (.lea (.v {})) = false ∧ wellFormed (.iadd (.v { ty := 2, vd := 1 })) = false ∧ wellFormed (.iadd (.v { vd := 1, imx := 1 })) = false ∧
    wellFormed (.iadd (.v { vd := 1, bcs := 1 })) = false ∧ wellFormed (.iadd (.v {})) = false := by decide
theorem test_wf_l_slot : wellFormed (.ldc (.l { ty := 2, dv := true })) = false ∧ wellFormed (.st (.l { imx := 1 })) = false := by decide
theorem test_wf_m_slot : wellFormed (.mxr { nstep := 1 }) = false ∧ wellFormed (.mxz { fw := 1 }) = false := by decide
theorem test_wf_b_slot : wellFormed (.lpset {}) = false ∧ wellFormed (.brt { imx := 1 }) = false ∧ wellFormed (.cmt { opnd := 0x80000 }) = false ∧
    wellFormed (.cmtSwap { opnd := 0 }) = false := by decide
theorem test_wf_command : wellFormed (.claim {} (List.replicate 4095 0)) = false := by decide +kernel
theorem test_wf_event : wellFormed (.bundleIssue 512) = false ∧ wellFormed (.fifoPublication 0 12) = false ∧ wellFormed (.homeBankMerge 2048) = false ∧
    wellFormed (.gondolaFill 4 0 0) = false ∧ wellFormed (.engineStart 0 2) = false ∧ wellFormed (.frameOrigin 4) = false := by decide

/-! ## Bytes and words of the spec -/

/-- 02 Table 2.15. -/
theorem test_decode_movi : Reads [0x1A, 0x00, 0x82, 0x01, 0x00] (.movi (.bur { d := 130 })) := by decide
theorem test_decode_guarded_ffma : Reads [0xEF, 0x04, 0x23, 0x04, 0x07, 0x03, 0x04, 0x07] (.ffma (.bur { guard := some 4, m1 := 4, d := 7, a := 3, b := 4, c := 7 })) := by
  decide
theorem test_decode_icmp_page : Reads [0xF0, 0x18, 0x20, 0x05, 0x82, 0x01, 0x04] (.icmp (.bur { immPage := true, m1 := 0x20, d := 5, a := 130, i := 4 })) := by decide
theorem test_decode_next_c : Reads [0xC1, 0x05, 0x01, 0x02] (.nextC { c := 5, n1 := 1, n2 := 2 }) := by decide
/-- 02 R26: an opcode byte that Table 2.6 leaves free. -/
theorem test_decode_unassigned : decodeBurhus 0 30 [0xFF] = .error .illOpcode := by decide
/-- 02 R20: a register number above 2,097,151. -/
theorem test_decode_large_register : (decodeBurhus 0 30 (octets [0x1B, 0x00, 0x01, 0x80, 0x80, 0x80, 0x01])).toOption = none := by decide
/-- 09: the worked conversion, in Burhus bytes and in the V slot. -/
theorem test_decode_cvt : Reads [0x38, 0x8B, 0x04, 0x0C, 0x09] (.cvt (.bur { m1 := 0x8B, m2 := 4, d := 12, a := 9 })) := by decide
theorem test_decode_cvt_slot : decV 0 0x38305940C2400000 0 0 = .ok (some (.cvt (.v { lat := 3, ty := 11, sat := true, sub := 4, vd := 12, va := 9 }))) := by decide
theorem test_decode_atom : Reads [0x59, 0x00, 0x03, 0x05, 0x06, 0x07, 0x00] (.atom (.bur { m2 := 3, d := 5, a := 6, b := 7 })) := by decide
theorem test_decode_bind : Reads [0x63, 0x14, 0x15, 0x16] (.bind (.bur { a := 20, b := 21, c := 22 })) := by decide
theorem test_decode_ld : Reads [0x50, 0x04, 0x09, 0x14, 0xC0, 0x00] (.ld (.bur { m1 := 4, d := 9, a := 20, i := 64 })) := by decide
theorem test_decode_icmp_slot : decS 0 0x180000A11800 4 = .ok (some (.icmp (.s { sub := 2, im := true, sd := 1, sa := 3, imx := 4 }))) := by decide
theorem test_decode_push_slot : decL 0 0x570007004600000B 0 = .ok (some (.push (.l { ty := 7, dv := true, d := 6, disp := 11 }))) := by decide
theorem test_decode_mx : decM 0x8814407D00000000 = .ok (some (.mx { fw := 5, ab := 1, nstep := 31, asrc := 1 })) := by decide
theorem test_decode_brt : decB 0x02640000 0 = .ok (some (.brt { gq := 1, ge := true, opnd := 0x40000 })) := by decide
theorem test_decode_xs : decX 0xC4288000 false = .ok [.xs true 2 5 4] := by decide
theorem test_decode_post : decY 0x8C010003 = .ok (some (.postCore 6 2 3)) := by decide
/-- 20 Table 20.1 and 20.2: KEEP, tag 7, no operand. -/
theorem test_decode_keep : decodeMsg {} (octets [2, 0, 7, 0, 0, 0, 0, 0, 0, 0, 0, 0, 0, 0, 0, 0]) = some (2, { tag := 7 }, some []) := by decide
/-- A bundle of zeros but for FMT is a bundle of NOPs (03 R44, R45). -/
theorem test_decode_nops : decodeBundle 0 4 = .ok {} ∧ decodeBundle 0 5 = .error .malformed := by decide +kernel

/-! ## Small states -/

/-- A group whose crew `c` runs, on core 0, in context 0 of function 0. -/
def st (g : Group) (c : Crew) (core : Core := {}) (la : Launch := { asid := 0, q := 0, lidx := 0, spg := 2, started := true, placed := [(0, [0])] }) (p : Pkg := {}) : State :=
  { cores := [(0, { core with group := some { g with running := some c } })]
    pkg := { p with ctxs := [(0, { word := 1, live := true })], launches := [(0, la)] } }

/-- The first group of the first launch. -/
def g0 : Group := { launch := 0, cluster := 0, gnum := 0, live := [0, 1] }

/-- A crew of one strand, and one of two. -/
def c1 : Crew := { strands := [(0, 0)] }
def c2 : Crew := { strands := [(0, 0), (1, 0)] }

/-- Registers of lane 0 from a list. -/
def xs0 (l : List (Nat × W64)) : SMap W64 := l.foldl (fun m e => SMap.set 0 m (xKey 0 0 e.1) e.2) []

/-- What an operation leaves. -/
def out (i : Instr) (s : State) : State := nextOf (exec i s) s

/-- x(n) and c(n) of a lane of slot 0 on core 0, and the crew there. -/
def xr (s : State) (lane n : Nat) : Nat := match s.group 0 with | some g => (g.getX 0 lane n).toNat | none => 0
def cr (s : State) (lane n : Nat) : Bool := match s.group 0 with | some g => g.getC 0 lane n | none => false
def crewOf (s : State) : Crew := match s.crew 0 with | some (_, c) => c | none => {}
def groupOf (s : State) : Group := match s.group 0 with | some g => g | none => g0

/-- x1, and the flags raised, after a Burhus operation whose sources x2, x3 and x4 hold `l`. -/
def val (i : Instr) (l : List (Nat × W64)) : Nat := xr (out i (st { g0 with x := xs0 l } c1)) 0 1
def flg (i : Instr) (l : List (Nat × W64)) : BitVec 5 := (crewOf (out i (st { g0 with x := xs0 l } c1))).region.raised
def cnd (i : Instr) (l : List (Nat × W64)) : Bool := cr (out i (st { g0 with x := xs0 l } c1)) 0 1

/-- A Burhus form d = x1 or c1, a = x2, b = x3, c = x4 with control bytes. -/
def f3 (m1 : BitVec 8) (m2 : BitVec 8 := 0) : Form := .bur { m1 := m1, m2 := m2, d := 1, a := 2, b := 3, c := 4 }

/-! ## Integer operations (09 Tables 9.3, 9.4) -/

theorem test_iadd_saturates : val (.iadd (f3 0x80)) [(2, 0x7FFFFFFF), (3, 1)] = 0x7FFFFFFF := by decide
theorem test_iadd_wraps : val (.iadd (f3 0)) [(2, 0xFFFFFFFF), (3, 2)] = 1 := by decide
theorem test_isub_saturates_at_zero : val (.isub (f3 0x81)) [(2, 3), (3, 5)] = 0 := by decide
theorem test_imul_low : val (.imul (f3 0)) [(2, 0xFFFFFFFF), (3, 5)] = 0xFFFFFFFB := by decide
theorem test_imulh_signed : val (.imulh (f3 0)) [(2, 0xFFFFFFFF), (3, 5)] = 0xFFFFFFFF := by decide
theorem test_imulh_unsigned : val (.imulh (f3 1)) [(2, 0xFFFFFFFF), (3, 5)] = 4 := by decide
theorem test_imad : val (.imad (f3 0)) [(2, 3), (3, 4), (4, 5)] = 17 := by decide
theorem test_imin_signed : val (.imin (f3 0)) [(2, 0xFFFFFFFF), (3, 5)] = 0xFFFFFFFF := by decide
theorem test_imax_unsigned : val (.imax (f3 1)) [(2, 0xFFFFFFFF), (3, 5)] = 0xFFFFFFFF := by decide
theorem test_iabs_of_least : val (.iabs (.bur { d := 1, a := 2 })) [(2, 0x80000000)] = 0x80000000 := by decide
theorem test_ineg : val (.ineg (.bur { d := 1, a := 2 })) [(2, 1)] = 0xFFFFFFFF := by decide
theorem test_and : val (.and_ (f3 7)) [(2, 0xF0F0), (3, 0xFF00)] = 0xF000 := by decide
theorem test_or : val (.or_ (f3 7)) [(2, 0xF0F0), (3, 0xFF00)] = 0xFFF0 := by decide
theorem test_xor : val (.xor_ (f3 7)) [(2, 0xF0F0), (3, 0xFF00)] = 0x0FF0 := by decide
theorem test_not : val (.not_ (.bur { m1 := 7, d := 1, a := 2 })) [(2, 0xF0F0)] = 0xFFFF0F0F := by decide
theorem test_andn : val (.andn (f3 7)) [(2, 0xF0F0), (3, 0xFF00)] = 0x00F0 := by decide
theorem test_shl_full_width : val (.shl (f3 7)) [(2, 1), (3, 32)] = 0 := by decide
theorem test_shr : val (.shr (f3 7)) [(2, 0x80000000), (3, 31)] = 1 := by decide
theorem test_sar_full_width : val (.sar (f3 7)) [(2, 0x80000000), (3, 40)] = 0xFFFFFFFF := by decide
theorem test_rot_left : val (.rot (f3 7)) [(2, 0x80000001), (3, 33)] = 3 := by decide
theorem test_popc : val (.popc (.bur { m1 := 7, d := 1, a := 2 })) [(2, 0xFFFF00000003)] = 2 := by decide
theorem test_clz_of_zero : val (.clz (.bur { m1 := 7, d := 1, a := 2 })) [(2, 0)] = 32 := by decide
theorem test_brev : val (.brev (.bur { m1 := 7, d := 1, a := 2 })) [(2, 1)] = 0x80000000 := by decide
theorem test_bfx_signed : val (.bfx (.bur { m1 := 0, d := 1, a := 2, n1 := 4, n2 := 4 })) [(2, 0xF0)] = 0xFFFFFFFF := by decide
theorem test_bfi : val (.bfi (.bur { m1 := 7, d := 1, a := 2, b := 3, n1 := 8, n2 := 4 })) [(2, 0xFFFFFFFF), (3, 0x25)] = 0xFFFFF5FF := by decide
theorem test_sel_takes_b : val (.sel (f3 7)) [(2, 5), (3, 6)] = 6 := by decide
theorem test_mov_cuts : val (.mov (.bur { m1 := 7, d := 1, a := 2 })) [(2, 0x123456789)] = 0x23456789 := by decide
theorem test_movi_negative : val (.movi (.bur { m1 := 2, d := 1, i := -1 })) [] = 2 ^ 64 - 1 := by decide
theorem test_lea : val (.lea (.bur { m1 := 8, d := 1, a := 2, b := 3, n1 := 3 })) [(2, 0x1000), (3, 5)] = 0x1028 := by decide
theorem test_icmp_lt_signed : cnd (.icmp (f3 0x20)) [(2, 0xFFFFFFFF), (3, 1)] = true := by decide
theorem test_icmp_lt_unsigned : cnd (.icmp (f3 0x21)) [(2, 0xFFFFFFFF), (3, 1)] = false := by decide
/-- The quotient of −7 and 2 is −3, the remainder −1. -/
theorem test_idiv_toward_zero : val (.idiv { m1 := 0, d := 1, a := 2, b := 3 }) [(2, 0xFFFFFFF9), (3, 2)] = 0xFFFFFFFD := by decide
theorem test_idiv_by_zero : val (.idiv { m1 := 1, d := 1, a := 2, b := 3 }) [(2, 7)] = 0xFFFFFFFF := by decide
theorem test_irem_sign : val (.irem { m1 := 0, d := 1, a := 2, b := 3 }) [(2, 0xFFFFFFF9), (3, 2)] = 0xFFFFFFFF := by decide
theorem test_irem_least_by_minus_one : val (.irem { m1 := 0, d := 1, a := 2, b := 3 }) [(2, 0x80000000), (3, 0xFFFFFFFF)] = 0 := by decide
/-- A destination that is also the source, and a strand that its guard leaves out (09 R174; 02 R23). -/
theorem test_source_is_destination : xr (out (.iadd (.bur { d := 2, a := 2, b := 2 })) (st { g0 with x := xs0 [(2, 3)] } c1)) 0 2 = 6 := by decide
theorem test_guard_false_leaves_register : xr (out (.iadd (.bur { guard := some 4, d := 1, a := 2, b := 2 })) (st { g0 with x := xs0 [(1, 9), (2, 3)] } c1)) 0 1 = 9 := by decide

/-! ## Floating-point operations (08, 09 Tables 9.5, 9.6) -/

theorem test_fadd_ties_to_even : val (.fadd (f3 4)) [(2, 0x4B800000), (3, 0x3F800000)] = 0x4B800000 := by decide
theorem test_fadd_inexact : flg (.fadd (f3 4)) [(2, 0x4B800000), (3, 0x3F800000)] = fNX := by decide
theorem test_fsub_zero_down : val (.fsub (f3 0x24)) [(2, 0x3F800000), (3, 0x3F800000)] = 0x80000000 := by decide
theorem test_fmul_invalid : val (.fmul (f3 4)) [(2, 0), (3, 0x7F800000)] = 0x7FC00000 ∧ flg (.fmul (f3 4)) [(2, 0), (3, 0x7F800000)] = fIV := by decide
/-- (2^24 + 2) × 1 − 2^24 is exactly 2 where the product is not rounded apart. -/
theorem test_ffma_single_rounding : val (.ffma (f3 4)) [(2, 0x4B800001), (3, 0x3F800000), (4, 0xCB800000)] = 0x40000000 := by decide
theorem test_scale_down : val (.scale (f3 4)) [(2, 0x3F800000), (3, 0xFFFFFFFF)] = 0x3F000000 := by decide
theorem test_fmin_zeros : val (.fmin (f3 4)) [(2, 0), (3, 0x80000000)] = 0x80000000 := by decide
theorem test_fmax_one_nan : val (.fmax (f3 4)) [(2, 0x7FC00000), (3, 0x3F800000)] = 0x3F800000 := by decide
theorem test_fcmp_zeros_equal : cnd (.fcmp (f3 4)) [(2, 0), (3, 0x80000000)] = true := by decide
theorem test_fcmp_lt_nan : cnd (.fcmp (f3 0x24)) [(2, 0x7FC00000)] = false ∧ flg (.fcmp (f3 0x24)) [(2, 0x7FC00000)] = fIV := by decide
theorem test_frcp_of_four : val (.frcp (.bur { m1 := 4, d := 1, a := 2 })) [(2, 0x40800000)] = 0x3E800000 := by decide +kernel
theorem test_frcp_of_zero : val (.frcp (.bur { m1 := 4, d := 1, a := 2 })) [(2, 0x80000000)] = 0xFF800000 ∧
    flg (.frcp (.bur { m1 := 4, d := 1, a := 2 })) [(2, 0x80000000)] = fDZ := by decide +kernel
theorem test_frsq_of_four : val (.frsq (.bur { m1 := 4, d := 1, a := 2 })) [(2, 0x40800000)] = 0x3F000000 := by decide +kernel
theorem test_fexp2_of_three : val (.fexp2 (.bur { m1 := 4, d := 1, a := 2 })) [(2, 0x40400000)] = 0x41000000 := by decide +kernel
theorem test_flog2_of_eight : val (.flog2 (.bur { m1 := 4, d := 1, a := 2 })) [(2, 0x41000000)] = 0x40400000 := by decide +kernel
theorem test_ftanh_of_infinity : val (.ftanh (.bur { m1 := 4, d := 1, a := 2 })) [(2, 0xFF800000)] = 0xBF800000 := by decide +kernel
theorem test_fdot4 : val (.fdot4 { m1 := 4, d := 1, a := 8, b := 12, c := 4 })
    [(8, 0x3F800000), (9, 0x40000000), (10, 0x40400000), (11, 0x40800000), (12, 0x3F800000), (13, 0x3F800000), (14, 0x3F800000), (15, 0x3F800000), (4, 0x3F800000)] =
    0x41300000 := by decide
theorem test_hadd2 : val (.hadd2 (f3 5)) [(2, 0x3C003C00), (3, 0x40003C00)] = 0x42004000 := by decide
theorem test_hmul2 : val (.hmul2 (f3 5)) [(2, 0x40003C00), (3, 0x40004000)] = 0x44004000 := by decide
theorem test_hfma2 : val (.hfma2 (f3 5)) [(2, 0x3C003C00), (3, 0x40003C00), (4, 0x3C003C00)] = 0x42004000 := by decide
theorem test_hdot2 : val (.hdot2 { m1 := 5, d := 1, a := 2, b := 3, c := 4 }) [(2, 0x40003C00), (3, 0x40004000), (4, 0x3F800000)] = 0x40E00000 := by decide
/-- 08: 3.0 is the code 0x06, and back it is 0x40350500; 20.0 with .SAT is 0x0F. -/
theorem test_cvt_to_log6 : val (.cvt (.bur { m1 := 0x0B, m2 := 4, d := 1, a := 2 })) [(2, 0x40400000)] = 6 := by decide +kernel
theorem test_cvt_from_log6 : val (.cvt (.bur { m1 := 4, m2 := 11, d := 1, a := 2 })) [(2, 6)] = 0x40350500 := by decide +kernel
theorem test_cvt_log6_saturates : val (.cvt (.bur { m1 := 0x8B, m2 := 4, d := 1, a := 2 })) [(2, 0x41A00000)] = 0x0F := by decide +kernel
/-- 08: in E4M3 under .RNE, 460 rounds to 448; 470 overflows to 0x7F. -/
theorem test_cvt_e4m3 : val (.cvt (.bur { m1 := 9, m2 := 4, d := 1, a := 2 })) [(2, 0x43E60000)] = 0x7E ∧
    val (.cvt (.bur { m1 := 9, m2 := 4, d := 1, a := 2 })) [(2, 0x43EB0000)] = 0x7F := by decide
theorem test_pack : val (.pack (.bur { m1 := 5, m2 := 4, d := 1, a := 2, b := 3 })) [(2, 0x3F800000), (3, 0x40000000)] = 0x40003C00 := by decide
theorem test_unpack_upper : val (.unpack (.bur { m1 := 4, m2 := 5, d := 1, a := 2, n1 := 1 })) [(2, 0x40003C00)] = 0x40000000 := by decide

/-! ## Crew operations (09 R192 to R195) -/

/-- Registers of lanes 0 and 1 from lists. -/
def xs2 (l m : List (Nat × W64)) : SMap W64 := m.foldl (fun a e => SMap.set 0 a (xKey 0 1 e.1) e.2) (xs0 l)

theorem test_vote_any : cr (out (.voteAny (.bur { d := 1, a := 2 })) (st { g0 with c := [(xKey 0 1 2, true)] } c2)) 0 1 = true := by decide
theorem test_vote_all : cr (out (.voteAll (.bur { m1 := 0x10, d := 1, a := 2 })) (st { g0 with c := [(xKey 0 1 2, true)] } c2)) 0 1 = false := by decide
theorem test_vote_ballot : xr (out (.voteBallot (.bur { m1 := 0x20, d := 1, a := 2 })) (st { g0 with c := [(xKey 0 1 2, true)] } c2)) 0 1 = 2 := by decide
theorem test_vote_eq_by_bits : cr (out (.voteEq { m1 := 0x34, d := 1, a := 2 }) (st { g0 with x := xs2 [(2, 0)] [(2, 0x80000000)] } c2)) 0 1 = false := by decide
theorem test_shfl_xor : xr (out (.shfl (.bur { m1 := 0x17, d := 1, a := 2, b := 3 })) (st { g0 with x := xs2 [(2, 5), (3, 1)] [(2, 6), (3, 1)] } c2)) 0 1 = 6 := by decide
theorem test_shfl_absent_lane : xr (out (.shfl (.bur { m1 := 0x37, d := 1, a := 2, b := 3 })) (st { g0 with x := xs2 [(2, 5), (3, 7)] [(2, 6)] } c2)) 0 1 = 5 := by decide
/-- 09: the reduction with a hole gives 1.0 and raises NX. -/
theorem test_cred_tree :
    let s := out (.cred (.bur { m1 := 4, d := 1, a := 2 })) (st { g0 with x := [(2, 0x4B800000), (2097154, 0x3F800000), (4194306, 0xCB800000), (6291458, 0x3F800000)] }
      { strands := [(0, 0), (1, 0), (2, 0), (3, 0)] })
    xr s 3 1 = 0x3F800000 ∧ (crewOf s).region.raised = fNX := by decide

/-! ## Native slots (03 R50, Table 3.12) -/

/-- The only result in flight: cycle, register, value. -/
def flight (s : State) : List (Nat × RegCls × Nat × Nat) := (crewOf s).inflight.map fun l => (l.at_, l.cls, l.reg, l.val.toNat)

/-- A group with scalar registers of issue context 0. -/
def gs (l : List (Nat × W64)) : Group := { g0 with ctxs := [(0, { s := l.foldl (fun m e => SMap.set 0 m e.1 e.2) [] })] }

/-- An S slot's product lands after 3 cycles, a sum after 1. -/
theorem test_slot_imul : flight (out (.imul (.s { sd := 1, sa := 2, sb := 3 })) (st (gs [(2, 6), (3, 7)]) c1)) = [(3, .s, 1, 42)] := by decide
theorem test_slot_iadd_imx : flight (out (.iadd (.s { ty := 2, im := true, sd := 1, sa := 2, imx := 0xFFFFFFFF })) (st (gs [(2, 6)]) c1)) = [(1, .s, 1, 5)] := by decide
theorem test_slot_guard_false : flight (out (.iadd (.s { ge := true, sd := 1 })) (st (gs []) c1)) = [] := by decide
/-- A V slot's FFMA reads the broadcast scalar as operand B and lands after 4 cycles. -/
theorem test_slot_broadcast : flight (out (.ffma (.v { ty := 4, bb := true, bcs := 5, vd := 1, va := 2, vc := 3 }))
    (st { gs [(5, 0x40000000)] with v := [(vKey 0 2 0, 0x3F800000)] } c1)) = [(4, .v, 1, 0x40000000)] := by decide
theorem test_slot_frcp_bound : (flight (out (.frcp (.v { ty := 4, vd := 1, va := 2 })) (st { g0 with v := [(vKey 0 2 0, 0x40000000)] } c1))) = [(12, .v, 1, 0x3F000000)] := by
  decide +kernel
theorem test_vote_any_slot : flight (out (.voteAny (.v { vd := 2, va := 1 })) (st { g0 with p := [(pKey 0 1, 1)] } c2)) = [(6, .q, 2, 1)] := by decide

/-! ## Loads and stores (11, 07) -/

/-- A translation of the first 64 KiB to themselves, and a cached line of bytes 0x80, 0x81, … at address 0. -/
def page : TlbEntry := { asid := 0, vpn := 0, size := 65536, frame := 0, rd := true, w := true, x := false, d := true, widx := 0, pte := 0 }
def line0 : CLine := { line := 0, bank := 0, asid := 0, vline := 0, data := 0x8786858483828180, valid := BitVec.allOnes 128 }
def core0 : Core := { tlb := [page], cache := [line0] }

theorem test_ld_sign_extends : xr (out (.ld (.bur { m1 := 12, d := 1, a := 2, i := 3 })) (st g0 c1 core0)) 0 1 = 0xFFFFFF83 := by decide +kernel
theorem test_ld_sees_own_store :
    xr (out (.ld (.bur { m1 := 4, d := 1, a := 2 })) (out (.st (.bur { m1 := 14, b := 3, i := 2 })) (st { g0 with x := xs0 [(3, 0xAABB)] } c1 core0))) 0 1 = 0xAABB8180 := by
  decide +kernel
theorem test_ld_slot : flight (out (.ld (.l { ty := 0, lat := 15, d := 1 })) (st { g0 with ctxs := [] } c1 core0)) = [(16, .s, 1, 0xFFFFFFFF83828180)] := by decide +kernel
theorem test_ld_misaligned : ((crewOf (out (.ld (.bur { m1 := 4, d := 1, a := 2, i := 2 })) (st g0 c1 core0))).region.latched.map fun f => (f.kind, f.lanes)) =
    some (.addrAlign, [(0, 2)]) := by decide
/-- An unmapped page: the walk finds no table. -/
theorem test_ld_unmapped : ((crewOf (out (.ld (.bur { m1 := 4, d := 1, a := 2, i := 65536 })) (st g0 c1 core0))).region.latched.map FaultRec.kind) = some .addrUnmapped := by
  decide +kernel
theorem test_st_is_buffered : (crewOf (out (.st (.bur { m1 := 14, b := 3, i := 2 })) (st { g0 with x := xs0 [(3, 0xAABB)] } c1 core0))).region.buf =
    [.store 0 [{ lane := 0, slot := 0, va := 2, pa := 2, bytes := [0xBB, 0xAA] }]] := by decide
theorem test_lds_sts : xr (out (.lds (.bur { m1 := 15, d := 1 })) (out (.sts (.bur { m1 := 7, b := 3 })) (st { g0 with bkm := 1, x := xs0 [(3, 0x12345678)] } c1))) 0 1 =
    0x5678 := by decide
theorem test_lds_bank_of_cache : ((crewOf (out (.lds (.bur { m1 := 7, d := 1 })) (st g0 c1))).region.latched.map FaultRec.kind) = some .localBad := by decide
/-- Strand 1 of a launch of 64 strands: its byte 4 lies at 4 × (64 × 1 + 1) (R222). -/
theorem test_stl_interleaves : (crewOf (out (.stl (.bur { m1 := 13, b := 3, i := 5 })) (st g0 { strands := [(1, 0)] } core0
    { asid := 0, q := 0, lidx := 0, spg := 64, record := BitVec.ofNat 1024 (16 * 2 ^ 384) }))).region.buf =
    [.store 0 [{ lane := 1, slot := 0, va := 261, pa := 261, bytes := [0] }]] := by decide +kernel
theorem test_ldl_beyond_lsize : ((crewOf (out (.ldl (.bur { m1 := 7, d := 1, i := 16 })) (st g0 c1 core0
    { asid := 0, q := 0, lidx := 0, spg := 64, record := BitVec.ofNat 1024 (16 * 2 ^ 384) }))).region.latched.map FaultRec.kind) = some .addrUnmapped := by decide +kernel
theorem test_ldc_parameters : xr (out (.ldc (.bur { m1 := 0x17, d := 1, i := 4 })) (st g0 c1 {} { asid := 0, q := 0, lidx := 0, params := [0, 0, 0, 0, 1, 2, 3, 4] })) 0 1 =
    0x04030201 := by decide
theorem test_pref_moves_on : (crewOf (out (.pref (.bur { a := 2 })) (st g0 c1 core0))).pc = 4 := by decide +kernel

/-! ## FIFOs, spill and transfer (07 R150 to R155) -/

/-- A group whose bank 11 is a FIFO, fed by itself. -/
def gf : Group := { g0 with bkm := 0x800000, fdn := 0x200 }

theorem test_push : (crewOf (out (.push (.bur { m1 := 7, b := 3, n1 := 11 })) (st { gf with x := xs2 [(3, 5)] [(3, 6)] } c2))).region.pushed.map (fun p => (p.1, p.2.take 3)) =
    [(11, [5, 6, 0])] := by decide
theorem test_pop_empty_waits : (crewOf (out (.pop (.bur { m1 := 7, d := 1, n1 := 11 })) (st gf c2))).hold = some (.fifoEntry 11) := by decide
theorem test_pop_takes_oldest : xr (out (.pop (.bur { m1 := 7, d := 1, n1 := 11 })) (st { gf with fifo := [(11, { entries := [[5, 6], [7, 8]] })] } c2)) 1 1 = 6 := by decide
theorem test_spl_fil : flight (out (.fil { lat := 23, d := 4, disp := 64 }) (out (.spl { d := 3, disp := 64 }) (st (gs [(3, 0x1122334455667788)]) c1))) =
    [(24, .s, 4, 0x1122334455667788)] := by decide
theorem test_xv : flight (out (.xv 7 2) (st (gs [(2, 0xFFFFFFFF00000005)]) c1)) = [(2, .v, 7, 5)] := by decide
theorem test_xs_signed : flight (out (.xs true 3 7 1) (st { g0 with v := [(vKey 0 7 1, 0x80000000)] } c2)) = [(2, .s, 3, 0xFFFFFFFF80000000)] := by decide
theorem test_xs_p : flight (out (.xsP 3 2) (st { g0 with p := [(pKey 0 2, 3)] } c2)) = [(2, .s, 3, 3)] := by decide
theorem test_bc : out (.bc 3) (st g0 c2) = st g0 c2 := by decide +kernel

/-! ## Atomics, ordering and special registers (11 R231, 12, 13, 15 R322, R323) -/

theorem test_atom_is_noted : (crewOf (out (.atom (.bur { m1 := 7, m2 := 2, d := 1, a := 2, b := 3 })) (st { g0 with x := xs0 [(3, 9)] } c1 core0))).region.ops =
    [.atom false 0 7 2 .x 1 [({ lane := 0, slot := 0, va := 0, pa := 0 }, 9, 0)]] := by decide
/-- 11 Table 11.5: ADD of .B32 wraps, MAX of .S32 is signed; CAS writes where it compares equal. -/
theorem test_atom_add : atomNew false 0 7 1 0 0xFFFFFFFF = some 0 := by decide
theorem test_atom_max : atomNew false 2 0 1 0 0xFFFFFFFF = some 1 := by decide
theorem test_cas : atomNew true 0 7 5 9 5 = some 9 ∧ atomNew true 0 7 5 9 6 = none := by decide
theorem test_cas_is_noted : (crewOf (out (.cas (.bur { m1 := 7, m2 := 2, d := 1, a := 2, b := 3, c := 4 })) (st { g0 with x := xs0 [(3, 9), (4, 8)] } c1 core0))).region.ops =
    [.atom true 0 7 2 .x 1 [({ lane := 0, slot := 0, va := 0, pa := 0 }, 9, 8)]] := by decide
theorem test_acq_waits_32 : (crewOf (out (.acq (.bur { m1 := 2, a := 2 })) (st g0 c1 core0))).hold = some (.acquire 32) ∧
    ((out (.acq (.bur { m1 := 2, a := 2 })) (st g0 c1 core0)).core 0).cache = [] := by decide
/-- 12 R254: the first strand's increment by itself; the crew stays for the other. -/
theorem test_rel_first_strand : (crewOf (out (.rel (.bur { m1 := 2, a := 2 })) (st g0 c2 core0))).region.ops = [.rel 2 [({ lane := 0, slot := 0, va := 0, pa := 0 }, 1)]] ∧
    (crewOf (out (.rel (.bur { m1 := 2, a := 2 })) (st g0 c2 core0))).pc = 0 := by decide
theorem test_fence_sc : (crewOf (out (.fence (.bur { m1 := 11 })) (st g0 c1))).region.ops = [.fence 3 true] := by decide
theorem test_bind_empty_span : ((crewOf (out (.bind (.bur { a := 2, b := 3, c := 4 })) (st g0 c1))).region.latched.map FaultRec.kind) = some .syncBad := by decide
theorem test_bind_is_buffered : (crewOf (out (.bind (.bur { a := 2, b := 3, c := 4 })) (st { g0 with x := xs0 [(2, 8), (3, 4096), (4, 128)] } c1))).region.buf = [.bind 8 4096 128] := by
  decide
theorem test_unbind : (crewOf (out (.unbind (.bur { a := 2 })) (st { g0 with x := xs0 [(2, 8)] } c1))).region.buf = [.unbind 8] := by decide
theorem test_seal : (crewOf (out (.seal (.bur {})) (st g0 c1))).region.ops = [.seal] := by decide
theorem test_gate : (crewOf (out (.gate (.bur { n1 := 5 })) (st g0 { c1 with pc := 7 }))).region.ops = [.gate 5 7] := by decide
/-- SID of lane 1 in slot 0; FPF with the flags raised since the last commit point. -/
theorem test_csrr_sid : xr (out (.csrr (.bur { d := 1, n1 := 0x70 })) (st g0 c2)) 1 1 = 1 := by decide
theorem test_csrr_fpf : xr (out (.csrr (.bur { d := 1, n1 := 8 })) (st { g0 with ctxs := [(0, { fpf := 1 })] } { c1 with region := { raised := 16 } })) 0 1 = 17 := by decide
theorem test_csrw_fpf_waits : (crewOf (out (.csrwFpf (.bur { a := 2, n1 := 8 })) (st { g0 with x := xs0 [(2, 3)] } c1))).region.fpfWrite = some 3 := by decide
theorem test_csrw_bkm_illegal : ((crewOf (out (.csrwBkm (.bur { a := 2, n1 := 0x40 })) (st { g0 with x := xs0 [(2, 3)] } c1))).region.latched.map FaultRec.kind) = some .bankBad := by
  decide
theorem test_csrw_bkm_of_skipping_crew : (crewOf (out (.csrwBkm (.bur { a := 2, n1 := 0x40 })) (st { g0 with x := xs0 [(2, 1)] } { c1 with skip := [0] }))).region.buf = [] := by
  decide
theorem test_csrw_fcb : (crewOf (out (.csrwFcb (.bur { a := 2, n1 := 0x51 })) (st { g0 with x := xs0 [(2, 0x205)] } c1))).region.buf = [.fcb 1 0x205] := by decide
theorem test_csrw_adr : flight (out (.csrwAdr { im := true, sa := 2, imx := 0x61 }) (st (gs [(2, 0xFFFF000000001000)]) c1)) = [(1, .a, 1, 0x1000)] := by decide

/-! ## Engines (06 R120 to R133) -/

/-- A copy of no byte between addresses 0 takes number 1 of the copy queue. -/
theorem test_cpy : xr (out (.cpy (.bur { d := 1, a := 2, b := 3, c := 4 })) (st g0 c2)) 1 1 = 1 := by decide +kernel
theorem test_cpy2 : ((out (.cpy2 (.bur { d := 1, a := 2, b := 3, c := 4, e := 5 })) (st { g0 with x := xs0 [(4, 0x100000001)] } c2)).eng 0).last = 1 := by decide +kernel
theorem test_gath : ((out (.gath (.bur { d := 1, a := 2, b := 3, c := 4, e := 5 })) (st { g0 with x := xs0 [(5, 0x200000001)] } c2)).eng 0).queue.map EngCmd.op = [0x72] := by decide +kernel
theorem test_coll_queue : ((out (.coll (.bur { m1 := 4, d := 1, a := 2 })) (st g0 c2)).eng 4).queue.map EngCmd.num = [1] := by decide +kernel
theorem test_cpy_partial : ((crewOf (out (.cpy (.bur { guard := some 2, d := 1 })) (st { g0 with c := [(xKey 0 1 1, true)] } c2))).region.latched.map FaultRec.kind) =
    some .partialMask := by decide +kernel
theorem test_tlr : xr (out (.tlr (.bur { d := 1 })) (st g0 c1 {} { asid := 0, q := 0, lidx := 0 } { eng := [(0, { counter := 4, last := 6 })] })) 0 1 = 4 := by decide
theorem test_tlw_waits : (crewOf (out (.tlw (.bur { a := 2 })) (st { g0 with x := xs0 [(2, 5)] } c1 {} { asid := 0, q := 0, lidx := 0 } { eng := [(0, { counter := 4, last := 6 })] }))).hold = some (.timeline 0 5) := by
  decide
theorem test_tlw_bad : ((crewOf (out (.tlw (.bur { a := 2 })) (st { g0 with x := xs0 [(2, 7)] } c1 {} { asid := 0, q := 0, lidx := 0 } { eng := [(0, { counter := 4, last := 6 })] }))).region.latched.map
    FaultRec.kind) = some .tlBad := by decide

/-! ## Matrix operations at issue (10 Tables 10.3, 10.7) -/

/-- A crew of its whole slot, and a group of one strand. -/
def s1 (g : Group) (c : Crew) : State := st g c {} { asid := 0, q := 0, lidx := 0, spg := 1, started := true, placed := [(0, [0])] }

theorem test_mxz : ((groupOf (out (.mxz {}) (s1 g0 c1))).compute.map fun m => (m.op, m.z)) = some (3, false) := by decide +kernel
theorem test_mx_bad_format : ((crewOf (out (.mx {}) (s1 (gs [(0, 0xFFFFFFFF)]) c1))).region.latched.map FaultRec.kind) = some .fmtBad := by decide +kernel
theorem test_mxs_places : ((groupOf (out (.mxs { fw := 1, nstep := 31 }) (s1 (gs [(1, 0x733)]) c1))).compute.map Macro.op) = some 1 := by decide +kernel
theorem test_mxr_places : ((groupOf (out (.mxr { z := true, fw := 1, aa := 2 }) (s1 (gs [(1, 0x733)]) c1))).retire.map fun m => (m.op, m.z)) = some (2, true) := by decide +kernel
theorem test_mma_t_diverges : ((crewOf (out (.mmaT { a := 2, b := 3, c := 4 }) (st { g0 with x := xs2 [(2, 0)] [(2, 1)] } c2))).region.latched.map FaultRec.kind) =
    some .fmtDiverge := by decide +kernel
theorem test_mret_t_tile_steps : ((crewOf (out (.mretT { a := 2, b := 3 }) (s1 { g0 with x := xs0 [(2, 0x733), (3, 2 ^ 56)] } c1))).region.latched.map FaultRec.kind) = some .mxBad := by
  decide +kernel
theorem test_mzero_t : ((groupOf (out (.mzeroT { n1 := 1 }) (s1 g0 c1))).compute.map fun m => (m.op, m.z)) = some (3, true) := by decide +kernel

/-! ## Control flow (14, 03 R64) -/

theorem test_next : (crewOf (out (.next { n1 := 3 }) (st g0 c2))).region.ops = [.send [(0, 0, 3), (1, 0, 3)]] := by decide
theorem test_next_c : (crewOf (out (.nextC { c := 2, n1 := 3, n2 := 4 }) (st { g0 with c := [(xKey 0 1 2, true)] } c2))).region.ops = [.send [(0, 0, 4), (1, 0, 3)]] := by decide
theorem test_next_ix_beyond : ((crewOf (out (.nextIx { a := 2, n1 := 3, n2 := 2 }) (st { g0 with x := xs2 [(2, 1)] [(2, 2)] } c2))).region.latched.map FaultRec.lanes) =
    some [(1, 0)] := by decide
theorem test_exit : (crewOf (out (.exit {}) (st g0 c1))).region.ops = [.send [(0, 0, 0xFFFFFFFF)]] := by decide
theorem test_rft_outside_handler : ((crewOf (out (.rft {}) (st g0 c1))).region.latched.map FaultRec.kind) = some .badSuccessor := by decide
theorem test_rft_native_in_handler : (crewOf (out (.rftNative {}) (st g0 { c1 with handler := true }))).region.ops = [.rft] := by decide
theorem test_bar_g : (crewOf (out (.barG {}) (st g0 c1))).region.ops = [.bar false] := by decide
theorem test_bar_k_in_handler : ((crewOf (out (.barK {}) (st g0 { c1 with handler := true }))).region.latched.map FaultRec.kind) = some .handlerFault := by decide
theorem test_bar_native : (crewOf (out (.barGNative {}) (st g0 c1))).region.ops = [.bar false] ∧ (crewOf (out (.barKNative {}) (st g0 c1))).region.ops = [.bar true] := by decide
theorem test_yield : (crewOf (out (.yield_ {}) (st g0 c1))).yielded = true ∧ (crewOf (out (.yieldNative {}) (st g0 c1))).yielded = true := by decide
theorem test_trap_code : ((crewOf (out (.trap (.bur { n1 := 7 })) (st g0 c1))).region.latched.map fun f => (f.kind, f.code)) = some (.trapOp, 7) := by decide
theorem test_brk_without_debugger : (crewOf (out (.brk (.bur { n1 := 7 })) (st g0 c1))).pc = 2 ∧ (crewOf (out (.brk (.bur { n1 := 7 })) (st g0 c1))).region.latched = none := by
  decide
theorem test_pbr_relative : flight (out (.pbr { opnd := 0x5FFFF }) (st g0 { c1 with pc := 10 })) = [(1, .b, 1, 9)] := by decide
theorem test_brt_delay : (crewOf (out (.brt { opnd := 0x40000 }) (st { g0 with ctxs := [(0, { b := [(1, 9)] })] } c1))).branch = some (9, 3) := by decide
theorem test_send : (crewOf (out (.send { opnd := 0x1C000 }) (st { g0 with v := [(vKey 0 7 0, 4)] } c1))).region.ops = [.send [(0, 0, 4)]] := by decide
theorem test_halt_and_cmt : (crewOf (out (.halt {}) (st g0 c1))).region.ops = [.halt] ∧ (crewOf (out (.cmt {}) (st g0 c1))).region.due = true := by decide
theorem test_cmt_swap : (crewOf (out (.cmtSwap { opnd := 0x80000 + 3 * 2 ^ 15 + 4 * 2 ^ 11 }) (st g0 c1))).region.ops = [.swap 3 4] := by decide
theorem test_lpset_zero_skips : (crewOf (out (.lpset { opnd := 5 }) (st g0 { c1 with pc := 10 }))).branch = some (16, 0) := by decide
theorem test_lpset_loop : ((groupOf (out (.lpset { opnd := 0x8005 }) (st (gs [(2, 3)]) { c1 with pc := 10 }))).ctx 0).lp0 = { start := 11, stop := 15, count := 3, active := true } := by
  decide
theorem test_lpclr : ((groupOf (out (.lpclr {}) (st { g0 with ctxs := [(0, { lp0 := { active := true, count := 3 } })] } c1))).ctx 0).lp0.active = false := by decide
theorem test_rpt_alone : out (.rpt { opnd := 0x100 }) (st g0 c1) = st g0 c1 := by decide +kernel
theorem test_wait_takes : ((groupOf (out (.wait 3 2) (st { g0 with flags := [(3, { count := 5 })] } c1))).flag 3).count = 3 := by decide
theorem test_wait_blocks : (crewOf (out (.wait 3 2) (st { g0 with flags := [(3, { count := 1 })] } c1))).hold = some (.flag 3 2) := by decide
theorem test_post_self : (crewOf (out (.postSelf 3 2) (st g0 c1))).region.ops = [.post true 0 3 2 0] := by decide
theorem test_post_elsewhere : ((crewOf (out (.postCore 3 9 2) (st g0 c1))).region.latched.map FaultRec.kind) = some .flagBad := by decide

/-! ## Witnesses: states and operands that meet the hypotheses of each statement, clause by clause -/

/-- The group of `st`, beside its crew. -/
def gr (g : Group) (c : Crew) : Group := { g with running := some c }

/-- The premise that most statements share: a crew runs on the focus core. -/
theorem runs_here (g : Group) (c : Crew) (k : Core) (la : Launch) (p : Pkg) : (st g c k la p).crew (st g c k la p).focus = some (gr g c, c) := rfl

/-- Burhus forms and slots of which one fits each operation that writes registers. -/
def burForms : List BIns := [{}, { m1 := 7 }, { m1 := 4 }, { m1 := 5 }, { m1 := 1 }, { n2 := 1 }, { m1 := 7, n2 := 1 }, { m1 := 3 }, { m1 := 0x10 }, { m1 := 0x20 },
  { n1 := 0x70 }, { m2 := 5 }, { m1 := 0x30 }]
def slotForms : List Form := [.s { sd := 1 }, .s { ty := 3, sd := 1 }, .s { ty := 7, sd := 1 }, .s { ty := 4, sd := 1 }, .v { ty := 4, vd := 1 }, .v { ty := 5, vd := 1 },
  .v { vd := 1, vb := 5 }, .v { ty := 7, vd := 1 }, .v { vd := 1 }, .v { vd := 1, sub := 1 }, .v { vd := 1, sub := 2 }, .s { sd := 1, im := true, imx := 0x30 },
  .s { sd := 1, im := true, imx := 0x100 }, .s { ty := 7, sd := 1, im := true, imx := 0x100 }, .l { lat := 7 }, .v { ty := 5, vd := 1, sub := 4 }]

theorem wit_register_forms : ∀ o ∈ registerOps, (∃ b ∈ burForms, wellFormed (o.1 (.bur b)) = true) ∧ ∃ f ∈ slotForms, wellFormed (o.1 f) = true := by decide +kernel
theorem wit_burhus_forms : ∀ o ∈ burhusOps, ∃ b ∈ burForms, wellFormed (o.1 b) = true := by decide +kernel

/-! ### Numbers -/

theorem wit_RoundingIntoFormats : (3 : Nat) ≤ 3 ∧ fmtE5M2 ∈ formats ∧ (1 : Nat) ≠ 0 ∧ (63 : Nat) < 64 := by decide
/-- Table 8.3: beyond the largest finite value of E4M3, 448, and at it. -/
theorem test_round_overflow : roundF fmtE4M3 0 false (.fin false 1 9) = (0x7F, fOF ||| fNX) ∧ roundF fmtE4M3 0 false (.fin false 7 6) = (0x7E, 0) := by decide +kernel

/-! ### Loads and stores -/

/-- A group of one strand whose x3 is `v`; a crew of 767 buffered entries. -/
def gx (v : W64) : Group := { g0 with x := xs0 [(3, v)] }
def full1 : Crew := { c1 with region := { buf := List.replicate 767 (.unbind 0) } }

theorem wit_LoadHits : let s := st g0 c1 core0; let g := gr g0 c1; let f : Form := .bur { m1 := 4, d := 1, a := 2, i := 124 }
    wellFormed (.ld f) = true ∧ isSp f = false ∧ memPol f ≠ 2 ∧ memLanes g c1 f = [(0, 0)] ∧ memEa g c1 f 0 0 % tyBytes (memTy f) = 0 ∧ isHbm 124 = true ∧
    s.hit 0 (lineOf 124) = some line0 ∧ maskAt (124 % 128) 4 &&& line0.valid = maskAt (124 % 128) 4 ∧
    translate 0 (s.asidOf g) (memEa g c1 f 0 0) .read s = (s, .ok { pa := 124, widx := 0 }) := by decide +kernel
theorem wit_LoadMisses : let s := st g0 c1 core0; let g := gr g0 c1; let d : LSlot := { ty := 4, d := 1, disp := 128 }
    wellFormed (.ld (.l d)) = true ∧ isSp (.l d) = false ∧ memLanes g c1 (.l d) = [(0, 0)] ∧ memEa g c1 (.l d) 0 0 % 4 = 0 ∧
    translate 0 (s.asidOf g) (memEa g c1 (.l d) 0 0) .read s = (s, .ok { pa := 128, widx := 0 }) ∧ s.hit 0 (lineOf 128) = none := by decide +kernel
theorem wit_PrefetchOnlyHints : let s := st g0 c1 core0; let g := gr g0 c1; let f : Form := .bur { a := 2, i := 65536 }
    wellFormed (.pref f) = true ∧ memLanes g c1 f = [(0, 0)] ∧ translate 0 (s.asidOf g) (memEa g c1 f 0 0) .read s = (s, .error .addrUnmapped) := by decide +kernel
/-- A launch of one group of 64 strands with a local array of 16 bytes a strand and a parameter block of 8 bytes. -/
def la16 : Launch := { asid := 0, q := 0, lidx := 0, spg := 64, record := BitVec.ofNat 1024 (16 * 2 ^ 384), params := [1, 2, 3, 4, 5, 6, 7, 8] }
/-- Two words that end at LSIZE; and a word that ends there (both in line 5). -/
theorem wit_LocalLoads : let k : Core := { tlb := [page], cache := [{ line0 with line := 4 }, { line0 with line := 6 }] }
    let s := st g0 c1 k la16; let g := gr g0 c1; let f : Form := .bur { m1 := 3, d := 1, i := 8 }
    wellFormed (.ldl f) = true ∧ isSp f = false ∧ la16.grid * (la16.stages * la16.gps) * la16.spg = 64 ∧ memLanes g c1 f = [(0, 0)] ∧
    memEa g c1 f 0 0 + 8 ≤ fld 415 384 la16.record.toNat ∧ s.hit 0 (lineOf 512) = some { line0 with line := 4 } ∧ s.hit 0 (lineOf 768) = some { line0 with line := 6 } ∧
    translate 0 (s.asidOf g) 512 .read s = (s, .ok { pa := 512, widx := 0 }) ∧ translate 0 (s.asidOf g) 768 .read s = (s, .ok { pa := 768, widx := 0 }) := by decide +kernel
theorem wit_ConstantLoads : let g := gr g0 c1; let f : Form := .bur { m1 := 0x17, d := 1, i := 4 }; let h : Form := .bur { m1 := 0x17, d := 1, i := 8 }
    wellFormed (.ldc f) = true ∧ memPol f = 1 ∧ memLanes g c1 f = [(0, 0)] ∧ memEa g c1 f 0 0 % 4 = 0 ∧ memEa g c1 f 0 0 + 4 ≤ la16.params.length ∧
    wellFormed (.ldc h) = true ∧ memLanes g c1 h = [(0, 0)] ∧ memEa g c1 h 0 0 % 4 = 0 ∧ la16.params.length < memEa g c1 h 0 0 + 4 := by decide +kernel
theorem wit_StoresAreBuffered : let s := st g0 full1 core0; let g := gr g0 full1; let f : Form := .bur { m1 := 7, b := 3, i := 65532 }
    wellFormed (.st f) = true ∧ full1.region.buf.length = 767 ∧ memLanes g full1 f = [(0, 0)] ∧ memEa g full1 f 0 0 % 4 = 0 ∧
    translate 0 (s.asidOf g) (memEa g full1 f 0 0) .write s = (s, .ok { pa := 65532, widx := 0 }) := by decide +kernel
theorem wit_local_stores_are_buffered : let s := st g0 full1 core0 la16; let g := gr g0 full1; let f : Form := .bur { m1 := 8, b := 3, i := 8 }
    wellFormed (.stl f) = true ∧ memLanes g full1 f = [(0, 0)] ∧ memEa g full1 f 0 0 + 8 ≤ fld 415 384 la16.record.toNat ∧
    translate 0 (s.asidOf g) 512 .write s = (s, .ok { pa := 512, widx := 0 }) ∧ translate 0 (s.asidOf g) 768 .write s = (s, .ok { pa := 768, widx := 0 }) := by decide +kernel
theorem wit_MisalignedAccessesFault : let g := gr g0 c1; let b : BIns := { m1 := 4, d := 1, i := 2 }
    wellFormed (.ld (.bur b)) = true ∧ burLanes g c1 b.guard = [(0, 0)] ∧ memEa g c1 (.bur b) 0 0 % 4 ≠ 0 ∧ wellFormed (.atom (.bur { m1 := 7, d := 1, i := 2 })) = true := by decide +kernel
/-- The last word of bank 11, which a scratchpad holds; the first byte past it; and a bank of the cache. -/
theorem wit_Scratchpad : let g := gr { g0 with bkm := 0x400000 } c1; let f : Form := .bur { m1 := 7, i := 393212 }
    wellFormed (.lds f) = true ∧ wellFormed (.sts f) = true ∧ memLanes g c1 f = [(0, 0)] ∧ memEa g c1 f 0 0 + 4 = 393216 ∧ memEa g c1 f 0 0 % 4 = 0 ∧
    g.modeOf (memEa g c1 f 0 0 / 32768) = some 1 ∧ 393216 < memEa g c1 (.bur { m1 := 7, i := 393216 }) 0 0 + 4 ∧ g.modeOf 0 ≠ some 1 := by decide +kernel

/-! ### FIFOs, spill areas and transfers -/

/-- A queue with `n` places taken by the producer, and one published entry. -/
def gq (n : Nat) : Group := { gf with fifo := [(11, { entries := [[5, 6]], unpublished := n })] }
theorem wit_Pushes : let f : Form := .bur { m1 := 7, b := 3, n1 := 11 }
    wellFormed (.push f) = true ∧ fifoBank f = 11 ∧ (gr (gq 126) c1).down = some 0 ∧ (st (gq 126) c1).sibling (gr (gq 126) c1) 0 = some (gr (gq 126) c1) ∧
    (gr (gq 126) c1).pcrew 11 = c1.ctx ∧ ((gq 126).queue 11).entries.length + ((gq 126).queue 11).inbound.length + ((gq 126).queue 11).unpublished = 127 ∧
    ((gq 127).queue 11).entries.length + ((gq 127).queue 11).unpublished = 128 ∧ ((gq 127).queue 11).unpublished ≠ 128 ∧ (gr g0 c1).down = none ∧
    fifoLanes (gr g0 c1) c1 f ≠ [] ∧ (gr gf { c1 with ctx := 1 }).pcrew 11 ≠ 1 := by decide +kernel
theorem wit_Pops : let f : Form := .bur { m1 := 7, d := 1, n1 := 11 }
    wellFormed (.pop f) = true ∧ (gq 0).modeOf (fifoBank f) = some 2 ∧ (gq 0).ccrew (fifoBank f) = c1.ctx ∧ ((gq 0).queue 11).entries[((gq 0).queue 11).taken]? = some [5, 6] ∧
    (gf.queue 11).entries.length ≤ (gf.queue 11).taken ∧ g0.modeOf 11 ≠ some 2 ∧ burLanes (gr g0 c1) c1 none ≠ [] := by decide +kernel
theorem wit_SpillsAndTransfers : wellFormed (.spl { ty := 8, d := 3, disp := 2047 }) = true ∧ wellFormed (.fil { ty := 7, lat := 23, dv := true, d := 63, disp := 63 }) = true ∧
    memLanes (gr g0 c1) c1 (.l { ty := 8, d := 3, disp := 2047 }) = [(0, 0)] := by decide +kernel

/-! ### Atomics, ordering and special registers -/

theorem wit_Atomics : let s := st g0 c1 core0; let g := gr g0 c1; let b : BIns := { m1 := 7, m2 := 5, d := 1, a := 2, b := 3, i := 65532 }
    wellFormed (.atom (.bur b)) = true ∧ memLanes g c1 (.bur b) = [(0, 0)] ∧ atomEa g c1 (.bur b) 0 0 % 4 = 0 ∧ wellFormed (.cas (.bur { b with i := 0 })) = true ∧
    translate 0 (s.asidOf g) (atomEa g c1 (.bur b) 0 0) .write s = (s, .ok { pa := 65532, widx := 0 }) ∧
    atomPlaceBad false (atomOp (.bur b)) (memTy (.bur b)) (atomScope (.bur b)) { lane := 0, slot := 0, va := 65532, pa := 65532, widx := 0 } = false ∧
    atomPlaceBad false (atomOp (.bur b)) (memTy (.bur b)) 3 { lane := 0, slot := 0, va := 0, pa := 2 * 2 ^ 50, widx := 0 } = true ∧
    (8 : Nat) ∈ [0, 1, 2, 3, 7, 8] ∧ 2 ^ 64 - 1 < 2 ^ tyWidth 8 := by decide +kernel
theorem wit_Ordering : let s := st g0 c1 core0; let g := gr g0 c1; let f : Form := .bur { m1 := 3, a := 2 }
    crewExecutes g c1 (.bur { m1 := 11 }) = true ∧ wellFormed (.fence (.bur { m1 := 11 })) = true ∧ wellFormed (.seal (.bur {})) = true ∧ c1.handler = false ∧
    wellFormed (.gate (.bur { n1 := 5 })) = true ∧ wellFormed (.rel f) = true ∧ crewExecutes g c1 f = true ∧ syncObjs g c1 f = [(0, 0, 0)] ∧
    translate 0 (s.asidOf g) 0 .write s = (s, .ok { pa := 0, widx := 0 }) ∧ atomBad (syncScope f) 0 0 false 0 8 = false ∧ namedBefore g c1 f 0 = false ∧
    namedBefore (gr g0 c2) { c2 with skip := [0] } f 0 = true := by decide +kernel
theorem wit_Acquires : let s := st g0 c1 core0; let g := gr g0 c1; let f : Form := .bur { m1 := 2, a := 2 }; let n : Form := .bur { m1 := 1, a := 2 }
    wellFormed (.acq f) = true ∧ wellFormed (.acq n) = true ∧ syncScope f = 2 ∧ syncScope n = 1 ∧ syncObjs g c1 f = [(0, 0, 0)] ∧ syncObjs g c1 n = [(0, 0, 0)] ∧
    translate 0 (s.asidOf g) 0 .read s = (s, .ok { pa := 0, widx := 0 }) ∧ atomBad 2 0 0 false 0 8 = false ∧ atomBad 1 0 0 false 0 8 = false ∧ c1.unlanded 0 = false ∧
    (∀ l ∈ (s.core 0).cache, l.dirty = 0) ∧ ({ c1 with mem := [{ deadline := 1, cls := .s, reg := 0, ty := 0, pol := 0, lanes := [], own := [] }] } : Crew).mem ≠ [] := by decide +kernel
/-- A span of 2^48 bytes that ends at 2^56, a span of none, one that ends past 2^56, and an object that is no multiple of 8. -/
theorem wit_Bindings : let x := fun (l : List (Nat × W64)) => gr { g0 with x := xs0 l } c1; let b : BIns := { a := 2, b := 3, c := 4 }
    wellFormed (.bind (.bur b)) = true ∧ burLanes (x []) c1 none = [(0, 0)] ∧ c1.region.buf.length < 768 ∧
    ((x [(3, 0xFF000000000000), (4, 0x1000000000000)]).getX 0 0 3).toNat + ((x [(4, 0x1000000000000)]).getX 0 0 4).toNat = 2 ^ 56 ∧
    ((x []).getX 0 0 4).toNat = 0 ∧ 2 ^ 56 < ((x [(3, 0xFF000000000001)]).getX 0 0 3).toNat + 2 ^ 48 ∧ ((x [(2, 12)]).getX 0 0 2).toNat % 8 ≠ 0 ∧
    ((st g0 c1).ctx 0).binds.length + ((st g0 c1).ctx 0).bindRes < 1024 ∧ wellFormed (.unbind (.bur { a := 2 })) = true := by decide +kernel
theorem wit_SpecialRegisters : let g := fun (v : W64) => gr { g0 with x := xs0 [(2, v)] } c1; let w := fun n => (.bur { a := 2, n1 := n } : Form)
    wellFormed (.csrr (.bur { d := 1, n1 := 0x70 })) = true ∧ wellFormed (.csrr (.s { im := true, imx := 8 })) = true ∧
    wellFormed (.csrwFpf (w 8)) = true ∧ wellFormed (.csrwFcb (w 0x5B)) = true ∧ wellFormed (.csrwBkm (w 0x40)) = true ∧
    wellFormed (.csrwAdr { im := true, sa := 2, imx := 0x63 }) = true ∧ csrwVal (g 0x2AAAAA) c1 (w 0x40) = some (0, 0x2AAAAA) ∧
    (∀ b < 12, (0x2AAAAA : W64).toNat / 4 ^ b % 4 ≠ 3) ∧ (0xC00000 : W64).toNat / 4 ^ 11 % 4 = 3 ∧
    csrwVal (g 0) c1 (.bur { guard := some 4, a := 2, n1 := 8 }) = none ∧ csrwVal (gr g0 c1) c1 (.s { gq := 1, ge := true, im := true, sa := 2, imx := 0x61 }) = none := by decide +kernel

/-! ### Engines -/

/-- A queue of 255 commands. -/
def eng255 : Pkg := { eng := [(0, { last := 255, queue := List.replicate 255 { num := 0, op := 0, core := 0, launch := 0, cluster := 0, asid := 0, dst := 0, src := 0, cnt := 0 } })] }
theorem wit_EngineCommands : let s := st g0 c2 {} { asid := 0, q := 0, lidx := 0, spg := 2 } eng255; let g := gr g0 c2; let f : Form := .bur { d := 1, a := 2, b := 3, c := 4 }
    wellFormed (.cpy f) = true ∧ wellFormed (.cpy2 (.bur { d := 1, a := 2, b := 3, c := 4, e := 5 })) = true ∧ wellFormed (.gath (.l { lat := 40 })) = true ∧
    wellFormed (.coll (.bur { m1 := 4, d := 1, a := 2 })) = true ∧ (s.eng 0).waiting = [] ∧
    (eng255.eng.map fun e => (({ num := 0, op := 0, core := 0, launch := 0, cluster := 0, asid := 0, dst := 0, src := 0, cnt := 0 } : EngCmd) :: e.2.queue).length) = [256] ∧ crewExecutes g c2 f = true ∧ fullCrew s g c2 = true ∧ (burLanes g c2 none).length = c2.strands.length ∧
    acceptFault s g 0 0x70 { dst := 0, src := 0 } = none ∧ acceptFault s g 0 0x70 { dst := 0, src := 0, c := 16777216 } = none ∧
    acceptFault s g 0 0x70 { dst := 0, src := 0, c := 16777217 } = some .engineBad ∧ (s.eng (engKey (s.asidOf g) 0 0)).queue.length = 255 ∧
    c2.region.buf.length < 768 ∧ fullCrew s (gr g0 c1) c1 = false ∧ c1.strands ≠ [] := by decide +kernel
theorem wit_Timelines : let e : EngCtx := { counter := 4, last := 6 }; let s := st g0 c1 core0 { asid := 0, q := 0, lidx := 0 } { eng := [(0, e)] }
    let g := fun v => gr { g0 with x := xs0 [(2, v)] } c1; let f : Form := .bur { a := 2 }
    wellFormed (.tlr (.bur { d := 1 })) = true ∧ wellFormed (.tlw f) = true ∧ crewExecutes (g 0) c1 f = true ∧ s.eng (engKey (s.asidOf (g 0)) (tlClass f) 0) = e ∧
    engOperand (g 4) c1 f (fun _ => 2) 0 = e.counter ∧ engOperand (g 5) c1 f (fun _ => 2) 0 = e.counter + 1 ∧ e.counter + 1 ≤ e.last ∧
    engOperand (g 7) c1 f (fun _ => 2) 0 = e.last + 1 ∧ ∀ l ∈ (s.core 0).cache, l.dirty = 0 := by decide +kernel

/-! ### Control flow -/

/-- A group whose context has a debugger. -/
def dbg (s : State) : State := { s with pkg := { s.pkg with ctxs := [(0, { word := 1, live := true, dbg := true })] } }
theorem wit_SegmentEnds : let h : Crew := { c2 with handler := true }
    wellFormed (.next { n1 := 16777214 }) = true ∧ wellFormed (.nextC { c := 2, n1 := 3, n2 := 4 }) = true ∧ wellFormed (.nextIx { a := 2, n1 := 3, n2 := 2 }) = true ∧
    wellFormed (.exit {}) = true ∧ wellFormed (.rft {}) = true ∧ wellFormed (.barG {}) = true ∧ wellFormed (.barK {}) = true ∧ wellFormed (.send { opnd := 0x1C000 }) = true ∧
    wellFormed (.halt {}) = true ∧ wellFormed (.cmt {}) = true ∧ wellFormed (.cmtSwap { opnd := 0x80000 + 3 * 2 ^ 15 + 4 * 2 ^ 11 }) = true ∧
    wellFormed (.rftNative {}) = true ∧ wellFormed (.barGNative {}) = true ∧ wellFormed (.barKNative {}) = true ∧ h.handler = true ∧ c2.handler = false ∧
    c2.strands.filter (fun l => decide (l.1 ∉ c2.skip ∧ 2 ≤ ((gr { g0 with x := xs2 [(2, 1)] [(2, 2)] } c2).getX l.2 l.1 2).toNat % 2 ^ 32)) = [(1, 0)] := by decide +kernel
theorem wit_YieldsAndTraps : let g := gr { g0 with x := [] } c2; let b : BIns := { n1 := 255 }; let u : BIns := { guard := some 4, n1 := 7 }
    wellFormed (.yield_ {}) = true ∧ wellFormed (.yield_ { guard := some 4 }) = true ∧ wellFormed (.yieldNative {}) = true ∧ burLanes g c2 none ≠ [] ∧ burLanes g c2 (some 4) = [] ∧
    wellFormed (.trap (.bur b)) = true ∧ wellFormed (.trap (.bur u)) = true ∧ wellFormed (.trap (.b { opnd := 7 })) = true ∧
    wellFormed (.trap (.b { gq := 1, ge := true, opnd := 7 })) = true ∧ qGuard g c2 0 false false = true ∧ qGuard g c2 1 true false = false ∧
    wellFormed (.brk (.bur b)) = true ∧ wellFormed (.brk (.bur u)) = true ∧ wellFormed (.brk (.b { opnd := 7 })) = true ∧ ((dbg (st g0 c2)).ctx 0).dbg = true ∧
    ((st g0 c2).ctx 0).dbg = false ∧ c2.brkNop = false ∧ ({ c2 with brkNop := true } : Crew).brkNop = true := by decide +kernel
theorem wit_BranchesAndLoops : let g := fun l => gr (gs l) c1
    wellFormed (.pbr { opnd := 0xE0000, imx := 5 }) = true ∧ wellFormed (.pbr { opnd := 0x5FFFF }) = true ∧ wellFormed (.brt { gq := 1, ge := true, opnd := 0x40000 }) = true ∧
    c1.delay = 0 ∧ qGuard (g []) c1 0 false false = true ∧ qGuard (g []) c1 1 true false = false ∧ 0 < ({ c1 with delay := 2 } : Crew).delay ∧
    wellFormed (.lpset { opnd := 0x8005 }) = true ∧ (g []).getS 0 2 = 0 ∧ (g [(2, 3)]).getS 0 2 = 3 ∧ wellFormed (.lpclr {}) = true ∧ wellFormed (.rpt { opnd := 0x100 }) = true ∧
    rptSlot (st (gs []) c1) (g []) c1 = none := by decide +kernel
theorem wit_Flags : let x := fun n => gr { g0 with flags := [(3, { count := n })] } c1; let b := fun n => gr { g0 with flags := [(3, { count := n })], blocked := [({ c1 with ctx := 1 }, .flag 3 1)] } c1
    (2 : BitVec 15) ≠ 0 ∧ (2 : BitVec 15).toNat ≤ ((x 2).flags.get {} 3).count.toNat ∧ olderWaiter (x 2) 3 = false ∧ ((x 1).flags.get {} 3).count.toNat < (2 : BitVec 15).toNat ∧
    c1.served = none ∧ olderWaiter (b 2) 3 = true ∧ (∀ l ∈ ((st g0 c1 core0).core 0).cache, l.dirty = 0) ∧
    (st g0 c1).group 0 = some (gr g0 c1) ∧ (gr g0 c1).launch = 0 ∧ (st g0 c1).group 9 = none ∧ (31 : Nat) < 32 ∧ ((x 65533).flags.get {} 3).count.toNat + 2 = 65535 := by decide +kernel

/-! ### The matrix engine -/

/-- A package state with one context and one launch, and a state whose core 0 holds a group. -/
def pk (la : Launch) : Pkg := { ctxs := [(0, { word := 1, live := true })], launches := [(0, la)] }
def la1 : Launch := { asid := 0, q := 0, lidx := 0, spg := 1, started := true, placed := [(0, [0])] }
def at0 (g : Group) (k : Core := {}) (p : Pkg := pk la1) (now : Nat := 0) : State := { now := now, cores := [(0, { k with group := some g })], pkg := p }

/-- Bank modes of twelve scratchpad banks; a format word of E4M3 operands. -/
def gsp : Group := { g0 with bkm := 0x555555 }
def gfw (w : W64) : Group := gr (gs [(1, w)]) c1

theorem wit_MatrixIssue : let s := s1 (gs [(1, 0x733)]) c1; let q := fun (g : Group) n => ofSlot g c1 1 { fw := 1, nstep := n }
    let held : Group := { gfw 0x733 with z0 := { active := true, holder := some 3 } }; let d : Group := gr { g0 with x := xs2 [(2, 0)] [(2, 1)] } c2
    wellFormed (q (gfw 0x733) 31).i = true ∧ (gfw 0x733).lane false = none ∧ fullCrew s (gfw 0x733) c1 = true ∧ (q (gfw 0x733) 31).diverge = [] ∧ c1.handler = false ∧
    ((gfw 0x733).acc false).active = false ∧ fwOk (q (gfw 0x733) 31).m.fmt.toNat = true ∧ fwMasked (s.fn 0).fmask 0x733 = false ∧ (q (gfw 0x733) 31).bad = false ∧
    (q (gfw 0x733) 31).m.steps % fwBlock 0x733 = 0 ∧ (q (gfw 0x733) 30).m.steps % fwBlock 0x733 ≠ 0 ∧ fwOk (q (gfw 0xFFFFFFFF) 31).m.fmt.toNat = false ∧
    (held.acc false).active = true ∧ (held.acc false).holder ≠ some c1.ctx ∧ fullCrew (st g0 c1) (gr g0 c1) c1 = false ∧
    (ofTile d c2 0 { a := 2, b := 3, c := 4 }).diverge = [1] ∧ fullCrew (st g0 c2) d c2 = true ∧ wellFormed (.mmaT { a := 2, b := 3, c := 4 }) = true ∧
    (ofTile (gr { g0 with x := xs0 [(3, 2 ^ 63)] } c1) c1 2 { a := 2, b := 3 }).bad = true ∧ ({ g0 with compute := some { z := false, op := 3, issued := 0, ctx := 0 } } : Group).lane false ≠ none := by
  decide +kernel
/-- An MXS that may start; a step within a block and one at a block's end; the last column of MXR at the end of the scratchpad; a body that has ended. -/
def mS (n k : Nat) : Macro := { z := false, op := 1, fmt := 0x733, steps := k, issued := 0, ctx := 0, started := true, at_ := n, gotA := 128 * n, gotB := 256 * n }
def mR : Macro := { z := false, op := 2, fmt := 0x733, steps := 1, issued := 0, ctx := 0, started := true, at_ := 255, locA := 262144 }
theorem wit_matrix_starts : let g := { g0 with compute := some { mS 0 32 with started := false } }
    g.lane false = some { mS 0 32 with started := false } ∧ macroReady g (at0 g {} (pk la1) 2).cycle { mS 0 32 with started := false } = true ∧ (mS 0 32).kindA ≠ 1 := by decide +kernel
theorem wit_matrix_steps : ∀ m ∈ [mS 0 32, mS 31 32, mS 31 64], let s := at0 { gsp with compute := some m } {} (pk la1) 200
    stepBytes 0 m s = (s, .ok (some [List.replicate 128 0, List.replicate 256 0])) ∧ m.start + m.at_ + m.delay ≤ s.cycle ∧ fwScaled m.fmt.toNat = false ∧ m.at_ < m.steps ∧ stepArrived s m = true ∧
    stepHazard 0 m s = false := by decide +kernel
theorem wit_matrix_retires : mR.at_ < 256 ∧ mR.start + mR.at_ + mR.delay ≤ (at0 gsp {} (pk la1) 510).cycle ∧ mR.locA + 32768 * outBytes mR.fmt.toNat = 393216 ∧
    ∀ b < 12, gsp.modeOf b = some 1 := by decide +kernel
theorem wit_rpt_repeats : let c : Crew := { c1 with rpt := some { left := 1, slot := {}, mxs := false, rptIdx := 0 } }
    inBody (st g0 c) (gr g0 c) c = false ∧ (gr g0 c).compute = none := by decide +kernel
theorem wit_BlockSums : FV.isNan (.nan false) = true ∧ (.inf true ∈ [FV.inf true, .inf false]) ∧ (∀ p ∈ [FV.inf true], p.isNan = false) ∧ .inf (!true) ∉ [FV.inf true] ∧
    (254 : Nat) < 255 ∧ (num ((codeFmt 4).read 0)).isSome = true ∧ (num (.fin true 3 (-2))).isSome = true := by
  refine ⟨rfl, by decide, by decide, by decide, by decide, rfl, rfl⟩

/-! ### Commit points and traps -/

/-- A crew at a commit point with `ops` to perform and `buf` buffered. -/
def cc (ops : List CommitOp) (buf : List BufEntry := []) : Crew := { c1 with region := { due := true, ops := ops, buf := buf } }
/-- A kernel of two segments, the second of which is its trap handler, over the code `l`. -/
def kn2 (l : List Nat) : Kernel := {
  asid := 0, kobj := 0, kidx := 0, version := 30, code := octets l, trapSeg := some 1
  segs := [{ off := 0, len := l.length, prio := 5, entry := true, loopH := false, trapH := false }, { off := 0, len := l.length, prio := 9, entry := false, loopH := false, trapH := true }] }
def laK (l : List Nat) : Launch := { la1 with kernel := some (kn2 l) }
def trap7 : FaultRec := { kind := .trapOp, code := 7, lanes := [(0, 0)] }

theorem settled (c : Crew) (la : Launch) (k : Core) (h : c.inflight = [] ∧ c.mem = [] ∧ c.accepting = []) : Settled (st g0 c k la) 0 (gr g0 c) c := by
  refine ⟨rfl, h.1, h.2.1, h.2.2, rfl, rfl, rfl, ?_, ?_⟩
  · unfold State.asidOf; simp only [st, gr, g0, State.launch, State.ctx, SMap.find?]; rw [if_pos trivial]; split <;> rfl
  · intro x hx; simp only [st, List.mem_singleton] at hx; subst hx; rfl
theorem wit_Closing (o : List CommitOp) (b : List BufEntry) (la : Launch) (k : Core) : Closing (st g0 (cc o b) k la) 0 (gr g0 (cc o b)) (cc o b) := by
  refine ⟨settled (cc o b) la k ⟨rfl, rfl, rfl⟩, rfl, rfl, rfl, rfl, rfl, rfl, rfl, rfl, rfl, rfl, rfl, rfl⟩
theorem wit_CommitPoints : let l : LaneAcc := { lane := 0, slot := 0, va := 124, pa := 124, bytes := [1, 2, 3, 4] }; let s := st g0 (cc [] [.store 0 [l]]) core0
    (gr gsp c1).modeOf (393212 / 2 ^ 15 % 16) = some 1 ∧ isHbm l.pa = true ∧ l.widx = 0 ∧ l.pa % 128 + l.bytes.length = 128 ∧ (s.core 0).dfifo = [] ∧ s.hit 0 (lineOf l.pa) = some line0 ∧
    ((st g0 (cc [.send [(0, 0, 1)]]) {} (laK [0xC3])).launch 0).fjoset = false ∧ (kn2 [0xC3]).segs[1]?.isSome = true ∧ intactStrands { g0 with live := [0] } (cc []).strands = true ∧ (cc []).handler = false ∧
    (gr g0 c1).live ≠ [] ∧ ∀ x ∈ ({ g0 with live := [0] } : Group).live, ∃ y ∈ [((0, 0, 0xFFFFFFFF) : Nat × Nat × Nat)], x = y.2.1 * 64 + y.1 := by decide +kernel
/-- A latched TRAP of a kernel with a handler; a replay that finds it, and one that finds none; and a fault that replay has named. -/
theorem wit_TrapDelivery : let c : Crew := { c1 with region := { latched := some trap7, due := true } }; let b := fun (f : FaultRec) => ({ c1 with delivered := some f } : Crew)
    let g := fun f => ({ g0 with blocked := [(b f, .delivery)] } : Group); let s := fun f l => at0 (g f) {} (pk (laK l)); let t : FaultRec := { trap7 with replayed := true }
    routeOf trap7 = .handler ∧ handlerOf (st g0 c {} (laK [0xCB, 0x07])) (gr g0 c) c = some { seg := 1, prio := 9, pc := 0 } ∧ c.handler = false ∧ c.fjoset = false ∧
    awaiting (g trap7) false = some (b trap7, trap7) ∧ (replayTrap 0 (b trap7) (s trap7 [0xCB, 0x07])).map (fun f => (routeOf f, f.kind, f.code)) = some (.handler, .trapOp, 7) ∧
    replayTrap 0 (b trap7) (s trap7 [0xC3]) = none ∧ awaiting (g t) true = some (b t, t) ∧ (g t).nested = none ∧ t.boff = (b t).pc ∧
    handlerOf (s t [0xCB, 0x07]) (g t) (b t) = some { seg := 1, prio := 9, pc := 0 } := by decide +kernel
/-- A native-only crew with an entry for the handler; the last RFT of a handler; and a fault that kills a started launch. -/
theorem wit_trap_ends : let c : Crew := { c1 with fjoset := true, region := { latched := some trap7, due := true } }
    let p : Pkg := { trans := [(0, { key := { hash := 0, tver := 0, vbc := 0, fmask := 0, dom := 0 }, entries := [(4, 9)], trapE := some 0 })] }
    let n : Nested := { held := c1, fault := trap7 }; let h : Crew := { cc [.rft] with handler := true }
    burhusKernel (st g0 c {} la1 p) (gr g0 c) = false ∧ handlerOf (st g0 c {} la1 p) (gr g0 c) c = some { seg := 0, prio := 4, pc := 9 } ∧ (gr { g0 with nested := some n } h).nested = some n ∧
    n.frontier = {} ∧ n.held.handler = false ∧ h.handler = true ∧ h.strands ≠ [] ∧ routeOf { kind := .badTarget } = .kill ∧
    (st g0 c1).pkg.launches.find? 0 = some { asid := 0, q := 0, lidx := 0, spg := 2, started := true, placed := [(0, [0])] } ∧ (st g0 c1).pkg.eng = [] := by decide +kernel

/-! ### Events of a core -/

theorem wit_CrewEvents : let late : Crew := { c1 with mem := [{ deadline := 0, cls := .s, reg := 0, ty := 0, pol := 0, own := [], lanes := [] }] }
    let a : Ready := { crew := { c1 with prio := 5, seg := 1 }, whole := false }; let b : Ready := { crew := { c1 with prio := 5, seg := 2, ctx := 1 }, whole := false }
    let w : Group := { g0 with blocked := [(c1, .flag 3 2)], flags := [(3, { count := 2 })] }
    lateResult (st g0 late) late = true ∧ ({ c1 with hold := some (.flag 3 2) } : Crew).hold = some (.flag 3 2) ∧ (gr g0 c1).stopReq = false ∧ (gr g0 c1).frontier = {} ∧
    (at0 { g0 with frontier := { ready := [b, a] } }).group 0 = some { g0 with frontier := { ready := [b, a] } } ∧ g0.running = none ∧ b.crew.prio = a.crew.prio ∧ a.crew.seg < b.crew.seg ∧
    ({ c1 with region := { count := 1 } } : Crew).region.count ≠ 0 ∧ 1024 ≤ ({ a with passes := 1024 } : Ready).passes ∧ waitOver (at0 w) 0 w [] c1 (.flag 3 2) = true ∧
    0 < ({ g0 with atBarG := 2 } : Group).atBarG ∧ ({ g0 with atBarG := 2 } : Group).atBarG = g0.live.length ∧
    (∀ r ∈ [a, b], r.whole = false ∧ r.crew.yielded = false ∧ r.crew.mem = [] ∧ r.crew.accepting = [] ∧ r.crew.inflight = []) ∧ g0.nested = none ∧ g0.forced = false ∧
    g0.forcedRun = false ∧ ({ g0 with forcedRun := true } : Group).forcedRun = true ∧ c1.handler = false ∧ c1.unlanded 0 = false ∧ late.unlanded 0 = true := by decide +kernel
theorem wit_CoreMemoryEvents : let q : LinkReq := { asid := 0, pa := 2 * 2 ^ 50, bytes := [1, 2] }; let l : LaneAcc := { lane := 0, slot := 0, va := 124, pa := 124 }
    let g : Group := { gf with fifo := [(11, { inbound := [(0, [5, 6])] })] }; let b : Group := { g0 with blocked := [(c1, .pageFault 65536)] }
    g.modeOf 11 = some 2 ∧ (∃ e ∈ (g.queue 11).inbound, e.1 ≤ (at0 g).cycle) ∧ ((at0 g0 { core0 with dfifo := [.bytes 0 0 0 {}] }).core 0).dfifo = [.bytes 0 0 0 {}] ∧
    (at0 g0 { link := [q] }).group 0 = some g0 ∧ ((at0 g0 { link := [q] }).core 0).link = [q] ∧ linkUp (at0 g0 { link := [q] }) q.asid q.pa = true ∧
    (st g0 c1 core0).hit 0 (lineOf l.pa) = some line0 ∧ maskAt (l.pa % 128) 4 &&& line0.valid = maskAt (l.pa % 128) 4 ∧ isHbm l.pa = true ∧ (at0 b).group 0 = some b ∧
    (at0 b).asidOf b = 0 ∧ (∀ x ∈ b.blocked, x.1.handler = false) ∧
    ({ deadline := 0, cls := .x, reg := 1, ty := 7, pol := 0, own := [], lanes := [l], tag := some 0 } : MemReq).done (st g0 c1 core0) = true ∧ l.widx = 0 := by decide +kernel

/-! ### Events of the memory system -/

/-- Line 0 in L2, dirty or not, with a merge that waits for it; a context that logs. -/
def l2 (d : Bool) (r : List MergeReq := []) (c : Ctx := {}) : State := { pkg := { l2 := [(0, { bank := 0, dirty := d })], mergeQ := [(0, r)], ctxs := [(0, c)] } }
def logs : Ctx := { ulc := 0x1501, live := true }
theorem wit_LineEvents : let r : MergeReq := { line := 0, data := 0, mask := 1, w := {} }; let e : State := {}
    e.pkg.l2.find? 0 = none ∧ (fetchMeta 0 e).2 = true ∧ isHbm (2 ^ 43 * 128) = false ∧ e.verifies 0 = true ∧ (e.pkg.l2.filter fun e => e.2.bank = 0 && e.1 % 128 = 0 && e.2.pins = 0).length < 12 ∧
    ({ pkg := { meta_ := [(0, { poison := true })] } } : State).verifies 0 = false ∧ (l2 true).pkg.l2.find? 0 = some { bank := 0, dirty := true } ∧
    (l2 false).pkg.l2.find? 0 = some { bank := 0 } ∧ (l2 true [r]).pkg.mergeQ.get [] 0 = [r] ∧ r.w.asid = none ∧ logs.span = true ∧
    winOf ((l2 true [{ r with w := { asid := some 0 } }] logs).ownerOf 0) = 0 ∧ logs.rph + 192 + logs.sealRoom - logs.ult ≤ logs.ring' ∧ 192 ≤ logs.ring' ∧ logs.logTrap = false ∧
    isHbm 124 = true ∧ granOk (granOf 124) = true ∧ 124 % 128 + 4 ≤ 128 ∧ (l2 true).pkg.mergeQ.get [] ((l2 true).homeBank (lineOf 124)) = [] := by decide +kernel
/-- A table at address 0 whose entry 0 points to itself and whose entry 1 is a leaf, in the L2: the walk of page 1 ends at it. -/
def walks : State := { pkg := {
  ctxs := [(0, { word := 1, live := true })], owners := [(0, 0)], l2 := [(0, { bank := 0, data := 3 + 0x10C31 <<< (64 : Nat) })]
  walk := [(0, [{ line := 0, data := 3 + 0x10C31 <<< (64 : Nat), users := [] }])] } }
theorem wit_page_walks : (walks.ctx 0).valid = true ∧ isHbm (walks.ctx 0).root = true ∧ walks.ownerOf (granOf (walks.ctx 0).root) = 0 ∧
    (walkFrom 0 0 (walks.ctx 0).fnum (65536 % 2 ^ 56) 4 (walks.ctx 0).root walks).2 = (.leaf 8 0x10C31, 24) ∧ Nat.testBit 0x10C31 10 = true ∧ Nat.testBit 0x10C31 11 = true := by decide +kernel
theorem wit_RecoveryAndTranslationEvents : let g : MetaGroup := { chunk := 3, blk := { major := 1 } }; let m : State := { pkg := { metaDirty := [3], metaLog := [g] } }
    let big : MetaGroup := { chunk := 3, blk := {}, nodes := List.replicate 4095 (0, 0, {}) }
    let full : Ctx := { ulc := 0x1502, rph := 2 ^ 21 }; let run : Ctx := { sealing := some { num := 1, lpos := 0, chain := 0, recorded := true }, sealQueue := [none] }
    3 ∈ m.pkg.metaDirty ∧ m.pkg.metaLog.find? (fun e => e.chunk = 3) = some g ∧ g.committed = false ∧ ({ g with committed := true } : MetaGroup).committed = true ∧
    logRoom m (formGroup 3 (m.ctr 3) m).2 = true ∧ big.size = 262144 + 64 ∧ logRoom m big = false ∧ ({ clearing := true } : Ctx).clearing = true ∧
    full.recv = true ∧ 7 * full.ring' < 8 * (full.rph - full.ult) ∧ full.sealing = none ∧ run.sealQueue = [none] ∧ (511 : Nat) ≤ 511 ∧ ownerCtxs ({} : State) 511 = [] ∧
    ({} : Ctx).valid = false ∧ invalOk 1 = true ∧ invalOk (2 ^ 128 - 1) = false ∧
    (let l : Ctx := { ulc := 0x1501, logGr := [5], rph := 64 }; l.uld < l.rph ∧ l.uld / 128 = (l.rph - 1) / 128 ∧ l.logPa 0 = some (5 * 2 ^ 21)) ∧
    ({ ulc := 0x1502, sealGr := some 9, logGr := [5] } : Ctx).sealGr ≠ some (0 / 2 ^ 21) := by decide +kernel
/-- No store is under way in a state that lists none. -/
theorem wit_drained (p : Pkg) (h : p.mergeQ = []) : Drained { pkg := p } := ⟨fun _ => ⟨rfl, rfl⟩, fun _ => by simp [h, SMap.get]⟩

/-! ### Engines, launches, translations and placement -/

/-- A command that copies half of the scratchpad onto the other half, as the engines 0 of die 0 find it. -/
def copyHalf : EngCmd := { num := 1, op := 0x70, core := 0, launch := 0, cluster := 0, asid := 0, dst := 14 * 2 ^ 60 + 196608, src := 14 * 2 ^ 60, cnt := 196608, released := true }
def pkE (c : EngCmd) (e : EngCtx := {}) : Pkg := { pk la1 with eng := [(0, { e with queue := [c] })], runs := [(0, { ctx := 0, num := c.num, doneAt := 768 })] }
theorem wit_accept : let r : AcceptReq := { cmd := copyHalf, cls := 0, reg := 1, deadline := 4 }; let c : Crew := { c1 with accepting := [r] }
    let s := st g0 c {} la1 { eng := eng255.eng.map fun e => (e.1, { e.2 with waiting := [(0, 0), (1, 0)] }) }
    s.crew 0 = some (gr g0 c, c) ∧ (s.eng (engKey 0 0 0)).queue.length = 255 ∧ (s.eng (engKey 0 0 0)).waiting.head? = some (0, c.ctx) ∧ c.region.buf.length < 768 := by decide +kernel
theorem wit_copy : let s := at0 gsp {} { pk la1 with eng := [(0, { queue := [copyHalf], deficit := 196608 })], arb := [(0, 1)] }
    arbitrate 0 0 (257 * (s.pkg.eng.length + 1)) (s.pkg.arb.get 0 0) s = (s, some (0, copyHalf, 0)) ∧ copyHalf ∈ (s.eng 0).queue ∧
    ((s.eng 0).queue.map EngCmd.num).Nodup ∧ copyHalf.op ≠ 0x73 ∧ (s.core 0).dfifo = [] ∧ (s.core 0).link = [] ∧ s.group 0 = some gsp ∧ gsp.launch = copyHalf.launch ∧
    gsp.cluster = copyHalf.cluster ∧ copyHalf.was = [] ∧ copyHalf.dst / 2 ^ 60 % 16 = 14 ∧ copyHalf.src / 2 ^ 60 % 16 = 14 ∧ copyHalf.src / 2 ^ 32 % 512 = 0 ∧
    copyHalf.dst / 2 ^ 32 % 512 = 0 ∧ copyHalf.dst % 2 ^ 19 + 196352 + 256 = 393216 ∧ ∀ b < 12, gsp.modeOf b = some 1 := by decide +kernel
theorem wit_engine_ends : let d : EngCmd := { copyHalf with done := 196608, started := true }; let s := at0 gsp {} (pkE d) 768
    running s 0 0 0 = some ({ ctx := 0, num := 1, doneAt := 768 }, d) ∧ moveTotal d ≤ d.done ∧ performed s 0 d = true ∧ d.flag = none ∧ (s.eng 0).ended = [] ∧ d.num = (s.eng 0).counter + 1 := by decide +kernel
theorem wit_engine_faults : let d : EngCmd := { copyHalf with src := 0x10000, started := true }; let s := at0 gsp {} (pkE d) 768
    running s 0 0 0 = some ({ ctx := 0, num := 1, doneAt := 768 }, d) ∧ d.done < moveTotal d ∧ parkedAt d s = some (0x10000, .read) ∧
    s.pkg.launches.find? d.launch = some la1 ∧ la1.complete = false ∧ la1.status = none := by decide +kernel
/-- An all-gather of one word of two members, from line 1 into line 2; this package is member 0. -/
def gather : EngCmd := { copyHalf with op := 0x73, dst := 0, src := 0, cnt := 0, kind := 1, started := true }
def desc0 : BitVec 512 :=
  BitVec.ofNat 512 (1 + 5 <<< (32 : Nat) + 128 <<< (64 : Nat) + 256 <<< (128 : Nat) + 1 <<< (192 : Nat) + 64 <<< (256 : Nat) + 2 <<< (320 : Nat))
def pkC : Pkg := { pkE gather with colls := [{ domain := 0, collid := 5, die := 0, ctx := 0, num := 1, desc := desc0, own := [9, 0, 0, 0], wrote := 8 }], l2 := [(1, { bank := 0, data := 9 }), (2, { bank := 0 })] }
theorem wit_collective : let s := at0 gsp { tlb := [page] } pkC; let d : CollDesc := { flagw := 0, flgen := false, rank := 0, nmem := 2, memtab := 64, count := 1, recv := 256, send := 128, collid := 5 }
    let x : CollRun := { domain := 0, collid := 5, die := 0, ctx := 0, num := 1, desc := desc0, own := [9, 0, 0, 0], wrote := 8 }; let m : EngCmd := { gather with marked := true }
    let r := collRecv 0 m d [9, 0, 0, 0, 7, 0, 0, 0] 8 8 (modCmd 0 1 (fun y => { y with marked := true }) s)
    collCmd s 0 5 = some (x, gather) ∧ gather.parked = none ∧ gather.refetch = false ∧ collDesc desc0.toNat = d ∧ (s.ctx 0).sealing = none ∧ (s.ctx 0).logHeld = false ∧
    gather.flag = none ∧ tyBytes gather.ty.toNat = 4 ∧ collSend 0 gather d 4 4 x.own s = (s, [9, 0, 0, 0], none) ∧ (collSend 0 gather d 4 4 [] s).2 = ([9, 0, 0, 0], none) ∧
    collResult 1 0 0 1 0 ([[9, 0, 0, 0], [7, 0, 0, 0]].set 0 [9, 0, 0, 0]) = [9, 0, 0, 0, 7, 0, 0, 0] ∧ r.2 = (8, none) ∧ performed r.1 0 m = true ∧
    (s.ctx 0).span = false ∧ (s.ctx 0).recv = false := by decide +kernel
theorem wit_EngineEvents : ∀ v ∈ [[(1 : Byte), 2, 3, 4], [5, 6, 7, 8]], v.length = 1 * tyBytes 0 := by decide


/-- A page table in granule 0 whose entry 1 maps page 1 onto itself; at its start a launch record, and behind it a reference to the native package 0. -/
def queueQ : Queue := { en := true, qlog := 6, qbase := 512, widx := 1, credit := 1 }
def nref : Nat := 0x46524E46
def rec0 : Nat := 3 + 0x10080 <<< (64 : Nat) + 1 <<< (288 : Nat) + 0xFFFFFFFF <<< (192 : Nat)
def key0 : Key := { hash := 0, tver := 0, vbc := 0, fmask := 0, dom := 0 }
def part0 : Part := { record := partReset 0 ||| (1 : BitVec 256) <<< (192 : Nat) }
def takes : State := { pkg := {
  ctxs := [(0, { word := 1, live := true, queues := [(0, queueQ)] })], owners := [(0, 0)], parts := [(0, part0)]
  trans := [(0, { key := key0, fns := [0], entries := [(0, 0)] })]
  l2 := [(0, { bank := 0, data := BitVec.ofNat 1024 (3 + 0x10C31 <<< (64 : Nat)) }), (512, { bank := 0, data := BitVec.ofNat 1024 rec0 }), (513, { bank := 0, data := BitVec.ofNat 1024 nref })] } }
def okOf {α : Type} (x : State × Except Nat α) : Bool := x.2.isOk
theorem wit_take : let s := takes; let s₁ := ((modQueue 0 0 (fun x => { x with credit := x.credit - 1 }) s).modPkg fun p => { p with nextLaunch := p.nextLaunch + 1 })
    mayTake s 0 0 = true ∧ readCtx 0 65536 128 s = (s, .ok (leBytes 128 rec0)) ∧ okOf (resolve 0 0 0 (leNat (leBytes 128 rec0)) s₁) = true ∧
    (queueQ.widx - queueQ.ridx).toNat ≤ 2 ^ queueQ.qlog.toNat ∧ 2 ^ queueQ.qlog.toNat < (65 : BitVec 32).toNat ∧ mayTake {} 0 0 = false := by decide +kernel
def knB : Kernel := kn2 [0xC3]
theorem wit_launch : let l : Launch := { asid := 0, q := 0, lidx := 0, kernel := some knB }
    let s : State := { pkg := { launches := [(0, l)], ctxs := [(0, { word := 1, live := true, queues := [(0, { head := some 0 })] })], parts := [(0, part0)]
                                banks := [(0, 0x80000000)] } }
    let w : Launch := { l with record := BitVec.ofNat 1024 (1 <<< (448 : Nat)) }
    ((s.ctx 0).queues.get {} 0).head = some 0 ∧ s.pkg.launches.find? 0 = some l ∧ knB.paramSz = 0 ∧ eligible s l = true ∧ mayStart s 0 = true ∧ startWait s 0 = 0 ∧
    startFails s l = none ∧ headsBefore s 0 0 = [] ∧ dueCompletions s 0 = [] ∧ eligible s w = false := by decide +kernel
theorem wit_bounds : let l : Launch := { la1 with runSince := some 0 }; let s : State := { at0 g0 {} (pk l) (2 ^ 60) with agenda := [] }
    let e : Launch := { asid := 0, q := 7, lidx := 3, started := true, ended := 1 }; let r : Ring := { firstAt := some 0, etim := 1, pending := 1 }
    timeLimit s 0 ≤ l.ran + (s.now - 0) ∧ l.complete = false ∧ l.status = none ∧ completable ({ pkg := pk e } : State) 0 = true ∧ r.etim ≠ 0 ∧ 0 < r.pending ∧
    0 + 1600 * r.etim.toNat ≤ 1600 ∧ (({ pkg := pk e } : State).ctx 0).ring.en = false := by decide +kernel

/-- A package of one bundle, HALT with its commit point, that stands for the kernel whose hash is 0. -/
def halt1 : Nat := 0xC4 + (8 * 2 ^ 24) <<< (448 : Nat)
def pkg1 (groomed sig : Nat) : List Byte :=
  leBytes 64 (0x58504A46 + 1 <<< (32 : Nat) + 4 <<< (40 : Nat) + groomed <<< (211 : Nat) + 1 <<< (300 : Nat) + 0xFFFFFF <<< (304 : Nat) +
    1 <<< (352 : Nat) + 48 <<< (384 : Nat) + 1 <<< (416 : Nat) + sig <<< (480 : Nat)) ++
  leBytes 64 halt1 ++ leBytes 64 (0x42545346 + 1 <<< (32 : Nat) + 1 <<< (40 : Nat) + 48 <<< (96 : Nat)) ++ leBytes 64 0 ++ List.replicate sig 7 ++ List.replicate ((64 - sig % 64) % 64) 0
def xpkg1 (groomed sig : Nat) : XPkg := (parsePkg (pkg1 groomed sig)).getD { header := 0, code := [], side := [], entries := [], twins := [], body := [], sig := [] }
def side1 : List CPoint := [{ bidx := 0, seg := 0, boff := 0, locs := [] }]
theorem wit_package : (parsePkg (pkg1 1 0)).isSome = true ∧ (xpkg1 1 0).groomed = true ∧ (xpkg1 1 0).chash = 0 ∧ (xpkg1 1 0).vbc = 0 ∧ (xpkg1 1 0).fmask = 0 ∧
    (match validate 0 true (xpkg1 1 0) with | .ok x => x == side1 | .error _ => false) = true := by decide +kernel
def trK : Trans := { key := key0 }
def lw : Launch := { la1 with kernel := some knB, key := some key0, waitTr := true }
theorem space_left (n : Nat) (h : n ≤ 2 ^ 32) (s : State) (e : s.pkg.trans = []) (r : s.svc.retired = []) : makeSpace n 1 s = (s, some cacheBase) := by
  have f : decide (cacheBase + n ≤ cacheBase + 2 ^ 32) = true := by simpa using h
  simp only [makeSpace, cachePlace, e, r, natSort, natInsert, List.filterMap_nil, List.filter_nil, List.map_nil, List.append_nil, List.foldr_cons, List.foldr_nil,
    List.find?_cons, List.all_nil, Bool.and_true, f]
theorem wit_TranslationEvents : let s : State := { pkg := pk lw }; let i : State := { pkg := { pk { la1 with tr := some 0, kernel := some knB } with trans := [(0, trK)], nextTrans := 1 } }
    let o : State := { pkg := { trans := [(0, { trK with grooming := true })], nextTrans := 1 } }
    (s.launch 0).waitTr = true ∧ liveLaunch (s.launch 0) = true ∧ (s.launch 0).kernel = some knB ∧ (s.launch 0).key = some key0 ∧ awaits key0 lw = true ∧
    (s.pkg.launches.filter fun l => awaits key0 l.2).head? = some (0, lw) ∧ findTrans s key0 false = none ∧ findTrans i key0 (i.part 0).locked = some 0 ∧ groomable i 0 = true ∧ o.trans 0 = some { trK with grooming := true } ∧
    o.pkg.launches = [] ∧ o.pkg.nextTrans ≠ 0 ∧ makeSpace 65536 2 o = (o, some cacheBase) ∧ lockedUse o 0 = false ∧ trK.stale = false ∧
    ([(0, { trK with conf := [(0, 16)] })] : List (Nat × Trans)).find? (fun t => t.2.conf.any fun c => 16 ≤ c.2) = some (0, { trK with conf := [(0, 16)] }) := by decide +kernel

/-- A launch whose one cluster is not placed yet, in a partition that holds region 0 and whose slice is function 0's. -/
def lone : Launch := { la1 with grid := 1, placed := [], tr := some 0, spg := 64 }
def pkS (l : Launch) (p : Part := { part0 with slice := some 0 }) : Pkg := { pk l with parts := [(0, p)] }
theorem wit_placement : let s : State := { pkg := pkS lone }
    placementList s 0 = [(0, lone)] ∧ (s.part 0).pending = [] ∧ (s.part 0).unlock = false ∧ (s.part 0).reserve = none ∧ (s.part 0).slice ≠ none ∧
    unplaceable s 0 lone = false ∧ placeable s lone = true ∧ lone.suspended = [] ∧ lone.grid = lone.nextCluster + 1 ∧ firstFit s 0 0 0 lone = some (0, [0]) := by decide +kernel
theorem wit_stops : let l : Launch := { la1 with preempt := [0] }; let g : Group := { gr g0 c1 with stopReq := true }; let q : Group := { g0 with stopReq := true }
    let x : Saved := { cluster := 0, groups := [(0, g0)] }; let r : State := { pkg := pkS { la1 with placed := [], suspended := [x] } }
    la1.preempt = [] ∧ la1.placed = [(0, [0])] ∧ (at0 g0).group 0 = some g0 ∧ (at0 g).crew 0 = some (g, c1) ∧ g.stopAt ≤ (at0 g).now ∧ g.blocked = [] ∧ g.compute = none ∧
    c1.region.buf = [] ∧ c1.accepting = [] ∧ c1.region.pushed = [] ∧ c1.handler = false ∧ q.still = true ∧ (at0 q {} (pk l)).group 0 = some q ∧ q.launch = 0 ∧ q.cluster = 0 ∧
    canRestore r 0 x = true ∧ (r.core 0).cache = [] ∧ ((at0 q {} (pk l)).core 0).dfifo = [] ∧ (pk l).mergeQ = [] ∧ ((r.ctx 0).spillGr.find? 0) = none ∧
    ({ spillGr := [(0, 7)] } : Ctx).spillGr.find? 0 = some 7 := by decide +kernel
theorem wit_SchedulingEvents : let on : Nat → Fn := fun k => { record := fnReset k ||| (1 : BitVec 128) <<< (50 : Nat) }
    let s : State := { now := 1600000, pkg := { pkS la1 { part0 with slice := some 1 } with fns := [(0, on 0), (1, on 1)] } }
    let b : State := { now := 3200000, pkg := pkS la1 { part0 with outgoing := some (0, 0), slice := some 1 } }; let h : Launch := { la1 with headSince := some 0 }
    (s.part 0).sliceAt + sliceOf s 0 1 ≤ s.now ∧ ((fnsOf s 0).filter (1 < ·) ++ (fnsOf s 0).filter (· ≤ 1)).find? (hasWork s) = some 0 ∧
    (b.part 0).outgoing = some (0, 0) ∧ 0 + 1600 * (100 * (b.part 0).opb) ≤ b.now ∧ (b.part 0).slice ≠ some 0 ∧ recPclass la1.bits = 0 ∧
    0 + 1600 * (b.part 0).age ≤ b.now ∧ h.headSince = some 0 ∧ la1.headSince = none ∧ ({ la1 with unplacedAt := some 0 } : Launch).abandoned = false := by decide +kernel

/-! ### The host's stores, and the commands of owner and function -/

/-- A package that has booted and whose owner is endpoint 1 of class 2, with one service bank; that owner's header, and one of function 0's mailbox. -/
def m2 : Master := { cls := 2, ep := 1 }
def m3 : Master := { cls := 3, ep := 2 }
def hd (m : Master) : CmdHdr := { from_ := m, tag := 7 }
def svc0 : Svc := { booted := true, owner := some m2 }
def own (p : Pkg := {}) (v : Svc := svc0) (now : Nat := 0) : State := { now := now, pkg := p, svc := v }
theorem owns (p : Pkg) (now : Nat) : Owns (hd m2) (own p svc0 now) := ⟨rfl, rfl, by decide⟩
def mb (f : Nat) : CmdHdr := { from_ := { cls := 0, ep := f }, tag := 7 }
def fnOn (k : Nat) (extra : Nat := 0) : Fn := { record := fnReset k ||| BitVec.ofNat 128 (2 ^ 50 + extra) }

/-- A window onto slot 0 of function 0 at page 1 of the table of `takes`; a page that is not mapped; and messages from doorbells. -/
def hw (v : Nat) : State := { takes with pkg := { takes.pkg with fns := [(0, { record := fnReset 0, hw0 := BitVec.ofNat 64 (2 ^ 63), hw1 := BitVec.ofNat 64 v })] } }
theorem wit_host_controls : let v : BitVec 64 := 0x8600000000010000; let q : Queue := { en := true }; let s : State := { pkg := { ctxs := [(0, { word := 1, live := true, queues := [(0, q)] })] } }
    v.getLsbD 63 = true ∧ (v.extractLsb' 56 5).toNat = 6 ∧ (0x9500000000000000 : BitVec 64).extractLsb' 56 5 = 21 ∧ ((s.ctx 0).queues.get {} 0).en = true ∧
    ((s.ctx 0).queues.get {} 1).en = false ∧ (s.ctx 0).recv = false ∧ (s.ctx 0).ring.held = [] ∧ (s.ctx 0).ring.en = false ∧
    slotCtx s 0 0 = some 0 ∧ slotCtx s 0 1 = none ∧ (s.fn 511).hw0.getLsbD 63 = false := by decide +kernel
theorem wit_host_window : ((hw 65536).fn 0).hw0.getLsbD 63 = true ∧ slotCtx (hw 65536) 0 (((hw 65536).fn 0).hw0.extractLsb' 0 12).toNat = some 0 ∧
    svcTranslate 0 65660 .read (hw 65536) = (hw 65536, .ok { pa := 65660, widx := 0 }) ∧ (physRead 65660 4 (hw 65536)).2.isSome = true ∧ 65660 % 128 + 4 = 128 ∧
    (svcTranslate 0 131072 .read (hw 131072)).2 = .error .addrUnmapped ∧ (svcTranslate 0 65660 .write (hw 65536)).2.isOk = true ∧
    (physWrite {} 65660 [1, 2, 3, 4] (hw 65536)).2 = true := by decide +kernel
theorem wit_HostWrites : let msg := encodeMsg 0x02 { tag := 7, from_ := m2 } []; let fmsg := encodeMsg 0x63 { tag := 7, from_ := { cls := 0, ep := 0 } } [0, 0, 65536]
    decodeMsg m2 msg = some (2, { tag := 7, from_ := m2 }, some []) ∧ answers (hd m2) 2 (own) = true ∧ (mkCmd 2 (hd m2) []).isSome = true ∧ mkCmd 0 (hd m2) [] = none ∧
    decodeMsg { cls := 0, ep := 0 } (fmsg.take 2048) = some (0x63, { tag := 7, from_ := { cls := 0, ep := 0 } }, some [0, 0, 65536]) ∧
    (mkCmd 0x63 (mb 0) [0, 0, 65536]).isSome = true ∧ answers (mb 0) 0x63 own = true ∧ (own).svc.inbox = [] ∧ underWay own = false ∧
    underWay (own {} { svc0 with handover := some (m3, hd m2, 0) }) = true := by decide +kernel

theorem wit_CommandAccess : cmdOf (.keep (hd m3) []) = some (2, hd m3, []) ∧ cmdOf (.ctxnew (mb 0) []) = some (0x60, mb 0, []) ∧ (own).svc.owner ≠ some m3 ∧
    (mb 0).from_.cls = 0 ∧ (hd m2).from_.cls ≠ 0 ∧ (own).svc.dead = false ∧ ({} : State).svc.booted = false ∧ (2 ∈ [0x01, 0x04, 0x57]) = False ∧
    (0x21 : Nat) ∉ [0x20, 0x23, 0x25, 0x26, 0x34, 0x36] := by
  refine ⟨rfl, rfl, by decide, rfl, by decide, rfl, rfl, by decide, by decide⟩
def pconf0 : List W64 := let r := (partReset 0).toNat + 1 <<< (192 : Nat) + 1 <<< (160 : Nat)
  [0x100, BitVec.ofNat 64 r, BitVec.ofNat 64 (r >>> (64 : Nat)), BitVec.ofNat 64 (r >>> (128 : Nat)), BitVec.ofNat 64 (r >>> (192 : Nat)), 0x8000000000000001]
def banks0 : Pkg := { banks := [(0, 0xA0000000)] }
theorem wit_OwnershipCommands : let w : State := own {} { svc0 with window := some 0, owner := none }; let n : State := own {} { svc0 with owner := none }
    let a : State := own {} { svc0 with handover := some (m3, hd m2, 0) } 160000000; let f : BitVec 128 := fnReset 1 ||| BitVec.ofNat 128 (2 ^ 50); let d : BitVec 128 := fnReset 1
    let e : State := own { fns := [(1, fnOn 1)] }
    w.svc.window.isSome = true ∧ n.svc.window = none ∧ (own).svc.owner = some m2 ∧ (own).svc.handover = none ∧ 1 ≤ m3.cls ∧ m3.cls ≤ 3 ∧ (hd m3).from_.cls ≠ 0 ∧
    a.svc.handover = some ((hd m3).from_, hd m2, 0) ∧ a.now ≤ 0 + 160000000 ∧ pconfFails (own banks0) pconf0 = none ∧ pconfFails (own) pconf0 = some "BANK_CONFIG" ∧
    ((own banks0).part 0).pending = [] ∧ banksPinned (own banks0) [(1, 0x80000000)] = false ∧ (pconfOf pconf0).banks = [(1, 0x80000000)] ∧
    fconfFails (own) [f.extractLsb' 0 64, f.extractLsb' 64 64] = none ∧ f.getLsbD 50 = true ∧ fconfFails e [d.extractLsb' 0 64, d.extractLsb' 64 64] = none ∧
    (e.fn 1).en = true ∧ d.getLsbD 50 = false := by decide +kernel
theorem wit_GranuleCommands : let s := own; let x := own { wins := [(255, {})], owners := [(5, 0)], ctxs := [(0, { live := true, saveGr := [5] })] }
    (s.fn 511).fmask.testBit 6 = false ∧ s.pkg.wins.find? 255 = none ∧ (freeGranules s 3).isSome = true ∧ x.pkg.wins.find? 255 = some {} ∧ (x.ctx 0).live = true ∧
    x.ownerOf 5 = 0 ∧ granOk 5 = true ∧ granBusy x 5 = true ∧ granBusy (own { owners := [(5, 0)] }) 5 = false ∧ granHeld x [5] = false ∧
    granHeld (st g0 { c1 with mem := [{ deadline := 0, cls := .s, reg := 0, ty := 0, pol := 0, own := [], lanes := [{ lane := 0, slot := 0, va := 0, pa := 5 * 2 ^ 21 }] }] }) [5] = true := by
  decide +kernel
theorem wit_MailboxCommands : let s := own { fns := [(0, fnOn 0)] }; let l := own { fns := [(0, fnOn 0)], ctxs := [(4095, { word := 1, live := true })] }
    let b := own { fns := [(0, fnOn 0)], ctxs := [(0, { word := 1, live := true })], launches := [(0, la1)] }
    (s.fn 0).en = true ∧ ((List.range ((s.fn 0).maxc + 1)).find? fun j => !((ctxsOf s 0).map fun a => (s.ctx a).slot).contains j) = some 0 ∧
    ((List.range 4096).find? fun a => !(s.ctx a).live) = some 0 ∧ freeGranules s (2 + (fnRegions s 0).length) = some [0, 1] ∧ (l.ctx 4095).live = true ∧ l.fnOf 4095 = 0 ∧
    (l.pkg.launches.any fun l => l.2.asid = 4095 && liveLaunch l.2) = false ∧ (b.pkg.launches.any fun l => l.2.asid = 0 && liveLaunch l.2) = true ∧
    hwPaging l 0 = true ∧ (2 ^ 56 - 2 ^ 30) % pageBytes 2 = 0 ∧ (l.ctx 4095).maps = [] := by decide +kernel

/-! ### Commands of recovery, translation, debugger and package -/

/-- A context that keeps the log of its spans, with two gates, a horizon and a gate behind it, made by the appends of records; it is debugged. -/
def logged : State := own { ctxs := [(0, { word := 1, live := true, dbg := true, ulc := 0x1501, ugn := 0 })] }
def gate (n : Nat) (s : State) : State := appendRec 0 (gateRec (s.ctx 0) 0 0 n 0) s
def horizonNow (s : State) : State := appendRec 0 (horizonRec (s.ctx 0) 0 0 0) s
theorem wit_reverse : let s := gate 1 logged; let b := gate 2 (horizonNow s)
    (s.ctx 0).dbg = true ∧ (s.ctx 0).span = true ∧ (s.ctx 0).gateFor false 1 = some 0 ∧ (s.ctx 0).horizonAfter 0 = none ∧ (b.ctx 0).gateFor false 1 = some 0 ∧
    (b.ctx 0).horizonAfter 0 = some 64 ∧ (b.ctx 0).gateFor false 3 = none ∧ s.cores = [] ∧ s.pkg.mergeQ = [] ∧
    s.pkg.launches = [] ∧ s.pkg.eng = [] ∧ (let c := (gate 2 s).ctx 0; let d : Ctx := { c with log := c.log.put 64 9 }
      (c.between 1 c.rph).all c.formAt = true ∧ (d.between 1 d.rph).all d.formAt = false ∧ d.horizonAfter 0 = none ∧ c.horizonAfter 0 = none) := by decide +kernel
theorem wit_drain : let c := (gate 2 (gate 1 logged)).ctx 0; c.span = true ∧ max c.spanAt (c.spanEnd 0) - c.spanAt ≤ 128 ∧ (logged.ctx 0).spanAt ≤ 0 := by decide +kernel
/-- A context with which recovery scope begins, with its seal 0 in slot 0. -/
def sealed : State := applyUlc 0 0x1C02 (own { ctxs := [(0, { word := 1, live := true })] })
theorem wit_walk_back : reloadLog 0 sealed = sealed ∧ ((sealed.ctx 0).between (fld 191 128 (leNat (sealed.ctx 0).seal0.bytes)) (sealed.ctx 0).uld).all (sealed.ctx 0).formAt = true ∧ (sealed.ctx 0).sealValid (sealed.ctx 0).seal0.bytes = true ∧ (sealed.ctx 0).sealValid (sealed.ctx 0).seal1.bytes = false := by decide +kernel
theorem wit_RecoveryCommands : let s := own { ctxs := [(0, { word := 1, live := true })] }; let p := own { pk la1 with ctxs := [(0, { word := 1, live := true })] }
    let x := recoverCtx 0 none (abandonCtx 0 (heard sealed)); let r : Relay := { idx := 0, ch := 57344, members := [0, 1, 2, 3, 4, 5, 6, 7], ctxs := [0], rpp := 0 }
    ulcOk 0x1C02 = true ∧ ulcOk 0x1F01 = true ∧ ulcOk 0 = true ∧ (s.fn (s.fnOf 0)).fmask.testBit 5 = false ∧ ctxPlaced p 0 = true ∧ ctxPlaced s 0 = false ∧ cmdsStarted s 0 = false ∧
    ((sealGran 0 false (mergeAll (releaseCores (heard s)))).bind (logGrans 0 (2 ^ 21 / 2 ^ 21))).isSome = true ∧ (sealGran 0 true (mergeAll (releaseCores (heard s)))).isSome = true ∧
    (freeGranules s 128).isSome = true ∧ (sealed.ctx 0).heldRecs = [] ∧ (sealed.ctx 0).recv = true ∧ (sealed.ctx 0).sealing = none ∧ (s.ctx 0).recv = false ∧
    cmdsStarted (abandonCtx 0 (heard sealed)) 0 = false ∧ x.2.bad = [] ∧ r.members.getD 0 0 = s.svc.pkgId.toNat ∧ r.building = none ∧ 7 ≠ r.idx ∧
    (own { relays := [(5, r)] }).pkg.relays.find? 5 = some r := by decide +kernel

theorem parse_nothing : parsePkg [] = none := by decide +kernel
theorem leBytes_len : ∀ n k, (leBytes n k).length = n
  | 0, _ => rfl
  | n + 1, k => congrArg Nat.succ (leBytes_len n (k / 256))
theorem wit_export (s : State) (x : Trans) (h : x.pkg = []) : (signedPkg s x).1.length ≤ 1344 := by
  simp only [signedPkg, h, parse_nothing, List.length_append, List.length_take, List.length_replicate, leBytes_len, List.length_drop, List.length_nil]; omega
/-- The bytes of the one-bundle package in the host's memory at bus address 0, signed by seven bytes or unsigned. -/
def atHost (sig : Nat) (p : Pkg := {}) : State := { own p with mem := SMap.setList 0 [] (2 ^ 51) (pkg1 0 sig) }
theorem wit_import : (atHost 7).rawBytes (2 ^ 51) 320 = pkg1 0 7 ∧ (xpkg1 0 7).sig ≠ [] ∧ (xpkg1 0 7).tver = (atHost 7).svc.tver.toNat ∧ (xpkg1 0 7).fmask = 0 ∧
    (match validate 0 true (xpkg1 0 7) with | .ok x => x == side1 | .error _ => false) = true ∧ (xpkg1 0 0).sig = [] ∧ (xpkg1 0 0).twins = [] ∧ (xpkg1 0 0).groomed = false ∧
    (match validate 0 false (xpkg1 0 0) with | .ok x => x == side1 | .error _ => false) = true := by decide +kernel
theorem wit_arrives (sig : Nat) (x : Trans) (h : x.key = key0 ∧ x.pkg = pkg1 0 sig) (le : sig ≤ 7) :
    ∃ s' n, arriveTrans x (heard (atHost sig)) = (s', .ok n) := by
  have e : transAt (heard (atHost sig)) x.key = none := rfl
  have l : transRoom x ≤ 2 ^ 32 := by
    simp only [transRoom, ceilDiv, h.2, pkg1, List.length_append, leBytes_len, List.length_replicate]; omega
  have m := space_left (transRoom x) l (heard (atHost sig)) rfl rfl
  simp only [arriveTrans, e, installTrans, show (heard (atHost sig)).pkg.trans.length + 1 = 1 from rfl, m]
  exact ⟨_, _, rfl⟩
theorem wit_TranslationCommands : let u : Trans := trK; let s := own { pk lw with trans := [(3, u)] }; let a := own { parts := [(0, { record := part0.record ||| (1 : BitVec 256) <<< (103 : Nat) })] }
    transAt s key0 = some (3, u) ∧ assisted a (a.fn 0).part 1 = true ∧ awaits key0 (s.launch 0) = true ∧ s.pkg.launches = [(0, s.launch 0)] ∧ (s.launch 0).kernel = some knB ∧
    transUsed s 3 = false ∧ transUsed (own { pk { la1 with tr := some 3 } with trans := [(3, u)] }) 3 = true := by decide +kernel
theorem wit_DebuggerCommands : let c : Crew := { c1 with pc := 3 }; let g : Group := { g0 with blocked := [(c, .debugger)], live := [0] }; let l : Launch := laK [0xC3]
    let s : State := { at0 g {} { pk l with ctxs := [(0, { word := 1, live := true, dbg := true })] } with svc := svc0 }
    (s.ctx 0).live = true ∧ (s.ctx 0).dbg = true ∧ ((own { ctxs := [(0, { live := true })] }).ctx 0).dbg = false ∧ s.group 0 = some g ∧ s.asidOf g = 0 ∧ burhusKernel s g = true ∧
    g.live.contains 0 = true ∧ g.running = none ∧ Sys2Proof.Machine.crewOf g ⟨0, 0, 0⟩ = some c ∧ dbgPoint s g c = none ∧ 0 ∈ coresOf s 0 ∧ (∀ b ∈ g.blocked, b.1.handler = false) := by decide +kernel
theorem wit_PackageCommands : (own).svc.booted = true ∧ (hd m2).from_.cls ≠ 0 ∧ (own).svc.slot ≠ 1 ∧ (2 ^ 50 - 263) + 263 ≤ 2 ^ 50 := by decide

/-! ### Errors, resets and the package's own events -/

theorem quiet (p : Pkg) (v : Svc) (h : v.locs = []) (cs : SMap Core) (l : Loc) : Quiet { cores := cs, pkg := p, svc := v } l := by
  refine Or.inr ?_
  have e : (List.find? (fun r => decide (r.loc = l)) v.locs) = none := by rw [h]; rfl
  simp [locRec, e]
/-- Two errors in the window of 600 s, one at its very end: a third makes the fault lasting. -/
theorem wit_third_error : let s : State := { now := 960000000000, svc := { locs := [{ loc := ⟨1, 511⟩, times := [0, 960000000000] }] } }
    (locRec s ⟨1, 511⟩).lasting = false ∧ ((locRec s ⟨1, 511⟩).times.filter fun t => s.now ≤ t + 960000000000).length = 2 := by decide
theorem wit_Errors : let s := fun (c : Crew) (k : Core) => at0 (gr g0 c) k; let d : CLine := { line0 with dirty := 1 }; let ph : Crew := { c1 with region := { phase := some (11, some []) } }
    let once : Crew := { c1 with uncorrOnce := true }; let e : State := at0 g0 {} { pkE { copyHalf with started := true } with launches := [(0, { la1 with placed := [] })] } 768
    (s c1 core0).crew 0 = some (gr g0 c1, c1) ∧ ((s c1 core0).core 0).findLine 0 = some line0 ∧ line0.dirty = 0 ∧ c1.uncorrOnce = false ∧ once.uncorrOnce = true ∧
    ((s c1 { core0 with cache := [d] }).core 0).findLine 0 = some d ∧ d.dirty ≠ 0 ∧ ph.region.phase = some (11, some []) ∧ c1.region.phase = none ∧
    (gr g0 c1).compute = none ∧ (gr g0 c1).retire = none ∧ c1.region.buf = [] ∧ c1.accepting = [] ∧ c1.region.pushed = [] ∧ ((s c1 core0).launch 0).complete = false ∧
    ((s c1 core0).launch 0).status = none ∧ (running e 0 0 0).isSome = true ∧ (e.launch 0).placed = [] ∧ (e.launch 0).suspended = [] := by decide +kernel
/-- A store on the link to a peer package and one to the host; a load of the peer's memory that has not arrived. -/
def toPeer : Core := { link := [{ pa := 3 * 2 ^ 50, bytes := [1], asid := 0 }, { pa := 2 ^ 51, bytes := [1], asid := 0 }] }
theorem wit_ContainmentAndResets : let l : Launch := { la1 with placed := [(0, [511])] }; let s : State := { cores := [(511, { group := some g0 })], pkg := pk l }
    let p := at0 (gr g0 c1) {} { pk la1 with parts := [(0, { record := partReset 0 ||| (1 : BitVec 256) <<< (93 : Nat) })] }; let r : Relay := { idx := 0, ch := 1, members := [], ctxs := [0], rpp := 0 }
    let f : State := { now := 2048, pkg := { chairsNext := [(81919, 0x41)] } }; let v : State := { pkg := { relays := [(5, r)], ctxs := [(0, { rpn := 1 })] } }
    launchOn s 3 0 l = true ∧ coreOn s 3 511 = true ∧ s.holds 0 0 511 = true ∧ l.status = none ∧ l.complete = false ∧ l.abandoned = false ∧ l.started = true ∧ (l.cores.all fun k => !(s.core k).fenced) = true ∧ l.suspended = [] ∧
    (s.ctx 0).recv = false ∧ (s.ctx 0).span = false ∧ ({ pkg := { treeOrder := [(5, [0, 7])] } } : State).orderOf 5 = [0, 7] ∧ s.pkg.eng = [] ∧ s.svc.locs = [] ∧ 15 ∉ p.svc.down ∧ p.group 0 = some (gr g0 c1) ∧ portOf p (p.asidOf (gr g0 c1)) = some 15 ∧
    nextOrigin f 3 = f.now ∧ nextOrigin { f with now := 2049 } 3 ≠ 2049 ∧ 81919 / 20480 = 3 ∧ v.pkg.relays.find? 5 = some r ∧ r.building = none ∧ r.rpp < (v.ctx 0).rpn ∧
    2 ^ 14 - 1 < r.ch * 2 ^ 14 ∧ r.parityLa 0 = none ∧ ({ r with parGr := [9] } : Relay).parityLa 16383 = some (9 * 2 ^ 14 + 16383) ∧ (toPeer.link.map fun q => (isPeer q.pa, q.launch)) = [(true, 0), (false, 0)] ∧
    fconfFails (own) [(fnReset 0 ||| BitVec.ofNat 128 (2 ^ 50)).extractLsb' 0 64, (fnReset 0 ||| BitVec.ofNat 128 (2 ^ 50)).extractLsb' 64 64] = none := by decide +kernel
theorem wit_BootAndPower : ({} : State).svc.booted = false ∧ (own).svc.booted = true ∧ ({ svc0 with watts := 4501 } : Svc).cap < 4501 ∧ svc0.watts ≤ svc0.cap ∧
    ({ svc0 with lapsedAt := some 0 } : Svc).lapsedAt = some 0 ∧ (16000000000 - 1 < 0 + 16000000000) ∧ svc0.lapsedAt = none := by decide
theorem wit_OwnershipPasses : let v : Svc := { svc0 with window := some 0, claims := [(m2, 1), (m3, 2)] }; let q : Svc := { svc0 with window := some 0 }
    let d : Svc := { svc0 with handover := some (m3, hd m2, 0) }
    v.window = some 0 ∧ v.claims ≠ [] ∧ (∀ c ∈ v.claims, c.1.cls ≠ 0) ∧ q.claims = [] ∧ q.flashParts = [] ∧ q.flashFns = [] ∧ svc0.window = none ∧ svc0.owner = some m2 ∧
    svc0.heard + 4800000000 ≤ 4800000000 ∧ d.handover = some (m3, hd m2, 0) ∧ (hd m2).from_.cls ≠ 0 ∧ (0 : Nat) + 160000000 ≤ 160000000 := by decide +kernel

/-- Every premise of the events of memory beside those of wit_CoreMemoryEvents and wit_LineEvents, and of the commands. -/
theorem wit_Completions : let b : Group := { g0 with blocked := [(c1, .pageFault 65536)] }; let r : MergeReq := { line := 0, data := 0, mask := 1, w := {} }
    let f : Group := { gf with fifo := [(11, { inbound := [(0, [5, 6])] })] }; let c : Crew := { c1 with mem := [{ deadline := 0, cls := .x, reg := 1, ty := 7, pol := 0, own := [], lanes := [], tag := some 0 }] }
    b.blocked = [(c1, .pageFault 65536)] ∧ c1.handler = false ∧ (f.queue 11).inbound = [(0, [5, 6])] ∧ f.modeOf 11 = some 2 ∧ (c.mem.map fun m => m.done (st g0 c core0)) = [true] ∧
    (l2 true [r]).pkg.mergeQ.get [] 0 = [r] ∧ (∀ e ∈ ({} : State).pkg.l2, e.1 % 128 ≠ 0) ∧ ({ bank := 0, dirty := true } : L2Line).tag = none ∧
    (own {} { svc0 with owner := none }).svc.window = none ∧ (own).svc.handover = none ∧
    (own {} { svc0 with handover := some (m3, hd m2, 0) }).svc.handover = some ((hd m3).from_, hd m2, (own {} { svc0 with handover := some (m3, hd m2, 0) }).now) ∧
    pconfFails (own { banks := [(0, 0xA0000000), (1, 0x80000000)] }) (0 :: (pconf0.drop 1).take 4) = none ∧ (pconfOf (0 :: (pconf0.drop 1).take 4)).banks = [] ∧ ({} : State).pkg.ctxs = [] ∧ nextOrigin { now := 2048 } 3 = 2048 := by decide +kernel

/-! ### The other clauses, and their boundaries -/

/-- PREF of a line that L2 holds, the private cache empty: to keep it (POL 0), and to keep it in L2 only (POL 1). -/
theorem wit_prefetch_fills : let x : L2Line := { bank := (st g0 c1).homeBank 511 }; let s := st g0 c1 { tlb := [page] } (p := { l2 := [(511, x)] }); let g := gr g0 c1
    let f := fun (m : BitVec 8) => (.bur { m1 := m, a := 2, i := 65408 } : Form)
    wellFormed (.pref (f 0)) = true ∧ wellFormed (.pref (f 0x10)) = true ∧ memPol (f 0) = 0 ∧ memPol (f 0x10) = 1 ∧ memLanes g c1 (f 0) = [(0, 0)] ∧
    translate 0 (s.asidOf g) (memEa g c1 (f 0) 0 0) .read s = (s, .ok { pa := 65408, widx := 0 }) ∧ isHbm 65408 = true ∧ s.pkg.l2.find? (lineOf 65408) = some x ∧
    s.pkg.mergeQ.get [] (s.homeBank (lineOf 65408)) = [] ∧ (s.core 0).dfifo = [] ∧ s.ways 0 ≠ [] ∧ (s.core 0).cache = [] ∧ (2 : Nat) ≤ memPol (f 0x20) := by decide +kernel
/-- A crew whose region has pushed 127 entries into a full queue. -/
theorem wit_push_waits : (128 : Nat) ≤ ((gq 127).queue 11).entries.length + ((gq 127).queue 11).inbound.length + ((gq 127).queue 11).unpublished ∧
    ((List.replicate 127 ((11 : Nat), (0 : Nat))).filter fun p => p.1 = 11).length ≠ 128 := by decide +kernel
/-- REL by two lanes of two objects: the object named before comes first; with none named before, the first lane's. -/
theorem wit_releases : let g := gr { g0 with x := xs2 [(2, 64)] [(2, 128)] } c2; let f : Form := .bur { m1 := 3, a := 2 }; let s := st g0 c2 core0; let k : Crew := { c2 with skip := [0] }
    let va := fun (c : Crew) => (((syncObjs g c f).find? fun o => namedBefore g c f o.2.2).orElse fun _ => (syncObjs g c f).head?).map fun o => o.2.2
    va c2 = some 64 ∧ va k = some 128 ∧ crewExecutes g k f = true ∧ translate 0 (s.asidOf g) 64 .write s = (s, .ok { pa := 64, widx := 0 }) ∧ atomBad 3 64 0 false 0 8 = false := by decide +kernel
/-- ACQ: a held result that is still on its way, the same of LDS, a guard that is false, a narrow scope, and a wide one. -/
theorem wit_acquire_waits : let l : Landing := { at_ := 9, deadline := 9, cls := .s, reg := 0, slot := 0, lane := 0, val := 0, held := true }; let f : Form := .bur { m1 := 2, a := 2 }
    let u : Form := .bur { guard := some 4, m1 := 2, a := 2 }; let g := gr g0 c1; let s := st g0 c1 core0
    l.held = true ∧ l.free = false ∧ s.cycle < l.at_ ∧ crewExecutes g { c1 with inflight := [l] } f = true ∧ ({ c1 with inflight := [{ l with free := true }] } : Crew).unlanded s.cycle = false ∧
    crewExecutes g c1 u = false ∧ syncObjs g c1 u = [] ∧ wellFormed (.acq u) = true ∧ 2 ≤ syncScope f := by decide +kernel
/-- BIND by a slot whose place is the table's last, UNBIND by two lanes of one object. -/
theorem wit_bindings_of_lanes : let g := gr { g0 with x := xs2 [(3, 8), (4, 1)] [(3, 8), (4, 1)] } c2; let f : Form := .bur { a := 2, b := 3, c := 4 }
    let s := st g0 c2; let h := gr (gs [(2, 0), (3, 4096)]) c1; let d : Form := .l { d := 2 }
    wellFormed (.bind f) = true ∧ bindOps g c2 f = [(0, 0, 8, 1), (1, 0, 8, 1)] ∧ (s.ctx 0).binds.length + (s.ctx 0).bindRes + 2 ≤ 1024 ∧ c2.region.buf.length + 2 ≤ 768 ∧
    wellFormed (.bind d) = true ∧ (∀ o ∈ bindOps h c1 d, o.2.1 % 8 = 0 ∧ 0 < o.2.2.2 ∧ o.2.2.1 + o.2.2.2 ≤ 2 ^ 56) ∧ bindOps h c1 d ≠ [] ∧
    wellFormed (.unbind (.bur { a := 2 })) = true ∧ syncObjs g c2 (.bur { a := 2 }) = [(0, 0, 0), (1, 0, 0)] := by decide +kernel
/-- WAIT for a flag that another core posted: earlier results under way; none; and the acquire done. Deliveries up to the flag's end. -/
theorem wit_remote_flags : let g := gr { g0 with flags := [(3, { count := 2, remote := true })] } c1; let a : Crew := { c1 with acq := some 32, served := some (3, 2) }
    let l : Crew := { c1 with mem := [{ deadline := 1, cls := .s, reg := 0, ty := 0, pol := 0, lanes := [], own := [] }] }
    (g.flags.get {} 3).remote = true ∧ (2 : BitVec 15).toNat ≤ (g.flags.get {} 3).count.toNat ∧ olderWaiter g 3 = false ∧ c1.acq = none ∧ c1.unlanded 0 = false ∧ l.unlanded 0 = true ∧
    a.acq ≠ none ∧ a.served ≠ none ∧ (st g0 c1).group (9 : BitVec 9).toNat = none ∧ (∀ h, (st g0 c1).group 0 = some h → h.launch = (gr g0 c1).launch) ∧
    (({ g0 with flags := [(3, { count := 65535 })] } : Group).flags.get {} 3).count.toNat + 0 ≤ 65535 := by
  refine ⟨by decide, by decide, by decide, by decide, by decide, by decide, by decide, by decide, by decide, ?_, by decide⟩
  intro h e; cases e; rfl
/-- A crew that a trap's split run moves, its lanes below 64; a BAR.G whose release is due; and a drain that rides. -/
theorem wit_event_times : ({ g0 with atBarG := 2, barGAt := some 4 } : Group).barGAt = some 4 ∧ (4 : Nat) ≤ (at0 g0 {} (pk la1) 200).cycle ∧ (∀ l ∈ c2.strands, l.1 < 64) ∧
    riding .drain (at0 g0) 0 = false ∧ riding .op (at0 g0) 0 = false ∧ riding .load (at0 g0) 0 = false ∧ (∀ x ∈ ({ g0 with blocked := [(c1, .flag 3 2)] } : Group).crews, x.served = none) := by decide +kernel
/-- A set of twelve ways that holds eleven lines; a granule without an owner, and one with; a peer's byte at a line's end. -/
theorem wit_peer_lines : let e : State := { pkg := { l2 := (List.range 11).map fun i => (128 * (i + 1), { bank := 0, pins := 1 }) } }
    (e.pkg.l2.filter fun x => x.2.bank = e.homeBank 0 && x.1 % 128 = 0 % 128).length = 11 ∧ (l2 true).ownerOf (granOf 0) = 0x3FE ∧
    ({ pkg := { owners := [(0, 0)] } } : State).ownerOf (granOf 127) = 0 ∧ granOk (granOf 127) = true ∧ isHbm 127 = true ∧ (127 : Nat) % 128 + 1 ≤ 128 := by decide +kernel
/-- A group whose stacks' log of counter blocks is full; an engine's line of 128 bytes at the scratchpad's end. -/
theorem wit_full_log_and_lines : let big : MetaGroup := { chunk := 5, blk := {}, nodes := List.replicate 4095 (0, 0, {}) }; let m : State := { pkg := { metaDirty := [3], metaLog := [big] } }
    3 ∈ m.pkg.metaDirty ∧ logRoom m (formGroup 3 (m.ctr 3) m).2 = false ∧ ({} : Ctx).rph ≤ ({} : Ctx).uld ∧ copyHalf.srcLine = none ∧
    copyHalf.src % 2 ^ 19 + 196480 + 128 ≤ 393216 ∧ copyHalf.dst % 2 ^ 19 + 196480 + 128 = 393216 ∧ (0 : Nat) < 128 := by decide +kernel
/-- A head that stood before its ring was enabled again, and one within the ring's window under RECV. -/
theorem wit_heads : let l : Launch := { la1 with lidx := 31 }; let s : State := { pkg := { pk l with ctxs := [(0, { word := 1, live := true, ulc := 2, queues := [(0, { head := some 0, headOld := true })] })] } }
    (s.ctx 0).recv = true ∧ windowOk s 0 0 (BitVec.ofNat 32 l.lidx) = true ∧ windowOk s 0 0 (BitVec.ofNat 32 (l.lidx + 32)) = false ∧ ((s.ctx 0).queues.get {} 0).headOld = true ∧
    ({} : Queue).headOld = false ∧ ({} : State).pkg.linkBad = [] ∧ la1.q < 8 := by decide +kernel
/-- A locked partition's launch that waits, and a quick translation of its key; an install whose segments and loads are the kernel's; conflicts due, and none. -/
theorem wit_locked_and_conflicts : let s : State := { pkg := { pk lw with parts := [(0, { part0 with unlock := false, record := part0.record ||| (1 : BitVec 256) <<< (100 : Nat) })] } }
    let q : State := { s with pkg := { s.pkg with trans := [(4, { trK with quick := true })] } }; let t : Trans := { trK with conf := [(0, 16)] }; let o : State := { pkg := { trans := [(0, t)], nextTrans := 1 } }
    (s.part (s.partOfLaunch 0)).locked = true ∧ s.launch 0 = lw ∧ s.svc.pairs = [] ∧ findTrans s key0 true = none ∧ findTrans q key0 true = some 4 ∧ hoistsOk (xpkg1 1 0) = true ∧ kernelOfTrans o 0 = none ∧
    List.find? (conflictDue {}) ({} : State).pkg.trans = none ∧ List.find? (conflictDue o) o.pkg.trans = some (0, t) ∧ o.trans 0 = some t ∧ o.pkg.nextTrans ≠ 0 := by decide +kernel
/-- The kernel of one segment for which the package of `pkg1` stands. -/
theorem wit_same_segments : let kn : Kernel := { kn2 [0xC3] with segs := ((kn2 [0xC3]).segs.take 1).map fun g => { g with prio := 0 }, trapSeg := none }
    sameSegments { kn with segs := kn.segs.take (xpkg1 1 0).entries.length } (xpkg1 1 0) = true := by decide +kernel
/-- A translation of more than 2^32 bytes that a launch uses finds no place, its conflicts being due. -/
theorem wit_no_space (x : Trans) (b : x.base = none) (h : 2 ^ 32 < x.pkg.length) (c : x.conf = [(0, 16)]) (o : x.stale = false) :
    let s : State := { pkg := { pk { la1 with tr := some 0 } with trans := [(0, x)] } }
    (makeSpace (transRoom x) (s.pkg.trans.length + 1) s).2 = none ∧ List.find? (conflictDue s) s.pkg.trans = some (0, x) := by
  intro s
  have n : 2 ^ 32 < transRoom x := by simp only [transRoom, ceilDiv]; omega
  have d : decide (cacheBase + transRoom x ≤ cacheBase + 2 ^ 32) = false := by simpa using n
  have p : cachePlace s (transRoom x) = none := by
    simp only [cachePlace, s, b, natSort, natInsert, List.filterMap_cons, List.filterMap_nil, Option.map_none, List.filter_nil, List.map_nil, List.append_nil, List.foldr_cons, List.foldr_nil,
      List.find?_cons, d, Bool.false_and, List.find?_nil]
  have u : transUsed s 0 = true := rfl
  have l : lockedUse s 0 = false := (show _ = lockedUse { pkg := pk { la1 with tr := some 0 } } 0 from rfl).trans (by decide +kernel)
  refine ⟨?_, ?_⟩
  · have f : (s.pkg.trans.filter fun t => !transUsed s t.1) = [] := by simp only [show s.pkg.trans = [(0, x)] from rfl, List.filter_cons, u, Bool.not_true, Bool.false_eq_true, if_false, List.filter_nil]
    simp only [makeSpace, p, f, List.foldl_nil]
  · simp only [show s.pkg.trans = [(0, x)] from rfl, List.find?_cons, conflictDue, c, o, l, List.any_cons, List.any_nil, Nat.le_refl, decide_true, Bool.or_false, Bool.not_false, Bool.and_self]
/-- A lane's group in which another launch's core has stopped no one; a save without entries on the way. -/
theorem wit_saves : let q : Group := { g0 with stopReq := true }; g0.launch = 0 ∧ g0.cluster = 0 ∧ g0.stopReq = false ∧ strayEntries q = false ∧ c1.region.released = false ∧ c1.region.pushed = [] := by decide +kernel
/-- A record in the log's granule that differs from what was appended: REVERSE reads the ring. -/
def ringAt (k : Nat) : State := let s := gate 2 (gate 1 logged)
  { s.modCtx 0 (fun c => { c with logGr := [5], uld := 128 }) with mem := SMap.setList 0 [] (5 * 2 ^ 21) (((s.ctx 0).recAt 0 64) ++ (if k = 0 then ((s.ctx 0).recAt 64 64) else if k = 1 then List.replicate 64 9 else ((horizonNow (gate 1 logged)).ctx 0).recAt 64 64)) }
theorem wit_ring_is_read : let d := fun k => let s := ringAt k; let s₁ := forceLog 0 ((heard s).modCtx 0 fun c => { c with stopped := true }); (s₁.modCtx 0 fun c => { c with log := c.ringNow s₁ }).ctx 0
    ∀ k < 3, ((ringAt k).ctx 0).gateFor false 1 = some 0 ∧ ((ringAt k).ctx 0).horizonAfter 0 = none ∧ (d k).horizonAfter 0 = (if k = 2 then some 64 else none) ∧
      ((d k).between 1 (d k).rph).all (d k).formAt = decide (k ≠ 1) := by decide +kernel
/-- A merge that a full log holds; RECOVER beside a started command; a relay of the package that is its group's first member. -/
theorem wit_recovery_waits : let r : MergeReq := { line := 0, data := 0, mask := 1, w := { asid := some 0 } }
    let h : State := own { ctxs := [(0, { word := 1, live := true, ulc := 0x1505, rph := 2 ^ 21 - 64, logHeld := true })], l2 := [(0, { bank := 0 })], mergeQ := [(0, [r])], owners := [(0, 0)] }
    let e : State := own { ctxs := [(0, { word := 1, live := true })], eng := [(0, { queue := [{ copyHalf with started := true }] })] }
    let y : Relay := { idx := 0, ch := 1, members := [0, 1, 2, 3, 4, 5, 6, 7], ctxs := [0], rpp := 0 }
    mergesHeld (mergeAll (releaseCores (heard h))) 0 = true ∧ ctxPlaced h 0 = false ∧ cmdsStarted h 0 = false ∧ cmdsStarted (stopForRecover 0 (heard e)) 0 = true ∧
    cmdsStarted (stopForRecover 0 (heard sealed)) 0 = false ∧ (recoverCtx 0 none (stopForRecover 0 (heard sealed))).2.bad = [] ∧ (freeGranules sealed 128).isSome = true ∧
    sealed.pkg.relays.find? 7 = none ∧ y.rpp < 2 ^ 64 ∧ (∀ i < 8, i ≠ 3 → [0, 1, 2, 9, 4, 5, 6, 7].getD i 0 = y.members.getD i 0) ∧ (∀ a ∈ y.ctxs, cmdsStarted (foldS y.ctxs stopForRecover (heard sealed)) a = false) ∧
    (∃ a ∈ y.ctxs, cmdsStarted (foldS y.ctxs stopForRecover (heard e)) a = true) ∧ y.idx = 0 ∧ 3 ≠ y.idx := by decide +kernel
/-- No free granule is found where every granule has an owner. -/
theorem none_free (s : State) (n : Nat) (h : 0 < n) (all : ∀ g < 2 ^ 19, s.pkg.owners.find? g ≠ none) : freeGranules s n = none := by
  have go : ∀ f g acc, freeGranules.go s s.pkg.owners f g n acc = none := by
    intro f
    induction f with
    | zero => intro g acc; simp [freeGranules.go]; omega
    | succ f ih =>
      intro g acc
      simp only [freeGranules.go]
      rw [if_neg (by omega)]
      split
      · rfl
      · have := all g (by omega)
        simp [ih, this]
  exact go _ _ _
theorem find_mapped (g : Nat) (l : List Nat) (h : g ∈ l) : SMap.find? (l.map fun g => (g, (0 : BitVec 16))) g = some 0 := by
  induction l with
  | nil => simp at h
  | cons x l ih =>
    simp only [List.map_cons, SMap.find?]
    split
    · rfl
    · exact ih (by simpa [show g ≠ x from fun e => ‹¬x = g› e.symm] using h)
theorem wit_no_granule : ∃ p : Pkg, ∀ g < 2 ^ 19, p.owners.find? g ≠ none :=
  ⟨{ owners := (List.range (2 ^ 19)).map fun g => (g, 0) }, fun g h => by simp only [find_mapped g _ (List.mem_range.mpr h), ne_eq, reduceCtorEq, not_false_eq_true]⟩
/-- DECLINE by the host, by another class; a contained crew beside a blocked one. -/
theorem wit_declines : ({ cls := 1, ep := 0 } : Master).cls = 1 ∧ 1 < m2.cls ∧ (own { pk lw with trans := [] }).svc.pairs = [] ∧ (own).svc.booted = true ∧
    (∀ b ∈ ({ g0 with blocked := [({ c1 with ctx := 1 }, .flag 3 2)] } : Group).blocked, b.1.ctx ≠ c1.ctx) := by decide +kernel
/-- An event that is due; a start that is due, after which nothing else is; and a step that lets time pass. -/
theorem wit_StepRuns : let s : State := { agenda := [(0, .launchStart 0 0)] }; let c : Crew := { c1 with seg := 0 }; let b := st g0 c {} (laK [0xC3])
    s.agenda.head? = some (0, .launchStart 0 0) ∧ firstChange s (candidates s) = none ∧ firstChange {} (candidates {}) = none ∧
    b.crew 0 = some (gr g0 c, c) ∧ c.fjoset = false ∧ mayIssue b (gr g0 c) c = true ∧ c.region.latched = none ∧ burMacro (gr g0 c) c = false ∧ riding .load b 0 = false ∧
    c.region.buf.length < 256 := by decide +kernel
/-- A native crew at a bundle of NOPs, in the L1 and not, and at a word that is no bundle. -/
def nat (w : BitVec 512) (l1 : List (Nat × Nat × Nat)) : State := st g0 { c1 with fjoset := true } { l1 := l1 } la1 { trans := [(0, { key := { hash := 0, tver := 0, vbc := 0, fmask := 0, dom := 0 }, code := [w] })] }
theorem wit_NativeIssue : let s := nat 4 [(0, 0, 0)]; let c : Crew := { c1 with fjoset := true }; let s1 := enterTwin 0 (landDue 0 s.cycle { s with focus := 0 })
    (s.crew 0).map (fun x => x.2.fjoset) = some true ∧ s1.crew 0 = some (gr g0 c, c) ∧ (s.part (s.partOfLaunch 0)).pairs = false ∧ mayIssue s1 (gr g0 c) c = true ∧ c.rpt = none ∧ c.branch = none ∧
    c.delay = 0 ∧ bundleWord s1 c c.pc = some 4 ∧ bundleWord (nat 5 []) c c.pc = some 5 ∧ inL1 s1 0 0 0 0 = true ∧ inL1 (nat 4 []) 0 0 0 0 = false ∧ decodeBundle 0 4 = .ok {} ∧
    decodeBundle 0 5 = .error .malformed ∧ (s.launch 0).fmask = 0 ∧ (s.launch 0).record.getLsbD 15 = false ∧ overBudget (s.launch 0).vbc [] = false ∧ blockedBy s1 [] = none ∧
    laneBusy (gr g0 c) [] = false ∧ hasCommit {} = false := by decide +kernel
/-- The operations that wait for a commit point, their lanes translated. -/
theorem wit_DeferredFrame : let s := st g0 c1 core0; let f : Form := .bur { m1 := 7, b := 3, i := 65532 }; wellFormed (.st f) = true ∧ accesses s (gr g0 c1) c1 (.st f) ≠ [] ∧
    (∀ a ∈ accesses s (gr g0 c1) c1 (.st f), (translate 0 (s.asidOf (gr g0 c1)) a.2 a.1 s).1 = s) ∧ wellFormed (.bind (.bur { a := 2, b := 3, c := 4 })) = true := by decide +kernel
/-- One register of each class that a rollback takes back. -/
theorem wit_RollbackRestoresRegisters : ∀ w ∈ [({ cls := .x, reg := 1, slot := 0, lane := 0, val := 9 } : RegWr), { cls := .c, reg := 1, slot := 0, lane := 0, val := 1 }], w.cls = .x ∨ w.cls = .c := by decide
/-- What SynchronisationCompletes asks of an object: its translation and its scope. -/
theorem wit_synchronisation : let s := st g0 c1 core0; let g := gr g0 c1; let f : Form := .bur { m1 := 3, a := 2 }
    (∀ o ∈ syncObjs g c1 f, o.2.2 % 8 = 0) ∧ translate 0 (s.asidOf g) 0 .read s = (s, .ok { pa := 0, widx := 0 }) ∧ translate 0 (s.asidOf g) 0 .write s = (s, .ok { pa := 0, widx := 0 }) ∧
    atomBad (syncScope f) 0 0 false 0 8 = false ∧ (∀ o ∈ bindOps (gr { g0 with x := xs0 [(4, 1)] } c1) c1 (.bur { a := 2, b := 3, c := 4 }), o.2.1 % 8 = 0 ∧ 0 < o.2.2.2) := by decide +kernel
end Sys2Proof.Tests
end

section
/-!
PROOFS. What reset leaves (01 R18; 04 R73, R74; 19 Tables 19.1, 19.3 and 19.4).
-/
namespace Sys2Proof.Machine

/-- The owner that a granule has while the owner table lists nothing (04 R73; logs 81 and 103). -/
theorem fld_ownerDefault (g : Nat) :
    fld 9 0 (ownerDefault g).toNat = if inCache g || inMetaLog g then 0x3FF else 0x3FE := by
  unfold ownerDefault
  split <;> rfl

/-- The reset record of a function: WEIGHT 1, TDOM = FN, and its own number (19 Table 19.4). -/
theorem fnReset_toNat {f : Nat} (hf : f < 512) : (fnReset f).toNat = f * 2 ^ 40 + 2 ^ 66 + f * 2 ^ 86 := by
  rw [fnReset, BitVec.toNat_ofNat]
  omega

/-- The reset record of a partition (19 Table 19.3). -/
theorem partReset_toNat {p : Nat} (hp : p < 64) :
    (partReset p).toNat = p * 2 ^ 94 + 16 * 2 ^ 107 + 10 * 2 ^ 112 + 20 * 2 ^ 120 + 100 * 2 ^ 128 + 256 * 2 ^ 144 := by
  rw [partReset, BitVec.toNat_ofNat]
  omega

/-- Settles O58: every table is empty at reset, so a read gives the reset value of what it reads. -/
theorem resetState : Obligations.ResetState :=
  ⟨rfl, rfl, rfl, rfl, rfl, Memory.wf_reset, fun _ => rfl, fun _ => rfl, fld_ownerDefault, fun _ => fnReset_toNat, fun _ => partReset_toNat,
    fun _ => rfl, rfl, rfl, rfl, fun _ => rfl⟩

end Sys2Proof.Machine
end

section
/-!
PROOFS. What the tables of metadata leave alone (04 R93 to R101; 13 R262): counters, nodes and keys move, and neither memory, the cores, the owners of
granules, the contexts nor the launches do. Beside it, reads of sparse tables and folds over the state.
-/
namespace Sys2Proof.Machine

/-! ## Sparse tables read as options -/

section
variable {α : Type}

theorem SMap.get_eq_find? (d : α) (m : SMap α) (k : Nat) : SMap.get d m k = (m.find? k).getD d := by
  induction m with
  | nil => rfl
  | cons e m ih =>
    obtain ⟨j, v⟩ := e
    simp only [SMap.get, SMap.find?]
    split
    · rfl
    · exact ih

@[simp] theorem SMap.find?_put_self (m : SMap α) (k : Nat) (v : α) : (m.put k v).find? k = some v := by
  induction m with
  | nil => simp [SMap.put, SMap.find?]
  | cons e m ih =>
    obtain ⟨j, u⟩ := e
    simp only [SMap.put]
    split
    · simp [SMap.find?]
    · split
      · simp [SMap.find?]
      · next h => simp [SMap.find?, Ne.symm h, ih]

theorem SMap.find?_put_ne (m : SMap α) {k j : Nat} (v : α) (h : j ≠ k) : (m.put k v).find? j = m.find? j := by
  induction m with
  | nil => simp [SMap.put, SMap.find?, Ne.symm h]
  | cons e m ih =>
    obtain ⟨i, u⟩ := e
    simp only [SMap.put]
    split
    · simp [SMap.find?, Ne.symm h]
    · split
      · next hk => subst hk; simp [SMap.find?, Ne.symm h]
      · simp only [SMap.find?, ih]

theorem SMap.find?_del_ne (m : SMap α) {k j : Nat} (h : j ≠ k) : (m.del k).find? j = m.find? j := by
  induction m with
  | nil => rfl
  | cons e m ih =>
    obtain ⟨i, u⟩ := e
    by_cases hi : i = k
    · subst hi
      simpa [SMap.del, SMap.find?, Ne.symm h] using ih
    · simp only [SMap.del, List.filter_cons, ne_eq, hi, not_false_eq_true, decide_true, if_true, SMap.find?]
      split
      · rfl
      · exact ih

theorem SMap.find?_set_ne [DecidableEq α] (d : α) (m : SMap α) {k j : Nat} (v : α) (h : j ≠ k) :
    SMap.find? (SMap.set d m k v) j = m.find? j := by
  unfold SMap.set
  split
  · exact SMap.find?_del_ne m h
  · exact SMap.find?_put_ne m v h

/-- What a table gives for a key, it lists under that key. -/
theorem SMap.mem_of_find? {m : SMap α} {k : Nat} {v : α} (h : m.find? k = some v) : (k, v) ∈ m := by
  induction m with
  | nil => cases h
  | cons e m ih =>
    obtain ⟨j, u⟩ := e
    simp only [SMap.find?] at h
    split at h
    · next hj => cases h; simp [hj]
    · exact List.mem_cons_of_mem _ (ih h)

end

/-! ## Folds -/

/-- What no step of a fold changes, the fold does not change. -/
theorem foldS_view {α β : Type} (v : State → β) {f : α → State → State} {l : List α} (h : ∀ a ∈ l, ∀ s, v (f a s) = v s) (s : State) :
    v (foldS l f s) = v s := by
  induction l generalizing s with
  | nil => rfl
  | cons a l ih => exact (ih (fun b hb => h b (List.mem_cons_of_mem _ hb)) (f a s)).trans (h a List.mem_cons_self s)

@[simp] theorem foldS_nil {α : Type} (f : α → State → State) (s : State) : foldS [] f s = s := rfl
@[simp] theorem foldS_cons {α : Type} (a : α) (l : List α) (f : α → State → State) (s : State) : foldS (a :: l) f s = foldS l f (f a s) := rfl

/-- What every step keeps, the fold keeps. -/
theorem foldS_keeps {α : Type} (I : State → Prop) {f : α → State → State} {l : List α} (h : ∀ a ∈ l, ∀ s, I s → I (f a s)) {s : State} (hs : I s) :
    I (foldS l f s) := by
  induction l generalizing s with
  | nil => exact hs
  | cons a l ih => exact ih (fun b hb => h b (List.mem_cons_of_mem _ hb)) (h a List.mem_cons_self s hs)

/-- What an element's own step brings about, and every step keeps, holds when the fold has come past the element; `I` is what the steps find. -/
theorem foldS_reaches {α : Type} (I P : State → Prop) {f : α → State → State} {l : List α} {a : α} (ha : a ∈ l)
    (hI : ∀ b ∈ l, ∀ s, I s → I (f b s)) (hstep : ∀ s, I s → P (f a s)) (hkeep : ∀ b ∈ l, ∀ s, I s → P s → P (f b s)) {s : State} (hs : I s) :
    P (foldS l f s) := by
  induction l generalizing s with
  | nil => cases ha
  | cons b l ih =>
    have hIl : ∀ c ∈ l, ∀ s, I s → I (f c s) := fun c hc => hI c (List.mem_cons_of_mem _ hc)
    have hkl : ∀ c ∈ l, ∀ s, I s → P s → P (f c s) := fun c hc => hkeep c (List.mem_cons_of_mem _ hc)
    have hb : I (f b s) := hI b List.mem_cons_self s hs
    rcases List.mem_cons.mp ha with rfl | ha
    · exact (foldS_keeps (fun s => I s ∧ P s) (fun c hc s h => ⟨hIl c hc s h.1, hkl c hc s h.1 h.2⟩) ⟨hb, hstep s hs⟩).2
    · exact ih ha hIl hkl hb

/-! ## Functions -/

@[simp] theorem State.fn_modFn_self (s : State) (k : Nat) (f : Fn → Fn) : (s.modFn k f).fn k = f (s.fn k) := by
  simp [State.modFn, State.fn, State.modPkg]

theorem State.fn_modFn_ne (s : State) {k j : Nat} (f : Fn → Fn) (h : j ≠ k) : (s.modFn k f).fn j = s.fn j := by
  simp [State.modFn, State.fn, State.modPkg, SMap.find?_put_ne _ _ h]

/-! ## The view -/

/-- What neither a kill nor the work of memory moves. -/
structure PlainView where
  now : Nat
  banks : SMap BankEntry
  frame : SMap Nat
  locs : List LocRec
  errs : Nat → Nat

/-- What memory, its tables, streams and rollbacks leave alone. -/
structure KeptView extends PlainView where
  launches : SMap Launch

/-- What the tables of metadata leave alone. -/
structure MetaView extends KeptView where
  mem : Memory
  cores : SMap Core
  owners : SMap (BitVec 16)
  ctxs : SMap Ctx

def State.plain (s : State) : PlainView :=
  { now := s.now, banks := s.pkg.banks, frame := s.pkg.frame, locs := s.svc.locs, errs := fun f => (s.fn f).errs }
def State.kept (s : State) : KeptView := { s.plain with launches := s.pkg.launches }
def State.metaView (s : State) : MetaView := { s.kept with mem := s.mem, cores := s.cores, owners := s.pkg.owners, ctxs := s.pkg.ctxs }

@[simp] theorem metaView_modFn (s : State) (k : Nat) (f : Fn → Fn) (h : ∀ x, (f x).errs = x.errs) : (s.modFn k f).metaView = s.metaView := by
  have he : (fun j => ((s.modFn k f).fn j).errs) = fun j => (s.fn j).errs := by
    funext j
    by_cases hj : j = k
    · rw [hj, State.fn_modFn_self, h]
    · rw [State.fn_modFn_ne s f hj]
  simp only [State.metaView, State.kept, State.plain, he]
  rfl

@[simp] theorem kept_modPkg (s : State) (f : Pkg → Pkg)
    (h : ∀ p, (f p).launches = p.launches ∧ (f p).banks = p.banks ∧ (f p).frame = p.frame ∧ (f p).fns = p.fns) : (s.modPkg f).kept = s.kept := by
  obtain ⟨hl, hb, hf, hn⟩ := h s.pkg
  simp [State.kept, State.plain, State.fn, hl, hb, hf, hn]

@[simp] theorem metaView_modPkg (s : State) (f : Pkg → Pkg)
    (h : ∀ p, (f p).launches = p.launches ∧ (f p).banks = p.banks ∧ (f p).frame = p.frame ∧ (f p).fns = p.fns)
    (h' : ∀ p, (f p).owners = p.owners ∧ (f p).ctxs = p.ctxs) : (s.modPkg f).metaView = s.metaView := by
  obtain ⟨ho, hc⟩ := h' s.pkg
  simp [State.metaView, kept_modPkg s f h, ho, hc]

@[simp] theorem kept_modSvc (s : State) (f : Svc → Svc) (h : ∀ v, (f v).locs = v.locs) : (s.modSvc f).kept = s.kept := by
  simp only [State.kept, State.plain, State.modSvc_svc, h]
  rfl

@[simp] theorem metaView_modSvc (s : State) (f : Svc → Svc) (h : ∀ v, (f v).locs = v.locs) : (s.modSvc f).metaView = s.metaView := by
  simp only [State.metaView, kept_modSvc s f h]
  rfl

@[simp] theorem metaView_post (s : State) (t : Nat) (i : Instr) : (s.post t i).metaView = s.metaView := rfl

theorem plain_of_kept {s t : State} (h : t.kept = s.kept) : t.plain = s.plain := congrArg KeptView.toPlainView h
theorem kept_of_metaView {s t : State} (h : t.metaView = s.metaView) : t.kept = s.kept := congrArg MetaView.toKeptView h

/-! ## Committing metadata groups (13 R262) -/

@[simp] theorem formGroup_metaView (ch : Nat) (b : CtrBlock) (s : State) : (formGroup ch b s).1.metaView = s.metaView := by
  simp [formGroup, putNodes]

@[simp] theorem logGroup_metaView (g : MetaGroup) (s : State) : (logGroup g s).metaView = s.metaView := by simp [logGroup]

@[simp] theorem applyGroup_metaView (g : MetaGroup) (s : State) : (applyGroup g s).metaView = s.metaView := by simp [applyGroup]

@[simp] theorem commitGroup_metaView (ch : Nat) (b : CtrBlock) (s : State) : (commitGroup ch b s).metaView = s.metaView := by simp [commitGroup]

@[simp] theorem commitChunk_metaView (ch : Nat) (s : State) : (commitChunk ch s).metaView = s.metaView := by simp [commitChunk]

/-! ## Metadata caches (04 R97) -/

@[simp] theorem evictNode_metaView (st key : Nat) (s : State) : (evictNode st key s).metaView = s.metaView := by
  simp [evictNode, foldS_view State.metaView fun ch _ => commitChunk_metaView ch]

@[simp] theorem holdNodes_metaView (st : Nat) (ns : List (Nat × TreeNode)) (s : State) : (holdNodes st ns s).metaView = s.metaView := by
  unfold holdNodes
  dsimp only
  split
  · simp
  · simp [foldS_view State.metaView fun key _ => evictNode_metaView st key]

@[simp] theorem fetchMeta_metaView (ch : Nat) (s : State) : (fetchMeta ch s).1.metaView = s.metaView := by
  unfold fetchMeta
  dsimp only
  split
  · rfl
  · split
    · simp
    · simp

@[simp] theorem touchPath_metaView (ch : Nat) (s : State) : (touchPath ch s).metaView = s.metaView := by
  unfold touchPath
  dsimp only
  split
  · rfl
  · simp [putNodes]

/-! ## Keys and counters (04 R92, R98, R99) -/

@[simp] theorem setMeta_metaView (la : Nat) (m : LineMeta) (s : State) : (s.setMeta la m).metaView = s.metaView := by simp [State.setMeta]

@[simp] theorem dirtyMeta_metaView (ch : Nat) (s : State) : (s.dirtyMeta ch).metaView = s.metaView := by
  unfold State.dirtyMeta
  split
  · rfl
  · simp

@[simp] theorem drawKey_metaView (o : Nat) (s : State) : (drawKey o s).metaView = s.metaView := by
  unfold drawKey
  dsimp only
  split
  · simp
  · split
    · simp
    · split <;> simp

@[simp] theorem rekeyChunk_metaView (ch : Nat) (s : State) : (rekeyChunk ch s).metaView = s.metaView := by
  simp [rekeyChunk, foldS_view State.metaView]

@[simp] theorem rekeyOwner_metaView (o : Nat) (s : State) : (rekeyOwner o s).metaView = s.metaView := by
  simp [rekeyOwner, foldS_view State.metaView]

@[simp] theorem nextMajor_metaView (ch : Nat) (s : State) : (nextMajor ch s).metaView = s.metaView := by
  unfold nextMajor
  dsimp only
  split
  · exact rekeyOwner_metaView ..
  · rw [apply_ite State.metaView, metaView_post, ite_self, commitChunk_metaView, metaView_modPkg _ _ (by simp) (by simp)]
    exact foldS_view State.metaView (by simp) s

@[simp] theorem bumpCounter_metaView (la : Nat) (s : State) : (bumpCounter la s).metaView = s.metaView := by
  unfold bumpCounter
  dsimp only
  split <;> simp

end Sys2Proof.Machine
end

section
/-!
PROOFS. What merges, fills, links and translations leave alone (04, 05, 11, 13): the time, the launches, the bank entries, the frame origins, the
records of fault locations and the functions' ERRS.
-/
namespace Sys2Proof.Machine

/-! ## Updates of the state -/

@[simp] theorem kept_modFn (s : State) (k : Nat) (f : Fn → Fn) (h : ∀ x, (f x).errs = x.errs) : (s.modFn k f).kept = s.kept :=
  kept_of_metaView (metaView_modFn s k f h)
@[simp] theorem kept_setCore (s : State) (k : Nat) (c : Core) : (s.setCore k c).kept = s.kept := rfl
@[simp] theorem kept_modCore (s : State) (k : Nat) (f : Core → Core) : (s.modCore k f).kept = s.kept := rfl
@[simp] theorem kept_setGroup (s : State) (k : Nat) (g : Group) : (s.setGroup k g).kept = s.kept := rfl
@[simp] theorem kept_modGroup (s : State) (k : Nat) (f : Group → Group) : (s.modGroup k f).kept = s.kept := by
  unfold State.modGroup
  split <;> rfl
@[simp] theorem kept_modCtxCrew (s : State) (k c : Nat) (f : Crew → Crew) : (s.modCtxCrew k c f).kept = s.kept := kept_modGroup ..
@[simp] theorem kept_modCtx (s : State) (a : Nat) (f : Ctx → Ctx) : (s.modCtx a f).kept = s.kept := rfl
@[simp] theorem kept_modEng (s : State) (k : Nat) (f : EngCtx → EngCtx) : (s.modEng k f).kept = s.kept := rfl
@[simp] theorem kept_putRaw (s : State) (a : Nat) (bs : List Byte) : (s.putRaw a bs).kept = s.kept := rfl
@[simp] theorem kept_post (s : State) (t : Nat) (i : Instr) : (s.post t i).kept = s.kept := rfl

@[simp] theorem commitChunk_kept (ch : Nat) (s : State) : (commitChunk ch s).kept = s.kept := kept_of_metaView (commitChunk_metaView ch s)
@[simp] theorem fetchMeta_kept (ch : Nat) (s : State) : (fetchMeta ch s).1.kept = s.kept := kept_of_metaView (fetchMeta_metaView ch s)
@[simp] theorem bumpCounter_kept (la : Nat) (s : State) : (bumpCounter la s).kept = s.kept := kept_of_metaView (bumpCounter_metaView la s)
@[simp] theorem setMeta_kept (la : Nat) (m : LineMeta) (s : State) : (s.setMeta la m).kept = s.kept := kept_of_metaView (setMeta_metaView la m s)

/-- Reads a view off an answer that is known as a pair. -/
theorem kept_of_pair {α : Type} {p : State × α} {t : State} {a : α} {v : KeptView} (e : p = (t, a)) (h : p.1.kept = v) : t.kept = v := by
  rw [e] at h
  exact h

/-! ## Logs and write-backs (13 R267, R269; 04 R98) -/

@[simp] theorem writeLogLine_kept (a i : Nat) (s : State) : (writeLogLine a i s).kept = s.kept := by
  unfold writeLogLine
  extract_lets c
  split
  · rfl
  · simp

@[simp] theorem ackLog_kept (a n : Nat) (s : State) : (ackLog a n s).kept = s.kept := by
  simp [ackLog, foldS_view State.kept]

@[simp] theorem forceLog_kept (a : Nat) (s : State) : (forceLog a s).kept = s.kept := ackLog_kept ..

@[simp] theorem writeBackLine_kept (la : Nat) (s : State) : (writeBackLine la s).kept = s.kept := by
  unfold writeBackLine
  split
  · rfl
  · split
    · rfl
    · rw [kept_modPkg _ _ (by simp), kept_putRaw, bumpCounter_kept, fetchMeta_kept]
      split
      · split <;> simp
      · rfl

@[simp] theorem installL2_kept (la : Nat) (d : Line) (s : State) : (installL2 la d s).kept = s.kept := by
  unfold installL2
  rw [kept_modPkg _ _ (by simp)]
  split
  · rfl
  · split
    · simp
    · rfl

@[simp] theorem countErru_kept (la : Nat) (s : State) : (countErru la s).kept = s.kept := foldS_view State.kept (by simp) s

@[simp] theorem fillLine_kept (la : Nat) (a b : Bool) (s : State) : (fillLine la a b s).1.kept = s.kept := by
  unfold fillLine
  split
  · rfl
  · split
    · next h => simpa using kept_of_pair h (fetchMeta_kept ..)
    · next h =>
      have h := kept_of_pair h (fetchMeta_kept ..)
      split
      · simpa using h
      · split <;> simpa using h

/-! ## Merges (13 R268) -/

@[simp] theorem appendRec_kept (a : Nat) (r : List Byte) (s : State) : (appendRec a r s).kept = s.kept := rfl

@[simp] theorem applyMerge_kept (r : MergeReq) (l : L2Line) (s : State) : (applyMerge r l s).kept = s.kept := by simp [applyMerge]

@[simp] theorem recordMerge_kept (r : MergeReq) (l : L2Line) (s : State) : (recordMerge r l s).1.kept = s.kept := by
  unfold recordMerge
  split
  · rfl
  · extract_lets c bm first
    split
    · rfl
    · split
      · rfl
      · split <;> simp

@[simp] theorem mergeNow_kept (r : MergeReq) (s : State) : (mergeNow r s).1.kept = s.kept := by
  unfold mergeNow
  split
  next s₁ ok h =>
    have h₁ : s₁.kept = s.kept := kept_of_pair h (by split <;> simp)
    split
    · exact h₁
    · split
      · exact h₁
      · split
        next l _ s₂ m h₂ =>
          have h₂ : s₂.kept = s.kept := (kept_of_pair h₂ (recordMerge_kept ..)).trans h₁
          split
          · simpa using h₂
          · exact h₂

@[simp] theorem enqueueMerge_kept (r : MergeReq) (s : State) : (enqueueMerge r s).kept = s.kept := by simp [enqueueMerge]

@[simp] theorem reportPoison_kept (r : MergeReq) (was : Bool) (s : State) : (reportPoison r was s).kept = s.kept := by
  unfold reportPoison
  extract_lets rep
  rw [kept_modSvc _ _ (by simp)]
  split <;> simp

@[simp] theorem mergeScan_kept (one : Bool) (l : List MergeReq) : ∀ kept s, (mergeScan one kept l s).1.kept = s.kept := by
  induction l with
  | nil => exact fun _ _ => rfl
  | cons r l ih =>
    intro kept s
    unfold mergeScan
    split
    · exact ih ..
    · extract_lets was
      split
      · next h => exact (ih ..).trans (kept_of_pair h (mergeNow_kept ..))
      · next s₁ m _ h =>
        have h₁ : s₁.kept = s.kept := kept_of_pair h (mergeNow_kept ..)
        extract_lets s₂
        have h₂ : s₂.kept = s.kept := by
          unfold s₂
          split
          · exact (reportPoison_kept ..).trans h₁
          · exact h₁
        split
        · exact h₂
        · exact (ih ..).trans h₂

@[simp] theorem mergeBank_kept (b : Nat) (s : State) : (mergeBank b s).kept = s.kept := by
  unfold mergeBank
  split
  · rfl
  · simp

@[simp] theorem mergeAll_kept (s : State) : (mergeAll s).kept = s.kept := foldS_view State.kept (by simp) s

@[simp] theorem homeLine_kept (la : Nat) (s : State) : (homeLine la s).1.kept = s.kept := by
  unfold homeLine
  extract_lets s₁
  have h₁ : s₁.kept = s.kept := mergeBank_kept ..
  split
  next s₂ ok h =>
    have h₂ : s₂.kept = s.kept := (kept_of_pair h (fillLine_kept ..)).trans h₁
    split
    · split
      · simpa using h₂
      · exact h₂
    · exact h₂

@[simp] theorem homeWrite_kept (w : Writer) (pa : Nat) (bs : List Byte) (s : State) : (homeWrite w pa bs s).1.kept = s.kept := by
  unfold homeWrite
  extract_lets la s₁
  have h₁ : s₁.kept = s.kept := mergeBank_kept ..
  split
  · exact (fillLine_kept ..).trans h₁
  · simpa using h₁

/-! ## Links (11 R228, R230) -/

@[simp] theorem failLink_kept (k : Nat) (q : LinkReq) (s : State) : (failLink k q s).kept = s.kept := by
  unfold failLink failLink.left
  split
  · split <;> simp
  · simp

@[simp] theorem linkDone_kept (k : Nat) (s : State) : (linkDone k s).kept = s.kept := by
  unfold linkDone
  split
  · rfl
  · extract_lets s₁
    have h₁ : s₁.kept = s.kept := kept_modCore ..
    split
    · exact h₁
    · exact (failLink_kept ..).trans h₁

@[simp] theorem linkAll_kept (k : Nat) (s : State) : (linkAll k s).kept = s.kept := foldS_view State.kept (by simp) s

@[simp] theorem linkEvery_kept (s : State) : (linkEvery s).kept = s.kept := foldS_view State.kept (by simp) s

/-! ## Translation (04 R75 to R86) -/

@[simp] theorem report_kept (what : String) (fn : Option Nat) (addr : Nat) (s : State) (a : Option Nat) : (report what fn addr s a).kept = s.kept := by
  simp [report]

@[simp] theorem walkPut_kept (r : Nat) (l : WalkLine) (u : Nat × Nat × Nat) (s : State) : (walkPut r l u s).kept = s.kept := by
  unfold walkPut
  split
  · rfl
  · simp

@[simp] theorem pteRead_kept (k asid va level pte : Nat) (s : State) : (pteRead k asid va level pte s).1.kept = s.kept := by
  unfold pteRead
  extract_lets at_ r u
  split
  · simp
  · split
    · next h => exact kept_of_pair h (homeLine_kept ..)
    · next h => simpa using kept_of_pair h (homeLine_kept ..)

@[simp] theorem walkFrom_kept (k asid fn va n : Nat) : ∀ table s, (walkFrom k asid fn va n table s).1.kept = s.kept := by
  induction n with
  | zero => exact fun _ _ => rfl
  | succ n ih =>
    intro table s
    unfold walkFrom
    extract_lets pte
    split
    · next h => exact kept_of_pair h (pteRead_kept ..)
    · next s₁ e t h =>
      have h₁ : s₁.kept = s.kept := kept_of_pair h (pteRead_kept ..)
      split
      · exact h₁
      · split
        · split
          · exact (ih ..).trans h₁
          · exact h₁
        · split <;> exact h₁

@[simp] theorem setAD_kept (pte e : Nat) (wr : Bool) (s : State) : (setAD pte e wr s).kept = s.kept := by
  unfold setAD
  split
  · rfl
  · extract_lets bits s₁
    rw [kept_modPkg _ _ (by simp)]
    unfold s₁
    split
    · next h => exact (homeWrite_kept ..).trans (kept_of_pair h (homeLine_kept ..))
    · next h => exact kept_of_pair h (homeLine_kept ..)

@[simp] theorem tlbInstall_kept (k : Nat) (t : TlbEntry) (s : State) : (tlbInstall k t s).kept = s.kept := by simp [tlbInstall]

@[simp] theorem tlbRefresh_kept (t : TlbEntry) (s : State) : (tlbRefresh t s).kept = s.kept := by
  unfold tlbRefresh
  split
  · rfl
  · rfl

@[simp] theorem takeKey_kept (r asid va t : Nat) (s : State) : (takeKey r asid va t s).kept = s.kept := by simp [takeKey]

@[simp] theorem joinKey_kept (r asid va : Nat) (e : TlbEntry) (s : State) : (joinKey r asid va e s).1.kept = s.kept := by
  unfold joinKey
  split
  · split
    · simp
    · rfl
  · dsimp only
    split
    · simp
    · rfl

@[simp] theorem walkFor_kept (k asid va : Nat) (acc : Acc) (s : State) : (walkFor k asid va acc s).1.kept = s.kept := by
  unfold walkFor
  extract_lets c keyed
  split
  · rfl
  · split
    all_goals
      next h =>
      have h₁ := kept_of_pair h (walkFrom_kept ..)
      simpa [keyed] using h₁

@[simp] theorem lookup_kept (k asid va : Nat) (acc : Acc) (s : State) : (lookup k asid va acc s).1.kept = s.kept := by
  unfold lookup
  extract_lets fit
  split
  · split
    · rfl
    · exact joinKey_kept ..
  · split
    · split
      next s₁ held h =>
        rw [kept_modPkg _ _ (by simp), kept_modCore]
        exact kept_of_pair h (by split <;> simp)
    · exact walkFor_kept ..

@[simp] theorem translate_kept (k asid va : Nat) (acc : Acc) (s : State) : (translate k asid va acc s).1.kept = s.kept := by
  unfold translate
  extract_lets va
  split
  · next h => exact kept_of_pair h (lookup_kept ..)
  · next h =>
    have h₁ := kept_of_pair h (lookup_kept ..)
    split <;> exact h₁

end Sys2Proof.Machine
end

section
/-!
PROOFS. What streams, matrix steps, rollbacks and the end of a group leave alone (03 R59; 10 R201 to R210; 18 R365).
-/
namespace Sys2Proof.Machine

/-! ## Streams (10 R201, R202) -/

@[simp] theorem streamMem_kept (k asid fuel : Nat) : ∀ va n s, (streamMem k asid fuel va n s).1.kept = s.kept := by
  induction fuel with
  | zero => exact fun _ _ _ => rfl
  | succ fuel ih =>
    intro va n s
    unfold streamMem
    split
    · rfl
    · extract_lets va m
      split
      · next h => exact kept_of_pair h (translate_kept ..)
      · next s₁ p h =>
        have h₁ : s₁.kept = s.kept := kept_of_pair h (translate_kept ..)
        split
        next s₂ bs hbs =>
          have h₂ : s₂.kept = s.kept := by
            refine (kept_of_pair hbs ?_).trans h₁
            split
            · split
              · next h => exact kept_of_pair h (homeLine_kept ..)
              · next h => exact kept_of_pair h (homeLine_kept ..)
            · simp
          split
          · exact h₂
          · split
            · next h => exact (kept_of_pair h (ih ..)).trans h₂
            · exact (ih ..).trans h₂

@[simp] theorem streamBytes_kept (k ctx kind loc base o n : Nat) (s : State) : (streamBytes k ctx kind loc base o n s).1.kept = s.kept := by
  unfold streamBytes
  split
  · rfl
  · split
    · extract_lets ea
      split <;> rfl
    · split
      · rfl
      · extract_lets es
        split <;> rfl
    · split
      · split <;> rfl
      · rfl
    · split
      · next h => exact kept_of_pair h (streamMem_kept ..)
      · next h => exact kept_of_pair h (streamMem_kept ..)

/-- A fold over a state and what has been read with it. -/
theorem foldl_fst_kept {α β : Type} {f : State × β → α → State × β} (l : List α) (h : ∀ acc a, (f acc a).1.kept = acc.1.kept) (acc : State × β) :
    (l.foldl f acc).1.kept = acc.1.kept := by
  induction l generalizing acc with
  | nil => rfl
  | cons a l ih => exact (ih (f acc a)).trans (h acc a)

@[simp] theorem stepBytes_kept (k : Nat) (m : Macro) (s : State) : (stepBytes k m s).1.kept = s.kept := by
  unfold stepBytes
  refine foldl_fst_kept _ (fun acc r => ?_) (s, _)
  obtain ⟨kind, loc, base, o, n⟩ := r
  dsimp only
  split
  · split
    all_goals
      next h =>
      refine kept_of_pair h ?_
      split
      · rfl
      · exact streamBytes_kept ..
  · rfl

/-! ## Steps of the matrix lanes (10 R205 to R210) -/

@[simp] theorem unpin_kept (k : Nat) (z : Bool) (of : Nat → Bool) (s : State) : (unpin k z of s).kept = s.kept := by
  unfold unpin
  split
  · rfl
  · extract_lets gone s₁
    split
    · rfl
    · rw [kept_modGroup]
      refine foldS_view State.kept (fun x _ s => ?_) s
      split
      · simp
      · rfl

@[simp] theorem unpinAll_kept (k : Nat) (s : State) : (unpinAll k s).kept = s.kept := by simp [unpinAll]

@[simp] theorem macroStop_kept (k : Nat) (m : Macro) (t : Trap) (addr : Nat) (s : State) : (macroStop k m t addr s).kept = s.kept := by
  simp [macroStop, macroFault]

@[simp] theorem macroEnd_kept (k : Nat) (m : Macro) (s : State) : (macroEnd k m s).kept = s.kept := by
  unfold macroEnd
  extract_lets s₁ s₂
  have h : s₂.kept = s.kept := by
    unfold s₂ s₁
    rw [kept_modGroup]
    split <;> simp
  split
  · simpa using h
  · exact h

@[simp] theorem computeStep_kept (k : Nat) (m : Macro) (s : State) : (computeStep k m s).kept = s.kept := by
  unfold computeStep
  split
  · simp
  · split
    · next h => simpa using kept_of_pair h (stepBytes_kept ..)
    · next h => exact kept_of_pair h (stepBytes_kept ..)
    · next h =>
      have h := kept_of_pair h (stepBytes_kept ..)
      extract_lets w late m s₂
      split
      · simpa using h
      · split
        · rw [macroEnd_kept]
          exact (kept_modGroup ..).trans h
        · exact (kept_modGroup ..).trans h

@[simp] theorem takeEntries_kept (k ctx kind loc len : Nat) (s : State) : (takeEntries k ctx kind loc len s).1.kept = s.kept := by
  unfold takeEntries
  split
  · rfl
  · split
    · simp
    · rfl

@[simp] theorem macroStart_kept (k : Nat) (m : Macro) (s : State) : (macroStart k m s).kept = s.kept := by
  unfold macroStart
  extract_lets m zero
  split
  · simp
  · simp
  · split
    next s₁ ba h₁ =>
      split
      next s₂ bb h₂ =>
        rw [kept_modGroup]
        exact (kept_of_pair h₂ (takeEntries_kept ..)).trans (kept_of_pair h₁ (takeEntries_kept ..))

/-- A retired element's bytes go to the core's scratchpad or to a staging bank. -/
theorem retireWrite_kept {k kind loc o : Nat} {bs : List Byte} {s t : State} (h : retireWrite k kind loc o bs s = .ok t) : t.kept = s.kept := by
  unfold retireWrite at h
  split at h
  · cases h
    rfl
  · split at h
    · extract_lets ea at h
      split at h
      · cases h
        exact kept_modGroup ..
      · cases h
    · split at h
      · split at h
        · cases h
          simp
        · cases h
      · cases h

/-- What the rows of a column that have been written have come to keeps the view. -/
def OkKept (s : State) (x : Except Trap State × BitVec 5) : Prop := ∀ t, x.1 = .ok t → t.kept = s.kept

theorem OkKept.foldl {s : State} {α : Type} {f : Except Trap State × BitVec 5 → α → Except Trap State × BitVec 5} (l : List α)
    (h : ∀ x a, OkKept s x → OkKept s (f x a)) {x : Except Trap State × BitVec 5} (hx : OkKept s x) : OkKept s (l.foldl f x) := by
  induction l generalizing x with
  | nil => exact hx
  | cons a l ih => exact ih (h x a hx)

@[simp] theorem retireStep_kept (k : Nat) (m : Macro) (s : State) : (retireStep k m s).kept = s.kept := by
  unfold retireStep
  extract_lets w z r
  have hr : OkKept s r := by
    refine OkKept.foldl _ (fun x i hx => ?_) (fun t ht => by cases ht; rfl)
    obtain ⟨e, fl⟩ := x
    cases e with
    | error t => exact fun _ h => nomatch h
    | ok t => exact fun u hu => (retireWrite_kept hu).trans (hx t rfl)
  clear_value r
  obtain ⟨e, fl⟩ := r
  cases e with
  | error t => exact macroStop_kept ..
  | ok t =>
    have ht : t.kept = s.kept := hr t rfl
    dsimp only
    split
    · rw [macroEnd_kept, kept_modCtxCrew, ht]
    · rw [kept_modGroup, kept_modCtxCrew, ht]

@[simp] theorem laneStep_kept (k : Nat) (retire : Bool) (m : Macro) (s : State) : (laneStep k retire m s).kept = s.kept := by
  unfold laneStep
  split <;> simp

@[simp] theorem finishLane_kept (k : Nat) (mine : Macro → Bool) (retire : Bool) (n : Nat) : ∀ s, (finishLane k mine retire n s).kept = s.kept := by
  induction n with
  | zero => exact fun _ => rfl
  | succ n ih =>
    intro s
    unfold finishLane
    split
    · rfl
    · split
      · rfl
      · split
        · rw [ih]
          split <;> simp
        · rfl

@[simp] theorem finishBoth_kept (k : Nat) (mine : Macro → Bool) (s : State) : (finishBoth k mine s).kept = s.kept := by
  unfold finishBoth
  extract_lets first
  split
  · rw [finishLane_kept, finishLane_kept]
  · rw [finishLane_kept, finishLane_kept]

@[simp] theorem settleMacros_kept (k : Nat) (c : Crew) (s : State) : (settleMacros k c s).1.kept = s.kept := by
  unfold settleMacros
  extract_lets mine keep s₁
  split
  · rfl
  · simp [s₁]

/-! ## Rollback and the end of a group (03 R59; 18 R365) -/

@[simp] theorem endCmd_kept (key num : Nat) (s : State) : (endCmd key num s).kept = s.kept := rfl

@[simp] theorem dropEntry_kept (k asid : Nat) (e : BufEntry) (s : State) : (dropEntry k asid e s).kept = s.kept := by
  unfold dropEntry
  split <;> rfl

@[simp] theorem nullAccept_kept (k : Nat) (r : AcceptReq) (s : State) : (nullAccept k r s).kept = s.kept := rfl

@[simp] theorem leaveWait_kept (me : Nat × Nat) (s : State) : (leaveWait me s).kept = s.kept := foldS_view State.kept (by simp) s

@[simp] theorem undoCrew_kept (k : Nat) (c : Crew) (s : State) : (undoCrew k c s).1.kept = s.kept := by
  unfold undoCrew
  split
  next s₁ c₁ h =>
    have h₁ : s₁.kept = s.kept := kept_of_pair h (settleMacros_kept ..)
    split
    · exact h₁
    · extract_lets asid s₂ s₃ s₄
      have h₂ : s₂.kept = s.kept := by
        unfold s₂
        rw [leaveWait_kept, foldS_view State.kept (by simp), foldS_view State.kept (by simp), h₁]
      have h₃ : s₃.kept = s.kept := by
        unfold s₃
        split
        · split
          · exact (kept_modGroup ..).trans h₂
          · exact h₂
        · exact h₂
      simpa [s₄] using h₃

@[simp] theorem killGroup_kept (k : Nat) (s : State) : (killGroup k s).kept = s.kept := by
  unfold killGroup
  extract_lets s₁
  have h₁ : s₁.kept = s.kept := finishBoth_kept ..
  split
  · exact h₁
  · rw [kept_modCore, unpinAll_kept, foldS_view State.kept (by simp), h₁]

end Sys2Proof.Machine
end

section
/-!
PROOFS. The end of a launch, and what holds a part of a failed or lost die (01 R18; 18 R365, R376).
-/
namespace Sys2Proof.Machine

/-! ## Ending a launch (18 R365) -/

@[simp] theorem dropCmds_kept (n : Nat) (b : Bool) (s : State) : (dropCmds n b s).kept = s.kept := by
  unfold dropCmds
  extract_lets gone s₁
  rw [kept_modPkg _ _ (by simp)]
  exact foldS_view State.kept (by simp) s

@[simp] theorem plain_modLaunch (s : State) (n : Nat) (f : Launch → Launch) : (s.modLaunch n f).plain = s.plain := by
  unfold State.modLaunch
  split <;> rfl

@[simp] theorem boundRun_plain (n : Nat) (s : State) : (boundRun n s).plain = s.plain := by
  unfold boundRun
  extract_lets l
  split
  · exact plain_modLaunch ..
  · exact plain_modLaunch ..
  · rfl

theorem State.launch_modLaunch_self {s : State} {n : Nat} {l : Launch} (h : s.pkg.launches.find? n = some l) (f : Launch → Launch) :
    (s.modLaunch n f).launch n = f l := by
  simp [State.modLaunch, h, State.launch, State.modPkg]

/-- The time bound's account leaves a launch's status alone. -/
@[simp] theorem boundRun_status (n : Nat) (s : State) : ((boundRun n s).launch n).status = (s.launch n).status := by
  have h : ∀ f : Launch → Launch, (∀ l, (f l).status = l.status) → ((s.modLaunch n f).launch n).status = (s.launch n).status := by
    intro f hf
    cases hl : s.pkg.launches.find? n with
    | none => simp [State.modLaunch, hl]
    | some l => rw [State.launch_modLaunch_self hl, hf, State.launch, hl, Option.getD_some]
  unfold boundRun
  extract_lets l
  split
  · exact h _ fun _ => rfl
  · exact h _ fun _ => rfl
  · rfl

@[simp] theorem callPlacement_plain (n : Nat) (s : State) : (callPlacement n s).plain = s.plain := rfl
@[simp] theorem callPlacement_launch (n m : Nat) (s : State) : (callPlacement n s).launch m = s.launch m := rfl

/-- What an open launch's end does to it, and what it leaves alone. -/
theorem endLaunch_open {s : State} {n : Nat} {l : Launch} (st : Nat × Nat × Nat × Nat) (hl : s.pkg.launches.find? n = some l) (hc : l.complete = false)
    (ha : l.abandoned = false) (hs : l.status = none) :
    (endLaunch st n s).plain = s.plain ∧ ((endLaunch st n s).launch n).status = some st := by
  have e : s.launch n = l := by rw [State.launch, hl, Option.getD_some]
  unfold endLaunch
  extract_lets l' s₁ s₂
  rw [if_neg (by rw [show l' = l from e, hc]; decide), if_neg (by rw [show l' = l from e, hs, ha]; decide)]
  have h₂ : s₂.kept = s.kept := by
    have h₁ : s₁.kept = s.kept := foldS_view State.kept (by simp) s
    unfold s₂
    rw [foldS_view State.kept, h₁]
    exact fun x _ t => foldS_view State.kept (fun g _ t => foldS_view State.kept (fun c _ t => foldS_view State.kept (by simp) t) t) t
  have h₃ := (dropCmds_kept n (decide (st.1 = 2)) s₂).trans h₂
  have hl₃ : (dropCmds n (decide (st.1 = 2)) s₂).pkg.launches.find? n = some l :=
    (congrArg (fun v : KeptView => v.launches.find? n) h₃).trans hl
  constructor
  · rw [callPlacement_plain, boundRun_plain, plain_modLaunch]
    exact plain_of_kept h₃
  · rw [callPlacement_launch, boundRun_status, State.launch_modLaunch_self hl₃]

/-! ## The agenda -/

@[simp] theorem mem_insertEvent (e : Nat × Instr) (t : Nat) (i : Instr) (l : List (Nat × Instr)) : e ∈ insertEvent t i l ↔ e = (t, i) ∨ e ∈ l := by
  induction l with
  | nil => simp [insertEvent]
  | cons x l ih =>
    obtain ⟨u, j⟩ := x
    simp only [insertEvent]
    split
    · simp
    · simp only [List.mem_cons, ih]
      tauto

theorem mem_agenda_post_self (s : State) (t : Nat) (i : Instr) : (t, i) ∈ (s.post t i).agenda := by simp

/-- What stands on the agenda stays there while events are posted. -/
theorem mem_agenda_foldS_post {α : Type} {e : Nat × Instr} (l : List α) (t : State → α → Nat) (i : α → Instr) {s : State} (h : e ∈ s.agenda) :
    e ∈ (foldS l (fun a s => s.post (t s a) (i a)) s).agenda :=
  foldS_keeps (fun s => e ∈ s.agenda) (fun a _ s hs => by simp [hs]) h

/-- Posting events leaves everything but the agenda. -/
theorem foldS_post_eq {α : Type} (l : List α) (t : State → α → Nat) (i : α → Instr) (s : State) :
    foldS l (fun a s => s.post (t s a) (i a)) s = { s with agenda := (foldS l (fun a s => s.post (t s a) (i a)) s).agenda } :=
  foldS_keeps (fun u => u = { s with agenda := u.agenda }) (fun a _ u hu => by rw [hu]; rfl) rfl

/-! ## The loss of a die (01 R18) -/

@[simp] theorem dropRides_kept (die : Nat) (s : State) : (dropRides die s).kept = s.kept := by simp [dropRides]

@[simp] theorem applyGroup_kept (g : MetaGroup) (s : State) : (applyGroup g s).kept = s.kept := kept_of_metaView (applyGroup_metaView g s)

@[simp] theorem replayGroups_kept (ours : Nat → Bool) (s : State) : (replayGroups ours s).kept = s.kept := foldS_view State.kept (by simp) s

@[simp] theorem replayGroups_cores (ours : Nat → Bool) (s : State) : (replayGroups ours s).cores = s.cores :=
  foldS_view State.cores (fun g _ s => congrArg MetaView.cores (applyGroup_metaView g s)) s

@[simp] theorem wipeDie_kept (die : Nat) (s : State) : (wipeDie die s).kept = s.kept := by
  unfold wipeDie
  extract_lets ours s₁ s₂ s₃
  rw [kept_modPkg _ _ (by simp)]
  unfold s₃ s₂ s₁
  rw [dropRides_kept, replayGroups_kept, foldS_view State.kept (by simp), foldS_view State.kept (by simp)]

theorem wipeDie_l2 (die : Nat) (s : State) : ∀ e ∈ (wipeDie die s).pkg.l2, e.2.bank / 512 ≠ die := by
  intro e he
  simpa using (List.mem_filter.mp he).2

/-- A key that a table gives no default for is listed. -/
theorem SMap.mem_of_get_ne {α : Type} {d : α} {m : SMap α} {k : Nat} (h : SMap.get d m k ≠ d) : (k, SMap.get d m k) ∈ m := by
  cases e : m.find? k with
  | none => exact absurd (by rw [SMap.get_eq_find?, e, Option.getD_none]) h
  | some v =>
    rw [SMap.get_eq_find?, e, Option.getD_some]
    exact SMap.mem_of_find? e

/-- What the reset of a core leaves: its fence. -/
def State.bareCore (s : State) (k : Nat) : State := s.setCore k { fenced := (s.core k).fenced }

theorem bareCore_core (s : State) (j k : Nat) : (s.bareCore j).core k = if k = j then { fenced := (s.core k).fenced } else s.core k := by
  split
  · next h => rw [h, State.bareCore, State.core_setCore_self]
  · next h => exact State.core_setCore_ne _ _ h

/-- Every listed core of a die stands bare after the reset of them all; one that is not listed does so anyway. -/
theorem foldS_bareCore_core {die k : Nat} (hk : dieOf k = die) (s : State) :
    (foldS ((s.cores.filter fun c => dieOf c.1 = die).map Prod.fst) (fun k s => s.bareCore k) s).core k = { fenced := (s.core k).fenced } := by
  by_cases hd : s.core k = {}
  · refine foldS_keeps (fun t => t.core k = { fenced := (s.core k).fenced }) (fun j _ t ht => ?_) (by rw [hd])
    simp only [bareCore_core, ht, ite_self]
  · have hm : k ∈ (s.cores.filter fun c => dieOf c.1 = die).map Prod.fst :=
      List.mem_map.mpr ⟨(k, s.core k), List.mem_filter.mpr ⟨SMap.mem_of_get_ne hd, by simpa using hk⟩, rfl⟩
    refine foldS_reaches (fun t => (t.core k).fenced = (s.core k).fenced) (fun t => t.core k = { fenced := (s.core k).fenced }) hm
      (fun j _ t ht => ?_) (fun t ht => ?_) (fun j _ t _ ht => ?_) rfl
    · rw [bareCore_core]
      split <;> exact ht
    · rw [bareCore_core, if_pos rfl, ht]
    · rw [bareCore_core, ht, ite_self]

/-- A core of the die is as after reset, but for its fence. -/
theorem wipeDie_core {die k : Nat} (hk : dieOf k = die) (s : State) : (wipeDie die s).core k = { fenced := (s.core k).fenced } := by
  unfold wipeDie
  extract_lets ours s₁ s₂ s₃
  have h₁ : s₁.cores = s.cores := foldS_view State.cores (f := fun (x : Nat × Nat) s => endCmd x.1 x.2 s) (fun _ _ _ => rfl) s
  have h₃ : s₃.cores = s₂.cores := replayGroups_cores ..
  have hc : ∀ t u : State, t.cores = u.cores → t.core k = u.core k := fun t u h => by rw [State.core, h]; rfl
  rw [State.core, State.modPkg_cores, ← hc s₁ s h₁]
  exact (hc s₃ s₂ h₃).trans (foldS_bareCore_core hk s₁)

/-! ## Containment (18 R376) -/

/-- Nothing that stops a core changes memory or the package's tables. -/
@[simp] theorem stopCore_mem (k : Nat) (s : State) : (stopCore k s).mem = s.mem := by
  unfold stopCore
  split
  · rfl
  · split <;> rfl

@[simp] theorem stopCore_pkg (k : Nat) (s : State) : (stopCore k s).pkg = s.pkg := by
  unfold stopCore
  split
  · rfl
  · split <;> rfl

theorem evaluateAll_eq (s : State) : evaluateAll s = { s with agenda := (evaluateAll s).agenda } :=
  foldS_post_eq _ (fun s _ => s.now) Instr.placementEvaluation s

@[simp] theorem evaluateAll_mem (s : State) : (evaluateAll s).mem = s.mem := by rw [evaluateAll_eq]
@[simp] theorem evaluateAll_cores (s : State) : (evaluateAll s).cores = s.cores := by rw [evaluateAll_eq]
@[simp] theorem evaluateAll_pkg (s : State) : (evaluateAll s).pkg = s.pkg := by rw [evaluateAll_eq]
@[simp] theorem evaluateAll_svc (s : State) : (evaluateAll s).svc = s.svc := by rw [evaluateAll_eq]

@[simp] theorem preemptClusters_mem (n : Nat) (cls : List Nat) (s : State) : (preemptClusters n cls s).mem = s.mem := by
  unfold preemptClusters
  extract_lets l hit s₁
  rw [foldS_view State.mem (by simp)]
  exact State.modLaunch_mem ..

/-- Pre-empting clusters of a launch marks those that are placed. -/
theorem preemptClusters_launch {s : State} {n : Nat} {l : Launch} (h : s.pkg.launches.find? n = some l) (cls : List Nat) :
    (preemptClusters n cls s).launch n =
      { l with preempt := (l.preempt ++ (l.placed.filter fun x => cls.contains x.1).map Prod.fst).eraseDups } := by
  have e : s.launch n = l := by rw [State.launch, h, Option.getD_some]
  unfold preemptClusters
  extract_lets l' hit s₁
  have hp : (foldS (hit.flatMap fun x => x.2.filter (s₁.holds n x.1)) stopCore s₁).pkg = s₁.pkg := foldS_view State.pkg (by simp) s₁
  rw [State.launch, hp, ← State.launch, State.launch_modLaunch_self h]
  simp only [hit, l', e]

/-- Where the one launch has work on the die and stands on no fenced core, its clusters that hold a part of the die are pre-empted. -/
theorem containDie_single {s : State} {die n : Nat} {l : Launch} (hl : s.pkg.launches = [(n, l)]) (hst : l.status = none) (hc : l.complete = false)
    (ha : l.abandoned = false) (hs : l.started = true) (hon : launchOn s die n l = true) (hf : (l.cores.all fun k => !(s.core k).fenced) = true)
    (hsu : l.suspended = []) :
    containDie die s = evaluateAll (preemptClusters n ((l.placed.filter fun c => partOn s die (s.partOfLaunch n) ||
      c.2.any fun k => coreOn s die k && s.holds n c.1 k).map Prod.fst) s) := by
  have hdead : (l.cores.any fun k => (s.core k).fenced && (s.group k).any fun g => decide (g.launch = n)) = false := by
    rw [List.any_eq_false]
    intro k hk
    have hk : (s.core k).fenced = false := by simpa using List.all_eq_true.mp hf k hk
    simp [hk]
  simp only [containDie, hl, List.filter_cons, List.filter_nil, hs, liveLaunch, hc, ha, hst, hon, Option.isNone_none, Bool.not_false, Bool.and_true,
    Bool.true_or, if_true, foldS_cons, foldS_nil, hdead, hsu, List.any_nil, Bool.or_self, Bool.false_eq_true, if_false]

/-- A part of a die fails and its state survives: the clusters that hold it are marked, and memory and the launch's status stay (18 R376). -/
theorem containment_dieSurvives (s : State) (die n : Nat) (l : Launch) (hl : s.pkg.launches = [(n, l)]) (hst : l.status = none)
    (hc : l.complete = false) (ha : l.abandoned = false) (hs : l.started = true) (hon : launchOn s die n l = true)
    (hf : (l.cores.all fun k => !(s.core k).fenced) = true) (hsu : l.suspended = []) :
    ∃ t, exec (.containment (.dieSurvives die)) s = .next t ∧ t.mem = s.mem ∧ (t.launch n).status = none ∧
      ∀ c ∈ l.placed, (partOn s die (s.partOfLaunch n) || c.2.any fun k => coreOn s die k && s.holds n c.1 k) = true → c.1 ∈ (t.launch n).preempt := by
  have hfind : s.pkg.launches.find? n = some l := by simp [hl, SMap.find?]
  refine ⟨containDie die s, rfl, ?_⟩
  rw [containDie_single hl hst hc ha hs hon hf hsu]
  have e : ∀ u : State, (evaluateAll u).launch n = u.launch n := fun u => by rw [State.launch, evaluateAll_pkg]; rfl
  rw [e, evaluateAll_mem, preemptClusters_mem, preemptClusters_launch hfind]
  refine ⟨rfl, hst, fun c hc hp => ?_⟩
  rw [List.mem_eraseDups, List.mem_append]
  refine .inr (List.mem_map.mpr ⟨c, List.mem_filter.mpr ⟨hc, ?_⟩, rfl⟩)
  rw [List.contains_iff_mem]
  exact List.mem_map.mpr ⟨c, List.mem_filter.mpr ⟨hc, hp⟩, rfl⟩

/-! ## The reset of a compute die (01 R18) -/

/-- The function of a launch that is killed for containment counts it in ERRS, and the launch carries CONTAINED. -/
theorem killContained_open {s : State} {n : Nat} {l : Launch} (hl : s.pkg.launches.find? n = some l) (hc : l.complete = false)
    (ha : l.abandoned = false) (hs : l.status = none) :
    (killContained n s).plain = (s.modFn (s.fnOf l.asid) fun f => { f with errs := inc64 f.errs }).plain ∧
      ((killContained n s).launch n).status = some (1, 31, 0, 0) := by
  have e : s.launch n = l := by rw [State.launch, hl, Option.getD_some]
  have h := endLaunch_open (s := s.modFn (s.fnOf l.asid) fun f => { f with errs := inc64 f.errs }) (1, 31, 0, 0) hl hc ha hs
  rw [killContained, e]
  exact h

/-- Where no context logs and no fault is recorded, the reset of a die on which the one launch works kills that launch, wipes the die, and calls for
its chair tables and for placement. -/
theorem resetDie_single {s : State} {die n : Nat} {l : Launch} (hl : s.pkg.launches = [(n, l)]) (hst : l.status = none) (hc : l.complete = false)
    (ha : l.abandoned = false) (hon : launchOn s die n l = true) (hlog : ∀ a, (s.ctx a).recv = false ∧ (s.ctx a).span = false)
    (hloc : (wipeDie die (killContained n s)).svc.locs = []) :
    resetDie die s =
      let w := wipeDie die (killContained n s)
      let w' := w.post (nextOrigin w die) (.frameOrigin die)
      foldS (w'.pkg.parts.map Prod.fst) (fun p s => s.post (nextOrigin s die) (.placementEvaluation p)) w' := by
  have hrecv : ∀ as : List Nat, as.filter (fun a => (s.ctx a).recv) = [] := fun as => by simp [hlog]
  have htail : ∀ as : List Nat, as.filter (fun a => (s.ctx a).span || (s.ctx a).recv) = [] := fun as => by simp [hlog]
  simp only [resetDie, hrecv, htail, foldS_nil, hl, List.filter_cons, List.filter_nil, liveLaunch, hc, ha, hst, hon, Option.isNone_none, Bool.not_false,
    Bool.and_true, Bool.true_or, if_true, foldS_cons, List.contains_nil, State.post_svc, hloc, List.any_nil, Bool.and_false, dropLost]
  simp

/-- A die is lost: its kernel is killed with CONTAINED, its cores are as after reset, and its tables come back at the next frame origin. -/
theorem containment_dieLost (s : State) (die n : Nat) (l : Launch) (hdie : die < 4) (hl : s.pkg.launches = [(n, l)]) (hst : l.status = none)
    (hc : l.complete = false) (ha : l.abandoned = false) (hon : launchOn s die n l = true)
    (hlog : ∀ a, (s.ctx a).recv = false ∧ (s.ctx a).span = false) (hloc : s.svc.locs = []) :
    exec (.containment (.dieLost die)) s = exec (.computeDieReset die) s ∧
    ∃ t, exec (.computeDieReset die) s = .next t ∧ (t.launch n).status = some (1, 31, 0, 0) ∧
      (t.fn (s.fnOf l.asid)).errs = inc64 (s.fn (s.fnOf l.asid)).errs ∧
      (∀ k, k / 128 = die → (t.core k).group = none ∧ (t.core k).cache = [] ∧ (t.core k).dfifo = [] ∧ (t.core k).tlb = []) ∧
      (∀ e ∈ t.pkg.l2, e.2.bank / 512 ≠ die) ∧ t.pkg.banks = s.pkg.banks ∧ (nextOrigin s die, Instr.frameOrigin die) ∈ t.agenda := by
  have hfind : s.pkg.launches.find? n = some l := by simp [hl, SMap.find?]
  obtain ⟨hplain, hstatus⟩ := killContained_open hfind hc ha hst
  obtain ⟨w, hw⟩ : ∃ w, w = wipeDie die (killContained n s) := ⟨_, rfl⟩
  have hkept : w.kept = (killContained n s).kept := hw ▸ wipeDie_kept ..
  have hwp : w.plain = (s.modFn (s.fnOf l.asid) fun f => { f with errs := inc64 f.errs }).plain := (plain_of_kept hkept).trans hplain
  have hlocs : w.svc.locs = [] := (congrArg PlainView.locs hwp).trans hloc
  have horigin : nextOrigin w die = nextOrigin s die := congrArg (fun v : PlainView =>
    v.now + (2048 - (v.now + 2048 - v.frame.get 0 die % 2048) % 2048) % 2048) hwp
  have hreset := resetDie_single hl hst hc ha hon hlog (hw ▸ hlocs)
  rw [← hw] at hreset
  obtain ⟨t, ht⟩ : ∃ t, t = resetDie die s := ⟨_, rfl⟩
  have hpkg : t.pkg = w.pkg := by
    rw [ht, hreset]
    exact foldS_view State.pkg (f := fun p s => s.post (nextOrigin s die) (.placementEvaluation p)) (fun _ _ _ => rfl) _
  have hcores : t.cores = w.cores := by
    rw [ht, hreset]
    exact foldS_view State.cores (f := fun p s => s.post (nextOrigin s die) (.placementEvaluation p)) (fun _ _ _ => rfl) _
  have hagenda : (nextOrigin w die, Instr.frameOrigin die) ∈ t.agenda := by
    rw [ht, hreset]
    exact mem_agenda_foldS_post _ (fun s _ => nextOrigin s die) Instr.placementEvaluation (mem_agenda_post_self ..)
  refine ⟨rfl, t, ?_, ?_, ?_, fun k hk => ?_, ?_, ?_, horigin ▸ hagenda⟩
  · rw [ht, exec, execComputeDieReset, if_neg (by omega)]
  · rw [State.launch, hpkg]
    exact (congrArg (fun v : KeptView => ((v.launches.find? n).getD { asid := 0, q := 0, lidx := 0 }).status) hkept).trans hstatus
  · have h : (w.fn (s.fnOf l.asid)).errs = ((s.modFn (s.fnOf l.asid) fun f => { f with errs := inc64 f.errs }).fn (s.fnOf l.asid)).errs :=
      congrArg (fun v : PlainView => v.errs (s.fnOf l.asid)) hwp
    rw [State.fn, hpkg, ← State.fn, h, State.fn_modFn_self]
  · have h : t.core k = { fenced := ((killContained n s).core k).fenced } := by rw [State.core, hcores, ← State.core, hw, wipeDie_core hk]
    rw [h]
    exact ⟨rfl, rfl, rfl, rfl⟩
  · rw [hpkg, hw]
    exact wipeDie_l2 die _
  · rw [hpkg]
    exact congrArg PlainView.banks hwp

end Sys2Proof.Machine
end

section
/-!
PROOFS. A node of an owner's counter tree that fails: its lines are poisoned and its owner's contexts stop (04 R102; 18 R376).
-/
namespace Sys2Proof.Machine

/-! ## A failed node of an owner's tree (04 R102) -/

@[simp] theorem State.ctx_modCtx_self (s : State) (a : Nat) (f : Ctx → Ctx) : (s.modCtx a f).ctx a = f (s.ctx a) := by
  simp [State.modCtx, State.ctx, State.modPkg]

theorem State.ctx_modCtx_ne (s : State) {a b : Nat} (f : Ctx → Ctx) (h : b ≠ a) : (s.modCtx a f).ctx b = s.ctx b := by
  simp [State.modCtx, State.ctx, State.modPkg, SMap.find?_put_ne _ _ h]

theorem lineMeta_setMeta (s : State) (la lb : Nat) (m : LineMeta) : (s.setMeta la m).lineMeta lb = if lb = la then m else s.lineMeta lb :=
  SMap.get_set ..

/-- A line is poisoned; lines are poisoned in turn. -/
def poisonLine (la : Nat) (s : State) : State := s.setMeta la { s.lineMeta la with poison := true }
def poisonLines (las : List Nat) (s : State) : State := foldS las poisonLine s

theorem poisonLines_poison {la : Nat} {las : List Nat} (h : la ∈ las) (s : State) : ((poisonLines las s).lineMeta la).poison = true := by
  refine foldS_reaches (fun _ => True) (fun t => (t.lineMeta la).poison = true) h (fun _ _ _ _ => trivial) (fun t _ => ?_) (fun lb _ t _ ht => ?_) trivial
  · rw [poisonLine, lineMeta_setMeta, if_pos rfl]
  · rw [poisonLine, lineMeta_setMeta]
    split
    · rfl
    · exact ht

theorem poisonLines_mem (las : List Nat) (s : State) : (poisonLines las s).mem = s.mem :=
  foldS_view State.mem (f := poisonLine) (fun _ _ _ => rfl) s
theorem poisonLines_cores (las : List Nat) (s : State) : (poisonLines las s).cores = s.cores :=
  foldS_view State.cores (f := poisonLine) (fun _ _ _ => rfl) s
theorem poisonLines_launches (las : List Nat) (s : State) : (poisonLines las s).pkg.launches = s.pkg.launches :=
  foldS_view (fun t => t.pkg.launches) (f := poisonLine) (fun _ _ _ => rfl) s
theorem poisonLines_ctxs (las : List Nat) (s : State) : (poisonLines las s).pkg.ctxs = s.pkg.ctxs :=
  foldS_view (fun t => t.pkg.ctxs) (f := poisonLine) (fun _ _ _ => rfl) s
theorem poisonLines_wins (las : List Nat) (s : State) : (poisonLines las s).pkg.wins = s.pkg.wins :=
  foldS_view (fun t => t.pkg.wins) (f := poisonLine) (fun _ _ _ => rfl) s

/-- The contexts that an owner's key covers are read off the contexts and the windows. -/
theorem ownerCtxs_congr {s t : State} (o : Nat) (hc : t.pkg.ctxs = s.pkg.ctxs) (hw : t.pkg.wins = s.pkg.wins) : ownerCtxs t o = ownerCtxs s o := by
  rw [ownerCtxs, ownerCtxs, errOwners, errOwners, hc, hw]

/-- A context stops for its owner's tree; contexts stop in turn. -/
def stopTree (a : Nat) (s : State) : State := s.modCtx a fun c => { c with treeStop := true }
def stopTrees (cs : List Nat) (s : State) : State := foldS cs stopTree s

theorem stopTrees_treeStop {a : Nat} {cs : List Nat} (h : a ∈ cs) (s : State) : ((stopTrees cs s).ctx a).treeStop = true := by
  refine foldS_reaches (fun _ => True) (fun t => (t.ctx a).treeStop = true) h (fun _ _ _ _ => trivial) (fun t _ => ?_) (fun b _ t _ ht => ?_) trivial
  · rw [stopTree, State.ctx_modCtx_self]
  · by_cases hb : a = b
    · rw [hb, stopTree, State.ctx_modCtx_self]
    · rw [stopTree, State.ctx_modCtx_ne _ _ hb]
      exact ht

theorem stopTrees_mem (cs : List Nat) (s : State) : (stopTrees cs s).mem = s.mem := foldS_view State.mem (f := stopTree) (fun _ _ _ => rfl) s
theorem stopTrees_cores (cs : List Nat) (s : State) : (stopTrees cs s).cores = s.cores := foldS_view State.cores (f := stopTree) (fun _ _ _ => rfl) s
theorem stopTrees_launches (cs : List Nat) (s : State) : (stopTrees cs s).pkg.launches = s.pkg.launches :=
  foldS_view (fun t => t.pkg.launches) (f := stopTree) (fun _ _ _ => rfl) s
theorem stopTrees_treeBad (cs : List Nat) (s : State) : (stopTrees cs s).pkg.treeBad = s.pkg.treeBad :=
  foldS_view (fun t => t.pkg.treeBad) (f := stopTree) (fun _ _ _ => rfl) s
theorem stopTrees_lineMeta (cs : List Nat) (la : Nat) (s : State) : (stopTrees cs s).lineMeta la = s.lineMeta la :=
  foldS_view (fun t => t.lineMeta la) (f := stopTree) (fun _ _ _ => rfl) s

/-- The chunks that a failed node covers: `n` from place `first` of the owner's granules on. -/
def coveredChunks (s : State) (o first n : Nat) : List Nat :=
  ((List.range n).map (first + ·)).filterMap fun i => (s.orderOf o)[i / 256]?.map fun g => g * 256 + i % 256

/-- The lines of chunks. -/
def chunkLines (chs : List Nat) : List Nat := chs.flatMap fun ch => (List.range 64).map (ch * 64 + ·)

theorem mem_coveredChunks {s : State} {o first n i g : Nat} (hi : i < n) (hg : (s.orderOf o)[(first + i) / 256]? = some g) :
    g * 256 + (first + i) % 256 ∈ coveredChunks s o first n :=
  List.mem_filterMap.mpr ⟨first + i, List.mem_map.mpr ⟨i, List.mem_range.mpr hi, rfl⟩, by rw [hg]; rfl⟩

theorem mem_chunkLines {ch j : Nat} {chs : List Nat} (h : ch ∈ chs) (hj : j < 64) : ch * 64 + j ∈ chunkLines chs :=
  List.mem_flatMap.mpr ⟨ch, h, List.mem_map.mpr ⟨j, List.mem_range.mpr hj, rfl⟩⟩

/-- The granules of the chunks that a failed node covers. -/
def coveredGranules (s : State) (o first n : Nat) : List Nat := ((coveredChunks s o first n).map (· / 256)).eraseDups

theorem mem_coveredGranules {s : State} {o first n i g : Nat} (hi : i < n) (hg : (s.orderOf o)[(first + i) / 256]? = some g) :
    g ∈ coveredGranules s o first n :=
  List.mem_eraseDups.mpr (List.mem_map.mpr ⟨_, mem_coveredChunks hi hg, by omega⟩)

theorem containDie_of_idle {s : State} (die : Nat) (h : s.pkg.launches = []) : containDie die s = evaluateAll s := by
  simp [containDie, h]

/-- A failure in the service's tree while no launch stands. -/
theorem containTree_service {s : State} (first n : Nat) (h : s.pkg.launches = []) :
    containTree 0x3FF first n s = evaluateAll (report "UNCORR_DATA" none ((coveredChunks s 0x3FF first n).headD 0)
      ((poisonLines (chunkLines (coveredChunks s 0x3FF first n)) s).modSvc fun v =>
        { v with retired := (v.retired ++ coveredGranules s 0x3FF first n).eraseDups })) :=
  containDie_of_idle _ ((poisonLines_launches ..).trans h)

/-- A failure in another owner's tree while no launch stands. -/
theorem containTree_owner {s : State} {o : Nat} (first n : Nat) (ho : o ≠ 0x3FF) (h : s.pkg.launches = []) :
    containTree o first n s = report "UNCORR_DATA" (if o ≤ 511 then some o else none) ((coveredChunks s o first n).headD 0)
      (stopTrees (ownerCtxs s o) ((poisonLines (chunkLines (coveredChunks s o first n)) s).modPkg fun p =>
        { p with treeBad := (p.treeBad ++ coveredGranules s o first n).eraseDups })) := by
  obtain ⟨s₁, hs₁⟩ : ∃ s₁, s₁ = (poisonLines (chunkLines (coveredChunks s o first n)) s).modPkg fun p =>
    { p with treeBad := (p.treeBad ++ coveredGranules s o first n).eraseDups } := ⟨_, rfl⟩
  have hcs : ownerCtxs s₁ o = ownerCtxs s o := by
    rw [hs₁]
    exact ownerCtxs_congr o (poisonLines_ctxs ..) (poisonLines_wins ..)
  have hl : s₁.pkg.launches = [] := by
    rw [hs₁]
    exact (poisonLines_launches ..).trans h
  rw [← hs₁]
  calc containTree o first n s
      = report "UNCORR_DATA" (if o ≤ 511 then some o else none) ((coveredChunks s o first n).headD 0)
          (foldS ((stopTrees (ownerCtxs s₁ o) s₁).pkg.launches.filter fun l => (ownerCtxs s₁ o).contains l.2.asid && !l.2.placed.isEmpty)
            (fun l s => preemptClusters l.1 (l.2.placed.map Prod.fst) s) (stopTrees (ownerCtxs s₁ o) s₁)) := by
        rw [hs₁]
        exact if_neg ho
    _ = _ := by rw [hcs, stopTrees_launches, hl, List.filter_nil, foldS_nil]

/-- A failed tree node: the lines beneath it are poisoned, its granules are retired or wait for the owner, and the owner's contexts stop (04 R102). -/
theorem containment_ownerTree (s : State) (o first n : Nat) (h : s.pkg.launches = []) :
    ∃ t, exec (.containment (.ownerTree o first n)) s = .next t ∧ t.mem = s.mem ∧ t.cores = s.cores ∧
      (o ≠ 0x3FF → ∀ a ∈ ownerCtxs s o, (t.ctx a).treeStop = true) ∧
      (∀ i < n, ∀ g, (s.orderOf o)[(first + i) / 256]? = some g →
        (∀ j < 64, (t.lineMeta ((g * 256 + (first + i) % 256) * 64 + j)).poison = true) ∧ (o = 0x3FF → g ∈ t.svc.retired) ∧ (o ≠ 0x3FF → g ∈ t.pkg.treeBad)) ∧
      ∃ x ∈ t.svc.reports, x.what = "UNCORR_DATA" := by
  refine ⟨containTree o first n s, rfl, ?_⟩
  obtain ⟨s₁, hs₁⟩ : ∃ s₁, s₁ = poisonLines (chunkLines (coveredChunks s o first n)) s := ⟨_, rfl⟩
  have hmem : s₁.mem = s.mem := hs₁ ▸ poisonLines_mem ..
  have hcores : s₁.cores = s.cores := hs₁ ▸ poisonLines_cores ..
  have hpoison : ∀ i < n, ∀ g, (s.orderOf o)[(first + i) / 256]? = some g → ∀ j < 64,
      (s₁.lineMeta ((g * 256 + (first + i) % 256) * 64 + j)).poison = true := fun i hi g hg j hj => by
    rw [hs₁]
    exact poisonLines_poison (mem_chunkLines (mem_coveredChunks hi hg) hj) s
  by_cases ho : o = 0x3FF
  · subst ho
    rw [containTree_service first n h, ← hs₁, evaluateAll_mem, evaluateAll_cores, evaluateAll_svc]
    refine ⟨hmem, hcores, fun ho => absurd rfl ho, fun i hi g hg => ⟨fun j hj => ?_, fun _ => ?_, fun ho => absurd rfl ho⟩, _,
      List.mem_append_right _ List.mem_cons_self, rfl⟩
    · rw [State.lineMeta, evaluateAll_pkg]
      exact hpoison i hi g hg j hj
    · exact List.mem_eraseDups.mpr (List.mem_append_right _ (mem_coveredGranules hi hg))
  · rw [containTree_owner first n ho h, ← hs₁]
    obtain ⟨s₂, hs₂⟩ : ∃ s₂, s₂ = s₁.modPkg fun p => { p with treeBad := (p.treeBad ++ coveredGranules s o first n).eraseDups } := ⟨_, rfl⟩
    have hmem₂ : s₂.mem = s₁.mem := by rw [hs₂]; rfl
    have hcores₂ : s₂.cores = s₁.cores := by rw [hs₂]; rfl
    rw [← hs₂]
    refine ⟨(stopTrees_mem ..).trans (hmem₂.trans hmem), (stopTrees_cores ..).trans (hcores₂.trans hcores), fun _ a ha => stopTrees_treeStop ha s₂,
      fun i hi g hg => ⟨fun j hj => ?_, fun ho' => absurd ho' ho, fun _ => ?_⟩, _, List.mem_append_right _ List.mem_cons_self, rfl⟩
    · have h₂ : s₂.lineMeta = s₁.lineMeta := by rw [hs₂]; rfl
      exact (congrArg LineMeta.poison ((stopTrees_lineMeta ..).trans (congrFun h₂ _))).trans (hpoison i hi g hg j hj)
    · refine (stopTrees_treeBad (ownerCtxs s o) s₂).symm ▸ ?_
      rw [hs₂]
      exact List.mem_eraseDups.mpr (List.mem_append_right _ (mem_coveredGranules hi hg))

end Sys2Proof.Machine
end

section
/-!
PROOFS. The reset of a function: its contexts end and its granules come free (04 R74, R92; 19 R386).
-/
namespace Sys2Proof.Machine

/-! ## Releasing granules (04 R74) -/

/-- What the release of a granule leaves of the tables that a function's end reads, but for the granule's own entry. -/
structure GranView where
  launches : SMap Launch
  ctxs : SMap Ctx
  owners : SMap (BitVec 16)

def State.granView (s : State) : GranView := { launches := s.pkg.launches, ctxs := s.pkg.ctxs, owners := s.pkg.owners }

@[simp] theorem granView_modCore (s : State) (k : Nat) (f : Core → Core) : (s.modCore k f).granView = s.granView := rfl
@[simp] theorem granView_modFn (s : State) (k : Nat) (f : Fn → Fn) : (s.modFn k f).granView = s.granView := rfl
@[simp] theorem granView_post (s : State) (t : Nat) (i : Instr) : (s.post t i).granView = s.granView := rfl
theorem granView_modPkg (s : State) (f : Pkg → Pkg) (h : ∀ p, (f p).launches = p.launches ∧ (f p).ctxs = p.ctxs ∧ (f p).owners = p.owners) :
    (s.modPkg f).granView = s.granView := by
  obtain ⟨hl, hc, ho⟩ := h s.pkg
  simp [State.granView, hl, hc, ho]

theorem granView_of_metaView {s t : State} (h : t.metaView = s.metaView) : t.granView = s.granView :=
  congrArg (fun v : MetaView => (⟨v.launches, v.ctxs, v.owners⟩ : GranView)) h

@[simp] theorem dropTlb_granView (t : TlbEntry → Bool) (s : State) : (dropTlb t s).granView = s.granView := by
  unfold dropTlb
  extract_lets s₁
  rw [granView_modPkg _ _ (by simp)]
  exact foldS_view State.granView (by simp) s

@[simp] theorem dropLines_granView (g : Nat) (s : State) : (dropLines g s).granView = s.granView := by
  unfold dropLines
  extract_lets s₁
  rw [foldS_view State.granView (by simp)]
  exact granView_modPkg _ _ (by simp)

@[simp] theorem formUpper_granView (o : Nat) (s : State) : (formUpper o s).granView = s.granView := by
  unfold formUpper
  extract_lets s₁
  have h₁ : s₁.granView = s.granView := foldS_view State.granView (fun ch _ s => granView_of_metaView (commitChunk_metaView ch s)) s
  exact (granView_modPkg _ _ (by simp)).trans h₁

@[simp] theorem dropTree_granView (o : Nat) (s : State) : (dropTree o s).granView = s.granView := by
  unfold dropTree
  split
  · rfl
  · exact granView_modPkg _ _ (by simp)

/-- The release of a granule writes one entry of the owner table. -/
theorem releaseGranule_granView (g : Nat) (s : State) :
    (releaseGranule g s).granView = { s.granView with owners := s.pkg.owners.set (ownerDefault g) g 0x3FE } := by
  unfold releaseGranule
  extract_lets o s₁ inner s₂
  have h₁ : s₁.granView = s.granView := (dropLines_granView ..).trans (dropTlb_granView ..)
  have h₂ : s₂.granView = { s₁.granView with owners := s₁.pkg.owners.set (ownerDefault g) g 0x3FE } := rfl
  have h₃ : s₂.granView = { s.granView with owners := s.pkg.owners.set (ownerDefault g) g 0x3FE } := by
    rw [h₂, h₁]
    exact congrArg (fun v : GranView => ({ s.granView with owners := v.owners.set (ownerDefault g) g 0x3FE } : GranView)) h₁
  split
  · exact (dropTree_granView ..).trans h₃
  · exact (formUpper_granView ..).trans h₃

/-- A granule is free, or its entry in the owner table is still `o`. -/
def FreeOr (g : Nat) (o : BitVec 16) (v : GranView) : Prop := fld 9 0 (v.owners.get (ownerDefault g) g).toNat = 0x3FE ∨ v.owners.find? g = some o

theorem releaseGranule_ownerOf (g x : Nat) (s : State) : (releaseGranule x s).ownerOf g = if g = x then 0x3FE else s.ownerOf g := by
  have h : (releaseGranule x s).pkg.owners = s.pkg.owners.set (ownerDefault x) x 0x3FE := congrArg GranView.owners (releaseGranule_granView x s)
  rw [State.ownerOf, h]
  split
  · next hx =>
    rw [hx, SMap.get_set_self]
    rfl
  · next hx =>
    rw [SMap.get_eq_find?, SMap.find?_set_ne _ _ _ hx, ← SMap.get_eq_find?]
    rfl

/-- A granule that is free stays so, and one that is not keeps its entry, while others are released. -/
theorem FreeOr.release {g : Nat} {o : BitVec 16} {s : State} (h : FreeOr g o s.granView) (x : Nat) : FreeOr g o (releaseGranule x s).granView := by
  by_cases hx : g = x
  · exact .inl ((releaseGranule_ownerOf g x s).trans (if_pos hx))
  · refine h.imp (fun h => ((releaseGranule_ownerOf g x s).trans (if_neg hx)).trans h) fun h => ?_
    rw [releaseGranule_granView]
    exact (SMap.find?_set_ne _ _ _ hx).trans h

/-- A granule is free after a run of releases that its entry, where it stands, is among. -/
theorem foldS_releaseGranule_free {g : Nat} {o : BitVec 16} {s : State} {l : List Nat} (h : FreeOr g o s.granView)
    (hin : s.pkg.owners.find? g = some o → g ∈ l) : (foldS l releaseGranule s).ownerOf g = 0x3FE := by
  have hkeep : ∀ x ∈ l, ∀ t : State, t.ownerOf g = 0x3FE → (releaseGranule x t).ownerOf g = 0x3FE := fun x _ t ht => by
    rw [releaseGranule_ownerOf, ht, ite_self]
  rcases h with h | h
  · exact foldS_keeps (fun t => t.ownerOf g = 0x3FE) hkeep h
  · exact foldS_reaches (fun _ => True) (fun t => t.ownerOf g = 0x3FE) (hin h) (fun _ _ _ _ => trivial)
      (fun t _ => (releaseGranule_ownerOf g g t).trans (if_pos rfl)) (fun x hx t _ => hkeep x hx t) trivial

/-! ## The end of a function's contexts (19 R386) -/

@[simp] theorem repostSeals_granView (a : Nat) (s : State) : (repostSeals a s).granView = s.granView := foldS_view State.granView (by simp) s

/-- A context ends while no launch stands: it leaves the table of contexts, no launch comes to stand, and granules are released. -/
theorem freeContext_spec (a : Nat) {s : State} (hl : s.pkg.launches = []) :
    (freeContext a s).pkg.launches = [] ∧ (freeContext a s).pkg.ctxs = s.pkg.ctxs.del a ∧
      ∀ g o, FreeOr g o s.granView → FreeOr g o (freeContext a s).granView := by
  unfold freeContext
  extract_lets c s₁ s₂ mapped s₃ s₄ keys
  have h₂ : s₂.granView = s.granView :=
    (foldS_view State.granView (by simp) s₁).trans ((dropTlb_granView ..).trans (repostSeals_granView ..))
  have h₃ : s₃.pkg.launches = [] ∧ s₃.pkg.ctxs = s.pkg.ctxs := by
    refine foldS_keeps (fun t => t.pkg.launches = [] ∧ t.pkg.ctxs = s.pkg.ctxs) (fun g _ t ht => ?_) ?_
    · exact ⟨(congrArg GranView.launches (releaseGranule_granView g t)).trans ht.1, (congrArg GranView.ctxs (releaseGranule_granView g t)).trans ht.2⟩
    · exact ⟨(congrArg GranView.launches h₂).trans hl, congrArg GranView.ctxs h₂⟩
  have hf : ∀ g o, FreeOr g o s.granView → FreeOr g o s₄.granView := fun g o h =>
    foldS_keeps (fun t => FreeOr g o t.granView) (fun x _ t ht => ht.release x) (h₂.symm ▸ h)
  have hk : keys = [] := by
    have h₄ : s₄.pkg.launches = [] := h₃.1
    simp [keys, h₄]
  rw [hk, foldS_nil]
  refine ⟨?_, ?_, hf⟩
  · have h₄ : s₄.pkg.launches = [] := h₃.1
    simp [h₄]
  · have h₄ : s₄.pkg.ctxs = s.pkg.ctxs := h₃.2
    simp [h₄]

/-- Every context of a function ends while no launch stands. -/
theorem foldS_freeContext {s : State} (as : List Nat) (hl : s.pkg.launches = []) :
    (∀ e ∈ (foldS as freeContext s).pkg.ctxs, e ∈ s.pkg.ctxs ∧ e.1 ∉ as) ∧ ∀ g o, FreeOr g o s.granView → FreeOr g o (foldS as freeContext s).granView := by
  induction as generalizing s with
  | nil => exact ⟨fun e he => ⟨he, List.not_mem_nil⟩, fun _ _ h => h⟩
  | cons a as ih =>
    obtain ⟨hl₁, hc₁, hf₁⟩ := freeContext_spec a hl
    obtain ⟨hc, hf⟩ := ih hl₁
    refine ⟨fun e he => ?_, fun g o h => hf g o (hf₁ g o h)⟩
    obtain ⟨hin, hout⟩ := hc e he
    rw [hc₁] at hin
    obtain ⟨hin, hne⟩ := List.mem_filter.mp hin
    exact ⟨hin, by simpa using ⟨by simpa using hne, hout⟩⟩

/-- What the end of a function's contexts and granules leaves, while no launch stands (04 R74, R92). -/
theorem clearFn_spec {s : State} (f : Nat) (hl : s.pkg.launches = []) :
    (∀ a c, (clearFn f s).pkg.ctxs.find? a = some c → c.live = true → c.fnum ≠ f) ∧
    (∀ g o, s.pkg.owners.find? g = some o → fld 9 0 o.toNat = f → (∀ x ∈ s.pkg.ctxs, g ∉ x.2.tblGr) → (clearFn f s).ownerOf g = 0x3FE) ∧
    ((clearFn f s).fn f).en = false ∧ (f ≠ 0 → ((clearFn f s).fn f).key = 0) := by
  obtain ⟨hctxs, hfree⟩ := foldS_freeContext (ctxsOf s f) hl
  unfold clearFn
  extract_lets s₁ tables s₂
  have hv : (if f = 0 then rekeyOwner 0 s₂ else s₂).granView = s₂.granView := by
    split
    · exact granView_of_metaView (rekeyOwner_metaView ..)
    · rfl
  have hc₂ : s₂.pkg.ctxs = s₁.pkg.ctxs :=
    foldS_view (fun t => t.pkg.ctxs) (fun g _ t => congrArg GranView.ctxs (releaseGranule_granView g t)) s₁
  refine ⟨fun a c ha hlive hfn => ?_, fun g o hg ho hx => ?_, ?_, fun hf => ?_⟩
  · have hmem : (a, c) ∈ s₁.pkg.ctxs := by
      rw [← hc₂, ← show _ = s₂.pkg.ctxs from congrArg GranView.ctxs hv]
      exact SMap.mem_of_find? ha
    obtain ⟨hin, hout⟩ := hctxs _ hmem
    exact hout (List.mem_map.mpr ⟨(a, c), List.mem_filter.mpr ⟨hin, by simp [hlive, hfn]⟩, rfl⟩)
  · have htab : g ∉ tables := by
      intro h
      obtain ⟨e, he, hge⟩ := List.mem_flatMap.mp h
      split at hge
      · exact hx e (hctxs e he).1 hge
      · cases hge
    have h₂ : s₂.ownerOf g = 0x3FE := by
      refine foldS_releaseGranule_free (hfree g o (.inr hg)) fun h => List.mem_map.mpr ⟨(g, o), List.mem_filter.mpr ⟨SMap.mem_of_find? h, ?_⟩, rfl⟩
      simpa [ho] using htab
    exact (congrArg (fun v : GranView => fld 9 0 (v.owners.get (ownerDefault g) g).toNat) hv).trans h₂
  · rw [State.fn_modFn_self, Fn.en, BitVec.getLsbD_and]
    exact (congrArg _ (by decide)).trans (Bool.and_false _)
  · rw [State.fn_modFn_self]
    exact if_neg hf

/-- The reset of a function (04 R92): its key, contexts, granules and the registers of its windows go. -/
theorem functionReset_clears (s : State) (f : Nat) (hf : f < 512) (hl : s.pkg.launches = []) (he : s.pkg.eng = []) :
    ∃ t, exec (.functionReset f) s = .next t ∧ (t.fn f).en = false ∧ (f ≠ 0 → (t.fn f).key = 0) ∧ (t.fn f).hw0 = 0 ∧ (t.fn f).hw1 = 0 ∧ (t.fn f).reply = [] ∧
      (t.fn f).ready = false ∧ (t.fn f).msix = [] ∧ (∀ a c, t.pkg.ctxs.find? a = some c → c.live = true → c.fnum ≠ f) ∧
      ∀ g o, s.pkg.owners.find? g = some o → fld 9 0 o.toNat = f → (∀ x ∈ s.pkg.ctxs, g ∉ x.2.tblGr) → t.ownerOf g = 0x3FE := by
  have hkill : killFn f s = s := by simp [killFn, hl]
  have hbusy : fnBusy s f = false := by simp [fnBusy, cmdsStarted, he]
  obtain ⟨hctxs, hgran, hen, hkey⟩ := clearFn_spec f hl
  refine ⟨(clearFn f s).modFn f fun x => { x with hw0 := 0, hw1 := 0, reply := [], ready := false, msix := [] }, ?_, ?_⟩
  · rw [exec, execFunctionReset, if_neg (by omega), hkill]
    exact congrArg Host.Outcome.next (if_neg (ne_true_of_eq_false hbusy))
  · rw [State.fn_modFn_self]
    exact ⟨hen, hkey, rfl, rfl, rfl, rfl, rfl, hctxs, hgran⟩

end Sys2Proof.Machine
end

section
/-!
PROOFS. A port that goes down fails the stores and loads over it (20 R400).
-/
namespace Sys2Proof.Machine

/-! ## A link that goes down (20 R400) -/

/-- What a port that has gone down fails on a core. -/
def dropLink (k : Nat) (s : State) : State :=
  let lost := (s.core k).link.filter fun q => isPeer q.pa
  let s := s.modCore k fun c => { c with link := c.link.filter fun q => !isPeer q.pa }
  let s := foldS lost (failLink k) s
  match s.group k with
  | some g => foldS g.crews (fun c s => s.modCtxCrew k c.ctx (failLoads s.cycle)) s
  | none => s

/-- The cores whose group's accesses go over a port. -/
def coresOver (s : State) (port : Nat) : List Nat :=
  (s.cores.filter fun c => match c.2.group with | some g => portOf s (s.asidOf g) = some port | none => false).map Prod.fst

theorem exec_linkDown (s : State) (port : Nat) :
    exec (.linkDown port) s = .next (if 16 ≤ port || s.svc.down.contains port then s
      else foldS (coresOver s port) dropLink (s.modSvc fun v => { v with down := v.down ++ [port] })) := rfl

theorem mem_coresOver {s : State} {port k : Nat} {g : Group} (hg : s.group k = some g) (hp : portOf s (s.asidOf g) = some port) : k ∈ coresOver s port := by
  have hne : s.core k ≠ {} := fun h => by
    rw [State.group, h] at hg
    cases hg
  have hg' : (s.core k).group = some g := hg
  exact List.mem_map.mpr ⟨(k, s.core k), List.mem_filter.mpr ⟨SMap.mem_of_get_ne hne, by simp [hg', hp]⟩, rfl⟩

/-! ### A store that failed -/

@[simp] theorem failLink_mem (k : Nat) (q : LinkReq) (s : State) : (failLink k q s).mem = s.mem := by
  unfold failLink failLink.left
  split
  · split <;> rfl
  · rfl

@[simp] theorem failLink_svc (k : Nat) (q : LinkReq) (s : State) : (failLink k q s).svc = s.svc := by
  unfold failLink failLink.left
  split
  · split <;> rfl
  · rfl

theorem failLink_core_ne {k j : Nat} (h : j ≠ k) (q : LinkReq) (s : State) : (failLink k q s).core j = s.core j := by
  unfold failLink failLink.left
  split
  · split
    · exact State.core_modCore_ne _ _ h
    · rfl
  · rfl

@[simp] theorem failLink_link (k : Nat) (q : LinkReq) (s : State) : ((failLink k q s).core k).link = (s.core k).link := by
  unfold failLink failLink.left
  split
  · split
    · simp [State.setGroup]
    · rfl
  · rfl

theorem failLink_group {k : Nat} {g : Group} (q : LinkReq) {s : State} (hg : s.group k = some g) :
    ∃ g', (failLink k q s).group k = some g' ∧ g'.launch = g.launch ∧ g'.running = g.running ∧
      (g.linkFail = true ∨ q.launch = g.launch → g'.linkFail = true) := by
  simp only [failLink, hg]
  split
  · exact ⟨_, State.group_setGroup_self .., rfl, rfl, fun _ => rfl⟩
  · next h => exact ⟨g, hg, rfl, rfl, fun hf => hf.resolve_right fun e => h e.symm⟩

/-- Failed stores leave the group, with a failed store of its kernel kept where one of them is of it. -/
theorem foldS_failLink_group {k : Nat} (qs : List LinkReq) {g : Group} {s : State} (hg : s.group k = some g) :
    ∃ g', (foldS qs (failLink k) s).group k = some g' ∧ g'.launch = g.launch ∧ g'.running = g.running ∧
      (g.linkFail = true ∨ (∃ q ∈ qs, q.launch = g.launch) → g'.linkFail = true) := by
  induction qs generalizing g s with
  | nil => exact ⟨g, hg, rfl, rfl, by simp⟩
  | cons q qs ih =>
    obtain ⟨g₁, hg₁, hl₁, hr₁, hf₁⟩ := failLink_group q hg
    obtain ⟨g₂, hg₂, hl₂, hr₂, hf₂⟩ := ih hg₁
    refine ⟨g₂, hg₂, hl₂.trans hl₁, hr₂.trans hr₁, fun h => hf₂ ?_⟩
    rcases h with h | ⟨p, hp, he⟩
    · exact .inl (hf₁ (.inl h))
    · rcases List.mem_cons.mp hp with rfl | hp
      · exact .inl (hf₁ (.inr he))
      · exact .inr ⟨p, hp, he.trans hl₁.symm⟩

/-! ### Loads that failed -/

/-- A crew loads over a peer link. -/
def Crew.loadsPeer (c : Crew) : Prop := ∃ m ∈ c.mem, ∃ l ∈ m.lanes, isPeer l.pa = true
/-- A crew's region has latched the failure of a link. -/
def Crew.linkFailed (c : Crew) : Prop := ∃ f, c.region.latched = some f ∧ f.kind = .linkFail

theorem failLoads_ctx (n : Nat) (c : Crew) : (failLoads n c).ctx = c.ctx := by
  unfold failLoads
  extract_lets
  split <;> rfl

theorem failLoads_linkFailed_of_linkFailed (n : Nat) {c : Crew} (h : c.linkFailed) : (failLoads n c).linkFailed := by
  obtain ⟨f, hf, hk⟩ := h
  unfold failLoads
  extract_lets
  split
  · exact ⟨f, hf, hk⟩
  · exact ⟨f, by simp [hf], hk⟩

theorem failLoads_linkFailed_of_loadsPeer (n : Nat) {c : Crew} (hl : c.region.latched = none) (hp : c.loadsPeer) : (failLoads n c).linkFailed := by
  obtain ⟨m, hm, l, hl', hpa⟩ := hp
  unfold failLoads
  extract_lets peer bad
  have hbad : l ∈ bad := List.mem_flatMap.mpr ⟨m, hm, List.mem_filter.mpr ⟨hl', hpa⟩⟩
  split
  · next h => rw [List.isEmpty_iff.mp h] at hbad; cases hbad
  · exact ⟨_, by simp only [hl]; rfl, rfl⟩

theorem OnlyGroup.modCtxCrew (k x : Nat) (f : Crew → Crew) (s : State) : OnlyGroup k s (s.modCtxCrew k x f) := OnlyGroup.modGroup ..

theorem modCtxCrew_link (k x : Nat) (f : Crew → Crew) (s : State) : ((s.modCtxCrew k x f).core k).link = (s.core k).link := by
  obtain ⟨-, -, -, -, -, -, -, -, g, hc⟩ := OnlyGroup.modCtxCrew k x f s
  rw [hc]

theorem modCtxCrew_core_ne {k j : Nat} (h : j ≠ k) (x : Nat) (f : Crew → Crew) (s : State) : (s.modCtxCrew k x f).core j = s.core j := by
  obtain ⟨-, -, -, -, -, -, -, hj, -⟩ := OnlyGroup.modCtxCrew k x f s
  exact hj j h

theorem modCtxCrew_group {k : Nat} {g : Group} (x : Nat) (f : Crew → Crew) {s : State} (hg : s.group k = some g) :
    ∃ g', (s.modCtxCrew k x f).group k = some g' ∧ g'.launch = g.launch ∧ g'.linkFail = g.linkFail ∧
      g'.running = g.running.map fun c => if c.ctx = x then f c else c :=
  ⟨_, (State.group_modGroup_self ..).trans (congrArg _ hg), rfl, rfl, rfl⟩

/-- The loads of crews fail. -/
def dropLoads (k : Nat) (cs : List Crew) (s : State) : State := foldS cs (fun c s => s.modCtxCrew k c.ctx (failLoads s.cycle)) s

theorem dropLoads_group {k : Nat} (cs : List Crew) {g : Group} {s : State} (hg : s.group k = some g) :
    ∃ g', (dropLoads k cs s).group k = some g' ∧ g'.launch = g.launch ∧ g'.linkFail = g.linkFail := by
  refine foldS_keeps (fun t => ∃ g', t.group k = some g' ∧ g'.launch = g.launch ∧ g'.linkFail = g.linkFail) (fun c _ t ht => ?_) ⟨g, hg, rfl, rfl⟩
  obtain ⟨g₁, hg₁, hl₁, hf₁⟩ := ht
  obtain ⟨g₂, hg₂, hl₂, hf₂, -⟩ := modCtxCrew_group c.ctx (failLoads t.cycle) hg₁
  exact ⟨g₂, hg₂, hl₂.trans hl₁, hf₂.trans hf₁⟩

/-- The running crew of core `k` holds the issue context of `c`, and is `c` or has latched the failure of a link. -/
def FailsOn (k : Nat) (c : Crew) (s : State) : Prop := ∃ g c', s.group k = some g ∧ g.running = some c' ∧ c'.ctx = c.ctx ∧ (c' = c ∨ c'.linkFailed)
/-- The running crew of core `k` holds the issue context of `c` and has latched the failure of a link. -/
def FailedOn (k : Nat) (c : Crew) (s : State) : Prop := ∃ g c', s.group k = some g ∧ g.running = some c' ∧ c'.ctx = c.ctx ∧ c'.linkFailed

theorem FailedOn.failsOn {k : Nat} {c : Crew} {s : State} (h : FailedOn k c s) : FailsOn k c s := by
  obtain ⟨g, c', hg, hr, hx, hf⟩ := h
  exact ⟨g, c', hg, hr, hx, .inr hf⟩

theorem failsOn_congr {k : Nat} {c : Crew} {s t : State} (h : t.core k = s.core k) : FailsOn k c t ↔ FailsOn k c s := by
  simp only [FailsOn, State.group, h]

/-- The failure of the loads of one issue context, for the running crew that holds it and for one that does not. -/
theorem failsOn_modCtxCrew {k x n : Nat} {c : Crew} {s : State} (hl : c.region.latched = none) (hp : c.loadsPeer) (h : FailsOn k c s) :
    FailsOn k c (s.modCtxCrew k x (failLoads n)) ∧ ((x = c.ctx ∨ FailedOn k c s) → FailedOn k c (s.modCtxCrew k x (failLoads n))) := by
  obtain ⟨g, c', hg, hr, hx, hc⟩ := h
  obtain ⟨g₁, hg₁, -, -, hr₁⟩ := modCtxCrew_group x (failLoads n) hg
  rw [hr, Option.map_some] at hr₁
  have hstruck : (failLoads n c').linkFailed := by
    rcases hc with rfl | hc
    · exact failLoads_linkFailed_of_loadsPeer n hl hp
    · exact failLoads_linkFailed_of_linkFailed n hc
  by_cases hcx : c'.ctx = x
  · rw [if_pos hcx] at hr₁
    have hfailed : FailedOn k c (s.modCtxCrew k x (failLoads n)) := ⟨g₁, _, hg₁, hr₁, (failLoads_ctx n c').trans hx, hstruck⟩
    exact ⟨hfailed.failsOn, fun _ => hfailed⟩
  · rw [if_neg hcx] at hr₁
    refine ⟨⟨g₁, c', hg₁, hr₁, hx, hc⟩, fun h => ?_⟩
    rcases h with h | ⟨g₂, c₂, hg₂, hr₂, -, hf₂⟩
    · exact absurd (hx.trans h.symm) hcx
    · rw [hg] at hg₂
      cases hg₂
      rw [hr] at hr₂
      cases hr₂
      exact ⟨g₁, c', hg₁, hr₁, hx, hf₂⟩

theorem mem_crews_of_running {g : Group} {c : Crew} (h : g.running = some c) : c ∈ g.crews := by
  simp [Group.crews, h]

/-- With the loads of all its group's crews the running crew's fail. -/
theorem failedOn_dropLoads {k : Nat} {c : Crew} {g : Group} {s : State} (hl : c.region.latched = none) (hp : c.loadsPeer) (hg : s.group k = some g)
    (h : FailsOn k c s) : FailedOn k c (dropLoads k g.crews s) := by
  obtain ⟨g', c', hg', hr, hx, hc⟩ := id h
  rw [hg] at hg'
  cases hg'
  exact foldS_reaches (FailsOn k c) (FailedOn k c) (f := fun c s => s.modCtxCrew k c.ctx (failLoads s.cycle))
    (mem_crews_of_running hr) (fun _ _ _ ht => (failsOn_modCtxCrew hl hp ht).1)
    (fun _ ht => (failsOn_modCtxCrew hl hp ht).2 (.inl hx)) (fun _ _ _ ht h => (failsOn_modCtxCrew hl hp ht).2 (.inr h)) h

/-! ### The accesses of a core -/

theorem dropLink_eq {k : Nat} {s : State} {g : Group} (hg : (foldS ((s.core k).link.filter fun q => isPeer q.pa) (failLink k)
    (s.modCore k fun c => { c with link := c.link.filter fun q => !isPeer q.pa })).group k = some g) :
    dropLink k s = dropLoads k g.crews (foldS ((s.core k).link.filter fun q => isPeer q.pa) (failLink k)
      (s.modCore k fun c => { c with link := c.link.filter fun q => !isPeer q.pa })) := by
  simp only [dropLink, hg]
  rfl

@[simp] theorem dropLink_mem (k : Nat) (s : State) : (dropLink k s).mem = s.mem := by
  unfold dropLink
  extract_lets lost s₁ s₂
  have h₂ : s₂.mem = s.mem := foldS_view State.mem (fun q _ t => failLink_mem k q t) s₁
  split
  · exact (foldS_view State.mem (fun c _ t => State.modCtxCrew_mem t k c.ctx _) s₂).trans h₂
  · exact h₂

@[simp] theorem dropLink_svc (k : Nat) (s : State) : (dropLink k s).svc = s.svc := by
  unfold dropLink
  extract_lets lost s₁ s₂
  have h₂ : s₂.svc = s.svc := foldS_view State.svc (fun q _ t => failLink_svc k q t) s₁
  split
  · exact (foldS_view State.svc (fun c _ t => State.modCtxCrew_svc t k c.ctx _) s₂).trans h₂
  · exact h₂

theorem dropLink_core_ne {k j : Nat} (h : j ≠ k) (s : State) : (dropLink k s).core j = s.core j := by
  unfold dropLink
  extract_lets lost s₁ s₂
  have h₂ : s₂.core j = s.core j :=
    (foldS_view (fun t => t.core j) (fun q _ t => failLink_core_ne h q t) s₁).trans (State.core_modCore_ne _ _ h)
  split
  · exact (foldS_view (fun t => t.core j) (fun c _ t => modCtxCrew_core_ne h c.ctx _ t) s₂).trans h₂
  · exact h₂

/-- Where the failures of a core's accesses find it: nothing but what goes over the link has changed since `c₀`, which held the group `g`. -/
structure Dropping (k : Nat) (c₀ : Core) (g : Group) (s : State) : Prop where
  stays : ∀ q ∈ c₀.link, isPeer q.pa = false → q ∈ (s.core k).link
  group : ∃ g', s.group k = some g' ∧ g'.launch = g.launch ∧
    ((∃ q ∈ c₀.link, isPeer q.pa = true ∧ q.launch = g.launch) → g'.linkFail = true ∨ ∃ q ∈ (s.core k).link, isPeer q.pa = true ∧ q.launch = g.launch)
  crew : ∀ c, g.running = some c → c.region.latched = none → c.loadsPeer → FailsOn k c s

/-- What the failures of a core's accesses leave of the core `c₀` with the group `g`. -/
structure Dropped (k : Nat) (c₀ : Core) (g : Group) (s : State) : Prop where
  stays : ∀ q ∈ c₀.link, isPeer q.pa = false → q ∈ (s.core k).link
  gone : ∀ q ∈ (s.core k).link, isPeer q.pa = false
  group : ∃ g', s.group k = some g' ∧ g'.launch = g.launch ∧ ((∃ q ∈ c₀.link, isPeer q.pa = true ∧ q.launch = g.launch) → g'.linkFail = true)
  crew : ∀ c, g.running = some c → c.region.latched = none → c.loadsPeer → FailedOn k c s

theorem dropping_self {k : Nat} {g : Group} {s : State} (hg : s.group k = some g) : Dropping k (s.core k) g s where
  stays _ hq _ := hq
  group := ⟨g, hg, rfl, .inr⟩
  crew c hr _ _ := ⟨g, c, hg, hr, rfl, .inl rfl⟩

theorem Dropping.congr {k : Nat} {c₀ : Core} {g : Group} {s t : State} (hc : t.core k = s.core k) (h : Dropping k c₀ g s) : Dropping k c₀ g t := by
  obtain ⟨hs, hg, hr⟩ := h
  exact ⟨by rwa [hc], by rwa [State.group, hc], fun c h₁ h₂ h₃ => (failsOn_congr hc).mpr (hr c h₁ h₂ h₃)⟩

theorem Dropped.congr {k : Nat} {c₀ : Core} {g : Group} {s t : State} (hc : t.core k = s.core k) (h : Dropped k c₀ g s) : Dropped k c₀ g t := by
  obtain ⟨hs, hn, hg, hr⟩ := h
  refine ⟨by rwa [hc], by rwa [hc], by rwa [State.group, hc], fun c h₁ h₂ h₃ => ?_⟩
  simpa only [FailedOn, State.group, hc] using hr c h₁ h₂ h₃

/-- The accesses of a core over a link that has gone down fail, whether or not some have failed before. -/
theorem Dropping.dropLink {k : Nat} {c₀ : Core} {g : Group} {s : State} (h : Dropping k c₀ g s) : Dropped k c₀ g (dropLink k s) := by
  obtain ⟨hstays, ⟨g₁, hg₁, hl₁, hf₁⟩, hcrew⟩ := h
  let lost := (s.core k).link.filter fun q => isPeer q.pa
  let s₁ := s.modCore k fun c => { c with link := c.link.filter fun q => !isPeer q.pa }
  let s₂ := foldS lost (failLink k) s₁
  have hgs₁ : s₁.group k = some g₁ := by
    rw [State.group, State.core_modCore_self]
    exact hg₁
  obtain ⟨g₂, hg₂, hl₂, hr₂, hf₂⟩ := foldS_failLink_group lost hgs₁
  obtain ⟨g₃, hg₃, hl₃, hf₃⟩ := dropLoads_group g₂.crews hg₂
  have hlink : ((dropLoads k g₂.crews s₂).core k).link = (s.core k).link.filter fun q => !isPeer q.pa :=
    calc ((dropLoads k g₂.crews s₂).core k).link
      _ = (s₂.core k).link := foldS_view (fun t => (t.core k).link) (fun c _ t => modCtxCrew_link k c.ctx _ t) s₂
      _ = (s₁.core k).link := foldS_view (fun t => (t.core k).link) (fun q _ t => failLink_link k q t) s₁
      _ = _ := by rw [State.core_modCore_self]
  rw [dropLink_eq hg₂]
  refine ⟨fun q hq hp => ?_, fun q hq => ?_, ⟨g₃, hg₃, hl₃.trans (hl₂.trans hl₁), fun hx => ?_⟩, fun c hr hn hp => ?_⟩
  · rw [hlink]
    exact List.mem_filter.mpr ⟨hstays q hq hp, by simp [hp]⟩
  · rw [hlink] at hq
    simpa using (List.mem_filter.mp hq).2
  · rw [hf₃]
    refine hf₂ ((hf₁ hx).imp_right fun ⟨q, hq, hp, he⟩ => ⟨q, List.mem_filter.mpr ⟨hq, hp⟩, he.trans hl₁.symm⟩)
  · obtain ⟨g', c', hg', hr', hx, hc⟩ := hcrew c hr hn hp
    rw [hg₁] at hg'
    cases hg'
    exact failedOn_dropLoads hn hp hg₂ ⟨g₂, c', hg₂, hr₂.trans hr', hx, hc⟩

theorem Dropped.dropping {k : Nat} {c₀ : Core} {g : Group} {s : State} (h : Dropped k c₀ g s) : Dropping k c₀ g s := by
  obtain ⟨hs, -, ⟨g', hg, hl, hf⟩, hr⟩ := h
  exact ⟨hs, ⟨g', hg, hl, fun hx => .inl (hf hx)⟩, fun c h₁ h₂ h₃ => (hr c h₁ h₂ h₃).failsOn⟩

/-- A port that goes down fails the accesses over it of every core whose group's accesses go over it (20 R400). -/
theorem linkDown_fails (s : State) (port k : Nat) (g : Group) (hport : port < 16) (hup : port ∉ s.svc.down) (hg : s.group k = some g)
    (hp : portOf s (s.asidOf g) = some port) :
    ∃ t g', exec (.linkDown port) s = .next t ∧ t.mem = s.mem ∧ t.svc.down = s.svc.down ++ [port] ∧ (∀ q ∈ (t.core k).link, isPeer q.pa = false) ∧
      (∀ q ∈ (s.core k).link, isPeer q.pa = false → q ∈ (t.core k).link) ∧ t.group k = some g' ∧
      ((∃ q ∈ (s.core k).link, isPeer q.pa = true ∧ q.launch = g.launch) → g'.linkFail = true) ∧
      ∀ c, g.running = some c → c.region.latched = none → (∃ m ∈ c.mem, ∃ l ∈ m.lanes, isPeer l.pa = true) →
        ∃ c' f, g'.running = some c' ∧ c'.region.latched = some f ∧ f.kind = .linkFail := by
  let s₁ := s.modSvc fun v => { v with down := v.down ++ [port] }
  have hstep : ∀ j t, Dropping k (s.core k) g t → (Dropping k (s.core k) g (dropLink j t) ∧ (Dropped k (s.core k) g t → Dropped k (s.core k) g (dropLink j t))) := by
    intro j t ht
    by_cases hj : k = j
    · subst hj
      exact ⟨ht.dropLink.dropping, fun _ => ht.dropLink⟩
    · exact ⟨ht.congr (dropLink_core_ne hj t), fun h => h.congr (dropLink_core_ne hj t)⟩
  have hdrop : Dropped k (s.core k) g (foldS (coresOver s port) dropLink s₁) :=
    foldS_reaches (Dropping k (s.core k) g) (Dropped k (s.core k) g) (mem_coresOver hg hp) (fun j _ t ht => (hstep j t ht).1)
      (fun t ht => ht.dropLink) (fun j _ t ht h => (hstep j t ht).2 h) ((dropping_self hg).congr (s := s) rfl)
  obtain ⟨hstays, hgone, ⟨g', hg', -, hfail⟩, hcrew⟩ := hdrop
  refine ⟨_, g', (exec_linkDown s port).trans (congrArg _ (if_neg (by simp [hup]; omega))), ?_, ?_, hgone, hstays, hg', hfail, fun c hr hn hp => ?_⟩
  · exact foldS_view State.mem (fun j _ t => dropLink_mem j t) s₁
  · exact congrArg Svc.down (foldS_view State.svc (fun j _ t => dropLink_svc j t) s₁)
  · obtain ⟨g₂, c', hg₂, hr', -, f, hf, hk⟩ := hcrew c hr hn hp
    rw [hg'] at hg₂
    cases hg₂
    exact ⟨c', f, hr', hf, hk⟩

theorem linkDown_of_down (s : State) (port : Nat) (h : port ∈ s.svc.down) : exec (.linkDown port) s = .next s :=
  (exec_linkDown s port).trans (congrArg _ (if_pos (by simp [h])))

end Sys2Proof.Machine
end

section
/-!
PROOFS. Chair entries at a frame origin (05 R113), a relay's decision (13 R284), and the obligation on containment and resets.
-/
namespace Sys2Proof.Machine

/-! ## Chair entries at a frame origin (05 R113) -/

/-- What writes of a table's entries leave at a key: the last of those under it. -/
theorem SMap.get_foldl_set {α : Type} [DecidableEq α] (d : α) (l m : SMap α) (k : Nat) :
    SMap.get d (l.foldl (fun m e => SMap.set d m e.1 e.2) m) k = (l.filter fun e => e.1 = k).foldl (fun _ e => e.2) (SMap.get d m k) := by
  induction l generalizing m with
  | nil => rfl
  | cons e l ih =>
    rw [List.foldl_cons, ih, SMap.get_set, List.filter_cons]
    by_cases h : k = e.1
    · simp [h]
    · simp [h, Ne.symm h]

/-- At its frame origin a die takes the chair entries that are written for it, and no others. -/
theorem frameOrigin_at_origin (s : State) (die : Nat) (hdie : die < 4) (ho : nextOrigin s die = s.now) :
    ∃ t, exec (.frameOrigin die) s = .next t ∧ t.mem = s.mem ∧ t.cores = s.cores ∧ (∀ e ∈ t.pkg.chairsNext, e.1 / 20480 ≠ die) ∧
      (∀ k b, (s.pkg.chairsNext.filter fun e => e.1 = k) = [(k, b)] → k / 20480 = die → t.pkg.chairs.get 0 k = b) ∧
      (∀ k, (∀ e ∈ s.pkg.chairsNext, e.1 ≠ k) → t.pkg.chairs.get 0 k = s.pkg.chairs.get 0 k) ∧
      ∀ k, k / 20480 ≠ die → t.pkg.chairs.get 0 k = s.pkg.chairs.get 0 k := by
  let u := if s.pkg.chairDiesNext.contains die then evaluateAll s else s
  obtain ⟨hmem, hcores, hpkg⟩ : u.mem = s.mem ∧ u.cores = s.cores ∧ u.pkg = s.pkg := by
    unfold u
    split
    · exact ⟨evaluateAll_mem s, evaluateAll_cores s, evaluateAll_pkg s⟩
    · exact ⟨rfl, rfl, rfl⟩
  let new := s.pkg.chairsNext.filter fun e => e.1 / 20480 = die
  have hnew : ∀ k, (new.filter fun e => e.1 = k) = (s.pkg.chairsNext.filter fun e => e.1 = k).filter fun e => e.1 / 20480 = die :=
    fun k => List.filter_comm ..
  have hkeep : ∀ k, (new.filter fun e => e.1 = k) = [] →
      SMap.get 0 (new.foldl (fun m e => SMap.set 0 m e.1 e.2) u.pkg.chairs) k = s.pkg.chairs.get 0 k := by
    intro k h
    rw [SMap.get_foldl_set, h, hpkg, List.foldl_nil]
  refine ⟨_, (congrArg Host.Outcome.next ((if_neg (by omega)).trans (if_neg (by simp [ho])))), hmem, hcores, fun e he => ?_, fun k b h hk => ?_,
    fun k h => hkeep k ?_, fun k h => hkeep k ?_⟩
  · simpa using (List.mem_filter.mp he).2
  · refine (SMap.get_foldl_set 0 new u.pkg.chairs k).trans ?_
    simp [hnew, h, hk]
  · have hnone : (s.pkg.chairsNext.filter fun e => e.1 = k) = [] := List.filter_eq_nil_iff.mpr fun e he => by simpa using h e he
    rw [hnew, hnone, List.filter_nil]
  · rw [hnew, List.filter_filter, List.filter_eq_nil_iff]
    rintro e - he
    obtain ⟨h₁, h₂⟩ : e.1 / 20480 = die ∧ e.1 = k := by simpa using he
    exact h (h₂ ▸ h₁)

/-- Before its frame origin nothing of a die's package changes. -/
theorem frameOrigin_before_origin (s : State) (die : Nat) (hdie : die < 4) (ho : nextOrigin s die ≠ s.now) :
    ∃ t, exec (.frameOrigin die) s = .next t ∧ t.pkg = s.pkg ∧ (nextOrigin s die, Instr.frameOrigin die) ∈ t.agenda :=
  ⟨_, congrArg Host.Outcome.next ((if_neg (by omega)).trans (if_pos ho)), rfl, mem_agenda_post_self ..⟩

/-! ## Parity of a relay (13 R284) -/

/-- Bytes that are written are read back. -/
theorem SMap.getList_setList_self {α : Type} [DecidableEq α] (d : α) (m : SMap α) (k : Nat) (vs : List α) :
    SMap.getList d (SMap.setList d m k vs) k vs.length = vs := by
  induction vs generalizing m k with
  | nil => rfl
  | cons v vs ih => rw [SMap.setList, List.length_cons, SMap.getList, ih, SMap.get_setList, if_neg (by omega), SMap.get_set_self]

theorem leBytes_length (n x : Nat) : (leBytes n x).length = n := by
  induction n generalizing x with
  | zero => rfl
  | succ n ih => rw [leBytes, List.length_cons, ih]

theorem leNat_leBytes (n x : Nat) : leNat (leBytes n x) = x % 2 ^ (8 * n) := by
  induction n generalizing x with
  | zero => simp [leBytes, leNat, Nat.mod_one]
  | succ n ih => rw [leBytes, leNat, ih, BitVec.toNat_ofNat, Nat.mul_succ, Nat.add_comm _ 8, Nat.pow_add, Nat.mod_mul]

theorem ofNat_leNat_leBytes (n : Nat) (d : BitVec (8 * n)) : BitVec.ofNat (8 * n) (leNat (leBytes n d.toNat)) = d := by
  rw [leNat_leBytes, Nat.mod_eq_of_lt d.isLt, BitVec.ofNat_toNat, BitVec.setWidth_eq]

theorem lineOfBytes_bytesOfLine (d : Line) : lineOfBytes (bytesOfLine d) = d := ofNat_leNat_leBytes 128 d

theorem parityLine_of_parityLa {r : Relay} {i la : Nat} (h : r.parityLa i = some la) (s : State) :
    s.parityLine r i = lineOfBytes (s.rawBytes (la * 128) 128) := by
  simp only [State.parityLine, h]

theorem mem_of_metaView {s t : State} (h : t.metaView = s.metaView) : t.mem = s.mem := congrArg MetaView.mem h
theorem cores_of_metaView {s t : State} (h : t.metaView = s.metaView) : t.cores = s.cores := congrArg MetaView.cores h

/-- What is read and counted before a line of service granules is written. -/
theorem bumpCounter_fetchMeta_metaView (la : Nat) (s : State) : (bumpCounter la (fetchMeta (la / 64) s).1).metaView = s.metaView :=
  (bumpCounter_metaView ..).trans (fetchMeta_metaView ..)

theorem putParity_cores (r : Relay) (i : Nat) (d : Line) (s : State) : (putParity r i d s).cores = s.cores := by
  unfold putParity
  split
  · rw [cores_of_metaView (commitChunk_metaView ..), State.putRaw_cores, cores_of_metaView (bumpCounter_fetchMeta_metaView ..)]
  · rfl

theorem putParity_mem {r : Relay} {i la : Nat} (h : r.parityLa i = some la) (d : Line) (s : State) :
    (putParity r i d s).mem = SMap.setList 0 s.mem (la * 128) (bytesOfLine d) := by
  simp only [putParity, h]
  rw [mem_of_metaView (commitChunk_metaView ..), State.putRaw_mem, mem_of_metaView (bumpCounter_fetchMeta_metaView ..)]

theorem putParity_of_none {r : Relay} {i : Nat} (h : r.parityLa i = none) (d : Line) (s : State) : putParity r i d s = s := by
  simp only [putParity, h]

/-- One delta of a relay's decision moves its line of the parity, and nothing else of memory. -/
theorem relayDecision_single (s : State) (id i : Nat) (d : Line) (r : Relay) (hr : s.pkg.relays.find? id = some r) (hb : r.building = none)
    (hc : ∀ a ∈ r.ctxs, r.rpp < (s.ctx a).rpn) (hi : i < r.ch * 2 ^ 14) :
    ∃ t r', exec (.relayDecision id [(i, d)]) s = .next t ∧ t.cores = s.cores ∧ t.pkg.relays.find? id = some r' ∧ r'.rpp = r.rpp + 1 ∧ r'.parGr = r.parGr ∧
      (r.parityLa i = none → t.mem = s.mem) ∧
      ∀ la, r.parityLa i = some la → t.parityLine r' i = s.parityLine r i ^^^ d ∧
        ∀ x, x < la * 128 ∨ la * 128 + 128 ≤ x → SMap.get 0 t.mem x = SMap.get 0 s.mem x := by
  have hready : (r.building.isSome || r.ctxs.any fun a => (s.ctx a).rpn ≤ r.rpp) = false := by simpa [hb] using hc
  let u := putParity r i (s.parityLine r i ^^^ d) s
  let r' : Relay := { r with rpp := r.rpp + 1, sent := r.sent.filter fun d => r.rpp + 1 < d.1 }
  have hexec : exec (.relayDecision id [(i, d)]) s = .next (u.modPkg fun p => { p with relays := p.relays.put id r' }) := by
    rw [exec, execRelayDecision, hr]
    simp only [hready, Bool.false_eq_true, if_false, foldS_cons, foldS_nil, hi, if_true]
    rfl
  refine ⟨_, r', hexec, putParity_cores .., SMap.find?_put_self .., rfl, rfl, fun h => ?_, fun la h => ?_⟩
  · rw [State.modPkg_mem]
    exact congrArg State.mem (putParity_of_none h _ s)
  · have hmem : u.mem = _ := putParity_mem h _ s
    have hlen : (bytesOfLine (s.parityLine r i ^^^ d)).length = 128 := leBytes_length ..
    constructor
    · refine (parityLine_of_parityLa (r := r') h _).trans ?_
      rw [State.rawBytes, State.modPkg_mem, hmem]
      have hread := SMap.getList_setList_self 0 s.mem (la * 128) (bytesOfLine (s.parityLine r i ^^^ d))
      rw [hlen] at hread
      rw [hread, lineOfBytes_bytesOfLine]
    · intro x hx
      rw [State.modPkg_mem, hmem, SMap.get_setList, if_neg (by omega)]

/-- Settles O50: a clause each for what is contained, the loss of a die, an owner's tree, a function's reset, a link, a frame origin and a relay's
decision. -/
theorem containmentAndResets : Obligations.ContainmentAndResets :=
  ⟨fun s die n l _ => containment_dieSurvives s die n l,
    fun s die n l hdie hl hst hc ha hon hlog _ hloc => containment_dieLost s die n l hdie hl hst hc ha hon hlog hloc,
    containment_ownerTree, functionReset_clears, linkDown_fails, linkDown_of_down, frameOrigin_at_origin, frameOrigin_before_origin, relayDecision_single⟩

end Sys2Proof.Machine
end

section
/-!
PROOFS. Slots of a native bundle read back from the words that the encoder writes (03 R43 to R49, 10 R203): the fields of each word, and from them
the instruction.
-/
namespace Sys2Proof.Machine

/-! ## Fields of a word -/

theorem fld_eq_div (h l x : Nat) : fld h l x = x / 2 ^ l % 2 ^ (h + 1 - l) := by rw [fld, Nat.shiftRight_eq_div_pow]

theorem bitOf_eq_fld (i x : Nat) : bitOf i x = decide (fld i i x = 1) := by
  rw [bitOf, Nat.testBit_eq_decide_div_mod_eq, fld_eq_div, show i + 1 - i = 1 by omega, Nat.pow_one]

/-- A bit of a word, from the field of width 1 that it is. -/
theorem bitOf_of_fld {i x : Nat} {b : Bool} (h : fld i i x = b.toNat) : bitOf i x = b := by
  rw [bitOf_eq_fld, h]
  cases b <;> rfl

/-- A field that stands only with its mark, as IMX does in the slots that read it, is what it is under the mark and 0 without. -/
theorem ite_eq_of_or_zero {w : Nat} {b : Bool} {x : BitVec w} (h : (b || x == 0) = true) : (if b then x else 0) = x := by
  cases b with
  | true => rfl
  | false =>
    have hx : x = 0 := by simpa using h
    exact hx.symm

/-- No mask removes anything when no feature is masked. -/
theorem nMasked_zero (op t s : Nat) : nMasked 0 op t s = false := by simp [nMasked, bitOf]

/-! ## The scalar slot (Table 3.3) -/

/-- The fields that `decS` reads from a word and IMX. -/
def sFields (w imx : Nat) : SSlot where
  lat := BitVec.ofNat 3 (fld 39 37 w)
  gq := BitVec.ofNat 2 (fld 36 35 w)
  ge := bitOf 34 w
  gn := bitOf 33 w
  ty := BitVec.ofNat 4 (fld 32 29 w)
  rnd := BitVec.ofNat 2 (fld 28 27 w)
  sat := bitOf 26 w
  sub := BitVec.ofNat 4 (fld 25 22 w)
  im := bitOf 21 w
  sd := BitVec.ofNat 5 (fld 20 16 w)
  sa := BitVec.ofNat 5 (fld 15 11 w)
  sb := BitVec.ofNat 5 (fld 10 6 w)
  sc := BitVec.ofNat 5 (fld 5 1 w)
  imx := if bitOf 21 w then BitVec.ofNat 32 imx else 0

theorem decS_eq (fm w imx : Nat) : decS fm w imx =
    let op := fld 47 40 w
    let f := sFields w imx
    if w = 0 then .ok none
    else if sAssigned op = false ∨ nMasked fm op f.ty.toNat f.sub.toNat then .error .illOpcode
    else if bitOf 0 w ∨ sLimits op f = false then .error .malformed
    else if op = 0xE1 ∧ csrNative imx then .ok (some (.csrwAdr f))
    else match mkShared op f.sub.toNat imx (.s f) with
      | some i => .ok (some i)
      | none => .error .malformed := by
  rfl

theorem encS_fields {op : Nat} (ho : op < 256) (f : SSlot) :
    let w := encS op f
    fld 47 40 w = op ∧ fld 39 37 w = f.lat.toNat ∧ fld 36 35 w = f.gq.toNat ∧ fld 34 34 w = f.ge.toNat ∧ fld 33 33 w = f.gn.toNat ∧
    fld 32 29 w = f.ty.toNat ∧ fld 28 27 w = f.rnd.toNat ∧ fld 26 26 w = f.sat.toNat ∧ fld 25 22 w = f.sub.toNat ∧ fld 21 21 w = f.im.toNat ∧
    fld 20 16 w = f.sd.toNat ∧ fld 15 11 w = f.sa.toNat ∧ fld 10 6 w = f.sb.toNat ∧ fld 5 1 w = f.sc.toNat ∧ fld 0 0 w = 0 := by
  have hge := f.ge.toNat_lt
  have hgn := f.gn.toNat_lt
  have hsat := f.sat.toNat_lt
  have him := f.im.toNat_lt
  refine ⟨?_, ?_, ?_, ?_, ?_, ?_, ?_, ?_, ?_, ?_, ?_, ?_, ?_, ?_, ?_⟩ <;> (simp only [encS, fld_eq_div]; omega)

theorem sFields_encS {op : Nat} (ho : op < 256) {f : SSlot} (hi : (f.im || f.imx == 0) = true) : sFields (encS op f) f.imx.toNat = f := by
  obtain ⟨-, lat, gq, ge, gn, ty, rnd, sat, sub, im, sd, sa, sb, sc, -⟩ := encS_fields ho f
  simp only [sFields, lat, gq, ty, rnd, sub, sd, sa, sb, sc, bitOf_of_fld ge, bitOf_of_fld gn, bitOf_of_fld sat, bitOf_of_fld im,
    BitVec.ofNat_toNat, BitVec.setWidth_eq, ite_eq_of_or_zero hi]

theorem lt_of_sAssigned {op : Nat} (h : sAssigned op = true) : op < 256 := by
  simp only [sAssigned, decide_eq_true_eq] at h
  omega

/-- The scalar slot's word decodes to the instruction that it was written for. -/
theorem decS_encS {i : Instr} {f : SSlot} (h : formOf i = some (.s f)) (hw : wellFormed i = true) :
    decS 0 (encS (opcOf i) f) f.imx.toNat = .ok (some i) := by
  simp only [wellFormed, h, wfS, Bool.and_eq_true, decide_eq_true_eq] at hw
  obtain ⟨⟨⟨⟨hop, hlim⟩, himx⟩, hne⟩, hi⟩ := hw
  have ho := lt_of_sAssigned hop
  obtain ⟨op, -, -, -, -, -, -, -, -, -, -, -, -, -, b0⟩ := encS_fields ho f
  have b0 : bitOf 0 (encS (opcOf i) f) = false := bitOf_of_fld b0
  rw [decS_eq]
  simp only [op, sFields_encS ho himx, hne, if_false, hop, nMasked_zero, b0, hlim, Bool.false_eq_true, or_self, reduceCtorEq]
  split_ifs at hi ⊢ with hc
  · rw [hi]
  · rw [hi]

/-! ## The vector slot (Table 3.4) -/

/-- The fields that `decV` reads from a word, IMX and the broadcast's register. -/
def vFields (w imx bcs : Nat) : VSlot where
  lat := BitVec.ofNat 4 (fld 55 52 w)
  gp := BitVec.ofNat 3 (fld 51 49 w)
  ge := bitOf 48 w
  gn := bitOf 47 w
  ty := BitVec.ofNat 4 (fld 46 43 w)
  rnd := BitVec.ofNat 2 (fld 42 41 w)
  sat := bitOf 40 w
  sub := BitVec.ofNat 4 (fld 39 36 w)
  bb := bitOf 35 w
  im := bitOf 34 w
  vd := BitVec.ofNat 6 (fld 33 28 w)
  va := BitVec.ofNat 6 (fld 27 22 w)
  vb := BitVec.ofNat 6 (fld 21 16 w)
  vc := BitVec.ofNat 6 (fld 15 10 w)
  imx := if bitOf 34 w then BitVec.ofNat 32 imx else 0
  bcs := if bitOf 35 w then BitVec.ofNat 5 bcs else 0

theorem decV_eq (fm w imx bcs : Nat) : decV fm w imx bcs =
    let op := fld 63 56 w
    let f := vFields w imx bcs
    if w = 0 then .ok none
    else if vAssigned op = false ∨ nMasked fm op f.ty.toNat (if op = 0x3A then f.vb.toNat else f.sub.toNat) then .error .illOpcode
    else if fld 9 0 w ≠ 0 ∨ vLimits op f = false then .error .malformed
    else match mkShared op f.sub.toNat 0 (.v f) with
      | some i => .ok (some i)
      | none => .error .malformed := by
  rfl

theorem encV_fields {op : Nat} (ho : op < 256) (f : VSlot) :
    let w := encV op f
    fld 63 56 w = op ∧ fld 55 52 w = f.lat.toNat ∧ fld 51 49 w = f.gp.toNat ∧ fld 48 48 w = f.ge.toNat ∧ fld 47 47 w = f.gn.toNat ∧
    fld 46 43 w = f.ty.toNat ∧ fld 42 41 w = f.rnd.toNat ∧ fld 40 40 w = f.sat.toNat ∧ fld 39 36 w = f.sub.toNat ∧ fld 35 35 w = f.bb.toNat ∧
    fld 34 34 w = f.im.toNat ∧ fld 33 28 w = f.vd.toNat ∧ fld 27 22 w = f.va.toNat ∧ fld 21 16 w = f.vb.toNat ∧ fld 15 10 w = f.vc.toNat ∧
    fld 9 0 w = 0 := by
  have hge := f.ge.toNat_lt
  have hgn := f.gn.toNat_lt
  have hsat := f.sat.toNat_lt
  have hbb := f.bb.toNat_lt
  have him := f.im.toNat_lt
  refine ⟨?_, ?_, ?_, ?_, ?_, ?_, ?_, ?_, ?_, ?_, ?_, ?_, ?_, ?_, ?_, ?_⟩ <;> (simp only [encV, fld_eq_div]; omega)

theorem vFields_encV {op : Nat} (ho : op < 256) {f : VSlot} (hi : (f.im || f.imx == 0) = true) (hb : (f.bb || f.bcs == 0) = true) :
    vFields (encV op f) f.imx.toNat f.bcs.toNat = f := by
  obtain ⟨-, lat, gp, ge, gn, ty, rnd, sat, sub, bb, im, vd, va, vb, vc, -⟩ := encV_fields ho f
  simp only [vFields, lat, gp, ty, rnd, sub, vd, va, vb, vc, bitOf_of_fld ge, bitOf_of_fld gn, bitOf_of_fld sat, bitOf_of_fld bb, bitOf_of_fld im,
    BitVec.ofNat_toNat, BitVec.setWidth_eq, ite_eq_of_or_zero hi, ite_eq_of_or_zero hb]

theorem lt_of_vAssigned {op : Nat} (h : vAssigned op = true) : op < 256 := by
  simp only [vAssigned, decide_eq_true_eq] at h
  omega

/-- A vector slot's word decodes to the instruction that it was written for. -/
theorem decV_encV {i : Instr} {f : VSlot} (h : formOf i = some (.v f)) (hw : wellFormed i = true) :
    decV 0 (encV (opcOf i) f) f.imx.toNat f.bcs.toNat = .ok (some i) := by
  simp only [wellFormed, h, wfV, Bool.and_eq_true, decide_eq_true_eq] at hw
  obtain ⟨⟨⟨⟨⟨hop, hlim⟩, himx⟩, hbcs⟩, hne⟩, hi⟩ := hw
  have ho := lt_of_vAssigned hop
  obtain ⟨op, -, -, -, -, -, -, -, -, -, -, -, -, -, -, b0⟩ := encV_fields ho f
  rw [decV_eq]
  simp only [op, vFields_encV ho himx hbcs, hne, if_false, hop, nMasked_zero, b0, hlim, Bool.false_eq_true, or_self, reduceCtorEq, hi, ne_eq,
    not_true_eq_false]

/-! ## The memory and engine slot (Table 3.6) -/

/-- The fields that `decL` reads from a word and IMX. -/
def lFields (w imx : Nat) : LSlot where
  lat := BitVec.ofNat 7 (fld 55 49 w)
  gp := BitVec.ofNat 3 (fld 48 46 w)
  ge := bitOf 45 w
  gn := bitOf 44 w
  ty := BitVec.ofNat 4 (fld 43 40 w)
  pol := BitVec.ofNat 2 (fld 39 38 w)
  scope := BitVec.ofNat 3 (fld 37 35 w)
  aop := BitVec.ofNat 4 (fld 34 31 w)
  dv := bitOf 30 w
  d := BitVec.ofNat 6 (fld 29 24 w)
  ar := BitVec.ofNat 2 (fld 23 22 w)
  xe := bitOf 21 w
  xc := bitOf 20 w
  x := BitVec.ofNat 6 (fld 19 14 w)
  im := bitOf 12 w
  disp := BitVec.ofNat 12 (fld 11 0 w)
  imx := if bitOf 12 w then BitVec.ofNat 32 imx else 0

theorem decL_eq (fm w imx : Nat) : decL fm w imx =
    let op := fld 63 56 w
    let f := lFields w imx
    if w = 0 then .ok none
    else if op = 0 then .error .malformed
    else if lAssigned op = false ∨ nMasked fm op f.ty.toNat 0 then .error .illOpcode
    else if bitOf 13 w ∨ lLimits op f = false then .error .malformed
    else if op = 0x5C then .ok (some (.spl f))
    else if op = 0x5D then .ok (some (.fil f))
    else match mkShared op 0 0 (.l f) with
      | some i => .ok (some i)
      | none => .error .malformed := by
  rfl

theorem encL_fields {op : Nat} (ho : op < 256) (f : LSlot) :
    let w := encL op f
    fld 63 56 w = op ∧ fld 55 49 w = f.lat.toNat ∧ fld 48 46 w = f.gp.toNat ∧ fld 45 45 w = f.ge.toNat ∧ fld 44 44 w = f.gn.toNat ∧
    fld 43 40 w = f.ty.toNat ∧ fld 39 38 w = f.pol.toNat ∧ fld 37 35 w = f.scope.toNat ∧ fld 34 31 w = f.aop.toNat ∧ fld 30 30 w = f.dv.toNat ∧
    fld 29 24 w = f.d.toNat ∧ fld 23 22 w = f.ar.toNat ∧ fld 21 21 w = f.xe.toNat ∧ fld 20 20 w = f.xc.toNat ∧ fld 19 14 w = f.x.toNat ∧
    fld 13 13 w = 0 ∧ fld 12 12 w = f.im.toNat ∧ fld 11 0 w = f.disp.toNat := by
  have hge := f.ge.toNat_lt
  have hgn := f.gn.toNat_lt
  have hdv := f.dv.toNat_lt
  have hxe := f.xe.toNat_lt
  have hxc := f.xc.toNat_lt
  have him := f.im.toNat_lt
  refine ⟨?_, ?_, ?_, ?_, ?_, ?_, ?_, ?_, ?_, ?_, ?_, ?_, ?_, ?_, ?_, ?_, ?_, ?_⟩ <;> (simp only [encL, fld_eq_div]; omega)

theorem lFields_encL {op : Nat} (ho : op < 256) {f : LSlot} (hi : (f.im || f.imx == 0) = true) : lFields (encL op f) f.imx.toNat = f := by
  obtain ⟨-, lat, gp, ge, gn, ty, pol, scope, aop, dv, d, ar, xe, xc, x, -, im, disp⟩ := encL_fields ho f
  simp only [lFields, lat, gp, ty, pol, scope, aop, d, ar, x, disp, bitOf_of_fld ge, bitOf_of_fld gn, bitOf_of_fld dv, bitOf_of_fld xe,
    bitOf_of_fld xc, bitOf_of_fld im, BitVec.ofNat_toNat, BitVec.setWidth_eq, ite_eq_of_or_zero hi]

theorem of_lAssigned {op : Nat} (h : lAssigned op = true) : 0 < op ∧ op < 256 := by
  simp only [lAssigned, decide_eq_true_eq] at h
  omega

theorem fld_zero (h l : Nat) : fld h l 0 = 0 := by simp [fld_eq_div]

/-- The memory and engine slot's word decodes to the instruction that it was written for. -/
theorem decL_encL {i : Instr} {f : LSlot} (h : formOf i = some (.l f)) (hw : wellFormed i = true) :
    decL 0 (encL (opcOf i) f) f.imx.toNat = .ok (some i) := by
  simp only [wellFormed, h, wfL, Bool.and_eq_true, decide_eq_true_eq] at hw
  obtain ⟨⟨⟨hop, hlim⟩, himx⟩, hi⟩ := hw
  obtain ⟨hpos, ho⟩ := of_lAssigned hop
  obtain ⟨op, -, -, -, -, -, -, -, -, -, -, -, -, -, -, b13, -, -⟩ := encL_fields ho f
  have b13 : bitOf 13 (encL (opcOf i) f) = false := bitOf_of_fld b13
  have hne : encL (opcOf i) f ≠ 0 := fun e => by rw [e, fld_zero] at op; omega
  rw [decL_eq]
  simp only [op, lFields_encL ho himx, hne, if_false, hop, nMasked_zero, b13, hlim, Bool.false_eq_true, or_self, reduceCtorEq, hpos.ne']
  split_ifs at hi ⊢ with hs hf
  · rw [hi]
  · rw [hi]
  · rw [hi]

/-! ## The matrix slot (10 Table 10.4) -/

/-- The fields that `decM` reads from a word. -/
def mFields (w : Nat) : MSlot where
  z := bitOf 55 w
  fw := BitVec.ofNat 5 (fld 54 50 w)
  aa := BitVec.ofNat 2 (fld 49 48 w)
  ab := BitVec.ofNat 2 (fld 47 46 w)
  nstep := BitVec.ofNat 12 (fld 45 34 w)
  asrc := BitVec.ofNat 2 (fld 33 32 w)
  bsrc := BitVec.ofNat 2 (fld 31 30 w)

theorem encM_fields {op : Nat} (ho : op < 256) (f : MSlot) :
    let w := encM op f
    fld 63 56 w = op ∧ fld 55 55 w = f.z.toNat ∧ fld 54 50 w = f.fw.toNat ∧ fld 49 48 w = f.aa.toNat ∧ fld 47 46 w = f.ab.toNat ∧
    fld 45 34 w = f.nstep.toNat ∧ fld 33 32 w = f.asrc.toNat ∧ fld 31 30 w = f.bsrc.toNat ∧ fld 29 0 w = 0 := by
  have hz := f.z.toNat_lt
  refine ⟨?_, ?_, ?_, ?_, ?_, ?_, ?_, ?_, ?_⟩ <;> (simp only [encM, fld_eq_div]; omega)

theorem mFields_encM {op : Nat} (ho : op < 256) (f : MSlot) : mFields (encM op f) = f := by
  obtain ⟨-, z, fw, aa, ab, nstep, asrc, bsrc, -⟩ := encM_fields ho f
  simp only [mFields, bitOf_of_fld z, fw, aa, ab, nstep, asrc, bsrc, BitVec.ofNat_toNat, BitVec.setWidth_eq]

/-- The instruction of a matrix slot. -/
def mInstr (op : Nat) (f : MSlot) : Instr :=
  if op = 0x88 then .mx f else if op = 0x89 then .mxs f else if op = 0x8A then .mxr f else .mxz f

theorem decM_eq (w : Nat) : decM w =
    let op := fld 63 56 w
    let f := mFields w
    if w = 0 then .ok none
    else if op = 0 then .error .malformed
    else if op < 0x88 ∨ 0x8B < op then .error .illOpcode
    else if fld 29 0 w ≠ 0 then .error .malformed
    else if op = 0x88 then .ok (some (.mx f))
    else if op = 0x89 then .ok (some (.mxs f))
    else if op = 0x8A then
      if f.ab = 0 ∧ f.nstep = 0 ∧ f.bsrc = 0 ∧ (f.asrc = 0 ∨ f.asrc = 2) then .ok (some (.mxr f)) else .error .malformed
    else if f.fw = 0 ∧ f.aa = 0 ∧ f.ab = 0 ∧ f.nstep = 0 ∧ f.asrc = 0 ∧ f.bsrc = 0 then .ok (some (.mxz f))
    else .error .malformed := by
  rfl

theorem decM_encM {op : Nat} {f : MSlot} (hlo : 0x88 ≤ op) (hhi : op ≤ 0x8B) (hw : wfM op f = true) : decM (encM op f) = .ok (some (mInstr op f)) := by
  have ho : op < 256 := by omega
  obtain ⟨hop, -, -, -, -, -, -, -, b0⟩ := encM_fields ho f
  have hne : encM op f ≠ 0 := fun e => by rw [e, fld_zero] at hop; omega
  have hrange : ¬(op < 0x88 ∨ 0x8B < op) := by omega
  rw [decM_eq]
  simp only [hop, mFields_encM ho, hne, b0, if_neg hrange, show op ≠ 0 by omega, if_false, ne_eq, not_true_eq_false, mInstr]
  obtain rfl | rfl | rfl | rfl : op = 0x88 ∨ op = 0x89 ∨ op = 0x8A ∨ op = 0x8B := by omega
  · rfl
  · rfl
  · have hz : f.ab = 0 ∧ f.nstep = 0 ∧ f.bsrc = 0 ∧ (f.asrc = 0 ∨ f.asrc = 2) := by simpa [wfM, and_assoc] using hw
    rw [if_pos hz]
    rfl
  · have hz : f.fw = 0 ∧ f.aa = 0 ∧ f.ab = 0 ∧ f.nstep = 0 ∧ f.asrc = 0 ∧ f.bsrc = 0 := by simpa [wfM, and_assoc] using hw
    rw [if_pos hz]
    rfl

/-! ## The branch slot (Tables 3.8, 3.11) -/

/-- The fields that `decB` reads from a word and IMX. -/
def bFields (w imx : Nat) : BSlot where
  gq := BitVec.ofNat 2 (fld 23 22 w)
  ge := bitOf 21 w
  gn := bitOf 20 w
  opnd := BitVec.ofNat 20 (fld 19 0 w)
  imx := if fld 31 24 w = 1 ∧ bitOf 17 w then BitVec.ofNat 32 imx else 0

/-- The instruction of a branch slot. -/
def bInstr (op : Nat) (f : BSlot) : Instr :=
  match op with
  | 1 => .pbr f | 2 => .brt f | 3 => .send f | 4 => .lpset f | 5 => .lpclr f | 6 => .rpt f
  | 7 => if bitOf 19 f.opnd.toNat then .cmtSwap f else .cmt f
  | 8 => .halt f | 9 => .barGNative f | 10 => .barKNative f | 11 => .yieldNative f | 12 => .trap (.b f) | 13 => .brk (.b f)
  | _ => .rftNative f

theorem encB_fields {op : Nat} (ho : op < 256) (f : BSlot) :
    let w := encB op f
    fld 31 24 w = op ∧ fld 23 22 w = f.gq.toNat ∧ fld 21 21 w = f.ge.toNat ∧ fld 20 20 w = f.gn.toNat ∧ fld 19 0 w = f.opnd.toNat ∧
    fld 19 19 w = fld 19 19 f.opnd.toNat ∧ fld 17 17 w = fld 17 17 f.opnd.toNat := by
  have hge := f.ge.toNat_lt
  have hgn := f.gn.toNat_lt
  refine ⟨?_, ?_, ?_, ?_, ?_, ?_, ?_⟩ <;> (simp only [encB, fld_eq_div]; omega)

theorem bFields_encB {op : Nat} (ho : op < 256) {f : BSlot} (hi : (op == 1 && bitOf 17 f.opnd.toNat || f.imx == 0) = true) :
    bFields (encB op f) f.imx.toNat = f := by
  obtain ⟨hop, gq, ge, gn, opnd, -, b17⟩ := encB_fields ho f
  have himx : (if op = 1 ∧ bitOf 17 (encB op f) = true then f.imx else 0) = f.imx := by
    rw [bitOf_eq_fld, b17, ← bitOf_eq_fld]
    exact (if_congr (by simp) rfl rfl).trans (ite_eq_of_or_zero hi)
  simp only [bFields, hop, gq, bitOf_of_fld ge, bitOf_of_fld gn, opnd, BitVec.ofNat_toNat, BitVec.setWidth_eq, himx]

theorem decB_encB {op : Nat} {f : BSlot} (hlo : 1 ≤ op) (hhi : op ≤ 0x0E) (hw : wfB op f = true) :
    decB (encB op f) f.imx.toNat = .ok (some (bInstr op f)) := by
  have ho : op < 256 := by omega
  simp only [wfB, Bool.and_eq_true] at hw
  obtain ⟨hlim, himx⟩ := hw
  obtain ⟨hop, -, -, -, -, b19, -⟩ := encB_fields ho f
  have hb : bitOf 19 (encB op f) = bitOf 19 f.opnd.toNat := by rw [bitOf_eq_fld, b19, ← bitOf_eq_fld]
  have hne : encB op f ≠ 0 := fun e => by rw [e, fld_zero] at hop; omega
  have hf := bFields_encB ho himx
  simp only [bFields, hop] at hf
  simp only [decB, hop, hf, hb, hne, if_false, show op ≠ 0 by omega, if_neg (show ¬ 0x0E < op by omega), hlim, Bool.true_eq_false]
  interval_cases op <;> rfl

/-! ## The transfer slot (Table 3.7, 03 R54) -/

theorem decX_xv (vd : BitVec 6) (ss : BitVec 5) : decX (encXY (.xv vd ss)) false = .ok [.xv vd ss] := by
  have hb : bitOf 31 (encXY (.xv vd ss)) = false ∧ bitOf 30 (encXY (.xv vd ss)) = false ∧ bitOf 12 (encXY (.xv vd ss)) = true ∧
      bitOf 0 (encXY (.xv vd ss)) = false := by
    simp only [encXY, bitOf_eq_fld, fld_eq_div, decide_eq_true_eq, decide_eq_false_iff_not]; omega
  have hf : fld 29 13 (encXY (.xv vd ss)) = 0 ∧ fld 11 6 (encXY (.xv vd ss)) = vd.toNat ∧ fld 5 1 (encXY (.xv vd ss)) = ss.toNat := by
    simp only [encXY, fld_eq_div]; omega
  simp [decX, hb, hf]

/-- BC alone reads the low bits that XV does not use, and only beside a slot that reads the broadcast. -/
theorem decX_bc (ss : BitVec 5) : decX (encXY (.bc ss)) true = .ok [.bc ss] := by
  have hb : bitOf 31 (encXY (.bc ss)) = false ∧ bitOf 30 (encXY (.bc ss)) = false ∧ bitOf 12 (encXY (.bc ss)) = false ∧
      bitOf 0 (encXY (.bc ss)) = false := by
    simp only [encXY, bitOf_eq_fld, fld_eq_div, decide_eq_false_iff_not]; omega
  have hf : fld 29 13 (encXY (.bc ss)) = 0 ∧ fld 5 1 (encXY (.bc ss)) = ss.toNat := by
    simp only [encXY, fld_eq_div]; omega
  simp [decX, hb, hf]

theorem decX_xs (sx : Bool) (sd : BitVec 5) (vs lane : BitVec 6) : decX (encXY (.xs sx sd vs lane)) false = .ok [.xs sx sd vs lane] := by
  have hsx := sx.toNat_lt
  have h31 : bitOf 31 (encXY (.xs sx sd vs lane)) = sx := bitOf_of_fld (by simp only [encXY, fld_eq_div]; omega)
  have hb : bitOf 30 (encXY (.xs sx sd vs lane)) = true ∧ bitOf 12 (encXY (.xs sx sd vs lane)) = false ∧
      bitOf 0 (encXY (.xs sx sd vs lane)) = false := by
    simp only [encXY, bitOf_eq_fld, fld_eq_div, decide_eq_true_eq, decide_eq_false_iff_not]; omega
  have hf : fld 29 25 (encXY (.xs sx sd vs lane)) = sd.toNat ∧ fld 24 19 (encXY (.xs sx sd vs lane)) = vs.toNat ∧
      fld 18 13 (encXY (.xs sx sd vs lane)) = lane.toNat ∧ fld 5 1 (encXY (.xs sx sd vs lane)) = 0 := by
    simp only [encXY, fld_eq_div]; omega
  simp [decX, h31, hb, hf]

theorem decX_xsP (sd : BitVec 5) (pk : BitVec 3) : decX (encXY (.xsP sd pk)) false = .ok [.xsP sd pk] := by
  have hb : bitOf 31 (encXY (.xsP sd pk)) = false ∧ bitOf 30 (encXY (.xsP sd pk)) = true ∧ bitOf 12 (encXY (.xsP sd pk)) = false ∧
      bitOf 0 (encXY (.xsP sd pk)) = true := by
    simp only [encXY, bitOf_eq_fld, fld_eq_div, decide_eq_true_eq, decide_eq_false_iff_not]; omega
  have hf : fld 29 25 (encXY (.xsP sd pk)) = sd.toNat ∧ fld 24 22 (encXY (.xsP sd pk)) = 0 ∧ fld 21 19 (encXY (.xsP sd pk)) = pk.toNat ∧
      fld 18 13 (encXY (.xsP sd pk)) = 0 ∧ fld 5 1 (encXY (.xsP sd pk)) = 0 := by
    simp only [encXY, fld_eq_div]; omega
  simp [decX, hb, hf]

/-! ## The sync slot (Table 3.9) -/

theorem decY_wait (fl : BitVec 5) (k : BitVec 15) : decY (encXY (.wait fl k)) = .ok (some (.wait fl k)) := by
  have hf : fld 31 30 (encXY (.wait fl k)) = 1 ∧ fld 29 25 (encXY (.wait fl k)) = fl.toNat ∧ fld 24 15 (encXY (.wait fl k)) = 0 ∧
      fld 14 0 (encXY (.wait fl k)) = k.toNat := by
    simp only [encXY, fld_eq_div]; omega
  simp [decY, hf]

theorem decY_postSelf (fl : BitVec 5) (k : BitVec 15) : decY (encXY (.postSelf fl k)) = .ok (some (.postSelf fl k)) := by
  have hb : bitOf 24 (encXY (.postSelf fl k)) = true := bitOf_of_fld (by simp only [encXY, fld_eq_div, Bool.toNat_true]; omega)
  have hf : fld 31 30 (encXY (.postSelf fl k)) = 2 ∧ fld 29 25 (encXY (.postSelf fl k)) = fl.toNat ∧ fld 23 15 (encXY (.postSelf fl k)) = 0 ∧
      fld 14 0 (encXY (.postSelf fl k)) = k.toNat := by
    simp only [encXY, fld_eq_div]; omega
  simp [decY, hb, hf]

theorem decY_postCore (fl : BitVec 5) (core : BitVec 9) (k : BitVec 15) : decY (encXY (.postCore fl core k)) = .ok (some (.postCore fl core k)) := by
  have hb : bitOf 24 (encXY (.postCore fl core k)) = false := bitOf_of_fld (by simp only [encXY, fld_eq_div, Bool.toNat_false]; omega)
  have hf : fld 31 30 (encXY (.postCore fl core k)) = 2 ∧ fld 29 25 (encXY (.postCore fl core k)) = fl.toNat ∧
      fld 23 15 (encXY (.postCore fl core k)) = core.toNat ∧ fld 14 0 (encXY (.postCore fl core k)) = k.toNat := by
    simp only [encXY, fld_eq_div]; omega
  simp [decY, hb, hf]

/-! ## Which instructions have which words -/

/-- The words of an instruction with an operand form. -/
def formEnc (op : Nat) : Form → Enc
  | .bur f => .bytes (encodeBIns op f)
  | .s f => .sSlot (encS op f) f.imx.toNat
  | .v f => .vSlot (encV op f) f.imx.toNat f.bcs.toNat
  | .l f => .lSlot (encL op f) f.imx.toNat

theorem encode_of_form {i : Instr} {fm : Form} (h : formOf i = some fm) : encode i = formEnc (opcOf i) fm := by
  simp only [encode, h]
  cases fm <;> rfl

theorem formOf_eq_none {i : Instr} (h : ∀ op fm, encode i ≠ formEnc op fm) : formOf i = none := by
  cases hf : formOf i with
  | none => rfl
  | some fm => exact absurd (encode_of_form hf) (h _ _)

/-- The instructions of the branch slot. -/
theorem encode_eq_bSlot {i : Instr} {w x : Nat} (h : encode i = .bSlot w x) (hw : wellFormed i = true) :
    ∃ op f, 1 ≤ op ∧ op ≤ 0x0E ∧ w = encB op f ∧ x = f.imx.toNat ∧ wfB op f = true ∧ bInstr op f = i := by
  have hn : formOf i = none := formOf_eq_none fun _ fm => by rw [h]; cases fm <;> simp [formEnc]
  cases i with
  | pbr f => cases h; exact ⟨1, f, by omega, by omega, rfl, rfl, hw, rfl⟩
  | brt f => cases h; exact ⟨2, f, by omega, by omega, rfl, rfl, hw, rfl⟩
  | send f => cases h; exact ⟨3, f, by omega, by omega, rfl, rfl, hw, rfl⟩
  | lpset f => cases h; exact ⟨4, f, by omega, by omega, rfl, rfl, hw, rfl⟩
  | lpclr f => cases h; exact ⟨5, f, by omega, by omega, rfl, rfl, hw, rfl⟩
  | rpt f => cases h; exact ⟨6, f, by omega, by omega, rfl, rfl, hw, rfl⟩
  | cmt f =>
    cases h
    obtain ⟨hb, h19⟩ : wfB 7 f = true ∧ (!bitOf 19 f.opnd.toNat) = true := Bool.and_eq_true_iff.mp hw
    exact ⟨7, f, by omega, by omega, rfl, rfl, hb, if_neg (by simpa using h19)⟩
  | cmtSwap f =>
    cases h
    obtain ⟨hb, h19⟩ : wfB 7 f = true ∧ bitOf 19 f.opnd.toNat = true := Bool.and_eq_true_iff.mp hw
    exact ⟨7, f, by omega, by omega, rfl, rfl, hb, if_pos h19⟩
  | halt f => cases h; exact ⟨8, f, by omega, by omega, rfl, rfl, hw, rfl⟩
  | barGNative f => cases h; exact ⟨9, f, by omega, by omega, rfl, rfl, hw, rfl⟩
  | barKNative f => cases h; exact ⟨10, f, by omega, by omega, rfl, rfl, hw, rfl⟩
  | yieldNative f => cases h; exact ⟨11, f, by omega, by omega, rfl, rfl, hw, rfl⟩
  | trap t =>
    cases t with
    | bur f => cases hn
    | b f => cases h; exact ⟨12, f, by omega, by omega, rfl, rfl, hw, rfl⟩
  | brk t =>
    cases t with
    | bur f => cases hn
    | b f => cases h; exact ⟨13, f, by omega, by omega, rfl, rfl, hw, rfl⟩
  | rftNative f => cases h; exact ⟨14, f, by omega, by omega, rfl, rfl, hw, rfl⟩
  | _ => cases hn <;> cases h

/-- The instructions of the matrix slot. -/
theorem encode_eq_mSlot {i : Instr} {w : Nat} (h : encode i = .mSlot w) (hw : wellFormed i = true) :
    ∃ op f, 0x88 ≤ op ∧ op ≤ 0x8B ∧ w = encM op f ∧ wfM op f = true ∧ mInstr op f = i := by
  have hn : formOf i = none := formOf_eq_none fun _ fm => by rw [h]; cases fm <;> simp [formEnc]
  cases i with
  | mx f => cases h; exact ⟨0x88, f, by omega, by omega, rfl, hw, rfl⟩
  | mxs f => cases h; exact ⟨0x89, f, by omega, by omega, rfl, hw, rfl⟩
  | mxr f => cases h; exact ⟨0x8A, f, by omega, by omega, rfl, hw, rfl⟩
  | mxz f => cases h; exact ⟨0x8B, f, by omega, by omega, rfl, hw, rfl⟩
  | trap t | brk t =>
    cases t with
    | bur f => cases hn
    | b f => cases h
  | _ => cases hn <;> cases h

/-- A transfer slot's word decodes to the instruction that it was written for, BC's beside a slot that reads the broadcast. -/
theorem decX_of_encode {i : Instr} {w : Nat} (h : encode i = .xSlot w) : (∃ b, decX w b = .ok [i]) ∧ ((∀ r, i ≠ .bc r) → decX w false = .ok [i]) := by
  have hn : formOf i = none := formOf_eq_none fun _ fm => by rw [h]; cases fm <;> simp [formEnc]
  cases i with
  | xv vd ss => cases h; exact ⟨⟨_, decX_xv vd ss⟩, fun _ => decX_xv vd ss⟩
  | xs sx sd vs lane => cases h; exact ⟨⟨_, decX_xs sx sd vs lane⟩, fun _ => decX_xs sx sd vs lane⟩
  | xsP sd pk => cases h; exact ⟨⟨_, decX_xsP sd pk⟩, fun _ => decX_xsP sd pk⟩
  | bc ss => cases h; exact ⟨⟨_, decX_bc ss⟩, fun hb => absurd rfl (hb ss)⟩
  | trap t | brk t =>
    cases t with
    | bur f => cases hn
    | b f => cases h
  | _ => cases hn <;> cases h

/-- A sync slot's word decodes to the instruction that it was written for. -/
theorem decY_of_encode {i : Instr} {w : Nat} (h : encode i = .ySlot w) : decY w = .ok (some i) := by
  have hn : formOf i = none := formOf_eq_none fun _ fm => by rw [h]; cases fm <;> simp [formEnc]
  cases i with
  | wait fl k => cases h; exact decY_wait fl k
  | postSelf fl k => cases h; exact decY_postSelf fl k
  | postCore fl core k => cases h; exact decY_postCore fl core k
  | trap t | brk t =>
    cases t with
    | bur f => cases hn
    | b f => cases h
  | _ => cases hn <;> cases h

end Sys2Proof.Machine
end

section
/-!
PROOFS. Burhus bytes read back (02 R19 to R29): variable-length numbers, operands, and the instruction; and owner messages (20 R398).
-/
namespace Sys2Proof.Machine

/-! ## Variable-length numbers (02 R20, R21) -/

theorem lebDigits_last {n d : Nat} (hd : d < 128) (rest : List Byte) : lebDigits (n + 1) (BitVec.ofNat 8 d :: rest) = .ok ([d], rest) := by
  have hb : (BitVec.ofNat 8 d).toNat = d := by rw [BitVec.toNat_ofNat]; omega
  rw [lebDigits, hb, if_pos hd]

theorem lebDigits_more {n d : Nat} {bs rest : List Byte} {ds : List Nat} (hd : d < 128) (h : lebDigits n bs = .ok (ds, rest)) :
    lebDigits (n + 1) (BitVec.ofNat 8 (d + 128) :: bs) = .ok (d :: ds, rest) := by
  have hb : (BitVec.ofNat 8 (d + 128)).toNat = d + 128 := by rw [BitVec.toNat_ofNat]; omega
  rw [lebDigits, hb, if_neg (by omega), h, Nat.add_sub_cancel]

/-- The digits of the minimal ULEB128 bytes of `x`: they give `x`, and the last is 0 for 0 alone. -/
theorem lebDigits_ulebEnc {n x : Nat} (hx : x < 128 ^ (n + 1)) (rest : List Byte) :
    ∃ ds, lebDigits (n + 1) (ulebEnc (n + 1) x ++ rest) = .ok (ds, rest) ∧ digitsNat ds = x ∧ ds ≠ [] ∧ (ds = [0] ∨ lastDigit ds ≠ 0) := by
  induction n generalizing x with
  | zero =>
    refine ⟨[x], ?_, rfl, by simp, ?_⟩
    · rw [ulebEnc, if_pos (by simpa using hx)]
      exact lebDigits_last (by simpa using hx) rest
    · simp [lastDigit]; omega
  | succ n ih =>
    by_cases hs : x < 128
    · refine ⟨[x], ?_, rfl, by simp, ?_⟩
      · rw [ulebEnc, if_pos hs]
        exact lebDigits_last hs rest
      · simp [lastDigit]; omega
    · have hx' : x / 128 < 128 ^ (n + 1) := Nat.div_lt_of_lt_mul (by rw [← Nat.pow_succ']; exact hx)
      obtain ⟨ds, hds, hval, hne, hlast⟩ := ih hx'
      have hlast' : lastDigit ds ≠ 0 := by
        refine hlast.resolve_left fun h0 => ?_
        rw [h0] at hval
        simp [digitsNat] at hval
        omega
      refine ⟨x % 128 :: ds, ?_, ?_, by simp, .inr ?_⟩
      · rw [ulebEnc, if_neg hs]
        exact lebDigits_more (Nat.mod_lt _ (by omega)) hds
      · rw [digitsNat, hval]; omega
      · obtain ⟨d, ds, rfl⟩ := List.exists_cons_of_ne_nil hne
        exact hlast'

theorem uleb_ulebEnc {n hi x : Nat} (hx : x < 128 ^ (n + 1)) (hhi : x ≤ hi) (rest : List Byte) :
    uleb (n + 1) hi (ulebEnc (n + 1) x ++ rest) = .ok (x, rest) := by
  obtain ⟨ds, hds, hval, -, hlast⟩ := lebDigits_ulebEnc hx rest
  have hmin : ds.length = 1 ∨ lastDigit ds ≠ 0 := hlast.imp_left fun h => by rw [h]; rfl
  simp only [uleb, hds, hval]
  rw [if_pos ⟨hmin, hhi⟩]

theorem digitsInt_cons {ds : List Nat} (d : Nat) (h : ds ≠ []) : digitsInt (d :: ds) = d + 128 * digitsInt ds := by
  obtain ⟨e, ds, rfl⟩ := List.exists_cons_of_ne_nil h
  rfl

/-- A digit before minimal digits leaves them minimal if one of them could not be left out. -/
theorem slebMinimal_cons {ds : List Nat} {d : Nat} (h : slebMinimal ds = true) (h0 : ¬(digitsInt ds = 0 ∧ d < 64))
    (h1 : ¬(digitsInt ds = -1 ∧ 64 ≤ d)) : slebMinimal (d :: ds) = true := by
  match ds, h with
  | [l], _ =>
    simp only [digitsInt] at h0 h1
    simp only [slebMinimal, Bool.not_eq_true', Bool.or_eq_false_iff, Bool.and_eq_false_imp, beq_iff_eq, decide_eq_false_iff_not]
    constructor
    · rintro rfl; simpa using h0
    · rintro rfl; simpa using h1
  | _ :: _ :: _, h => exact h

/-- One digit holds `x` when the sign of that digit gives the rest of it. -/
theorem lebDigits_slebEnc_last {x : Int} (h : x / 128 = 0 ∧ (x % 128).toNat < 64 ∨ x / 128 = -1 ∧ 64 ≤ (x % 128).toNat) (n : Nat)
    (rest : List Byte) : lebDigits (n + 1) (slebEnc (n + 1) x ++ rest) = .ok ([(x % 128).toNat], rest) ∧ digitsInt [(x % 128).toNat] = x := by
  constructor
  · simp only [slebEnc, if_pos h]
    exact lebDigits_last (by omega) rest
  · simp only [digitsInt]
    split <;> omega

/-- The digits of the minimal SLEB128 bytes of `x` give `x` and are minimal. -/
theorem lebDigits_slebEnc {n : Nat} {x : Int} (hlo : -(64 * 128 ^ n) ≤ x) (hhi : x < 64 * 128 ^ n) (rest : List Byte) :
    ∃ ds, lebDigits (n + 1) (slebEnc (n + 1) x ++ rest) = .ok (ds, rest) ∧ digitsInt ds = x ∧ ds ≠ [] ∧ slebMinimal ds = true := by
  induction n generalizing x with
  | zero =>
    obtain ⟨hds, hval⟩ := lebDigits_slebEnc_last (x := x) (by omega) 0 rest
    exact ⟨_, hds, hval, by simp, rfl⟩
  | succ n ih =>
    by_cases h : x / 128 = 0 ∧ (x % 128).toNat < 64 ∨ x / 128 = -1 ∧ 64 ≤ (x % 128).toNat
    · obtain ⟨hds, hval⟩ := lebDigits_slebEnc_last h (n + 1) rest
      exact ⟨_, hds, hval, by simp, rfl⟩
    · obtain ⟨ds, hds, hval, hne, hmin⟩ := ih (x := x / 128) (by omega) (by omega)
      obtain ⟨h0, h1⟩ := not_or.mp h
      refine ⟨(x % 128).toNat :: ds, ?_, ?_, by simp, slebMinimal_cons hmin (by rwa [hval]) (by rwa [hval])⟩
      · simp only [slebEnc, if_neg h]
        exact lebDigits_more (by omega) hds
      · rw [digitsInt_cons _ hne, hval]; omega

theorem sleb_slebEnc {lo hi x : Int} (hlo : -(2 ^ 69) ≤ x) (hhi : x < 2 ^ 69) (h : lo ≤ x ∧ x ≤ hi) (rest : List Byte) :
    sleb lo hi (slebEnc 10 x ++ rest) = .ok (x, rest) := by
  obtain ⟨ds, hds, hval, -, hmin⟩ := lebDigits_slebEnc (n := 9) (x := x) (by omega) (by omega) rest
  simp only [sleb, hds, hval, hmin]
  exact if_pos ⟨trivial, h⟩

theorem fixedBytes_leBytes {n x : Nat} (hx : x < 2 ^ (8 * n)) (rest : List Byte) : fixedBytes n (leBytes n x ++ rest) = .ok (x, rest) := by
  have hlen := leBytes_length n x
  rw [fixedBytes, if_pos (by simp [hlen]), List.take_left' hlen, List.drop_left' hlen, leNat_leBytes, Nat.mod_eq_of_lt hx]

/-! ## Operands (02 R19 to R21, R28) -/

/-- `g` with the field of one operand taken from `f`. -/
def copyOpd (f : BIns) (g : BIns) : Opd → BIns
  | .d => { g with d := f.d }
  | .a => { g with a := f.a }
  | .b => { g with b := f.b }
  | .c => { g with c := f.c }
  | .e => { g with e := f.e }
  | .f => { g with f := f.f }
  | .disp | .imm => { g with i := f.i }
  | .s1 | .y1 | .n1 _ | .h => { g with n1 := f.n1 }
  | .s2 | .y2 | .n2 _ => { g with n2 := f.n2 }

@[simp] theorem copyOpd_m1 (f g : BIns) (o : Opd) : (copyOpd f g o).m1 = g.m1 := by cases o <;> rfl

/-- An immediate's range lies within ten SLEB128 digits. -/
theorem immRange_bounds (op t : Nat) : -(2 ^ 69) ≤ (immRange op t).1 ∧ (immRange op t).2 < 2 ^ 69 := by
  have hw : tyWidth t = 64 ∨ tyWidth t = 32 ∨ tyWidth t = 16 ∨ tyWidth t = 8 ∨ tyWidth t = 6 := by
    unfold tyWidth; split_ifs <;> simp
  unfold immRange
  rcases hw with h | h | h | h | h <;> rw [h] <;> split_ifs <;> norm_num

/-- The number operand that no list of the opcode map bounds above five ULEB128 digits. -/
def opdFits : Opd → Bool
  | .n1 hi | .n2 hi => decide (hi < 2 ^ 32)
  | _ => true

theorem uleb_reg {x : Nat} (h : x ≤ 2097151) (rest : List Byte) : uleb 3 2097151 (ulebEnc 3 x ++ rest) = .ok (x, rest) :=
  uleb_ulebEnc (n := 2) (by omega) h rest

theorem uleb_seg {x : Nat} (h : x ≤ 16777214) (rest : List Byte) : uleb 4 16777214 (ulebEnc 4 x ++ rest) = .ok (x, rest) :=
  uleb_ulebEnc (n := 3) (by omega) h rest

theorem uleb_num {x hi : Nat} (hhi : hi < 2 ^ 32) (h : x ≤ hi) (rest : List Byte) : uleb 5 hi (ulebEnc 5 x ++ rest) = .ok (x, rest) :=
  uleb_ulebEnc (n := 4) (by omega) h rest

/-- The bytes of MOVI's floating-point immediates, which are fixed in number (02 R21). -/
theorem fixedBytes_imm {n : Nat} {x : Int} (h0 : 0 ≤ x) (h : x < 2 ^ (8 * n)) (rest : List Byte) :
    fixedBytes n (leBytes n x.toNat ++ rest) = .ok (x.toNat, rest) ∧ (x.toNat : Int) = x :=
  ⟨fixedBytes_leBytes ((Int.toNat_lt h0).mpr (by exact_mod_cast h)) rest, Int.toNat_of_nonneg h0⟩

/-- An operand in range is read back into its field. -/
theorem getOpd_putOpd {op : Nat} {o : Opd} {f g : BIns} (hw : wfOpd op f o = true) (ho : opdFits o = true) (hm : g.m1 = f.m1) (rest : List Byte) :
    getOpd op o g (putOpd op o f ++ rest) = .ok (copyOpd f g o, rest) := by
  cases o with
  | d | a | b | c | e | f =>
    have hr := uleb_reg (of_decide_eq_true hw) rest
    simp only [getOpd, putOpd, hr]
    rfl
  | s1 | s2 =>
    have hr := uleb_seg (of_decide_eq_true hw) rest
    simp only [getOpd, putOpd, hr]
    rfl
  | n1 hi | n2 hi =>
    have hr := uleb_num (of_decide_eq_true ho) (of_decide_eq_true hw) rest
    simp only [getOpd, putOpd, hr]
    rfl
  | y1 | y2 =>
    have hr := fixedBytes_leBytes (n := 1) (of_decide_eq_true hw) rest
    simp only [getOpd, putOpd, hr]
    rfl
  | h =>
    have hr := fixedBytes_leBytes (n := 2) (of_decide_eq_true hw) rest
    simp only [getOpd, putOpd, hr]
    rfl
  | disp =>
    simp only [wfOpd, Bool.and_eq_true, decide_eq_true_eq] at hw
    have hr := sleb_slebEnc (by omega) (by omega) hw rest
    simp only [getOpd, putOpd, hr]
    rfl
  | imm =>
    simp only [wfOpd, ← hm] at hw
    simp only [getOpd, putOpd, ← hm]
    split_ifs at hw ⊢ with h4 h2
    · obtain ⟨h0, hx⟩ : 0 ≤ f.i ∧ f.i < 2 ^ (8 * 4) := by simpa using hw
      obtain ⟨hr, hi⟩ := fixedBytes_imm h0 hx rest
      simp only [hr, Except.map, hi, copyOpd]
    · obtain ⟨h0, hx⟩ : 0 ≤ f.i ∧ f.i < 2 ^ (8 * 2) := by simpa using hw
      obtain ⟨hr, hi⟩ := fixedBytes_imm h0 hx rest
      simp only [hr, Except.map, hi, copyOpd]
    · simp only [Bool.and_eq_true, decide_eq_true_eq] at hw
      obtain ⟨hlo, hhi⟩ := immRange_bounds op (g.m1.toNat % 16)
      simp only [sleb_slebEnc (hlo.trans hw.1) (lt_of_le_of_lt hw.2 hhi) hw rest, Except.map, copyOpd]

theorem foldl_copyOpd_m1 (f : BIns) (os : List Opd) (g : BIns) : (os.foldl (copyOpd f) g).m1 = g.m1 := by
  induction os generalizing g with
  | nil => rfl
  | cons o os ih => rw [List.foldl_cons, ih, copyOpd_m1]

/-- Operands in range are read back into their fields. -/
theorem getOpds_putOpds {op : Nat} {os : List Opd} {f g : BIns} (hw : os.all (wfOpd op f) = true) (ho : os.all opdFits = true) (hm : g.m1 = f.m1)
    (rest : List Byte) : getOpds op os g ((os.flatMap fun o => putOpd op o f) ++ rest) = .ok (os.foldl (copyOpd f) g, rest) := by
  induction os generalizing g with
  | nil => rfl
  | cons o os ih =>
    obtain ⟨hwo, hw⟩ := Bool.and_eq_true_iff.mp hw
    obtain ⟨hoo, ho⟩ := Bool.and_eq_true_iff.mp ho
    rw [List.flatMap_cons, List.append_assoc, getOpds, getOpd_putOpd hwo hoo hm]
    exact ih hw ho ((copyOpd_m1 f g o).trans hm)

/-- `k` has the fields of `j` but for those that the operands `os` give. -/
structure AgreesOff (os : List Opd) (j k : BIns) : Prop where
  guard : k.guard = j.guard
  immPage : k.immPage = j.immPage
  m1 : k.m1 = j.m1
  m2 : k.m2 = j.m2
  d : os.contains .d || j.d == k.d
  a : os.contains .a || j.a == k.a
  b : os.contains .b || j.b == k.b
  c : os.contains .c || j.c == k.c
  e : os.contains .e || j.e == k.e
  f : os.contains .f || j.f == k.f
  i : os.contains .disp || os.contains .imm || j.i == k.i
  n1 : os.any (fun o => match o with | .s1 | .y1 | .n1 _ | .h => true | _ => false) || j.n1 == k.n1
  n2 : os.any (fun o => match o with | .s2 | .y2 | .n2 _ => true | _ => false) || j.n2 == k.n2

theorem or_beq_self {α : Type} [DecidableEq α] (b : Bool) (x : α) : (b || x == x) = true := by simp

/-- Reading an operand settles its field and leaves the others. -/
theorem AgreesOff.copy {o : Opd} {os : List Opd} {f g : BIns} (h : AgreesOff (o :: os) f g) : AgreesOff os f (copyOpd f g o) := by
  obtain ⟨hg, hp, h1, h2, hd, ha, hb, hc, he, hf, hi, hn1, hn2⟩ := h
  cases o with
  | d => exact ⟨hg, hp, h1, h2, or_beq_self .., ha, hb, hc, he, hf, hi, hn1, hn2⟩
  | a => exact ⟨hg, hp, h1, h2, hd, or_beq_self .., hb, hc, he, hf, hi, hn1, hn2⟩
  | b => exact ⟨hg, hp, h1, h2, hd, ha, or_beq_self .., hc, he, hf, hi, hn1, hn2⟩
  | c => exact ⟨hg, hp, h1, h2, hd, ha, hb, or_beq_self .., he, hf, hi, hn1, hn2⟩
  | e => exact ⟨hg, hp, h1, h2, hd, ha, hb, hc, or_beq_self .., hf, hi, hn1, hn2⟩
  | f => exact ⟨hg, hp, h1, h2, hd, ha, hb, hc, he, or_beq_self .., hi, hn1, hn2⟩
  | disp | imm => exact ⟨hg, hp, h1, h2, hd, ha, hb, hc, he, hf, or_beq_self .., hn1, hn2⟩
  | s1 | y1 | n1 _ | h => exact ⟨hg, hp, h1, h2, hd, ha, hb, hc, he, hf, hi, or_beq_self .., hn2⟩
  | s2 | y2 | n2 _ => exact ⟨hg, hp, h1, h2, hd, ha, hb, hc, he, hf, hi, hn1, or_beq_self ..⟩

theorem AgreesOff.eq_of_nil {f g : BIns} (h : AgreesOff [] f g) : g = f := by
  obtain ⟨hg, hi, h1, h2, hd, ha, hb, hc, he, hf, hii, hn1, hn2⟩ := h
  cases f
  cases g
  simp_all

/-- The operands of an opcode give every field that they do not find right already. -/
theorem AgreesOff.foldl_copyOpd {os : List Opd} {f g : BIns} (h : AgreesOff os f g) : os.foldl (copyOpd f) g = f := by
  induction os generalizing g with
  | nil => exact h.eq_of_nil
  | cons o os ih => exact ih h.copy

/-! ## The instruction (02 R19, R22 to R26) -/

theorem bMap_eq_none {op : Nat} (h : 0xE1 < op) : bMap op = none := by
  unfold bMap
  repeat rw [if_neg (by omega)]

/-- Version 3.0 has every assigned opcode. -/
theorem bMap_version_le (op : Nat) : (bMap op).all (fun x => decide (x.2 ≤ 30)) = true := by
  unfold bMap
  repeat' refine iteInduction (motive := fun x : Option (MCls × Nat) => x.all (fun x => decide (x.2 ≤ 30)) = true) (fun _ => ?_) (fun _ => ?_)
  all_goals rfl

theorem opds_fit (op m : Nat) (imm : Bool) : (opds op imm m).all opdFits = true := by
  unfold opds
  repeat' refine iteInduction (motive := fun os : List Opd => os.all opdFits = true) (fun _ => ?_) (fun _ => ?_)
  all_goals rfl
/-- Assigned opcodes lie below the prefixes, and version 3.0 has them all. -/
theorem bMap_bounds {op v : Nat} {cls : MCls} (h : bMap op = some (cls, v)) : op ≤ 0xE1 ∧ v ≤ 30 := by
  constructor
  · by_contra hgt
    rw [bMap_eq_none (by omega)] at h
    cases h
  · simpa [h] using bMap_version_le op

theorem mBytes_le (cls : MCls) : mBytes cls ≤ 2 := by cases cls <;> decide

/-- Nothing is masked in a kernel of version 3.0 with every feature. -/
theorem bMasked_zero (op : Nat) (f : BIns) : bMasked 0 30 op f = false := by simp [bMasked, bitOf]

theorem log6Early_of_30 (op : Nat) (f : BIns) : log6Early 30 op f = false := by simp [log6Early]

/-- The guard bytes that stand before an instruction. -/
def guardBytes : Option Nat → List Byte
  | some g => 0xEF :: ulebEnc 4 g
  | none => []

/-- The modifier bytes of an instruction. -/
def modBytes (cls : MCls) (f : BIns) : List Byte := (if 1 ≤ mBytes cls then [f.m1] else []) ++ (if 2 ≤ mBytes cls then [f.m2] else [])

/-- The operand bytes of an instruction. -/
def opdBytes (op : Nat) (f : BIns) : List Byte := (opds op f.immPage f.m1.toNat).flatMap fun o => putOpd op o f

theorem encodeBIns_eq {op v : Nat} {cls : MCls} (f : BIns) (h : bMap op = some (cls, v)) :
    encodeBIns op f = guardBytes f.guard ++ ((if f.immPage then [0xF0] else []) ++ BitVec.ofNat 8 op :: (modBytes cls f ++ opdBytes op f)) := by
  simp only [encodeBIns, h, List.append_assoc, List.singleton_append]
  cases f.guard <;> rfl

theorem getGuard_guardBytes {g : Option Nat} (hg : ∀ n, g = some n → n ≤ 4194303) {b : Byte} (hb : b ≠ 0xEF) (r : List Byte) :
    getGuard (guardBytes g ++ b :: r) = .ok (g, b :: r) := by
  cases g with
  | none => exact if_neg hb
  | some n =>
    have hr : uleb 4 4194303 (ulebEnc 4 n ++ b :: r) = .ok (n, b :: r) := uleb_ulebEnc (n := 3) (by have := hg n rfl; omega) (hg n rfl) _
    simp only [guardBytes, List.cons_append, getGuard, if_true, hr, List.head?_cons, Option.some.injEq, if_neg hb]

/-- The fields that stand before the operands. -/
abbrev prefixFields (f : BIns) : BIns := { guard := f.guard, immPage := f.immPage, m1 := f.m1, m2 := f.m2 }

theorem agreesOff_prefix {os : List Opd} {f : BIns} (h : wfUnused os f = true) : AgreesOff os f (prefixFields f) := by
  simp only [wfUnused, Bool.and_eq_true] at h
  obtain ⟨⟨⟨⟨⟨⟨⟨⟨hd, ha⟩, hb⟩, hc⟩, he⟩, hf⟩, hi⟩, hn1⟩, hn2⟩ := h
  exact ⟨rfl, rfl, rfl, rfl, hd, ha, hb, hc, he, hf, hi, hn1, hn2⟩

/-- The modifier bytes as `decBody` reads them. -/
theorem read_modBytes {cls : MCls} {f : BIns} (h1 : (decide (1 ≤ mBytes cls) || f.m1 == 0) = true) (h2 : (decide (2 ≤ mBytes cls) || f.m2 == 0) = true)
    (r : List Byte) : (modBytes cls f).length = mBytes cls ∧ (if 1 ≤ mBytes cls then (modBytes cls f ++ r).headD 0 else 0) = f.m1 ∧
      (if 2 ≤ mBytes cls then ((modBytes cls f ++ r).drop 1).headD 0 else 0) = f.m2 := by
  have hle := mBytes_le cls
  interval_cases hm : mBytes cls <;> simp_all [modBytes]

/-- What follows the opcode byte is read back. -/
theorem decBody_enc {i : Instr} {op v : Nat} {cls : MCls} {f : BIns} (hmap : bMap op = some (cls, v)) (hw : wfBur op f = true) (hi : mkBur op f = some i)
    (rest : List Byte) : decBody 0 30 f.guard f.immPage op (modBytes cls f ++ (opdBytes op f ++ rest)) = .ok (i, rest) := by
  simp only [wfBur, hmap, Bool.and_eq_true] at hw
  obtain ⟨⟨⟨⟨⟨⟨⟨⟨himm, hm1⟩, hm2⟩, hguard⟩, hops⟩, hun⟩, hlim⟩, hcsr⟩, -⟩ := hw
  obtain ⟨hlen, hr1, hr2⟩ := read_modBytes hm1 hm2 (opdBytes op f ++ rest)
  obtain ⟨-, hver⟩ := bMap_bounds hmap
  have hassigned : ¬(30 < v ∨ f.immPage = true ∧ immOk op = false) := by
    simp only [Bool.or_eq_true, Bool.not_eq_true'] at himm
    rintro (h | ⟨h, h'⟩)
    · omega
    · simp_all
  have hlong : ¬(modBytes cls f ++ (opdBytes op f ++ rest)).length < mBytes cls := by simp [hlen]
  have hread : getOpds op (opds op f.immPage f.m1.toNat) (prefixFields f) (opdBytes op f ++ rest) = .ok (f, rest) := by
    rw [opdBytes, getOpds_putOpds (g := prefixFields f) hops (opds_fit ..) rfl, (agreesOff_prefix hun).foldl_copyOpd]
  have hg : f.guard = none ∨ noGuard op = false := by
    cases hf : f.guard with
    | none => exact .inl rfl
    | some g => simp_all
  simp only [decBody, hmap, if_neg hassigned, if_neg hlong, hr1, hr2, bMasked_zero, Bool.false_eq_true, if_false, List.drop_left' hlen, hread, hlim, hcsr,
    log6Early_of_30, hg, and_self, if_true, hi]

theorem opcode_toNat {op : Nat} (hop : op ≤ 0xE1) : (BitVec.ofNat 8 op).toNat = op := by rw [BitVec.toNat_ofNat]; omega

/-- An assigned opcode's byte is neither a guard's nor the page's. -/
theorem opcode_ne {op : Nat} (hop : op ≤ 0xE1) {x : Byte} (hx : 0xE1 < x.toNat) : BitVec.ofNat 8 op ≠ x := fun h => by
  rw [← h, opcode_toNat hop] at hx; omega

/-- An opcode byte, under its guard and behind the immediate page's byte or not, hands over to what follows it. -/
theorem decodeBurhus_of_body {bs tail rest : List Byte} {g : Option Nat} {imm : Bool} {op : Nat} {i : Instr} (hop : op ≤ 0xE1)
    (hg : getGuard bs = .ok (g, (if imm then [0xF0] else []) ++ BitVec.ofNat 8 op :: tail)) (hbody : decBody 0 30 g imm op tail = .ok (i, rest))
    (hlen : bs.length - rest.length ≤ 32) : decodeBurhus 0 30 bs = .ok (i, rest) := by
  cases imm with
  | true => simp [decodeBurhus, hg, opcode_toNat hop, hbody, hlen]
  | false =>
    have hF0 : BitVec.ofNat 8 op ≠ 240#8 := opcode_ne hop (by decide)
    have hFE : BitVec.ofNat 8 op ≠ 254#8 := opcode_ne hop (by decide)
    have hEF : BitVec.ofNat 8 op ≠ 239#8 := opcode_ne hop (by decide)
    simp [decodeBurhus, hg, opcode_toNat hop, hbody, hlen, hF0, hFE, hEF]

/-- The guard is read back, and what follows it is left. -/
theorem getGuard_encodeBIns {op v : Nat} {cls : MCls} {f : BIns} (hmap : bMap op = some (cls, v)) (hg : ∀ n, f.guard = some n → n ≤ 4194303)
    (rest : List Byte) : getGuard (encodeBIns op f ++ rest) =
      .ok (f.guard, (if f.immPage then [0xF0] else []) ++ BitVec.ofNat 8 op :: (modBytes cls f ++ (opdBytes op f ++ rest))) := by
  rw [encodeBIns_eq f hmap]
  cases f.immPage with
  | true => simpa using getGuard_guardBytes hg (b := 0xF0) (by decide) (BitVec.ofNat 8 op :: (modBytes cls f ++ (opdBytes op f ++ rest)))
  | false => simpa using getGuard_guardBytes hg (opcode_ne (bMap_bounds hmap).1 (by decide)) (modBytes cls f ++ (opdBytes op f ++ rest))

/-- Burhus bytes decode to the instruction that they were written for, whatever follows them. -/
theorem decodeBurhus_encodeBIns {i : Instr} {f : BIns} (h : formOf i = some (.bur f)) (hw : wellFormed i = true) (rest : List Byte) :
    decodeBurhus 0 30 (encodeBIns (opcOf i) f ++ rest) = .ok (i, rest) := by
  simp only [wellFormed, h, Bool.and_eq_true, decide_eq_true_eq] at hw
  obtain ⟨hw, hi⟩ := hw
  cases hmap : bMap (opcOf i) with
  | none => simp [wfBur, hmap] at hw
  | some x =>
    have hbody := decBody_enc hmap hw hi rest
    simp only [wfBur, hmap, Bool.and_eq_true, decide_eq_true_eq] at hw
    obtain ⟨⟨⟨⟨⟨⟨-, hguard⟩, -⟩, -⟩, -⟩, -⟩, hlen⟩ := hw
    have hg : ∀ n, f.guard = some n → n ≤ 4194303 := fun n hn => by simp only [hn, Bool.and_eq_true, decide_eq_true_eq] at hguard; exact hguard.1
    exact decodeBurhus_of_body (bMap_bounds hmap).1 (getGuard_encodeBIns hmap hg rest) hbody (by simpa using hlen)

/-! ## Owner messages (20 R398) -/

theorem words64_flatMap (w : List W64) : words64 w.length (w.flatMap fun x => leBytes 8 x.toNat) = w := by
  induction w with
  | nil => rfl
  | cons x w ih =>
    have hlen := leBytes_length 8 x.toNat
    rw [List.flatMap_cons, List.length_cons, words64, List.take_left' hlen, List.drop_left' hlen, ih]
    exact congrArg (· :: w) (ofNat_leNat_leBytes 8 x)

theorem length_flatMap_leBytes (w : List W64) : (w.flatMap fun x => leBytes 8 x.toNat).length = 8 * w.length := by
  induction w with
  | nil => rfl
  | cons x w ih => rw [List.flatMap_cons, List.length_append, leBytes_length, ih, List.length_cons]; omega

/-- A message's header and operand words are read back. -/
theorem decodeMsg_encodeMsg {c : Nat} {h : CmdHdr} {w : List W64} (hc : c < 2 ^ 16) (hw : wfCmd w = true) :
    decodeMsg h.from_ (encodeMsg c h w) = some (c, h, some w) := by
  have hlen : w.length ≤ 4094 := of_decide_eq_true hw
  have htag := h.tag.isLt
  have hhead := leBytes_length 16 (c + h.tag.toNat * 2 ^ 16 + 8 * w.length * 2 ^ 32)
  have hnat : leNat ((encodeMsg c h w).take 16) = c + h.tag.toNat * 2 ^ 16 + 8 * w.length * 2 ^ 32 := by
    rw [encodeMsg, List.take_left' hhead, leNat_leBytes]; omega
  have hbytes : (encodeMsg c h w).length = 16 + 8 * w.length := by rw [encodeMsg, List.length_append, hhead, length_flatMap_leBytes]
  have hf : fld 15 0 (leNat ((encodeMsg c h w).take 16)) = c ∧ fld 31 16 (leNat ((encodeMsg c h w).take 16)) = h.tag.toNat ∧
      fld 63 32 (leNat ((encodeMsg c h w).take 16)) = 8 * w.length ∧ fld 127 96 (leNat ((encodeMsg c h w).take 16)) = 0 := by
    simp only [hnat, fld_eq_div]; omega
  have hwords : words64 w.length ((encodeMsg c h w).drop 16) = w := by rw [encodeMsg, List.drop_left' hhead, words64_flatMap]
  have hlong : ¬16 + 8 * w.length < 16 := by omega
  have hfits : 8 * w.length % 8 = 0 ∧ 8 * w.length ≤ 32752 ∧ 16 + 8 * w.length ≤ 16 + 8 * w.length := by omega
  simp only [decodeMsg, hf, hbytes, if_neg hlong, hfits, and_self, if_true, show 8 * w.length / 8 = w.length by omega, hwords, BitVec.ofNat_toNat,
    BitVec.setWidth_eq]

/-- Every command has one code, and is well formed when its operands fit a message. -/
theorem cmdOf_some {i : Instr} {c : Nat} {h : CmdHdr} {w : List W64} (hc : Sys2Proof.cmdOf i = some (c, h, w)) :
    mkCmd c h w = some i ∧ c < 2 ^ 16 ∧ wellFormed i = wfCmd w := by
  cases i <;> cases hc <;> exact ⟨rfl, by decide, rfl⟩

/-- Settles O57: each kind of word read back, and the kinds of words that an instruction can have. -/
theorem encodingsRoundTrip : Obligations.EncodingsRoundTrip := by
  refine ⟨fun i f rest h hw => decodeBurhus_encodeBIns h hw rest, fun i f h hw => decS_encS h hw, fun i f h hw => decV_encV h hw,
    fun i f h hw => decL_encL h hw, fun i hw => ⟨fun w x h => ?_, fun w h => ?_, fun w h => decX_of_encode h, fun w h => decY_of_encode h⟩,
    fun i c h w hc hw => ?_⟩
  · obtain ⟨op, f, hlo, hhi, rfl, rfl, hb, rfl⟩ := encode_eq_bSlot h hw
    exact decB_encB hlo hhi hb
  · obtain ⟨op, f, hlo, hhi, rfl, hm, rfl⟩ := encode_eq_mSlot h hw
    exact decM_encM hlo hhi hm
  · obtain ⟨hmk, hlt, hwf⟩ := cmdOf_some hc
    exact ⟨decodeMsg_encodeMsg hlt (hwf ▸ hw), hmk⟩

end Sys2Proof.Machine
end

section
/-!
PROOFS. The passing of a lift cycle moves the time by one and nothing else of it: the rings (05 R112), the engines (06 R124, R130), the tile fetch units
(10 R205), and the kills of a full log and of a failed link leave it alone (11 R230; 13 R270).
-/
namespace Sys2Proof.Machine

/-! ## The rings -/

@[simp] theorem addRider_kept (goal : Option Instr) (part core tag wait : Nat) (ls : List Leg) (s : State) :
    (addRider goal part core tag wait ls s).kept = s.kept := by simp [addRider]

@[simp] theorem sendReq_kept (k : Nat) (s : State) : (sendReq k s).kept = s.kept := by
  unfold sendReq
  split
  · rfl
  · split
    · rfl
    · dsimp only
      rw [foldS_view State.kept (by simp), kept_modPkg _ _ (by simp), kept_modCtxCrew]

@[simp] theorem loadAt_kept (x : Nat × Nat × Nat) (s : State) : (loadAt x s).kept = s.kept := by
  obtain ⟨die, table, station⟩ := x
  unfold loadAt
  dsimp only
  split
  · rfl
  · split
    · rfl
    · split
      · rfl
      · simp

@[simp] theorem rideStep_kept (s : State) : (rideStep s).kept = s.kept := by
  unfold rideStep
  extract_lets s₁ s₂ ends evs s₃ s₄
  have h₁ : s₁.kept = s.kept := foldS_view State.kept (by simp) s
  split
  · exact h₁
  · unfold s₄ s₃ s₂
    rw [foldS_view State.kept (by simp), foldS_view State.kept (by simp), kept_modPkg _ _ (by simp), kept_modPkg _ _ (by simp), h₁]

/-! ## The tile fetch units -/

/-- A step that may have to wait leaves the view alone where it does not. -/
def SomeKept (s : State) (x : Option State) : Prop := ∀ t, x = some t → t.kept = s.kept

theorem pinLine_kept (k : Nat) (z : Bool) (tag la : Nat) (s : State) : SomeKept s (pinLine k z tag la s) := by
  rintro t h
  unfold pinLine at h
  split at h
  · cases h; rfl
  · dsimp only at h
    split_ifs at h
    · cases h; rfl
    · cases h; rfl
    · split at h
      · cases h; exact homeLine_kept ..
      · cases h
        rw [kept_modGroup, kept_modPkg _ _ (by simp), homeLine_kept]

theorem askLine_kept (k : Nat) (m : Macro) (tag : Nat) (u : Nat × Nat × Nat) (s : State) : SomeKept s (askLine k m tag u s) := by
  rintro t h
  unfold askLine at h
  split at h
  · cases h; rfl
  · dsimp only at h
    split_ifs at h
    · split at h
      · cases h; simp
      · cases h; rfl
    · split at h
      · next e => cases h; exact kept_of_pair e (translate_kept ..)
      · next s₁ p e =>
        have h₁ : s₁.kept = s.kept := kept_of_pair e (translate_kept ..)
        split_ifs at h
        · cases h; exact h₁
        · obtain ⟨s₂, h₂, rfl⟩ := Option.map_eq_some_iff.mp h
          rw [addRider_kept, pinLine_kept _ _ _ _ _ _ h₂, h₁]

theorem SomeKept.foldl {α : Type} {f : α → State → Option State} (hf : ∀ a s, SomeKept s (f a s)) {s : State} {x : Option State} (hx : SomeKept s x)
    (l : List α) : SomeKept s (l.foldl (fun x a => x.bind (f a)) x) := by
  induction l generalizing x with
  | nil => exact hx
  | cons a l ih =>
    refine ih fun t ht => ?_
    obtain ⟨u, hu, ht⟩ := Option.bind_eq_some_iff.mp ht
    exact (hf a u t ht).trans (hx u hu)

@[simp] theorem tileFetch_kept (k : Nat) (s : State) : (tileFetch k s).kept = s.kept := by
  unfold tileFetch
  split
  · split
    · unfold askStep
      extract_lets w n seen
      split
      · rfl
      · split
        · rfl
        · next t h => rw [kept_modGroup, SomeKept.foldl (askLine_kept k _ _) (fun t ht => by cases ht; rfl) _ t h]
    · rfl
  · rfl

/-! ## The engines -/

@[simp] theorem engLine_kept (la : Nat) (s : State) : (engLine la s).1.kept = s.kept := by
  unfold engLine
  extract_lets s₁
  have h₁ : s₁.kept = s.kept := mergeBank_kept ..
  split
  · exact (homeLine_kept ..).trans h₁
  · split
    · next h => simpa using (kept_of_pair h (fetchMeta_kept ..)).trans h₁
    · next s₂ h =>
      have h₂ : s₂.kept = s.kept := (kept_of_pair h (fetchMeta_kept ..)).trans h₁
      split
      · exact h₂
      · simpa using h₂

@[simp] theorem endPlace_kept (c : EngCmd) (x : Nat) (o : Int) (n : Nat) (acc : Acc) (s : State) : (endPlace c x o n acc s).1.kept = s.kept := by
  unfold endPlace
  split
  · extract_lets a
    split
    · split <;> rfl
    · rfl
  · split
    · extract_lets a
      split
      · split <;> rfl
      · rfl
    · extract_lets va
      split
      · next h => exact kept_of_pair h (translate_kept ..)
      · next h => exact kept_of_pair h (translate_kept ..)

@[simp] theorem placeRead_kept (c : EngCmd) (p : EndPlace) (n : Nat) (s : State) : (placeRead c p n s).1.kept = s.kept := by
  unfold placeRead
  split
  · split
    · split
      · next h => exact kept_of_pair h (engLine_kept ..)
      · next h => exact kept_of_pair h (engLine_kept ..)
    · exact linkEvery_kept ..
  · rfl
  · rfl
  · rfl

@[simp] theorem lineRead_kept (c : EngCmd) (buf : Option (Int × List Byte)) (x : Nat) (o : Int) (n : Nat) (s : State) :
    (lineRead c buf x o n s).1.kept = s.kept := by
  unfold lineRead
  extract_lets k
  split
  · next h => exact kept_of_pair h (endPlace_kept ..)
  · next s₁ p h =>
    have h₁ : s₁.kept = s.kept := kept_of_pair h (endPlace_kept ..)
    split
    · exact h₁
    · split
      · next h => exact (kept_of_pair h (placeRead_kept ..)).trans h₁
      · next h => exact (kept_of_pair h (placeRead_kept ..)).trans h₁

@[simp] theorem rideData_kept (tag n : Nat) (c : EngCmd) (wait : Nat) (ls : List Leg) (s : State) : (rideData tag n c wait ls s).kept = s.kept := by
  unfold rideData addData
  split
  · rfl
  · split
    · rfl
    · simp

@[simp] theorem idxRead_kept (tag : Nat) (c : EngCmd) (o : Int) (n : Nat) (s : State) : (idxRead tag c o n s).1.kept = s.kept := by
  unfold idxRead
  split
  · next h => exact kept_of_pair h (lineRead_kept ..)
  · next s₁ b p bs h =>
    have h₁ : s₁.kept = s.kept := kept_of_pair h (lineRead_kept ..)
    dsimp only
    split
    · exact h₁
    · exact (rideData_kept ..).trans h₁

@[simp] theorem withIdx_kept (tag : Nat) (c : EngCmd) (i : Nat) (s : State) : (withIdx tag c i s).1.kept = s.kept := by
  unfold withIdx
  extract_lets j o n
  split
  · rfl
  · split
    · next h => exact kept_of_pair h (idxRead_kept ..)
    · next s₁ c₁ bs h =>
      have h₁ : s₁.kept = s.kept := kept_of_pair h (idxRead_kept ..)
      split
      · exact h₁
      · split
        · next h => exact (kept_of_pair h (idxRead_kept ..)).trans h₁
        · next h => exact (kept_of_pair h (idxRead_kept ..)).trans h₁

@[simp] theorem overlapped_kept (old new : List Byte) (s : State) : (overlapped old new s).1.kept = s.kept := by
  unfold overlapped
  split <;> rfl

@[simp] theorem srcRead_kept (tag : Nat) (c : EngCmd) (os : Int) (n : Nat) (q : EndPlace) (s : State) : (srcRead tag c os n q s).1.kept = s.kept := by
  unfold srcRead
  split
  · next h => exact kept_of_pair h (lineRead_kept ..)
  · next s₁ b p new h =>
    have h₁ : s₁.kept = s.kept := kept_of_pair h (lineRead_kept ..)
    split
    next s₂ bs h₂ =>
      exact (rideData_kept ..).trans ((kept_of_pair h₂ (overlapped_kept ..)).trans h₁)

@[simp] theorem appendHeld_kept (a : Nat) (r : HeldRec) (s : State) : (appendHeld a r s).kept = s.kept := by
  unfold appendHeld
  extract_lets hold
  split
  · simp [hold]
  · split <;> simp [hold]

@[simp] theorem markFor_kept (c : EngCmd) (p : EndPlace) (s : State) : (markFor c p s).1.kept = s.kept := by
  have hmark : (placeMark c s).1.kept = s.kept := by
    unfold placeMark horizon
    split
    · rfl
    · split
      · simp
      · dsimp only
        split
        · rfl
        · simp
  unfold markFor
  split
  · split
    · rfl
    · exact hmark
  · rfl

@[simp] theorem physWrite_kept (w : Writer) (pa : Nat) (bs : List Byte) (s : State) : (physWrite w pa bs s).1.kept = s.kept := by
  unfold physWrite
  split
  · refine foldl_fst_kept _ (fun acc p => ?_) _
    split
    next h => exact kept_of_pair h (homeWrite_kept ..)
  · simp

/-- A command that writes to a group which is saved with its launch changes that launch. -/
@[simp] theorem modFindGroup_plain (launch cluster core : Nat) (f : Group → Group) (s : State) : (modFindGroup launch cluster core f s).plain = s.plain := by
  unfold modFindGroup modFindGroup.saved
  split
  · split
    · exact plain_of_kept (kept_setGroup ..)
    · simp
  · simp

@[simp] theorem placeWrite_plain (c : EngCmd) (p : EndPlace) (bs : List Byte) (s : State) : (placeWrite c p bs s).1.plain = s.plain := by
  unfold placeWrite
  split
  · split
    · rfl
    · split
      · next h => exact plain_of_kept (kept_of_pair h (physWrite_kept ..))
      · next h => exact plain_of_kept (kept_of_pair h (physWrite_kept ..))
  · simp
  · rfl
  · simp

theorem plain_of_pair {α : Type} {p : State × α} {t : State} {a : α} {v : PlainView} (e : p = (t, a)) (h : p.1.plain = v) : t.plain = v := by
  rw [e] at h
  exact h

@[simp] theorem moveOne_plain (tag : Nat) (c : EngCmd) (od os : Int) (m : Nat) (s : State) : (moveOne tag c od os m s).1.plain = s.plain := by
  unfold moveOne
  split
  · next h => exact plain_of_kept (kept_of_pair h (endPlace_kept ..))
  · next s₁ p h =>
    have h₁ : s₁.kept = s.kept := kept_of_pair h (endPlace_kept ..)
    split
    · next h => exact plain_of_kept ((kept_of_pair h (endPlace_kept ..)).trans h₁)
    · next s₂ q h =>
      have h₂ : s₂.kept = s.kept := (kept_of_pair h (endPlace_kept ..)).trans h₁
      extract_lets n
      split
      · next h => exact plain_of_kept ((kept_of_pair h (markFor_kept ..)).trans h₂)
      · next s₃ c₃ h =>
        have h₃ : s₃.kept = s.kept := (kept_of_pair h (markFor_kept ..)).trans h₂
        split
        · next h => exact plain_of_kept ((kept_of_pair h (srcRead_kept ..)).trans h₃)
        · next s₄ c₄ bs h =>
          have h₄ : s₄.kept = s.kept := (kept_of_pair h (srcRead_kept ..)).trans h₃
          have hrest : (if n = m then ((s₄, .ok (c₄, [])) : State × Except Trap (EngCmd × List Byte))
              else srcRead tag c₄ (os + (n : Int)) (m - n) q s₄).1.kept = s.kept := by
            split
            · exact h₄
            · exact (srcRead_kept ..).trans h₄
          split
          · next h => exact plain_of_kept (kept_of_pair h hrest)
          · next s₅ c₅ bs' h =>
            have h₅ : s₅.plain = s.plain := plain_of_kept (kept_of_pair h hrest)
            extract_lets c₆
            split
            · next h => exact (plain_of_pair h (placeWrite_plain ..)).trans h₅
            · next h => exact (plain_of_pair h (placeWrite_plain ..)).trans h₅

@[simp] theorem moveBytes_plain (tag fuel : Nat) : ∀ n c s, (moveBytes tag fuel n c s).1.plain = s.plain := by
  induction fuel with
  | zero => exact fun _ _ _ => rfl
  | succ fuel ih =>
    intro n c s
    unfold moveBytes
    split
    · rfl
    · split
      · rfl
      · split
        · next h => exact plain_of_kept (kept_of_pair h (withIdx_kept ..))
        · next s₁ c₁ h =>
          have h₁ : s₁.plain = s.plain := plain_of_kept (kept_of_pair h (withIdx_kept ..))
          split
          next od os k hp =>
            extract_lets left
            split
            · exact h₁
            · split
              · next h => exact (plain_of_pair h (moveOne_plain ..)).trans h₁
              · next h => exact (plain_of_pair h (moveOne_plain ..)).trans h₁
              · next h => exact (ih ..).trans ((plain_of_pair h (moveOne_plain ..)).trans h₁)

@[simp] theorem moveRun_plain (i : Nat) (r : EngRun) (s : State) : (moveRun i r s).plain = s.plain := by
  unfold moveRun
  extract_lets die cls
  split
  · rfl
  · split
    · split <;> rfl
    · split
      · rfl
      · split
        next s₁ c₁ f h =>
          extract_lets s₂ s₃
          have h₃ : s₃.plain = s.plain := by
            rw [← plain_of_pair h (moveBytes_plain ..)]
            rfl
          split <;> exact h₃

@[simp] theorem moveEngines_plain (s : State) : (moveEngines s).plain = s.plain := foldS_view State.plain (by simp) s

/-! ## Kills -/

/-- The end of a launch leaves the time, the banks, the frames and the error records alone. -/
@[simp] theorem endLaunch_plain (st : Nat × Nat × Nat × Nat) (n : Nat) (s : State) : (endLaunch st n s).plain = s.plain := by
  unfold endLaunch
  extract_lets l s₁ s₂
  split
  · rfl
  · split
    · split
      · rw [boundRun_plain]
        exact plain_of_kept (dropCmds_kept ..)
      · rfl
    · have h₁ : s₁.kept = s.kept := foldS_view State.kept (by simp) s
      have h₂ : s₂.kept = s.kept := by
        unfold s₂
        rw [foldS_view State.kept, h₁]
        exact fun x _ t => foldS_view State.kept (fun g _ t => foldS_view State.kept (fun c _ t => foldS_view State.kept (by simp) t) t) t
      rw [callPlacement_plain, boundRun_plain, plain_modLaunch]
      exact plain_of_kept ((dropCmds_kept ..).trans h₂)

@[simp] theorem killLaunch_plain (kind : Trap) (cause info n : Nat) (s : State) : (killLaunch kind cause info n s).plain = s.plain := endLaunch_plain ..

@[simp] theorem serveLinkFails_plain (s : State) : (serveLinkFails s).plain = s.plain := foldS_view State.plain (by simp) _

@[simp] theorem serveLogTraps_plain (s : State) : (serveLogTraps s).plain = s.plain := by
  refine foldS_view State.plain (fun a _ s => ?_) s
  have h : ∀ ns, (foldS ns (killLaunch .logFull 0 0) s).plain = s.plain := fun _ => foldS_view State.plain (by simp) s
  exact (plain_of_kept (kept_modPkg _ _ (by simp))).trans ((plain_of_kept (kept_modCtx ..)).trans (h _))

/-- A lift cycle passes. -/
theorem passTime_now (s : State) : (passTime s).now = s.now + 1 := by
  have h : (passTime s).plain = ({ s with now := s.now + 1 } : State).plain := by
    unfold passTime
    extract_lets u
    rw [plain_of_kept (foldS_view State.kept (by simp) u)]
    unfold u
    rw [serveLogTraps_plain, serveLinkFails_plain, moveEngines_plain, plain_of_kept (rideStep_kept _)]
  exact congrArg PlainView.now h

end Sys2Proof.Machine
end

section
/-!
PROOFS. A step runs the event that is next, and always answers a next state (01 R13; 15 R316; 16 R329, R333); the issue of a Burhus crew (02 R19, R26).
-/
namespace Sys2Proof.Machine

/-! ## The event that is next -/

/-- Every meaning answers a next state. -/
theorem exec_next (i : Instr) (s : State) : ∃ t, exec i s = .next t := by
  cases i <;> exact ⟨_, rfl⟩

theorem step_next (s : State) : ∃ t, step s = .next t := by
  unfold step
  split
  · exact exec_next ..
  · exact ⟨_, rfl⟩

/-- Nothing of an agenda is due before its first event. -/
theorem takeDue_of_head {now rank : Nat} {l : List (Nat × Instr)} (h : ∀ e, l.head? = some e → now < e.1) : takeDue now rank l = none := by
  cases l with
  | nil => rfl
  | cons e l => exact if_pos (h e rfl)

theorem takeDue_same {now rank t : Nat} {i : Instr} {r : List (Nat × Instr)} (ht : t ≤ now) (hi : lateRank i = rank) :
    takeDue now rank ((t, i) :: r) = some (i, r) := by
  rw [takeDue, if_neg (by omega), if_pos hi]

/-- An event of another rank is passed over. -/
theorem takeDue_other {now rank t : Nat} {i : Instr} {r : List (Nat × Instr)} (hi : lateRank i ≠ rank) (hr : takeDue now rank r = none) :
    takeDue now rank ((t, i) :: r) = none := by
  rw [takeDue, if_neg hi, hr]
  split <;> rfl

theorem lateRank_eq_zero {i : Instr} (h₁ : ∀ n q, i ≠ .launchStart n q) (h₂ : i ≠ .reservationAgeing) : lateRank i = 0 := by
  unfold lateRank
  split
  · exact absurd rfl (h₁ _ _)
  · exact absurd rfl h₂
  · rfl

theorem lateRank_ne_zero {i : Instr} (h : (∃ n q, i = .launchStart n q) ∨ i = .reservationAgeing) : lateRank i ≠ 0 := by
  rcases h with ⟨n, q, rfl⟩ | rfl <;> exact Nat.succ_ne_zero _

theorem step_of_due {s : State} {i : Instr} {r : List (Nat × Instr)} (h : takeDue s.now 0 s.agenda = some (i, r)) :
    step s = exec i { s with agenda := r } := by
  simp only [step, nextEvent, h]

theorem step_of_agent {s : State} {i : Instr} (h₀ : takeDue s.now 0 s.agenda = none) (hc : firstChange s (candidates s) = some i) :
    step s = exec i s := by
  simp only [step, nextEvent, h₀, hc]

theorem step_of_late {s : State} {i : Instr} {r : List (Nat × Instr)} (h₀ : takeDue s.now 0 s.agenda = none)
    (hc : firstChange s (candidates s) = none) (h : ((takeDue s.now 1 s.agenda).orElse fun _ => takeDue s.now 2 s.agenda) = some (i, r)) :
    step s = exec i { s with agenda := r } := by
  simp only [step, nextEvent, h₀, hc, h]

/-- With nothing due and no agent that has something to do, a lift cycle passes. -/
theorem step_of_idle {s : State} (h : ∀ e, s.agenda.head? = some e → s.now < e.1) (hc : firstChange s (candidates s) = none) :
    step s = .next (passTime s) := by
  simp only [step, nextEvent, takeDue_of_head h, hc, Option.orElse_none]

/-- A start or an ageing that is due comes when no agent has something to do. -/
theorem step_of_start {s : State} {t : Nat} {i : Instr} {r : List (Nat × Instr)} (ha : s.agenda = (t, i) :: r) (ht : t ≤ s.now)
    (hi : (∃ n q, i = .launchStart n q) ∨ i = .reservationAgeing) (hr : ∀ e, r.head? = some e → s.now < e.1) :
    (∀ j, firstChange s (candidates s) = some j → step s = exec j s) ∧
    (firstChange s (candidates s) = none → step s = exec i { s with agenda := r }) := by
  have h₀ : takeDue s.now 0 s.agenda = none := by rw [ha, takeDue_other (lateRank_ne_zero hi) (takeDue_of_head hr)]
  refine ⟨fun j hj => step_of_agent h₀ hj, fun hc => step_of_late h₀ hc ?_⟩
  rw [ha]
  rcases hi with ⟨n, q, rfl⟩ | rfl
  · rw [takeDue_same (rank := 1) ht rfl, Option.orElse_some]
  · rw [takeDue_other (rank := 1) (by decide) (takeDue_of_head hr), takeDue_same (rank := 2) ht rfl, Option.orElse_none]

/-! ## The issue of a Burhus crew -/

theorem formOf_mkShared {op sub csr : Nat} {f : Form} {i : Instr} (h : mkShared op sub csr f = some i) : formOf i = some f := by
  unfold mkShared at h
  split at h
  any_goals (cases h; rfl)
  · split at h <;> cases h <;> rfl
  · split_ifs at h <;> cases h <;> rfl
  · cases h

/-- Burhus bytes stand for instructions that have the Burhus form. -/
theorem formOf_mkBur {op : Nat} {f : BIns} {i : Instr} (h : mkBur op f = some i) : formOf i = some (.bur f) := by
  unfold mkBur at h
  split at h
  any_goals (cases h; rfl)
  split_ifs at h
  · cases h; rfl
  · exact formOf_mkShared h

theorem formOf_decBody {fm ver op : Nat} {g : Option Nat} {imm : Bool} {bs rest : List Byte} {i : Instr}
    (h : decBody fm ver g imm op bs = .ok (i, rest)) : ∃ f, formOf i = some (.bur f) := by
  unfold decBody at h
  split at h
  · cases h
  · extract_lets m1 m2 f0 at h
    split_ifs at h
    split at h
    · cases h
    · split_ifs at h
      split at h
      · next hm => cases h; exact ⟨_, formOf_mkBur hm⟩
      · cases h

theorem formOf_decodeBurhus {fm ver : Nat} {bs rest : List Byte} {i : Instr} (h : decodeBurhus fm ver bs = .ok (i, rest)) :
    ∃ f, formOf i = some (.bur f) := by
  unfold decodeBurhus at h
  split at h
  · cases h
  · cases h
  · next g b r _ =>
    extract_lets res at h
    generalize hres : res = x at h
    match x, h with
    | .ok (j, tail), h =>
      obtain rfl : j = i := by
        dsimp only at h
        split_ifs at h
        cases h
        rfl
      unfold res at hres
      split_ifs at hres
      · split at hres
        · cases hres
        · exact formOf_decBody hres
      · exact formOf_decBody hres

theorem formOf_burAt {s : State} {g : Group} {c : Crew} {i : Instr} (h : burAt s g c = .ok i) : ∃ f, formOf i = some (.bur f) := by
  unfold burAt at h
  split at h
  · cases h
  · split at h
    · cases h
    · generalize hd : decodeBurhus _ _ _ = d at h
      match d, h with
      | .ok (j, rest), h => cases h; exact formOf_decodeBurhus hd

/-- An operation that has a form runs in its crew as the step that it is. -/
theorem exec_of_form {i : Instr} {f : Form} (h : formOf i = some f) (s : State) : exec i s = .next (opStep i s) := by
  cases i with
  | trap t | brk t =>
    cases t with
    | bur f => rfl
    | b f => cases h
  | _ => cases h <;> rfl

/-! ### What the counts of an issue leave alone -/

theorem noteSwitch_cores (n : Nat) (s : State) : (noteSwitch n s).cores = s.cores := by
  unfold noteSwitch
  extract_lets p
  split
  · split <;> rfl
  · rfl

theorem markIssued_cores (n : Nat) (s : State) : (markIssued n s).cores = s.cores := by
  unfold markIssued
  extract_lets u
  have h : u.cores = s.cores := noteSwitch_cores ..
  split
  · exact h
  · unfold State.modLaunch
    split <;> exact h

theorem markIssued_focus (n : Nat) (s : State) : (markIssued n s).focus = s.focus := by
  have h : (noteSwitch n s).focus = s.focus := by
    unfold noteSwitch
    extract_lets p
    split
    · split <;> rfl
    · rfl
  unfold markIssued State.modLaunch
  extract_lets u
  split
  · exact h
  · split <;> exact h

/-- A profile counter is the translation's. -/
theorem bumpProf_only (gth tr i : Nat) (s : State) : (bumpProf gth tr i s).cores = s.cores ∧ (bumpProf gth tr i s).focus = s.focus := by
  unfold bumpProf State.modTrans
  split
  · exact ⟨rfl, rfl⟩
  · next t h =>
    rw [h]
    extract_lets n u
    split <;> exact ⟨rfl, rfl⟩

theorem State.crew_congr {s t : State} (h : t.cores = s.cores) (k : Nat) : t.crew k = s.crew k := by
  simp only [State.crew, State.group, State.core, h]

theorem countLoopEnd_only (g : Group) (c : Crew) (s : State) : (countLoopEnd g c s).cores = s.cores ∧ (countLoopEnd g c s).focus = s.focus := by
  unfold countLoopEnd
  split
  · split
    · exact bumpProf_only ..
    · exact ⟨rfl, rfl⟩
  · exact ⟨rfl, rfl⟩

/-- The state in which a Burhus crew's instruction runs: the crew has issued, and issues no more in this cycle. -/
def burIssued (k : Nat) (g : Group) (c : Crew) (s : State) : State :=
  markIssued g.launch ((countLoopEnd g c { s with focus := k }).setGroup k { g with
    lastCrew := some c.ctx, issued := s.cycle, running := some { c with notBefore := s.cycle + 1, last := c.pc } })

theorem burIssued_crew (k : Nat) (g : Group) (c : Crew) (s : State) : (burIssued k g c s).crew k =
    some ({ g with lastCrew := some c.ctx, issued := s.cycle, running := some { c with notBefore := s.cycle + 1, last := c.pc } },
      { c with notBefore := s.cycle + 1, last := c.pc }) := by
  rw [burIssued, State.crew_congr (markIssued_cores ..), State.crew_setGroup_self]
  rfl

theorem burIssued_focus (k : Nat) (g : Group) (c : Crew) (s : State) : (burIssued k g c s).focus = k := by
  rw [burIssued, markIssued_focus, State.setGroup_focus, (countLoopEnd_only ..).2]

/-- A Burhus crew that may issue takes the step at its place. -/
theorem exec_bundleIssue_bur {s : State} {k : Nat} {g : Group} {c : Crew} (h : s.crew k = some (g, c)) (hf : c.fjoset = false)
    (hm : mayIssue s g c = true) (hl : c.region.latched = none) (hb : burMacro g c = false) (hr : riding .load s k = false)
    (hbuf : c.region.buf.length < 256) : exec (.bundleIssue k) s = .next (burStep k (burIssued k g c s)) := by
  obtain ⟨hg, hc⟩ := State.crew_eq_some.mp h
  let s₁ : State := { s with focus := k }
  have h₁ : s₁.crew k = some (g, c) := h
  have hstop : (!mayIssue s₁ g c || c.region.latched.isSome || burMacro g c || riding .load s₁ k) = false := by
    rw [show mayIssue s₁ g c = true from hm, hl, hb, show riding .load s₁ k = false from hr]
    rfl
  have hgroup : (countLoopEnd g c s₁).group k = some g := by
    rw [State.group, State.core, (countLoopEnd_only ..).1]
    exact hg
  have hissue : burIssue k s₁ = burStep k (burIssued k g c s) := by
    simp only [burIssue, h₁, hstop, Bool.false_eq_true, if_false, if_neg (Nat.not_le.mpr hbuf), State.modGroup, hgroup, hc, Option.map_some]
    rfl
  have he : exec (.bundleIssue k) s = .next (burIssue k s₁) := by
    simp only [exec, execBundleIssue, h, hf, Bool.false_eq_true, if_false]
    rfl
  rw [he, hissue]

/-- A trap point raises its fault in every strand of a crew that has latched none. -/
theorem crewFault_latched {s : State} {k : Nat} {g : Group} {c : Crew} (h : s.crew k = some (g, c)) (hl : c.region.latched = none)
    (hs : c.strands ≠ []) (kind : Trap) : ∃ (g' : Group) (c' : Crew) (f : FaultRec), (crewFault k c kind s).crew k = some (g', c') ∧
      c'.region.latched = some f ∧ f.kind = kind ∧ f.lanes = c.strands.map fun l => (l.1, 0) := by
  have hne : c.strands.map (fun l => (l.1, 0)) ≠ [] := by simpa using hs
  rw [crewFault, latchLanes, if_neg hne]
  refine ⟨_, _, { kind := kind, lanes := c.strands.map fun l => (l.1, 0), acc := .read, bidx := c.pc, boff := c.pc, seg := c.seg },
    State.crew_modCrew _ h, ?_, rfl, rfl⟩
  simp only [hl]

theorem burStep_ok {s : State} {k : Nat} {g : Group} {c : Crew} (h : s.crew k = some (g, c)) (hf : s.focus = k) {i : Instr} (hi : burAt s g c = .ok i) :
    burStep k s = opStep i s := by
  simp only [burStep, h, hi]
  conv_lhs => rw [← hf]

theorem burStep_error {s : State} {k : Nat} {g : Group} {c : Crew} (h : s.crew k = some (g, c)) {e : DecErr} (he : burAt s g c = .error e) :
    burStep k s = crewFault k c (if e = .illOpcode then .illOpcode else .malformed) s := by
  simp only [burStep, h, he]
  cases e <;> rfl

/-- Settles O54: the event that is next by the ranks of the agenda, the totality of every meaning, and the issue of a Burhus crew. -/
theorem stepRuns : Obligations.StepRuns := by
  refine ⟨fun s t i r ha ht => ⟨fun h₁ h₂ => ?_, fun hi hr => step_of_start ha ht hi hr⟩,
    fun s h => ⟨fun i hc => step_of_agent (takeDue_of_head h) hc, fun hc => ⟨step_of_idle h hc, passTime_now s⟩⟩, step_next,
    fun s k g c h hf hm hl hb hr hbuf => ⟨burIssued k g c s, rfl, fun i hi => ?_, fun hs e he => ?_⟩⟩
  · exact step_of_due (by rw [ha, takeDue_same ht (lateRank_eq_zero h₁ h₂)])
  · obtain ⟨f, hform⟩ := formOf_burAt hi
    rw [exec_bundleIssue_bur h hf hm hl hb hr hbuf, exec_of_form hform]
    rw [burStep_ok (burIssued_crew k g c s) (burIssued_focus k g c s) hi]
  · obtain ⟨g', c', f, hc', hf', hk, hl'⟩ := crewFault_latched (burIssued_crew k g c s) hl hs (if e = .illOpcode then .illOpcode else .malformed)
    exact ⟨_, (exec_bundleIssue_bur h hf hm hl hb hr hbuf).trans (congrArg Host.Outcome.next (burStep_error (burIssued_crew k g c s) he)),
      g', c', f, hc', hf', hk, hl'⟩

end Sys2Proof.Machine
end

section
/-!
PROOFS. What the work of memory, translation and the building of page tables leaves of the dispatcher's state (15, 16): the launches, and each
context's queues and event bits.
-/
namespace Sys2Proof.Machine

/-- The dispatcher's state: the launches, and the queues and EVV of each context. -/
structure QueueView where
  launches : SMap Launch
  queues : Nat → SMap Queue
  evv : Nat → BitVec 256

def State.queueView (s : State) : QueueView :=
  { launches := s.pkg.launches, queues := fun a => (s.ctx a).queues, evv := fun a => (s.ctx a).evv }

theorem queueView_eq_of {s t : State} (hl : t.pkg.launches = s.pkg.launches) (hc : t.pkg.ctxs = s.pkg.ctxs) : t.queueView = s.queueView := by
  simp only [State.queueView, State.ctx, hl, hc]

theorem queueView_of_metaView {s t : State} (h : t.metaView = s.metaView) : t.queueView = s.queueView :=
  queueView_eq_of (congrArg (fun v => v.launches) h) (congrArg (fun v => v.ctxs) h)

/-- Reads the view off an answer that is known as a pair. -/
theorem queueView_of_pair {α : Type} {p : State × α} {t : State} {a : α} {v : QueueView} (e : p = (t, a)) (h : p.1.queueView = v) : t.queueView = v := by
  rw [e] at h
  exact h

/-! ## Updates of the state -/

@[simp] theorem queueView_modPkg (s : State) (f : Pkg → Pkg) (h : ∀ p, (f p).launches = p.launches ∧ (f p).ctxs = p.ctxs) :
    (s.modPkg f).queueView = s.queueView := queueView_eq_of (h s.pkg).1 (h s.pkg).2
@[simp] theorem queueView_modSvc (s : State) (f : Svc → Svc) : (s.modSvc f).queueView = s.queueView := rfl
@[simp] theorem queueView_modFn (s : State) (k : Nat) (f : Fn → Fn) : (s.modFn k f).queueView = s.queueView := rfl
@[simp] theorem queueView_modCore (s : State) (k : Nat) (f : Core → Core) : (s.modCore k f).queueView = s.queueView := rfl
@[simp] theorem queueView_putRaw (s : State) (a : Nat) (bs : List Byte) : (s.putRaw a bs).queueView = s.queueView := rfl
@[simp] theorem queueView_post (s : State) (t : Nat) (i : Instr) : (s.post t i).queueView = s.queueView := rfl

/-- A change of a context that leaves its queues and its event bits. -/
theorem queueView_modCtx_of (s : State) (a : Nat) (f : Ctx → Ctx) (hq : (f (s.ctx a)).queues = (s.ctx a).queues)
    (he : (f (s.ctx a)).evv = (s.ctx a).evv) : (s.modCtx a f).queueView = s.queueView := by
  have hc : ∀ j, ((s.modCtx a f).ctx j).queues = (s.ctx j).queues ∧ ((s.modCtx a f).ctx j).evv = (s.ctx j).evv := by
    intro j
    by_cases hj : j = a
    · rw [hj, State.ctx_modCtx_self]
      exact ⟨hq, he⟩
    · rw [State.ctx_modCtx_ne s f hj]
      exact ⟨rfl, rfl⟩
  simp only [State.queueView, hc]
  rfl

@[simp] theorem queueView_modCtx (s : State) (a : Nat) (f : Ctx → Ctx) (h : ∀ c, (f c).queues = c.queues ∧ (f c).evv = c.evv) :
    (s.modCtx a f).queueView = s.queueView := queueView_modCtx_of s a f (h _).1 (h _).2

@[simp] theorem commitChunk_queueView (ch : Nat) (s : State) : (commitChunk ch s).queueView = s.queueView :=
  queueView_of_metaView (commitChunk_metaView ch s)
@[simp] theorem fetchMeta_queueView (ch : Nat) (s : State) : (fetchMeta ch s).1.queueView = s.queueView := queueView_of_metaView (fetchMeta_metaView ch s)
@[simp] theorem bumpCounter_queueView (la : Nat) (s : State) : (bumpCounter la s).queueView = s.queueView :=
  queueView_of_metaView (bumpCounter_metaView la s)
@[simp] theorem setMeta_queueView (la : Nat) (m : LineMeta) (s : State) : (s.setMeta la m).queueView = s.queueView :=
  queueView_of_metaView (setMeta_metaView la m s)

/-! ## Logs and write-backs (13 R265 to R270; 04 R98) -/

@[simp] theorem writeLogLine_queueView (a i : Nat) (s : State) : (writeLogLine a i s).queueView = s.queueView := by
  unfold writeLogLine
  extract_lets c
  split
  · rfl
  · simp

@[simp] theorem forceLog_queueView (a : Nat) (s : State) : (forceLog a s).queueView = s.queueView := by
  simp [forceLog, ackLog, foldS_view State.queueView]

@[simp] theorem writeBackLine_queueView (la : Nat) (s : State) : (writeBackLine la s).queueView = s.queueView := by
  unfold writeBackLine
  split
  · rfl
  · split
    · rfl
    · rw [queueView_modPkg _ _ (by simp), queueView_putRaw, bumpCounter_queueView, fetchMeta_queueView]
      split
      · split
        · exact forceLog_queueView ..
        · rfl
      · rfl

@[simp] theorem installL2_queueView (la : Nat) (d : Line) (s : State) : (installL2 la d s).queueView = s.queueView := by
  unfold installL2
  rw [queueView_modPkg _ _ (by simp)]
  split
  · rfl
  · split
    · simp
    · rfl

@[simp] theorem countErru_queueView (la : Nat) (s : State) : (countErru la s).queueView = s.queueView := foldS_view State.queueView (by simp) s

@[simp] theorem fillLine_queueView (la : Nat) (a b : Bool) (s : State) : (fillLine la a b s).1.queueView = s.queueView := by
  unfold fillLine
  split
  · rfl
  · split
    · next h => simpa using queueView_of_pair h (fetchMeta_queueView ..)
    · next h =>
      have h := queueView_of_pair h (fetchMeta_queueView ..)
      split
      · simpa using h
      · split <;> simpa using h

@[simp] theorem appendRec_queueView (a : Nat) (r : List Byte) (s : State) : (appendRec a r s).queueView = s.queueView :=
  queueView_modCtx _ _ _ fun _ => ⟨rfl, rfl⟩

/-- WRAP moves the log's tail alone. -/
theorem wrapTail_ok (n k : Nat) : ∀ {c c' : Ctx}, wrapTail n k c = .ok c' → c'.queues = c.queues ∧ c'.evv = c.evv := by
  induction k with
  | zero =>
    intro c c' h
    cases h
  | succ k ih =>
    intro c c' h
    unfold wrapTail at h
    split at h
    · cases h
    · extract_lets c₂ at h
      split at h
      · rw [← Room.ok.inj h]
        exact ⟨rfl, rfl⟩
      · split at h
        · cases h
        · exact ih (c := c₂) h

theorem roomFor_ok {n : Nat} {c c' : Ctx} (h : roomFor n c = .ok c') : c'.queues = c.queues ∧ c'.evv = c.evv := by
  unfold roomFor roomWith at h
  split at h
  · cases h
    exact ⟨rfl, rfl⟩
  · split at h
    · split at h
      · exact wrapTail_ok _ _ h
      · cases h
      · cases h
    · cases h

/-! ## Merges (13 R268; 05 R106) -/

@[simp] theorem applyMerge_queueView (r : MergeReq) (l : L2Line) (s : State) : (applyMerge r l s).queueView = s.queueView := by simp [applyMerge]

@[simp] theorem recordMerge_queueView (r : MergeReq) (l : L2Line) (s : State) : (recordMerge r l s).1.queueView = s.queueView := by
  unfold recordMerge
  split
  · rfl
  · extract_lets c bm first
    split
    · rfl
    · split
      · rfl
      · split
        · simp
        · simp
        next c' h =>
          obtain ⟨hq, he⟩ := roomFor_ok h
          extract_lets c₂ pos s₂
          have hc₂ : c₂.queues = c'.queues ∧ c₂.evv = c'.evv := by
            unfold c₂
            split
            · split <;> exact ⟨rfl, rfl⟩
            · exact ⟨rfl, rfl⟩
          rw [queueView_modPkg _ _ (by simp)]
          unfold s₂
          rw [appendRec_queueView]
          exact queueView_modCtx_of _ _ _ (hc₂.1.trans hq) (hc₂.2.trans he)

@[simp] theorem mergeNow_queueView (r : MergeReq) (s : State) : (mergeNow r s).1.queueView = s.queueView := by
  unfold mergeNow
  split
  next s₁ ok h =>
    have h₁ : s₁.queueView = s.queueView := queueView_of_pair h (by split <;> simp)
    split
    · exact h₁
    · split
      · exact h₁
      · split
        next h₂ =>
          have h₂ := (queueView_of_pair h₂ (recordMerge_queueView ..)).trans h₁
          split
          · simpa using h₂
          · exact h₂

@[simp] theorem reportPoison_queueView (r : MergeReq) (was : Bool) (s : State) : (reportPoison r was s).queueView = s.queueView := by
  unfold reportPoison
  extract_lets rep
  rw [queueView_modSvc]
  split <;> simp

@[simp] theorem mergeScan_queueView (one : Bool) (l : List MergeReq) : ∀ kept s, (mergeScan one kept l s).1.queueView = s.queueView := by
  induction l with
  | nil => exact fun _ _ => rfl
  | cons r l ih =>
    intro kept s
    unfold mergeScan
    split
    · exact ih ..
    · extract_lets was
      split
      · next h => exact (ih ..).trans (queueView_of_pair h (mergeNow_queueView ..))
      · next s₁ m _ h =>
        have h₁ : s₁.queueView = s.queueView := queueView_of_pair h (mergeNow_queueView ..)
        extract_lets s₂
        have h₂ : s₂.queueView = s.queueView := by
          unfold s₂
          split
          · exact (reportPoison_queueView ..).trans h₁
          · exact h₁
        split
        · exact h₂
        · exact (ih ..).trans h₂

@[simp] theorem mergeBank_queueView (b : Nat) (s : State) : (mergeBank b s).queueView = s.queueView := by
  unfold mergeBank
  split
  · rfl
  · simp

@[simp] theorem homeLine_queueView (la : Nat) (s : State) : (homeLine la s).1.queueView = s.queueView := by
  unfold homeLine
  extract_lets s₁
  have h₁ : s₁.queueView = s.queueView := mergeBank_queueView ..
  split
  next s₂ ok h =>
    have h₂ : s₂.queueView = s.queueView := (queueView_of_pair h (fillLine_queueView ..)).trans h₁
    split
    · split
      · simpa using h₂
      · exact h₂
    · exact h₂

@[simp] theorem homeWrite_queueView (w : Writer) (pa : Nat) (bs : List Byte) (s : State) : (homeWrite w pa bs s).1.queueView = s.queueView := by
  unfold homeWrite
  extract_lets la s₁
  have h₁ : s₁.queueView = s.queueView := mergeBank_queueView ..
  split
  · exact (fillLine_queueView ..).trans h₁
  · simpa [enqueueMerge] using h₁

theorem foldl_fst_queueView {α β : Type} {f : State × β → α → State × β} (l : List α) (h : ∀ acc a, (f acc a).1.queueView = acc.1.queueView)
    (acc : State × β) : (l.foldl f acc).1.queueView = acc.1.queueView := by
  induction l generalizing acc with
  | nil => rfl
  | cons a l ih => exact (ih (f acc a)).trans (h acc a)

@[simp] theorem physRead_queueView (pa n : Nat) (s : State) : (physRead pa n s).1.queueView = s.queueView := by
  unfold physRead
  split
  · refine foldl_fst_queueView _ (fun acc p => ?_) _
    split
    next h => exact queueView_of_pair h (homeLine_queueView ..)
  · rfl

@[simp] theorem physWrite_queueView (w : Writer) (pa : Nat) (bs : List Byte) (s : State) : (physWrite w pa bs s).1.queueView = s.queueView := by
  unfold physWrite
  split
  · refine foldl_fst_queueView _ (fun acc p => ?_) _
    split
    next h => exact queueView_of_pair h (homeWrite_queueView ..)
  · rfl

/-! ## Translation (04 R75 to R86) -/

@[simp] theorem walkPut_queueView (r : Nat) (l : WalkLine) (u : Nat × Nat × Nat) (s : State) : (walkPut r l u s).queueView = s.queueView := by
  unfold walkPut
  split
  · rfl
  · simp

@[simp] theorem pteRead_queueView (k asid va level pte : Nat) (s : State) : (pteRead k asid va level pte s).1.queueView = s.queueView := by
  unfold pteRead
  extract_lets at_ r u
  split
  · simp
  · split
    · next h => exact queueView_of_pair h (homeLine_queueView ..)
    · next h => simpa using queueView_of_pair h (homeLine_queueView ..)

@[simp] theorem walkFrom_queueView (k asid fn va n : Nat) : ∀ table s, (walkFrom k asid fn va n table s).1.queueView = s.queueView := by
  induction n with
  | zero => exact fun _ _ => rfl
  | succ n ih =>
    intro table s
    unfold walkFrom
    extract_lets pte
    split
    · next h => exact queueView_of_pair h (pteRead_queueView ..)
    · next h =>
      have h₁ := queueView_of_pair h (pteRead_queueView ..)
      split
      · exact h₁
      · split
        · split
          · exact (ih ..).trans h₁
          · exact h₁
        · split <;> exact h₁

@[simp] theorem setAD_queueView (pte e : Nat) (wr : Bool) (s : State) : (setAD pte e wr s).queueView = s.queueView := by
  unfold setAD
  split
  · rfl
  · extract_lets bits s₁
    rw [queueView_modPkg _ _ (by simp)]
    unfold s₁
    split
    · next h => exact (homeWrite_queueView ..).trans (queueView_of_pair h (homeLine_queueView ..))
    · next h => exact queueView_of_pair h (homeLine_queueView ..)

@[simp] theorem tlbInstall_queueView (k : Nat) (t : TlbEntry) (s : State) : (tlbInstall k t s).queueView = s.queueView := by simp [tlbInstall]

@[simp] theorem tlbRefresh_queueView (t : TlbEntry) (s : State) : (tlbRefresh t s).queueView = s.queueView := by
  unfold tlbRefresh
  split
  · rfl
  · rfl

@[simp] theorem takeKey_queueView (r asid va t : Nat) (s : State) : (takeKey r asid va t s).queueView = s.queueView := by simp [takeKey]

@[simp] theorem report_queueView (what : String) (fn : Option Nat) (addr : Nat) (s : State) (a : Option Nat) :
    (report what fn addr s a).queueView = s.queueView := rfl

@[simp] theorem walkFor_queueView (k asid va : Nat) (acc : Acc) (s : State) : (walkFor k asid va acc s).1.queueView = s.queueView := by
  unfold walkFor
  extract_lets c keyed
  split
  · rfl
  · split
    all_goals
      next h =>
      have h₁ := queueView_of_pair h (walkFrom_queueView ..)
      simpa [keyed] using h₁

@[simp] theorem svcTranslate_queueView (asid va : Nat) (acc : Acc) (s : State) : (svcTranslate asid va acc s).1.queueView = s.queueView := by
  unfold svcTranslate
  extract_lets va' cores p
  split
  next s₁ r h =>
    have h₁ : s₁.queueView = s.queueView := queueView_of_pair h (walkFor_queueView ..)
    extract_lets _ s₂
    have h₂ : s₂.queueView = s.queueView := h₁
    split
    · exact h₂
    · split <;> exact h₂

/-! ## Granules and page tables (04 R74, R80) -/

@[simp] theorem dropLines_queueView (g : Nat) (s : State) : (dropLines g s).queueView = s.queueView := by
  unfold dropLines
  extract_lets s₁
  rw [foldS_view State.queueView fun k _ s => queueView_modCore s k _]
  exact queueView_modPkg _ _ (by simp)

@[simp] theorem formUpper_queueView (o : Nat) (s : State) : (formUpper o s).queueView = s.queueView := by
  simp [formUpper, foldS_view State.queueView fun ch _ => commitChunk_queueView ch]

@[simp] theorem zeroGranule_queueView (g o : Nat) (s : State) : (zeroGranule g o s).queueView = s.queueView := by
  unfold zeroGranule
  extract_lets s₁
  rw [queueView_modPkg _ _ (by simp)]
  exact dropLines_queueView g s

@[simp] theorem assignGranule_queueView (g o : Nat) (s : State) : (assignGranule g o s).queueView = s.queueView := by
  unfold assignGranule
  extract_lets n s₁
  have h₁ : s₁.queueView = s.queueView := by simp [s₁]
  split
  · exact h₁
  · exact (formUpper_queueView ..).trans h₁

@[simp] theorem newTable_queueView (a : Nat) (s : State) : (newTable a s).1.queueView = s.queueView := by
  unfold newTable
  extract_lets c
  split
  · simp
  · split <;> simp

@[simp] theorem readEntry_queueView (pte : Nat) (s : State) : (readEntry pte s).1.queueView = s.queueView := by
  unfold readEntry
  split
  · next h => exact queueView_of_pair h (physRead_queueView ..)
  · next h => exact queueView_of_pair h (physRead_queueView ..)

@[simp] theorem writeEntry_queueView (pte e : Nat) (s : State) : (writeEntry pte e s).queueView = s.queueView := by simp [writeEntry]

@[simp] theorem tableFor_queueView (make : Bool) (a va stop n : Nat) : ∀ table s, (tableFor make a va stop n table s).1.queueView = s.queueView := by
  induction n with
  | zero => exact fun _ _ => rfl
  | succ n ih =>
    intro table s
    unfold tableFor
    extract_lets lv pte
    split
    next s₁ e h =>
      have h₁ : s₁.queueView = s.queueView := queueView_of_pair h (readEntry_queueView ..)
      split
      · split
        · exact (ih ..).trans h₁
        · exact h₁
      · split
        · exact h₁
        · split
          · next h₂ =>
            exact (ih ..).trans ((writeEntry_queueView ..).trans ((queueView_of_pair h₂ (newTable_queueView ..)).trans h₁))
          · next h₂ => exact (queueView_of_pair h₂ (newTable_queueView ..)).trans h₁

@[simp] theorem mapCode_queueView (a t : Nat) (s : State) : (mapCode a t s).queueView = s.queueView := by
  unfold mapCode
  split
  · rfl
  · refine foldS_view State.queueView (fun i _ s => ?_) s
    extract_lets pa va
    split
    · next h =>
      rw [queueView_modPkg _ _ (by simp), writeEntry_queueView]
      exact queueView_of_pair h (tableFor_queueView ..)
    · next h => exact queueView_of_pair h (tableFor_queueView ..)

end Sys2Proof.Machine
end

section
/-!
PROOFS. The dispatcher (02 R39; 15 R315 to R317; 16 R326 to R329, R337, R339): what the writing of records, the lookup of a translation and the end of
a launch do to the queues, the event bits and the launches.
-/
namespace Sys2Proof.Machine

/-! ## Queues -/

theorem queues_of_queueView {s t : State} (h : t.queueView = s.queueView) (a : Nat) : (t.ctx a).queues = (s.ctx a).queues :=
  congrFun (congrArg QueueView.queues h) a

theorem evv_of_queueView {s t : State} (h : t.queueView = s.queueView) (a : Nat) : (t.ctx a).evv = (s.ctx a).evv :=
  congrFun (congrArg QueueView.evv h) a

theorem launch_of_queueView {s t : State} (h : t.queueView = s.queueView) (n : Nat) : t.launch n = s.launch n := by
  rw [State.launch, State.launch, show t.pkg.launches = s.pkg.launches from congrArg QueueView.launches h]

@[simp] theorem queue_modQueue (a q : Nat) (f : Queue → Queue) (s : State) :
    ((modQueue a q f s).ctx a).queues.get {} q = f ((s.ctx a).queues.get {} q) := by
  simp [modQueue]

/-- A change of a context's other parts leaves every context's queues. -/
theorem queues_modCtx (s : State) (a b : Nat) (f : Ctx → Ctx) (h : ∀ c, (f c).queues = c.queues) :
    ((s.modCtx a f).ctx b).queues = (s.ctx b).queues := by
  by_cases hb : b = a
  · rw [hb, State.ctx_modCtx_self, h]
  · rw [State.ctx_modCtx_ne s f hb]

/-! ## The event ring (16 R337 to R339) -/

@[simp] theorem testHeads_queueView (a : Nat) (s : State) : (testHeads a s).queueView = s.queueView := foldS_view State.queueView (by simp) s

@[simp] theorem ringInterrupt_queueView (a : Nat) (s : State) : (ringInterrupt a s).queueView = s.queueView := by simp [ringInterrupt, raiseMsix]

@[simp] theorem ringTrigger_queueView (a : Nat) (fault : Bool) (s : State) : (ringTrigger a fault s).queueView = s.queueView := by
  unfold ringTrigger
  extract_lets first s₁ r
  have h₁ : s₁.queueView = s.queueView := by simp [s₁]
  split
  · exact (ringInterrupt_queueView ..).trans h₁
  · split <;> exact h₁

theorem applyEset_queues (n a : Nat) (s : State) : ((applyEset n s).ctx a).queues = (s.ctx a).queues := by
  unfold applyEset
  extract_lets l r st
  split
  · rw [queues_of_queueView (testHeads_queueView ..), queues_modCtx]
    exact fun _ => rfl
  · rfl

/-- Records that are written to the ring leave the queues alone. -/
theorem flushRing_queues (a b n : Nat) : ∀ s, ((flushRing a n s).ctx b).queues = (s.ctx b).queues := by
  induction n with
  | zero => exact fun _ => rfl
  | succ n ih =>
    intro s
    unfold flushRing
    extract_lets r va
    split
    · rfl
    · split
      · rfl
      · split
        · next h =>
          rw [queues_of_queueView (report_queueView ..), queues_modCtx _ _ _ _ (by simp)]
          exact queues_of_queueView (queueView_of_pair h (svcTranslate_queueView ..)) b
        · next bs ln _ _ _ s₁ p h =>
          have h₁ : s₁.queueView = s.queueView := queueView_of_pair h (svcTranslate_queueView ..)
          extract_lets s₂ s₃ s₄
          have h₄ : s₄.queueView = s.queueView := by simpa [s₄, s₃, s₂] using h₁
          rw [ih]
          split
          · rw [applyEset_queues, queues_of_queueView h₄]
          · exact queues_of_queueView h₄ b

theorem postRecord_queues (a b : Nat) (bs : List Byte) (ln : Option Nat) (s : State) : ((postRecord a bs ln s).ctx b).queues = (s.ctx b).queues := by
  unfold postRecord
  extract_lets s₁
  rw [flushRing_queues]
  exact queues_modCtx _ _ _ _ fun _ => rfl

/-- A queue's fault halts it and moves nothing else of it. -/
theorem queueFault_queue (a q : Nat) (s : State) :
    ((queueFault a q s).ctx a).queues.get {} q = { (s.ctx a).queues.get {} q with halt := true } := by
  unfold queueFault
  extract_lets r
  rw [postRecord_queues, queue_modQueue]

/-- While the ring is disabled its records are held. -/
theorem flushRing_of_not_en {a : Nat} {s : State} (h : (s.ctx a).ring.en = false) (n : Nat) : flushRing a n s = s := by
  cases n with
  | zero => rfl
  | succ n =>
    unfold flushRing
    extract_lets r
    have hr : r.en = false := h
    split
    · rfl
    · simp only [hr, Bool.not_false, Bool.true_or, if_true]

/-! ## Starting (15 R316; 17 R341) -/

/-- What a launch's start still keeps after it has taken its events: every queue, every context's events, and that the launch has started. -/
def KeepsStart (n : Nat) (s t : State) : Prop :=
  (∀ a, (t.ctx a).queues = (s.ctx a).queues ∧ (t.ctx a).evv = (s.ctx a).evv) ∧ (t.launch n).started = (s.launch n).started

theorem KeepsStart.trans {n : Nat} {s t u : State} (h : KeepsStart n s t) (h' : KeepsStart n t u) : KeepsStart n s u :=
  ⟨fun a => ⟨(h'.1 a).1.trans (h.1 a).1, (h'.1 a).2.trans (h.1 a).2⟩, h'.2.trans h.2⟩

theorem keepsStart_of_queueView {n : Nat} {s t : State} (h : t.queueView = s.queueView) : KeepsStart n s t :=
  ⟨fun a => ⟨queues_of_queueView h a, evv_of_queueView h a⟩, by rw [launch_of_queueView h]⟩

theorem ctx_modLaunch (s : State) (n : Nat) (f : Launch → Launch) (a : Nat) : (s.modLaunch n f).ctx a = s.ctx a := by
  unfold State.modLaunch
  split <;> rfl

theorem keepsStart_modLaunch (n : Nat) (s : State) (f : Launch → Launch) (h : ∀ l, (f l).started = l.started) : KeepsStart n s (s.modLaunch n f) := by
  cases hl : s.pkg.launches.find? n with
  | none =>
    rw [State.modLaunch, hl]
    exact keepsStart_of_queueView rfl
  | some l =>
    refine ⟨fun a => ?_, ?_⟩
    · rw [ctx_modLaunch]
      exact ⟨rfl, rfl⟩
    · rw [State.launch_modLaunch_self hl, h, State.launch, hl, Option.getD_some]

@[simp] theorem queueView_modTrans (s : State) (t : Nat) (f : Trans → Trans) : (s.modTrans t f).queueView = s.queueView := by
  unfold State.modTrans
  split
  · simp
  · rfl

@[simp] theorem queueView_modPart (s : State) (k : Nat) (f : Part → Part) : (s.modPart k f).queueView = s.queueView :=
  queueView_modPkg _ _ fun _ => ⟨rfl, rfl⟩

@[simp] theorem postOwner_queueView (cmd : Nat) (tag : BitVec 16) (ws : List W64) (s : State) : (postOwner cmd tag ws s).queueView = s.queueView := by
  unfold postOwner answer
  split
  · extract_lets bs
    split
    · rfl
    · split <;> rfl
  · rfl

@[simp] theorem quickBegin_queueView (n : Nat) (s : State) : (quickBegin n s).queueView = s.queueView := rfl

@[simp] theorem noteLapse_queueView (n : Nat) (s : State) : (noteLapse n s).queueView = s.queueView := by
  unfold noteLapse
  extract_lets p
  split
  · exact queueView_modPart ..
  · rfl

theorem lookupTrans_keepsStart (n : Nat) (s : State) : KeepsStart n s (lookupTrans n s) := by
  unfold lookupTrans
  extract_lets l k p joined s₁ kn s₂
  split
  · exact keepsStart_of_queueView ((queueView_modTrans ..).trans (mapCode_queueView ..))
  · split
    · refine KeepsStart.trans ?_ (keepsStart_of_queueView (queueView_modTrans ..))
      exact (keepsStart_of_queueView (mapCode_queueView ..)).trans (keepsStart_modLaunch _ _ _ (by simp))
    · have h₁ : KeepsStart n s s₁ := keepsStart_modLaunch _ _ _ fun _ => rfl
      split
      · exact h₁
      · split
        · exact h₁.trans (keepsStart_of_queueView (postOwner_queueView ..))
        · exact h₁.trans (keepsStart_of_queueView (quickBegin_queueView ..))

/-- No code window is written while no translation has a place in the cache. -/
theorem mapCode_of_unplaced {s : State} (h : ∀ x ∈ s.pkg.trans, x.2.base = none) (a t : Nat) : mapCode a t s = s := by
  have hb : ((s.trans t).bind fun x => x.base.map fun b => (b, transRoom x)) = none := by
    cases ht : s.trans t with
    | none => rfl
    | some x =>
      have hx : x.base = none := h (t, x) (SMap.mem_of_find? ht)
      simp [hx]
  unfold mapCode
  rw [hb]

@[simp] theorem mem_modLaunch (s : State) (n : Nat) (f : Launch → Launch) : (s.modLaunch n f).mem = s.mem := by
  unfold State.modLaunch
  split <;> rfl

@[simp] theorem mem_modTrans (s : State) (t : Nat) (f : Trans → Trans) : (s.modTrans t f).mem = s.mem := by
  unfold State.modTrans
  split <;> rfl

@[simp] theorem postOwner_mem (cmd : Nat) (tag : BitVec 16) (ws : List W64) (s : State) : (postOwner cmd tag ws s).mem = s.mem := by
  unfold postOwner answer
  split
  · extract_lets bs
    split
    · rfl
    · split <;> rfl
  · rfl

@[simp] theorem testHeads_mem (a : Nat) (s : State) : (testHeads a s).mem = s.mem := foldS_view State.mem (by simp) s

theorem lookupTrans_mem {s : State} (h : ∀ x ∈ s.pkg.trans, x.2.base = none) (n : Nat) : (lookupTrans n s).mem = s.mem := by
  unfold lookupTrans
  extract_lets l k p joined s₁ kn s₂
  split
  · rw [mem_modTrans, mapCode_of_unplaced h]
  · split
    · rw [mem_modTrans, mem_modLaunch, mapCode_of_unplaced h]
    · have h₁ : s₁.mem = s.mem := mem_modLaunch ..
      split
      · exact h₁
      · split
        · exact (postOwner_mem ..).trans h₁
        · exact h₁

theorem noteLapse_mem_trans (n : Nat) (s : State) : (noteLapse n s).mem = s.mem ∧ (noteLapse n s).pkg.trans = s.pkg.trans := by
  unfold noteLapse
  extract_lets p
  split <;> exact ⟨rfl, rfl⟩

theorem trans_modLaunch (s : State) (n : Nat) (f : Launch → Launch) : (s.modLaunch n f).pkg.trans = s.pkg.trans := by
  unfold State.modLaunch
  split <;> rfl

@[simp] theorem callPlacement_queueView (n : Nat) (s : State) : (callPlacement n s).queueView = s.queueView := rfl
@[simp] theorem callPlacement_mem (n : Nat) (s : State) : (callPlacement n s).mem = s.mem := rfl

end Sys2Proof.Machine
end

section
/-!
PROOFS. What the dispatcher's instructions do (02 R39; 15 R315 to R317; 16 R326 to R329, R337, R339), and O37.
-/
namespace Sys2Proof.Machine

theorem launch_of_find {s : State} {n : Nat} {l : Launch} (h : s.pkg.launches.find? n = some l) : s.launch n = l := by
  rw [State.launch, h, Option.getD_some]

/-! ## Taking an entry (16 R326 to R328) -/

theorem takeEntry_of_overfull {s : State} {a q : Nat}
    (h : 2 ^ ((s.ctx a).queues.get {} q).qlog.toNat < (((s.ctx a).queues.get {} q).widx - ((s.ctx a).queues.get {} q).ridx).toNat) :
    takeEntry a q s = queueFault a q s := by
  unfold takeEntry
  extract_lets qu va
  exact if_pos h

/-- The state from which an entry that has been read is resolved. -/
def resolveFrom (a q : Nat) (s : State) : State :=
  (modQueue a q (fun x => { x with credit := x.credit - 1 }) s).modPkg fun p => { p with nextLaunch := p.nextLaunch + 1 }

/-- The state in which a resolved launch waits as the head of its queue. -/
def heldHead (a q n : Nat) (l : Launch) (s : State) : State :=
  (modQueue a q (fun x => { x with head := some n, headOld := false }) (s.modPkg fun p => { p with launches := p.launches.put n l })).post s.now
    (.launchStart a q)

theorem takeEntry_of_resolve {s s₁ s' : State} {a q : Nat} {b : List Byte} {l : Launch}
    (h : (((s.ctx a).queues.get {} q).widx - ((s.ctx a).queues.get {} q).ridx).toNat ≤ 2 ^ ((s.ctx a).queues.get {} q).qlog.toNat)
    (hr : readCtx a ((((s.ctx a).queues.get {} q).qbase.toNat * 128 + 128 * (((s.ctx a).queues.get {} q).ridx.toNat %
      2 ^ ((s.ctx a).queues.get {} q).qlog.toNat)) % 2 ^ 56) 128 s = (s₁, .ok b))
    (hl : resolve a q ((s.ctx a).queues.get {} q).ridx.toNat (leNat b) (resolveFrom a q s₁) = (s', .ok l)) :
    takeEntry a q s = heldHead a q s₁.pkg.nextLaunch l s' := by
  unfold takeEntry
  extract_lets qu va lidx
  rw [if_neg (Nat.not_lt.mpr h), show readCtx a va 128 s = (s₁, .ok b) from hr]
  dsimp only
  split
  · next h =>
    cases h.symm.trans hl
    rfl
  · next h => cases h.symm.trans hl

theorem heldHead_facts (a q n : Nat) (l : Launch) (s : State) :
    (heldHead a q n l s).mem = s.mem ∧ (heldHead a q n l s).launch n = l ∧
      (((heldHead a q n l s).ctx a).queues.get {} q).head = some n ∧ (((heldHead a q n l s).ctx a).queues.get {} q).headOld = false := by
  have hq := queue_modQueue a q (fun x => { x with head := some n, headOld := false }) (s.modPkg fun p => { p with launches := p.launches.put n l })
  exact ⟨rfl, launch_of_find (SMap.find?_put_self ..), congrArg Queue.head hq, congrArg Queue.headOld hq⟩

/-! ## Admission (02 R39) -/

theorem admitKernel_facts {s s' : State} {asid kobj kidx : Nat} {k : Option Kernel} (h : admitRead asid kobj kidx s = (s', k)) :
    (admitKernel asid kobj kidx s).1.mem = s'.mem ∧ (admitKernel asid kobj kidx s).1.pkg.kernels.head? =
      some (k.getD { asid := asid, kobj := kobj, kidx := kidx, refused := true }) := by
  unfold admitKernel
  rw [h]
  cases k with
  | none => exact ⟨rfl, rfl⟩
  | some k => exact ⟨rfl, rfl⟩

/-! ## Starting (15 R316; 16 R329) -/

theorem execLaunchStart_of_first {s : State} {a q n : Nat} {l : Launch} (hh : ((s.ctx a).queues.get {} q).head = some n)
    (hl : s.pkg.launches.find? n = some l) (hb : headsBefore s a q = []) (hd : dueCompletions s a = []) :
    exec (.launchStart a q) s = .next (
      if eligible s l && mayStart s a && windowOk s a q (BitVec.ofNat 32 l.lidx) then
        if startWait s a = 0 then startHead a q n s else s.post (s.now + startWait s a) (.launchStart a q)
      else s) := by
  have hh : headOf s a q = some n := hh
  show Host.Outcome.next _ = _
  rw [hd, foldS_nil]
  dsimp only
  rw [hh, Option.isSome_some, if_pos rfl, hb, foldS_nil]
  unfold tryStart
  rw [hh, ← launch_of_find hl]

/-- A queue whose head's launch starts: RIDX passes its entry, unless it was taken from the queue's earlier ring. -/
def Queue.passHead (x : Queue) : Queue := { x with head := none, headOld := false, ridx := if x.headOld then x.ridx else x.ridx + 1 }

/-- The event bits that a launch takes. -/
def eclrBits (l : Launch) : BitVec 256 := BitVec.ofNat 256 (recEclr l.bits * 2 ^ (64 * recCq l.bits))

/-- The state in which a launch without parameters has left its queue and taken its events, before its translation is looked up. -/
def headTaken (a q n : Nat) (l : Launch) (s : State) : State :=
  let s := (modQueue a q Queue.passHead s).modCtx a fun c => { c with evv := c.evv &&& ~~~eclrBits l }
  let ord := s.pkg.launches.foldl (fun (m : Nat) (x : Nat × Launch) => max m (x.2.startOrd + 1)) 0
  s.modLaunch n fun l => { l with params := [], started := true, startOrd := ord, fmask := (s.fn (s.fnOf a)).fmask }

theorem startHead_eq {s : State} {a q n : Nat} {l : Launch} {kn : Kernel} (hl : s.pkg.launches.find? n = some l) (hk : l.kernel = some kn)
    (hp : kn.paramSz = 0) (hf : startFails s l = none) :
    startHead a q n s = callPlacement n (testHeads a (lookupTrans n (noteLapse n (headTaken a q n l s)))) := by
  have e := launch_of_find hl
  unfold startHead
  extract_lets l' kn' out
  rw [show l' = l from e, hf]
  have hp : kn'.paramSz = 0 := by
    unfold kn'
    rw [show l' = l from e, hk]
    exact hp
  rw [if_pos hp]
  rfl

theorem headTaken_started {s : State} {n : Nat} {l : Launch} (hl : s.pkg.launches.find? n = some l) (a q : Nat) :
    ((headTaken a q n l s).launch n).started = true := by
  unfold headTaken
  extract_lets s₁ ord
  rw [State.launch_modLaunch_self (show s₁.pkg.launches.find? n = some l from hl)]

theorem headTaken_queue (a q n : Nat) (l : Launch) (s : State) :
    ((headTaken a q n l s).ctx a).queues.get {} q = ((s.ctx a).queues.get {} q).passHead := by
  unfold headTaken
  extract_lets s₁ ord
  rw [ctx_modLaunch, State.ctx_modCtx_self]
  exact queue_modQueue ..

theorem headTaken_evv (a q n : Nat) (l : Launch) (s : State) : ((headTaken a q n l s).ctx a).evv = (s.ctx a).evv &&& ~~~eclrBits l := by
  unfold headTaken
  extract_lets s₁ ord
  rw [ctx_modLaunch, State.ctx_modCtx_self, modQueue, State.ctx_modCtx_self]

/-- What follows the taking of a head's events moves no queue and no event bit, and the launch stays started. -/
theorem startHead_keepsStart {s : State} {n : Nat} {l : Launch} {kn : Kernel} (hl : s.pkg.launches.find? n = some l) (hk : l.kernel = some kn)
    (hp : kn.paramSz = 0) (hf : startFails s l = none) (a q : Nat) : KeepsStart n (headTaken a q n l s) (startHead a q n s) := by
  rw [startHead_eq hl hk hp hf]
  exact ((keepsStart_of_queueView (noteLapse_queueView ..)).trans (lookupTrans_keepsStart ..)).trans
    (keepsStart_of_queueView ((callPlacement_queueView ..).trans (testHeads_queueView ..)))

theorem startHead_mem {s : State} {n : Nat} {l : Launch} {kn : Kernel} (hl : s.pkg.launches.find? n = some l) (hk : l.kernel = some kn)
    (hp : kn.paramSz = 0) (hf : startFails s l = none) (hb : ∀ x ∈ s.pkg.trans, x.2.base = none) (a q : Nat) : (startHead a q n s).mem = s.mem := by
  obtain ⟨hnm, hnt⟩ := noteLapse_mem_trans n (headTaken a q n l s)
  have hb : ∀ x ∈ (noteLapse n (headTaken a q n l s)).pkg.trans, x.2.base = none := by
    rw [hnt, headTaken, trans_modLaunch]
    exact hb
  rw [startHead_eq hl hk hp hf, callPlacement_mem, testHeads_mem, lookupTrans_mem hb, hnm]
  exact mem_modLaunch ..

/-- The event bits that a launch leaves, one by one. -/
theorem getLsbD_eclr (v : BitVec 256) (l : Launch) {i : Nat} (hi : i < 256) :
    (v &&& ~~~eclrBits l).getLsbD i = (v.getLsbD i && !((recEclr l.bits * 2 ^ (64 * recCq l.bits)).testBit i)) := by
  rw [eclrBits, BitVec.getLsbD_and, BitVec.getLsbD_not, BitVec.getLsbD_ofNat]
  simp only [hi, decide_true, Bool.true_and]

/-! ## Time bounds (15 R315) -/

/-- The time bound's account of a launch changes what it has run and since when. -/
theorem boundRun_launch (n : Nat) (s : State) : ∃ r t, (boundRun n s).launch n = { s.launch n with ran := r, runSince := t } := by
  cases hl : s.pkg.launches.find? n with
  | none =>
    have h : (boundRun n s).launch n = s.launch n := by
      unfold boundRun
      extract_lets l
      split
      · rw [State.modLaunch, hl]
      · rw [State.modLaunch, hl]
        rfl
      · rfl
    exact ⟨_, _, h⟩
  | some l =>
    have e := launch_of_find hl
    unfold boundRun
    rw [e]
    extract_lets l'
    split
    · exact ⟨_, _, State.launch_modLaunch_self hl _⟩
    · exact ⟨_, _, State.launch_modLaunch_self hl _⟩
    · exact ⟨_, _, e⟩

/-- An open launch that ends stands nowhere any more. -/
theorem endLaunch_places {s : State} {n : Nat} {l : Launch} (st : Nat × Nat × Nat × Nat) (hl : s.pkg.launches.find? n = some l)
    (hc : l.complete = false) (ha : l.abandoned = false) (hs : l.status = none) :
    ((endLaunch st n s).launch n).placed = [] ∧ ((endLaunch st n s).launch n).suspended = [] := by
  have e := launch_of_find hl
  unfold endLaunch
  extract_lets l' s₁ s₂
  rw [if_neg (by rw [show l' = l from e, hc]; decide), if_neg (by rw [show l' = l from e, hs, ha]; decide), callPlacement_launch]
  have h₁ : s₁.kept = s.kept := foldS_view State.kept (by simp) s
  have h₂ : s₂.kept = s₁.kept := by
    unfold s₂
    rw [foldS_view State.kept]
    exact fun x _ t => foldS_view State.kept (fun g _ t => foldS_view State.kept (fun c _ t => foldS_view State.kept (by simp) t) t) t
  have h₃ : (dropCmds n (decide (st.1 = 2)) s₂).kept = s.kept := (dropCmds_kept ..).trans (h₂.trans h₁)
  have hl₃ : (dropCmds n (decide (st.1 = 2)) s₂).pkg.launches.find? n = some l :=
    (congrArg (fun v : KeptView => v.launches.find? n) h₃).trans hl
  obtain ⟨r, t, hb⟩ := boundRun_launch n ((dropCmds n (decide (st.1 = 2)) s₂).modLaunch n fun l =>
    { l with status := some st, placed := [], suspended := [], preempt := [], waitTr := false })
  rw [hb, State.launch_modLaunch_self hl₃]
  exact ⟨rfl, rfl⟩

theorem execTimeBound_of_run {s : State} {n t₀ : Nat} {l : Launch} (hl : s.pkg.launches.find? n = some l) (hr : l.runSince = some t₀)
    (ht : timeLimit s n ≤ l.ran + (s.now - t₀)) : exec (.timeBound n) s = .next (endLaunch (2, 0, 0, 0) n s) := by
  show Host.Outcome.next _ = _
  rw [launch_of_find hl]
  simp only [hr, Option.isSome_some, Bool.true_and, decide_eq_true_eq, if_pos ht]

/-! ## Completion (15 R317; 16 R337) -/

theorem releaseCores_of_drained {s : State} (h : ∀ c ∈ s.cores, c.2.dfifo = [] ∧ c.2.link = []) : releaseCores s = s := by
  have hf : (s.cores.filter fun c => c.2.dfifo ≠ [] || c.2.link ≠ []) = [] := by
    rw [List.filter_eq_nil_iff]
    intro c hc
    obtain ⟨hd, hk⟩ := h c hc
    simp [hd, hk]
  unfold releaseCores
  rw [hf, List.map_nil, foldS_nil]

theorem serveLinkFails_of_none {s : State} (h : s.pkg.linkBad = []) : serveLinkFails s = s := by
  unfold serveLinkFails
  rw [h, foldS_nil]
  show { s with pkg := { s.pkg with linkBad := [] } } = s
  rw [← h]

/-- The completion record that a launch's end writes. -/
def launchRec (s : State) (l : Launch) : List Byte :=
  let st := l.status.getD (0, 0, 0, 0)
  let bad := st.1 = 4
  completionRec s.tim l.lidx l.q st.1 (if bad then 0 else recLtag l.bits) (!bad && st.1 ≠ 0 && recFpol l.bits = 1) (!l.issued)
    (if st.1 = 1 then st.2.1 else 0) (if st.1 = 1 then st.2.2.1 else 0) (if st.1 = 1 then st.2.2.2 else 0)

theorem unpinCode_facts (tr : Option Nat) (s : State) :
    (unpinCode tr s).mem = s.mem ∧ (unpinCode tr s).pkg.launches = s.pkg.launches ∧ (unpinCode tr s).pkg.ctxs = s.pkg.ctxs := by
  unfold unpinCode
  extract_lets locked
  split <;> exact ⟨rfl, rfl, rfl⟩

/-- A record that a context's ring holds. -/
def holdRecord (a : Nat) (e : List Byte × Option Nat) (s : State) : State :=
  s.modCtx a fun c => { c with ring := { c.ring with held := c.ring.held ++ [e] } }

theorem holdRecord_held (a : Nat) (e : List Byte × Option Nat) (s : State) :
    ((holdRecord a e s).ctx a).ring.held = (s.ctx a).ring.held ++ [e] := by
  rw [holdRecord, State.ctx_modCtx_self]

theorem postRecord_of_not_en {a : Nat} {s : State} (h : (s.ctx a).ring.en = false) (b : List Byte) (ln : Option Nat) :
    postRecord a b ln s = holdRecord a (b, ln) s := by
  refine flushRing_of_not_en ?_ _
  rw [State.ctx_modCtx_self]
  exact h

/-- A launch whose context's ring is disabled completes: its record is held. -/
theorem finishLaunch_facts {s : State} {n : Nat} {l : Launch} (hl : s.pkg.launches.find? n = some l) (he : (s.ctx l.asid).ring.en = false) :
    (finishLaunch n s).mem = s.mem ∧ ((finishLaunch n s).launch n).complete = true ∧
      ((finishLaunch n s).ctx l.asid).ring.held = (s.ctx l.asid).ring.held ++ [(launchRec s l, some n)] := by
  unfold finishLaunch
  rw [launch_of_find hl]
  extract_lets _ st bad b s₁ s₂ s₃
  have h₁ : s₁.mem = s.mem ∧ (s₁.launch n).complete = true ∧ s₁.ctx l.asid = s.ctx l.asid := by
    refine ⟨mem_modLaunch .., ?_, ?_⟩
    · rw [State.launch_modLaunch_self hl]
    · exact ctx_modLaunch ..
  have h₂ : s₂.mem = s.mem ∧ (s₂.launch n).complete = true ∧ s₂.ctx l.asid = s.ctx l.asid := by
    unfold s₂
    split <;> exact h₁
  obtain ⟨hm₂, hc₂, hx₂⟩ := h₂
  have hp : postRecord l.asid b (some n) s₂ = holdRecord l.asid (b, some n) s₂ := postRecord_of_not_en (by rw [hx₂, he]) ..
  have h₃ : s₃.mem = s.mem ∧ (s₃.launch n).complete = true ∧
      (s₃.ctx l.asid).ring.held = (s.ctx l.asid).ring.held ++ [(launchRec s l, some n)] := by
    obtain ⟨hm, hn, hx⟩ := unpinCode_facts l.tr (callPlacement n (holdRecord l.asid (b, some n) s₂))
    unfold s₃
    rw [hp, State.launch, hn, State.ctx, hx]
    refine ⟨hm.trans hm₂, hc₂, (holdRecord_held ..).trans ?_⟩
    rw [hx₂]
    rfl
  split <;> exact h₃

theorem execLaunchCompletion_of_idle {s : State} {n : Nat} (hc : completable s n = true) (hd : ∀ c ∈ s.cores, c.2.dfifo = [] ∧ c.2.link = [])
    (hb : s.pkg.linkBad = []) : exec (.launchCompletion n) s = .next (finishLaunch n s) := by
  show Host.Outcome.next _ = _
  rw [if_pos hc, releaseCores_of_drained hd, serveLinkFails_of_none hb]

theorem completionRec_length (stamp lidx q status ltag : Nat) (ff un : Bool) (fk fc fi : Nat) :
    (completionRec stamp lidx q status ltag ff un fk fc fi).length = 32 := leBytes_length ..

/-- LIDX, Q and STATUS of a completion record (Table 16.2). -/
theorem completionRec_fields (stamp lidx q status ltag : Nat) (ff un : Bool) (fk fc fi : Nat) (hq : q < 8) :
    leNat (completionRec stamp lidx q status ltag ff un fk fc fi) / 2 ^ 64 % 2 ^ 32 = lidx % 2 ^ 32 ∧
    leNat (completionRec stamp lidx q status ltag ff un fk fc fi) / 2 ^ 96 % 8 = q ∧
    leNat (completionRec stamp lidx q status ltag ff un fk fc fi) / 2 ^ 112 % 2 ^ 16 = status % 2 ^ 16 := by
  have hf := Bool.toNat_le ff
  have hu := Bool.toNat_le un
  rw [completionRec, leNat_leBytes]
  refine ⟨?_, ?_, ?_⟩ <;> omega

/-! ## The event ring's timer (16 R339) -/

theorem execEventRingTimer_of_due {s : State} {a t₀ : Nat} (hf : (s.ctx a).ring.firstAt = some t₀) (he : (s.ctx a).ring.etim ≠ 0)
    (hp : 0 < (s.ctx a).ring.pending) (ht : t₀ + 1600 * (s.ctx a).ring.etim.toNat ≤ s.now) :
    exec (.eventRingTimer a) s = .next (ringInterrupt a s) := by
  show Host.Outcome.next _ = _
  have hu : t₀ + usec (s.ctx a).ring.etim.toNat ≤ s.now := ht
  simp only [hf, decide_eq_true he, decide_eq_true hp, decide_eq_true hu, Bool.and_self, if_true]

theorem ringInterrupt_facts (a : Nat) (s : State) :
    (ringInterrupt a s).mem = s.mem ∧ ((ringInterrupt a s).ctx a).ring.pending = 0 ∧ ((ringInterrupt a s).ctx a).ring.firstAt = none ∧
      ((ringInterrupt a s).fn (s.fnOf a)).msix = (s.fn (s.fnOf a)).msix ++ [(s.ctx a).ring.vec.toNat] := by
  have hc : (ringInterrupt a s).ctx a = (s.modCtx a fun c => { c with ring := { c.ring with pending := 0, firstAt := none } }).ctx a := rfl
  rw [State.ctx_modCtx_self] at hc
  refine ⟨rfl, ?_, ?_, ?_⟩
  · rw [hc]
  · rw [hc]
  · unfold ringInterrupt raiseMsix
    rw [State.fn_modFn_self]
    rfl

/-! ## O37 -/

/-- Settles O37: each instruction of the dispatcher by the lemmas above; what its service traffic does besides leaves the queues alone. -/
theorem dispatchEvents : Obligations.DispatchEvents := by
  unfold Obligations.DispatchEvents
  refine ⟨?queueTake, ?admission, ?launchStart, ?timeBound, ?launchCompletion, ?eventRingTimer⟩
  case queueTake =>
    intro s a q
    have hx : exec (.queueTake a q) s = .next (if mayTake s a q then takeEntry a q s else s) := rfl
    refine ⟨fun hm => ?_, fun hm ho => ?_, fun b s₁ s' l hm ho hr hl => ?_⟩
    · rw [hx, hm]
      rfl
    · refine ⟨queueFault a q s, ?_, ?_, ?_⟩
      · rw [hx, if_pos hm, takeEntry_of_overfull ho]
      · rw [queueFault_queue]
      · rw [queueFault_queue]
    · exact ⟨_, by rw [hx, if_pos hm, takeEntry_of_resolve ho hr hl], heldHead_facts ..⟩
  case admission =>
    intro s s' asid kobj kidx k h
    exact ⟨_, rfl, admitKernel_facts h⟩
  case launchStart =>
    intro s a q n l kn hh hl hk hp hf hb hd
    have hx := execLaunchStart_of_first hh hl hb hd
    refine ⟨fun he hm hw h0 => ?_, fun he => ?_⟩
    · obtain ⟨hctx, hst⟩ := startHead_keepsStart hl hk hp hf a q
      obtain ⟨hqu, hev⟩ := hctx a
      refine ⟨startHead a q n s, ?_, fun hn => startHead_mem hl hk hp hf hn a q, hst.trans (headTaken_started hl a q), ?_, ?_, fun i hi => ?_⟩
      · rw [hx, he, hm, hw, h0]
        rfl
      · rw [hqu, headTaken_queue]
        rfl
      · rw [hqu, headTaken_queue]
        rfl
      · rw [hev, headTaken_evv, getLsbD_eclr _ _ hi]
    · rw [hx, he]
      rfl
  case timeBound =>
    intro s n t₀ l hl hc ha hs hr ht
    exact ⟨_, execTimeBound_of_run hl hr ht, (endLaunch_open _ hl hc ha hs).2, endLaunch_places _ hl hc ha hs⟩
  case launchCompletion =>
    intro s n l hl hc hd hb he hq
    obtain ⟨hmem, hdone, hheld⟩ := finishLaunch_facts hl he
    obtain ⟨hlidx, hqf, hst⟩ := completionRec_fields s.tim l.lidx l.q (l.status.getD (0, 0, 0, 0)).1 _ _ _ _ _ _ hq
    refine ⟨_, launchRec s l, execLaunchCompletion_of_idle hc hd hb, hmem, hdone, hheld, completionRec_length .., hlidx, hqf, fun hn => hst.trans ?_⟩
    rw [hn]
    rfl
  case eventRingTimer =>
    intro s asid t₀ r hf he hp ht
    exact ⟨_, execEventRingTimer_of_due hf he hp ht, ringInterrupt_facts ..⟩

end Sys2Proof.Machine
end

section
/-!
PROOFS. The rollback of a pass gives the Burhus registers back (01 R13; 03 R59).
-/
namespace Sys2Proof.Machine

/-- A note of a rollback holds the register's value in group `g`. -/
def BUndo.Notes (g : Group) (u : BUndo) : Prop :=
  if u.isC then u.old.getLsbD 0 = g.c.get false u.key else u.old = g.x.get 0 u.key

/-- The Burhus registers of `h` are those of `g`, but for the ones that the notes `us` name. -/
def Group.BurAgree (us : List BUndo) (g h : Group) : Prop :=
  (∀ n, (∀ u ∈ us, u.isC = false → u.key ≠ n) → h.x.get 0 n = g.x.get 0 n) ∧
  ∀ n, (∀ u ∈ us, u.isC = true → u.key ≠ n) → h.c.get false n = g.c.get false n

/-- The undoing of one register's write. -/
def undoReg (g : Group) (u : BUndo) : Group :=
  if u.isC then { g with c := g.c.set false u.key (u.old.getLsbD 0) } else { g with x := g.x.set 0 u.key u.old }

theorem undoRegs_cons (u : BUndo) (us : List BUndo) (g : Group) : undoRegs (u :: us) g = undoRegs us (undoReg g u) := rfl

theorem undoRegs_append (us vs : List BUndo) (g : Group) : undoRegs (us ++ vs) g = undoRegs vs (undoRegs us g) := List.foldl_append ..

/-- A note that is undone settles its register. -/
theorem Group.BurAgree.undoReg {u : BUndo} {us : List BUndo} {g h : Group} (hu : u.Notes g) (ha : BurAgree (u :: us) g h) :
    BurAgree us g (undoReg h u) := by
  obtain ⟨hx, hc⟩ := ha
  obtain ⟨isC, key, old⟩ := u
  cases isC with
  | true =>
    refine ⟨fun n hn => hx n ?_, fun n hn => ?_⟩
    · simpa using hn
    · show SMap.get false (SMap.set false h.c key (old.getLsbD 0)) n = _
      rw [SMap.get_set]
      split
      · next e => exact e ▸ hu
      · next e => exact hc n (by simpa [Ne.symm e] using hn)
  | false =>
    refine ⟨fun n hn => ?_, fun n hn => hc n (by simpa using hn)⟩
    show SMap.get 0 (SMap.set 0 h.x key old) n = _
    rw [SMap.get_set]
    split
    · next e => exact e ▸ hu
    · next e => exact hx n (by simpa [Ne.symm e] using hn)

/-- The notes of `g`'s registers, undone, give the registers of `g`. -/
theorem Group.BurAgree.undoRegs {us : List BUndo} {g h : Group} (hu : ∀ u ∈ us, u.Notes g) (ha : BurAgree us g h) :
    BurAgree [] g (undoRegs us h) := by
  induction us generalizing h with
  | nil => exact ha
  | cons u us ih => exact ih (fun v hv => hu v (List.mem_cons_of_mem _ hv)) (ha.undoReg (hu u List.mem_cons_self))

/-- Groups with the same Burhus registers have the same ones after the same notes are undone. -/
theorem burAgree_undoRegs {g h : Group} (us : List BUndo) (ha : Group.BurAgree [] g h) : Group.BurAgree [] (undoRegs us g) (undoRegs us h) := by
  induction us generalizing g h with
  | nil => exact ha
  | cons u us ih =>
    refine ih ?_
    obtain ⟨hx, hc⟩ := ha
    obtain ⟨isC, key, old⟩ := u
    cases isC with
    | true => exact ⟨hx, fun n hn => by simp only [if_true, SMap.get_set, hc n (by simp)]⟩
    | false =>
      refine ⟨fun n hn => ?_, hc⟩
      show SMap.get 0 (SMap.set 0 h.x key old) n = SMap.get 0 (SMap.set 0 g.x key old) n
      rw [SMap.get_set, SMap.get_set, hx n (by simp)]

/-- What a rollback notes of a write is the register's value before. -/
theorem notes_undoOf {g : Group} {cls : RegCls} {reg slot lane : Nat} {u : BUndo} (h : u ∈ undoOf g cls reg slot lane) : u.Notes g := by
  cases cls with
  | x => rw [List.mem_singleton.mp h]; rfl
  | c =>
    rw [List.mem_singleton.mp h]
    show ((BitVec.ofBool (g.getC slot lane reg)).setWidth 64).getLsbD 0 = g.getC slot lane reg
    cases g.getC slot lane reg <;> rfl
  | s | v | p | q | b | a => cases h

/-- Writes of Burhus registers change no register but those that their notes name. -/
theorem burAgree_putAll (ctx : Nat) {ws : List RegWr} (hw : ∀ w ∈ ws, w.cls = .x ∨ w.cls = .c) {g h : Group} {us : List BUndo} (ha : Group.BurAgree us g h)
    (hn : ∀ w ∈ ws, ∀ u ∈ undoOf g w.cls w.reg w.slot w.lane, u ∈ us) : Group.BurAgree us g (Group.putAll ctx ws h) := by
  induction ws generalizing h with
  | nil => exact ha
  | cons w ws ih =>
    refine ih (fun v hv => hw v (List.mem_cons_of_mem _ hv)) ?_ (fun v hv => hn v (List.mem_cons_of_mem _ hv))
    obtain ⟨hx, hc⟩ := ha
    have hn := hn w List.mem_cons_self
    obtain ⟨cls, reg, slot, lane, val⟩ := w
    obtain rfl | rfl := hw _ List.mem_cons_self
    · refine ⟨fun n hk => ?_, hc⟩
      exact (SMap.get_set_ne _ _ _ (Ne.symm (hk _ (hn _ List.mem_cons_self) rfl))).trans (hx n hk)
    · refine ⟨hx, fun n hk => ?_⟩
      exact (SMap.get_set_ne _ _ _ (Ne.symm (hk _ (hn _ List.mem_cons_self) rfl))).trans (hc n hk)

/-- Settles O32: the notes of the writes give the registers before them, and the older notes find those. -/
theorem rollbackRestoresRegisters : Obligations.RollbackRestoresRegisters := by
  intro k ws s g c h hw
  let us := (ws.flatMap fun w => undoOf g w.cls w.reg w.slot w.lane).reverse
  let u : Crew := { c with region := { c.region with undo := us ++ c.region.undo } }
  let g' : Group := { Group.putAll c.ctx ws g with running := some u }
  have hp : Group.BurAgree us g g' := burAgree_putAll c.ctx hw ⟨fun _ _ => rfl, fun _ _ => rfl⟩ fun w hw v hv =>
    List.mem_reverse.mpr (List.mem_flatMap.mpr ⟨w, hw, hv⟩)
  have hn : ∀ v ∈ us, v.Notes g := fun v hv =>
    have ⟨_, _, hv⟩ := List.mem_flatMap.mp (List.mem_reverse.mp hv)
    notes_undoOf hv
  obtain ⟨hx, hc⟩ := burAgree_undoRegs c.region.undo (hp.undoRegs hn)
  refine ⟨g', u, by rw [putBur_eq h]; exact State.crew_setGroup_self .., fun slot lane n => ?_⟩
  rw [show u.region.undo = us ++ c.region.undo from rfl, undoRegs_append]
  exact ⟨hx (xKey slot lane n) (by simp), hc (xKey slot lane n) (by simp)⟩

end Sys2Proof.Machine
end

section
/-!
PROOFS. The events that move the crews of a core (03 R52; 14 R289, R291, R301, R306).
-/
namespace Sys2Proof.Machine

/-! ## Groups and crews -/

theorem State.crew_of_group {s : State} {k : Nat} {g : Group} {c : Crew} (hg : s.group k = some g) (hr : g.running = some c) : s.crew k = some (g, c) :=
  State.crew_eq_some.mpr ⟨hg, hr⟩

theorem State.group_of_crew {s : State} {k : Nat} {g : Group} {c : Crew} (h : s.crew k = some (g, c)) : s.group k = some g := (State.crew_eq_some.mp h).1

theorem State.running_of_crew {s : State} {k : Nat} {g : Group} {c : Crew} (h : s.crew k = some (g, c)) : g.running = some c :=
  (State.crew_eq_some.mp h).2

theorem State.crew_of_idle {s : State} {k : Nat} {g : Group} (hg : s.group k = some g) (hr : g.running = none) : s.crew k = none := by
  simp only [State.crew, hg, hr, Option.map_none]

theorem State.group_modGroup {s : State} {k : Nat} {g : Group} (hg : s.group k = some g) (f : Group → Group) : (s.modGroup k f).group k = some (f g) :=
  (State.group_modGroup_self ..).trans (congrArg _ hg)

theorem State.modGroup_eq_setGroup {s : State} {k : Nat} {g : Group} (hg : s.group k = some g) (f : Group → Group) : s.modGroup k f = s.setGroup k (f g) := by
  simp only [State.modGroup, hg]

/-! ## Ready entries (14 R288) -/

/-- A main frontier with crews that become ready behind its entries. -/
def Group.withReady (g : Group) (rs : List Ready) : Group := { g with frontier := { g.frontier with ready := g.frontier.ready ++ rs } }

/-- The resumption entry of a crew that becomes ready. -/
def resumption (t : Nat) (c : Crew) : Ready := { crew := c, whole := false, since := t }

theorem group_pushReady {s : State} {k : Nat} {g : Group} (hg : s.group k = some g) {c : Crew} (hc : c.handler = false) (whole : Bool) :
    (pushReady k c whole s).group k = some (g.withReady [{ crew := c, whole := whole, since := s.cycle }]) := by
  rw [pushReady, State.group_modGroup hg]
  simp only [hc, Bool.false_eq_true, if_false]
  rfl

@[simp] theorem pushReady_mem (k : Nat) (c : Crew) (whole : Bool) (s : State) : (pushReady k c whole s).mem = s.mem := State.modGroup_mem ..
@[simp] theorem pushReady_cycle (k : Nat) (c : Crew) (whole : Bool) (s : State) : (pushReady k c whole s).cycle = s.cycle := State.modGroup_cycle ..

/-- Crews that become ready in turn stand in the frontier in that order. -/
theorem group_foldS_pushReady {k : Nat} (bs : List (Crew × Wait)) (hb : ∀ b ∈ bs, b.1.handler = false) {s : State} {g : Group} (hg : s.group k = some g) :
    (foldS bs (fun b s => pushReady k b.1 false s) s).group k = some (g.withReady (bs.map fun b => resumption s.cycle b.1)) := by
  induction bs generalizing s g with
  | nil => rw [foldS_nil, hg, List.map_nil, Group.withReady, List.append_nil]
  | cons b bs ih =>
    rw [foldS_cons, ih (fun x hx => hb x (List.mem_cons_of_mem _ hx)) (group_pushReady hg (hb b List.mem_cons_self) false), pushReady_cycle, Group.withReady,
      Group.withReady, List.append_assoc]
    rfl

/-! ## Leaving the core (14 R289) -/

/-- A group whose running crew, of issue context `ctx`, has left. -/
def Group.left (g : Group) (ctx : Nat) : Group := { g with running := none, lastCrew := some ctx, issueAt := max g.issueAt (g.issued + 3) }

theorem group_leaveRunning {s : State} {k : Nat} {g : Group} (hg : s.group k = some g) (ctx : Nat) : (leaveRunning k ctx s).group k = some (g.left ctx) :=
  State.group_modGroup hg _

/-- A crew that waits leaves the core and stands behind the blocked crews. -/
theorem switchOut_of_hold {s : State} {k : Nat} {g : Group} {c : Crew} {w : Wait} (h : s.crew k = some (g, c)) (hw : c.hold = some w)
    (hs : g.stopReq = false) : switchOut k s = pushBlocked k { c with hold := none } w (leaveRunning k c.ctx s) := by
  simp only [switchOut, h, hw, hs, Bool.false_and, Bool.false_eq_true, if_false]

theorem switchOut_of_idle {s : State} {k : Nat} {g : Group} (hg : s.group k = some g) (hr : g.running = none) : switchOut k s = s := by
  simp only [switchOut, State.crew_of_idle hg hr]

theorem exec_crewSelect (k : Nat) (s : State) : exec (.crewSelect k) s = .next (select k (switchOut k s)) := rfl

/-! ## Selection (14 R289, R291) -/

theorem nestedCands_of_none {s : State} {g : Group} (h : g.nested = none) : nestedCands s g = [] := by rw [nestedCands, h]

/-- An empty frontier has no entry to select. -/
theorem candidates_empty (s : State) (g : Group) (b : Bool) : Frontier.candidates {} s g b = [] := by
  show ([] : List Cand) ++ (if _ then [] else []) = []
  rw [ite_self, List.append_nil]

/-- A core with nothing to select stays as it is. -/
theorem select_of_empty {s : State} {k : Nat} {g : Group} (hg : s.group k = some g) (hn : g.nested = none) (hf : g.frontier = {}) : select k s = s := by
  simp only [select, hg, nestedCands_of_none hn, mainCands, hf, candidates_empty]
  split
  · rfl
  · simp [select.pickTurn, pickCand]

/-- A resumption that may be selected: it has not yielded, and nothing that it has asked for is late. -/
structure Ready.Free (r : Ready) : Prop where
  whole : r.whole = false
  yielded : r.crew.yielded = false
  mem : r.crew.mem = []
  accepting : r.crew.accepting = []
  inflight : r.crew.inflight = []

theorem Ready.Free.not_late {r : Ready} (h : r.Free) (t : Nat) : r.crew.late t = false := by
  simp [Crew.late, h.mem, h.accepting, h.inflight]

/-- Two resumptions that may be selected are the entries that the frontier has. -/
theorem candidates_pair {s : State} {g : Group} {x y : Ready} (hx : x.Free) (hy : y.Free) :
    Frontier.candidates { ready := [x, y] } s g false = [.entry 0 x, .entry 1 y] := by
  simp [Frontier.candidates, hx.not_late, hy.not_late, hx.whole, hy.whole, hx.yielded, hy.yielded, List.range_succ]

/-- The entry of the greater priority, and of equal ones that of the lower entry number, comes first. -/
theorem before_of_prio {a b : Ready} (h : b.crew.prio < a.crew.prio ∨ b.crew.prio = a.crew.prio ∧ a.crew.seg < b.crew.seg) (i j : Nat) :
    (Cand.entry i a).before (.entry j b) true = true ∧ (Cand.entry j b).before (.entry i a) true = false := by
  simp only [Cand.before, Cand.prio, Cand.seg, Bool.true_and]
  rcases h with h | ⟨h, h'⟩
  · simp [h.ne, h.ne', h, h.asymm]
  · simp [h, h'.ne, h'.ne', h', h'.asymm]

theorem landCrew_of_landed {c : Crew} (h : c.inflight = []) (t : Nat) (g : Group) : landCrew t g c = (g, c) := by
  cases c
  cases h
  rfl

/-- A crew with no result in flight that goes on: it runs, and no forced switch-out is pending. -/
theorem group_startCrew_resumed {s : State} {k : Nat} {g : Group} {c : Crew} (hg : s.group k = some g) (hc : c.inflight = []) (t : Nat) :
    (startCrew k c (some t) s).group k = some { g with
      running := some c, forced := false, forcedRun := false, issueAt := max s.cycle (if g.lastCrew = some c.ctx then t + 1 else g.issueAt) } := by
  rw [startCrew, State.group_modGroup hg]
  simp only [landCrew_of_landed hc]
  rfl

/-- The selection of a resumption that holds no result: it runs, and the entries that are left have been passed over once more. -/
theorem group_selectCand_resumption {s : State} {k i : Nat} {g : Group} {r : Ready} (hg : s.group k = some g) (hr : r.Free) :
    ∃ g', (selectCand k false (.entry i r) s).group k = some g' ∧ g'.running = some r.crew ∧
      g'.frontier = ({ g.frontier with ready := g.frontier.ready.eraseIdx i } : Frontier).turned.unyield := by
  have e := group_startCrew_resumed (State.group_modGroup hg fun h => { h with
    frontier := ({ g.frontier with ready := g.frontier.ready.eraseIdx i } : Frontier).turned.unyield
    nested := h.nested.map fun n => { n with frontier := n.frontier.unyield } }) hr.inflight r.since
  refine ⟨_, Eq.trans (congrArg (fun t : State => t.group k) ?_) e, rfl, rfl⟩
  simp only [selectCand, hg, Bool.false_eq_true, if_false, hr.whole]

@[simp] theorem startCrew_mem (k : Nat) (c : Crew) (x : Option Nat) (s : State) : (startCrew k c x s).mem = s.mem := State.modGroup_mem ..

theorem selectCand_resumption_mem {s : State} {k i : Nat} {r : Ready} (hr : r.whole = false) : (selectCand k false (.entry i r) s).mem = s.mem := by
  unfold selectCand
  split
  · rfl
  · simp [hr]

/-- A core whose group has two resumptions to select takes the one that comes first. -/
theorem select_of_pair {s : State} {k i : Nat} {g : Group} {x y a : Ready} (hg : s.group k = some g) (hr : g.running = none) (hs : g.stopReq = false)
    (hf : g.forced = false) (hn : g.nested = none) (hfr : g.frontier = { ready := [x, y] }) (hx : x.Free) (hy : y.Free)
    (hp : pickCand true [.entry 0 x, .entry 1 y] = some (.entry i a)) : select k s = selectCand k false (.entry i a) s := by
  simp [select, hg, hr, hs, nestedCands_of_none hn, mainCands, hfr, candidates_pair hx hy, select.pickTurn, hf, hp, select.startTurn,
    show pickCand true [] = none from rfl]

/-! ## Barriers (14 R301) -/

theorem exec_barrierRelease_group {s : State} {k : Nat} {g : Group} (hg : s.group k = some g) (h0 : 0 < g.atBarG) (hl : g.atBarG = g.live.length)
    (ht : ∃ t, g.barGAt = some t ∧ t ≤ s.cycle) : exec (.barrierRelease k false) s = .next (releaseBar false k s) := by
  obtain ⟨t, hb, ht⟩ := ht
  show Host.Outcome.next _ = _
  simp [hg, hb, ht, barComplete, h0, ← hl]

/-- A group whose barrier has let its crews go. -/
def Group.barrierOver (g : Group) : Group := { g with blocked := g.blocked.filter (fun b => b.2 ≠ .barrier false), atBarG := 0, barGAt := none }

theorem releaseBar_group {s : State} {k : Nat} {g : Group} (hg : s.group k = some g) (hb : ∀ b ∈ g.blocked, b.1.handler = false) :
    (releaseBar false k s).mem = s.mem ∧ (releaseBar false k s).group k =
      some (g.barrierOver.withReady ((g.blocked.filter (fun b => b.2 = .barrier false)).map fun b => resumption s.cycle b.1)) := by
  have e : releaseBar false k s = foldS (g.blocked.filter fun b => b.2 = .barrier false) (fun b s => pushReady k b.1 false s) (s.setGroup k g.barrierOver) := by
    simp only [releaseBar, Bool.false_eq_true, if_false, hg, Group.barrierOver]
    simp
  rw [e]
  exact ⟨foldS_view State.mem (fun b _ s => pushReady_mem ..) _,
    group_foldS_pushReady _ (fun b hb' => hb b (List.mem_filter.mp hb').1) (State.group_setGroup_self ..)⟩

/-! ## Waits (14 R289, R306) -/

theorem waitOver_flag {s : State} {k : Nat} {g : Group} {c : Crew} (f n : Nat) (h : ∀ x ∈ g.crews, x.served = none) :
    waitOver s k g [] c (.flag f n) = true ↔ n ≤ (g.flags.get {} f).count.toNat := by
  have hz : servedCount g f = 0 := by
    unfold servedCount
    generalize g.crews = cs at h
    induction cs with
    | nil => rfl
    | cons x cs ih =>
      rw [List.foldl_cons, h x List.mem_cons_self]
      exact ih fun y hy => h y (List.mem_cons_of_mem _ hy)
  simp [waitOver, hz, Group.flag]

theorem exec_lateResultStall_of_late {s : State} {k : Nat} {g : Group} {c : Crew} (h : s.crew k = some (g, c)) (hl : lateResult s c = true) :
    exec (.lateResultStall k) s = .next (s.modGroup k fun g => { g with issueAt := max g.issueAt (s.cycle + 1) }) := by
  show Host.Outcome.next _ = _
  rw [h]
  exact congrArg _ (if_pos hl)

/-- An entry of the main frontier that has been passed over too often marks the running crew to leave. -/
theorem exec_forcedSwitchOut_of_passed {s : State} {k : Nat} {g : Group} {c : Crew} (h : s.crew k = some (g, c)) (hh : c.handler = false)
    (hf : g.forcedRun = false) (hp : (∃ r ∈ g.frontier.ready, 1024 ≤ r.passes) ∨ ∃ r ∈ g.frontier.records, 1024 ≤ r.passes) :
    exec (.forcedSwitchOut k) s = .next (s.modGroup k fun g => { g with forced := true }) := by
  show Host.Outcome.next _ = _
  have ha : (g.frontier.ready.any (fun r => 1024 ≤ r.passes) || g.frontier.records.any (fun r => 1024 ≤ r.passes)) = true := by simpa using hp
  simp only [h, hh, hf, ha, Bool.false_eq_true, if_false, Bool.not_true, Bool.or_self]

/-- The crew whose wait is over, with the count that it takes where it waited for a flag. -/
def Crew.servedBy (c : Crew) (w : Wait) : Crew := { c with served := match w with | .flag f n => some (f, n) | _ => c.served }

theorem servedBy_handler (c : Crew) (w : Wait) : (c.servedBy w).handler = c.handler := rfl

/-- The oldest blocked crew becomes ready where its wait is over. -/
theorem exec_waitSatisfied_head {s : State} {k : Nat} {g : Group} {c : Crew} {w : Wait} {rest : List (Crew × Wait)} (hg : s.group k = some g)
    (hb : g.blocked = (c, w) :: rest) (hw : waitOver s k g [] c w = true) :
    exec (.waitSatisfied k) s = .next (pushReady k (c.servedBy w) false (s.setGroup k { g with blocked := rest })) := by
  show Host.Outcome.next _ = _
  rw [hg]
  simp only [hb, firstOver, hw, if_true]
  cases w <;> rfl

/-- Settles O33: each event by the lemma on what it does to its group. -/
theorem crewEvents : Obligations.CrewEvents := by
  refine ⟨fun s k g c h hl => ?late, fun s k g c w h hw hs hf hn => ?blocked, fun s k g a b hg hr hs hfo hn hf hfree hp => ?selected,
    fun s k g c h hh hfr hp => ?passed, fun s k g c h hfr => ?forcedRun, fun s k g c w rest hg hb hh hw => ?satisfied, fun s k g c => ?waits,
    fun s k g hg h0 hl ht hb => ?barrier⟩
  case late =>
    obtain ⟨hg, hr⟩ := State.crew_eq_some.mp h
    exact ⟨_, _, exec_lateResultStall_of_late h hl, State.modGroup_mem .., State.crew_of_group (State.group_modGroup hg _) hr, rfl⟩
  case blocked =>
    have hg : (switchOut k s).group k = some { g.left c.ctx with blocked := g.blocked ++ [({ c with hold := none }, w)] } := by
      rw [switchOut_of_hold h hw hs]
      exact State.group_modGroup (group_leaveRunning (State.group_of_crew h) _) _
    refine ⟨switchOut k s, _, (exec_crewSelect ..).trans (congrArg _ (select_of_empty hg hn hf)), ?_, hg, rfl, rfl, hf⟩
    rw [switchOut_of_hold h hw hs]
    exact (State.modGroup_mem ..).trans (State.modGroup_mem ..)
  case selected =>
    have free : ∀ r ∈ [a, b], r.Free := fun r hr =>
      have ⟨h₁, h₂, h₃, h₄, h₅⟩ := hfree r hr
      ⟨h₁, h₂, h₃, h₄, h₅⟩
    have ha : a.Free := free a (by simp)
    have hb : b.Free := free b (by simp)
    have pass : ({ ready := [b] } : Frontier).turned.unyield = { ready := [{ b with passes := b.passes + 1 }] } := by
      obtain ⟨⟨⟩, whole, passes, since⟩ := b
      obtain ⟨rfl, rfl, rfl, rfl, rfl⟩ := hb
      rfl
    have run : ∀ i, select k s = selectCand k false (.entry i a) s → ({ g.frontier with ready := g.frontier.ready.eraseIdx i } : Frontier) = { ready := [b] } →
        ∃ t g', exec (.crewSelect k) s = .next t ∧ t.mem = s.mem ∧ t.group k = some g' ∧ g'.running = some a.crew ∧
          g'.frontier = { ready := [{ b with passes := b.passes + 1 }] } := fun i he hi => by
      obtain ⟨g', hg', hr', hf'⟩ := group_selectCand_resumption (i := i) hg ha
      exact ⟨_, g', by rw [exec_crewSelect, switchOut_of_idle hg hr, he], selectCand_resumption_mem ha.whole, hg', hr', by rw [hf', hi, pass]⟩
    obtain hf | hf := hf
    · exact run 0 (select_of_pair hg hr hs hfo hn hf ha hb (by simp [pickCand, before_of_prio hp])) (by rw [hf]; rfl)
    · exact run 1 (select_of_pair hg hr hs hfo hn hf hb ha (by simp [pickCand, before_of_prio hp])) (by rw [hf]; rfl)
  case passed =>
    obtain ⟨hg, hr⟩ := State.crew_eq_some.mp h
    exact ⟨_, exec_forcedSwitchOut_of_passed h hh hfr hp, State.modGroup_mem .., State.crew_of_group (State.group_modGroup hg _) hr⟩
  case forcedRun =>
    show Host.Outcome.next _ = _
    rw [h]
    simp [hfr]
  case satisfied =>
    exact ⟨_, _, _, exec_waitSatisfied_head hg hb hw, pushReady_mem ..,
      group_pushReady (State.group_setGroup_self ..) ((servedBy_handler c w).trans hh) false, rfl, rfl, rfl, rfl⟩
  case waits =>
    refine ⟨fun t => ?_, fun cls n => ?_, rfl, rfl, fun f n => waitOver_flag f n⟩
    · simp [waitOver, and_assoc]
    · exact decide_eq_true_iff
  case barrier =>
    obtain ⟨hm, hg'⟩ := releaseBar_group hg hb
    exact ⟨_, _, exec_barrierRelease_group hg h0 hl ht, hm, hg', rfl, rfl, rfl, rfl⟩

end Sys2Proof.Machine
end

section
/-!
PROOFS. The issue of a native bundle (03 R43 to R45, R50, R58, R66).
-/
namespace Sys2Proof.Machine

/-! ## The operations of a bundle -/

/-- An operation runs in its crew as the step that it is. -/
def RunsAsStep (i : Instr) : Prop := ∀ s, exec i s = .next (opStep i s)

theorem runsAsStep_of_form {i : Instr} {f : Form} (h : formOf i = some f) : RunsAsStep i := exec_of_form h

theorem runsAsStep_of_decS {fm w imx : Nat} {i : Instr} (h : decS fm w imx = .ok (some i)) : RunsAsStep i := by
  rw [decS_eq] at h
  extract_lets op f at h
  split_ifs at h
  · cases h
  · cases h; exact fun _ => rfl
  · split at h
    · next hm => cases h; exact runsAsStep_of_form (formOf_mkShared hm)
    · cases h

theorem runsAsStep_of_decV {fm w imx bcs : Nat} {i : Instr} (h : decV fm w imx bcs = .ok (some i)) : RunsAsStep i := by
  rw [decV_eq] at h
  extract_lets op f at h
  generalize (if op = 0x3A then f.vb.toNat else f.sub.toNat) = src at h
  split_ifs at h
  · cases h
  · split at h
    · next hm => cases h; exact runsAsStep_of_form (formOf_mkShared hm)
    · cases h

theorem runsAsStep_of_decL {fm w imx : Nat} {i : Instr} (h : decL fm w imx = .ok (some i)) : RunsAsStep i := by
  rw [decL_eq] at h
  extract_lets op f at h
  split_ifs at h
  · cases h
  · cases h; exact fun _ => rfl
  · cases h; exact fun _ => rfl
  · split at h
    · next hm => cases h; exact runsAsStep_of_form (formOf_mkShared hm)
    · cases h

theorem runsAsStep_of_decM {w : Nat} {i : Instr} (h : decM w = .ok (some i)) : RunsAsStep i := by
  rw [decM_eq] at h
  extract_lets op f at h
  split_ifs at h <;> cases h <;> exact fun _ => rfl

theorem runsAsStep_of_decB {w imx : Nat} {i : Instr} (h : decB w imx = .ok (some i)) : RunsAsStep i := by
  unfold decB at h
  split at h
  · cases h
  extract_lets op f at h
  clear_value f op
  split at h
  · cases h
  split at h
  · cases h
  split at h
  · cases h
  split at h
  case h_7 => split at h <;> cases h <;> exact fun _ => rfl
  all_goals cases h; exact fun _ => rfl

theorem runsAsStep_of_decX {w : Nat} {bb : Bool} {is : List Instr} (h : decX w bb = .ok is) : ∀ i ∈ is, RunsAsStep i := by
  unfold decX at h
  extract_lets xs xv xvs p at h
  split at h
  · cases h
  · cases h
    rw [List.forall_mem_append]
    constructor
    · split_ifs
      · exact List.forall_mem_singleton.mpr fun _ => rfl
      · exact List.forall_mem_singleton.mpr fun _ => rfl
      · exact List.forall_mem_nil _
    · split_ifs
      · exact List.forall_mem_singleton.mpr fun _ => rfl
      · exact List.forall_mem_singleton.mpr fun _ => rfl
      · exact List.forall_mem_nil _

theorem runsAsStep_of_decY {w : Nat} {i : Instr} (h : decY w = .ok (some i)) : RunsAsStep i := by
  unfold decY at h
  extract_lets op fl k at h
  split_ifs at h <;> cases h <;> exact fun _ => rfl

theorem mem_of_seqSlots {l : List (Except DecErr (Option Instr))} {is : List Instr} (h : seqSlots l = .ok is) {i : Instr} (hi : i ∈ is) :
    .ok (some i) ∈ l := by
  induction l generalizing is with
  | nil => cases h; cases hi
  | cons x l ih =>
    match x with
    | .error e => cases h
    | .ok none => exact List.mem_cons_of_mem _ (ih h hi)
    | .ok (some j) =>
      rw [seqSlots] at h
      generalize hr : seqSlots l = r at h
      match r, h with
      | .ok js, h =>
        cases h
        obtain rfl | hi := List.mem_cons.mp hi
        · exact List.mem_cons_self
        · exact List.mem_cons_of_mem _ (ih hr hi)

/-- Every operation of a bundle that decodes runs as a step of its crew. -/
theorem runsAsStep_of_decodeBundle {fm : Nat} {w : BitVec 512} {b : Bundle} (h : decodeBundle fm w = .ok b) : ∀ i ∈ b.sync.toList ++ b.slots, RunsAsStep i := by
  unfold decodeBundle at h
  extract_lets n imx x v0 v1 bb at h
  split at h
  · cases h
  split at h
  any_goals cases h
  next a xs bs y hs hx hb hy =>
  intro i hi
  simp only [List.mem_append, Option.mem_toList] at hi
  obtain rfl | (hi | hi) | rfl := hi
  · exact runsAsStep_of_decY hy
  · have := mem_of_seqSlots hs hi
    simp only [List.mem_cons, List.not_mem_nil, or_false] at this
    obtain h | h | h | h | h | h := this
    · exact runsAsStep_of_decS h.symm
    · exact runsAsStep_of_decS h.symm
    · exact runsAsStep_of_decV h.symm
    · exact runsAsStep_of_decV h.symm
    · exact runsAsStep_of_decM h.symm
    · exact runsAsStep_of_decL h.symm
  · exact runsAsStep_of_decX hx i hi
  · exact runsAsStep_of_decB hb

/-! ## A group written twice -/

theorem SMap.put_put {α : Type} (m : SMap α) (k : Nat) (v w : α) : (m.put k v).put k w = m.put k w := by
  induction m with
  | nil => simp [SMap.put]
  | cons e m ih =>
    obtain ⟨j, u⟩ := e
    simp only [SMap.put]
    split
    · simp [SMap.put]
    · split
      · simp [SMap.put]
      · next h₁ h₂ => simp only [SMap.put, h₁, h₂, if_false, ih]

theorem State.setGroup_eq_put (s : State) (k : Nat) (g : Group) : s.setGroup k g = { s with cores := s.cores.put k { s.core k with group := some g } } := by
  have hne : ({ s.core k with group := some g } : Core) ≠ {} := fun h => by simpa using congrArg Core.group h
  show { s with cores := SMap.set {} s.cores k { s.core k with group := some g } } = _
  rw [SMap.set, if_neg hne]

theorem State.setGroup_setGroup (s : State) (k : Nat) (g h : Group) : (s.setGroup k g).setGroup k h = s.setGroup k h := by
  rw [State.setGroup_eq_put, State.setGroup_eq_put s k h, State.setGroup, State.core_modCore_self, ← State.setGroup, State.setGroup_eq_put]
  simp only [SMap.put_put]

/-! ## Landing and the twin keep the group's launch -/

theorem put_launch (g : Group) (ctx : Nat) (cls : RegCls) (r sl l : Nat) (v : W64) : (g.put ctx cls r sl l v).launch = g.launch := by cases cls <;> rfl

theorem landCrew_launch (t : Nat) (g : Group) (c : Crew) : (landCrew t g c).1.launch = g.launch := by
  unfold landCrew
  extract_lets due
  generalize due = ls
  show (ls.foldl (fun g l => g.put c.ctx l.cls l.reg l.slot l.lane l.val) g).launch = g.launch
  induction ls generalizing g with
  | nil => rfl
  | cons l ls ih => rw [List.foldl_cons, ih, put_launch]

/-- The launch of the group on a core. -/
def State.launchOn (s : State) (k : Nat) : Option Nat := (s.group k).map Group.launch

theorem launchOn_modGroup (s : State) (k : Nat) {f : Group → Group} (h : ∀ g, (f g).launch = g.launch) : (s.modGroup k f).launchOn k = s.launchOn k := by
  simp [State.launchOn, State.group_modGroup_self, Function.comp_def, h]

theorem landDue_launchOn (k t : Nat) (s : State) : (landDue k t s).launchOn k = s.launchOn k := by
  unfold landDue
  split
  · rfl
  · next g c h =>
    simp only [State.launchOn, State.group_setGroup_self, State.group_of_crew h, Option.map_some, landCrew_launch]

theorem enterTwin_launchOn (k : Nat) (s : State) : (enterTwin k s).launchOn k = s.launchOn k := by
  unfold enterTwin
  split
  · rfl
  split
  · rfl
  split
  · split
    · exact launchOn_modGroup _ _ fun _ => rfl
    · rfl
  · rfl

theorem launch_of_launchOn {s t : State} {k : Nat} {g h : Group} {c d : Crew} (e : t.launchOn k = s.launchOn k) (hs : s.crew k = some (g, c))
    (ht : t.crew k = some (h, d)) : h.launch = g.launch := by
  simpa [State.launchOn, State.group_of_crew hs, State.group_of_crew ht] using e

theorem onlyGroup_landDue (k t : Nat) (s : State) : OnlyGroup k s (landDue k t s) := by
  unfold landDue
  split
  · exact OnlyGroup.refl ..
  · exact OnlyGroup.setGroup ..

theorem onlyGroup_enterTwin (k : Nat) (s : State) : OnlyGroup k s (enterTwin k s) := by
  unfold enterTwin
  split
  · exact OnlyGroup.refl ..
  split
  · exact OnlyGroup.refl ..
  split
  · split
    · exact OnlyGroup.modCrew ..
    · exact OnlyGroup.refl ..
  · exact OnlyGroup.refl ..

theorem OnlyGroup.launch_eq {k : Nat} {s t : State} (h : OnlyGroup k s t) (n : Nat) : t.launch n = s.launch n := by
  obtain ⟨-, -, -, -, -, hp, -⟩ := h
  rw [State.launch, hp]
  rfl

theorem OnlyGroup.asidOf_eq {k : Nat} {s t : State} (h : OnlyGroup k s t) (g : Group) : t.asidOf g = s.asidOf g := by
  rw [State.asidOf, h.launch_eq]
  rfl

theorem OnlyGroup.cycle_eq {k : Nat} {s t : State} (h : OnlyGroup k s t) : t.cycle = s.cycle := by
  obtain ⟨hn, -⟩ := h
  rw [State.cycle, hn]
  rfl

/-! ## The issue -/

/-- A native crew's issue, where its partition is not in pairs mode. -/
theorem exec_bundleIssue_native {s : State} {k : Nat} {g h : Group} {c d : Crew} (hs : s.crew k = some (g, c)) (hf : c.fjoset = true)
    (h₁ : (enterTwin k (landDue k s.cycle { s with focus := k })).crew k = some (h, d)) (hp : (s.part (s.partOfLaunch h.launch)).pairs = false) :
    exec (.bundleIssue k) s = .next (nativeIssue k { s with focus := k }) := by
  have hl : h.launch = g.launch := launch_of_launchOn (s := { s with focus := k }) ((enterTwin_launchOn ..).trans (landDue_launchOn ..)) hs h₁
  rw [hl] at hp
  show Host.Outcome.next _ = _
  rw [hs]
  dsimp only
  rw [if_pos hf, show (State.part { s with focus := k } (State.partOfLaunch { s with focus := k } g.launch)).pairs = false from hp]
  rfl

/-- What the issue of a native crew does that may issue the bundle `w` at its place, in the state `s` in which its results have landed. -/
def issueWord (k : Nat) (g : Group) (c : Crew) (w : BitVec 512) (s : State) : State :=
  if !inL1 s k (s.asidOf g) c.tr c.pc then fetchMiss k c.tr c.pc s
  else match decodeBundle (s.launch g.launch).fmask w with
    | .error e => stopAtOnce k (if e = .illOpcode then .illOpcode else .malformed) s
    | .ok b => issueBundle k c.pc b s

theorem nativeIssue_eq {s : State} {k : Nat} {g : Group} {c : Crew} {w : BitVec 512} (h : (enterTwin k (landDue k s.cycle s)).crew k = some (g, c))
    (hm : mayIssue (enterTwin k (landDue k s.cycle s)) g c = true) (hr : c.rpt = none) (hw : bundleWord (enterTwin k (landDue k s.cycle s)) c c.pc = some w) :
    nativeIssue k s = issueWord k g c w (enterTwin k (landDue k s.cycle s)) := by
  unfold nativeIssue
  extract_lets u
  simp only [u, h, hm, hr, hw, Bool.not_true, Option.isSome_none, Bool.false_and, Bool.or_self, Bool.false_eq_true, if_false, issueWord]
  split
  · rfl
  · split
    · next he => simp [he]
    · next e he hd =>
      rw [hd]
      cases e
      · exact absurd rfl he
      all_goals rfl
    · next hd => rw [hd]

/-- In no delay bundle and no RPT body every operation of the bundle takes effect. -/
theorem liveOps_eq {b : Bundle} (h : b.head = {}) : liveOps b false = b.sync.toList ++ b.slots := by
  simp [liveOps, h]

theorem mem_readsFirst {is : List Instr} {i : Instr} (h : i ∈ readsFirst is) : i ∈ is := by
  simp only [readsFirst, List.mem_append, List.mem_filter] at h
  obtain (⟨h, -⟩ | ⟨h, -⟩) | ⟨h, -⟩ := h <;> exact h

theorem foldS_opStep_eq {is : List Instr} (h : ∀ i ∈ is, RunsAsStep i) (s : State) : foldS is opStep s = is.foldl (fun s i => nextOf (exec i s) s) s := by
  induction is generalizing s with
  | nil => rfl
  | cons i is ih =>
    rw [foldS_cons, List.foldl_cons, h i List.mem_cons_self s, ih fun j hj => h j (List.mem_cons_of_mem _ hj)]
    rfl

/-- The state in which a native bundle's operations run: the crew has issued and counts the bundle. -/
def nativeIssued (k : Nat) (g : Group) (c : Crew) (t : Nat) (s : State) : State :=
  markIssued g.launch (s.setGroup k { g with
    lastCrew := some c.ctx, issued := t
    running := some { c with notBefore := t + 1, region := { c.region with count := c.region.count + 1 } } })

theorem issueBundle_eq {s : State} {k : Nat} {g : Group} {c : Crew} {b : Bundle} (h : s.crew k = some (g, c)) (hr : c.rpt = none) (hd : c.delay = 0)
    (hh : b.head = {}) (hdbg : debugMode s g = false) (ho : overBudget (s.launch g.launch).vbc (b.sync.toList ++ b.slots) = false)
    (hc : c.region.count < 256) (hb : blockedBy s (b.sync.toList ++ b.slots) = none) (hl : laneBusy g (b.sync.toList ++ b.slots) = false)
    (hm : hasCommit b = false) :
    issueBundle k c.pc b s = sequence k c.pc b false (foldS (readsFirst (b.sync.toList ++ b.slots)) opStep (nativeIssued k g c s.cycle s)) := by
  obtain ⟨hg, hrun⟩ := State.crew_eq_some.mp h
  have hn : ¬256 ≤ c.region.count := Nat.not_le.mpr hc
  unfold issueBundle
  simp only [h, hd, hh, hr, hdbg, ho, hb, hl, hm, hn, Nat.lt_irrefl, decide_false, Bool.or_self, liveOps_eq hh, Bool.false_eq_true, if_false, Bool.false_and,
    Option.any_none, profile]
  rw [State.modCrew, State.modGroup_eq_setGroup hg, State.modGroup_eq_setGroup (State.group_setGroup_self ..), State.setGroup_setGroup, hrun]
  simp only [nativeIssued, Option.map_some, hr, Option.any_none, Bool.false_eq_true, if_false]
  rfl

end Sys2Proof.Machine

namespace Sys2Proof.Claims
open Sys2Proof.Machine

/-- Settles O55: the crew issues the word at its place, and the word's operations run as the steps that they are. -/
theorem nativeIssue : Obligations.NativeIssue := by
  intro s k g c w hf s₁ hc hp hm hr _ hd hw
  obtain ⟨⟨g₀, c₀⟩, hs, hf⟩ := Option.map_eq_some_iff.mp hf
  have he : exec (.bundleIssue k) s = .next (issueWord k g c w s₁) :=
    (exec_bundleIssue_native hs hf hc hp).trans (congrArg _ (nativeIssue_eq hc hm hr hw))
  have only : OnlyGroup k { s with focus := k } s₁ := (onlyGroup_landDue ..).trans (onlyGroup_enterTwin ..)
  have ha : s₁.asidOf g = s.asidOf g := only.asidOf_eq g
  have hla : s₁.launch g.launch = s.launch g.launch := only.launch_eq g.launch
  have hcy : s₁.cycle = s.cycle := only.cycle_eq
  refine ⟨fun hl => ?_, fun hl => ⟨fun b hb hh hdbg ho hn hbl hlb hcm => ?_, fun e hb => ?_⟩⟩
  · rw [he, issueWord, ha, hl]
    rfl
  · have hi := issueBundle_eq hc hr hd hh ((congrArg (fun l : Launch => l.record.getLsbD 15) hla).trans hdbg) (by rw [hla]; exact ho) hn hbl hlb hcm
    rw [hcy, foldS_opStep_eq fun i hi => runsAsStep_of_decodeBundle hb i (mem_readsFirst hi)] at hi
    rw [he, issueWord, ha, hl, hla, hb]
    exact congrArg _ hi
  · rw [he, issueWord, ha, hl, hla, hb]
    rfl

end Sys2Proof.Claims
end


section
/-!
PROOFS. The seal that a context with a log beyond 7/8 issues (13 R270), refuted where the table of cores lists a core twice: `coresOf` goes through
the entries of the table, and a core's group is that of its first entry.
-/
namespace Sys2Proof.Machine

/-- A context of recovery with 2 bytes in a log of one byte: beyond 7/8 of its ring, and with no seal in progress. -/
def fullLogCtx : Ctx := { ulc := 2, rph := 2 }

/-- Core 0 stands twice in the table of cores: first without a group, then with one of context 0. No run ends in this state, since the keys of a
table rise; the statement asks for every state. -/
def twiceListed : State := { cores := [(0, {}), (0, { group := some { launch := 0, cluster := 0, gnum := 0 } })], pkg := { ctxs := [(0, fullLogCtx)] } }

/-- The second entry counts among the context's cores. -/
theorem mem_coresOf_twiceListed : 0 ∈ coresOf twiceListed 0 := by decide

/-- What the core reads as its group is the first entry's, so that no crew is asked to stop. -/
theorem group_recoveryReserveSeal_twiceListed (t : State) (h : exec (.recoveryReserveSeal 0) twiceListed = .next t) : t.group 0 = none := by
  cases h
  rfl

/-- Refutes O35: a recovery-reserve seal stops no crew of a core that the table of cores lists twice, without a group first. -/
theorem not_recoveryAndTranslationEvents : ¬ Obligations.RecoveryAndTranslationEvents := by
  unfold Obligations.RecoveryAndTranslationEvents
  rintro ⟨-, -, -, -, -, hseal, -⟩
  obtain ⟨t, hexec, -, -, -, -, hstop⟩ := hseal twiceListed 0 rfl (by decide) rfl
  obtain ⟨g, hg, -⟩ := hstop 0 mem_coresOf_twiceListed
  exact Option.some_ne_none g (hg.symm.trans (group_recoveryReserveSeal_twiceListed t hexec))

end Sys2Proof.Machine
end


section
/-!
PROOFS. The bytes of a line: what each constructor of lines and masks leaves at a byte (05 R106; 11 R228).
-/
namespace Sys2Proof.Machine
open Sys2Proof.Claims

theorem getLsbD_byteOf (l : Line) {i j : Nat} (hj : j < 8) : (byteOf l i).getLsbD j = l.getLsbD (8 * i + j) := by
  rw [byteOf, BitVec.getLsbD_ofNat, show 256 ^ i = 2 ^ (8 * i) by rw [Nat.pow_mul], Nat.testBit_div_two_pow, decide_eq_true hj, Bool.true_and, Nat.add_comm]
  rfl

/-- Two bytes are equal where their eight bits are. -/
theorem byte_ext {a b : Byte} (h : ∀ j < 8, a.getLsbD j = b.getLsbD j) : a = b := BitVec.eq_of_getLsbD_eq h

/-- Eight low bits below a number. -/
theorem testBit_byte_add {b : Nat} (hb : b < 256) (a i j : Nat) (hj : j < 8) :
    (b + 256 * a).testBit (8 * i + j) = if i = 0 then b.testBit j else a.testBit (8 * (i - 1) + j) := by
  rw [Nat.add_comm, show 256 = 2 ^ 8 from rfl, Nat.testBit_two_pow_mul_add a hb]
  cases i with
  | zero => rw [Nat.mul_zero, Nat.zero_add, if_pos hj, if_pos rfl]
  | succ i => rw [if_neg (by omega), if_neg (Nat.succ_ne_zero i), show 8 * (i + 1) + j - 8 = 8 * (i + 1 - 1) + j by omega]

theorem testBit_leNat (bs : List Byte) (i j : Nat) (hj : j < 8) : (leNat bs).testBit (8 * i + j) = (bs.getD i 0).getLsbD j := by
  induction bs generalizing i with
  | nil => simp [leNat]
  | cons b bs ih =>
    rw [leNat, testBit_byte_add b.isLt _ _ _ hj]
    cases i with
    | zero => rfl
    | succ i => exact ih i

theorem testBit_maskBits (n m i j : Nat) (hi : i < n) (hj : j < 8) : (maskBits n m).testBit (8 * i + j) = m.testBit i := by
  induction n generalizing m i with
  | zero => exact absurd hi (Nat.not_lt_zero _)
  | succ n ih =>
    have hb : (if m % 2 = 1 then 255 else 0) < 256 := by split <;> decide
    rw [maskBits, testBit_byte_add hb _ _ _ hj]
    cases i with
    | zero =>
      rw [if_pos rfl, Nat.testBit_zero]
      split
      · next h => rw [decide_eq_true h, show 255 = 2 ^ 8 - 1 from rfl, Nat.testBit_two_pow_sub_one, decide_eq_true hj]
      · next h => rw [decide_eq_false h, Nat.zero_testBit]
    | succ i =>
      rw [if_neg (Nat.succ_ne_zero i), Nat.add_sub_cancel, ih _ _ (by omega), Nat.testBit_succ]

/-- A merge replaces the masked bytes, and those alone. -/
theorem byteOf_overlay (l d : Line) (m : Mask) {i : Nat} (hi : i < 128) : byteOf (overlay l d m) i = if m.getLsbD i then byteOf d i else byteOf l i := by
  refine byte_ext fun j hj => ?_
  have hm : (BitVec.ofNat 1024 (maskBits 128 m.toNat)).getLsbD (8 * i + j) = m.getLsbD i := by
    rw [BitVec.getLsbD_ofNat, testBit_maskBits _ _ _ _ hi hj, decide_eq_true (by omega), Bool.true_and]
    rfl
  rw [getLsbD_byteOf _ hj, overlay, BitVec.getLsbD_or, BitVec.getLsbD_and, BitVec.getLsbD_and, BitVec.getLsbD_not, hm, decide_eq_true (by omega : 8 * i + j < 1024)]
  cases m.getLsbD i <;> simp [getLsbD_byteOf _ hj]

theorem laid_overlay (l d : Line) (m : Mask) : Laid l (overlay l d m) d m := fun _ hi => byteOf_overlay l d m hi

/-- The byte mask of `n` bytes at offset `o`. -/
theorem getLsbD_maskAt (o n : Nat) {i : Nat} (hi : i < 128) : (maskAt o n).getLsbD i = decide (o ≤ i ∧ i < o + n) := by
  rw [maskAt, BitVec.getLsbD_ofNat, Nat.testBit_shiftLeft, Nat.testBit_two_pow_sub_one, decide_eq_true hi, Bool.true_and, ← Bool.decide_and, decide_eq_decide]
  omega

/-- The bytes of a line that holds `bs` at offset `o`. -/
theorem byteOf_lineAt (o : Nat) (bs : List Byte) {i : Nat} (h : o + i < 128) : byteOf (lineAt o bs) (o + i) = bs.getD i 0 := by
  refine byte_ext fun j hj => ?_
  rw [getLsbD_byteOf _ hj, lineAt, BitVec.getLsbD_ofNat, Nat.testBit_shiftLeft, decide_eq_true (by omega : 8 * (o + i) + j < 1024),
    decide_eq_true (by omega : 8 * (o + i) + j ≥ 8 * o), show 8 * (o + i) + j - 8 * o = 8 * i + j by omega, testBit_leNat _ _ _ hj, Bool.true_and, Bool.true_and]

theorem byteOf_lineOfBytes (bs : List Byte) {i : Nat} (hi : i < 128) : byteOf (lineOfBytes bs) i = bs.getD i 0 := by
  simpa [lineAt, lineOfBytes] using byteOf_lineAt 0 bs (i := i) (by omega)

/-- Byte `i` of the bytes of a number. -/
theorem getD_leBytes (n x : Nat) {i : Nat} (hi : i < n) : (leBytes n x).getD i 0 = BitVec.ofNat 8 (x / 256 ^ i) := by
  induction n generalizing x i with
  | zero => exact absurd hi (Nat.not_lt_zero _)
  | succ n ih =>
    cases i with
    | zero => rw [Nat.pow_zero, Nat.div_one]; rfl
    | succ i => exact (ih _ (Nat.lt_of_succ_lt_succ hi)).trans (by rw [Nat.div_div_eq_div_mul, Nat.pow_succ'])

theorem getD_bytesOfLine (l : Line) {i : Nat} (hi : i < 128) : (bytesOfLine l).getD i 0 = byteOf l i := getD_leBytes 128 l.toNat hi

theorem lineBytes_one (l : Line) (o : Nat) : lineBytes l o 1 = [byteOf l o] := by
  rw [lineBytes, Nat.shiftRight_eq_div_pow, Nat.pow_mul]
  rfl

/-- Bytes laid over a line at an offset. -/
theorem byteOf_overlay_lineAt_mem (l : Line) {o i : Nat} {bs : List Byte} {b : Byte} (h : o + bs.length ≤ 128) (hb : bs[i]? = some b) :
    byteOf (overlay l (lineAt o bs) (maskAt o bs.length)) (o + i) = b := by
  have hi : i < bs.length := (List.getElem?_eq_some_iff.mp hb).1
  rw [byteOf_overlay _ _ _ (by omega), getLsbD_maskAt _ _ (by omega), if_pos (decide_eq_true (by omega)), byteOf_lineAt _ _ (by omega), List.getD_eq_getElem?_getD, hb]
  rfl

theorem byteOf_overlay_lineAt_of_out (l : Line) {o i : Nat} (bs : List Byte) (hi : i < 128) (h : i < o ∨ o + bs.length ≤ i) :
    byteOf (overlay l (lineAt o bs) (maskAt o bs.length)) i = byteOf l i := by
  rw [byteOf_overlay _ _ _ hi, getLsbD_maskAt _ _ hi, if_neg]
  simp only [decide_eq_true_eq]
  omega

end Sys2Proof.Machine
end


section
/-!
PROOFS. Commit points that nothing holds back (03 R57): what they release, and where their crews go on.
-/
namespace Sys2Proof.Machine
open Sys2Proof.Claims

/-! ## The region of a settled crew closes (03 R57 steps 1 to 3) -/

/-- A crew whose region has released what it buffered. -/
def Crew.releasedWith (c : Crew) (fills : SMap (Bool × List EngCmd)) : Crew :=
  { c with region := { c.region with buf := [], released := true, fills0 := fills } }

/-- A group that runs a crew. -/
def Group.run (g : Group) (c : Crew) : Group := { g with running := some c }

/-- A group that closes the region of its running crew, which runs on in the next one. -/
def Group.goesOn (g : Group) (c : Crew) : Group := (closeRegion c g).run (c.nextRegion (closeRegion c g) none)

theorem Group.run_self {g : Group} {c : Crew} (h : g.running = some c) : g.run c = g := by
  cases g
  cases h
  rfl

theorem landDue_of_landed {s : State} {k : Nat} {g : Group} {c : Crew} (h : s.crew k = some (g, c)) (hl : c.inflight = []) (t : Nat) :
    landDue k t s = s.setGroup k g := by
  simp only [landDue, h, landCrew_of_landed hl]
  exact congrArg _ (Group.run_self (State.running_of_crew h))

/-- Traps of full logs are served where some context has one. -/
theorem serveLogTraps_of_none {s : State} (h : ∀ x ∈ s.pkg.ctxs, x.2.logTrap = false) : serveLogTraps s = s := by
  rw [serveLogTraps, List.filter_eq_nil_iff.mpr fun x hx => by simp [h x hx]]
  rfl

theorem exec_commitPoint_of_due {s : State} {k : Nat} {g : Group} {c : Crew} (h : s.crew k = some (g, c)) (hd : c.region.due = true) :
    exec (.commitPoint k) s = .next (serveLogTraps (commitAt k s)) := by
  show Host.Outcome.next _ = _
  rw [h]
  dsimp only
  rw [hd, Bool.true_or, if_pos rfl]

/-- None of the operations of a region swaps banks. -/
def Region.noSwap (r : Region) : Prop := ∀ a b, CommitOp.swap a b ∉ r.ops

theorem Region.noSwap.findSome?_eq_none {α : Type} {r : Region} (h : r.noSwap) {f : CommitOp → Option α} (hf : ∀ o, f o = none ∨ ∃ a b, o = .swap a b) :
    r.ops.findSome? f = none :=
  List.findSome?_eq_none_iff.mpr fun o ho => (hf o).resolve_right fun ⟨a, b, e⟩ => h a b (e ▸ ho)

theorem Region.noSwap.swapOf {r : Region} (h : r.noSwap) : swapOf r = none := by
  refine h.findSome?_eq_none fun o => ?_
  cases o
  case swap a b => exact .inr ⟨a, b, rfl⟩
  all_goals exact .inl rfl

/-- A closing crew that waits for nothing and raises no fault releases its region. -/
theorem commitAt_of_closing {s : State} {k : Nat} {g : Group} {c : Crew} (h : Closing s k g c) (hf : closingFault s g c = none) (hs : c.region.noSwap)
    (hn : regionRecs c.region = 0) : commitAt k s = commitRegion k (s.setGroup k g) := by
  obtain ⟨⟨hc, hi, hm, ha, hcp, hrt, hlf, hlog, -⟩, -, -, hlat, hcon, -⟩ := h
  have hc' : (s.setGroup k g).crew k = some (g, c) := State.crew_of_group (State.group_setGroup_self ..) (State.running_of_crew hc)
  have hready : commitReady (s.setGroup k g) g c = true := by
    simp only [commitReady, hi, hm, ha, hcp, hrt, List.isEmpty_nil, List.all_nil, Bool.not_false, Bool.and_self, Bool.true_and]
    exact congrArg Bool.not hlog
  have hf' : closingFault (s.setGroup k g) g c = none := hf
  simp only [commitAt, landDue_of_landed hc hi, hc', hready, hlf, hlat, hcon, hf', hn, recsHeld, Nat.lt_irrefl, decide_false, Bool.and_false,
    Bool.false_and, Bool.not_true, Bool.false_eq_true, if_false]
  rw [hs.findSome?_eq_none]
  intro o
  cases o
  case swap a b => exact .inr ⟨a, b, rfl⟩
  all_goals exact .inl rfl

/-! ## The region closes (03 R57 steps 4 and 5) -/

/-- An accumulator that a region named, as its commit point leaves it (10 R199). -/
def Accum.imaged (a : Accum) (named : Bool) : Accum := if named then { a with image := a.live, active := false } else a

/-- An issue context with its region's flags in FPF, and its registers in the shadow. -/
def IssueCtx.committed (x : IssueCtx) (r : Region) : IssueCtx :=
  { x with fpf := r.fpfAfter x.fpf, shadow := { q := x.q, b := x.b, lp0 := x.lp0, lp1 := x.lp1 } }

theorem closeRegion_eq (c : Crew) (g : Group) : closeRegion c g = { g with
    ctxs := g.ctxs.set {} c.ctx ((g.ctx c.ctx).committed c.region), z0 := g.z0.imaged (c.region.zNamed.getLsbD 0), z1 := g.z1.imaged (c.region.zNamed.getLsbD 1) } := by
  unfold closeRegion onNamed
  cases c.region.zNamed.getLsbD 0 <;> cases c.region.zNamed.getLsbD 1 <;> rfl

theorem publish_nil (k : Nat) (g : Group) (s : State) : publish k g [] s = s := by
  unfold publish
  split <;> rfl

theorem sendOf_send {c : Crew} {l : List (Nat × Nat × Nat)} (h : c.region.ops = [.send l]) : sendOf c = some l := by
  rw [sendOf, h]
  rfl

theorem sendOf_nil {c : Crew} (h : c.region.ops = []) : sendOf c = none := by
  rw [sendOf, h]
  rfl

/-- The group and its crew where a released region closes. -/
theorem closeRegion_run (c : Crew) (g : Group) (fills : SMap (Bool × List EngCmd)) :
    closeRegion (c.releasedWith fills) (g.run (c.releasedWith fills)) = (closeRegion c g).run (c.releasedWith fills) := by
  rw [closeRegion_eq, closeRegion_eq]
  rfl

section
variable {s : State} {k asid : Nat} {g : Group} {c : Crew} {fills f : SMap (Bool × List EngCmd)} (hp : c.region.pushed = []) (ht : c.region.popped = [])
  (hf : c.fjoset = false)
include hp ht hf

/-- A segment end places the strands of a Burhus crew whose region took and gave no FIFO entry. -/
theorem closeCommit_send {l : List (Nat × Nat × Nat)} (ho : c.region.ops = [.send l]) :
    closeCommit k asid c.region f (s.setGroup k (g.run (c.releasedWith fills))) =
      placeStrands k (c.nextRegion (closeRegion c g) none) l (s.setGroup k ((closeRegion c g).run (c.releasedWith fills))) := by
  have hc : (s.setGroup k (g.run (c.releasedWith fills))).crew k = some (g.run (c.releasedWith fills), c.releasedWith fills) :=
    State.crew_of_group (State.group_setGroup_self ..) rfl
  simp only [closeCommit, hc, hp, ht, publish_nil, State.modGroup_eq_setGroup (State.group_setGroup_self ..), State.setGroup_setGroup, retirePops, List.foldl_nil,
    closeRegion_run, State.group_setGroup_self, Option.getD_some, show (c.releasedWith fills).fjoset = false from hf, Bool.false_and, Bool.false_eq_true, if_false, ho,
    swapOf, sendOf_send (l := l)]
  rfl

/-- With no operation to perform the crew runs on, where nothing asks it to leave. -/
theorem closeCommit_nil (ho : c.region.ops = []) (hs : g.stopReq = false) (hfo : g.forced = false) :
    closeCommit k asid c.region f (s.setGroup k (g.run (c.releasedWith fills))) = s.setGroup k (g.goesOn c) := by
  have hc : (s.setGroup k (g.run (c.releasedWith fills))).crew k = some (g.run (c.releasedWith fills), c.releasedWith fills) :=
    State.crew_of_group (State.group_setGroup_self ..) rfl
  have hstay : (((closeRegion c g).run (c.releasedWith fills)).stopReq || ((closeRegion c g).run (c.releasedWith fills)).forced) = false := by
    rw [closeRegion_eq]
    exact (congrArg₂ or hs hfo)
  simp only [closeCommit, hc, hp, ht, publish_nil, State.modGroup_eq_setGroup (State.group_setGroup_self ..), State.setGroup_setGroup, retirePops, List.foldl_nil,
    closeRegion_run, State.group_setGroup_self, Option.getD_some, show (c.releasedWith fills).fjoset = false from hf, Bool.false_and, Bool.false_eq_true, if_false, ho,
    swapOf, sendOf_nil, List.any_nil, List.findSome?_nil, List.contains_nil, false_and, afterCommit, hstay]
  rfl

end

/-! ## The release of the region (03 R57 step 3) -/

theorem releaseStep_eq {s s₁ : State} {k : Nat} {g g₁ : Group} {c : Crew} (hr : c.region.released = false) (hs : c.region.noSwap)
    (h : foldS c.region.buf (releaseEntry k (s.asidOf g)) s = s₁) (h₁ : s₁.crew k = some (g₁, c)) :
    releaseStep k g c.region s = s₁.setGroup k (g₁.run (c.releasedWith g.fills)) := by
  obtain ⟨hg₁, hrun⟩ := State.crew_eq_some.mp h₁
  simp only [releaseStep, hr, hs.swapOf, h, Bool.false_eq_true, if_false]
  rw [State.modRegion, State.modCrew, State.modGroup_eq_setGroup hg₁, hrun]
  rfl

/-- A segment end asks for nothing and performs nothing before the region closes. -/
theorem performOps_send {s : State} {k : Nat} {g : Group} (hg : s.group k = some g) (hr : riding .op s k = false) (ctx asid kh : Nat) (l : List (Nat × Nat × Nat)) :
    performOps k ctx asid kh [.send l] false s = (s.setGroup k g, [], false, []) := by
  have hask : askOp k asid (.send l) s = s := rfl
  simp only [performOps, prepOp, opStalled, hask, hr, performOp, Bool.not_false, Bool.false_and, Bool.and_false, Bool.false_eq_true, if_false, List.foldl_nil,
    State.modGroup_eq_setGroup hg]

section
variable {s s₁ : State} {k : Nat} {g g₁ : Group} {c : Crew} (h : s.crew k = some (g, c)) (hr : c.region.released = false) (hd : c.region.opsDone = 0)
  (ha : c.region.asked = false) (hfold : foldS c.region.buf (releaseEntry k (s.asidOf g)) s = s₁) (h₁ : s₁.crew k = some (g₁, c))
include h hr hd ha hfold h₁

theorem commitRegion_nil (ho : c.region.ops = []) :
    commitRegion k s = closeCommit k (s.asidOf g) c.region g.fills (s₁.setGroup k (g₁.run (c.releasedWith g.fills))) := by
  have hs : c.region.noSwap := fun a b hm => by simp [ho] at hm
  simp only [commitRegion, h, releaseStep_eq hr hs hfold h₁, hd, ha, ho, hr, List.drop_zero, Bool.false_eq_true, if_false, performOps]

theorem commitRegion_send {l : List (Nat × Nat × Nat)} (ho : c.region.ops = [.send l])
    (hride : riding .op (s₁.setGroup k (g₁.run (c.releasedWith g.fills))) k = false) :
    commitRegion k s = closeCommit k (s.asidOf g) c.region g.fills (s₁.setGroup k (g₁.run (c.releasedWith g.fills))) := by
  have hs : c.region.noSwap := fun a b hm => by simp [ho] at hm
  simp only [commitRegion, h, releaseStep_eq hr hs hfold h₁, hd, ha, ho, hr, List.drop_zero, Bool.false_eq_true, if_false,
    performOps_send (State.group_setGroup_self ..) hride, State.setGroup_setGroup]

end

/-! ## The crew runs on -/

theorem closingFault_nil {s : State} {g : Group} {c : Crew} (ho : c.region.ops = []) : closingFault s g c = none := by
  simp only [closingFault, sendOf_nil ho, ho, Option.getD_none, List.filter_nil, ne_eq, not_true_eq_false, if_false, List.findSome?_nil]

/-- The commit point of a closing crew that performs no operation: what the region's release leaves, with the region closed. -/
theorem exec_commitPoint_goesOn {s s₁ : State} {k : Nat} {g g₁ : Group} {c : Crew} (h : Closing s k g c) (ho : c.region.ops = []) (hn : regionRecs c.region = 0)
    (hfold : foldS c.region.buf (releaseEntry k (s.asidOf g)) (s.setGroup k g) = s₁) (h₁ : s₁.crew k = some (g₁, c)) (hs : g₁.stopReq = false)
    (hf : g₁.forced = false) (hx : s₁.pkg.ctxs = s.pkg.ctxs) : exec (.commitPoint k) s = .next (s₁.setGroup k (g₁.goesOn c)) := by
  have hat := commitAt_of_closing h (closingFault_nil ho) (fun a b hm => by simp [ho] at hm) hn
  obtain ⟨⟨hc, -, -, -, -, -, -, -, hlog⟩, hdue, hfj, -, -, hp, ht, hr, hd, ha, -⟩ := h
  have hc₀ : (s.setGroup k g).crew k = some (g, c) := State.crew_of_group (State.group_setGroup_self ..) (State.running_of_crew hc)
  rw [exec_commitPoint_of_due hc hdue, hat, commitRegion_nil hc₀ hr hd ha hfold h₁ ho, closeCommit_nil hp ht hfj ho hs hf, serveLogTraps_of_none]
  intro x hm
  exact hlog x (hx ▸ hm)

theorem crew_setGroup_goesOn (s : State) (k : Nat) (g : Group) (c : Crew) :
    (s.setGroup k (g.goesOn c)).crew k = some (g.goesOn c, c.nextRegion (closeRegion c g) none) := State.crew_of_group (State.group_setGroup_self ..) rfl

theorem goesOn_nextRegion (g : Group) (c : Crew) : GoesOn (g.goesOn c) c (c.nextRegion (closeRegion c g) none) := rfl

/-- What closing a region leaves of a group beside the issue context and the accumulators. -/
theorem Group.goesOn_eq (g : Group) (c : Crew) : g.goesOn c = { g with
    ctxs := g.ctxs.set {} c.ctx ((g.ctx c.ctx).committed c.region), z0 := g.z0.imaged (c.region.zNamed.getLsbD 0), z1 := g.z1.imaged (c.region.zNamed.getLsbD 1)
    running := some (c.nextRegion (closeRegion c g) none) } := by
  rw [Group.goesOn, Group.run, closeRegion_eq]

theorem Group.ctx_goesOn (g : Group) (c : Crew) : (g.goesOn c).ctx c.ctx = (g.ctx c.ctx).committed c.region := by
  rw [Group.goesOn_eq]
  exact SMap.get_set_self ..

theorem Group.acc_goesOn (g : Group) (c : Crew) (z : Bool) : (g.goesOn c).acc z = (g.acc z).imaged (c.region.zNamed.getLsbD z.toNat) := by
  rw [Group.goesOn_eq]
  cases z <;> rfl

theorem Accum.imaged_spec (a : Accum) (named : Bool) : (a.imaged named).live = a.live ∧ (a.imaged named).holder = a.holder ∧
    if named then (a.imaged named).image = a.live ∧ (a.imaged named).active = false
    else (a.imaged named).image = a.image ∧ (a.imaged named).active = a.active := by
  cases named <;> exact ⟨rfl, rfl, rfl, rfl⟩

theorem releaseEntry_sts {s : State} {k : Nat} {g : Group} (hg : s.group k = some g) (asid a : Nat) (bs : List Byte) (hm : g.modeOf (a / 2 ^ 15 % 16) = some 1) :
    releaseEntry k asid (.sts [(a, bs)]) s = s.setGroup k { g with scratch := g.scratch.setList 0 a bs } := by
  have hm' : g.modeOf (fld 18 15 a) = some 1 := by rwa [fld_eq_div]
  show (match s.group k with
    | none => s
    | some g => _) = _
  rw [hg]
  exact if_pos hm'

theorem crew_of_closing {s : State} {k : Nat} {g : Group} {c : Crew} (h : Closing s k g c) : s.crew k = some (g, c) := h.1.1

/-- Nothing keeps the crew from running on. -/
theorem stays_of_closing {s : State} {k : Nat} {g : Group} {c : Crew} (h : Closing s k g c) : g.stopReq = false ∧ g.forced = false := by
  obtain ⟨-, -, -, -, -, -, -, -, -, -, -, hs, hf⟩ := h
  exact ⟨hs, hf⟩

/-- A commit point with nothing to release and nothing to perform. -/
theorem commitPoint_empty {s : State} {k : Nat} {g : Group} {c : Crew} (h : Closing s k g c) (hb : c.region.buf = []) (ho : c.region.ops = []) :
    exec (.commitPoint k) s = .next (s.setGroup k (g.goesOn c)) := by
  have hn : regionRecs c.region = 0 := by rw [regionRecs, hb, ho]; rfl
  have hfold : foldS c.region.buf (releaseEntry k (s.asidOf g)) (s.setGroup k g) = s.setGroup k g := by rw [hb, foldS_nil]
  obtain ⟨hstop, hforce⟩ := stays_of_closing h
  have hrun : g.running = some c := State.running_of_crew (crew_of_closing h)
  rw [exec_commitPoint_goesOn h ho hn hfold (State.crew_of_group (State.group_setGroup_self ..) hrun) hstop hforce rfl, State.setGroup_setGroup]

/-- A commit point that performs a store of the region to scratchpad. -/
theorem commitPoint_sts {s : State} {k : Nat} {g : Group} {c : Crew} {a : Nat} {bs : List Byte} (h : Closing s k g c) (hb : c.region.buf = [.sts [(a, bs)]])
    (ho : c.region.ops = []) (hm : g.modeOf (a / 2 ^ 15 % 16) = some 1) :
    exec (.commitPoint k) s = .next (s.setGroup k (Group.goesOn { g with scratch := g.scratch.setList 0 a bs } c)) := by
  have hn : regionRecs c.region = 0 := by rw [regionRecs, hb, ho]; rfl
  have hfold : foldS c.region.buf (releaseEntry k (s.asidOf g)) (s.setGroup k g) = s.setGroup k { g with scratch := g.scratch.setList 0 a bs } := by
    rw [hb, foldS_cons, foldS_nil, releaseEntry_sts (State.group_setGroup_self ..) _ _ _ hm, State.setGroup_setGroup]
  obtain ⟨hstop, hforce⟩ := stays_of_closing h
  have hrun : g.running = some c := State.running_of_crew (crew_of_closing h)
  rw [exec_commitPoint_goesOn h ho hn hfold (State.crew_of_group (State.group_setGroup_self ..) hrun) hstop hforce rfl, State.setGroup_setGroup]

/-! ## A store to a line of the core's own cache (11 R224, R228) -/

theorem State.hit_congr {s t : State} {k : Nat} (hc : (t.core k).cache = (s.core k).cache) (hg : (t.core k).group = (s.core k).group) (la : Nat) :
    t.hit k la = s.hit k la := by
  have hf : (t.core k).findLine la = (s.core k).findLine la := by rw [Core.findLine, Core.findLine, hc]
  have hw : t.ways k = s.ways k := by rw [State.ways, State.ways, State.group, State.group, hg]
  rw [State.hit, State.hit, hf, hw]

theorem State.hit_eq_some {s : State} {k la : Nat} {x : CLine} :
    s.hit k la = some x ↔ (s.core k).findLine la = some x ∧ (s.ways k).contains x.bank = true := by
  unfold State.hit
  cases h : (s.core k).findLine la with
  | none => simp
  | some y =>
    dsimp only
    split
    · next hy => exact ⟨fun e => Option.some.inj e ▸ ⟨rfl, hy⟩, fun ⟨e, _⟩ => e⟩
    · next hy => exact ⟨fun e => by simp at e, fun ⟨e, hx⟩ => absurd (Option.some.inj e ▸ hx) hy⟩

theorem line_of_hit {s : State} {k la : Nat} {x : CLine} (h : s.hit k la = some x) : x.line = la := by
  simpa using List.find?_some (State.hit_eq_some.mp h).1

/-- A page without a window is cached where the core has a way that holds a line. -/
theorem uncached_of_hit {s : State} {k la : Nat} {x : CLine} (h : s.hit k la = some x) : uncached s k 0 = false := by
  have hw : x.bank ∈ s.ways k := List.contains_iff_mem.mp (State.hit_eq_some.mp h).2
  simp [uncached, List.ne_nil_of_mem hw]

/-- A line of the cache with bytes laid over it, which are dirty there. -/
def CLine.stored (x : CLine) (d : Line) (m : Mask) : CLine := { x with data := overlay x.data d m, valid := x.valid ||| m, dirty := x.dirty ||| m }

/-- The bytes that a store collects for a line are the line's where they are laid over it. -/
theorem CLine.stored_collected (x : CLine) (d : Line) (m : Mask) : x.stored (overlay 0 d m) (0 ||| m) = x.stored d m := by
  simp [CLine.stored, overlay, BitVec.and_assoc]

/-- A write to a line in the cache of a core whose dirty-line FIFO is empty. -/
theorem storeCached_of_hit {s : State} {k la : Nat} {x : CLine} (h : s.hit k la = some x) (hd : (s.core k).dfifo = []) (asid va : Nat) (d : Line) (m : Mask)
    (w : Writer) : storeCached k asid va la d m w s =
      (s.modCore k fun c => { c with dfifo := [.line la w] }).modCore k fun c => c.putLine (x.stored d m) := by
  have hnote : fifoNote k la w s = s.modCore k fun c => { c with dfifo := [.line la w] } := by
    have hroom : fifoRoom k s = s := by rw [fifoRoom, hd, if_neg (by decide)]
    simp only [fifoNote, hd, List.any_nil, Bool.false_and, Bool.not_false, Bool.false_eq_true, if_false, if_true, fifoPush, hroom]
    rw [State.modCore, hd]
    rfl
  have hhit : (s.modCore k fun c => { c with dfifo := [.line la w] }).hit k la = some x := by
    rw [State.hit_congr (s := s) (by rw [State.core_modCore_self]) (by rw [State.core_modCore_self]), h]
  simp only [storeCached, hnote, hhit]
  rfl

theorem isHost_of_isHbm {pa : Nat} (h : isHbm pa = true) : isHost pa = false := by
  have h' : pa < 2 ^ 40 := by simpa [isHbm] using h
  rw [isHost, fld_eq_div, Nat.div_eq_of_lt (by omega)]
  rfl

theorem isPeer_of_isHbm {pa : Nat} (h : isHbm pa = true) : isPeer pa = false := by
  have h' : pa < 2 ^ 40 := by simpa [isHbm] using h
  rw [isPeer, fld_eq_div, Nat.div_eq_of_lt (by omega)]
  rfl

/-- The release of a store of one lane to HBM4 writes the line in the cache, and nothing goes onto the link. -/
theorem releaseStore_of_hit {s : State} {k : Nat} {l : LaneAcc} {x : CLine} (hl : isHbm l.pa = true) (hw : l.widx = 0) (h : s.hit k (lineOf l.pa) = some x)
    (hd : (s.core k).dfifo = []) (asid : Nat) : ∃ w, releaseStore k asid 0 [l] s =
      ((s.modCore k fun c => { c with link := c.link ++ [] }).modCore k fun c => { c with dfifo := [.line (lineOf l.pa) w] }).modCore k fun c =>
        c.putLine (x.stored (lineAt (l.pa % 128) l.bytes) (maskAt (l.pa % 128) l.bytes.length)) := by
  have hh : (s.modCore k fun c => { c with link := c.link ++ [] }).hit k (lineOf l.pa) = some x := by
    rw [State.hit_congr (s := s) (by rw [State.core_modCore_self]) (by rw [State.core_modCore_self]), h]
  have hd' : ((s.modCore k fun c => { c with link := c.link ++ [] }).core k).dfifo = [] := by rw [State.core_modCore_self]; exact hd
  refine ⟨{ asid := some asid, core := k, vline := l.va / 128 }, ?_⟩
  rw [← CLine.stored_collected, ← storeCached_of_hit hh hd' asid l.va]
  simp only [releaseStore, List.filter_cons, List.filter_nil, List.find?_cons, List.find?_nil, hl, hw, isHost_of_isHbm hl, isPeer_of_isHbm hl, Bool.not_true,
    Bool.false_eq_true, if_false, if_true, List.map_nil, List.map_cons, ne_eq, not_true_eq_false, decide_false, List.eraseDups_cons, List.eraseDups_nil, foldS_cons,
    foldS_nil, decide_true, List.head?_cons, List.foldl_cons, List.foldl_nil, storeLine, uncached_of_hit hh]
  rfl

theorem findLine_putLine (c : Core) (x : CLine) : (c.putLine x).findLine x.line = some x := List.find?_cons_of_pos (by simp)

/-- What the release of such a store leaves: the line with the store's bytes, dirty there. -/
theorem releaseStore_leaves {s : State} {k : Nat} {g : Group} {l : LaneAcc} {x : CLine} (hg : s.group k = some g) (hl : isHbm l.pa = true) (hw : l.widx = 0)
    (h : s.hit k (lineOf l.pa) = some x) (hd : (s.core k).dfifo = []) (asid : Nat) {s₁ : State} (h₁ : releaseStore k asid 0 [l] s = s₁) :
    s₁.mem = s.mem ∧ s₁.pkg = s.pkg ∧ s₁.group k = some g ∧ s₁.hit k (lineOf l.pa) =
      some (x.stored (lineAt (l.pa % 128) l.bytes) (maskAt (l.pa % 128) l.bytes.length)) := by
  obtain ⟨w, he⟩ := releaseStore_of_hit hl hw h hd asid
  rw [← h₁, he]
  obtain ⟨-, hways⟩ := State.hit_eq_some.mp h
  refine ⟨rfl, rfl, ?_, State.hit_eq_some.mpr ⟨?_, ?_⟩⟩
  · rw [State.group, State.core_modCore_self, State.core_modCore_self, State.core_modCore_self]
    exact hg
  · rw [State.core_modCore_self, ← line_of_hit h]
    exact findLine_putLine _ _
  · rw [State.ways, State.group, State.core_modCore_self, State.core_modCore_self, State.core_modCore_self]
    exact hways

/-- A commit point that performs a store of the region to a line of the core's own cache. -/
theorem commitPoint_store {s : State} {k : Nat} {g : Group} {c : Crew} {l : LaneAcc} {x : CLine} (h : Closing s k g c) (hb : c.region.buf = [.store 0 [l]])
    (ho : c.region.ops = []) (hl : isHbm l.pa = true) (hw : l.widx = 0) (hd : (s.core k).dfifo = []) (hx : s.hit k (lineOf l.pa) = some x) :
    ∃ t, exec (.commitPoint k) s = .next t ∧ t.mem = s.mem ∧ t.crew k = some (g.goesOn c, c.nextRegion (closeRegion c g) none) ∧ t.hit k (lineOf l.pa) =
      some (x.stored (lineAt (l.pa % 128) l.bytes) (maskAt (l.pa % 128) l.bytes.length)) := by
  have hn : regionRecs c.region = 0 := by
    simp [regionRecs, hb, ho, isHost_of_isHbm hl, isPeer_of_isHbm hl, hw]
  have hrun : g.running = some c := State.running_of_crew (crew_of_closing h)
  have hg : s.group k = some g := State.group_of_crew (crew_of_closing h)
  have hcore : (s.setGroup k g).core k = s.core k := by
    rw [State.setGroup, State.core_modCore_self, ← hg]
    rfl
  have hd₀ : ((s.setGroup k g).core k).dfifo = [] := by rw [hcore, hd]
  have hx₀ : (s.setGroup k g).hit k (lineOf l.pa) = some x := by rw [State.hit_congr (s := s) (by rw [hcore]) (by rw [hcore]), hx]
  obtain ⟨hm, hp, hg₁, hh⟩ := releaseStore_leaves (State.group_setGroup_self ..) hl hw hx₀ hd₀ (s.asidOf g) rfl
  have hfold : foldS c.region.buf (releaseEntry k (s.asidOf g)) (s.setGroup k g) = releaseStore k (s.asidOf g) 0 [l] (s.setGroup k g) := by
    rw [hb, foldS_cons, foldS_nil]
    rfl
  obtain ⟨hstop, hforce⟩ := stays_of_closing h
  refine ⟨_, exec_commitPoint_goesOn h ho hn hfold (State.crew_of_group hg₁ hrun) hstop hforce (congrArg Pkg.ctxs hp), hm, crew_setGroup_goesOn .., ?_⟩
  obtain ⟨hf, hways⟩ := State.hit_eq_some.mp hh
  refine State.hit_eq_some.mpr ⟨?_, ?_⟩
  · rw [State.setGroup, State.core_modCore_self]
    exact hf
  · rw [State.ways, State.group_setGroup_self, Group.goesOn_eq]
    rw [State.ways, hg₁] at hways
    exact hways

end Sys2Proof.Machine
end

section
/-!
PROOFS. Segment ends (14 R290, R294), and what a commit point leaves of its crew there.
-/
namespace Sys2Proof.Machine
open Sys2Proof.Claims

/-! ## Barriers that strands come to (14 R301) -/

/-- A group with other times of release of its barriers. -/
def Group.withBars (g : Group) (a b : Option Nat) : Group := { g with barGAt := a, barKAt := b }

/-- A check of the barriers changes times of release alone. -/
theorem checkBarriers_group {s : State} {k : Nat} {g : Group} (hg : s.group k = some g) : ∃ a b, (checkBarriers k s).group k = some (g.withBars a b) := by
  have hset : ∀ t : Nat, ∀ u : State, (∃ a b, u.group k = some (g.withBars a b)) → ∀ j,
      ∃ a b, (u.modGroup j fun h => { h with barKAt := some t }).group k = some (g.withBars a b) := by
    rintro t u ⟨a, b, h⟩ j
    by_cases hj : k = j
    · subst hj
      exact ⟨a, some t, State.group_modGroup h _⟩
    · exact ⟨a, b, (State.group_modGroup_ne _ _ hj).trans h⟩
  have hg₀ : ∃ a b, s.group k = some (g.withBars a b) := ⟨g.barGAt, g.barKAt, hg⟩
  have hg₁ : ∀ t : Nat, ∃ a b, (s.setGroup k { g with barGAt := some t }).group k = some (g.withBars a b) :=
    fun t => ⟨some t, g.barKAt, State.group_setGroup_self ..⟩
  simp only [checkBarriers, hg]
  split_ifs
  · exact foldS_keeps (fun u => ∃ a b, u.group k = some (g.withBars a b)) (fun j _ u hu => hset _ u hu j) (hg₁ _)
  · exact hg₁ _
  · exact foldS_keeps (fun u => ∃ a b, u.group k = some (g.withBars a b)) (fun j _ u hu => hset _ u hu j) hg₀
  · exact hg₀

/-- Memory and the contexts, which the end of a group leaves as they are. -/
def State.memCtxs (s : State) : Memory × SMap Ctx := (s.mem, s.pkg.ctxs)

/-- Where no context has a trap of its log, none is served in a state of the same contexts. -/
theorem serveLogTraps_of_memCtxs {s t : State} (h : t.memCtxs = s.memCtxs) (hs : ∀ x ∈ s.pkg.ctxs, x.2.logTrap = false) : serveLogTraps t = t := by
  have hc : t.pkg.ctxs = s.pkg.ctxs := congrArg Prod.snd h
  exact serveLogTraps_of_none (hc ▸ hs)

@[simp] theorem modGroup_memCtxs (s : State) (k : Nat) (f : Group → Group) : (s.modGroup k f).memCtxs = s.memCtxs := by
  simp only [State.memCtxs, State.modGroup_mem, State.modGroup_pkg]

@[simp] theorem checkBarriers_memCtxs (k : Nat) (s : State) : (checkBarriers k s).memCtxs = s.memCtxs := by
  cases hg : s.group k with
  | none => simp only [checkBarriers, hg]
  | some g =>
    simp only [checkBarriers, hg]
    split_ifs
    · exact foldS_view State.memCtxs (fun _ _ _ => modGroup_memCtxs ..) _
    · rfl
    · exact foldS_view State.memCtxs (fun _ _ _ => modGroup_memCtxs ..) _
    · rfl

@[simp] theorem unpin_memCtxs (k : Nat) (z : Bool) (of : Nat → Bool) (s : State) : (unpin k z of s).memCtxs = s.memCtxs := by
  unfold unpin
  split
  · rfl
  · extract_lets gone u
    split_ifs
    · rfl
    · refine (modGroup_memCtxs ..).trans (foldS_view State.memCtxs (fun x _ s => ?_) _)
      split <;> rfl

@[simp] theorem boundRun_memCtxs (n : Nat) (s : State) : (boundRun n s).memCtxs = s.memCtxs := by
  have hmod : ∀ f, (s.modLaunch n f).memCtxs = s.memCtxs := fun f => by
    unfold State.modLaunch
    split <;> rfl
  unfold boundRun
  extract_lets l
  split
  · exact hmod _
  · exact hmod _
  · rfl

/-! ## The end of a group (14 R294) -/

/-- A group with live strands stays. -/
theorem groupEnd_of_live {s : State} {k : Nat} {g : Group} (hg : s.group k = some g) (hl : g.live ≠ []) : groupEnd k s = s := by
  simp only [groupEnd, hg, hl, ne_eq, not_false_eq_true, if_true]

@[simp] theorem callPlacement_memCtxs (n : Nat) (s : State) : (callPlacement n s).memCtxs = s.memCtxs := rfl
@[simp] theorem callPlacement_cores (n : Nat) (s : State) : (callPlacement n s).cores = s.cores := rfl
@[simp] theorem unpinAll_memCtxs (k : Nat) (s : State) : (unpinAll k s).memCtxs = s.memCtxs := by rw [unpinAll, unpin_memCtxs, unpin_memCtxs]

@[simp] theorem boundRun_cores (n : Nat) (s : State) : (boundRun n s).cores = s.cores := by
  unfold boundRun
  extract_lets l
  split <;> simp

theorem modLaunch_memCtxs (s : State) (n : Nat) (f : Launch → Launch) : (s.modLaunch n f).memCtxs = s.memCtxs := by
  unfold State.modLaunch
  split <;> rfl

theorem State.group_of_cores {s t : State} (h : t.cores = s.cores) (k : Nat) : t.group k = s.group k := by
  rw [State.group, State.group, State.core, State.core, h]

/-- A group without live strands leaves its core. -/
theorem groupEnd_of_none {s : State} {k : Nat} {g : Group} (hg : s.group k = some g) (hl : g.live = []) :
    (groupEnd k s).group k = none ∧ (groupEnd k s).memCtxs = s.memCtxs := by
  have hgone : ((unpinAll k s).modCore k fun c => { c with group := none }).group k = none := by rw [State.group, State.core_modCore_self]
  have hkept : ((unpinAll k s).modCore k fun c => { c with group := none }).memCtxs = s.memCtxs := unpinAll_memCtxs k s
  simp only [groupEnd, hg, hl, ne_eq, not_true_eq_false, if_false]
  rw [State.group_of_cores (callPlacement_cores ..), callPlacement_memCtxs]
  split_ifs
  · rw [State.group_of_cores (boundRun_cores ..), State.group_of_cores (State.modLaunch_cores ..), boundRun_memCtxs, modLaunch_memCtxs]
    exact ⟨hgone, hkept⟩
  · exact ⟨hgone, hkept⟩

/-! ## Placing strands (14 R290) -/

/-- A group that its running crew leaves at the end of a segment, in core cycle `t`. -/
def Group.leftAt (g : Group) (ctx t : Nat) : Group := { g with running := none, lastCrew := some ctx, issueAt := t + 3 }

/-- The crew of a segment that a Burhus crew goes on in whole. -/
def Crew.inSeg (c : Crew) (g : Group) (strands : List (Nat × Nat)) (e prio pc : Nat) : Crew :=
  { c with
    strands := strands, seg := e, prio := prio, pc := pc, skip := []
    region := { entry := pc, seg := e, openBidx := c.last, opened := true, bur := (e, 0), csr0 := some g.bankCsrs } }

theorem leftAt_withReady (g : Group) (ctx t : Nat) (r : Ready) (a b : Option Nat) :
    let h := ((g.leftAt ctx t).withReady [r]).withBars a b
    h.running = none ∧ h.frontier.records = g.frontier.records ∧ h.frontier.ready = g.frontier.ready ++ [r] ∧ h.live = g.live := ⟨rfl, rfl, rfl, rfl⟩

section
variable {s : State} {k : Nat} {g : Group} {c : Crew} {l : List (Nat × Nat × Nat)} (hg : s.group k = some g) (hf : (s.launch g.launch).fjoset = false)
  (hh : c.handler = false)
include hg hf hh

/-- An intact Burhus crew whose strands all name one segment goes on there whole. -/
theorem placeStrands_whole {e prio pc : Nat} (hi : intactStrands g c.strands = true) (hl : l ≠ []) (he : ∀ y ∈ l, y.2.2 = e) (hx : e ≠ exitMark)
    (hent : entryAt s g c e = some (prio, pc)) : placeStrands k c l s =
      groupEnd k (checkBarriers k (pushReady k (c.inSeg g (l.map fun y => (y.1, y.2.1)) e prio pc) true (s.setGroup k (endStrands [] (g.leftAt c.ctx s.cycle))))) := by
  have hgone : l.filter (fun x => x.2.2 = exitMark) = [] := List.filter_eq_nil_iff.mpr fun y hy => by simp [he y hy, hx]
  have hrest : l.filter (fun x => x.2.2 ≠ exitMark) = l := List.filter_eq_self.mpr fun y hy => by simp [he y hy, hx]
  obtain ⟨x, l', rfl⟩ := List.exists_cons_of_ne_nil hl
  have hsame : (x :: l').all (fun y => y.2.2 = e) = true := List.all_eq_true.mpr fun y hy => decide_eq_true (he y hy)
  have hent' : ∀ h : Group, entryAt (s.setGroup k h) g c e = some (prio, pc) := fun _ => hent
  simp only [placeStrands, hg, hf, hh, hi, Bool.and_false, Bool.false_and, Bool.false_eq_true, if_false, hgone, hrest, State.modGroup_eq_setGroup hg, hsame,
    Bool.and_self, if_true, hent', he x List.mem_cons_self, Crew.inSeg]
  rfl

/-- Strands that all exit leave the live ones. -/
theorem placeStrands_exit (he : ∀ y ∈ l, y.2.2 = exitMark) : placeStrands k c l s =
    groupEnd k (checkBarriers k (s.setGroup k (endStrands (l.map fun y => (y.1, y.2.1)) (g.leftAt c.ctx s.cycle)))) := by
  have hgone : l.filter (fun x => x.2.2 = exitMark) = l := List.filter_eq_self.mpr fun y hy => decide_eq_true (he y hy)
  have hrest : l.filter (fun x => x.2.2 ≠ exitMark) = [] := List.filter_eq_nil_iff.mpr fun y hy => by simp [he y hy]
  simp only [placeStrands, hg, hf, hh, Bool.and_false, Bool.false_and, Bool.false_eq_true, if_false, hgone, hrest, State.modGroup_eq_setGroup hg]
  rfl

end

/-! ## The commit point of a segment end -/

/-- The group that a closing crew leaves at a segment end, with its region closed. -/
def Group.closed (g : Group) (c : Crew) : Group := (closeRegion c g).run (c.releasedWith g.fills)

theorem Group.closed_launch (g : Group) (c : Crew) : (g.closed c).launch = g.launch := by rw [Group.closed, closeRegion_eq]; rfl
theorem Group.closed_live (g : Group) (c : Crew) : (g.closed c).live = g.live := by rw [Group.closed, closeRegion_eq]; rfl
theorem Group.closed_frontier (g : Group) (c : Crew) : (g.closed c).frontier = g.frontier := by rw [Group.closed, closeRegion_eq]; rfl

/-- The end of no strand leaves the live ones. -/
theorem endStrands_nil (g : Group) : endStrands [] g = g := by
  simp only [endStrands, List.any_nil, Bool.not_false, List.filter_true]

theorem exec_commitPoint_send {s : State} {k : Nat} {g : Group} {c : Crew} {l : List (Nat × Nat × Nat)} (h : Closing s k g c) (hb : c.region.buf = [])
    (ho : c.region.ops = [.send l]) (hf : closingFault s g c = none) :
    exec (.commitPoint k) s = .next (serveLogTraps (placeStrands k (c.nextRegion (closeRegion c g) none) l (s.setGroup k (g.closed c)))) := by
  have hn : regionRecs c.region = 0 := by rw [regionRecs, hb, ho]; rfl
  have hat := commitAt_of_closing h hf (fun a b hm => by simp [ho] at hm) hn
  obtain ⟨⟨hc, -⟩, hdue, hfj, -, -, hp, ht, hr, hd, ha, hride, -⟩ := h
  have hc₀ : (s.setGroup k g).crew k = some (g, c) := State.crew_of_group (State.group_setGroup_self ..) (State.running_of_crew hc)
  have hfold : foldS c.region.buf (releaseEntry k ((s.setGroup k g).asidOf g)) (s.setGroup k g) = s.setGroup k g := by rw [hb, foldS_nil]
  rw [exec_commitPoint_of_due hc hdue, hat, commitRegion_send hc₀ hr hd ha hfold hc₀ ho hride, closeCommit_send hp ht hfj ho, State.setGroup_setGroup]
  rfl

/-- A crew that ends its segment raises no fault where each successor is an exit or has an entry. -/
theorem closingFault_send {s : State} {g : Group} {c : Crew} {l : List (Nat × Nat × Nat)} (ho : c.region.ops = [.send l])
    (h : ∀ y ∈ l, y.2.2 = exitMark ∨ (entryAt s g c y.2.2).isSome = true) : closingFault s g c = none := by
  have hbad : l.filter (fun x => decide (x.2.2 ≠ exitMark) && (entryAt s g c x.2.2).isNone) = [] := by
    refine List.filter_eq_nil_iff.mpr fun y hy => ?_
    rcases h y hy with e | e
    · simp [e]
    · simp [Option.isNone_eq_false_iff.mpr e]
  simp only [closingFault, sendOf_send ho, ho, Option.getD_some, hbad, ne_eq, not_true_eq_false, if_false, List.findSome?_cons, List.findSome?_nil]

theorem entryAt_burhus {s : State} {g : Group} {c : Crew} {kn : Kernel} {sg : Seg} {e : Nat} (hf : c.fjoset = false)
    (hk : (s.launch g.launch).kernel = some kn) (hs : kn.segs[e]? = some sg) : entryAt s g c e = some (sg.prio, 0) := by
  simp only [entryAt, hf, hk, hs, Bool.false_eq_true, if_false, Option.bind_some, Option.map_some]

/-- The ready entry of a crew that ends its segment and goes on whole in segment `e`. -/
def wholeReady (s : State) (g : Group) (c : Crew) (l : List (Nat × Nat × Nat)) (e prio : Nat) : Ready :=
  { crew := (c.nextRegion (closeRegion c g) none).inSeg (g.closed c) (l.map fun y => (y.1, y.2.1)) e prio 0, whole := true, since := s.cycle }

/-- A segment end whose strands all go on in one segment. -/
theorem commitPoint_whole {s : State} {k : Nat} {g : Group} {c : Crew} {l : List (Nat × Nat × Nat)} {kn : Kernel} {sg : Seg} {e : Nat} (h : Closing s k g c)
    (hb : c.region.buf = []) (ho : c.region.ops = [.send l]) (hf : (s.launch g.launch).fjoset = false) (hh : c.handler = false)
    (hk : (s.launch g.launch).kernel = some kn) (hs : kn.segs[e]? = some sg) (he : e ≠ exitMark) (hi : intactStrands g c.strands = true) (hl : l ≠ [])
    (hle : ∀ y ∈ l, y.2.2 = e) (hlive : g.live ≠ []) :
    ∃ t a b, exec (.commitPoint k) s = .next t ∧ t.mem = s.mem ∧ t.group k =
      some ((((g.closed c).leftAt c.ctx s.cycle).withReady [wholeReady s g c l e sg.prio]).withBars a b) := by
  have hfj : c.fjoset = false := h.2.2.1
  have hlog : ∀ x ∈ s.pkg.ctxs, x.2.logTrap = false := by
    obtain ⟨⟨-, -, -, -, -, -, -, -, hlog⟩, -⟩ := h
    exact hlog
  have hcf : closingFault s g c = none := closingFault_send ho fun y hy => .inr (by rw [hle y hy, entryAt_burhus hfj hk hs]; rfl)
  set d := c.nextRegion (closeRegion c g) none with hd
  have hg : (s.setGroup k (g.closed c)).group k = some (g.closed c) := State.group_setGroup_self ..
  have hent : entryAt (s.setGroup k (g.closed c)) (g.closed c) d e = some (sg.prio, 0) :=
    entryAt_burhus (kn := kn) hfj (by rw [State.setGroup_launch, Group.closed_launch, hk]) hs
  have hint : intactStrands (g.closed c) d.strands = true := by
    rw [← hi]
    show intactStrands _ c.strands = _
    unfold intactStrands
    rw [Group.closed_live]
  have hplace := placeStrands_whole (c := d) hg (by rw [State.setGroup_launch, Group.closed_launch, hf]) hh hint hl hle he hent
  rw [endStrands_nil, State.setGroup_setGroup, State.setGroup_cycle] at hplace
  have hpush := group_pushReady (s := s.setGroup k ((g.closed c).leftAt d.ctx s.cycle)) (c := d.inSeg (g.closed c) (l.map fun y => (y.1, y.2.1)) e sg.prio 0)
    (State.group_setGroup_self ..) hh true
  obtain ⟨a, b, hbars⟩ := checkBarriers_group hpush
  have hstay := groupEnd_of_live hbars (by rw [Group.withBars, Group.withReady, Group.leftAt, Group.closed_live]; exact hlive)
  have hkept : (checkBarriers k (pushReady k (d.inSeg (g.closed c) (l.map fun y => (y.1, y.2.1)) e sg.prio 0) true
      (s.setGroup k ((g.closed c).leftAt d.ctx s.cycle)))).memCtxs = s.memCtxs :=
    (checkBarriers_memCtxs ..).trans (modGroup_memCtxs ..)
  refine ⟨_, a, b, exec_commitPoint_send h hb ho hcf, ?_, ?_⟩
  all_goals rw [← hd, hplace, hstay, serveLogTraps_of_memCtxs hkept hlog]
  · exact congrArg Prod.fst hkept
  · exact hbars

/-- A segment end at which the last live strands of a group exit. -/
theorem commitPoint_exit {s : State} {k : Nat} {g : Group} {c : Crew} {l : List (Nat × Nat × Nat)} (h : Closing s k g c)
    (hb : c.region.buf = []) (ho : c.region.ops = [.send l]) (hf : (s.launch g.launch).fjoset = false) (hh : c.handler = false)
    (hle : ∀ y ∈ l, y.2.2 = exitMark) (hlive : ∀ x ∈ g.live, ∃ y ∈ l, x = y.2.1 * 64 + y.1) :
    ∃ t, exec (.commitPoint k) s = .next t ∧ t.mem = s.mem ∧ t.group k = none := by
  have hlog : ∀ x ∈ s.pkg.ctxs, x.2.logTrap = false := by
    obtain ⟨⟨-, -, -, -, -, -, -, -, hlog⟩, -⟩ := h
    exact hlog
  have hcf : closingFault s g c = none := closingFault_send ho fun y hy => .inl (hle y hy)
  set d := c.nextRegion (closeRegion c g) none with hd
  have hg : (s.setGroup k (g.closed c)).group k = some (g.closed c) := State.group_setGroup_self ..
  have hplace := placeStrands_exit (c := d) hg (by rw [State.setGroup_launch, Group.closed_launch, hf]) hh hle
  rw [State.setGroup_setGroup, State.setGroup_cycle] at hplace
  obtain ⟨a, b, hbars⟩ := checkBarriers_group (s := s.setGroup k (endStrands (l.map fun y => (y.1, y.2.1)) ((g.closed c).leftAt d.ctx s.cycle)))
    (State.group_setGroup_self ..)
  have hnone : (endStrands (l.map fun y => (y.1, y.2.1)) ((g.closed c).leftAt d.ctx s.cycle)).live = [] := by
    refine List.filter_eq_nil_iff.mpr fun x hx => ?_
    rw [Group.leftAt, Group.closed_live] at hx
    obtain ⟨y, hy, rfl⟩ := hlive x hx
    simp only [Bool.not_eq_true', Bool.not_eq_false, List.any_map, List.any_eq_true]
    exact ⟨y, hy, decide_eq_true rfl⟩
  obtain ⟨hgone, hend⟩ := groupEnd_of_none hbars hnone
  have hkept : (groupEnd k (checkBarriers k (s.setGroup k (endStrands (l.map fun y => (y.1, y.2.1)) ((g.closed c).leftAt d.ctx s.cycle))))).memCtxs = s.memCtxs :=
    hend.trans (checkBarriers_memCtxs ..)
  refine ⟨_, exec_commitPoint_send h hb ho hcf, ?_, ?_⟩
  all_goals rw [← hd, hplace, serveLogTraps_of_memCtxs hkept hlog]
  · exact congrArg Prod.fst hkept
  · exact hgone

/-- Settles O30: a closing crew waits for nothing, so that its commit point releases what the region buffered, closes the region and takes the crew on. -/
theorem commitPoints : Obligations.CommitPoints := by
  refine ⟨?_, ?_, ?_, ?_, ?_⟩
  · intro s k g c h hb ho
    refine ⟨_, _, _, commitPoint_empty h hb ho, rfl, crew_setGroup_goesOn .., goesOn_nextRegion .., ?_, ?_, fun z => ?_, ?_⟩
    · rw [Group.ctx_goesOn]
      rfl
    · rw [Group.ctx_goesOn]
      rfl
    · rw [Group.acc_goesOn]
      exact Accum.imaged_spec ..
    · rw [Group.goesOn_eq]
      exact ⟨rfl, rfl, rfl, rfl, rfl⟩
  · intro s k g c a bs h hb ho hm
    refine ⟨_, _, _, commitPoint_sts h hb ho hm, rfl, crew_setGroup_goesOn .., goesOn_nextRegion .., fun i b hi => ?_, fun j hj => ?_⟩
    · have hlt : i < bs.length := (List.getElem?_eq_some_iff.mp hi).1
      rw [Group.goesOn_eq]
      show SMap.get 0 (SMap.setList 0 g.scratch a bs) (a + i) = b
      rw [SMap.get_setList, if_pos (by omega), Nat.add_sub_cancel_left, List.getD_eq_getElem?_getD, hi]
      rfl
    · rw [Group.goesOn_eq]
      show SMap.get 0 (SMap.setList 0 g.scratch a bs) j = _
      rw [SMap.get_setList, if_neg (by omega)]
  · intro s k g c l x h hb ho hl hw hfit hd hx
    obtain ⟨t, he, hm, hc, hh⟩ := commitPoint_store h hb ho hl hw hd hx
    refine ⟨t, _, _, _, he, hm, hc, goesOn_nextRegion .., hh, rfl, fun i b hi => ?_, fun o ho hout => ?_⟩
    · exact (lineBytes_one ..).trans (congrArg (fun b => [b]) (byteOf_overlay_lineAt_mem _ hfit hi))
    · rw [lineBytes_one, lineBytes_one]
      exact congrArg (fun b => [b]) (byteOf_overlay_lineAt_of_out _ _ ho hout)
  · intro s k g c l kn sg e h hb ho hf hh hk hs he hi hl hle hlive
    obtain ⟨t, a, b, hexec, hm, hg⟩ := commitPoint_whole h hb ho hf hh hk hs he hi hl hle hlive
    obtain ⟨hrun, hrec, hready, hlv⟩ := leftAt_withReady (g.closed c) c.ctx s.cycle (wholeReady s g c l e sg.prio) a b
    refine ⟨t, _, wholeReady s g c l e sg.prio, hexec, hm, hg, hrun, ?_, ?_, rfl, rfl, rfl, rfl, rfl, rfl, ?_⟩
    · rw [hrec, Group.closed_frontier]
    · rw [hready, Group.closed_frontier]
    · rw [hlv, Group.closed_live]
  · intro s k g c l h hb ho hf hh hle hlive
    exact commitPoint_exit h hb ho hf hh hle hlive

end Sys2Proof.Machine
end


section
/-!
PROOFS. The events of a core's memories (07 R143, R149, R151; 11 R230; 04 R91).
-/
namespace Sys2Proof.Machine
open Sys2Proof.Claims

/-! ## FIFO entries become visible; bank modes (07 R143, R151) -/

theorem queue_setQueue_self (g : Group) (b : Nat) (q : Fifo) : (g.setQueue b q).queue b = q := SMap.get_set_self ..
theorem queue_setQueue_ne (g : Group) {b b' : Nat} (q : Fifo) (h : b' ≠ b) : (g.setQueue b q).queue b' = g.queue b' := SMap.get_set_ne _ _ _ h

/-- A FIFO whose entries on their way are due by core cycle `t`. -/
def Fifo.published (q : Fifo) (t : Nat) : Fifo :=
  { q with entries := q.entries ++ (q.inbound.filter fun e => e.1 ≤ t).map Prod.snd, inbound := q.inbound.filter fun e => t < e.1 }

theorem exec_fifoPublication {s : State} {k b : Nat} {g : Group} (hg : s.group k = some g) (hm : g.modeOf b = some 2)
    (hd : ∃ e ∈ (g.queue b).inbound, e.1 ≤ s.cycle) :
    exec (.fifoPublication k b) s = .next (s.setGroup k (g.setQueue b ((g.queue b).published s.cycle))) := by
  have hdue : (g.queue b).inbound.filter (fun e => e.1 ≤ s.cycle) ≠ [] := by
    obtain ⟨e, he, ht⟩ := hd
    exact List.ne_nil_of_mem (List.mem_filter.mpr ⟨he, decide_eq_true ht⟩)
  show Host.Outcome.next _ = _
  rw [hg]
  dsimp only
  rw [if_neg hdue, if_pos hm]
  rfl

theorem exec_bankModeChangeDone {s : State} {k : Nat} {g : Group} (hg : s.group k = some g) : exec (.bankModeChangeDone k) s =
    .next (s.setGroup k { g with changing := g.changing.filter fun b => decide (s.cycle < b.2) }) :=
  congrArg _ (State.modGroup_eq_setGroup hg _)

/-! ## The dirty-line FIFO and the links (07 R149; 11 R230) -/

theorem exec_dirtyLineDrain (k : Nat) (s : State) : exec (.dirtyLineDrain k) s = .next (drainHead k s) := rfl
theorem exec_linkAcknowledgement_ok (k : Nat) (s : State) : exec (.linkAcknowledgement k true) s = .next (linkDone k s) := rfl

/-- The oldest entry, with bytes of its own, goes to its home bank's queue. -/
theorem drainHead_bytes {s : State} {k la : Nat} {d : Line} {m : Mask} {w : Writer} {r : List DEntry} (h : (s.core k).dfifo = .bytes la d m w :: r) :
    drainHead k s = sendMerge k { line := la, data := d, mask := m, w := w } (s.setCore k { s.core k with dfifo := r }) := by
  rw [drainHead, h]
  rfl

theorem sendMerge_core (k j : Nat) (q : MergeReq) (s : State) : (sendMerge k q s).core j = s.core j := rfl

theorem sendMerge_mergeQ (k b : Nat) (q : MergeReq) (s : State) : (sendMerge k q s).pkg.mergeQ.get [] b =
    if b = s.homeBank q.line then s.pkg.mergeQ.get [] b ++ [q] else s.pkg.mergeQ.get [] b := by
  show SMap.get [] (s.pkg.mergeQ.set [] (s.homeBank q.line) (s.pkg.mergeQ.get [] (s.homeBank q.line) ++ [q])) b = _
  rw [SMap.get_set]
  split
  · next h => rw [h]
  · rfl

theorem linkDone_of_up {s : State} {k : Nat} {q : LinkReq} {r : List LinkReq} (h : (s.core k).link = q :: r) (hu : linkUp s q.asid q.pa = true) :
    linkDone k s = (s.modCore k fun c => { c with link := r }).putRaw q.pa q.bytes := by
  rw [linkDone, h]
  exact if_pos hu

theorem exec_linkAcknowledgement_failed {s : State} {k : Nat} {q : LinkReq} {r : List LinkReq} (h : (s.core k).link = q :: r) :
    exec (.linkAcknowledgement k false) s = .next (failLink k q (s.modCore k fun c => { c with link := r })) := by
  show Host.Outcome.next _ = _
  rw [if_neg Bool.false_ne_true, h]

/-- A failed store is kept for the commit point of its kernel, with the address of the first. -/
theorem failLink_group_eq {s : State} {k : Nat} {g : Group} (q : LinkReq) (hg : s.group k = some g) : (failLink k q s).group k =
    some (if g.launch = q.launch then { g with linkFail := true, linkVa := if g.linkFail then g.linkVa else q.va } else g) := by
  simp only [failLink, hg]
  split
  · exact State.group_setGroup_self ..
  · exact hg

/-! ## The reply of the page-fault service (04 R91) -/

theorem mem_coresOf {s : State} {k : Nat} {g : Group} (hg : s.group k = some g) : k ∈ coresOf s (s.asidOf g) := by
  have hne : s.cores.get {} k ≠ {} := fun h => by
    rw [State.group, State.core, h] at hg
    cases hg
  refine List.mem_map.mpr ⟨(k, s.core k), List.mem_filter.mpr ⟨SMap.mem_of_get_ne hne, ?_⟩, rfl⟩
  rw [State.group] at hg
  simp only [hg, decide_true]

/-- Crews that have been woken wait no longer. -/
theorem wakeFaults_idem (va t : Nat) (g : Group) : wakeFaults va t (wakeFaults va t g) = wakeFaults va t g := by
  have hnone : (g.blocked.filter fun b => !faultsAt va b).filter (faultsAt va) = [] := by simp [List.filter_filter]
  have hstay : (g.blocked.filter fun b => !faultsAt va b).filter (fun b => !faultsAt va b) = g.blocked.filter fun b => !faultsAt va b := by
    simp [List.filter_filter]
  simp only [wakeFaults, hnone, hstay, List.map_nil, List.filter_nil, List.append_nil, Option.map_map]
  congr 1

/-- The reply wakes the crews of every core that holds the context, those of core `k` among them. -/
theorem group_foldS_wakeFaults {s : State} {k : Nat} {g : Group} (hg : s.group k = some g) (va : Nat) {ks : List Nat} (hk : k ∈ ks) :
    (foldS ks (fun j s => s.modGroup j (wakeFaults va s.cycle)) s).group k = some (wakeFaults va s.cycle g) := by
  refine foldS_reaches (fun u => u.cycle = s.cycle ∧ (u.group k = some g ∨ u.group k = some (wakeFaults va s.cycle g)))
    (fun u => u.group k = some (wakeFaults va s.cycle g)) hk ?_ ?_ ?_ ⟨rfl, .inl hg⟩
  · rintro j - u ⟨hc, hu⟩
    refine ⟨(State.modGroup_cycle ..).trans hc, ?_⟩
    by_cases hj : k = j
    · subst hj
      rcases hu with h | h
      · exact .inr (by rw [State.group_modGroup h, hc])
      · exact .inr (by rw [State.group_modGroup h, hc, wakeFaults_idem])
    · rw [State.group_modGroup_ne _ _ hj]
      exact hu
  · rintro u ⟨hc, h | h⟩
    · rw [State.group_modGroup h, hc]
    · rw [State.group_modGroup h, hc, wakeFaults_idem]
  · rintro j - u ⟨hc, -⟩ h
    by_cases hj : k = j
    · subst hj
      rw [State.group_modGroup h, hc, wakeFaults_idem]
    · rw [State.group_modGroup_ne _ _ hj, h]

@[simp] theorem modCmd_mem (key n : Nat) (f : EngCmd → EngCmd) (s : State) : (modCmd key n f s).mem = s.mem := rfl
@[simp] theorem modCmd_cores (key n : Nat) (f : EngCmd → EngCmd) (s : State) : (modCmd key n f s).cores = s.cores := rfl

/-- What a reply that maps the page leaves in memory and on the cores: the crews of the address are woken. -/
theorem exec_pageFaultReply_mapped (s : State) (a va : Nat) : ∃ t, exec (.pageFaultReply a va true) s = .next t ∧ t.mem = s.mem ∧
    t.cores = (foldS (coresOf s a) (fun k s => s.modGroup k (wakeFaults (va % 2 ^ 56) s.cycle)) s).cores := by
  refine ⟨_, rfl, ?_, ?_⟩
  all_goals simp only [if_true]
  · rw [foldS_view State.mem fun _ _ _ => modCmd_mem .., foldS_view State.mem fun _ _ _ => State.modLaunch_mem .., foldS_view State.mem fun _ _ _ =>
      State.modGroup_mem ..]
  · rw [foldS_view State.cores fun _ _ _ => modCmd_cores .., foldS_view State.cores fun _ _ _ => State.modLaunch_cores ..]

/-- Where no crew that waits is a handler's, the woken ones stand behind the main frontier. -/
theorem wakeFaults_main {va t : Nat} {g : Group} (hh : ∀ b ∈ g.blocked, b.1.handler = false) :
    (wakeFaults va t g).blocked = g.blocked.filter (fun b => !faultsAt va b) ∧ (wakeFaults va t g).frontier.ready = g.frontier.ready ++
      (g.blocked.filter (faultsAt va)).map fun b => { crew := { b.1 with delivered := none }, whole := false, since := t } := by
  refine ⟨rfl, congrArg _ (List.filter_eq_self.mpr fun r hr => ?_)⟩
  obtain ⟨b, hb, rfl⟩ := List.mem_map.mp hr
  exact congrArg Bool.not (hh b (List.mem_of_mem_filter hb))

/-! ## Memory results (03 R50; 11 R225) -/

theorem sInt_eq_toInt (w x : Nat) : sInt w x = (BitVec.ofNat w x).toInt := by
  rw [BitVec.toInt_eq_toNat_cond, BitVec.toNat_ofNat, sInt, Nat.cast_pow, Nat.cast_ofNat]
  by_cases h : 2 ^ w ≤ 2 * (x % 2 ^ w)
  · rw [if_pos h, if_neg (Nat.not_lt.mpr h)]
  · rw [if_neg h, if_pos (Nat.not_le.mp h)]

theorem ofNat_wrapI (v w : Nat) (z : Int) : BitVec.ofNat w (wrapI v z) = (BitVec.ofInt v z).setWidth w := by
  refine BitVec.eq_of_toNat_eq ?_
  rw [BitVec.toNat_ofNat, BitVec.toNat_setWidth, BitVec.toNat_ofInt, wrapI]
  norm_cast

/-- What a lane receives of a load's bytes, by the type. -/
theorem ofNat_extendVal (ty : Nat) (b : Bool) (bs : List Byte) : BitVec.ofNat 64 (extendVal ty b bs) = extended ty b bs := by
  unfold extendVal extended
  by_cases h12 : ty = 12
  · subst h12
    rw [if_pos (.inl rfl), if_pos rfl, ofNat_wrapI, sInt_eq_toInt]
    rfl
  by_cases h14 : ty = 14
  · subst h14
    rw [if_pos (.inr rfl), if_neg h12, if_pos rfl, ofNat_wrapI, sInt_eq_toInt]
    rfl
  rw [if_neg (not_or.mpr ⟨h12, h14⟩), if_neg h12, if_neg h14]
  split
  · rw [ofNat_wrapI, sInt_eq_toInt, BitVec.setWidth_eq]
    rfl
  · rfl

/-- A read of bytes that stand in the cache. -/
theorem readPolicy_of_hit {s : State} {k pa n pol : Nat} {x : CLine} (hh : isHbm pa = true) (hp : pol ≠ 2) (hx : s.hit k (lineOf pa) = some x)
    (hv : maskAt (pa % 128) n &&& x.valid = maskAt (pa % 128) n) (asid va : Nat) :
    readPolicy k asid va pa n pol 0 s = (s.modCore k fun c => c.putLine x, .ok (lineBytes x.data (pa % 128) n)) := by
  simp only [readPolicy, hh, hp, hx, hv, uncached_of_hit hx, decide_false, Bool.or_self, Bool.not_true, Bool.false_eq_true, if_false, if_true]

/-- The first crew to which a memory result arrives is the running one where its oldest has come. -/
theorem arriving_running {s : State} {g : Group} {c : Crew} {m : MemReq} {r : List MemReq} (hr : g.running = some c) (hm : c.mem = m :: r)
    (hd : m.done s = true) : arriving s g = some (c, m) := by
  simp [arriving, Group.crews, hr, hm, hd]

/-- A result that lands in core cycle `t`. -/
def MemReq.landing (m : MemReq) (t : Nat) (l : LaneAcc) (bs : List Byte) : Landing :=
  { at_ := t, deadline := max t m.deadline, cls := m.cls, reg := m.reg, slot := l.slot, lane := l.lane, val := extended m.ty.toNat (decide (m.cls = .s)) bs }

/-- The arrival of a result of one lane whose bytes stand in the cache. -/
theorem arrive_of_hit {s : State} {k asid : Nat} {c : Crew} {m : MemReq} {l : LaneAcc} {x : CLine} (hl : m.lanes = [l]) (hp : m.pol ≠ 2) (hw : l.widx = 0)
    (hh : isHbm l.pa = true) (hx : s.hit k (lineOf l.pa) = some x)
    (hv : maskAt (l.pa % 128) (tyBytes m.ty.toNat) &&& x.valid = maskAt (l.pa % 128) (tyBytes m.ty.toNat)) :
    arrive k asid c m s = (s.modCore k fun c => c.putLine x).modCtxCrew k c.ctx fun c => { c with
      mem := c.mem.drop 1
      inflight := c.inflight ++ [m.landing s.cycle l (overlayOwn m.own l.pa (lineBytes x.data (l.pa % 128) (tyBytes m.ty.toNat)))] } := by
  have hp' : m.pol.toNat ≠ 2 := fun h => hp (BitVec.eq_of_toNat_eq h)
  have hread : readLanes k asid m.pol.toNat (tyBytes m.ty.toNat) m.own [l] s =
      (s.modCore k fun c => c.putLine x, [(l, overlayOwn m.own l.pa (lineBytes x.data (l.pa % 128) (tyBytes m.ty.toNat)))], []) := by
    simp only [readLanes, List.foldl_cons, List.foldl_nil, hw, readPolicy_of_hit hh hp' hx hv, List.nil_append]
  have hone : ([l].any fun y => decide (([l].filter fun z => decide (z.lane = y.lane ∧ z.slot = y.slot)).length = 2)) = false := by simp
  have hjoin : ∀ bs, joinLane [(l, bs)] l.lane l.slot = bs := fun bs => by simp [joinLane]
  simp only [arrive, hl, hone, Bool.false_eq_true, if_false, hread, List.map_cons, List.map_nil, List.eraseDups_cons, List.eraseDups_nil, List.filter_nil,
    List.any_nil, hjoin, ofNat_extendVal, ne_eq, not_true_eq_false, decide_false, Bool.and_false, ite_self]
  rfl

theorem exec_memoryResultArrival {s : State} {k : Nat} {g : Group} {c : Crew} {m : MemReq} {r : List MemReq} (hc : s.crew k = some (g, c)) (hm : c.mem = m :: r)
    (hd : m.done s = true) : exec (.memoryResultArrival k) s = .next (arrive k (s.asidOf g) c m s) := by
  show Host.Outcome.next _ = _
  rw [State.group_of_crew hc]
  dsimp only
  rw [arriving_running (State.running_of_crew hc) hm hd]

/-- The running crew, as an update of the crew of its issue context leaves it. -/
theorem crew_modCtxCrew {s : State} {k : Nat} {g : Group} {c : Crew} (hc : s.crew k = some (g, c)) (f : Crew → Crew) :
    ∃ g', (s.modCtxCrew k c.ctx f).crew k = some (g', f c) := by
  obtain ⟨g', hg', -, -, hr⟩ := modCtxCrew_group c.ctx f (State.group_of_crew hc)
  rw [State.running_of_crew hc, Option.map_some, if_pos rfl] at hr
  exact ⟨g', State.crew_of_group hg' hr⟩

/-! ## All events -/

theorem faultsAt_eq (va : Nat) (b : Crew × Wait) : faultsAt va b = match b.2 with | .pageFault v => decide (v % 2 ^ 56 = va) | _ => false := by
  obtain ⟨c, w⟩ := b
  cases w <;> rfl

/-- The events of a core's memories, each by the rule of the operation that it performs. -/
theorem coreMemoryEvents : CoreMemoryEvents := by
  refine ⟨?_, ?_, ?_, ?_, ?_, ?_, ?_⟩
  · intro s k b g hg hm hd
    exact ⟨_, _, exec_fifoPublication hg hm hd, rfl, State.group_setGroup_self .., by rw [queue_setQueue_self]; rfl, by rw [queue_setQueue_self]; rfl,
      fun _ hb => queue_setQueue_ne _ _ hb⟩
  · intro s k g hg
    exact ⟨_, exec_bankModeChangeDone hg, rfl, State.group_setGroup_self ..⟩
  · intro s k la d m w r h
    refine ⟨_, (exec_dirtyLineDrain k s).trans (congrArg _ (drainHead_bytes h)), rfl, ?_, ?_, ?_, fun b hb => ?_⟩
    · rw [sendMerge_core, State.core_setCore_self]
    · rw [sendMerge_core, State.core_setCore_self]
    · exact (sendMerge_mergeQ ..).trans (if_pos rfl)
    · exact (sendMerge_mergeQ ..).trans (if_neg hb)
  · intro s k g c m r l x hc hm hd hl hp hw ⟨hh, hx, hv⟩
    have hx' : s.hit k (lineOf l.pa) = some x := hx
    have hc' : (s.modCore k fun c => c.putLine x).crew k = some (g, c) :=
      State.crew_of_group ((congrArg Core.group (State.core_modCore_self ..)).trans (State.group_of_crew hc)) (State.running_of_crew hc)
    obtain ⟨g', hg'⟩ := crew_modCtxCrew hc' fun c => { c with
      mem := c.mem.drop 1
      inflight := c.inflight ++ [m.landing s.cycle l (overlayOwn m.own l.pa (lineBytes x.data (l.pa % 128) (tyBytes m.ty.toNat)))] }
    refine ⟨_, g', _, (exec_memoryResultArrival hc hm hd).trans (congrArg _ (arrive_of_hit hl hp hw hh hx' hv)), State.modGroup_mem .., hg', ?_, rfl⟩
    rw [hm]
    rfl
  · intro s k q r h hu
    refine ⟨_, (exec_linkAcknowledgement_ok k s).trans (congrArg _ (linkDone_of_up h hu)), ?_, fun i b hi => ?_, fun a ha => ?_⟩
    · exact congrArg Core.link (State.core_modCore_self s k fun c => { c with link := r })
    · have hlt : i < q.bytes.length := (List.getElem?_eq_some_iff.mp hi).1
      rw [State.get_putRaw, if_pos (by omega), Nat.add_sub_cancel_left, List.getD_eq_getElem?_getD, hi]
      rfl
    · rw [State.get_putRaw, if_neg (by omega)]
      rfl
  · intro s k g q r hg h
    refine ⟨_, exec_linkAcknowledgement_failed h, failLink_mem .., ?_, failLink_group_eq q ?_⟩
    · rw [failLink_link, State.core_modCore_self]
    · rw [State.group, State.core_modCore_self]
      exact hg
  · intro s k va g hg hh hva waits
    have hw : waits = faultsAt va := funext fun b => (faultsAt_eq va b).symm
    obtain ⟨t, he, hm, hcs⟩ := exec_pageFaultReply_mapped s (s.asidOf g) va
    rw [Nat.mod_eq_of_lt hva] at hcs
    obtain ⟨hb, hr⟩ := wakeFaults_main (va := va) (t := s.cycle) hh
    refine ⟨t, _, he, hm, (State.group_of_cores hcs k).trans (group_foldS_wakeFaults hg va (mem_coresOf hg)), ?_, ?_⟩
    · rw [hb, hw]
    · rw [hr, hw]

end Sys2Proof.Machine
end


section
/-!
PROOFS. Fills and write-backs of lines (04 R97, R98, R101).
-/
namespace Sys2Proof.Machine
open Sys2Proof.Claims

/-! ## What the metadata controllers leave of lines (04 R97; 13 R262) -/

/-- What lines, their counters and their home banks rest on: all that a verification and the commits of metadata leave as they are. -/
structure LineView where
  mem : Memory
  l2 : SMap L2Line
  mergeQ : SMap (List MergeReq)
  banks : SMap BankEntry
  owners : SMap (BitVec 16)
  fns : SMap Fn
  metas : SMap LineMeta
  ctxs : SMap Ctx
  minors : Nat → SMap (BitVec 7)

def State.lineView (s : State) : LineView :=
  { mem := s.mem, l2 := s.pkg.l2, mergeQ := s.pkg.mergeQ, banks := s.pkg.banks, owners := s.pkg.owners, fns := s.pkg.fns, metas := s.pkg.meta_, ctxs := s.pkg.ctxs
    minors := fun ch => (s.ctr ch).minors }

/-- A counter block with another counter in its parent has the same minor counters. -/
theorem lineView_setCtr (s : State) (ch : Nat) (b : CtrBlock) (h : b.minors = (s.ctr ch).minors) :
    (s.modPkg fun p => { p with ctr := p.ctr.set {} ch b }).lineView = s.lineView := by
  have hm : (fun c => (SMap.get {} (s.pkg.ctr.set {} ch b) c).minors) = fun c => (s.ctr c).minors := by
    funext c
    rw [SMap.get_set]
    split
    · next e => rw [h, e]
    · rfl
  simp only [State.lineView, State.modPkg_mem, State.modPkg_pkg, State.ctr, hm]

/-- An update of other tables of the package. -/
@[simp] theorem lineView_modPkg (s : State) (f : Pkg → Pkg)
    (h : ∀ p, (f p).l2 = p.l2 ∧ (f p).mergeQ = p.mergeQ ∧ (f p).banks = p.banks ∧ (f p).owners = p.owners ∧ (f p).fns = p.fns ∧ (f p).meta_ = p.meta_ ∧
      (f p).ctxs = p.ctxs ∧ (f p).ctr = p.ctr) : (s.modPkg f).lineView = s.lineView := by
  obtain ⟨hl, hq, hb, ho, hf, hm, hc, hr⟩ := h s.pkg
  simp only [State.lineView, State.ctr, State.modPkg_pkg, State.modPkg_mem, hl, hq, hb, ho, hf, hm, hc, hr]

@[simp] theorem formGroup_lineView (ch : Nat) (b : CtrBlock) (s : State) : (formGroup ch b s).1.lineView = s.lineView :=
  lineView_setCtr (putNodes _ s) ch _ rfl

@[simp] theorem logGroup_lineView (g : MetaGroup) (s : State) : (logGroup g s).lineView = s.lineView := by simp [logGroup]
@[simp] theorem applyGroup_lineView (g : MetaGroup) (s : State) : (applyGroup g s).lineView = s.lineView := by simp [applyGroup]
@[simp] theorem commitGroup_lineView (ch : Nat) (b : CtrBlock) (s : State) : (commitGroup ch b s).lineView = s.lineView := by simp [commitGroup]
@[simp] theorem commitChunk_lineView (ch : Nat) (s : State) : (commitChunk ch s).lineView = s.lineView := by simp [commitChunk]

@[simp] theorem evictNode_lineView (st key : Nat) (s : State) : (evictNode st key s).lineView = s.lineView := by
  simp [evictNode, foldS_view State.lineView fun ch _ => commitChunk_lineView ch]

@[simp] theorem holdNodes_lineView (st : Nat) (ns : List (Nat × TreeNode)) (s : State) : (holdNodes st ns s).lineView = s.lineView := by
  simp only [holdNodes]
  split
  · simp
  · simp [foldS_view State.lineView fun key _ => evictNode_lineView st key]

@[simp] theorem fetchMeta_lineView (ch : Nat) (s : State) : (fetchMeta ch s).1.lineView = s.lineView := by
  unfold fetchMeta
  extract_lets st o key path
  split
  · rfl
  · split
    · simp
    · rfl

@[simp] theorem touchPath_lineView (ch : Nat) (s : State) : (touchPath ch s).lineView = s.lineView := by
  unfold touchPath
  extract_lets st path blk
  split
  · rfl
  · exact lineView_setCtr (putNodes _ s) ch _ rfl

@[simp] theorem dirtyMeta_lineView (ch : Nat) (s : State) : (s.dirtyMeta ch).lineView = s.lineView := by
  unfold State.dirtyMeta
  split <;> rfl

theorem homeBank_of_lineView {s t : State} (h : t.lineView = s.lineView) (la : Nat) : t.homeBank la = s.homeBank la := by
  have hb : t.pkg.banks = s.pkg.banks := congrArg LineView.banks h
  have ho : t.pkg.owners = s.pkg.owners := congrArg LineView.owners h
  have hf : t.pkg.fns = s.pkg.fns := congrArg LineView.fns h
  have hbanks : t.banksWhere = s.banksWhere := funext fun p => by rw [State.banksWhere, State.banksWhere, hb]
  have hfn : t.fn = s.fn := funext fun f => by rw [State.fn, State.fn, hf]
  have hlist : t.homeList = s.homeList := by
    unfold State.homeList State.partBanks State.svcBanks
    rw [hbanks, hfn]
  have howner : t.ownerOf = s.ownerOf := funext fun g => by rw [State.ownerOf, State.ownerOf, ho]
  rw [State.homeBank, State.homeBank, hlist, howner]

theorem lineMeta_of_lineView {s t : State} (h : t.lineView = s.lineView) (la : Nat) : t.lineMeta la = s.lineMeta la := by
  have hm : t.pkg.meta_ = s.pkg.meta_ := congrArg LineView.metas h
  rw [State.lineMeta, State.lineMeta, hm]

theorem minors_of_lineView {s t : State} (h : t.lineView = s.lineView) (ch : Nat) : (t.ctr ch).minors = (s.ctr ch).minors :=
  congrFun (congrArg LineView.minors h) ch

theorem verifies_of_lineView {s t : State} (h : t.lineView = s.lineView) (la : Nat) : t.verifies la = s.verifies la := by
  simp only [State.verifies, lineMeta_of_lineView h, minors_of_lineView h]

/-! ## Fills (04 R97, R101) -/

theorem exec_l2Fill {line : Nat} (h : isHbm (line * 128) = true) (a b : Bool) (s : State) : exec (.l2Fill line a b) s = .next (fillLine line a b s).1 :=
  congrArg Host.Outcome.next (if_pos h)

theorem exec_l2Fill_outside {line : Nat} (h : isHbm (line * 128) = false) (a b : Bool) (s : State) : exec (.l2Fill line a b) s = .next s :=
  congrArg Host.Outcome.next (if_neg (Bool.not_eq_true _ ▸ h))

/-- A line enters its bank where its set has a free way. -/
theorem installL2_of_room {s : State} {la : Nat} (h : (s.pkg.l2.filter fun e => e.2.bank = s.homeBank la && e.1 % 128 = la % 128).length < 12) (d : Line) :
    installL2 la d s = s.modPkg fun p => { p with l2 := p.l2.put la { bank := s.homeBank la, data := d, used := s.now } } := by
  simp only [installL2, h, if_true]

/-- A fill of a line that is absent and verifies. -/
theorem fillLine_of_verifies {s : State} {la : Nat} {a b : Bool} (hn : s.pkg.l2.find? la = none) (hf : (fetchMeta (la / 64) s).2 = true)
    (hv : s.verifies la = true) (hab : a = true ∨ b = true) :
    fillLine la a b s = (installL2 la (lineOfBytes (s.rawBytes (la * 128) 128)) (fetchMeta (la / 64) s).1, true) := by
  have hview := fetchMeta_lineView (la / 64) s
  have hv' := (verifies_of_lineView hview la).trans hv
  have hm : (fetchMeta (la / 64) s).1.mem = s.mem := congrArg LineView.mem hview
  have hab' : (a || b) = true := Bool.or_eq_true_iff.mpr hab
  simp only [fillLine, hn]
  split
  · next h => rw [h] at hf; cases hf
  · next u h =>
    rw [h] at hv' hm ⊢
    rw [hab', hv', Bool.and_self, if_pos rfl, State.rawBytes, hm]
    rfl

/-- Memory, the lines of L2 and what is known of lines. -/
def State.lines (s : State) : Memory × SMap L2Line × SMap LineMeta := (s.mem, s.pkg.l2, s.pkg.meta_)

theorem modFn_lines (s : State) (k : Nat) (f : Fn → Fn) : (s.modFn k f).lines = s.lines := rfl

theorem countErru_lines (la : Nat) (s : State) : (countErru la s).lines = s.lines := foldS_view State.lines (fun f _ s => modFn_lines s f _) s

/-- What a fill leaves that does not install its line. -/
theorem fillLine_poisons {s : State} {la : Nat} {a b : Bool} (hn : s.pkg.l2.find? la = none)
    (h : (fetchMeta (la / 64) s).2 = false ∨ s.verifies la = false ∨ (a = false ∧ b = false)) :
    (fillLine la a b s).1.mem = s.mem ∧ (fillLine la a b s).1.pkg.l2 = s.pkg.l2 ∧ ((fillLine la a b s).1.lineMeta la).poison = true := by
  have hview := fetchMeta_lineView (la / 64) s
  have hmem : (fetchMeta (la / 64) s).1.mem = s.mem := congrArg LineView.mem hview
  have hl2 : (fetchMeta (la / 64) s).1.pkg.l2 = s.pkg.l2 := congrArg LineView.l2 hview
  have hv := verifies_of_lineView hview la
  simp only [fillLine, hn]
  split
  · next u hu =>
    rw [hu] at hmem hl2
    exact ⟨hmem, hl2, by rw [lineMeta_setMeta, if_pos rfl]⟩
  · next u hu =>
    rw [hu] at hmem hl2 hv h
    have hno : ((a || b) && u.verifies la) = false := by
      rw [hv]
      rcases h with h | h | ⟨rfl, rfl⟩
      · cases h
      · rw [h, Bool.and_false]
      · rfl
    rw [hno, if_neg Bool.false_ne_true]
    split
    · next hp => exact ⟨hmem, hl2, hp⟩
    · have hc := countErru_lines la (u.setMeta la { u.lineMeta la with poison := true })
      refine ⟨(congrArg Prod.fst hc).trans hmem, (congrArg (fun x => x.2.1) hc).trans hl2, ?_⟩
      have hm : (countErru la (u.setMeta la { u.lineMeta la with poison := true })).lineMeta la = (u.setMeta la { u.lineMeta la with poison := true }).lineMeta la :=
        congrArg (fun m => SMap.get _ m la) (congrArg (fun x => x.2.2) hc)
      rw [lineMeta_setMeta, if_pos rfl] at hm
      exact congrArg LineMeta.poison hm

end Sys2Proof.Machine
end


section
/-!
PROOFS. Write-backs of lines (04 R98, R99; 13 R269).
-/
namespace Sys2Proof.Machine
open Sys2Proof.Claims

/-! ## A new counter for a line (04 R98, R99) -/

/-- A chunk whose line takes its next minor counter. -/
def CtrBlock.bumped (b : CtrBlock) (j : Nat) : CtrBlock := { b with minors := b.minors.set 0 j (b.minors.get 0 j + 1) }

/-- The counters with which a line is written next: the next minor counter, or a new major counter. -/
def nextCounter (la : Nat) (s : State) : State :=
  if (s.ctr (la / 64)).minors.get 0 (la % 64) = 127 then nextMajor (la / 64) s
  else s.modPkg fun p => { p with ctr := p.ctr.set {} (la / 64) ((s.ctr (la / 64)).bumped (la % 64)) }

/-- A line that takes a new counter is known by it. -/
theorem bumpCounter_eq (la : Nat) (s : State) : bumpCounter la s =
    touchPath (la / 64) (((nextCounter la s).setMeta la { minor := ((nextCounter la s).ctr (la / 64)).minors.get 0 (la % 64) }).dirtyMeta (la / 64)) := rfl

theorem bumpCounter_lineView (la : Nat) (s : State) : (bumpCounter la s).lineView =
    ((nextCounter la s).setMeta la { minor := ((nextCounter la s).ctr (la / 64)).minors.get 0 (la % 64) }).lineView := by
  rw [bumpCounter_eq, touchPath_lineView, dirtyMeta_lineView]

/-- Under its new counter the line verifies. -/
theorem bumpCounter_verifies (la : Nat) (s : State) : (bumpCounter la s).verifies la = true := by
  rw [verifies_of_lineView (bumpCounter_lineView la s), State.verifies, lineMeta_setMeta, if_pos rfl]
  exact (Bool.and_eq_true ..).mpr ⟨rfl, beq_self_eq_true _⟩

theorem bumpCounter_minor {la : Nat} {s : State} (h : (s.ctr (la / 64)).minors.get 0 (la % 64) ≠ 127) :
    ((bumpCounter la s).ctr (la / 64)).minors.get 0 (la % 64) = (s.ctr (la / 64)).minors.get 0 (la % 64) + 1 := by
  rw [minors_of_lineView (bumpCounter_lineView la s), nextCounter, if_neg h]
  have hc : ((s.modPkg fun p => { p with ctr := p.ctr.set {} (la / 64) ((s.ctr (la / 64)).bumped (la % 64)) }).ctr (la / 64)) = (s.ctr (la / 64)).bumped (la % 64) :=
    SMap.get_set_self ..
  exact (congrArg (fun b : CtrBlock => b.minors.get 0 (la % 64)) hc).trans (SMap.get_set_self ..)

/-! ## Write-backs (04 R98; 13 R269) -/

theorem exec_writeBack (line : Nat) (s : State) : exec (.writeBack line) s = .next (writeBackLine line s) := rfl

/-- A line that is absent or clean is not written. -/
theorem writeBackLine_of_clean {s : State} {la : Nat} (h : ∀ l, s.pkg.l2.find? la = some l → l.dirty = false) : writeBackLine la s = s := by
  unfold writeBackLine
  split
  · rfl
  · next l hl => rw [h l hl]; rfl

/-- The log that a line's tag stands in is made durable past it. -/
def forceTag (l : L2Line) (s : State) : State :=
  match l.tag with
  | some (a, pos) => if (s.ctx a).uld < pos then forceLog a s else s
  | none => s

/-- The write of a line's bytes under a new counter. -/
def putLineBack (la : Nat) (l : L2Line) (s : State) : State :=
  ((bumpCounter la (fetchMeta (la / 64) s).1).putRaw (la * 128) (bytesOfLine l.data)).modPkg fun p => { p with l2 := p.l2.put la { l with dirty := false, tag := none } }

theorem writeBackLine_of_dirty {s : State} {la : Nat} {l : L2Line} (hl : s.pkg.l2.find? la = some l) (hd : l.dirty = true) :
    writeBackLine la s = putLineBack la l (forceTag l s) := by
  simp only [writeBackLine, hl, hd, Bool.not_true, Bool.false_eq_true, if_false]
  rfl

/-- Byte by byte, what the write leaves in memory. -/
theorem putLineBack_mem (la : Nat) (l : L2Line) (s : State) (a : Nat) : SMap.get 0 (putLineBack la l s).mem a =
    if la * 128 ≤ a ∧ a < la * 128 + 128 then byteOf l.data (a - la * 128) else SMap.get 0 s.mem a := by
  have hlen : (bytesOfLine l.data).length = 128 := leBytes_length ..
  show SMap.get 0 ((bumpCounter la (fetchMeta (la / 64) s).1).putRaw (la * 128) (bytesOfLine l.data)).mem a = _
  rw [State.get_putRaw, hlen, mem_of_metaView (bumpCounter_fetchMeta_metaView la s)]
  split
  · next h => rw [getD_bytesOfLine _ (by omega)]
  · rfl

theorem putLineBack_find (la : Nat) (l : L2Line) (s : State) : (putLineBack la l s).pkg.l2.find? la = some { l with dirty := false, tag := none } := by
  simp only [putLineBack, State.modPkg_pkg, SMap.find?_put_self]

theorem putLineBack_metas (la : Nat) (l : L2Line) (s : State) : (putLineBack la l s).pkg.meta_ = (bumpCounter la (fetchMeta (la / 64) s).1).pkg.meta_ := by
  simp only [putLineBack, State.modPkg_pkg, State.putRaw_pkg]

theorem putLineBack_ctrs (la : Nat) (l : L2Line) (s : State) : (putLineBack la l s).pkg.ctr = (bumpCounter la (fetchMeta (la / 64) s).1).pkg.ctr := by
  simp only [putLineBack, State.modPkg_pkg, State.putRaw_pkg]

theorem putLineBack_verifies (la : Nat) (l : L2Line) (s : State) : (putLineBack la l s).verifies la = true := by
  have h := bumpCounter_verifies la (fetchMeta (la / 64) s).1
  unfold State.verifies State.lineMeta State.ctr at h ⊢
  rw [putLineBack_metas, putLineBack_ctrs]
  exact h

theorem putLineBack_minor {la : Nat} {s : State} (l : L2Line) (h : (s.ctr (la / 64)).minors.get 0 (la % 64) ≠ 127) :
    ((putLineBack la l s).ctr (la / 64)).minors.get 0 (la % 64) = (s.ctr (la / 64)).minors.get 0 (la % 64) + 1 := by
  have hm := minors_of_lineView (fetchMeta_lineView (la / 64) s) (la / 64)
  rw [← hm] at h ⊢
  have hb := bumpCounter_minor h
  unfold State.ctr at hb ⊢
  rw [putLineBack_ctrs]
  exact hb

theorem putLineBack_ctx (la : Nat) (l : L2Line) (s : State) (a : Nat) : (putLineBack la l s).ctx a = s.ctx a := by
  have hc : (bumpCounter la (fetchMeta (la / 64) s).1).pkg.ctxs = s.pkg.ctxs := congrArg MetaView.ctxs (bumpCounter_fetchMeta_metaView la s)
  simp only [State.ctx, putLineBack, State.modPkg_pkg, State.putRaw_pkg, hc]

/-- A log that is forced is durable up to its head. -/
theorem uld_forceLog (a : Nat) (s : State) : ((forceLog a s).ctx a).uld = (s.ctx a).rph := by
  unfold forceLog ackLog
  exact congrArg Ctx.uld (State.ctx_modCtx_self ..)

theorem writeBack_holds {s : State} {la : Nat} {l : L2Line} (hl : s.pkg.l2.find? la = some l) (hd : l.dirty = true) :
    ∃ (t : State) (l' : L2Line), exec (.writeBack la) s = .next t ∧ t.pkg.l2.find? la = some l' ∧ l'.dirty = false ∧ l'.data = l.data ∧ t.verifies la = true ∧
      (∀ i < 128, SMap.get 0 t.mem (la * 128 + i) = byteOf l.data i) ∧
      ((∀ x p, l.tag = some (x, p) → p ≤ (s.ctx x).uld) →
        (∀ a, a < la * 128 ∨ la * 128 + 128 ≤ a → SMap.get 0 t.mem a = SMap.get 0 s.mem a) ∧
        ((s.ctr (la / 64)).minors.get 0 (la % 64) ≠ 127 →
          (t.ctr (la / 64)).minors.get 0 (la % 64) = (s.ctr (la / 64)).minors.get 0 (la % 64) + 1)) ∧
      ∀ x p, l.tag = some (x, p) → (s.ctx x).uld < p → (t.ctx x).uld = (s.ctx x).rph := by
  refine ⟨_, _, (exec_writeBack la s).trans (congrArg _ (writeBackLine_of_dirty hl hd)), putLineBack_find .., rfl, rfl, putLineBack_verifies .., fun i hi => ?_,
    fun ht => ?_, fun x p hx hp => ?_⟩
  · rw [putLineBack_mem, if_pos (by omega), Nat.add_sub_cancel_left]
  · have hf : forceTag l s = s := by
      unfold forceTag
      split
      · next x p hx => exact if_neg (Nat.not_lt.mpr (ht x p hx))
      · rfl
    rw [hf]
    exact ⟨fun a ha => by rw [putLineBack_mem, if_neg (by omega)], putLineBack_minor l⟩
  · have hf : forceTag l s = forceLog x s := by
      unfold forceTag
      rw [hx]
      exact if_pos hp
    rw [hf, putLineBack_ctx, uld_forceLog]

end Sys2Proof.Machine
end


section
/-!
PROOFS. Merges at the home bank (05 R106; 13 R265, R268), accesses of a peer (04 R74; 12 R259), and the obligation on core memories and lines.
-/
namespace Sys2Proof.Machine
open Sys2Proof.Claims

/-! ## Fills that install their line (04 R97) -/

theorem getD_getList {α : Type} (d : α) (m : SMap α) (k : Nat) {n i : Nat} (hi : i < n) : (SMap.getList d m k n).getD i d = SMap.get d m (k + i) := by
  induction n generalizing k i with
  | zero => exact absurd hi (Nat.not_lt_zero _)
  | succ n ih =>
    cases i with
    | zero => rfl
    | succ i => exact (ih (k + 1) (by omega)).trans (by rw [Nat.add_right_comm, Nat.add_assoc])

theorem l2Fill_installs {s : State} {la : Nat} {a b : Bool} (hh : isHbm (la * 128) = true) (hn : s.pkg.l2.find? la = none) (hf : (fetchMeta (la / 64) s).2 = true)
    (hv : s.verifies la = true) (hab : a = true ∨ b = true) (hr : (s.pkg.l2.filter fun e => e.2.bank = s.homeBank la && e.1 % 128 = la % 128).length < 12) :
    ∃ (t : State) (l : L2Line), exec (.l2Fill la a b) s = .next t ∧ t.mem = s.mem ∧ t.pkg.l2.find? la = some l ∧ l.dirty = false ∧ l.bank = s.homeBank la ∧
      ∀ i < 128, byteOf l.data i = SMap.get 0 s.mem (la * 128 + i) := by
  have hview := fetchMeta_lineView (la / 64) s
  have hl2 : (fetchMeta (la / 64) s).1.pkg.l2 = s.pkg.l2 := congrArg LineView.l2 hview
  have hb := homeBank_of_lineView hview la
  have hroom := installL2_of_room (s := (fetchMeta (la / 64) s).1) (la := la) (by rw [hl2, hb]; exact hr) (lineOfBytes (s.rawBytes (la * 128) 128))
  have he := (exec_l2Fill hh a b s).trans (congrArg (fun x => Host.Outcome.next x.1) (fillLine_of_verifies hn hf hv hab))
  rw [hroom] at he
  refine ⟨_, _, he, congrArg LineView.mem hview, SMap.find?_put_self .., rfl, hb, fun i hi => ?_⟩
  exact (byteOf_lineOfBytes _ hi).trans (getD_getList _ _ _ hi)

/-! ## Merges (05 R106; 13 R268) -/

theorem exec_homeBankMerge (bank : Nat) (s : State) : exec (.homeBankMerge bank) s = .next (serveLogTraps (mergeOldest bank s)) := rfl

/-- A fill finds a line that stands in L2. -/
theorem fillLine_of_present {s : State} {la : Nat} {l : L2Line} (hl : s.pkg.l2.find? la = some l) (a b : Bool) : fillLine la a b s = (s, true) := by
  simp only [fillLine, hl]

/-- A merge into a line that stands in L2, where its record goes on. -/
theorem mergeNow_of_present {s t : State} {r : MergeReq} {l : L2Line} (hl : s.pkg.l2.find? r.line = some l) (hr : recordMerge r l s = (t, .done)) :
    mergeNow r s = (applyMerge r ((t.pkg.l2.find? r.line).getD l) t, .done) := by
  simp only [mergeNow, hl, reduceCtorEq, false_and, and_false, if_false, fillLine_of_present hl, hr, Bool.not_true, Bool.false_eq_true, if_true]

/-- The first request of a scan that merges at once. -/
theorem mergeScan_head {s t : State} {r : MergeReq} (h : mergeNow r s = (t, .done)) (one : Bool) (rest : List MergeReq) :
    mergeScan one [] (r :: rest) s = if one then (t, rest) else mergeScan one [] rest t := by
  simp only [mergeScan, List.any_nil, Bool.false_eq_true, if_false, h, reduceCtorEq, List.nil_append]

theorem mergeScan_single {s t : State} {r : MergeReq} (h : mergeNow r s = (t, .done)) : mergeScan false [] [r] s = (t, []) := by
  rw [mergeScan_head h]
  rfl

theorem mergeOldest_of_merges {s t : State} {b : Nat} {r : MergeReq} {rest : List MergeReq} (hq : s.pkg.mergeQ.get [] b = r :: rest) (h : mergeNow r s = (t, .done)) :
    mergeOldest b s = t.modPkg fun p => { p with mergeQ := p.mergeQ.set [] b rest } := by
  simp only [mergeOldest, hq, mergeScan_head h, if_true]

/-- A bank with one request, which merges at once. -/
theorem mergeBank_of_merges {s t : State} {b : Nat} {r : MergeReq} (hq : s.pkg.mergeQ.get [] b = [r]) (h : mergeNow r s = (t, .done)) :
    mergeBank b s = t.modPkg fun p => { p with mergeQ := p.mergeQ.set [] b [] } := by
  simp only [mergeBank, hq, mergeScan_single h]

theorem mergeBank_of_empty {s : State} {b : Nat} (hq : s.pkg.mergeQ.get [] b = []) : mergeBank b s = s := by
  simp only [mergeBank, hq]

/-- A request of no context leaves no record. -/
theorem recordMerge_of_noCtx {r : MergeReq} (h : r.w.asid = none) (l : L2Line) (s : State) : recordMerge r l s = (s, .done) := by
  simp only [recordMerge, h]

/-- A line that takes the bytes of a request. -/
def L2Line.merged (l : L2Line) (r : MergeReq) (now : Nat) : L2Line :=
  { l with data := overlay l.data r.data r.mask, dirty := true, by_ := r.w.asid, used := now }

theorem applyMerge_eq (r : MergeReq) (l : L2Line) (s : State) : applyMerge r l s = s.modPkg fun p => { p with l2 := p.l2.put r.line (l.merged r s.now) } := rfl

theorem mergeNow_of_noCtx {s : State} {r : MergeReq} {l : L2Line} (hl : s.pkg.l2.find? r.line = some l) (hw : r.w.asid = none) :
    mergeNow r s = (s.modPkg fun p => { p with l2 := p.l2.put r.line (l.merged r s.now) }, .done) := by
  rw [mergeNow_of_present hl (recordMerge_of_noCtx hw l s), hl, Option.getD_some, applyMerge_eq]

theorem homeBankMerge_holds {s : State} {bank : Nat} {r : MergeReq} {rest : List MergeReq} {l : L2Line} (hq : s.pkg.mergeQ.get [] bank = r :: rest)
    (hl : s.pkg.l2.find? r.line = some l) (hw : r.w.asid = none) (ht : ∀ x ∈ s.pkg.ctxs, x.2.logTrap = false) :
    ∃ (t : State) (l' : L2Line), exec (.homeBankMerge bank) s = .next t ∧ t.mem = s.mem ∧ t.pkg.mergeQ.get [] bank = rest ∧
      t.pkg.l2.find? r.line = some l' ∧ l'.dirty = true ∧ Laid l.data l'.data r.data r.mask := by
  have hm := mergeOldest_of_merges hq (mergeNow_of_noCtx hl hw)
  have he := exec_homeBankMerge bank s
  rw [hm, serveLogTraps_of_memCtxs (s := s) (by simp only [State.memCtxs, State.modPkg_mem, State.modPkg_pkg]) ht] at he
  refine ⟨_, l.merged r s.now, he, ?_, ?_, ?_, rfl, laid_overlay l.data r.data r.mask⟩
  · simp only [State.modPkg_mem]
  · simp only [State.modPkg_pkg, SMap.get_set_self]
  · simp only [State.modPkg_pkg, SMap.find?_put_self]

/-! ## Merges of a logging context (13 R265, R268) -/

/-- Bytes that are written around a ring no longer than it all stand in it. -/
theorem get_ringWrite (bs : List Byte) (m : SMap Byte) (p : Nat) {ring i : Nat} (hi : i < bs.length) (hr : bs.length ≤ ring) :
    SMap.get 0 ((List.zip (List.range bs.length) bs).foldl (fun (m : SMap Byte) (e : Nat × Byte) => m.set 0 ((p + e.1) % ring) e.2) m) ((p + i) % ring) = bs.getD i 0 := by
  induction bs using List.reverseRecOn generalizing i with
  | nil => exact absurd hi (Nat.not_lt_zero _)
  | append_singleton bs b ih =>
    rw [List.length_append, List.length_singleton] at hi hr
    rw [List.length_append, List.length_singleton, List.range_succ, List.zip_append List.length_range, List.foldl_append, List.zip_cons_cons, List.zip_nil_left,
      List.foldl_cons, List.foldl_nil]
    rcases Nat.lt_succ_iff_lt_or_eq.mp hi with h | rfl
    · have hne : (p + i) % ring ≠ (p + bs.length) % ring := fun e =>
        absurd (Nat.ModEq.eq_of_lt_of_lt (Nat.ModEq.add_left_cancel' p e) (by omega) (by omega)) (by omega)
      rw [SMap.get_set_ne _ _ _ hne, ih h (by omega), List.getD_append _ _ _ _ h]
    · rw [SMap.get_set_self, List.getD_append_right _ _ _ _ le_rfl, Nat.sub_self]
      rfl

theorem rph_appendRec (a : Nat) (bs : List Byte) (s : State) : ((appendRec a bs s).ctx a).rph = (s.ctx a).rph + bs.length := by
  rw [appendRec, State.ctx_modCtx_self]

theorem log_appendRec (a : Nat) {bs : List Byte} {s : State} {i : Nat} (hi : i < bs.length) (hr : bs.length ≤ (s.ctx a).ring') :
    ((appendRec a bs s).ctx a).log.get 0 (((s.ctx a).rph + i) % (s.ctx a).ring') = bs.getD i 0 := by
  rw [appendRec, State.ctx_modCtx_self]
  exact get_ringWrite bs _ _ hi hr

theorem lineRec_length (c : Ctx) (first eng : Bool) (core la v : Nat) (old : Line) : (lineRec c first eng core la v old).length = 192 := by
  rw [lineRec, List.length_append, leBytes_length, bytesOfLine, leBytes_length]

/-- Behind its header a LINE record holds the old line. -/
theorem lineRec_payload (c : Ctx) (first eng : Bool) (core la v : Nat) (old : Line) {i : Nat} (hi : i < 128) :
    (lineRec c first eng core la v old).getD (64 + i) 0 = byteOf old i := by
  rw [lineRec, List.getD_append_right _ _ _ _ (by rw [leBytes_length]; omega), leBytes_length, Nat.add_sub_cancel_left, getD_bytesOfLine _ hi]

/-- The context's first merge into a line since its last seal. -/
def Ctx.mergesFirst (c : Ctx) (la : Nat) : Bool := c.recv && !(if c.bsel then c.bitmap1 else c.bitmap0).contains la

/-- A context with the line marked in its bitmap. -/
def Ctx.marked (c : Ctx) (la : Nat) : Ctx :=
  if c.mergesFirst la then if c.bsel then { c with bitmap1 := la :: c.bitmap1 } else { c with bitmap0 := la :: c.bitmap0 } else c

theorem marked_kept (c : Ctx) (la : Nat) : (c.marked la).rph = c.rph ∧ (c.marked la).ring' = c.ring' ∧ (c.marked la).logTrap = c.logTrap := by
  unfold Ctx.marked
  split
  · split
    · exact ⟨rfl, rfl, rfl⟩
    · exact ⟨rfl, rfl, rfl⟩
  · exact ⟨rfl, rfl, rfl⟩

/-- The record of a merge of context `a` into a line. -/
def mergeRec (a : Nat) (r : MergeReq) (l : L2Line) (s : State) : List Byte :=
  lineRec ((s.ctx a).marked r.line) ((s.ctx a).mergesFirst r.line) r.w.eng r.w.core r.line r.w.vline l.data

/-- The log of context `a` with that record appended. -/
def logMerge (a : Nat) (r : MergeReq) (l : L2Line) (s : State) : State :=
  appendRec a (mergeRec a r l s) (s.modCtx a fun _ => (s.ctx a).marked r.line)

theorem logMerge_mem (a : Nat) (r : MergeReq) (l : L2Line) (s : State) : (logMerge a r l s).mem = s.mem := rfl
theorem logMerge_now (a : Nat) (r : MergeReq) (l : L2Line) (s : State) : (logMerge a r l s).now = s.now := rfl

theorem recordMerge_of_room {s : State} {r : MergeReq} {a : Nat} (hw : r.w.asid = some a) (hs : (s.ctx a).span = true) (ho : winOf (s.ownerOf (r.line / 16384)) = 0)
    (hr : roomFor 192 (s.ctx a) = .ok (s.ctx a)) (l : L2Line) :
    recordMerge r l s = ((logMerge a r l s).modPkg fun p => { p with l2 := p.l2.put r.line { l with tag := some (a, (s.ctx a).rph + 192) } }, .done) := by
  have hp := (marked_kept (s.ctx a) r.line).1
  rw [← hp]
  simp only [recordMerge, hw, hs, ho, hr, Bool.true_or, Bool.not_true, ne_eq, not_true_eq_false, decide_false, Bool.or_self, Bool.false_eq_true, if_false]
  rfl

theorem roomFor_of_le {n : Nat} {c : Ctx} (h : c.rph + n + c.sealRoom - c.ult ≤ c.ring') : roomFor n c = .ok c := if_pos h

/-- What a table lists after an entry is put: that entry, and others of before. -/
theorem SMap.mem_put {α : Type} {m : SMap α} {k : Nat} {v : α} {x : Nat × α} (h : x ∈ m.put k v) : x = (k, v) ∨ x ∈ m := by
  induction m with
  | nil => exact .inl (List.mem_singleton.mp h)
  | cons e m ih =>
    obtain ⟨j, u⟩ := e
    simp only [SMap.put] at h
    split at h
    · exact List.mem_cons.mp h
    · split at h
      · exact (List.mem_cons.mp h).imp_right (List.mem_cons_of_mem _)
      · rcases List.mem_cons.mp h with rfl | h
        · exact .inr List.mem_cons_self
        · exact (ih h).imp_right (List.mem_cons_of_mem _)

/-- The contexts of a log that takes a merge's record: those of before, and its own. -/
theorem mem_ctxs_logMerge {a : Nat} {r : MergeReq} {l : L2Line} {s : State} (h : ∀ x ∈ s.pkg.ctxs, x.2.logTrap = false) :
    ∀ x ∈ (logMerge a r l s).pkg.ctxs, x.2.logTrap = false := by
  have ha : (s.ctx a).logTrap = false := by
    unfold State.ctx
    cases hc : s.pkg.ctxs.find? a with
    | none => rfl
    | some c => exact h _ (SMap.mem_of_find? hc)
  have hm : ((s.ctx a).marked r.line).logTrap = false := (marked_kept (s.ctx a) r.line).2.2.trans ha
  have hput : ∀ {m : SMap Ctx} {c : Ctx}, (∀ x ∈ m, x.2.logTrap = false) → c.logTrap = false → ∀ x ∈ m.put a c, x.2.logTrap = false := by
    intro m c hm hc x hx
    rcases SMap.mem_put hx with rfl | hx
    · exact hc
    · exact hm x hx
  rw [logMerge, appendRec]
  refine hput (hput h hm) ?_
  rw [State.ctx_modCtx_self]
  exact hm

theorem rph_logMerge (a : Nat) (r : MergeReq) (l : L2Line) (s : State) : ((logMerge a r l s).ctx a).rph = (s.ctx a).rph + 192 := by
  rw [logMerge, rph_appendRec, State.ctx_modCtx_self, (marked_kept ..).1, mergeRec, lineRec_length]

/-- The old bytes of the line stand in the log behind the header of the record. -/
theorem log_logMerge {a : Nat} {r : MergeReq} {l : L2Line} {s : State} (hring : 192 ≤ (s.ctx a).ring') {i : Nat} (hi : i < 128) :
    ((logMerge a r l s).ctx a).log.get 0 (((s.ctx a).rph + 64 + i) % (s.ctx a).ring') = byteOf l.data i := by
  obtain ⟨hrph, hring', -⟩ := marked_kept (s.ctx a) r.line
  have hlen : (mergeRec a r l s).length = 192 := lineRec_length ..
  have h := log_appendRec a (bs := mergeRec a r l s) (s := s.modCtx a fun _ => (s.ctx a).marked r.line) (i := 64 + i) (by omega)
    (by rw [State.ctx_modCtx_self, hring', hlen]; exact hring)
  rw [State.ctx_modCtx_self, hrph, hring', mergeRec, lineRec_payload _ _ _ _ _ _ _ hi, ← Nat.add_assoc] at h
  exact h

theorem homeBankMerge_logs {s : State} {bank a : Nat} {r : MergeReq} {rest : List MergeReq} {l : L2Line} (hq : s.pkg.mergeQ.get [] bank = r :: rest)
    (hl : s.pkg.l2.find? r.line = some l) (hw : r.w.asid = some a) (hs : (s.ctx a).span = true) (ho : winOf (s.ownerOf (r.line / 16384)) = 0)
    (hr : (s.ctx a).rph + 192 + (s.ctx a).sealRoom - (s.ctx a).ult ≤ (s.ctx a).ring') (hring : 192 ≤ (s.ctx a).ring') (ht : ∀ x ∈ s.pkg.ctxs, x.2.logTrap = false) :
    ∃ (t : State) (l' : L2Line), exec (.homeBankMerge bank) s = .next t ∧ t.mem = s.mem ∧ t.pkg.mergeQ.get [] bank = rest ∧
      t.pkg.l2.find? r.line = some l' ∧ Laid l.data l'.data r.data r.mask ∧ l'.tag = some (a, (s.ctx a).rph + 192) ∧ (t.ctx a).rph = (s.ctx a).rph + 192 ∧
      ∀ i < 128, (t.ctx a).log.get 0 (((s.ctx a).rph + 64 + i) % (s.ctx a).ring') = byteOf l.data i := by
  have hn := mergeNow_of_present hl (recordMerge_of_room hw hs ho (roomFor_of_le hr) l)
  simp only [State.modPkg_pkg, SMap.find?_put_self, Option.getD_some, applyMerge_eq, State.modPkg_now, logMerge_now] at hn
  have he := exec_homeBankMerge bank s
  rw [mergeOldest_of_merges hq hn, serveLogTraps_of_none (by simpa only [State.modPkg_pkg] using mem_ctxs_logMerge ht)] at he
  refine ⟨_, ({ l with tag := some (a, (s.ctx a).rph + 192) } : L2Line).merged r s.now, he, ?_, ?_, ?_, laid_overlay l.data r.data r.mask, rfl, ?_, fun i hi => ?_⟩
  · simp only [State.modPkg_mem, logMerge_mem]
  · simp only [State.modPkg_pkg, SMap.get_set_self]
  · simp only [State.modPkg_pkg, SMap.find?_put_self]
  · simp only [State.ctx, State.modPkg_pkg]
    exact rph_logMerge ..
  · simp only [State.ctx, State.modPkg_pkg]
    exact log_logMerge hring hi

/-! ## Accesses of a peer (04 R74; 12 R259) -/

theorem exec_peerApertureAccess_refused {s : State} {pa : Nat} (h : isHbm pa = false ∨ granOk (granOf pa) = false ∨ s.ownerOf (granOf pa) = 0x3FE) (len : Nat)
    (d : Option (List Byte)) : exec (.peerApertureAccess pa len d) s = .next s := by
  refine congrArg Host.Outcome.next (if_pos ?_)
  rcases h with h | h | h <;> simp [h]

/-- Bytes within one line lie within one granule. -/
theorem granOf_within_line {pa n : Nat} (hn : 0 < n) (h : pa % 128 + n ≤ 128) : granOf (pa + n - 1) = granOf pa := by
  unfold granOf
  omega

theorem exec_peerApertureAccess_owned {s : State} {pa n : Nat} (hh : isHbm pa = true) (hg : granOk (granOf pa) = true) (ho : s.ownerOf (granOf pa) ≠ 0x3FE) (hn : 0 < n)
    (hl : pa % 128 + n ≤ 128) (d : Option (List Byte)) :
    exec (.peerApertureAccess pa n d) s = .next (match d with | some bs => (physWrite {} pa bs s).1 | none => (physRead pa n s).1) := by
  refine congrArg Host.Outcome.next (if_neg ?_)
  simp only [granOf_within_line hn hl, hh, hg]
  simpa using ho

/-- Bytes within one line are one piece. -/
theorem linePieces_within_line {pa n : Nat} (hn : 0 < n) (h : pa % 128 + n ≤ 128) (k o : Nat) : linePieces (k + 2) pa o n = [(pa, o, n)] := by
  have hm : min n (128 - pa % 128) = n := Nat.min_eq_left (by omega)
  simp only [linePieces, hm, Nat.sub_self, if_true, if_neg (Nat.ne_of_gt hn)]

theorem enqueueMerge_mergeQ (r : MergeReq) (s : State) : (enqueueMerge r s).pkg.mergeQ.get [] (s.homeBank r.line) = s.pkg.mergeQ.get [] (s.homeBank r.line) ++ [r] := by
  simp only [enqueueMerge, State.modPkg_pkg, SMap.get_set_self]

theorem enqueueMerge_l2 (r : MergeReq) (s : State) : (enqueueMerge r s).pkg.l2 = s.pkg.l2 := by simp only [enqueueMerge, State.modPkg_pkg]
theorem enqueueMerge_mem (r : MergeReq) (s : State) : (enqueueMerge r s).mem = s.mem := by simp only [enqueueMerge, State.modPkg_mem]

/-- The request of a write of bytes within one line. -/
def writeReq (w : Writer) (pa : Nat) (bs : List Byte) : MergeReq := { line := lineOf pa, data := lineAt (pa % 128) bs, mask := maskAt (pa % 128) bs.length, w := w }

/-- A write of no context into a line that stands in L2, at a home bank with no request. -/
theorem homeWrite_of_present {s : State} {w : Writer} {pa : Nat} {l : L2Line} (hw : w.asid = none) (hl : s.pkg.l2.find? (lineOf pa) = some l)
    (hq : s.pkg.mergeQ.get [] (s.homeBank (lineOf pa)) = []) (bs : List Byte) :
    (homeWrite w pa bs s).1.mem = s.mem ∧ (homeWrite w pa bs s).1.pkg.l2.find? (lineOf pa) = some (l.merged (writeReq w pa bs) s.now) := by
  have hm := mergeNow_of_noCtx (s := enqueueMerge (writeReq w pa bs) s) (r := writeReq w pa bs) ((congrArg (SMap.find? · (lineOf pa)) (enqueueMerge_l2 ..)).trans hl) hw
  have hq' := enqueueMerge_mergeQ (writeReq w pa bs) s
  rw [show s.homeBank (writeReq w pa bs).line = s.homeBank (lineOf pa) from rfl, hq] at hq'
  have hb := mergeBank_of_merges hq' hm
  have he : (homeWrite w pa bs s).1 = mergeBank (s.homeBank (lineOf pa)) (enqueueMerge (writeReq w pa bs) s) := by
    simp only [homeWrite, mergeBank_of_empty hq, hl, reduceCtorEq, false_and, and_false, if_false]
    rfl
  rw [he, hb]
  constructor
  · simp only [State.modPkg_mem, enqueueMerge_mem]
  · simp only [State.modPkg_pkg]
    exact SMap.find?_put_self ..

theorem physWrite_within_line {w : Writer} {pa : Nat} {bs : List Byte} (hh : isHbm pa = true) (hn : 0 < bs.length) (h : pa % 128 + bs.length ≤ 128) (s : State) :
    (physWrite w pa bs s).1 = (homeWrite w pa bs s).1 := by
  simp only [physWrite, hh, if_true, linePieces_within_line hn h, List.foldl_cons, List.foldl_nil, List.drop_zero, List.take_length, Nat.sub_self, Nat.add_zero]

theorem peerWrite_holds {s : State} {pa : Nat} {bs : List Byte} {l : L2Line} (hh : isHbm pa = true) (hg : granOk (granOf pa) = true) (ho : s.ownerOf (granOf pa) ≠ 0x3FE)
    (hne : bs ≠ []) (hlen : pa % 128 + bs.length ≤ 128) (hl : s.pkg.l2.find? (lineOf pa) = some l) (hq : s.pkg.mergeQ.get [] (s.homeBank (lineOf pa)) = []) :
    ∃ (t : State) (l' : L2Line), exec (.peerApertureAccess pa bs.length (some bs)) s = .next t ∧ t.mem = s.mem ∧ t.pkg.l2.find? (lineOf pa) = some l' ∧
      (∀ i b, bs[i]? = some b → byteOf l'.data (pa % 128 + i) = b) ∧
      ∀ o < 128, o < pa % 128 ∨ pa % 128 + bs.length ≤ o → byteOf l'.data o = byteOf l.data o := by
  have hn := List.length_pos_iff.mpr hne
  obtain ⟨hmem, hline⟩ := homeWrite_of_present (w := {}) rfl hl hq bs
  exact ⟨_, _, (exec_peerApertureAccess_owned hh hg ho hn hlen (some bs)).trans (congrArg Host.Outcome.next (physWrite_within_line hh hn hlen s)), hmem, hline,
    fun i b hb => byteOf_overlay_lineAt_mem _ hlen hb, fun o ho hout => byteOf_overlay_lineAt_of_out _ bs ho hout⟩

/-- A read of a line that stands in L2, at a home bank with no request, leaves its bytes. -/
theorem homeLine_of_present {s : State} {la : Nat} {l : L2Line} (hl : s.pkg.l2.find? la = some l) (hq : s.pkg.mergeQ.get [] (s.homeBank la) = []) :
    (homeLine la s).1 = s.modPkg fun p => { p with l2 := p.l2.put la { l with used := s.now } } := by
  simp only [homeLine, mergeBank_of_empty hq, fillLine_of_present hl, hl, if_true]

theorem physRead_within_line {pa n : Nat} (hh : isHbm pa = true) (hn : 0 < n) (h : pa % 128 + n ≤ 128) (s : State) :
    (physRead pa n s).1 = (homeLine (lineOf pa) s).1 := by
  simp only [physRead, hh, if_true, linePieces_within_line hn h, List.foldl_cons, List.foldl_nil]

theorem peerRead_holds {s : State} {pa n : Nat} {l : L2Line} (hh : isHbm pa = true) (hg : granOk (granOf pa) = true) (ho : s.ownerOf (granOf pa) ≠ 0x3FE)
    (hn : 0 < n) (hlen : pa % 128 + n ≤ 128) (hl : s.pkg.l2.find? (lineOf pa) = some l) (hq : s.pkg.mergeQ.get [] (s.homeBank (lineOf pa)) = []) :
    ∃ (t : State) (l' : L2Line), exec (.peerApertureAccess pa n none) s = .next t ∧ t.mem = s.mem ∧ t.pkg.l2.find? (lineOf pa) = some l' ∧ l'.data = l.data := by
  have hr := (physRead_within_line hh hn hlen s).trans (homeLine_of_present hl hq)
  refine ⟨_, { l with used := s.now }, (exec_peerApertureAccess_owned hh hg ho hn hlen none).trans (congrArg Host.Outcome.next hr), ?_, ?_, rfl⟩
  · simp only [State.modPkg_mem]
  · simp only [State.modPkg_pkg, SMap.find?_put_self]

/-! ## The obligation -/

theorem lineEvents : LineEvents :=
  ⟨fun _ _ _ _ hh hn hf hv hab hr => l2Fill_installs hh hn hf hv hab hr, fun s _ a b h => exec_l2Fill_outside h a b s,
   fun s _ a b hh hn h => ⟨_, exec_l2Fill hh a b s, (fillLine_poisons hn h).1, by rw [(fillLine_poisons hn h).2.1]; exact hn, (fillLine_poisons hn h).2.2⟩,
   fun _ _ _ hl hd => writeBack_holds hl hd, fun s la h => (exec_writeBack la s).trans (congrArg _ (writeBackLine_of_clean h)),
   fun _ _ _ _ _ hq hl hw ht => homeBankMerge_holds hq hl hw ht, fun _ _ _ _ _ _ hq hl hw hs ho hr hring ht => homeBankMerge_logs hq hl hw hs ho hr hring ht,
   fun _ _ len d h => exec_peerApertureAccess_refused h len d, fun _ _ _ _ hh hg ho hne hlen hl hq => peerWrite_holds hh hg ho hne hlen hl hq,
   fun _ _ _ _ hh hg ho hn hlen hl hq => peerRead_holds hh hg ho hn hlen hl hq⟩

/-- Settles O34: the events of core memories one by one, and those of lines by what fills, write-backs and merges leave of memory, the lines of L2 and the logs. -/
theorem coreAndLineEvents : Obligations.CoreAndLineEvents := ⟨coreMemoryEvents, lineEvents⟩

end Sys2Proof.Machine
end


section
/-!
PROOFS. What an operation of a crew that only changes its engine context, its place, its registers or its waits leaves: faults of a whole crew,
one value written to a register of several strands, and results in flight (03 R50, R59; 06 R117).
-/
namespace Sys2Proof.Machine
open Sys2Proof.Claims

/-! ## Engine contexts -/

@[simp] theorem State.eng_modEng_self (s : State) (key : Nat) (f : EngCtx → EngCtx) : (s.modEng key f).eng key = f (s.eng key) :=
  SMap.get_set_self ..

theorem State.eng_modEng_ne (s : State) {key k : Nat} (f : EngCtx → EngCtx) (h : k ≠ key) : (s.modEng key f).eng k = s.eng k :=
  SMap.get_set_ne _ _ _ h

@[simp] theorem State.crew_modEng (s : State) (key k : Nat) (f : EngCtx → EngCtx) : (s.modEng key f).crew k = s.crew k := rfl

theorem State.eng_congr {s t : State} (h : t.pkg = s.pkg) (key : Nat) : t.eng key = s.eng key := by rw [State.eng, h, State.eng]

/-! ## Faults of a whole crew (03 R59) -/

/-- A fault latched: the first of a region is kept. -/
theorem latch_latches {s : State} {g : Group} {c : Crew} (h : s.crew s.focus = some (g, c)) (f : FaultRec) :
    Latches s (latch s.focus f s) g c f.kind f.lanes := by
  refine ⟨State.modCrew_mem .., _, _, c.region.latched.getD { f with bidx := c.pc, boff := c.pc, seg := c.seg }, State.crew_modCrew _ h, rfl, rfl, ?_, ?_, ?_⟩
  · cases c.region.latched <;> rfl
  · intro hn
    rw [hn]
    exact ⟨rfl, rfl⟩
  · intro e he
    rw [he, Option.getD_some]

theorem crewFault_latches {s : State} {g : Group} {c : Crew} (h : s.crew s.focus = some (g, c)) (hs : c.strands ≠ []) (kind : Trap) :
    (crewFault s.focus c kind s).pkg = s.pkg ∧ Latches s (crewFault s.focus c kind s) g c kind (c.strands.map fun l => (l.1, 0)) := by
  have hne : c.strands.map (fun l => (l.1, 0)) ≠ [] := by simpa using hs
  rw [crewFault, latchLanes, if_neg hne]
  exact ⟨State.modCrew_pkg .., latch_latches h _⟩

/-! ## One value for several strands, and results in flight (03 R50; 09 R174) -/

/-- The write of one value to a register of a strand. -/
abbrev strandWrite (reg v : Nat) (l : Nat × Nat) : RegWr := { cls := .x, reg := reg, slot := l.2, lane := l.1, val := BitVec.ofNat 64 v }

theorem strandWrites_eq (reg v : Nat) (ls : List (Nat × Nat)) : ls.map (strandWrite reg v) = laneWrites .x reg (ls.map fun l => (l, v, 0)) := by
  rw [laneWrites_eq, List.map_map]
  rfl

/-- Of a group and its crew one instruction of `n` bytes has changed register `reg` of the strands `ls`, which hold `v`, and the crew's place. -/
def Broadcasts (g : Group) (c : Crew) (ls : List (Nat × Nat)) (reg v n : Nat) (g' : Group) (c' : Crew) : Prop :=
  g' = { g with x := g'.x, running := some c' } ∧ c'.pc = c.pc + n ∧ c'.region.buf = c.region.buf ∧
  (∀ l ∈ ls, g'.getX l.2 l.1 reg = BitVec.ofNat 64 v) ∧
  ∀ slot lane m, lane < 64 → m ≤ 2097151 → (m ≠ reg ∨ (lane, slot) ∉ ls) → g'.getX slot lane m = g.getX slot lane m

theorem advance_putBur_broadcasts {s : State} {k : Nat} {g : Group} {c : Crew} (h : s.crew k = some (g, c)) {ls : List (Nat × Nat)}
    (hl : ∀ l ∈ ls, l.1 < 64) {reg : Nat} (hr : reg ≤ 2097151) (v n : Nat) :
    ∃ (g' : Group) (c' : Crew), (advance k n (putBur k (ls.map (strandWrite reg v)) s)).crew k = some (g', c') ∧ Broadcasts g c ls reg v n g' c' := by
  rw [strandWrites_eq]
  have hput := (congrArg (State.crew · k) (putBur_eq h (laneWrites .x reg (ls.map fun l => (l, v, 0))))).trans (State.crew_setGroup_self ..)
  refine ⟨_, _, State.crew_modCrew _ hput, ?_⟩
  obtain ⟨m, hm, hkeep⟩ := Group.putAll_x_frame c.ctx reg (ls.map fun l => (l, v, 0)) g
  refine ⟨by rw [hm], rfl, rfl, fun l hmem => ?_, fun slot lane r hlane hr' hne => ?_⟩
  · have hlt : ∀ r ∈ ls.map fun l => (l, v, (0 : BitVec 5)), r.1.1 < 64 := List.forall_mem_map.mpr hl
    have hsame : ∀ r ∈ ls.map fun l => (l, v, (0 : BitVec 5)), ∀ r' ∈ ls.map fun l => (l, v, (0 : BitVec 5)), r.1 = r'.1 → r.2 = r'.2 :=
      List.forall_mem_map.mpr fun _ _ => List.forall_mem_map.mpr fun _ _ _ => rfl
    exact Group.getX_putAll hlt hsame g (l, v, 0) (List.mem_map_of_mem hmem)
  · refine (congrArg (fun g : Group => g.getX slot lane r) hm).trans (hkeep _ ?_)
    simp only [List.forall_mem_map]
    intro l hmem he
    obtain ⟨hs, hla, hreg⟩ := xKey_inj hlane (hl l hmem) (by omega) (by omega) he
    rcases hne with hne | hne
    · exact hne hreg
    · exact hne (by rw [hs, hla]; exact hmem)

/-- Results put in flight that hold the crew past their deadline. -/
theorem crew_putHeld {s : State} {k : Nat} {g : Group} {c : Crew} (h : s.crew k = some (g, c)) (a d reg : Nat) (v : W64) :
    (putHeld k a d [{ cls := .s, reg := reg, slot := 0, lane := 0, val := v }] s).crew k =
      let c' := { c with inflight := c.inflight ++ [{ at_ := a, deadline := d, cls := .s, reg := reg, slot := 0, lane := 0, val := v, held := true }] }
      some ({ g with running := some c' }, c') := State.crew_modCrew _ h

theorem OnlyGroup.putHeld (k a d : Nat) (ws : List RegWr) (s : State) : OnlyGroup k s (putHeld k a d ws s) := OnlyGroup.modGroup ..

theorem OnlyGroup.holdCrew (k : Nat) (w : Wait) (s : State) : OnlyGroup k s (holdCrew k w s) := OnlyGroup.modGroup ..

/-- What lies outside the group of the core in focus is kept. -/
theorem OnlyGroup.outsideKept {s t : State} (h : OnlyGroup s.focus s t) : OutsideKept s t := by
  obtain ⟨hn, ha, hf, ho, hm, hp, hv, hk, g, hg⟩ := h
  exact ⟨hm, hp, hv, hn, ha, hf, ho, hk, by rw [hg]⟩

/-! ## Forms of the engine instructions (02 R20; 03 Table 3.6) -/

theorem bur_or_l_of_wellFormed {i : Instr} {f : Form} (hf : formOf i = some f) (hs : sAssigned (opcOf i) = false) (hv : vAssigned (opcOf i) = false)
    (hw : wellFormed i = true) : (∃ b, f = .bur b ∧ wfBur (opcOf i) b = true) ∨ ∃ d, f = .l d := by
  unfold wellFormed at hw
  rw [hf] at hw
  cases f with
  | bur b => exact .inl ⟨b, rfl, (Bool.and_eq_true_iff.mp hw).1⟩
  | l d => exact .inr ⟨d, rfl⟩
  | s d => simp [wfS, hs] at hw
  | v d => simp [wfV, hv] at hw

/-- A Burhus destination is the number of a register. -/
theorem dest_le_of_wfBur {op : Nat} {b : BIns} (h : wfBur op b = true) : b.d ≤ 2097151 := by
  unfold wfBur at h
  split at h
  · cases h
  · simp only [Bool.and_eq_true, wfUnused, Bool.or_eq_true, List.contains_iff_mem, List.all_eq_true, beq_iff_eq] at h
    obtain ⟨⟨⟨⟨⟨-, hall⟩, ⟨⟨⟨⟨⟨⟨⟨⟨hd, -⟩, -⟩, -⟩, -⟩, -⟩, -⟩, -⟩, -⟩⟩, -⟩, -⟩, -⟩ := h
    rcases hd with hd | hd
    · exact of_decide_eq_true (hall _ hd)
    · omega

end Sys2Proof.Machine
end


section
/-!
PROOFS. O23: the timeline instructions (06 R132, R133).
-/
namespace Sys2Proof.Machine
open Sys2Proof.Claims

/-! ## The acquire of a wait that is over (12 R249) -/

/-- A private cache of clean lines is dropped with nothing to drain. -/
theorem invalidateLines_of_clean {s : State} {k : Nat} (h : ∀ l ∈ (s.core k).cache, l.dirty = 0) :
    invalidateLines k (fun _ => true) s = s.modCore k fun c => { c with cache := [] } := by
  have hdrain : foldS ((s.core k).cache.filter fun _ => true) (fun l s => if l.dirty = 0 then s else drainThrough k l.line 257 s) s = s :=
    foldS_keeps (· = s) (fun l hl t ht => by rw [if_pos (h l (List.mem_filter.mp hl).1), ht]) rfl
  simp only [invalidateLines, hdrain, Bool.not_true, List.filter_false]

theorem crew_modCore_cache (s : State) (k : Nat) (x : List CLine) : (s.modCore k fun c => { c with cache := x }).crew k = s.crew k := by
  rw [State.crew, State.group, State.core_modCore_self]
  rfl

/-- A crew that waits, past the instruction that makes it wait: a slot of a bundle leaves its place to the bundle. -/
theorem hold_advanceForm {s : State} {k : Nat} {g : Group} {c : Crew} (hk : s.focus = k) (h : s.crew k = some (g, c)) (w : Wait) (op : Nat) (f : Form) :
    OnlyGroup k s (advanceForm op f (holdCrew k w s)) ∧ ∃ (g' : Group) (c' : Crew), (advanceForm op f (holdCrew k w s)).crew k = some (g', c') ∧
      g' = { g with running := some c' } ∧ c' = { c with pc := c'.pc, skip := c'.skip, hold := some w } ∧
      c'.pc = c.pc + (match f with | .bur b => (encodeBIns op b).length | _ => 0) := by
  have hheld : (holdCrew k w s).crew k = _ := State.crew_modCrew _ h
  have honly : OnlyGroup k s (holdCrew k w s) := OnlyGroup.holdCrew ..
  cases f with
  | bur b =>
    rw [advanceForm, show (holdCrew k w s).focus = k from (State.modCrew_focus ..).trans hk]
    exact ⟨honly.trans (OnlyGroup.advance ..), _, _, State.crew_modCrew _ hheld, rfl, rfl, rfl⟩
  | s d => exact ⟨honly, _, _, hheld, rfl, rfl, rfl⟩
  | v d => exact ⟨honly, _, _, hheld, rfl, rfl, rfl⟩
  | l d => exact ⟨honly, _, _, hheld, rfl, rfl, rfl⟩

/-! ## TLR (06 R133) -/

/-- The engine context that TLR and TLW name (06 R117). -/
abbrev tlCtx (s : State) (g : Group) (f : Form) : EngCtx := s.eng (engKey (s.asidOf g) (tlClass f) (s.focus / 128))

theorem exec_tlr_bur {s : State} {g : Group} {c : Crew} (h : s.crew s.focus = some (g, c)) (b : BIns) : exec (.tlr (.bur b)) s =
    .next (advance s.focus (lenB 0x75 b) (putBur s.focus ((burLanes g c b.guard).map (strandWrite b.d (tlCtx s g (.bur b)).counter)) s)) := by
  show execTlr (.bur b) s = _
  simp only [execTlr, h]
  rfl

theorem exec_tlr_l {s : State} {g : Group} {c : Crew} (h : s.crew s.focus = some (g, c)) (d : LSlot) : exec (.tlr (.l d)) s =
    .next (if qGuard g c (d.gp.toNat % 4) d.ge d.gn then putHeld s.focus (s.cycle + 8) (s.cycle + lBound (.l d))
      [{ cls := .s, reg := d.d.toNat, slot := 0, lane := 0, val := BitVec.ofNat 64 (tlCtx s g (.l d)).counter }] s else s) := by
  show execTlr (.l d) s = _
  simp only [execTlr, h]
  rfl

/-! ## TLW (06 R132) -/

/-- The number that TLW waits for. -/
abbrev tlNumber (g : Group) (c : Crew) (f : Form) : Nat := engOperand g c f (fun _ => match f with | .bur b => b.a | _ => 0) 0

theorem exec_tlw {s : State} {g : Group} {c : Crew} {f : Form} (h : s.crew s.focus = some (g, c)) (hx : crewExecutes g c f = true) : exec (.tlw f) s =
    .next (if (tlCtx s g f).last < tlNumber g c f then crewFault s.focus c .tlBad s
      else if tlNumber g c f ≤ (tlCtx s g f).counter then
        advanceForm 0x74 f (holdCrew s.focus (.acquire (s.cycle + 32)) (invalidateLines s.focus (fun _ => true) s))
      else holdCrew s.focus (.timeline (tlClass f) (tlNumber g c f)) s) := by
  show execTlw f s = _
  simp only [execTlw, h, hx]
  rfl

theorem exec_tlw_reached {s : State} {g : Group} {c : Crew} {f : Form} (h : s.crew s.focus = some (g, c)) (hx : crewExecutes g c f = true)
    (hl : tlNumber g c f ≤ (tlCtx s g f).last) (hn : tlNumber g c f ≤ (tlCtx s g f).counter) : exec (.tlw f) s =
      .next (advanceForm 0x74 f (holdCrew s.focus (.acquire (s.cycle + 32)) (invalidateLines s.focus (fun _ => true) s))) := by
  rw [exec_tlw h hx, if_neg (Nat.not_lt.mpr hl), if_pos hn]

theorem exec_tlw_later {s : State} {g : Group} {c : Crew} {f : Form} (h : s.crew s.focus = some (g, c)) (hx : crewExecutes g c f = true)
    (hl : tlNumber g c f ≤ (tlCtx s g f).last) (hn : (tlCtx s g f).counter < tlNumber g c f) : exec (.tlw f) s =
      .next (holdCrew s.focus (.timeline (tlClass f) (tlNumber g c f)) s) := by
  rw [exec_tlw h hx, if_neg (Nat.not_lt.mpr hl), if_neg (Nat.not_le.mpr hn)]

theorem exec_tlw_beyond {s : State} {g : Group} {c : Crew} {f : Form} (h : s.crew s.focus = some (g, c)) (hx : crewExecutes g c f = true)
    (hl : (tlCtx s g f).last < tlNumber g c f) : exec (.tlw f) s = .next (crewFault s.focus c .tlBad s) := by
  rw [exec_tlw h hx, if_pos hl]

/-- The crew that an acquire holds for its 32 cycles, past its instruction. -/
theorem acquire_holds {s : State} {g : Group} {c : Crew} (h : s.crew s.focus = some (g, c)) (hd : ∀ l ∈ (s.core s.focus).cache, l.dirty = 0) (op : Nat) (f : Form) :
    let t := advanceForm op f (holdCrew s.focus (.acquire (s.cycle + 32)) (invalidateLines s.focus (fun _ => true) s))
    t.mem = s.mem ∧ (t.core s.focus).cache = [] ∧ ∃ (g' : Group) (c' : Crew), t.crew s.focus = some (g', c') ∧ g' = { g with running := some c' } ∧
      c' = { c with pc := c'.pc, skip := c'.skip, hold := some (.acquire (s.cycle + 32)) } ∧
      c'.pc = c.pc + (match f with | .bur b => (encodeBIns op b).length | _ => 0) := by
  intro t
  have ht : t = advanceForm op f (holdCrew s.focus (.acquire (s.cycle + 32)) (s.modCore s.focus fun c => { c with cache := [] })) := by
    rw [← invalidateLines_of_clean hd]
  have hcore : ((s.modCore s.focus fun c => { c with cache := [] }).core s.focus).cache = [] := congrArg Core.cache (State.core_modCore_self ..)
  obtain ⟨⟨-, -, -, -, hmem, -, -, -, x, hx⟩, hcrew⟩ := hold_advanceForm
    (s := s.modCore s.focus fun c => { c with cache := [] }) (k := s.focus) rfl ((crew_modCore_cache s s.focus []).trans h) (.acquire (s.cycle + 32)) op f
  rw [ht]
  exact ⟨hmem, (congrArg Core.cache hx).trans hcore, hcrew⟩

/-! ## The obligation -/

theorem tlr_bur_reads {s : State} {g : Group} {c : Crew} {b : BIns} (h : s.crew s.focus = some (g, c)) (hb : wfBur 0x75 b = true) :
    ∃ (t : State) (g' : Group) (c' : Crew), exec (.tlr (.bur b)) s = .next t ∧ t.mem = s.mem ∧ t.pkg = s.pkg ∧ t.crew s.focus = some (g', c') ∧
      c'.pc = c.pc + (encodeBIns 0x75 b).length ∧ ∀ l ∈ burLanes g c b.guard, g'.getX l.2 l.1 b.d = BitVec.ofNat 64 (tlCtx s g (.bur b)).counter := by
  obtain ⟨g', c', hc', -, hpc, -, hx, -⟩ :=
    advance_putBur_broadcasts h (fun _ => burLanes_lt) (dest_le_of_wfBur hb) (tlCtx s g (.bur b)).counter (lenB 0x75 b)
  obtain ⟨-, -, -, -, hmem, hpkg, -⟩ := (OnlyGroup.putBur ..).trans (OnlyGroup.advance ..)
  exact ⟨_, g', c', exec_tlr_bur h b, hmem, hpkg, hc', hpc, hx⟩

theorem tlr_l_reads {s : State} {g : Group} {c : Crew} (h : s.crew s.focus = some (g, c)) (d : LSlot) :
    ∃ (t : State) (g' : Group) (c' : Crew), exec (.tlr (.l d)) s = .next t ∧ t.mem = s.mem ∧ t.pkg = s.pkg ∧ t.crew s.focus = some (g', c') ∧
      c'.inflight = c.inflight ++ (if qGuard g c (d.gp.toNat % 4) d.ge d.gn then
        [{ at_ := s.cycle + 8, deadline := s.cycle + d.lat.toNat + 1, cls := .s, reg := d.d.toNat, slot := 0, lane := 0
           val := BitVec.ofNat 64 (tlCtx s g (.l d)).counter, held := true }] else []) := by
  rw [exec_tlr_l h]
  by_cases hq : qGuard g c (d.gp.toNat % 4) d.ge d.gn
  · obtain ⟨-, -, -, -, hmem, hpkg, -⟩ := OnlyGroup.putHeld ..
    rw [if_pos hq, if_pos hq]
    exact ⟨_, _, _, rfl, hmem, hpkg, crew_putHeld h .., rfl⟩
  · rw [if_neg hq, if_neg hq, List.append_nil]
    exact ⟨_, _, _, rfl, rfl, rfl, h, rfl⟩

/-- Settles O23: TLR by the forms that it has, TLW by how the number stands to the counter and to the last number. -/
theorem timelines : Obligations.Timelines := by
  intro s g c f h e n
  refine ⟨fun hw => ?_, fun _ hx hl hn hd => ?_, fun _ hx hl hn => ?_, fun _ hx hl hs => ?_⟩
  · rcases bur_or_l_of_wellFormed (i := .tlr f) rfl rfl rfl hw with ⟨b, rfl, hb⟩ | ⟨d, rfl⟩
    · exact tlr_bur_reads h hb
    · exact tlr_l_reads h d
  · obtain ⟨hmem, hcache, g', c', hc', hg', hkeep, hpc⟩ := acquire_holds h hd 0x74 f
    exact ⟨_, g', c', exec_tlw_reached h hx hl hn, hmem, hc', hcache, hg', hkeep, hpc⟩
  · exact ⟨_, _, exec_tlw_later h hx hl hn, (OnlyGroup.holdCrew ..).outsideKept, rfl, State.crew_modCrew _ h⟩
  · exact ⟨_, exec_tlw_beyond h hx hl, (crewFault_latches h hs .tlBad).2⟩

end Sys2Proof.Machine
end


section
/-!
PROOFS. O22: the engine commands (06 R120, R121, R127 to R129, R137).
-/
namespace Sys2Proof.Machine
open Sys2Proof.Claims

/-! ## Places of a queue (06 R121) -/

/-- The state with a command in the last place of its queue, under the next number. -/
def queued (key : Nat) (x : EngCmd) (s : State) : State :=
  (s.modEng key fun e => { e with last := (s.eng key).last + 1, queue := e.queue ++ [{ x with num := (s.eng key).last + 1 }] }).modEng key
    fun e => { e with waiting := e.waiting.drop 1 }

theorem takePlace_of_room {s : State} {key : Nat} {me : Nat × Nat} (ht : (s.eng key).turnOf me = true) (hq : (s.eng key).queue.length < 256) (x : EngCmd) :
    takePlace key me x s = some (queued key x s, (s.eng key).last + 1) := by
  rw [takePlace, if_pos ht, acceptCmd, if_neg (Nat.not_le.mpr hq)]
  rfl

theorem takePlace_of_full {s : State} {key : Nat} (hq : (s.eng key).queue.length = 256) (me : Nat × Nat) (x : EngCmd) : takePlace key me x s = none := by
  rw [takePlace, acceptCmd, if_pos (Nat.le_of_eq hq.symm)]
  split <;> rfl

theorem queued_eng (key : Nat) (x : EngCmd) (s : State) : (queued key x s).eng key =
    { s.eng key with
      last := (s.eng key).last + 1
      queue := (s.eng key).queue ++ [{ x with num := (s.eng key).last + 1 }]
      waiting := (s.eng key).waiting.drop 1 } := by
  simp only [queued, State.eng_modEng_self]

theorem queued_eng_ne {key k : Nat} (h : k ≠ key) (x : EngCmd) (s : State) : (queued key x s).eng k = s.eng k := by
  rw [queued, State.eng_modEng_ne _ _ h, State.eng_modEng_ne _ _ h]

@[simp] theorem queued_crew (key : Nat) (x : EngCmd) (s : State) (k : Nat) : (queued key x s).crew k = s.crew k := rfl

theorem appendBuf_of_room {s : State} {k : Nat} {g : Group} {c : Crew} (h : s.crew k = some (g, c)) (hb : c.region.buf.length < 768) (e : BufEntry) :
    appendBuf k e s = s.modRegion k fun r => { r with buf := r.buf ++ [e] } := by
  simp only [appendBuf, h, if_neg (Nat.not_le.mpr hb)]

/-! ## What the crew asks for (06 R120, R126 to R129) -/

/-- The operands of an engine command, by its number of operand registers. -/
abbrev engOps (op cnt : Nat) (g : Group) (c : Crew) (f : Form) : EngOps :=
  let v := engOperand g c f (engRegs f)
  { dst := v 1, src := v 2, c := if 3 < cnt then v 3 else 0, e := if 4 < cnt then v 4 else 0, fw := if op ≠ 0x73 ∧ engFlag f then some (v cnt) else none }

/-- Type, kind and operation of a collective. -/
def collFields : Form → Nat × Nat × Nat
  | .bur b => (b.m1.toNat % 16, fld 5 4 b.m1.toNat, fld 7 6 b.m1.toNat)
  | .l d => (d.ty.toNat, d.pol.toNat, d.aop.toNat)
  | _ => (0, 0, 0)

/-- The command that a crew asks for, before it has a number. -/
def askedCmd (op cnt : Nat) (s : State) (g : Group) (c : Crew) (f : Form) : EngCmd :=
  if op = 0x73 then cmdOfOps s g s.focus op (collFields f).1 (collFields f).2.1 (collFields f).2.2 (engOps op cnt g c f)
  else cmdOfOps s g s.focus op 0 0 0 (engOps op cnt g c f)

theorem askedCmd_facts (op cnt : Nat) (s : State) (g : Group) (c : Crew) (f : Form) : let x := askedCmd op cnt s g c f
    x.op = op ∧ x.core = s.focus ∧ x.launch = g.launch ∧ x.dst = engOperand g c f (engRegs f) 1 ∧ x.src = engOperand g c f (engRegs f) 2 ∧
      x.released = false ∧ x.started = false := by
  unfold askedCmd
  split <;> exact ⟨rfl, rfl, rfl, rfl, rfl, rfl, rfl⟩

/-- The crew's mask is full and all of its strands execute (06 R120). -/
def WholeCrew (s : State) (g : Group) (c : Crew) (f : Form) : Prop :=
  fullCrew s g c = true ∧ ∀ b, f = .bur b → (burLanes g c b.guard).length = c.strands.length

theorem strands_ne_nil_of_whole {s : State} {g : Group} {c : Crew} {f : Form} (h : WholeCrew s g c f) : c.strands ≠ [] := by
  intro hn
  have hfull := h.1
  rw [fullCrew, hn] at hfull
  cases hfull

/-- Of a whole crew every strand is in a lane that executes. -/
theorem lane_lt_of_whole {s : State} {g : Group} {c : Crew} {b : BIns} (h : WholeCrew s g c (.bur b)) : ∀ l ∈ c.strands, l.1 < 64 := by
  intro l hl
  have heq : burLanes g c b.guard = c.strands := List.filter_sublist.eq_of_length (h.2 b rfl)
  exact burLanes_lt (heq ▸ hl : l ∈ burLanes g c b.guard)

/-! ## Issue (06 R120, R121) -/

section
variable {op cls cnt : Nat} {s : State} {g : Group} {c : Crew} {f : Form}

/-- The context of the queue that a command goes to (06 R117). -/
abbrev engAt (s : State) (g : Group) (cls : Nat) : Nat := engKey (s.asidOf g) cls (dieOf s.focus)

theorem engExec_partial (h : s.crew s.focus = some (g, c)) (hx : crewExecutes g c f = true) (hw : ¬WholeCrew s g c f) :
    engExec op cls cnt f s = crewFault s.focus c .partialMask s := by
  simp only [engExec, h, hx, Bool.not_true, Bool.false_eq_true, if_false]
  refine if_pos ?_
  cases f with
  | bur b =>
    rw [Bool.or_eq_true, Bool.not_eq_true', decide_eq_true_eq]
    by_contra hn
    rw [not_or, Bool.not_eq_false, ne_eq, not_not] at hn
    exact hw ⟨hn.1, fun b' hb => by cases hb; exact hn.2⟩
  | l d =>
    rw [Bool.or_eq_true, Bool.not_eq_true']
    by_contra hn
    rw [not_or, Bool.not_eq_false] at hn
    exact hw ⟨hn.1, fun b hb => by cases hb⟩
  | s d => cases hx
  | v d => cases hx

theorem engExec_refused (h : s.crew s.focus = some (g, c)) (hx : crewExecutes g c f = true) (hw : WholeCrew s g c f) {k : Trap}
    (ha : acceptFault s g s.focus op (engOps op cnt g c f) = some k) : engExec op cls cnt f s = crewFault s.focus c k s := by
  obtain ⟨hfull, hlanes⟩ := hw
  cases f with
  | bur b => simp only [engExec, h, hx, hfull, hlanes b rfl, ha, Bool.not_true, ne_eq, not_true, decide_false, Bool.or_self, Bool.false_eq_true, if_false]
  | l d => simp only [engExec, h, hx, hfull, ha, Bool.not_true, Bool.or_self, Bool.false_eq_true, if_false]
  | s d => cases hx
  | v d => cases hx

/-- What a whole Burhus crew does with what the queue front answers. -/
theorem engExec_bur {b : BIns} (h : s.crew s.focus = some (g, c)) (hx : crewExecutes g c (.bur b) = true) (hw : WholeCrew s g c (.bur b))
    (ha : acceptFault s g s.focus op (engOps op cnt g c (.bur b)) = none) : engExec op cls cnt (.bur b) s =
      match takePlace (engAt s g cls) (s.focus, c.ctx) (askedCmd op cnt s g c (.bur b)) s with
      | some (t, n) => advance s.focus (lenB op b) (putBur s.focus (c.strands.map (strandWrite b.d n)) (appendBuf s.focus (.engine cls n) t))
      | none => if (s.eng (engAt s g cls)).waiting.contains (s.focus, c.ctx) then s else joinWait (engAt s g cls) (s.focus, c.ctx) s := by
  obtain ⟨hfull, hlanes⟩ := hw
  generalize hp : takePlace (engAt s g cls) (s.focus, c.ctx) (askedCmd op cnt s g c (.bur b)) s = r
  simp only [askedCmd, collFields, engOps, ne_eq] at hp
  simp only [engExec, h, hx, hfull, hlanes b rfl, ha, hp, Bool.not_true, ne_eq, not_true, decide_false, Bool.or_self, Bool.false_eq_true, if_false]
  cases r <;> rfl

/-- What the crew of a bundle does with it. -/
theorem engExec_l {d : LSlot} (h : s.crew s.focus = some (g, c)) (hx : crewExecutes g c (.l d) = true) (hw : WholeCrew s g c (.l d))
    (ha : acceptFault s g s.focus op (engOps op cnt g c (.l d)) = none) : engExec op cls cnt (.l d) s =
      match if (s.eng (engAt s g cls)).waiting.isEmpty then takePlace (engAt s g cls) (s.focus, c.ctx) (askedCmd op cnt s g c (.l d)) s else none with
      | some (t, n) => putHeld s.focus (t.cycle + 16) (t.cycle + lBound (.l d)) [{ cls := .s, reg := d.d.toNat, slot := 0, lane := 0, val := BitVec.ofNat 64 n }]
          (appendBuf s.focus (.engine cls n) t)
      | none => (joinWait (engAt s g cls) (s.focus, c.ctx) s).modCrew s.focus fun c' => { c' with accepting := c'.accepting ++
          [{ cmd := askedCmd op cnt s g c (.l d), cls := cls, reg := d.d.toNat, deadline := s.cycle + lBound (.l d) }] } := by
  generalize hcmd : askedCmd op cnt s g c (.l d) = x
  simp only [askedCmd, collFields, engOps, ne_eq] at hcmd
  simp only [engExec, h, hx, hw.1, ha, hcmd, Bool.not_true, Bool.or_self, Bool.false_eq_true, if_false, ne_eq]
  generalize (if (s.eng (engAt s g cls)).waiting.isEmpty then takePlace (engAt s g cls) (s.focus, c.ctx) x s else none) = r
  cases r <;> rfl

/-! ## Commands that are accepted at once (06 R121) -/

/-- The state with the command in its queue and in the crew's region. -/
def buffered (op cls cnt : Nat) (s : State) (g : Group) (c : Crew) (f : Form) : State :=
  (queued (engAt s g cls) (askedCmd op cnt s g c f) s).modRegion s.focus fun r => { r with buf := r.buf ++ [.engine cls ((s.eng (engAt s g cls)).last + 1)] }

theorem buffered_crew (h : s.crew s.focus = some (g, c)) : (buffered op cls cnt s g c f).crew s.focus =
    let c' := { c with region := { c.region with buf := c.region.buf ++ [.engine cls ((s.eng (engAt s g cls)).last + 1)] } }
    some ({ g with running := some c' }, c') := State.crew_modRegion _ h

/-- An issue from a whole crew whose queue has a place and no other crew in line. -/
structure QueuesAt (op cls cnt : Nat) (s : State) (g : Group) (c : Crew) (f : Form) : Prop where
  crew : s.crew s.focus = some (g, c)
  executes : crewExecutes g c f = true
  whole : WholeCrew s g c f
  accepted : acceptFault s g s.focus op (engOps op cnt g c f) = none
  room : (s.eng (engAt s g cls)).queue.length < 256
  first : (s.eng (engAt s g cls)).waiting = []
  bufRoom : c.region.buf.length < 768

theorem QueuesAt.takePlace (h : QueuesAt op cls cnt s g c f) : takePlace (engAt s g cls) (s.focus, c.ctx) (askedCmd op cnt s g c f) s =
    some (queued (engAt s g cls) (askedCmd op cnt s g c f) s, (s.eng (engAt s g cls)).last + 1) :=
  takePlace_of_room (by rw [EngCtx.turnOf, h.first, List.head?_nil]) h.room _

theorem QueuesAt.appendBuf (h : QueuesAt op cls cnt s g c f) : appendBuf s.focus (.engine cls ((s.eng (engAt s g cls)).last + 1))
    (queued (engAt s g cls) (askedCmd op cnt s g c f) s) = buffered op cls cnt s g c f :=
  appendBuf_of_room ((queued_crew ..).trans h.crew) h.bufRoom _

theorem QueuesAt.engExec_bur {b : BIns} (h : QueuesAt op cls cnt s g c (.bur b)) : engExec op cls cnt (.bur b) s =
    advance s.focus (lenB op b) (putBur s.focus (c.strands.map (strandWrite b.d ((s.eng (engAt s g cls)).last + 1))) (buffered op cls cnt s g c (.bur b))) := by
  simp only [Machine.engExec_bur h.crew h.executes h.whole h.accepted, h.takePlace, h.appendBuf]

theorem QueuesAt.engExec_l {d : LSlot} (h : QueuesAt op cls cnt s g c (.l d)) : engExec op cls cnt (.l d) s =
    putHeld s.focus (s.cycle + 16) (s.cycle + lBound (.l d))
      [{ cls := .s, reg := d.d.toNat, slot := 0, lane := 0, val := BitVec.ofNat 64 ((s.eng (engAt s g cls)).last + 1) }] (buffered op cls cnt s g c (.l d)) := by
  simp only [Machine.engExec_l h.crew h.executes h.whole h.accepted, h.takePlace, h.first, h.appendBuf, List.isEmpty_nil, if_true]
  rfl

/-- What a command that is accepted leaves of its queue, and of the others: all that stands in the package once it is in the region's buffer. -/
theorem eng_of_buffered {t : State} (h : OnlyGroup s.focus (buffered op cls cnt s g c f) t) : t.mem = s.mem ∧
    (t.eng (engAt s g cls)).last = (s.eng (engAt s g cls)).last + 1 ∧
    (t.eng (engAt s g cls)).queue = (s.eng (engAt s g cls)).queue ++ [{ askedCmd op cnt s g c f with num := (s.eng (engAt s g cls)).last + 1 }] ∧
    (t.eng (engAt s g cls)).counter = (s.eng (engAt s g cls)).counter ∧ ∀ k, k ≠ engAt s g cls → t.eng k = s.eng k := by
  obtain ⟨-, -, -, -, hmem, hpkg, -⟩ := h
  have hp : t.pkg = (queued (engAt s g cls) (askedCmd op cnt s g c f) s).pkg := hpkg.trans (State.modRegion_pkg ..)
  have heng := (State.eng_congr hp _).trans (queued_eng (engAt s g cls) (askedCmd op cnt s g c f) s)
  exact ⟨hmem.trans (State.modRegion_mem ..), congrArg EngCtx.last heng, congrArg EngCtx.queue heng, (congrArg EngCtx.counter heng).trans rfl,
    fun k hk => (State.eng_congr hp k).trans (queued_eng_ne hk ..)⟩

/-- A Burhus crew goes on with the number in its strands' registers. -/
theorem engExec_bur_accepted {b : BIns} (h : QueuesAt op cls cnt s g c (.bur b)) (hd : b.d ≤ 2097151) :
    let n := (s.eng (engAt s g cls)).last + 1
    OnlyGroup s.focus (buffered op cls cnt s g c (.bur b)) (engExec op cls cnt (.bur b) s) ∧
      ∃ (g' : Group) (c' : Crew), (engExec op cls cnt (.bur b) s).crew s.focus = some (g', c') ∧ g' = { g with x := g'.x, running := some c' } ∧
        c'.region.buf = c.region.buf ++ [.engine cls n] ∧ c'.pc = c.pc + (encodeBIns op b).length ∧
        (∀ l ∈ c.strands, g'.getX l.2 l.1 b.d = BitVec.ofNat 64 n) ∧
        ∀ slot lane r, lane < 64 → r ≤ 2097151 → (r ≠ b.d ∨ (lane, slot) ∉ c.strands) → g'.getX slot lane r = g.getX slot lane r := by
  intro n
  obtain ⟨g', c', hc', hg', hpc, hbuf, hx, hkeep⟩ := advance_putBur_broadcasts (buffered_crew h.crew) (lane_lt_of_whole h.whole) hd n (lenB op b)
  rw [h.engExec_bur]
  exact ⟨(OnlyGroup.putBur ..).trans (OnlyGroup.advance ..), g', c', hc', hg', hbuf, hpc, hx, hkeep⟩

/-- The crew of a bundle has the number in flight to its register. -/
theorem engExec_l_accepted {d : LSlot} (h : QueuesAt op cls cnt s g c (.l d)) :
    let n := (s.eng (engAt s g cls)).last + 1
    OnlyGroup s.focus (buffered op cls cnt s g c (.l d)) (engExec op cls cnt (.l d) s) ∧
      ∃ (g' : Group) (c' : Crew), (engExec op cls cnt (.l d) s).crew s.focus = some (g', c') ∧ g' = { g with x := g'.x, running := some c' } ∧
        c'.region.buf = c.region.buf ++ [.engine cls n] ∧ c'.inflight = c.inflight ++
          [{ at_ := s.cycle + 16, deadline := s.cycle + d.lat.toNat + 1, cls := .s, reg := d.d.toNat, slot := 0, lane := 0, val := BitVec.ofNat 64 n, held := true }] := by
  intro n
  rw [h.engExec_l]
  exact ⟨OnlyGroup.putHeld .., _, _, crew_putHeld (buffered_crew h.crew) .., rfl, rfl, rfl⟩

/-! ## Commands that wait (06 R121) -/

theorem eng_of_joined {key : Nat} {me : Nat × Nat} {t : State} (h : t.pkg = (joinWait key me s).pkg) :
    (t.eng key).waiting = (s.eng key).waiting ++ [me] ∧ (t.eng key).queue = (s.eng key).queue ∧ (t.eng key).last = (s.eng key).last := by
  rw [State.eng_congr h, joinWait, State.eng_modEng_self]
  exact ⟨rfl, rfl, rfl⟩

/-- A Burhus crew that finds its queue full waits in turn where it stands. -/
theorem engExec_bur_waits {b : BIns} (h : s.crew s.focus = some (g, c)) (hx : crewExecutes g c (.bur b) = true) (hw : WholeCrew s g c (.bur b))
    (ha : acceptFault s g s.focus op (engOps op cnt g c (.bur b)) = none) (hq : (s.eng (engAt s g cls)).queue.length = 256)
    (hf : (s.focus, c.ctx) ∉ (s.eng (engAt s g cls)).waiting) : engExec op cls cnt (.bur b) s = joinWait (engAt s g cls) (s.focus, c.ctx) s := by
  simp only [engExec_bur h hx hw ha, takePlace_of_full hq]
  exact if_neg (by simpa using hf)

/-- A bundle's crew goes on, and its command waits in turn. -/
theorem engExec_l_waits {d : LSlot} (h : s.crew s.focus = some (g, c)) (hx : crewExecutes g c (.l d) = true) (hw : WholeCrew s g c (.l d))
    (ha : acceptFault s g s.focus op (engOps op cnt g c (.l d)) = none) (hq : (s.eng (engAt s g cls)).queue.length = 256) :
    engExec op cls cnt (.l d) s = (joinWait (engAt s g cls) (s.focus, c.ctx) s).modCrew s.focus fun c' => { c' with accepting := c'.accepting ++
      [{ cmd := askedCmd op cnt s g c (.l d), cls := cls, reg := d.d.toNat, deadline := s.cycle + lBound (.l d) }] } := by
  simp only [engExec_l h hx hw ha, takePlace_of_full hq, ite_self]

end

/-! ## The obligation -/

/-- The engine commands, with their opcodes, classes and numbers of operand registers. -/
def engineOps : List ((Form → Instr) × Nat × Nat × Nat) := [(.cpy, 0x70, 0, 4), (.cpy2, 0x71, 0, 5), (.gath, 0x72, 0, 5), (.coll, 0x73, 1, 2)]

theorem exec_engineOp : ∀ e ∈ engineOps, ∀ f s, exec (e.1 f) s = .next (engExec e.2.1 e.2.2.1 e.2.2.2 f s) := by
  simp only [engineOps, List.forall_mem_cons]
  exact ⟨fun _ _ => rfl, fun _ _ => rfl, fun _ _ => rfl, fun _ _ => rfl, nofun⟩

theorem form_engineOp : ∀ e ∈ engineOps, ∀ f, wellFormed (e.1 f) = true → (∃ b, f = .bur b ∧ b.d ≤ 2097151) ∨ ∃ d, f = .l d := by
  have key : ∀ (i : Instr) (f : Form), formOf i = some f → sAssigned (opcOf i) = false → vAssigned (opcOf i) = false → wellFormed i = true →
      (∃ b, f = .bur b ∧ b.d ≤ 2097151) ∨ ∃ d, f = .l d := by
    intro i f hf hs hv hw
    rcases bur_or_l_of_wellFormed hf hs hv hw with ⟨b, rfl, hb⟩ | hl
    · exact .inl ⟨b, rfl, dest_le_of_wfBur hb⟩
    · exact .inr hl
  simp only [engineOps, List.forall_mem_cons]
  exact ⟨fun f => key (.cpy f) f rfl rfl rfl, fun f => key (.cpy2 f) f rfl rfl rfl, fun f => key (.gath f) f rfl rfl rfl, fun f => key (.coll f) f rfl rfl rfl, nofun⟩

/-- Settles O22: a whole crew's command by what the queue front answers, and the faults of a crew that is not whole or asks for what acceptance refuses. -/
theorem engineCommands : Obligations.EngineCommands := by
  intro e he s g c f hwf h hx op cls cnt v o key whole
  have hexec := exec_engineOp e he f s
  have hforms := form_engineOp e he f hwf
  refine ⟨fun hw ha hq hwait hb => ?_, fun hw ha hq hwait => ?_, fun hs hw => ?_, fun k hw ha => ?_⟩
  · have hat : QueuesAt op cls cnt s g c f := ⟨h, hx, hw, ha, hq, hwait, hb⟩
    obtain ⟨hop, hcore, hlaunch, hdst, hsrc, hrel, hstart⟩ := askedCmd_facts op cnt s g c f
    rcases hforms with ⟨b, rfl, hd⟩ | ⟨d, rfl⟩
    · obtain ⟨honly, g', c', hc', hg', hbuf, hform⟩ := engExec_bur_accepted hat hd
      obtain ⟨hmem, hlast, hqueue, hcounter, hne⟩ := eng_of_buffered honly
      exact ⟨_, g', c', _, hexec, hmem, hc', hlast, hqueue, hcounter, rfl, hop, hcore, hlaunch, hdst, hsrc, hrel, hstart, hne, hg', hbuf, hform⟩
    · obtain ⟨honly, g', c', hc', hg', hbuf, hform⟩ := engExec_l_accepted hat
      obtain ⟨hmem, hlast, hqueue, hcounter, hne⟩ := eng_of_buffered honly
      exact ⟨_, g', c', _, hexec, hmem, hc', hlast, hqueue, hcounter, rfl, hop, hcore, hlaunch, hdst, hsrc, hrel, hstart, hne, hg', hbuf, hform⟩
  · rcases hforms with ⟨b, rfl, -⟩ | ⟨d, rfl⟩
    · obtain ⟨hwaiting, hqueue, hlast⟩ := eng_of_joined (s := s) (key := key) (me := (s.focus, c.ctx)) rfl
      exact ⟨_, g, c, hexec.trans (congrArg _ (engExec_bur_waits h hx hw ha hq hwait)), rfl, h, hwaiting, hqueue, hlast, rfl, rfl, fun _ _ => rfl, nofun⟩
    · obtain ⟨hop, hcore, hlaunch, hdst, hsrc, -⟩ := askedCmd_facts op cnt s g c (.l d)
      obtain ⟨hwaiting, hqueue, hlast⟩ := eng_of_joined (s := s) (key := key) (State.modCrew_pkg ..)
      refine ⟨_, _, _, hexec.trans (congrArg _ (engExec_l_waits h hx hw ha hq)), State.modCrew_mem .., State.crew_modCrew _ h, hwaiting, hqueue, hlast,
        rfl, rfl, nofun, fun d' hd => ?_⟩
      cases hd
      exact ⟨_, rfl, hop, hcore, hlaunch, hdst, hsrc⟩
  · obtain ⟨hpkg, hlatch⟩ := crewFault_latches h hs .partialMask
    exact ⟨_, hexec.trans (congrArg _ (engExec_partial h hx hw)), hpkg, hlatch⟩
  · obtain ⟨hpkg, hlatch⟩ := crewFault_latches h (strands_ne_nil_of_whole hw) k
    exact ⟨_, hexec.trans (congrArg _ (engExec_refused h hx hw ha)), hpkg, hlatch⟩

end Sys2Proof.Machine
end


section
/-!
PROOFS. What the work of memory and the page-fault service leaves of the engines: their contexts and the engines at work (06 R117, R122; 19 R387).
-/
namespace Sys2Proof.Machine

/-- The engine contexts and the engines at work. -/
def State.engines (s : State) : SMap EngCtx × SMap EngRun := (s.pkg.eng, s.pkg.runs)

theorem engines_of_pair {α : Type} {p : State × α} {t : State} {a : α} {v : SMap EngCtx × SMap EngRun} (e : p = (t, a)) (h : p.1.engines = v) :
    t.engines = v := by
  rw [e] at h
  exact h

theorem foldS_engines {α : Type} {f : α → State → State} (h : ∀ a s, (f a s).engines = s.engines) (l : List α) (s : State) :
    (foldS l f s).engines = s.engines := foldS_view State.engines (fun a _ s => h a s) s

/-! ## Updates of the state -/

theorem engines_modPkg (s : State) (f : Pkg → Pkg) (h : ∀ p, (f p).eng = p.eng ∧ (f p).runs = p.runs) : (s.modPkg f).engines = s.engines :=
  Prod.ext (h s.pkg).1 (h s.pkg).2

theorem engines_modPkg_of {s : State} {v : SMap EngCtx × SMap EngRun} (h : s.engines = v) {f : Pkg → Pkg}
    (hf : ∀ p, (f p).eng = p.eng ∧ (f p).runs = p.runs := by exact fun _ => ⟨rfl, rfl⟩) : (s.modPkg f).engines = v :=
  (engines_modPkg s f hf).trans h

theorem engines_modSvc (s : State) (f : Svc → Svc) : (s.modSvc f).engines = s.engines := rfl
theorem engines_modFn (s : State) (k : Nat) (f : Fn → Fn) : (s.modFn k f).engines = s.engines := rfl
theorem engines_modCtx (s : State) (a : Nat) (f : Ctx → Ctx) : (s.modCtx a f).engines = s.engines := rfl
theorem engines_modCore (s : State) (k : Nat) (f : Core → Core) : (s.modCore k f).engines = s.engines := rfl
theorem engines_putRaw (s : State) (pa : Nat) (bs : List Byte) : (s.putRaw pa bs).engines = s.engines := rfl
theorem engines_post (s : State) (t : Nat) (i : Instr) : (s.post t i).engines = s.engines := rfl
theorem engines_setMeta (s : State) (la : Nat) (m : LineMeta) : (s.setMeta la m).engines = s.engines := rfl

/-! ## Metadata and keys (04 R92, R97 to R99; 13 R262) -/

theorem putNodes_engines (ns : List (Nat × TreeNode)) (s : State) : (putNodes ns s).engines = s.engines := engines_modPkg _ _ fun _ => ⟨rfl, rfl⟩

theorem formGroup_engines (ch : Nat) (b : CtrBlock) (s : State) : (formGroup ch b s).1.engines = s.engines := by
  unfold formGroup
  exact engines_modPkg_of (putNodes_engines _ s)

theorem commitGroup_engines (ch : Nat) (b : CtrBlock) (s : State) : (commitGroup ch b s).engines = s.engines := by
  unfold commitGroup
  split
  next h => exact engines_modPkg_of (engines_modPkg_of (engines_of_pair h (formGroup_engines ..)))

theorem commitChunk_engines (ch : Nat) (s : State) : (commitChunk ch s).engines = s.engines :=
  engines_modPkg_of (commitGroup_engines ..)

theorem evictNode_engines (st key : Nat) (s : State) : (evictNode st key s).engines = s.engines :=
  engines_modPkg_of (foldS_engines commitChunk_engines _ s)

theorem holdNodes_engines (st : Nat) (ns : List (Nat × TreeNode)) (s : State) : (holdNodes st ns s).engines = s.engines := by
  unfold holdNodes
  extract_lets s₁ c
  have h₁ : s₁.engines = s.engines := engines_modPkg _ _ fun _ => ⟨rfl, rfl⟩
  split
  · exact h₁
  · exact (foldS_engines (evictNode_engines st) _ s₁).trans h₁

theorem fetchMeta_engines (ch : Nat) (s : State) : (fetchMeta ch s).1.engines = s.engines := by
  unfold fetchMeta
  extract_lets st o key path
  split
  · rfl
  · split
    · dsimp only
      exact holdNodes_engines ..
    · exact engines_post ..

theorem touchPath_engines (ch : Nat) (s : State) : (touchPath ch s).engines = s.engines := by
  unfold touchPath
  extract_lets st path blk
  split
  · rfl
  · exact engines_modPkg_of (putNodes_engines ..)

theorem dirtyMeta_engines (ch : Nat) (s : State) : (s.dirtyMeta ch).engines = s.engines := by
  unfold State.dirtyMeta
  split <;> rfl

theorem drawKey_engines (o : Nat) (s : State) : (drawKey o s).engines = s.engines := by
  unfold drawKey
  extract_lets s₁ n
  split
  · rfl
  · split
    · rfl
    · split <;> rfl

/-- The lines of a chunk encrypted afresh. -/
theorem freshLines_engines (f : Nat → State → LineMeta) (ch : Nat) (s : State) :
    (foldS (List.range 64) (fun j s => s.setMeta (ch * 64 + j) (f j s)) s).engines = s.engines :=
  foldS_engines (fun j s => engines_setMeta s _ (f j s)) _ s

theorem rekeyChunk_engines (ch : Nat) (s : State) : (rekeyChunk ch s).engines = s.engines :=
  (commitChunk_engines ..).trans (engines_modPkg_of (freshLines_engines _ ch s))

theorem rekeyOwner_engines (o : Nat) (s : State) : (rekeyOwner o s).engines = s.engines :=
  (foldS_engines rekeyChunk_engines _ _).trans (drawKey_engines o s)

theorem nextMajor_engines (ch : Nat) (s : State) : (nextMajor ch s).engines = s.engines := by
  unfold nextMajor
  extract_lets b s₁ s₂
  have h₂ : s₂.engines = s.engines := (commitChunk_engines ..).trans (engines_modPkg_of (freshLines_engines _ ch s))
  split
  · exact rekeyOwner_engines ..
  · split
    · exact (engines_post ..).trans h₂
    · exact h₂

theorem bumpCounter_engines (la : Nat) (s : State) : (bumpCounter la s).engines = s.engines := by
  unfold bumpCounter
  extract_lets ch b s₁
  rw [touchPath_engines, dirtyMeta_engines, engines_setMeta]
  unfold s₁
  split
  · exact nextMajor_engines ..
  · rfl

/-! ## Logs, write-backs and fills (04 R97, R98; 13 R269) -/

theorem writeLogLine_engines (a i : Nat) (s : State) : (writeLogLine a i s).engines = s.engines := by
  unfold writeLogLine
  extract_lets c
  split
  · rfl
  · rw [engines_putRaw, bumpCounter_engines, fetchMeta_engines]

theorem forceLog_engines (a : Nat) (s : State) : (forceLog a s).engines = s.engines :=
  (engines_modCtx ..).trans ((foldS_engines commitChunk_engines _ _).trans (foldS_engines (writeLogLine_engines a) _ s))

theorem writeBackLine_engines (la : Nat) (s : State) : (writeBackLine la s).engines = s.engines := by
  unfold writeBackLine
  split
  · rfl
  · split
    · rfl
    · refine engines_modPkg_of ?_
      rw [engines_putRaw, bumpCounter_engines, fetchMeta_engines]
      split
      · split
        · exact forceLog_engines ..
        · rfl
      · rfl

theorem installL2_engines (la : Nat) (d : Line) (s : State) : (installL2 la d s).engines = s.engines := by
  unfold installL2
  refine engines_modPkg_of ?_
  split
  · rfl
  · split
    · exact engines_modPkg_of (writeBackLine_engines ..)
    · rfl

theorem countErru_engines (la : Nat) (s : State) : (countErru la s).engines = s.engines :=
  foldS_engines (fun f s => engines_modFn s f _) _ s

theorem fillLine_engines (la : Nat) (a b : Bool) (s : State) : (fillLine la a b s).1.engines = s.engines := by
  unfold fillLine
  split
  · rfl
  · split
    next s₁ h => exact (engines_setMeta ..).trans (engines_of_pair h (fetchMeta_engines ..))
    next s₁ h =>
      have h₁ : s₁.engines = s.engines := engines_of_pair h (fetchMeta_engines ..)
      split
      · exact (installL2_engines ..).trans h₁
      · split
        · exact h₁
        · rw [engines_post, countErru_engines, engines_setMeta, h₁]

/-! ## Merges (05 R106; 13 R268) -/

theorem recordMerge_engines (r : MergeReq) (l : L2Line) (s : State) : (recordMerge r l s).1.engines = s.engines := by
  unfold recordMerge
  split
  · rfl
  · extract_lets c bm first
    split
    · rfl
    · split
      · rfl
      · split <;> rfl

theorem mergeNow_engines (r : MergeReq) (s : State) : (mergeNow r s).1.engines = s.engines := by
  unfold mergeNow
  split
  next s₁ ok h =>
    have h₁ : s₁.engines = s.engines := engines_of_pair h (by split; exacts [installL2_engines .., fillLine_engines ..])
    split
    · exact h₁
    · split
      · exact h₁
      · split
        next h₂ =>
          have h₂ := (engines_of_pair h₂ (recordMerge_engines ..)).trans h₁
          split <;> exact h₂

theorem reportPoison_engines (r : MergeReq) (was : Bool) (s : State) : (reportPoison r was s).engines = s.engines := by
  unfold reportPoison
  extract_lets rep
  rw [engines_modSvc]
  split
  · exact countErru_engines ..
  · rfl

theorem mergeScan_engines (one : Bool) (l : List MergeReq) : ∀ kept s, (mergeScan one kept l s).1.engines = s.engines := by
  induction l with
  | nil => exact fun _ _ => rfl
  | cons r l ih =>
    intro kept s
    unfold mergeScan
    split
    · exact ih ..
    · extract_lets was
      split
      next h => exact (ih ..).trans (engines_of_pair h (mergeNow_engines ..))
      next s₁ m _ h =>
        have h₁ : s₁.engines = s.engines := engines_of_pair h (mergeNow_engines ..)
        extract_lets s₂
        have h₂ : s₂.engines = s.engines := by
          unfold s₂
          split
          · exact (reportPoison_engines ..).trans h₁
          · exact h₁
        split
        · exact h₂
        · exact (ih ..).trans h₂

theorem mergeBank_engines (b : Nat) (s : State) : (mergeBank b s).engines = s.engines := by
  unfold mergeBank
  split
  · rfl
  · exact engines_modPkg_of (mergeScan_engines ..)

theorem homeLine_engines (la : Nat) (s : State) : (homeLine la s).1.engines = s.engines := by
  unfold homeLine
  extract_lets s₁
  split
  next s₂ ok h =>
    have h₂ : s₂.engines = s.engines := (engines_of_pair h (fillLine_engines ..)).trans (mergeBank_engines ..)
    split
    · split
      · exact engines_modPkg_of h₂
      · exact h₂
    · exact h₂

theorem homeWrite_engines (w : Writer) (pa : Nat) (bs : List Byte) (s : State) : (homeWrite w pa bs s).1.engines = s.engines := by
  unfold homeWrite
  extract_lets la s₁
  have h₁ : s₁.engines = s.engines := mergeBank_engines ..
  split
  · exact (fillLine_engines ..).trans h₁
  · exact (mergeBank_engines ..).trans (engines_modPkg_of h₁)

theorem foldl_fst_engines {α β : Type} {f : State × β → α → State × β} (l : List α) (h : ∀ acc a, (f acc a).1.engines = acc.1.engines)
    (acc : State × β) : (l.foldl f acc).1.engines = acc.1.engines := by
  induction l generalizing acc with
  | nil => rfl
  | cons a l ih => exact (ih (f acc a)).trans (h acc a)

theorem physRead_engines (pa n : Nat) (s : State) : (physRead pa n s).1.engines = s.engines := by
  unfold physRead
  split
  · refine foldl_fst_engines _ (fun acc p => ?_) _
    split
    next h => exact engines_of_pair h (homeLine_engines ..)
  · rfl

/-! ## Granules and page tables (04 R74, R80) -/

theorem dropLines_engines (g : Nat) (s : State) : (dropLines g s).engines = s.engines :=
  (foldS_engines (fun k s => engines_modCore s k _) _ _).trans (engines_modPkg _ _ fun _ => ⟨rfl, rfl⟩)

theorem zeroGranule_engines (g o : Nat) (s : State) : (zeroGranule g o s).engines = s.engines := by
  unfold zeroGranule
  exact engines_modPkg_of (dropLines_engines g s)

theorem formUpper_engines (o : Nat) (s : State) : (formUpper o s).engines = s.engines :=
  engines_modPkg_of (foldS_engines commitChunk_engines _ s)

theorem assignGranule_engines (g o : Nat) (s : State) : (assignGranule g o s).engines = s.engines := by
  unfold assignGranule
  extract_lets n s₁
  have h₁ : s₁.engines = s.engines := engines_modPkg_of (zeroGranule_engines ..)
  split
  · exact h₁
  · exact (formUpper_engines ..).trans h₁

theorem newTable_engines (a : Nat) (s : State) : (newTable a s).1.engines = s.engines := by
  unfold newTable
  extract_lets c
  split
  · rfl
  · split
    · rfl
    · exact (engines_modCtx ..).trans (assignGranule_engines ..)

theorem readEntry_engines (pte : Nat) (s : State) : (readEntry pte s).1.engines = s.engines := by
  unfold readEntry
  split <;> next h => exact engines_of_pair h (physRead_engines ..)

theorem writeEntry_engines (pte e : Nat) (s : State) : (writeEntry pte e s).engines = s.engines :=
  (commitChunk_engines ..).trans ((writeBackLine_engines ..).trans (homeWrite_engines ..))

theorem tableFor_engines (make : Bool) (a va stop n : Nat) : ∀ table s, (tableFor make a va stop n table s).1.engines = s.engines := by
  induction n with
  | zero => exact fun _ _ => rfl
  | succ n ih =>
    intro table s
    unfold tableFor
    extract_lets lv pte
    split
    next s₁ e h =>
      have h₁ : s₁.engines = s.engines := engines_of_pair h (readEntry_engines ..)
      split
      · split
        · exact (ih ..).trans h₁
        · exact h₁
      · split
        · exact h₁
        · split
          next h₂ => exact (ih ..).trans ((writeEntry_engines ..).trans ((engines_of_pair h₂ (newTable_engines ..)).trans h₁))
          next h₂ => exact (engines_of_pair h₂ (newTable_engines ..)).trans h₁

theorem mapPage_engines (a va sz rw pa : Nat) (s : State) : (mapPage a va sz rw pa s).1.engines = s.engines := by
  unfold mapPage
  split
  next h => exact (foldS_engines (fun _ => writeEntry_engines _ _) _ _).trans (engines_of_pair h (tableFor_engines ..))
  next h => exact engines_of_pair h (tableFor_engines ..)

/-! ## The page-fault service (19 R387) -/

theorem backBlock_engines (a va : Nat) (m : Nat × Nat × Nat × Bool × Nat) (s : State) : (backBlock a va m s).1.engines = s.engines := by
  obtain ⟨lo, n, rw, _, sz⟩ := m
  simp only [backBlock]
  split
  · rfl
  · split
    · rfl
    next g _ =>
      refine (foldl_fst_engines _ (fun acc v => ?_) _).trans ((engines_modCtx ..).trans ((engines_modFn ..).trans ?_))
      · exact mapPage_engines ..
      · exact foldS_engines (fun i => assignGranule_engines _ _) _ s

theorem servePage_engines (a va : Nat) (s : State) : (servePage a va s).1.engines = s.engines := by
  unfold servePage
  extract_lets c
  split
  · rfl
  · split
    · rfl
    · exact backBlock_engines ..

/-- The page-fault service is offered an address, and the engines stand as they are. -/
theorem offerFault_engines (a va : Nat) (acc : Acc) (s : State) : (offerFault a va acc s).engines = s.engines := by
  unfold offerFault
  extract_lets va'
  split
  · rfl
  · split
    next h => exact (engines_post ..).trans (engines_of_pair h (servePage_engines ..))

end Sys2Proof.Machine
end


section
/-!
PROOFS. O36: commands of the engines from acceptance to completion (06 R121 to R124, R134, R135).
-/
namespace Sys2Proof.Machine
open Sys2Proof.Claims

/-! ## Commands of an engine context (06 R117) -/

theorem cmdOf_congr {s t : State} {key : Nat} (h : (t.eng key).queue = (s.eng key).queue) (n : Nat) : cmdOf t key n = cmdOf s key n := by
  rw [cmdOf, h, cmdOf]

theorem eng_of_engines {s t : State} (h : t.engines = s.engines) (key : Nat) : t.eng key = s.eng key := by
  rw [State.eng, show t.pkg.eng = s.pkg.eng from congrArg Prod.fst h, State.eng]

/-- The first command of a number, in a queue in which that number's command has been updated. -/
theorem find_updated (n : Nat) {f : EngCmd → EngCmd} (hf : ∀ x, (f x).num = x.num) (q : List EngCmd) :
    (q.map fun c => if c.num = n then f c else c).find? (fun c => c.num = n) = (q.find? fun c => c.num = n).map f := by
  induction q with
  | nil => rfl
  | cons c q ih => by_cases h : c.num = n <;> simp [h, hf, ih]

theorem cmdOf_modCmd {f : EngCmd → EngCmd} (hf : ∀ x, (f x).num = x.num) (s : State) (key n : Nat) :
    cmdOf (modCmd key n f s) key n = (cmdOf s key n).map f := by
  rw [cmdOf, modCmd, State.eng_modEng_self]
  exact find_updated n hf _

theorem cmdOf_num {s : State} {key n : Nat} {c : EngCmd} (h : cmdOf s key n = some c) : c.num = n := of_decide_eq_true (List.find?_some h :)

/-- A command of a queue whose numbers differ is the one of its number. -/
theorem cmdOf_of_mem {s : State} {key : Nat} {c : EngCmd} (hc : c ∈ (s.eng key).queue) (hn : ((s.eng key).queue.map EngCmd.num).Nodup) :
    cmdOf s key c.num = some c := by
  rw [cmdOf]
  cases h : (s.eng key).queue.find? fun x => x.num = c.num with
  | none => simp at h; exact absurd rfl (h c hc)
  | some x =>
    have hx : x.num = c.num := of_decide_eq_true (List.find?_some h :)
    rw [List.inj_on_of_nodup_map hn (List.mem_of_find?_eq_some h) hc hx]

theorem settle_queue (n : Nat) (e : EngCtx) : (EngCtx.settle n e).queue = e.queue := by
  induction n generalizing e with
  | zero => rfl
  | succ n ih =>
    unfold EngCtx.settle
    split
    · exact ih _
    · rfl

/-- A completed number that follows the counter moves it on by one. -/
theorem settle_counter_of_one (e : EngCtx) (n : Nat) (q : List EngCmd) (h : e.ended = []) :
    (EngCtx.settle (e.ended.length + 1) { e with ended := e.ended ++ [n], queue := q }).counter = if n = e.counter + 1 then n else e.counter := by
  rw [h]
  by_cases hn : n = e.counter + 1
  · simp [EngCtx.settle, hn]
  · simp [EngCtx.settle, hn, Ne.symm hn]

theorem cmdOf_endCmd (key n : Nat) (s : State) : cmdOf (endCmd key n s) key n = none := by
  rw [cmdOf, endCmd, State.eng_modEng_self, settle_queue]
  simp

theorem finishCmd_of_plain {c : EngCmd} (h : c.flag = none) (key : Nat) (s : State) : finishCmd key c s = endCmd key c.num s := by
  rw [finishCmd, postFlag, h]

theorem SMap.find?_del_self {α : Type} (m : SMap α) (k : Nat) : (m.del k).find? k = none := by
  induction m with
  | nil => rfl
  | cons e m ih =>
    obtain ⟨j, v⟩ := e
    by_cases h : j = k
    · simpa [SMap.del, h] using ih
    · simpa [SMap.del, SMap.find?, h] using ih

theorem runs_freeRun (r : Nat) (s : State) : (freeRun r s).pkg.runs.find? r = none := SMap.find?_del_self ..

/-- The command that an engine runs has the number that the engine keeps. -/
theorem cmdOf_of_running {s : State} {die cls eng : Nat} {r : EngRun} {c : EngCmd} (h : running s die cls eng = some (r, c)) : cmdOf s r.ctx r.num = some c := by
  obtain ⟨r', hr, h⟩ := Option.bind_eq_some_iff.mp h
  obtain ⟨c', hc, h⟩ := Option.map_eq_some_iff.mp h
  cases h
  exact hc

/-! ## Acceptance (06 R121) -/

/-- The running crew comes first, with its first command, where that has its turn. -/
theorem acceptNext_running {s : State} {k : Nat} {g : Group} {c : Crew} {r : AcceptReq} {rest : List AcceptReq} (hr : g.running = some c)
    (ha : c.accepting = r :: rest) (ht : (s.eng (r.key k)).waiting.head? = some (k, c.ctx)) : acceptNext s k g = some (c, r) := by
  obtain ⟨l, hg⟩ : ∃ l, g.crews = c :: l := ⟨g.crews.drop 1, by simp [Group.crews, hr]⟩
  simp only [acceptNext, hg, List.findSome?_cons, ha, List.find?_cons, ht, decide_true, Option.map_some]

theorem take_of_room {c : Crew} {r : AcceptReq} (hb : c.region.buf.length < 768) (n now : Nat) : c.take r n now =
    { c with
      accepting := c.accepting.erase r
      inflight := c.inflight ++ [{ at_ := now, deadline := max now r.deadline, cls := .s, reg := r.reg, slot := 0, lane := 0, val := BitVec.ofNat 64 n, held := true }]
      region := { c.region with buf := c.region.buf ++ [.engine r.cls n] } } := by
  simp only [Crew.take, if_neg (Nat.not_le.mpr hb)]

theorem exec_engineAccept {s : State} {k : Nat} {g : Group} {c : Crew} {r : AcceptReq} {rest : List AcceptReq} (hc : s.crew k = some (g, c))
    (ha : c.accepting = r :: rest) (hq : (s.eng (r.key k)).queue.length < 256) (ht : (s.eng (r.key k)).waiting.head? = some (k, c.ctx)) :
    exec (.engineAccept k) s = .next ((queued (r.key k) r.cmd s).modCtxCrew k c.ctx fun x => x.take r ((s.eng (r.key k)).last + 1) s.cycle) := by
  have hturn : (s.eng (r.key k)).turnOf (k, c.ctx) = true := by simp [EngCtx.turnOf, ht]
  show execEngineAccept k s = _
  simp only [execEngineAccept, State.group_of_crew hc, Option.bind_some, acceptNext_running (State.running_of_crew hc) ha ht, takePlace_of_room hturn hq]
  rfl

/-! ## Start (06 R122, R124) -/

/-- The visit of a context pays for the command that it starts, and the pointer stands at it. -/
def payFor (slot key : Nat) (c : EngCmd) (s : State) : State :=
  (s.modEng key fun e => { e with deficit := e.deficit - cmdCost c }).modPkg fun p => { p with arb := p.arb.set 0 slot (2 * key + 1) }

theorem payFor_queue (slot key : Nat) (c : EngCmd) (s : State) : ((payFor slot key c s).eng key).queue = (s.eng key).queue := by
  have h := State.eng_modEng_self s key fun e => { e with deficit := e.deficit - cmdCost c }
  exact (congrArg EngCtx.queue h).trans rfl

theorem exec_engineStart {s s' : State} {die cls key i : Nat} {c : EngCmd}
    (h : arbitrate die cls (257 * (s.pkg.eng.length + 1)) (s.pkg.arb.get 0 (die * 2 + cls)) s = (s', some (key, c, i))) (hop : c.op ≠ 0x73)
    (hd : (s'.core c.core).dfifo = []) (hl : (s'.core c.core).link = []) :
    exec (.engineStart die cls) s = .next (clearDeficit key (startRun (runKey die cls i) key c (payFor (die * 2 + cls) key c s'))) := by
  have hdrain : ∀ t : State, t.cores = s'.cores → linkAll c.core (drainCore c.core t) = t := fun t ht => by
    have hk : t.core c.core = s'.core c.core := by rw [State.core, ht, State.core]
    rw [drainCore, hk, hd]
    show linkAll c.core t = t
    rw [linkAll, hk, hl]
    rfl
  show execEngineStart die cls s = _
  simp only [execEngineStart, h, if_neg hop]
  exact congrArg (fun t => Host.Outcome.next (clearDeficit key (startRun (runKey die cls i) key c t))) (hdrain (payFor ..) rfl)

/-- An engine that takes a command runs it under a tag of its own, and memory and the cores stand as they are. -/
theorem started_frame (r key : Nat) (c : EngCmd) (s : State) :
    (clearDeficit key (startRun r key c s)).mem = s.mem ∧ (clearDeficit key (startRun r key c s)).cores = s.cores ∧
      (clearDeficit key (startRun r key c s)).pkg.runs = s.pkg.runs.put r { ctx := key, num := c.num, doneAt := s.now, tag := s.pkg.nextTag } :=
  ⟨State.modEng_mem .., State.modEng_cores .., rfl⟩

theorem payFor_frame (slot key : Nat) (c : EngCmd) (s : State) : (payFor slot key c s).mem = s.mem ∧ (payFor slot key c s).cores = s.cores ∧
    (payFor slot key c s).now = s.now ∧ (payFor slot key c s).pkg.nextTag = s.pkg.nextTag := ⟨rfl, rfl, rfl, rfl⟩

theorem clearDeficit_queue (key : Nat) (s : State) : ((clearDeficit key s).eng key).queue = (s.eng key).queue := by
  rw [clearDeficit, State.eng_modEng_self]
  split <;> rfl

theorem cmdOf_started {key : Nat} {c : EngCmd} {s : State} (h : cmdOf s key c.num = some c) (r : Nat) :
    cmdOf (clearDeficit key (startRun r key c s)) key c.num = some { c with started := true } := by
  rw [cmdOf_congr (clearDeficit_queue ..)]
  show cmdOf (modCmd key c.num (fun c => { c with started := true }) s) key c.num = _
  refine (cmdOf_modCmd ?_ ..).trans (congrArg _ h)
  exact fun _ => rfl

/-! ## Faults and aborts (06 R135, R138, R140) -/

/-- The launch of a command that an engine ends with a fault has the status of that fault. -/
theorem engineKill_status {s : State} {c : EngCmd} {l : Launch} (hl : s.pkg.launches.find? c.launch = some l) (hc : l.complete = false)
    (ha : l.abandoned = false) (hs : l.status = none) (key cause : Nat) :
    ((engineKill key c cause s).launch c.launch).status = some (1, 18, cause, c.num % 2 ^ 47 * 2 ^ 17 + c.done / 128) :=
  (endLaunch_open _ (show (endCmd key c.num s).pkg.launches.find? c.launch = some l from hl) hc ha hs).2

theorem collKill_status {s : State} {c : EngCmd} {l : Launch} (hl : s.pkg.launches.find? c.launch = some l) (hc : l.complete = false)
    (ha : l.abandoned = false) (hs : l.status = none) (x : CollRun) (cause : Nat) :
    ((collKill x c cause s).launch c.launch).status = some (1, 18, cause, c.num % 2 ^ 47 * 2 ^ 17 + c.done / 128) :=
  (boundRun_status ..).trans (engineKill_status (show (dropColl x s).pkg.launches.find? c.launch = some l from hl) hc ha hs ..)

/-! ## A collective whose members agree (06 R138, R139) -/

/-- In a context that keeps no log a command has its marker at once. -/
theorem placeMark_of_unlogged {s : State} {c : EngCmd} (hr : c.refetch = false) (hs : (s.ctx c.asid).span = false) (hv : (s.ctx c.asid).recv = false) :
    placeMark c s = (s, some { c with marked := true }) := by
  have hheld : recsHeld c.asid 1 s = false := by simp [recsHeld, hs, hv]
  have hhor : horizon c.asid 2 c.core c.num s = s := by simp [horizon, hs, hv]
  cases h : c.marked
  · simp [placeMark, h, hr, hheld, hhor]
  · rw [placeMark, if_pos (by rw [h]; rfl), ← h]

theorem boundRun_mem (n : Nat) (s : State) : (boundRun n s).mem = s.mem := congrArg Prod.fst (boundRun_memCtxs n s)

theorem collResult_gather {cop ty count rank : Nat} {vs : List (List Byte)} (h : ∀ v ∈ vs, v.length = count * tyBytes ty) :
    collResult 1 cop ty count rank vs = vs.flatten := by
  show vs.flatMap (fun v => v.take (count * tyBytes ty)) = _
  rw [List.flatMap_def, List.map_congr_left fun v hv => List.take_of_length_le (h v hv).le, List.map_id']

end Sys2Proof.Machine
end


section
/-!
PROOFS. O36: a piece that a CPY moves within a scratchpad (06 R126, R127, R129, R130).
-/
namespace Sys2Proof.Machine
open Sys2Proof.Claims

/-! ## Bytes that follow one another -/

theorem getList_add {α : Type} [DecidableEq α] (d : α) (m : SMap α) (a n k : Nat) :
    SMap.getList d m a (n + k) = SMap.getList d m a n ++ SMap.getList d m (a + n) k := by
  induction n generalizing a with
  | zero => simp [SMap.getList]
  | succ n ih => rw [Nat.succ_add, SMap.getList, SMap.getList, ih, List.cons_append, Nat.add_assoc, Nat.add_comm 1 n]

/-- Bytes cut out of those that stand around them. -/
theorem take_drop_getList {α : Type} [DecidableEq α] (d : α) (m : SMap α) (a k n r : Nat) :
    ((SMap.getList d m a (k + (n + r))).drop k).take n = SMap.getList d m (a + k) n := by
  rw [getList_add, List.drop_left' (SMap.getList_length ..), getList_add, List.take_left' (SMap.getList_length ..)]

/-! ## Places in a scratchpad (06 R126, R127) -/

/-- The group of a command's launch and cluster stands on the issuing core, all of whose banks are scratchpad. -/
structure OwnScratch (s : State) (c : EngCmd) (g : Group) : Prop where
  group : s.group c.core = some g
  launch : g.launch = c.launch
  cluster : g.cluster = c.cluster
  modes : ∀ b < 12, g.modeOf b = some 1

/-- An operand that refers to the scratchpad of the command's own core. -/
structure OwnRef (c : EngCmd) (x : Nat) : Prop where
  op : c.op = 0x70
  kind : x / 2 ^ 60 % 16 = 14
  core : x / 2 ^ 32 % 512 = c.core

theorem OwnScratch.congr {s t : State} {c : EngCmd} {g : Group} (h : OwnScratch s c g) (hc : t.cores = s.cores) : OwnScratch t c g :=
  { h with group := (State.group_of_cores hc _).trans h.group }

theorem OwnScratch.find {s : State} {c : EngCmd} {g : Group} (h : OwnScratch s c g) : findGroup s c.launch c.cluster c.core = some g := by
  simp only [findGroup, h.group, h.launch, h.cluster, and_self, if_true]

theorem OwnRef.scratchRef {c : EngCmd} {x : Nat} (h : OwnRef c x) : isScratchRef x = true := by
  rw [isScratchRef, fld_eq_div]
  exact decide_eq_true h.kind

theorem OwnRef.scratchAt {c : EngCmd} {x : Nat} (h : OwnRef c x) : c.scratchAt x = true := by
  simp [EngCmd.scratchAt, h.scratchRef, h.op]

theorem OwnRef.endPos {c : EngCmd} {x : Nat} (h : OwnRef c x) (o : Nat) : endPos x (o : Int) = (x % 2 ^ 19 + o) % 128 := by
  rw [Machine.endPos, if_pos h.scratchRef, fld_eq_div, Nat.pow_zero, Nat.div_one]
  omega

/-- The place of bytes of the scratchpad that all stand in it. -/
theorem endPlace_scratch {s : State} {c : EngCmd} {g : Group} {x o n : Nat} (h : OwnScratch s c g) (hx : OwnRef c x)
    (hb : x % 2 ^ 19 + o + n ≤ 393216) (hn : 0 < n) (acc : Acc) :
    endPlace c x (o : Int) n acc s = (s, .ok (.scratch c.core (x % 2 ^ 19 + o))) := by
  have ha : fld 18 0 x = x % 2 ^ 19 := by rw [fld_eq_div, Nat.pow_zero, Nat.div_one]
  have hk : fld 40 32 x = c.core := by rw [fld_eq_div]; exact hx.core
  have hi : ((x % 2 ^ 19 : Nat) : Int) + (o : Int) = ((x % 2 ^ 19 + o : Nat) : Int) := by omega
  have hm : g.modeOf ((x % 2 ^ 19 + o) / 32768) = some 1 := h.modes _ (by omega)
  simp only [endPlace, hx.scratchAt, if_true, ha, hk, h.find, hi, Int.toNat_natCast]
  rw [if_pos ⟨Int.natCast_nonneg _, by exact_mod_cast hb, hm⟩]

theorem placeRead_scratch {s : State} {c : EngCmd} {g : Group} (h : OwnScratch s c g) (a n : Nat) :
    placeRead c (.scratch c.core a) n s = (s, .ok (SMap.getList 0 g.scratch a n)) := by
  simp only [placeRead, h.find]

theorem placeWrite_scratch {s : State} {c : EngCmd} {g : Group} (h : OwnScratch s c g) (a : Nat) (bs : List Byte) :
    placeWrite c (.scratch c.core a) bs s = (s.setGroup c.core { g with scratch := g.scratch.setList 0 a bs }, .ok ()) := by
  simp only [placeWrite, modFindGroup, h.group, h.launch, h.cluster, and_self, if_true]

/-! ## Reading the source (06 R129, R130) -/

/-- A line that the engine does not hold yet is read whole, and gives the bytes asked for. -/
theorem lineRead_scratch {s : State} {c : EngCmd} {g : Group} {x o n : Nat} {buf : Option (Int × List Byte)} (h : OwnScratch s c g) (hx : OwnRef c x)
    (hb : x % 2 ^ 19 + o + n ≤ 393216) (hn : 0 < n) (hl : (x % 2 ^ 19 + o) % 128 + n ≤ 128)
    (hf : ∀ b, buf = some b → b.1 ≠ (o : Int) - ((x % 2 ^ 19 + o) % 128 : Nat)) :
    ∃ l, lineRead c buf x (o : Int) n s =
      (s, .ok (((o : Int) - ((x % 2 ^ 19 + o) % 128 : Nat), l), .scratch c.core (x % 2 ^ 19 + o), SMap.getList 0 g.scratch (x % 2 ^ 19 + o) n)) := by
  have hbuf : (buf.filter fun b => b.1 = (o : Int) - ((x % 2 ^ 19 + o) % 128 : Nat)) = none := by
    cases buf with
    | none => rfl
    | some b => exact if_neg (by simpa using hf b rfl)
  obtain ⟨r, hr⟩ := Nat.exists_eq_add_of_le hl
  have hcut := take_drop_getList (0 : Byte) g.scratch (x % 2 ^ 19 + o - (x % 2 ^ 19 + o) % 128) ((x % 2 ^ 19 + o) % 128) n r
  rw [← Nat.add_assoc, ← hr, Nat.sub_add_cancel (Nat.mod_le _ _)] at hcut
  refine ⟨SMap.getList 0 g.scratch (x % 2 ^ 19 + o - (x % 2 ^ 19 + o) % 128) 128, ?_⟩
  simp only [lineRead, hx.endPos, endPlace_scratch h hx hb hn, hbuf, EndPlace.back, placeRead_scratch h, hcut]

/-- What a command finds that has kept nothing is what stood there before it. -/
theorem before_of_unwritten {c : EngCmd} (h : c.was = []) (p : EndPlace) (new : List Byte) : c.before p new = new := by
  rw [EngCmd.before, h]
  refine List.ext_getElem (by simp) fun i h₁ h₂ => ?_
  simp [SMap.find?, List.getElem?_eq_getElem h₂]

theorem rideData_mem_cores (tag n : Nat) (c : EngCmd) (wait : Nat) (ls : List Leg) (s : State) :
    (rideData tag n c wait ls s).mem = s.mem ∧ (rideData tag n c wait ls s).cores = s.cores := by
  unfold rideData addData
  split
  · exact ⟨rfl, rfl⟩
  · split <;> exact ⟨rfl, rfl⟩

/-- A command that has written nothing reads its source as it stands. -/
theorem srcRead_scratch {s : State} {c : EngCmd} {g : Group} {o n : Nat} (h : OwnScratch s c g) (hx : OwnRef c c.src) (hw : c.was = [])
    (hb : c.src % 2 ^ 19 + o + n ≤ 393216) (hn : 0 < n) (hl : (c.src % 2 ^ 19 + o) % 128 + n ≤ 128)
    (hf : ∀ b, c.srcLine = some b → b.1 ≠ (o : Int) - ((c.src % 2 ^ 19 + o) % 128 : Nat)) (tag : Nat) (q : EndPlace) :
    ∃ (t : State) (l : List Byte), srcRead tag c (o : Int) n q s =
      (t, .ok ({ c with srcLine := some ((o : Int) - ((c.src % 2 ^ 19 + o) % 128 : Nat), l) }, SMap.getList 0 g.scratch (c.src % 2 ^ 19 + o) n)) ∧
      t.mem = s.mem ∧ t.cores = s.cores := by
  obtain ⟨l, hr⟩ := lineRead_scratch h hx hb hn hl hf
  simp only [srcRead, hr, before_of_unwritten hw, overlapped, if_true]
  exact ⟨_, l, rfl, rideData_mem_cores ..⟩

/-- The bytes of a piece, in one line of the source or in two that follow one another. -/
theorem srcReads_scratch {s : State} {c : EngCmd} {g : Group} {o m : Nat} (h : OwnScratch s c g) (hx : OwnRef c c.src) (hw : c.was = [])
    (hs : c.srcLine = none) (hb : c.src % 2 ^ 19 + o + m ≤ 393216) (hm : 0 < m) (hm' : m ≤ 128) (tag : Nat) (q : EndPlace) :
    let n := min m (128 - endPos c.src (o : Int))
    ∃ (s₁ s₂ : State) (l₁ : Option (Int × List Byte)) (l₂ : Option (Int × List Byte)) (bs bs' : List Byte),
      srcRead tag c (o : Int) n q s = (s₁, .ok ({ c with srcLine := l₁ }, bs)) ∧
      (if n = m then (s₁, .ok ({ c with srcLine := l₁ }, [])) else srcRead tag { c with srcLine := l₁ } ((o : Int) + (n : Int)) (m - n) q s₁) =
        (s₂, .ok ({ c with srcLine := l₂ }, bs')) ∧
      bs ++ bs' = SMap.getList 0 g.scratch (c.src % 2 ^ 19 + o) m ∧ s₂.mem = s.mem ∧ s₂.cores = s.cores := by
  intro n
  have hn : n = min m (128 - (c.src % 2 ^ 19 + o) % 128) := congrArg (fun k => min m (128 - k)) (hx.endPos o)
  clear_value n
  obtain ⟨s₁, l, hr, hmem, hcores⟩ := srcRead_scratch (o := o) (n := n) h hx hw (by omega) (by omega) (by omega) (by simp [hs]) tag q
  by_cases he : n = m
  · refine ⟨s₁, s₁, _, _, _, [], hr, if_pos he, ?_, hmem, hcores⟩
    rw [List.append_nil, he]
  · have hpos : (c.src % 2 ^ 19 + (o + n)) % 128 = 0 := by omega
    have ho : (o : Int) + (n : Int) = ((o + n : Nat) : Int) := by omega
    obtain ⟨s₂, l', hr', hmem', hcores'⟩ := srcRead_scratch (s := s₁) (o := o + n) (n := m - n)
      (c := { c with srcLine := some ((o : Int) - ((c.src % 2 ^ 19 + o) % 128 : Nat), l) }) { h.congr hcores with } { hx with } hw
      (by dsimp only; omega) (by omega) (by dsimp only; omega) (by dsimp only; rintro b ⟨⟩; dsimp only; omega) tag q
    refine ⟨s₁, s₂, _, _, _, _, hr, (if_neg he).trans (ho ▸ hr'), ?_, hmem'.trans hmem, hcores'.trans hcores⟩
    rw [← Nat.add_assoc, ← getList_add, Nat.add_sub_cancel' (by omega)]

/-! ## The piece at its destination (06 R130) -/

/-- What a command keeps before it writes. -/
theorem keep_was (c : EngCmd) (p : EndPlace) (n : Nat) (s : State) : ∃ w, c.keep p n s = { c with was := w } := by
  unfold EngCmd.keep
  split
  · exact ⟨c.was, rfl⟩
  · split
    · exact ⟨c.was, rfl⟩
    · exact ⟨_, rfl⟩

/-- A piece of a CPY within a scratchpad stands at its destination. -/
theorem moveOne_scratch {s : State} {c : EngCmd} {g : Group} {od os m : Nat} (h : OwnScratch s c g) (hx : OwnRef c c.src) (hd : OwnRef c c.dst) (hw : c.was = [])
    (hs : c.srcLine = none) (hb : c.src % 2 ^ 19 + os + m ≤ 393216) (hb' : c.dst % 2 ^ 19 + od + m ≤ 393216) (hm : 0 < m) (hm' : m ≤ 128) (tag : Nat) :
    ∃ (t : State) (c' : EngCmd), moveOne tag c (od : Int) (os : Int) m s =
        (t.setGroup c.core { g with scratch := g.scratch.setList 0 (c.dst % 2 ^ 19 + od) (SMap.getList 0 g.scratch (c.src % 2 ^ 19 + os) m) }, .ok (some c')) ∧
      c'.done = c.done + m ∧ t.mem = s.mem := by
  obtain ⟨s₁, s₂, l₁, l₂, bs, bs', h₁, h₂, hbs, hmem, hcores⟩ :=
    srcReads_scratch h hx hw hs hb hm hm' tag (.scratch c.core (c.dst % 2 ^ 19 + od))
  obtain ⟨w, hk⟩ := keep_was { c with srcLine := l₂ } (.scratch c.core (c.dst % 2 ^ 19 + od)) m s₂
  have hwr : placeWrite { c with srcLine := l₂, was := w } (.scratch c.core (c.dst % 2 ^ 19 + od)) _ s₂ = _ :=
    placeWrite_scratch (c := { c with srcLine := l₂, was := w }) { h.congr hcores with } (c.dst % 2 ^ 19 + od) (bs ++ bs')
  refine ⟨s₂, { c with srcLine := l₂, was := w, done := c.done + m, last := some ((EndPlace.scratch c.core (c.dst % 2 ^ 19 + od)).station s₂ c) }, ?_, rfl, hmem⟩
  · simp only [moveOne, endPlace_scratch h hx (show c.src % 2 ^ 19 + os + 1 ≤ 393216 by omega) Nat.one_pos, endPlace_scratch h hd hb' hm, markFor, h₁, h₂, hk, hwr]
    rw [hbs]
    rfl

end Sys2Proof.Machine
end


section
/-!
PROOFS. O36: what the engines' events do (06 R121 to R124, R129, R134, R135, R138 to R140).
-/
namespace Sys2Proof.Machine
open Sys2Proof.Claims

/-- A command whose bytes have all performed completes. -/
theorem exec_engineComplete {s : State} {die cls eng : Nat} {r : EngRun} {c : EngCmd} (h : running s die cls eng = some (r, c)) (ht : r.doneAt ≤ s.now)
    (hm : moveTotal c ≤ c.done) (hp : performed s r.tag c = true) (hf : c.flag = none) :
    exec (.engineComplete die cls eng) s = .next (endCmd r.ctx c.num (freeRun (runKey die cls eng) s)) := by
  show execEngineComplete die cls eng s = _
  simp only [execEngineComplete, h, hp, finishCmd_of_plain hf, Nat.not_lt.mpr ht, Nat.not_lt.mpr hm, decide_false, Bool.not_true, Bool.or_false, Bool.false_eq_true,
    if_false]

/-- A command that finds no translation parks, and the page-fault service is offered the address. -/
theorem exec_enginePageFault {s : State} {die cls eng va : Nat} {r : EngRun} {c : EngCmd} {acc : Acc} (h : running s die cls eng = some (r, c))
    (hm : c.done < moveTotal c) (hp : parkedAt c s = some (va, acc)) :
    exec (.enginePageFault die cls eng) s = .next (offerFault c.asid va acc
      (modCmd r.ctx c.num (fun c => { c with parked := some (va % 2 ^ 56), started := false }) (freeRun (runKey die cls eng) s))) := by
  show execEnginePageFault die cls eng s = _
  simp only [execEnginePageFault, h, hp, if_neg (Nat.not_le.mpr hm)]

theorem exec_engineFault {s : State} {die cls eng : Nat} {r : EngRun} {c : EngCmd} (h : running s die cls eng = some (r, c)) (cause : Nat) :
    exec (.engineFault die cls eng cause) s = .next (engineKill r.ctx c cause (freeRun (runKey die cls eng) s)) := by
  show execEngineFault die cls eng cause s = _
  simp only [execEngineFault, h]

theorem exec_collMeet_differ {s : State} {domain collid : Nat} {x : CollRun} {c : EngCmd} (h : collCmd s domain collid = some (x, c)) (vs : List (List Byte)) :
    exec (.collMeet domain collid false vs) s = .next (collKill x c 33 s) := by
  show execCollMeet domain collid false vs s = _
  simp only [execCollMeet, h, Bool.not_false, if_true]

theorem exec_collAbort {s : State} {domain collid : Nat} {x : CollRun} {c : EngCmd} (h : collCmd s domain collid = some (x, c)) :
    exec (.collAbort domain collid) s = .next (collKill x c 34 s) := by
  show execCollAbort domain collid s = _
  simp only [execCollAbort, h]

theorem exec_collMeet_agree {s : State} {domain collid : Nat} {x : CollRun} {c : EngCmd} (h : collCmd s domain collid = some (x, c)) (vs : List (List Byte)) :
    exec (.collMeet domain collid true vs) s = .next (runColl (.collMeet domain collid true vs) x c vs s) := by
  show execCollMeet domain collid true vs s = _
  simp only [execCollMeet, h, Bool.not_true, Bool.false_eq_true, if_false]

/-- The part of a collective that nothing holds: SEND is read, the marker stands, RECV is written, and the command completes. -/
theorem runColl_of_unheld {s s₁ s' : State} {again : Instr} {x : CollRun} {c : EngCmd} {own : List Byte} {vs : List (List Byte)} {d : CollDesc} {n : Nat} {out : List Byte}
    (hd : collDesc x.desc.toNat = d) (hn : d.count * tyBytes c.ty.toNat = n)
    (hout : collResult c.kind c.cop c.ty.toNat d.count d.rank (vs.set d.rank own) = out)
    (hp : c.parked = none) (hr : c.refetch = false) (hseal : (s.ctx c.asid).sealing = none) (hheld : (s.ctx c.asid).logHeld = false)
    (hlen : vs.length = d.nmem) (hvs : ∀ v ∈ vs, v.length = n) (hsend : collSend x.tag c d n n x.own s = (s₁, own, none))
    (hspan : (s₁.ctx c.asid).span = false) (hrecv : (s₁.ctx c.asid).recv = false)
    (hrec : collRecv x.tag { c with marked := true } d out out.length x.wrote (modCmd x.ctx c.num (fun y => { y with marked := true }) s₁) = (s', out.length, none))
    (hperf : performed s' x.tag { c with marked := true } = true) (hf : c.flag = none) :
    runColl again x c vs s = endCmd x.ctx c.num (boundRun c.launch (dropColl x s')) := by
  have hform : (decide (vs.length ≠ d.nmem) || vs.any fun v => decide (v.length ≠ n)) = false := by simpa [hlen] using hvs
  have hfree : (c.parked.isSome || (s.ctx c.asid).sealing.isSome || (s.ctx c.asid).logHeld) = false := by simp [hp, hseal, hheld]
  have hfin (y : Option (Nat × Nat)) (t : State) : finishCmd x.ctx { c with marked := true, last := y } t = endCmd x.ctx c.num t := by
    refine finishCmd_of_plain ?_ x.ctx t
    exact hf
  simp only [runColl, hd, hn, hform, hfree, hsend, placeMark_of_unlogged hr hspan hrecv, hout, hrec, hperf, hfin, decide_true, Bool.and_self, Bool.false_eq_true,
    if_true, if_false]

/-- Settles O36: each event by the rule of the operation that it performs. -/
theorem engineEvents : Obligations.EngineEvents := by
  unfold Obligations.EngineEvents
  refine ⟨?accept, ?start, ?move, ?complete, ?pageFault, ?faults, ?meet, fun _ _ _ _ _ h => collResult_gather h⟩
  case accept =>
    intro s k g c r rest hc ha key hq ht hb
    have hc' : (queued key r.cmd s).crew k = some (g, c) := hc
    obtain ⟨g', hg'⟩ := crew_modCtxCrew hc' fun x => x.take r ((s.eng key).last + 1) s.cycle
    have heng : ((queued key r.cmd s).modCtxCrew k c.ctx fun x => x.take r ((s.eng key).last + 1) s.cycle).eng key = (queued key r.cmd s).eng key :=
      State.eng_congr (State.modCtxCrew_pkg ..) key
    have hx : exec (.engineAccept k) s = .next ((queued key r.cmd s).modCtxCrew k c.ctx fun x => x.take r ((s.eng key).last + 1) s.cycle) :=
      exec_engineAccept hc ha hq ht
    refine ⟨_, g', _, hx, State.modCtxCrew_mem .., hg', ?_, ?_⟩
    · rw [take_of_room hb, ha]
      exact List.erase_cons_head ..
    · rw [heng, queued_eng, take_of_room hb]
      exact ⟨rfl, rfl, rfl, rfl, rfl⟩
  case start =>
    intro s s' die cls key i c h hmem hnum hop hd hl
    have hc : cmdOf (payFor (die * 2 + cls) key c s') key c.num = some c := (cmdOf_congr (payFor_queue ..) _).trans (cmdOf_of_mem hmem hnum)
    obtain ⟨hmem₁, hcores₁, hnow, htag⟩ := payFor_frame (die * 2 + cls) key c s'
    obtain ⟨hmem₂, hcores₂, hruns⟩ := started_frame (runKey die cls i) key c (payFor (die * 2 + cls) key c s')
    refine ⟨_, exec_engineStart h hop hd hl, hmem₂.trans hmem₁, hcores₂.trans hcores₁, ?_, cmdOf_started hc _⟩
    rw [hruns, SMap.find?_put_self, hnow, htag]
  case move =>
    intro s tag od os m g c hop hg hl hcl hm hw hs src dst hsk hdk hsc hdc hb hb' hpos hle
    obtain ⟨t, c', hmove, hdone, hmem⟩ := moveOne_scratch ⟨hg, hl, hcl, hm⟩ ⟨hop, hsk, hsc⟩ ⟨hop, hdk, hdc⟩ hw hs hb hb' hpos hle tag
    have hlen : (SMap.getList 0 g.scratch src m).length = m := SMap.getList_length ..
    refine ⟨_, _, c', hmove, hdone, hmem, State.group_setGroup_self .., fun j hj => ?_, fun a ha => ?_⟩
    · dsimp only
      rw [SMap.get_setList, hlen, if_pos ⟨Nat.le_add_right .., by omega⟩, Nat.add_sub_cancel_left, getD_getList _ _ _ hj]
    · dsimp only
      rw [SMap.get_setList, hlen, if_neg (by omega)]
  case complete =>
    intro s die cls eng r c h ht hm hp hf
    refine ⟨_, exec_engineComplete h ht hm hp hf, rfl, runs_freeRun _ s, cmdOf_endCmd .., fun he => ?_⟩
    rw [endCmd, State.eng_modEng_self]
    exact settle_counter_of_one (s.eng r.ctx) c.num _ he
  case pageFault =>
    intro s die cls eng r c va acc h hm hp
    have hc : cmdOf s r.ctx c.num = some c := by rw [cmdOf_num (cmdOf_of_running h)]; exact cmdOf_of_running h
    refine ⟨_, exec_enginePageFault h hm hp, ?_, ?_, ?_⟩
    · rw [show (offerFault ..).pkg.runs = _ from congrArg Prod.snd (offerFault_engines ..)]
      exact runs_freeRun _ s
    · rw [cmdOf_congr (congrArg EngCtx.queue (eng_of_engines (offerFault_engines ..) r.ctx))]
      refine (cmdOf_modCmd ?_ ..).trans (congrArg _ hc)
      exact fun _ => rfl
    · rw [eng_of_engines (offerFault_engines ..), modCmd, State.eng_modEng_self]
      rfl
  case faults =>
    intro s l x r c die cls eng cause hl hc ha hs info
    refine ⟨fun h => ⟨_, exec_engineFault h cause, ?_⟩, fun vs h => ⟨_, exec_collMeet_differ h vs, collKill_status hl hc ha hs x 33⟩,
      fun h => ⟨_, exec_collAbort h, collKill_status hl hc ha hs x 34⟩⟩
    exact engineKill_status (s := freeRun (runKey die cls eng) s) hl hc ha hs r.ctx cause
  case meet =>
    intro s s₁ s' x c own vs h d n out hp hr hseal hheld hlen hvs hsend hspan hrecv hrec hperf hf
    refine ⟨_, (exec_collMeet_agree h vs).trans (congrArg _ (runColl_of_unheld rfl rfl rfl hp hr hseal hheld hlen hvs hsend hspan hrecv hrec hperf hf)), ?_, ?_, cmdOf_endCmd ..⟩
    · exact boundRun_mem ..
    · exact boundRun_cores ..

end Sys2Proof.Machine
end


section
/-!
PROOFS. What the ends of a memory instruction leave: a value register written in several strands, results in flight, and the faults of the executing
lanes (03 R50, R59; 09 R174); and bytes as the tables list them.
-/
namespace Sys2Proof.Machine
open Sys2Proof.Claims

/-! ## A value register of several strands (03 R50; 09 R174) -/

/-- The write of its own value to a register of a strand. -/
abbrev xWrite (reg : Nat) (v : Nat × Nat → W64) (l : Nat × Nat) : RegWr := { cls := .x, reg := reg, slot := l.2, lane := l.1, val := v l }

/-- The values as results of lanes, which raise no flag. -/
abbrev xResults (v : Nat × Nat → W64) (ls : List (Nat × Nat)) : List LaneRes := ls.map fun l => (l, (v l).toNat, 0)

theorem xWrites_eq (reg : Nat) (v : Nat × Nat → W64) (ls : List (Nat × Nat)) : ls.map (xWrite reg v) = laneWrites .x reg (xResults v ls) := by
  rw [laneWrites_eq, List.map_map]
  refine List.map_congr_left fun l _ => ?_
  simp only [Function.comp_apply, laneWrite, BitVec.ofNat_toNat, BitVec.setWidth_eq]

/-- A strand that is written holds its value, whichever of the writes comes last. -/
theorem getX_putAll_xResults {ls : List (Nat × Nat)} (hl : ∀ l ∈ ls, l.1 < 64) (ctx reg : Nat) (v : Nat × Nat → W64) (g : Group) {l : Nat × Nat}
    (h : l ∈ ls) : (Group.putAll ctx (laneWrites .x reg (xResults v ls)) g).getX l.2 l.1 reg = v l := by
  have hlt : ∀ r ∈ xResults v ls, r.1.1 < 64 := List.forall_mem_map.mpr hl
  have hsame : ∀ r ∈ xResults v ls, ∀ r' ∈ xResults v ls, r.1 = r'.1 → r.2 = r'.2 :=
    List.forall_mem_map.mpr fun a _ => List.forall_mem_map.mpr fun b _ (he : a = b) => by rw [he]
  exact (Group.getX_putAll hlt hsame g (l, (v l).toNat, 0) (List.mem_map_of_mem h)).trans (by rw [BitVec.ofNat_toNat, BitVec.setWidth_eq])

/-- Of a group and its crew one instruction of `n` bytes has written register `reg` of the strands `ls`, and moved the crew past it. -/
structure WritesX (g : Group) (c : Crew) (ls : List (Nat × Nat)) (reg : Nat) (v : Nat × Nat → W64) (n : Nat) (g' : Group) (c' : Crew) : Prop where
  group : g' = { g with x := g'.x, running := some c' }
  crew : c' = { c with pc := c.pc + n, skip := [], region := { c.region with undo := c'.region.undo } }
  written : ∀ l ∈ ls, g'.getX l.2 l.1 reg = v l
  kept : ∀ slot lane m, lane < 64 → m ≤ 2097151 → (m ≠ reg ∨ (lane, slot) ∉ ls) → g'.getX slot lane m = g.getX slot lane m

theorem WritesX.onlyRegister {g g' : Group} {c c' : Crew} {ls : List (Nat × Nat)} {reg n : Nat} {v : Nat × Nat → W64} (h : WritesX g c ls reg v n g' c') :
    OnlyRegister false g c ls reg g' c' := by
  obtain ⟨hg, hc, -, hx⟩ := h
  have hcond : g'.c = g.c := by rw [hg]
  refine ⟨by rw [hcond]; exact hg, fun slot lane m hl hm ho => hx slot lane m hl hm (ho.resolve_left Bool.false_ne_true), fun slot lane m _ _ _ => ?_,
    _, _, _, _, hc⟩
  rw [Group.getC, hcond, Group.getC]

theorem WritesX.pc {g g' : Group} {c c' : Crew} {ls : List (Nat × Nat)} {reg n : Nat} {v : Nat × Nat → W64} (h : WritesX g c ls reg v n g' c') :
    c'.pc = c.pc + n := by rw [h.crew]

theorem advance_putBur_writesX {s : State} {k : Nat} {g : Group} {c : Crew} (h : s.crew k = some (g, c)) {ls : List (Nat × Nat)}
    (hl : ∀ l ∈ ls, l.1 < 64) {reg : Nat} (hr : reg ≤ 2097151) (v : Nat × Nat → W64) (n : Nat) :
    ∃ (g' : Group) (c' : Crew), (advance k n (putBur k (ls.map (xWrite reg v)) s)).crew k = some (g', c') ∧ WritesX g c ls reg v n g' c' := by
  rw [xWrites_eq]
  have hput := (congrArg (State.crew · k) (putBur_eq h (laneWrites .x reg (xResults v ls)))).trans (State.crew_setGroup_self ..)
  obtain ⟨m, hm, hkeep⟩ := Group.putAll_x_frame c.ctx reg (xResults v ls) g
  refine ⟨_, _, State.crew_modCrew _ hput, by rw [hm], rfl, fun l hmem => getX_putAll_xResults hl c.ctx reg v g hmem, fun slot lane r hlane hr' hne => ?_⟩
  refine (congrArg (fun g : Group => g.getX slot lane r) hm).trans (hkeep _ (List.forall_mem_map.mpr fun l hmem he => ?_))
  obtain ⟨hs, hla, hreg⟩ := xKey_inj hlane (hl l hmem) (by omega) (by omega) he
  rcases hne with hne | hne
  · exact hne hreg
  · exact hne (by rw [hs, hla]; exact hmem)

/-- What an instruction leaves outside the group whose registers it writes. -/
theorem advance_putBur_outsideKept {s : State} (ws : List RegWr) (n : Nat) : OutsideKept s (advance s.focus n (putBur s.focus ws s)) :=
  ((OnlyGroup.putBur ..).trans (OnlyGroup.advance ..)).outsideKept

/-! ## The place of the crew -/

theorem OnlyGroup.advanceForm {s : State} {k : Nat} (hk : s.focus = k) (op : Nat) (f : Form) : OnlyGroup k s (advanceForm op f s) := by
  subst hk
  cases f with
  | bur b => exact OnlyGroup.advance ..
  | s d => exact OnlyGroup.refl ..
  | v d => exact OnlyGroup.refl ..
  | l d => exact OnlyGroup.refl ..

/-- A Burhus crew goes past its instruction; a slot leaves its place to the bundle. -/
theorem crew_advanceForm {s : State} {k : Nat} {g : Group} {c : Crew} (hk : s.focus = k) (h : s.crew k = some (g, c)) (op : Nat) (f : Form) :
    ∃ (g' : Group) (c' : Crew), (Machine.advanceForm op f s).crew k = some (g', c') ∧ g' = { g with running := some c' } ∧
      c' = { c with pc := c'.pc, skip := c'.skip } ∧ c'.pc = c.pc + (match f with | .bur b => (encodeBIns op b).length | _ => 0) := by
  have hrun : g = { g with running := some c } := by rw [← State.running_of_crew h]
  subst hk
  cases f with
  | bur b => exact ⟨_, _, State.crew_modCrew _ h, rfl, rfl, rfl⟩
  | s d => exact ⟨_, _, h, hrun, rfl, rfl⟩
  | v d => exact ⟨_, _, h, hrun, rfl, rfl⟩
  | l d => exact ⟨_, _, h, hrun, rfl, rfl⟩

theorem OnlyGroup.mem {k : Nat} {s t : State} (h : OnlyGroup k s t) : t.mem = s.mem := by
  obtain ⟨-, -, -, -, hmem, -⟩ := h
  exact hmem

theorem OnlyGroup.group_ne {k j : Nat} {s t : State} (h : OnlyGroup k s t) (hj : j ≠ k) : t.group j = s.group j := by
  obtain ⟨-, -, -, -, -, -, -, hcore, -⟩ := h
  exact congrArg Core.group (hcore j hj)

/-- A change of the group that leaves its running crew alone. -/
theorem State.crew_modGroup {s : State} {k : Nat} {g : Group} {c : Crew} (h : s.crew k = some (g, c)) {f : Group → Group} (hf : (f g).running = g.running) :
    (s.modGroup k f).crew k = some (f g, c) :=
  State.crew_of_group (State.group_modGroup (State.group_of_crew h) f) (hf.trans (State.running_of_crew h))

/-! ## Results in flight (03 R50, R52) -/

/-- The landing of a register write. -/
abbrev RegWr.landing (held free : Bool) (a d : Nat) (w : RegWr) : Landing :=
  { at_ := a, deadline := d, cls := w.cls, reg := w.reg, slot := w.slot, lane := w.lane, val := w.val, held := held, free := free }

/-- Results put in flight are all that changes of a group and its running crew. -/
theorem onlyInFlight_append (g : Group) (c : Crew) (new : List Landing) :
    OnlyInFlight g c { g with running := some { c with inflight := c.inflight ++ new } } { c with inflight := c.inflight ++ new } :=
  ⟨rfl, new, c.region.raised, c.region.fpfWrite, rfl⟩

theorem putLater_inFlight {s : State} {k : Nat} {g : Group} {c : Crew} (h : s.crew k = some (g, c)) (a d : Nat) (ws : List RegWr) :
    ∃ (g' : Group) (c' : Crew), (putLater k a d ws s).crew k = some (g', c') ∧ OnlyInFlight g c g' c' ∧
      c'.inflight = c.inflight ++ ws.map (RegWr.landing false false a d) :=
  ⟨_, _, State.crew_modCrew _ h, onlyInFlight_append .., rfl⟩

theorem putMem_inFlight {s : State} {k : Nat} {g : Group} {c : Crew} (h : s.crew k = some (g, c)) (free : Bool) (a d : Nat) (ws : List RegWr) :
    ∃ (g' : Group) (c' : Crew), (putMem free k a d ws s).crew k = some (g', c') ∧ OnlyInFlight g c g' c' ∧
      c'.inflight = c.inflight ++ ws.map (RegWr.landing true free a d) :=
  ⟨_, _, State.crew_modCrew _ h, onlyInFlight_append .., rfl⟩

theorem OnlyGroup.putMem (free : Bool) (k a d : Nat) (ws : List RegWr) (s : State) : OnlyGroup k s (putMem free k a d ws s) := OnlyGroup.modGroup ..

/-! ## Faults of the executing lanes (18 R357, R359) -/

/-- Lanes that all fault by one kind latch that kind, each with its address. -/
theorem latchFaults_latches {s : State} {g : Group} {c : Crew} (h : s.crew s.focus = some (g, c)) (kind : Trap) (acc : Acc) {ls : List (Nat × Nat)} (hls : ls ≠ []) :
    Latches s (latchFaults s.focus acc (ls.map fun l => { lane := l.1, addr := l.2, kind := kind }) s) g c kind ls := by
  cases ls with
  | nil => exact absurd rfl hls
  | cons l ls =>
    have hkind : ((l :: ls).map fun l => ({ lane := l.1, addr := l.2, kind := kind } : LaneFault)).filter (fun f => f.kind = kind) =
        (l :: ls).map fun l => { lane := l.1, addr := l.2, kind := kind } :=
      List.filter_eq_self.mpr (List.forall_mem_map.mpr fun _ _ => decide_eq_true rfl)
    have hlanes : ((l :: ls).map fun l => ({ lane := l.1, addr := l.2, kind := kind } : LaneFault)).map (fun f => (f.lane, f.addr)) = l :: ls := by
      rw [List.map_map]
      exact List.map_id _
    rw [List.map_cons] at hkind hlanes ⊢
    rw [latchFaults, hkind, hlanes]
    exact latch_latches h _

/-! ## Bytes -/

theorem SMap.getList_eq_map {α : Type} (d : α) (m : SMap α) (k n : Nat) : SMap.getList d m k n = (List.range n).map fun i => SMap.get d m (k + i) := by
  induction n generalizing k with
  | zero => rfl
  | succ n ih =>
    rw [SMap.getList, ih, List.range_succ_eq_map, List.map_cons, List.map_map]
    exact congrArg _ (List.map_congr_left fun i _ => by rw [Function.comp_apply, Nat.add_assoc, Nat.add_comm 1])

theorem leBytes_eq_map (n x : Nat) : leBytes n x = (List.range n).map (byteAt x) := by
  induction n generalizing x with
  | zero => rfl
  | succ n ih =>
    rw [leBytes, ih, List.range_succ_eq_map, List.map_cons, List.map_map, byteAt, Nat.pow_zero, Nat.div_one]
    exact congrArg _ (List.map_congr_left fun i _ => by rw [Function.comp_apply, byteAt, byteAt, Nat.div_div_eq_div_mul, Nat.pow_succ'])

end Sys2Proof.Machine
end


section
/-!
PROOFS. O16: scratchpad loads and stores (07 R144 to R147).
-/
namespace Sys2Proof.Machine
open Sys2Proof.Claims

/-! ## The accesses that raise LOCAL_BAD (07 R144) -/

/-- An address below 2^19 names its bank by its bits 18 to 15; one above is out of range whatever they are. -/
theorem localBad_iff (g : Group) (a n : Nat) : localBad g a n = true ↔ a % n ≠ 0 ∨ 393216 < a + n ∨ g.modeOf (a / 32768) ≠ some 1 := by
  simp only [localBad, Bool.or_eq_true, decide_eq_true_eq, fld_eq_div]
  by_cases ha : 393216 < a + n
  · simp only [ha, true_or, or_true]
  · rw [show a / 2 ^ 15 % 2 ^ (18 + 1 - 15) = a / 32768 from Nat.mod_eq_of_lt (by omega)]
    exact or_assoc.trans or_left_comm

/-- The places that the lanes of a scratchpad access name. -/
abbrev memPlaces (g : Group) (c : Crew) (f : Form) : List (Nat × Nat × Nat) := (memLanes g c f).map fun l => (l.1, l.2, memEa g c f l.1 l.2)

/-- The lanes of an access with the addresses that a fault of theirs reports. -/
abbrev faultPlaces (g : Group) (c : Crew) (f : Form) : List (Nat × Nat) := (memLanes g c f).map fun l => (l.1, memEa g c f l.1 l.2)

/-- LOCAL_BAD in every lane of an access. -/
abbrev localFaults (g : Group) (c : Crew) (f : Form) : List LaneFault := (faultPlaces g c f).map fun l => { lane := l.1, addr := l.2, kind := .localBad }

theorem localAccess_of_good {g : Group} {c : Crew} {f : Form} (hl : ∀ l ∈ memLanes g c f, memEa g c f l.1 l.2 % tyBytes (memTy f) = 0 ∧
      memEa g c f l.1 l.2 + tyBytes (memTy f) ≤ 393216 ∧ g.modeOf (memEa g c f l.1 l.2 / 32768) = some 1) :
    localAccess g c f = (memPlaces g c f, []) := by
  have hgood : ∀ p ∈ memPlaces g c f, localBad g p.2.2 (tyBytes (memTy f)) = false := List.forall_mem_map.mpr fun l h => by
    obtain ⟨halign, hrange, hmode⟩ := hl l h
    rw [Bool.eq_false_iff, Ne, localBad_iff]
    exact not_or.mpr ⟨not_not.mpr halign, not_or.mpr ⟨Nat.not_lt.mpr hrange, not_not.mpr hmode⟩⟩
  rw [localAccess, List.filter_eq_self.mpr fun p hp => by rw [hgood p hp]; rfl,
    List.filter_eq_nil_iff.mpr fun p hp => by rw [hgood p hp]; exact Bool.false_ne_true, List.map_nil]

theorem localAccess_of_bad {g : Group} {c : Crew} {f : Form} (hl : ∀ l ∈ memLanes g c f, memEa g c f l.1 l.2 % tyBytes (memTy f) ≠ 0 ∨
      393216 < memEa g c f l.1 l.2 + tyBytes (memTy f) ∨ g.modeOf (memEa g c f l.1 l.2 / 32768) ≠ some 1) :
    localAccess g c f = ([], localFaults g c f) := by
  have hbad : ∀ p ∈ memPlaces g c f, localBad g p.2.2 (tyBytes (memTy f)) = true :=
    List.forall_mem_map.mpr fun l h => (localBad_iff ..).mpr (hl l h)
  rw [localAccess, List.filter_eq_nil_iff.mpr fun p hp => by rw [hbad p hp]; exact Bool.false_ne_true, List.filter_eq_self.mpr hbad, List.map_map,
    localFaults, List.map_map]
  rfl

/-! ## LDS (07 R145 to R147) -/

/-- The bytes that a lane of LDS reads: the crew's own buffered ones over those of the scratchpad. -/
abbrev localBytes (g : Group) (c : Crew) (f : Form) (l : Nat × Nat) : List Byte :=
  overlayOwn (ownLocal c) (memEa g c f l.1 l.2) ((List.range (tyBytes (memTy f))).map fun i => SMap.get 0 g.scratch (memEa g c f l.1 l.2 + i))

/-- The write of a lane of LDS. -/
abbrev localWrite (g : Group) (c : Crew) (f : Form) (l : Nat × Nat) : RegWr :=
  { cls := memCls f, reg := memDest f, slot := l.2, lane := l.1, val := extended (memTy f) (memScalar f) (localBytes g c f l) }

theorem localWrites_eq (g : Group) (c : Crew) (f : Form) : ((memPlaces g c f).map fun l =>
      { cls := memCls f, reg := memDest f, slot := l.2.1, lane := l.1,
        val := BitVec.ofNat 64 (extendVal (memTy f) (memScalar f) (localRead g c l.2.2 (tyBytes (memTy f)))) : RegWr }) =
    (memLanes g c f).map (localWrite g c f) := by
  rw [List.map_map]
  refine List.map_congr_left fun l _ => ?_
  simp only [Function.comp_apply, ofNat_extendVal, localRead, SMap.getList_eq_map]

theorem exec_lds_bur {s : State} {g : Group} {c : Crew} {b : BIns} (h : s.crew s.focus = some (g, c))
    (ha : localAccess g c (.bur b) = (memPlaces g c (.bur b), [])) :
    exec (.lds (.bur b)) s = .next (advance s.focus (lenB 0x52 b) (putBur s.focus ((burLanes g c b.guard).map (localWrite g c (.bur b))) s)) := by
  show execLds (.bur b) s = _
  simp only [execLds, h, ha, localWrites_eq, ne_eq, not_true_eq_false, if_false]
  rfl

theorem exec_lds_l {s : State} {g : Group} {c : Crew} {d : LSlot} (h : s.crew s.focus = some (g, c))
    (ha : localAccess g c (.l d) = (memPlaces g c (.l d), [])) :
    exec (.lds (.l d)) s = .next (putMem true s.focus (s.cycle + 5 + passes ((memLanes g c (.l d)).map fun l => memEa g c (.l d) l.1 l.2))
      (s.cycle + lBound (.l d)) ((memLanes g c (.l d)).map (localWrite g c (.l d))) s) := by
  have hdead : (memLanes g c (.l d)).filter (fun l => ([] : List LaneFault).any fun x => x.lane = l.1) = [] :=
    List.filter_eq_nil_iff.mpr fun _ _ => Bool.false_ne_true
  have hea : (memPlaces g c (.l d)).map (fun l => l.2.2) = (memLanes g c (.l d)).map fun l => memEa g c (.l d) l.1 l.2 := List.map_map
  show execLds (.l d) s = _
  simp only [execLds, h, ha, hea, localWrites_eq, hdead, zeroWrites, List.map_nil, List.append_nil, latchFaults]

theorem exec_lds_bad {s : State} {g : Group} {c : Crew} {b : BIns} {fs : List LaneFault} (h : s.crew s.focus = some (g, c))
    (ha : localAccess g c (.bur b) = ([], fs)) (hne : fs ≠ []) : exec (.lds (.bur b)) s = .next (latchFaults s.focus .read fs s) := by
  show execLds (.bur b) s = _
  simp only [execLds, h, ha, ne_eq, hne, not_false_eq_true, if_true]

/-! ## STS (07 R146, R147) -/

/-- The entry of the store buffer that an STS makes. -/
abbrev localStore (g : Group) (c : Crew) (f : Form) : BufEntry :=
  .sts ((memLanes g c f).map fun l => (memEa g c f l.1 l.2, (List.range (tyBytes (memTy f))).map (byteAt (memSrc g c f l.1 l.2))))

theorem localStore_eq (g : Group) (c : Crew) (f : Form) :
    BufEntry.sts ((memPlaces g c f).map fun l => (l.2.2, leBytes (tyBytes (memTy f)) (memSrc g c f l.1 l.2.1))) = localStore g c f := by
  simp only [List.map_map, Function.comp_def, leBytes_eq_map]

theorem exec_sts {s : State} {g : Group} {c : Crew} {f : Form} (h : s.crew s.focus = some (g, c)) (hb : c.region.buf.length < 768)
    (ha : localAccess g c f = (memPlaces g c f, [])) (hne : memLanes g c f ≠ []) :
    exec (.sts f) s = .next (advanceForm 0x53 f (s.modRegion s.focus fun r => { r with buf := r.buf ++ [localStore g c f] })) := by
  have hplaces : memPlaces g c f ≠ [] := mt List.map_eq_nil_iff.mp hne
  show execSts f s = _
  simp only [execSts, h, ha, localStore_eq, latchFaults, appendBuf_of_room h hb, hplaces, if_false]
  cases f with
  | bur b => simp only [ne_eq, not_true_eq_false, if_false, advanceForm, State.modRegion_focus]
  | s d => rfl
  | v d => rfl
  | l d => rfl

theorem exec_sts_bad {s : State} {g : Group} {c : Crew} {b : BIns} {fs : List LaneFault} (h : s.crew s.focus = some (g, c))
    (ha : localAccess g c (.bur b) = ([], fs)) (hne : fs ≠ []) : exec (.sts (.bur b)) s = .next (latchFaults s.focus .write fs s) := by
  show execSts (.bur b) s = _
  simp only [execSts, h, ha, ne_eq, hne, not_false_eq_true, if_true]

/-! ## The obligation -/

/-- An access none of whose lanes may name its place latches LOCAL_BAD in all of them. -/
theorem localBad_latches {s : State} {g : Group} {c : Crew} {b : BIns} (h : s.crew s.focus = some (g, c)) {i : Instr}
    (hi : i ∈ [Instr.lds (.bur b), .sts (.bur b)]) (hne : burLanes g c b.guard ≠ []) (ha : localAccess g c (.bur b) = ([], localFaults g c (.bur b))) :
    ∃ t, exec i s = .next t ∧ Latches s t g c .localBad (faultPlaces g c (.bur b)) := by
  have hls : faultPlaces g c (.bur b) ≠ [] := mt List.map_eq_nil_iff.mp hne
  have hfs : localFaults g c (.bur b) ≠ [] := mt List.map_eq_nil_iff.mp hls
  simp only [List.mem_cons, List.not_mem_nil, or_false] at hi
  rcases hi with rfl | rfl
  · exact ⟨_, exec_lds_bad h ha hfs, latchFaults_latches h .localBad .read hls⟩
  · exact ⟨_, exec_sts_bad h ha hfs, latchFaults_latches h .localBad .write hls⟩

/-- Settles O16: LDS and STS by the forms that they have, where every lane may name its place; and the fault where none may. -/
theorem scratchpad : Obligations.Scratchpad := by
  refine ⟨fun s g c f hw h hl => ?_, fun s g c f _ h hb hne hl => ?_, fun s g c b i hi _ h hne hl => localBad_latches h hi hne (localAccess_of_bad hl)⟩
  · have ha := localAccess_of_good hl
    rcases bur_or_l_of_wellFormed (i := .lds f) rfl rfl rfl hw with ⟨b, rfl, hb⟩ | ⟨d, rfl⟩
    · obtain ⟨g', c', hc', hx⟩ := advance_putBur_writesX h (fun _ => burLanes_lt) (dest_le_of_wfBur hb)
        (fun l => extended (b.m1.toNat % 16) false (localBytes g c (.bur b) l)) (lenB 0x52 b)
      exact ⟨_, g', c', exec_lds_bur h ha, advance_putBur_outsideKept .., hc', by rw [hx.group], hx.onlyRegister, hx.pc, hx.written⟩
    · obtain ⟨g', c', hc', ⟨hg', hnew⟩, hin⟩ := putMem_inFlight h true _ _ _
      exact ⟨_, g', c', exec_lds_l h ha, (OnlyGroup.putMem ..).outsideKept, hc', by rw [hg'], ⟨hg', hnew⟩, hin.trans (by rw [List.map_map]; rfl)⟩
  · have hbuf := State.crew_modRegion (fun r => { r with buf := r.buf ++ [localStore g c f] }) h
    obtain ⟨g', c', hc', hg', hkeep, hpc⟩ := crew_advanceForm (State.modRegion_focus ..) hbuf 0x53 f
    exact ⟨_, g', c', exec_sts h hb (localAccess_of_good hl) hne, ((OnlyGroup.modRegion ..).trans (OnlyGroup.advanceForm (State.modRegion_focus ..) 0x53 f)).mem,
      hc', by rw [hg'], hpc, by rw [hkeep]⟩

end Sys2Proof.Machine
end


section
/-!
PROOFS. O17: pushes and pops of FIFO banks (07 R151, R152).
-/
namespace Sys2Proof.Machine
open Sys2Proof.Claims

/-! ## FIFO_BAD (07 R152) -/

theorem fifoBad_latches {s : State} {g : Group} {c : Crew} {f : Form} (h : s.crew s.focus = some (g, c)) (hne : fifoLanes g c f ≠ []) :
    Latches s (fifoBad g c f s) g c .fifoBad ((fifoLanes g c f).map fun l => (l.1, 0)) := by
  have hlanes : (fifoLanes g c f).map (fun l => (l.1, 0)) ≠ [] := mt List.map_eq_nil_iff.mp hne
  have hbad : fifoBad g c f s = latch s.focus { kind := .fifoBad, lanes := (fifoLanes g c f).map fun l => (l.1, 0), acc := .write } s := by
    unfold fifoBad
    split
    · next hnil => exact absurd hnil hne
    · rw [latchLanes, if_neg hlanes]
  rw [hbad]
  exact latch_latches h _

/-! ## What a PUSH meets (07 R151, R152) -/

theorem pushState_of_consumer {s : State} {g h : Group} {c : Crew} {b d : Nat} (hd : g.down = some d) (hs : s.sibling g d = some h) (hp : h.pcrew b = c.ctx) :
    pushState s g c b = if (h.queue b).room ≠ 0 then .ok d else if (c.region.pushed.filter fun p => p.1 = b).length = 128 then .overrun else .full := by
  simp only [pushState, hd, hs, hp, ne_eq, not_true_eq_false, if_false]

theorem pushState_ok {s : State} {g h : Group} {c : Crew} {b d : Nat} (hd : g.down = some d) (hs : s.sibling g d = some h) (hp : h.pcrew b = c.ctx)
    (hq : (h.queue b).entries.length + (h.queue b).inbound.length + (h.queue b).unpublished < 128) : pushState s g c b = .ok d := by
  rw [pushState_of_consumer hd hs hp, if_pos]
  exact Nat.sub_ne_zero_of_lt hq

theorem pushState_full {s : State} {g h : Group} {c : Crew} {b d : Nat} (hd : g.down = some d) (hs : s.sibling g d = some h) (hp : h.pcrew b = c.ctx)
    (hq : 128 ≤ (h.queue b).entries.length + (h.queue b).inbound.length + (h.queue b).unpublished)
    (hown : (c.region.pushed.filter fun p => p.1 = b).length ≠ 128) : pushState s g c b = .full := by
  have hroom : (h.queue b).room = 0 := Nat.sub_eq_zero_of_le hq
  rw [pushState_of_consumer hd hs hp, if_neg (not_not.mpr hroom), if_neg hown]

theorem pushState_bad {s : State} {g : Group} {c : Crew} {b : Nat}
    (h : g.down = none ∨ ∃ d h, g.down = some d ∧ s.sibling g d = some h ∧ h.pcrew b ≠ c.ctx) : pushState s g c b = .bad := by
  rcases h with hd | ⟨d, h, hd, hs, hp⟩
  · simp only [pushState, hd]
  · simp only [pushState, hd, hs, ne_eq, hp, not_false_eq_true, if_true]

/-! ## The entry of a PUSH (07 R151) -/

/-- Lane `i` of the entry that a PUSH makes: the value of the lane, where it executes, else 0. -/
def pushWord (g : Group) (c : Crew) (f : Form) (i : Nat) : W32 :=
  match (fifoLanes g c f).find? fun l => l.1 = i with
  | some l => BitVec.ofNat 32 (memSrc g c f l.1 l.2)
  | none => 0

/-- The entry that a PUSH makes. -/
def pushEntry (g : Group) (c : Crew) (f : Form) : List W32 := (List.range 64).map (pushWord g c f)

theorem pushEntry_length (g : Group) (c : Crew) (f : Form) : (pushEntry g c f).length = 64 := by rw [pushEntry, List.length_map, List.length_range]

theorem pushEntry_getElem? (g : Group) (c : Crew) (f : Form) {i : Nat} (hi : i < 64) : (pushEntry g c f)[i]? = some (pushWord g c f i) := by
  rw [pushEntry, List.getElem?_map, List.getElem?_range hi, Option.map_some]

theorem pushWord_of_idle {g : Group} {c : Crew} {f : Form} {i : Nat} (hl : ∀ l ∈ fifoLanes g c f, l.1 ≠ i) : pushWord g c f i = 0 := by
  have hnone : ((fifoLanes g c f).find? fun l => l.1 = i) = none := List.find?_eq_none.mpr fun l hmem => by simpa using hl l hmem
  rw [pushWord, hnone]

theorem pushWord_of_lane {g : Group} {c : Crew} {f : Form} {i : Nat} (hl : ∃ l ∈ fifoLanes g c f, l.1 = i) :
    ∃ l ∈ fifoLanes g c f, l.1 = i ∧ pushWord g c f i = BitVec.ofNat 32 (memSrc g c f l.1 l.2) := by
  obtain ⟨k, hk, hki⟩ := hl
  have hsome : ((fifoLanes g c f).find? fun l => l.1 = i).isSome := List.find?_isSome.mpr ⟨k, hk, by simpa using hki⟩
  obtain ⟨l, hfind⟩ := Option.isSome_iff_exists.mp hsome
  exact ⟨l, List.mem_of_find?_eq_some hfind, by simpa using List.find?_some hfind, by rw [pushWord, hfind]⟩

/-! ## The place that a PUSH takes (07 R151) -/

/-- The consumer's group with a place of a queue taken for an entry that is not published yet. -/
def Group.reserve (b : Nat) (h : Group) : Group := h.setQueue b { h.queue b with unpublished := (h.queue b).unpublished + 1 }

theorem Group.queue_reserve_self (b : Nat) (h : Group) : (h.reserve b).queue b = { h.queue b with unpublished := (h.queue b).unpublished + 1 } :=
  queue_setQueue_self ..

theorem Group.queue_reserve_ne {b b' : Nat} (h : Group) (hb : b' ≠ b) : (h.reserve b).queue b' = h.queue b' := queue_setQueue_ne h _ hb

/-- The state in which a PUSH has taken its place and noted its entry for the commit point. -/
def afterPush (d : Nat) (f : Form) (g : Group) (c : Crew) (s : State) : State :=
  (s.modGroup d (Group.reserve (fifoBank f))).modRegion s.focus fun r => { r with pushed := r.pushed ++ [(fifoBank f, pushEntry g c f)] }

theorem afterPush_focus (d : Nat) (f : Form) (g : Group) (c : Crew) (s : State) : (afterPush d f g c s).focus = s.focus :=
  (State.modRegion_focus ..).trans (State.modGroup_focus ..)

theorem exec_push_ok {s : State} {g h : Group} {c : Crew} {f : Form} {d : Nat} (hc : s.crew s.focus = some (g, c)) (hs : s.sibling g d = some h)
    (hp : pushState s g c (fifoBank f) = .ok d) : exec (.push f) s = .next (advanceForm 0x57 f (afterPush d f g c s)) := by
  show execPush f s = _
  simp only [execPush, hc, hp, hs, Option.isSome_some, if_true, State.modGroup_focus]
  rfl

theorem exec_push_full {s : State} {g : Group} {c : Crew} {f : Form} (hc : s.crew s.focus = some (g, c)) (hp : pushState s g c (fifoBank f) = .full) :
    exec (.push f) s = .next (holdCrew s.focus (.fifoSpace (fifoBank f)) s) := by
  show execPush f s = _
  simp only [execPush, hc, hp]

theorem exec_push_bad {s : State} {g : Group} {c : Crew} {f : Form} (hc : s.crew s.focus = some (g, c)) (hp : pushState s g c (fifoBank f) = .bad) :
    exec (.push f) s = .next (fifoBad g c f s) := by
  show execPush f s = _
  simp only [execPush, hc, hp]

theorem State.group_of_sibling {s : State} {g h : Group} {d : Nat} (hs : s.sibling g d = some h) : s.group d = some h := by
  unfold State.sibling at hs
  split at hs
  · next x hx =>
    split at hs
    · exact hx.trans hs
    · cases hs
  · cases hs

/-- The group of the pushing crew takes the place where it consumes its own pushes, and else stays as it is. -/
theorem crew_reserve {s : State} {k d b : Nat} {g : Group} {c : Crew} (h : s.crew k = some (g, c)) :
    (s.modGroup d (Group.reserve b)).crew k = some (if d = k then g.reserve b else g, c) := by
  by_cases hd : d = k
  · subst hd
    rw [if_pos rfl]
    exact State.crew_modGroup h rfl
  · rw [if_neg hd]
    exact State.crew_of_group ((State.group_modGroup_ne _ _ (Ne.symm hd)).trans (State.group_of_crew h)) (State.running_of_crew h)

/-- What a PUSH with a place leaves of its crew: one more entry that is not published. -/
theorem crew_afterPush {s : State} {g : Group} {c : Crew} (h : s.crew s.focus = some (g, c)) (d : Nat) (f : Form) :
    ∃ (g' : Group) (c' : Crew), (advanceForm 0x57 f (afterPush d f g c s)).crew s.focus = some (g', c') ∧
      g' = { g with fifo := g'.fifo, running := some c' } ∧ g'.fifo = (if d = s.focus then (g.reserve (fifoBank f)).fifo else g.fifo) ∧
      c' = { c with pc := c'.pc, skip := c'.skip, region := { c.region with pushed := c'.region.pushed } } ∧
      c'.region.pushed = c.region.pushed ++ [(fifoBank f, pushEntry g c f)] ∧
      c'.pc = c.pc + (match f with | .bur b => (encodeBIns 0x57 b).length | _ => 0) := by
  obtain ⟨g', c', hc', hg', hkeep, hpc⟩ := crew_advanceForm (afterPush_focus d f g c s) (State.crew_modRegion _ (crew_reserve h)) 0x57 f
  refine ⟨g', c', hc', ?_, ?_, by rw [hkeep], by rw [hkeep], hpc⟩
  · rw [hg']
    split <;> rfl
  · rw [hg']
    split <;> rfl

theorem afterPush_onlyGroup (d : Nat) (f : Form) (g : Group) (c : Crew) (s : State) :
    OnlyGroup s.focus (s.modGroup d (Group.reserve (fifoBank f))) (advanceForm 0x57 f (afterPush d f g c s)) :=
  (OnlyGroup.modRegion ..).trans (OnlyGroup.advanceForm (afterPush_focus d f g c s) 0x57 f)

/-- What a PUSH with a place leaves of its consumer, which may be its own group: a place taken in the queue. -/
theorem group_afterPush {s : State} {g h : Group} {c : Crew} (hc : s.crew s.focus = some (g, c)) {d : Nat} (hh : s.group d = some h) (f : Form) :
    ∃ h', (advanceForm 0x57 f (afterPush d f g c s)).group d = some h' ∧ (d ≠ s.focus → h' = { h with fifo := h'.fifo }) ∧
      h'.fifo = (h.reserve (fifoBank f)).fifo := by
  by_cases hd : d = s.focus
  · obtain ⟨g', c', hc', -, hfifo, -⟩ := crew_afterPush hc d f
    have hgh : g = h := Option.some.inj ((State.group_of_crew hc).symm.trans (hd ▸ hh))
    rw [if_pos hd, hgh] at hfifo
    exact ⟨g', (congrArg (State.group _) hd).trans (State.group_of_crew hc'), fun hne => absurd hd hne, hfifo⟩
  · exact ⟨h.reserve (fifoBank f), ((afterPush_onlyGroup d f g c s).group_ne hd).trans (State.group_modGroup hh _), fun _ => rfl, rfl⟩

/-! ## POP (07 R151, R152) -/

/-- The group with the oldest entry of a queue taken by the open region. -/
def Group.take (b : Nat) (g : Group) : Group := g.setQueue b { g.queue b with taken := (g.queue b).taken + 1 }

theorem Group.queue_take_self (b : Nat) (g : Group) : (g.take b).queue b = { g.queue b with taken := (g.queue b).taken + 1 } := queue_setQueue_self ..

theorem Group.queue_take_ne {b b' : Nat} (g : Group) (hb : b' ≠ b) : (g.take b).queue b' = g.queue b' := queue_setQueue_ne g _ hb

/-- The region with one entry more taken of a queue. -/
def Region.pop (b : Nat) (r : Region) : Region := { r with popped := r.popped.set 0 b (r.popped.get 0 b + 1) }

/-- The state in which a POP has taken its entry. -/
def afterPop (b : Nat) (s : State) : State := (s.modGroup s.focus (Group.take b)).modRegion s.focus (Region.pop b)

theorem afterPop_onlyGroup (b : Nat) (s : State) : OnlyGroup s.focus s (afterPop b s) := (OnlyGroup.modGroup ..).trans (OnlyGroup.modRegion ..)

theorem crew_afterPop {s : State} {g : Group} {c : Crew} (h : s.crew s.focus = some (g, c)) (b : Nat) :
    let c₁ := { c with region := c.region.pop b }
    (afterPop b s).crew s.focus = some ({ g.take b with running := some c₁ }, c₁) :=
  State.crew_modRegion _ (State.crew_modGroup h rfl)

/-- The value that a lane takes from an entry. -/
abbrev popVal (e : List W32) (l : Nat × Nat) : W64 := (e.getD l.1 0).setWidth 64

/-- The write of a lane of a POP in a slot. -/
abbrev popWrite (f : Form) (e : List W32) (l : Nat × Nat) : RegWr := { cls := memCls f, reg := memDest f, slot := l.2, lane := l.1, val := popVal e l }

section
variable {s : State} {g : Group} {c : Crew} {f : Form} (h : s.crew s.focus = some (g, c)) (hm : g.modeOf (fifoBank f) = some 2)
  (hcc : g.ccrew (fifoBank f) = c.ctx)
include h hm hcc

theorem exec_pop_bur {b : BIns} {e : List W32} (he : (g.queue (fifoBank f)).entries[(g.queue (fifoBank f)).taken]? = some e) (hf : f = .bur b) :
    exec (.pop f) s = .next (advance s.focus (lenB 0x58 b) (putBur s.focus ((burLanes g c b.guard).map (xWrite b.d (popVal e))) (afterPop (fifoBank f) s))) := by
  subst hf
  show execPop (.bur b) s = _
  simp only [execPop, h, hm, hcc, he, ne_eq, not_true_eq_false, or_self, if_false, State.modRegion_focus, State.modGroup_focus]
  rfl

theorem exec_pop_l {d : LSlot} {e : List W32} (he : (g.queue (fifoBank f)).entries[(g.queue (fifoBank f)).taken]? = some e) (hf : f = .l d) :
    exec (.pop f) s = .next (putLater s.focus (s.cycle + 6) (s.cycle + lBound f) ((fifoLanes g c f).map (popWrite f e)) (afterPop (fifoBank f) s)) := by
  subst hf
  show execPop (.l d) s = _
  simp only [execPop, h, hm, hcc, he, ne_eq, not_true_eq_false, or_self, if_false, State.modRegion_focus, State.modGroup_focus, State.modRegion_cycle,
    State.modGroup_cycle]
  rfl

theorem exec_pop_empty (he : (g.queue (fifoBank f)).entries.length ≤ (g.queue (fifoBank f)).taken) :
    exec (.pop f) s = .next (holdCrew s.focus (.fifoEntry (fifoBank f)) s) := by
  show execPop f s = _
  simp only [execPop, h, hm, hcc, List.getElem?_eq_none he, ne_eq, not_true_eq_false, or_self, if_false]

end

theorem exec_pop_bad {s : State} {g : Group} {c : Crew} {b : BIns} (h : s.crew s.focus = some (g, c))
    (hb : g.modeOf (fifoBank (.bur b)) ≠ some 2 ∨ g.ccrew (fifoBank (.bur b)) ≠ c.ctx) : exec (.pop (.bur b)) s = .next (fifoBad g c (.bur b) s) := by
  show execPop (.bur b) s = _
  simp only [execPop, h, if_pos hb]

/-- What a POP leaves of the queues, whatever its form does with the entry. -/
theorem queues_of_take {g g' : Group} {b : Nat} (h : g'.fifo = (g.take b).fifo) : (∀ b', b' ≠ b → g'.queue b' = g.queue b') ∧
    (g'.queue b).taken = (g.queue b).taken + 1 ∧ (g'.queue b).entries = (g.queue b).entries := by
  have hq : ∀ b', g'.queue b' = (g.take b).queue b' := fun b' => by rw [Group.queue, h, Group.queue]
  exact ⟨fun b' hb => (hq b').trans (Group.queue_take_ne g hb), by rw [hq, Group.queue_take_self], by rw [hq, Group.queue_take_self]⟩

theorem popped_pop (b : Nat) (r : Region) : (r.pop b).popped.get 0 b = r.popped.get 0 b + 1 := by
  rw [Region.pop, SMap.get_set_self]

/-! ## The obligation -/

theorem pushes : Pushes := by
  intro s g c f _ hc
  refine ⟨fun d h hd hs hp => ⟨fun hq => ?_, fun hq hown => ?_⟩, fun hbad hne => ⟨_, exec_push_bad hc (pushState_bad hbad), fifoBad_latches hc hne⟩⟩
  · obtain ⟨g', c', hc', hg', hown, hkeep, hpushed, hpc⟩ := crew_afterPush hc d f
    obtain ⟨h', hh', hother, hfifo⟩ := group_afterPush hc (State.group_of_sibling hs) f
    have hqueue : ∀ b, h'.queue b = (h.reserve (fifoBank f)).queue b := fun b => by rw [Group.queue, hfifo, Group.queue]
    refine ⟨_, g', c', pushEntry g c f, exec_push_ok hc hs (pushState_ok hd hs hp hq), (afterPush_onlyGroup d f g c s).mem.trans (State.modGroup_mem ..), hc', hg',
      fun hne => hown.trans (if_neg hne), hkeep, hpushed, pushEntry_length g c f, fun i hi hl => ?_, fun i hi hl => ?_, hpc, h', hh', hother, fun b hb => ?_, ?_, ?_⟩
    · rw [pushEntry_getElem? g c f hi, pushWord_of_idle hl]
    · obtain ⟨l, hl, hli, hw⟩ := pushWord_of_lane hl
      exact ⟨l, hl, hli, by rw [pushEntry_getElem? g c f hi, hw]⟩
    · rw [hqueue, Group.queue_reserve_ne h hb]
    · rw [hqueue, Group.queue_reserve_self]
    · rw [hqueue, Group.queue_reserve_self]
  · exact ⟨_, _, _, exec_push_full hc (pushState_full hd hs hp hq hown), (OnlyGroup.holdCrew ..).mem, State.crew_modCrew _ hc, rfl, rfl⟩

theorem pops : Pops := by
  intro s g c f hw h
  refine ⟨fun hm hcc => ⟨fun e he => ?_, fun he => ?_⟩, ?_⟩
  · have htaken := crew_afterPop h (fifoBank f)
    rcases bur_or_l_of_wellFormed (i := .pop f) rfl rfl rfl hw with ⟨b, rfl, hb⟩ | ⟨d, rfl⟩
    · obtain ⟨g', c', hc', hx⟩ := advance_putBur_writesX htaken (ls := burLanes g c b.guard) (fun _ => burLanes_lt) (dest_le_of_wfBur hb) (popVal e) (lenB 0x58 b)
      have hfifo : g'.fifo = (g.take (fifoBank (.bur b))).fifo := by rw [hx.group]
      obtain ⟨hne, htk, hen⟩ := queues_of_take hfifo
      exact ⟨_, g', c', exec_pop_bur h hm hcc he rfl, (((afterPop_onlyGroup ..).trans (OnlyGroup.putBur ..)).trans (OnlyGroup.advance ..)).outsideKept, hc',
        by rw [hfifo]; exact hx.group, hne, htk, hen, by rw [hx.crew]; exact popped_pop .., hx.pc, hx.kept, hx.written⟩
    · obtain ⟨g', c', hc', ⟨hg', _, _, _, hcr⟩, hin⟩ := putLater_inFlight htaken (s.cycle + 6) (s.cycle + lBound (.l d))
        ((fifoLanes g c (.l d)).map (popWrite (.l d) e))
      have hfifo : g'.fifo = (g.take (fifoBank (.l d))).fifo := by rw [hg']
      have hx : g'.x = g.x := by rw [hg']; rfl
      obtain ⟨hne, htk, hen⟩ := queues_of_take hfifo
      exact ⟨_, g', c', exec_pop_l h hm hcc he rfl, ((afterPop_onlyGroup ..).trans (OnlyGroup.putLater ..)).outsideKept, hc',
        by rw [hfifo, hx]; exact hg', hne, htk, hen, by rw [hcr]; exact popped_pop .., hx, hin.trans (by rw [List.map_map]; rfl)⟩
  · exact ⟨_, _, _, exec_pop_empty h hm hcc he, (OnlyGroup.holdCrew ..).mem, State.crew_modCrew _ h, rfl, rfl⟩
  · rintro b rfl hb hne
    exact ⟨_, exec_pop_bad h hb, fifoBad_latches h hne⟩

/-- Settles O17: a PUSH by what it meets at the consumer's queue, a POP by what stands in its own. -/
theorem fifos : Obligations.Fifos := ⟨pushes, pops⟩

end Sys2Proof.Machine
end


section
/-!
PROOFS. O18: spills and fills, and the transfer slot (07 R154, R155; 03 R54, R56).
-/
namespace Sys2Proof.Machine
open Sys2Proof.Claims

/-! ## Runs of byte strings written at places of their own -/

/-- A table with a string of bytes written for each lane. -/
def writeAll (place : Nat × Nat → Nat) (bytes : Nat × Nat → List Byte) (ls : List (Nat × Nat)) (m : SMap Byte) : SMap Byte :=
  ls.foldl (fun m l => m.setList 0 (place l) (bytes l)) m

section
variable {place : Nat × Nat → Nat} {bytes : Nat × Nat → List Byte} {n : Nat} (hn : ∀ l, (bytes l).length = n)
include hn

theorem get_writeAll_of_out (ls : List (Nat × Nat)) (m : SMap Byte) {k : Nat} (hk : ∀ l ∈ ls, k < place l ∨ place l + n ≤ k) :
    SMap.get 0 (writeAll place bytes ls m) k = SMap.get 0 m k := by
  induction ls generalizing m with
  | nil => rfl
  | cons l ls ih =>
    have hl := hk l List.mem_cons_self
    refine (ih _ fun q hq => hk q (List.mem_cons_of_mem _ hq)).trans ?_
    rw [SMap.get_setList, hn, if_neg (by omega)]

/-- Where no two strings overlap, each lane's stands at its place. -/
theorem get_writeAll_of_mem {ls : List (Nat × Nat)} (m : SMap Byte)
    (hd : ∀ l ∈ ls, ∀ q ∈ ls, q = l ∨ place l + n ≤ place q ∨ place q + n ≤ place l) {l : Nat × Nat} (hl : l ∈ ls) {j : Nat} (hj : j < n) :
    SMap.get 0 (writeAll place bytes ls m) (place l + j) = (bytes l).getD j 0 := by
  induction ls generalizing m with
  | nil => cases hl
  | cons a ls ih =>
    by_cases hmem : l ∈ ls
    · exact ih _ (fun x hx y hy => hd x (List.mem_cons_of_mem _ hx) y (List.mem_cons_of_mem _ hy)) hmem
    · have hla : l = a := (List.mem_cons.mp hl).resolve_right hmem
      subst hla
      refine (get_writeAll_of_out hn ls _ fun q hq => ?_).trans ?_
      · have hapart := (hd l hl q (List.mem_cons_of_mem _ hq)).resolve_left fun e => hmem (e ▸ hq)
        omega
      · rw [SMap.get_setList, hn, if_pos (by omega), Nat.add_sub_cancel_left]

end

/-! ## The places of SPL and FIL in the spill areas (07 R155) -/

/-- The byte of the spill areas at which the register of a lane begins. -/
abbrev areaPlace (c : Crew) (d : LSlot) (l : Nat × Nat) : Nat :=
  if d.dv then l.2 * 16384 + 256 * (d.disp.toNat % 64) + 4 * l.1 else c.ctx * 16384 + 256 * (d.disp.toNat % 64) + 8 * (d.disp.toNat / 64 % 32)

/-- The bytes of a register in the spill areas. -/
abbrev areaSize (d : LSlot) : Nat := if d.dv then 4 else 8

/-- The register that SPL writes. -/
abbrev splValue (g : Group) (c : Crew) (d : LSlot) (l : Nat × Nat) : Nat :=
  if d.dv then (g.getV l.2 d.d.toNat l.1).toNat else (g.getS c.ctx d.d.toNat).toNat

theorem spillKey_lane (d : LSlot) (slot lane : Nat) : spillKey slot (spillLane d lane) = slot * 16384 + 256 * (d.disp.toNat % 64) + 4 * lane := by
  rw [spillKey, spillLane, fld_eq_div, Nat.pow_zero, Nat.div_one, Nat.add_assoc]
  rfl

theorem spillKey_scalar (d : LSlot) (slot : Nat) :
    spillKey slot (spillScalar d) = slot * 16384 + 256 * (d.disp.toNat % 64) + 8 * (d.disp.toNat / 64 % 32) := by
  rw [spillKey, spillScalar, fld_eq_div, fld_eq_div, Nat.pow_zero, Nat.div_one, Nat.add_assoc]
  rfl

/-- The one lane under which a scalar form makes its access. -/
theorem eq_of_mem_scalarLanes {g : Group} {c : Crew} {d : LSlot} (hv : ¬d.dv) {l : Nat × Nat} (hl : l ∈ memLanes g c (.l d)) : l = (0, 0) := by
  rw [memLanes, if_neg hv] at hl
  split at hl
  · exact List.mem_singleton.mp hl
  · cases hl

/-- The registers of two lanes stand apart: of lanes below 64 in one home slot's area, and of different home slots in different areas. A scalar form
has one lane. -/
theorem areaPlace_disjoint {g : Group} {c : Crew} {d : LSlot} : ∀ l ∈ memLanes g c (.l d), ∀ q ∈ memLanes g c (.l d),
    q = l ∨ areaPlace c d l + areaSize d ≤ areaPlace c d q ∨ areaPlace c d q + areaSize d ≤ areaPlace c d l := by
  intro l hl q hq
  by_cases hv : d.dv
  · rw [memLanes, if_pos hv] at hl hq
    have hl64 := vecLanes_lt hl
    have hq64 := vecLanes_lt hq
    rw [areaPlace, areaPlace, areaSize, if_pos hv, if_pos hv, if_pos hv, Prod.ext_iff]
    omega
  · exact .inl ((eq_of_mem_scalarLanes hv hq).trans (eq_of_mem_scalarLanes hv hl).symm)

/-! ## SPL and FIL (07 R155) -/

theorem spillWrite_eq (m : SMap Byte) (g : Group) (c : Crew) (d : LSlot) (l : Nat × Nat) :
    (if d.dv then m.setList 0 (spillKey l.2 (spillLane d l.1)) (leBytes 4 (g.getV l.2 d.d.toNat l.1).toNat)
      else m.setList 0 (spillKey c.ctx (spillScalar d)) (leBytes 8 (g.getS c.ctx d.d.toNat).toNat)) =
    m.setList 0 (areaPlace c d l) (leBytes (areaSize d) (splValue g c d l)) := by
  rw [spillKey_lane, spillKey_scalar, areaPlace, areaSize, splValue]
  cases d.dv <;> rfl

theorem spillRead_eq (m : SMap Byte) (c : Crew) (d : LSlot) (l : Nat × Nat) :
    (if d.dv then SMap.getList 0 m (spillKey l.2 (spillLane d l.1)) 4 else SMap.getList 0 m (spillKey c.ctx (spillScalar d)) 8) =
    (List.range (areaSize d)).map fun j => SMap.get 0 m (areaPlace c d l + j) := by
  rw [spillKey_lane, spillKey_scalar, areaPlace, areaSize, SMap.getList_eq_map, SMap.getList_eq_map]
  cases d.dv <;> rfl

theorem exec_spl {s : State} {g : Group} {c : Crew} (h : s.crew s.focus = some (g, c)) (d : LSlot) : exec (.spl d) s =
    .next (s.modGroup s.focus fun x => { x with
      spill := writeAll (areaPlace c d) (fun l => leBytes (areaSize d) (splValue g c d l)) (memLanes g c (.l d)) g.spill }) := by
  show execSpl d s = _
  simp only [execSpl, h, spillWrite_eq, writeAll]

/-- The write of a lane of FIL. -/
abbrev filWrite (g : Group) (c : Crew) (d : LSlot) (l : Nat × Nat) : RegWr :=
  { cls := if d.dv then .v else .s, reg := d.d.toNat, slot := l.2, lane := l.1
    val := BitVec.ofNat 64 (leNat ((List.range (areaSize d)).map fun j => SMap.get 0 g.spill (areaPlace c d l + j))) }

theorem exec_fil {s : State} {g : Group} {c : Crew} (h : s.crew s.focus = some (g, c)) (d : LSlot) : exec (.fil d) s =
    .next (putLater s.focus (s.cycle + 24) (s.cycle + d.lat.toNat + 1) ((memLanes g c (.l d)).map (filWrite g c d)) s) := by
  show execFil d s = _
  simp only [execFil, h, spillRead_eq]
  rfl

theorem spillsAndFills : SpillsAndFills := by
  refine ⟨fun s g c d _ h => ?_, fun s g c d _ h => ?_⟩
  · have hlen : ∀ l, (leBytes (areaSize d) (splValue g c d l)).length = areaSize d := fun l => leBytes_length ..
    refine ⟨_, _, c, exec_spl h d, (OnlyGroup.modGroup ..).outsideKept, State.crew_modGroup h rfl, rfl, rfl, fun l hl j hj => ?_, fun k hk => ?_⟩
    · exact (get_writeAll_of_mem hlen g.spill areaPlace_disjoint hl hj).trans (getD_leBytes _ _ hj)
    · exact get_writeAll_of_out hlen _ g.spill hk
  · obtain ⟨g', c', hc', hx, hin⟩ := putLater_inFlight h (s.cycle + 24) (s.cycle + d.lat.toNat + 1) ((memLanes g c (.l d)).map (filWrite g c d))
    exact ⟨_, g', c', exec_fil h d, (OnlyGroup.putLater ..).outsideKept, hc', hx, hin.trans (by rw [List.map_map]; rfl)⟩

/-! ## The transfer slot (07 R154, 03 R54) -/

theorem getLsbD_setBit {w : Nat} (x : BitVec w) (i : Nat) (b : Bool) {j : Nat} (hj : j < w) : (setBit x i b).getLsbD j = if j = i then b else x.getLsbD j := by
  have hone : (1#w <<< i).getLsbD j = decide (j = i) := by
    rw [BitVec.getLsbD_shiftLeft, BitVec.getLsbD_one, decide_eq_true hj, Bool.true_and, decide_eq_true (by omega : 0 < w), Bool.true_and, ← decide_not,
      ← Bool.decide_and, decide_eq_decide]
    omega
  cases b with
  | true =>
    rw [setBit, if_pos rfl, BitVec.getLsbD_or, hone]
    by_cases hji : j = i
    · rw [decide_eq_true hji, Bool.or_true, if_pos hji]
    · rw [decide_eq_false hji, Bool.or_false, if_neg hji]
  | false =>
    rw [setBit, if_neg Bool.false_ne_true, BitVec.getLsbD_and, BitVec.getLsbD_not, hone, decide_eq_true hj, Bool.true_and]
    by_cases hji : j = i
    · rw [decide_eq_true hji, Bool.not_true, Bool.and_false, if_pos hji]
    · rw [decide_eq_false hji, Bool.not_false, Bool.and_true, if_neg hji]

/-- Bits set one by one: that of lane `i` is what its place holds, if it is among the places, which name one slot for each lane. -/
theorem getLsbD_foldl_setBit (slotOf : Nat → Nat) (bit : Nat × Nat → Bool) {ls : List (Nat × Nat)} (hs : ∀ l ∈ ls, l.2 = slotOf l.1) (v : W64) {i : Nat}
    (hi : i < 64) :
    (ls.foldl (fun v l => setBit v l.1 (bit l)) v).getLsbD i = if (i, slotOf i) ∈ ls then bit (i, slotOf i) else v.getLsbD i := by
  induction ls generalizing v with
  | nil => rfl
  | cons a ls ih =>
    have ha : a = (a.1, slotOf a.1) := Prod.ext rfl (hs a List.mem_cons_self)
    rw [List.foldl_cons, ih (fun l hl => hs l (List.mem_cons_of_mem _ hl)), getLsbD_setBit _ _ _ hi]
    by_cases hmem : (i, slotOf i) ∈ ls
    · rw [if_pos hmem, if_pos (List.mem_cons_of_mem _ hmem)]
    · by_cases hia : i = a.1
      · rw [if_neg hmem, if_pos hia, hia, ← ha, if_pos List.mem_cons_self]
      · rw [if_neg hmem, if_neg hia, if_neg (by rw [List.mem_cons, ha]; simp [hia, hmem])]

theorem slot_of_ownLanes {g : Group} {c : Crew} : ∀ l ∈ ownLanes g c, l.2 = laneSlot c l.1 := by
  intro l hl
  obtain ⟨i, -, rfl⟩ := List.mem_map.mp (List.mem_of_mem_filter hl)
  rfl

theorem exec_xv {s : State} {g : Group} {c : Crew} (h : s.crew s.focus = some (g, c)) (vd : BitVec 6) (ss : BitVec 5) : exec (.xv vd ss) s =
    .next (putLater s.focus (s.cycle + 2) (s.cycle + 2) (c.strands.map fun l =>
      { cls := .v, reg := vd.toNat, slot := l.2, lane := l.1, val := ((g.getS c.ctx ss.toNat).setWidth 32).setWidth 64 }) s) := by
  show execXv vd ss s = _
  simp only [execXv, h]

/-- What XS makes of its lane. -/
abbrev xsValue (g : Group) (c : Crew) (sx : Bool) (vs lane : BitVec 6) : W64 :=
  let x := g.getV (laneSlot c lane.toNat) vs.toNat lane.toNat
  if sx then x.signExtend 64 else x.setWidth 64

theorem xsValue_eq (g : Group) (c : Crew) (sx : Bool) (vs lane : BitVec 6) : xsValue g c sx vs lane =
    let x := g.getV (laneSlot c lane.toNat) vs.toNat lane.toNat
    if sx then BitVec.ofInt 64 x.toInt else BitVec.ofNat 64 x.toNat := by
  cases sx with
  | true => rfl
  | false => exact (BitVec.ofNat_toNat ..).symm

theorem exec_xs {s : State} {g : Group} {c : Crew} (h : s.crew s.focus = some (g, c)) (sx : Bool) (sd : BitVec 5) (vs lane : BitVec 6) :
    exec (.xs sx sd vs lane) s =
      .next (putLater s.focus (s.cycle + 2) (s.cycle + 2) [{ cls := .s, reg := sd.toNat, slot := 0, lane := 0, val := xsValue g c sx vs lane }] s) := by
  show execXs sx sd vs lane s = _
  simp only [execXs, h]

/-- The bits of a predicate register in the lanes that are the crew's. -/
abbrev ownBits (g : Group) (c : Crew) (pk : BitVec 3) : W64 := (ownLanes g c).foldl (fun v l => setBit v l.1 (g.getP l.2 pk.toNat l.1)) 0

theorem exec_xsP {s : State} {g : Group} {c : Crew} (h : s.crew s.focus = some (g, c)) (sd : BitVec 5) (pk : BitVec 3) : exec (.xsP sd pk) s =
    .next (putLater s.focus (s.cycle + 2) (s.cycle + 2) [{ cls := .s, reg := sd.toNat, slot := 0, lane := 0, val := ownBits g c pk }] s) := by
  show execXsP sd pk s = _
  simp only [execXsP, h]

theorem getLsbD_ownBits (g : Group) (c : Crew) (pk : BitVec 3) {i : Nat} (hi : i < 64) :
    (ownBits g c pk).getLsbD i = ((ownLanes g c).contains (i, laneSlot c i) && g.getP (laneSlot c i) pk.toNat i) := by
  rw [ownBits, getLsbD_foldl_setBit (laneSlot c) (fun l => g.getP l.2 pk.toNat l.1) slot_of_ownLanes 0 hi]
  by_cases hmem : (i, laneSlot c i) ∈ ownLanes g c
  · rw [if_pos hmem, List.contains_iff_mem.mpr hmem, Bool.true_and]
  · rw [if_neg hmem, Bool.eq_false_iff.mpr (mt List.contains_iff_mem.mp hmem), Bool.false_and]
    exact BitVec.getLsbD_zero

/-- Results of the transfer slot, two cycles on, are all that it changes. -/
theorem transfers_of_exec {s : State} {g : Group} {c : Crew} (h : s.crew s.focus = some (g, c)) {i : Instr} {ws : List RegWr}
    (he : exec i s = .next (putLater s.focus (s.cycle + 2) (s.cycle + 2) ws s)) :
    ∃ (t : State) (g' : Group) (c' : Crew), exec i s = .next t ∧ OutsideKept s t ∧ t.crew s.focus = some (g', c') ∧ OnlyInFlight g c g' c' ∧
      c'.inflight = c.inflight ++ ws.map (RegWr.landing false false (s.cycle + 2) (s.cycle + 2)) := by
  obtain ⟨g', c', hc', hx, hin⟩ := putLater_inFlight h (s.cycle + 2) (s.cycle + 2) ws
  exact ⟨_, g', c', he, (OnlyGroup.putLater ..).outsideKept, hc', hx, hin⟩

theorem setWidth_setWidth_eq_ofNat (x : W64) : (x.setWidth 32).setWidth 64 = BitVec.ofNat 64 (x.toNat % 2 ^ 32) :=
  BitVec.eq_of_toNat_eq (by simp)

theorem transfers : Transfers := by
  intro s g c h
  refine ⟨fun vd ss => ?_, fun sx sd vs lane => ?_, fun sd pk => ?_, fun ss => rfl⟩
  · obtain ⟨t, g', c', he, ho, hc', hx, hin⟩ := transfers_of_exec h (exec_xv h vd ss)
    refine ⟨t, g', c', he, ho, hc', hx, hin.trans ?_⟩
    rw [List.map_map, setWidth_setWidth_eq_ofNat]
    rfl
  · obtain ⟨t, g', c', he, ho, hc', hx, hin⟩ := transfers_of_exec h (exec_xs h sx sd vs lane)
    exact ⟨t, g', c', he, ho, hc', hx, hin.trans (by rw [xsValue_eq]; rfl)⟩
  · obtain ⟨t, g', c', he, ho, hc', hx, hin⟩ := transfers_of_exec h (exec_xsP h sd pk)
    exact ⟨t, g', c', ownBits g c pk, he, ho, hc', hx, hin, fun i hi => getLsbD_ownBits g c pk hi⟩

/-- Settles O18: each lane's register at a place of its own in the spill areas; and each transfer by the one write that it puts in flight. -/
theorem spillsAndTransfers : Obligations.SpillsAndTransfers := ⟨spillsAndFills, transfers⟩

end Sys2Proof.Machine
end
